-- ==== Sys2Proof/Word.lean ====
section
/-! DEFINITION. The machine's word types and their plainest helpers (R4, R5, R251). -/

namespace Sys2Proof

/-- A byte of memory (R5). -/
abbrev Byte := BitVec 8
/-- A scalar, an address or a special-register piece: 64 bits (R251). -/
abbrev Word := BitVec 64
/-- A predicate: one bit per 32-bit lane (R251). -/
abbrev Pred := BitVec 32
/-- A vector, a latch or a stream element: 1024 bits (R208, R251). -/
abbrev Vec := BitVec 1024
/-- One slot of a bundle (R94). -/
abbrev SlotWord := BitVec 56
/-- A bundle (R94). -/
abbrev BundleBits := BitVec 512
/-- A signature: a set of 512 bits (R174). -/
abbrev Sig := BitVec 512

end Sys2Proof
end

