-- ==== Sys2Proof/Syntax.lean ====
section
/-! DEFINITION. The syntax: operands (R59, R100 to R103) and the ONE inductive `Instr`, with one constructor for
each row of spec/opcode_table.json. A row of the table is either an operation of a bundle's slot or an indivisible
event of one of the part's other agents; both are constructors, and only the former have an encoding. -/

namespace Sys2Proof

/-- A guard: `GRD` bit 45 is the negate bit, bits [44:41] the predicate (R100). -/
structure Guard where
  neg : Bool
  p : Fin 16
deriving DecidableEq, Repr

/-- `GRD` of 0b00000, a guard on p0, which is all ones (R64, R100). -/
def Guard.always : Guard := ⟨false, 0⟩

/-- A source operand of a file of `n` registers (R102): register, bypass latch, neighbour latch, stream. -/
inductive Src (n : Nat) where
  | reg (i : Fin n)
  | latch (k : Fin 8)
  | nbr (k : Fin 8)
  | stream (k : Fin 8)
deriving DecidableEq, Repr

/-- A destination operand (R102): register, suppressed (latch only), stream, null. -/
inductive Dst (n : Nat) where
  | reg (i : Fin n)
  | latch
  | stream (k : Fin 8)
  | null
deriving DecidableEq, Repr

/-- Integer element types of majors 0x28 to 0x2D (R114). -/
inductive ITy where
  | i8 | i16 | i32 | n8 | n16 | n32
deriving DecidableEq, Repr

/-- Floating element types of majors 0x2E to 0x31 (R114). -/
inductive FTy where
  | f32 | f16 | bf16
deriving DecidableEq, Repr

/-- Rounding modes (R132); `rna` is accepted only by conversions. -/
inductive Rnd where
  | rne | rtz | rdn | rup | rna
deriving DecidableEq, Repr

/-- Types of a conversion (R276). -/
inductive XTy where
  | i8 | i16 | i32 | n8 | n16 | n32 | f32 | f16 | bf16 | e4m3 | e5m2
deriving DecidableEq, Repr

/-- Microscaled formats (R140). -/
inductive MXF where
  | mx8 | mx6 | mx4
deriving DecidableEq, Repr

/-- Condition codes of CMP and VCMP (R107). -/
inductive CC where
  | eq | ne | lt | le | gt | ge | ltn | len | gtn | gen
deriving DecidableEq, Repr

/-- Condition codes of VFCMP (R113). -/
inductive FCC where
  | eq | ne | lt | le | gt | ge | un | ord
deriving DecidableEq, Repr

/-- Operations of VRED (R113); VSCAN and VFRED use the first three. -/
inductive RedOp where
  | add | min | max | and | or | xor
deriving DecidableEq, Repr

/-- Scalar access and element sizes `.b .h .w .d` (R109). -/
inductive ESz where
  | b | h | w | d
deriving DecidableEq, Repr

/-- Widths of SXT and ZXT (R256). -/
inductive XSz where
  | b | h | w
deriving DecidableEq, Repr

/-- Sizes of an atomic: majors 0x22 and 0x24 are 32-bit, 0x23 and 0x25 are 64-bit (R312). -/
inductive ASz where
  | w | d
deriving DecidableEq, Repr

/-- The atomic operations (R109, R313). -/
inductive AOp where
  | add | min | max | minn | maxn | and | or | xor | xchg | cas | fadd
deriving DecidableEq, Repr

/-- Destination of a load, with the access size it fixes (R289). -/
inductive LdDst where
  | s (z : ESz) (d : Dst 64)
  | v (d : Dst 128)
deriving DecidableEq, Repr

/-- Source of a store, with the access size it fixes (R289). -/
inductive StSrc where
  | s (z : ESz) (a : Src 64)
  | v (a : Src 128)
deriving DecidableEq, Repr

/-- The address of an M-form access: `BASE` and `OFF16` (R101, R282). -/
structure MAddr where
  base : Fin 64
  off : BitVec 16
deriving DecidableEq, Repr

/-! Operand bundles, one per shape of instruction. -/

structure S1 where
  g : Guard
  d : Dst 64
  a : Src 64
deriving DecidableEq, Repr
structure S2 where
  g : Guard
  d : Dst 64
  a : Src 64
  b : Src 64
deriving DecidableEq, Repr
structure S3 where
  g : Guard
  d : Dst 64
  a : Src 64
  b : Src 64
  c : Src 64
deriving DecidableEq, Repr
structure P1 where
  g : Guard
  d : Dst 16
  a : Src 16
deriving DecidableEq, Repr
structure P2 where
  g : Guard
  d : Dst 16
  a : Src 16
  b : Src 16
deriving DecidableEq, Repr
structure V1 where
  g : Guard
  ty : ITy
  d : Dst 128
  a : Src 128
deriving DecidableEq, Repr
structure V2 where
  g : Guard
  ty : ITy
  d : Dst 128
  a : Src 128
  b : Src 128
deriving DecidableEq, Repr
structure V3 where
  g : Guard
  ty : ITy
  d : Dst 128
  a : Src 128
  b : Src 128
  c : Src 128
deriving DecidableEq, Repr
/-- Vector destination from one scalar: VBCAST, VIOTA. -/
structure VS where
  g : Guard
  ty : ITy
  d : Dst 128
  a : Src 64
deriving DecidableEq, Repr
structure F1 where
  g : Guard
  ty : FTy
  rm : Rnd
  d : Dst 128
  a : Src 128
deriving DecidableEq, Repr
structure F2 where
  g : Guard
  ty : FTy
  rm : Rnd
  d : Dst 128
  a : Src 128
  b : Src 128
deriving DecidableEq, Repr
structure F3 where
  g : Guard
  ty : FTy
  rm : Rnd
  d : Dst 128
  a : Src 128
  b : Src 128
  c : Src 128
deriving DecidableEq, Repr
/-- An atomic's operands (R312): the register is operand and destination. -/
structure AT where
  g : Guard
  z : ASz
  r : Fin 64
  m : MAddr
  tok : Fin 8
deriving DecidableEq, Repr
/-- A scratchpad access's operands (R289). -/
structure LD where
  g : Guard
  d : LdDst
  m : MAddr
  buf : Fin 16
deriving DecidableEq, Repr
/-- A global or cluster load's operands (R295, R298); `lease` is `none` when `LX` is 0 (R111). -/
structure LG where
  g : Guard
  d : LdDst
  m : MAddr
  tok : Fin 8
  lease : Option (Fin 8)
  buf : Fin 16
deriving DecidableEq, Repr
structure SG where
  g : Guard
  a : StSrc
  m : MAddr
  tok : Fin 8
  lease : Option (Fin 8)
  buf : Fin 16
deriving DecidableEq, Repr
/-- An engine command's operands (R333). -/
structure EC where
  g : Guard
  m : MAddr
  tok : Fin 8
deriving DecidableEq, Repr
/-- Operands of REL and RELF (R318). -/
structure RL where
  g : Guard
  a : Src 64
  m : MAddr
  tok : Fin 8
deriving DecidableEq, Repr
/-- Operands of CWADD (R321). -/
structure CW where
  g : Guard
  r : Fin 64
  m : MAddr
  tok : Fin 8
deriving DecidableEq, Repr
/-- Operands of VCVT (R277). -/
structure CV where
  g : Guard
  d : Dst 128
  a : Src 128
  tt : XTy
  sty : XTy
  part : Fin 4
  crm : Rnd
  wrp : Bool
  iee : Bool
deriving DecidableEq, Repr
/-- The format pair of a MACC: `XF`, or `.f` with a loop counter (R326, R329). -/
inductive MFmt where
  | xf (f : MXF)
  | ft (k : Fin 4)
deriving DecidableEq, Repr

/-- The shape and argument of an error the hardware detects in an open region (R393, R394): in core state
(`none`) or in an operand at an address. -/
abbrev ErrSite := Option Word

/-- Device registers that have no row of their own in the table (R403, R405, R473 to R478, R121, R192, R441,
R422), written by firmware or the host (R6). -/
inductive DevReg where
  /-- %ktt of a core (R422; FW: R6). -/
  | ktt (core : Nat)
  /-- A register at an offset of a die's measurement window (R473). -/
  | window (die : Fin 4) (off : Nat)
  /-- DSAVE of a die (R405). -/
  | dsave (die : Fin 4)
  /-- A register at an offset of a die dispatcher (R403, R457, R481). -/
  | disp (die : Fin 4) (off : Nat)
  /-- The launch window of a die, which firmware opens at bring-up (R483). -/
  | launchWindow (die : Fin 4)
  /-- %sem of a core (R121). -/
  | sem (core : Nat)
  /-- %lct of a core (R192). -/
  | lct (core : Nat)
  /-- %feat of the package (R441). -/
  | feat
  /-- `CCTL` of counter `n` of a core (R475). -/
  | cctl (core : Nat) (n : Fin 16)
  /-- `COUNT`, `TENA` and `TRUN` of counter `n` (R473: `CTRS` is RW). -/
  | count (core : Nat) (n : Fin 16)
  | tena (core : Nat) (n : Fin 16)
  | trun (core : Nat) (n : Fin 16)
  /-- `MROT` (R477). -/
  | mrot (core : Nat)
  /-- `TBASE` and `TCTL` (R478). -/
  | tbase (core : Nat)
  | tctl (core : Nat)
deriving DecidableEq, Repr

/-- What a trace record says (R479, R485). -/
inductive TraceKind where
  | stall (cycles : BitVec 48) (cause : Fin 8)
  | branches
  | flagWait (ticks : BitVec 56)
  | overflow
  | switch (tile : BitVec 56)
  | sample (pc : BitVec 50) (slot : BitVec 4)
deriving DecidableEq, Repr

/-- A request that reaches a home from the host or from another package (R465, R466, R469). -/
inductive FarReq where
  | read (addr n : Nat)
  | write (addr : Nat) (data : List Byte)
  | atomic (op : AOp) (z : ASz) (addr : Nat) (x x2 : Word)
  /-- an ordered atomic of another package, with its number and step (R194) -/
  | ordAtomic (op : AOp) (z : ASz) (addr : Nat) (x x2 : Word) (num : BitVec 16) (step : Word)
  /-- CWADD's update of a word (R322) -/
  | cwadd (addr : Nat) (v : Word)
  /-- the update of a sync object by a REL or RELF, with its value and signature (R180, R181) -/
  | release (full : Bool) (addr : Nat) (v : Word) (sg : Sig)
deriving DecidableEq, Repr
/-- What a flit carries: a request, or none, and the number of the next flit its sender awaits (R466). -/
structure Flit where
  req : Option FarReq := none
  ack : Nat := 0
deriving DecidableEq, Repr
/-- A flow at the port it arrives by: the source's package and number, and the destination die (R468, R470). -/
structure PortFlow where
  port : Fin 32
  flow : Nat × Nat × Nat
deriving DecidableEq, Repr
/-- A port that goes down, and the packages that no path reaches any more (R471). -/
structure PortLoss where
  port : Fin 32
  lost : List Nat := []
deriving DecidableEq, Repr
/-- A participant of another package: its identifier, its command's descriptor and identifier array, and the elements it sends
(R368 to R370). -/
structure FarColl where
  id : Nat
  desc : List Byte
  arr : List Nat
  send : List Word
deriving DecidableEq, Repr
/-- A collective's command, and the participants of other packages that have started (R369, R370). -/
structure CollRun where
  id : Nat
  far : List FarColl := []
deriving DecidableEq, Repr
/-- What a snooped agent has pending for a line (R197). -/
inductive SnoopKind where
  | read
  | own
  | maskedWrite
  | atomic (core : Nat)
deriving DecidableEq, Repr
/-- A pending request for a line: its kind, cluster, tick of issue and source number. -/
structure SnoopReq where
  kind : SnoopKind
  cluster : Nat
  tick : Word
  src : Nat
deriving DecidableEq, Repr
/-- How a core leaves its task: voluntarily, or for a pre-emption, a debug stop, a fault, a domain stop, a page absence,
a budget fault (R408). -/
inductive SaveWhy where
  | yield
  | wait
  | preempt
  | debug
  | fault (cause : BitVec 8)
  /-- the stop of a single step, or of BKPT in one (R407) -/
  | step (cause : BitVec 8)
  /-- the claim has been overrun (R412) -/
  | overrun
  | domain
  | page
  | budget
deriving DecidableEq, Repr

/-- The instructions and events of the table, in its order. -/
inductive Instr where
  /- bundles and results -/
  | bundleIssue (core : Nat)
  | resultLand (core : Nat)
  | ringPushEffect (core : Nat)
  | tokenComplete (core n : Nat)
  /- control, slot 0 (R226) -/
  | br (g : Guard) (off : BitVec 32)
  | call (g : Guard) (lnk : Dst 64) (off : BitVec 32)
  | bri (g : Guard) (a : Src 64)
  | calli (g : Guard) (d : Dst 64) (a : Src 64)
  | ret (g : Guard) (a : Src 64)
  | lsetup (k : Fin 4) (n : Fin 64) (off : BitVec 32)
  | loop (k : Fin 4) (off : BitVec 32)
  | loopx (k : Fin 4) (off : BitVec 32)
  | ckpt (off : BitVec 32)
  | check (p : Fin 16)
  | abort (g : Guard)
  | gclr (a : Src 64)
  | trap (g : Guard) (code : BitVec 23)
  | bkpt (g : Guard) (code : BitVec 23)
  | halt (g : Guard)
  | srd (g : Guard) (d : Dst 64) (reg : BitVec 8) (piece : BitVec 4)
  | swr (g : Guard) (a : Src 64) (reg : BitVec 8) (piece : BitVec 4)
  | tswait (a : Src 64)
  | iflush (a : Src 64)
  /- scalar, slots 1 and 2 (R256) -/
  | add (x : S2) | sub (x : S2) | and (x : S2) | or (x : S2) | xor (x : S2) | andn (x : S2) | orn (x : S2)
  | shl (x : S2) | shr (x : S2) | sra (x : S2) | rotl (x : S2) | rotr (x : S2)
  | min (x : S2) | max (x : S2) | minn (x : S2) | maxn (x : S2)
  | clz (x : S1) | ctz (x : S1) | popc (x : S1) | brev (x : S1)
  | sxt (z : XSz) (x : S1) | zxt (z : XSz) (x : S1) | mov (x : S1)
  | sel (x : S2) (c : Src 16)
  | lea (x : S2) (sh : Fin 8)
  | bfx (x : S2) | bfi (x : S3)
  | mul (x : S2) | mulh (x : S2) | mulhn (x : S2)
  | div (x : S2) | divn (x : S2) | rem (x : S2) | remn (x : S2)
  | addi (x : S1) (imm : BitVec 23)
  | movi (g : Guard) (d : Dst 64) (imm : BitVec 32)
  | movhi (g : Guard) (d : Fin 64) (imm : BitVec 32)
  | cmp (cc : CC) (g : Guard) (d : Dst 16) (a b : Src 64)
  | cmpImm (cc : CC) (g : Guard) (d : Dst 16) (a : Src 64) (imm : BitVec 23)
  | pand (x : P2) | por (x : P2) | pxor (x : P2) | pandn (x : P2) | pnot (x : P1)
  | pfroms (g : Guard) (d : Dst 16) (a : Src 64)
  | ptos (g : Guard) (d : Dst 64) (a : Src 16)
  /- vector, slots 5 and 6 (R263 to R267) -/
  | vadd (x : V2) | vsub (x : V2) | vmul (x : V2) | vmulh (x : V2) | vmad (x : V3)
  | vadds (x : V2) | vsubs (x : V2) | vmin (x : V2) | vmax (x : V2) | vabs (x : V1) | vneg (x : V1)
  | vand (x : V2) | vor (x : V2) | vxor (x : V2) | vandn (x : V2)
  | vshl (x : V2) | vshr (x : V2) | vsra (x : V2)
  | vsel (x : V2) (c : Src 16)
  | vcmp (cc : CC) (g : Guard) (ty : ITy) (d : Dst 16) (a b : Src 128)
  | vbcast (x : VS) | viota (x : VS)
  | vextr (g : Guard) (ty : ITy) (d : Dst 64) (a : Src 128) (b : Src 64)
  | vins (g : Guard) (ty : ITy) (d : Dst 128) (a : Src 128) (b c : Src 64)
  | vperm (x : V2)
  | vslide (x : V2) (c : Src 64)
  | vzip (x : V2) | vunzip (x : V2)
  | vred (op : RedOp) (g : Guard) (ty : ITy) (d : Dst 64) (a : Src 128)
  | vscan (op : RedOp) (x : V1)
  /- vector floating point (R268) -/
  | vfadd (x : F2) | vfsub (x : F2) | vfmul (x : F2) | vfma (x : F3) | vfms (x : F3) | vfnma (x : F3)
  | vfmin (x : F2) | vfmax (x : F2) | vfabs (x : F1) | vfneg (x : F1) | vfclass (x : F1)
  | vfcmp (cc : FCC) (g : Guard) (ty : FTy) (d : Dst 16) (a b : Src 128)
  | vfrcp (x : F1) | vfrsq (x : F1) | vfsqrt (x : F1) | vexp2 (x : F1) | vlog2 (x : F1)
  | vfred (op : RedOp) (g : Guard) (ty : FTy) (rm : Rnd) (d : Dst 64) (a : Src 128)
  /- conversion (R275) -/
  | vcvt (x : CV)
  | vquant (d : Dst 128) (a : Src 128) (f : MXF) (nr : Bool) (ring : Fin 16) (crm : Rnd)
  | vquantF (d : Dst 128) (a : Src 128) (side : Bool) (k : Fin 4) (crm : Rnd)
  | vdeq (g : Guard) (d : Dst 128) (a : Src 128) (f : MXF) (crm : Rnd)
  | vamax (g : Guard) (ty : FTy) (a : Src 128) (ring : Fin 16)
  | vamaxC (g : Guard) (ring : Fin 16)
  | vpack (x : V2) (wrp : Bool)
  | vunpack (x : V1) (part : Bool)
  /- memory, slots 3 and 4 (R289 to R301) -/
  | ld (x : LD) | ldG (x : LD)
  | st (g : Guard) (a : StSrc) (m : MAddr) (buf : Fin 16)
  | lds (g : Guard) (z : ESz) (d : Dst 128) (a b : Src 64)
  | sts (g : Guard) (z : ESz) (a b : Src 64) (c : Src 128)
  | ldx (g : Guard) (z : ESz) (d : Dst 128) (a : Src 64) (b : Src 128)
  | stx (g : Guard) (z : ESz) (a : Src 64) (b c : Src 128)
  | ldg (x : LG) | ldgG (x : LG) | stg (x : SG) | ldc (x : LG) | stc (x : SG)
  | pf (g : Guard) (m : MAddr) (lease : Option (Fin 8)) (buf : Fin 16)
  | smap (g : Guard) (a b : Src 64) (size : Fin 7)
  | sunmap (g : Guard) (a : Src 64) | sdrop (g : Guard) (a : Src 64)
  | sflush (g : Guard) (m : MAddr) (tok : Fin 8) (buf : Fin 16)
  /- streams (R305 to R309) -/
  | qbind (g : Guard) (q : Fin 8) (m : MAddr)
  | qunbind (g : Guard) (q : Fin 8)
  | qstat (g : Guard) (d : Dst 64) (q : Fin 8)
  | qflush (g : Guard) (q : Fin 8)
  | streamFetch (core : Nat) (q : Fin 8)
  | streamWrite (core : Nat) (q : Fin 8)
  /- atomics (R312 to R315) -/
  | aadd (x : AT) | amin (x : AT) | amax (x : AT) | aminn (x : AT) | amaxn (x : AT) | aand (x : AT) | aor (x : AT)
  | axor (x : AT) | axchg (x : AT) | acas (x : AT) | afadd (x : AT)
  | atomicOrd (op : AOp) (x : AT)
  | orderedAtomicApply (slice : Nat)
  | orderedAtomicArrival (slice n : Nat)
  | orderedAtomicRetry (slice n : Nat)
  /- synchronisation (R316 to R323) -/
  | acq (g : Guard) (d : Option (Fin 64)) (m : MAddr) (tok : Fin 8)
  | rel (x : RL) | relf (x : RL)
  | fence (g : Guard) (tok : Fin 8) | fencex (g : Guard) (tok : Fin 8)
  | cwaddAdd (x : CW) | cwaddArrive (x : CW) | cwaddRead (x : CW)
  | waitcw (g : Guard) (r : Fin 64) (m : MAddr)
  /- engines (R333 to R372) -/
  | sscan (x : EC) | cpy (x : EC) | cpyr (x : EC) | mcast (x : EC) | gath (x : EC) | scat (x : EC) | coll (x : EC)
  | gnode (x : EC)
  | engineCommandStart (id : Nat)
  | engineItemComplete (id item : Nat)
  | sscanComplete (id : Nat)
  | collComplete (run : CollRun)
  /- matrix, slot 7 (R326) -/
  | mpush (g : Guard) (pt : Fin 8) (a : Src 128)
  | macc (g : Guard) (bank : Fin 4) (cls : Bool) (f : MFmt) (a b : Option (Src 128))
  | mshiftEdge (g : Guard) (a : Src 128)
  | mshiftBank (g : Guard) (bank : Fin 4)
  | mdrain (g : Guard) (d : Dst 128) (bank : Fin 4) (ty : FTy) (rm : Rnd) (row : Fin 16)
  | mclr (g : Guard) (bank : Fin 4) (ca : Bool)
  | msel (g : Guard) (md ms : Fin 4) (xch : Bool)
  /- speculative regions (R237 to R240, R393 to R395) -/
  | rollback (core : Nat) (cause : Fin 16)
  | rollbackComplete (core : Nat)
  | regionStepLimit (core : Nat)
  | commitDrainComplete (core : Nat)
  | uncorrectableError (core : Nat) (site : ErrSite) (slot : Fin 8)
  | rerunOutcome (core : Nat)
  /- launches, graphs and tasks (R20 to R52, R408 to R439) -/
  | launchDispatch (die : Fin 4)
  | taskBind (core : Nat)
  | nodeComplete (launch node : Nat)
  | nodeFail (launch node : Nat) (cause : BitVec 8)
  | waitNodeSatisfied (launch node : Nat)
  | waitingTaskReady (task : Nat)
  | priority15Preempt (task : Nat)
  | yieldOverrun (core : Nat)
  | taskSave (core : Nat) (why : SaveWhy)
  | taskRestore (core task : Nat)
  | savedCommandComplete (id : Nat)
  | migrationRequest (ktt vbase : Nat) (tick pkg src : Nat)
  | migrationReply (ktt vbase : Nat)
  /- dispatcher registers (R404 to R407, R457, R481, R473) -/
  | dfcmdQuery (die : Fin 4) (dom : BitVec 12)
  | dfcmdResume (die : Fin 4) (dom : BitVec 12)
  | dfcmdCancel (die : Fin 4) (dom : BitVec 12)
  | ddbgStop (die : Fin 4) (slot : BitVec 12)
  | ddbgStep (die : Fin 4) (slot : BitVec 12)
  | ddbgResume (die : Fin 4) (slot : BitVec 12)
  | dcfgWrite (die : Fin 4) (v : Word)
  | dcfgApply (die : Fin 4)
  | dmrtWrite (die : Fin 4) (v : Word)
  | dmrtApply (die : Fin 4)
  | domeReadingStart (die : Fin 4) (v : Word)
  | domeReading (die : Fin 4)
  | measurementClear (core : Nat)
  | registerWrite (r : DevReg) (v : Word)
  | rotationPeriodBoundary (core : Nat)
  | counterSample (core : Nat) (n : Fin 16) (slot : BitVec 4)
  | traceRecord (core : Nat) (k : TraceKind)
  /- time and coherence (R472, R190, R191, R171, R197) -/
  | belfryBeaconReceive (port : Fin 32) (pkg : Nat) (v : Word)
  | regionMerge (base : Nat)
  | homeRequest (cluster : Nat) (key : Nat) (own : Bool)
  | snoopConflict (first second : SnoopReq) (key : Nat)
  | homeMaskedWrite (cluster : Nat) (key : Nat)
  | l2Eviction (cluster : Nat) (key : Nat)
  | l2Invalidate (cluster : Nat) (key : Nat)
  | coreWriteback (core : Nat) (key : Nat) (evict : Bool)
  | lineFillComplete (core : Nat) (key : Nat)
  | stashFillComplete (core : Nat)
  /- hardware changes (R13, R301) -/
  | instanceDisabled (core : Nat) (unit : Fin 8)
  | stashWritebackAcknowledged (core : Nat)
  /- host, links and fabric (R465 to R471, R429) -/
  | hostMemWrite (die : Fin 4) (window : Bool) (addr : Nat) (data : List Byte)
  | hostMemRead (die : Fin 4) (window : Bool) (addr n : Nat)
  | flitReceive (module : Fin 4) (seq : Nat) (crcGood : Bool) (flit : Flit)
  | linkReplay (module : Fin 4)
  | laneFail (module : Fin 4)
  | moduleRetrainEnd (module : Fin 4) (ok : Bool)
  | packetReceive (flow : PortFlow) (seq : BitVec 16) (incarnation : Byte) (req : FarReq)
  | packetRetry (flow : PortFlow)
  | portFail (loss : PortLoss)
  | agentDeclaredDead (agent : Nat)
  | throttleStall (core cycles : Nat)
  /- without operands: the empty bundle (R95), COMMIT (R237), IFLUSH of everything (R425), the beacon (R472), the resets
  (R483), the Belfry step (R247) -/
  | nop
  | commit
  | iflushAll
  | belfryBeaconSend
  | coldReset
  | warmReset
  | belfryStepAdvance
deriving DecidableEq, Repr

end Sys2Proof
end

