-- ==== Sys2Proof/WellFormed.lean ====
section
/-! DEFINITION. Well-formedness: the operand kinds, types, condition codes and control values that each
instruction lists (checks 8 and 9 of R117, by R104). An event has no encoding and is always well formed. -/

namespace Sys2Proof

/-- A scalar or predicate source accepts kinds 00, 01, 10 (R250). -/
def Src.noStream {n : Nat} : Src n → Bool
  | .stream _ => false
  | _ => true

/-- A scalar source of a control operation accepts kinds 00 and 01 (R228). -/
def Src.control {n : Nat} : Src n → Bool
  | .reg _ => true
  | .latch _ => true
  | _ => false

/-- A scalar or predicate destination accepts kinds 00, 01, 11 (R250). -/
def Dst.noStream {n : Nat} : Dst n → Bool
  | .stream _ => false
  | _ => true

/-- A link or SRD destination accepts kinds 00 and 01 (R228). -/
def Dst.link {n : Nat} : Dst n → Bool
  | .reg _ => true
  | .latch => true
  | _ => false

def Src.isReg {n : Nat} : Src n → Bool
  | .reg _ => true
  | _ => false

def Dst.isReg {n : Nat} : Dst n → Bool
  | .reg _ => true
  | _ => false

/-- The destination kinds of LD (R289). -/
def LdDst.ok : LdDst → Bool
  | .s _ d => d.noStream
  | .v _ => true

/-- LDG and LDC take a register only (R295, R298). -/
def LdDst.isReg : LdDst → Bool
  | .s _ d => d.isReg
  | .v d => d.isReg

def StSrc.ok : StSrc → Bool
  | .s _ a => a.noStream
  | .v _ => true

def ITy.signed : ITy → Bool
  | .i8 | .i16 | .i32 => true
  | _ => false

/-- Element width in bits (R251). -/
def ITy.width : ITy → Nat
  | .i8 | .n8 => 8
  | .i16 | .n16 => 16
  | .i32 | .n32 => 32

def XTy.width : XTy → Nat
  | .i8 | .n8 | .e4m3 | .e5m2 => 8
  | .i16 | .n16 | .f16 | .bf16 => 16
  | .i32 | .n32 | .f32 => 32

def XTy.isInt : XTy → Bool
  | .i8 | .i16 | .i32 | .n8 | .n16 | .n32 => true
  | _ => false

/-- The modes a rounding field of two bits can name (R114). -/
def Rnd.two : Rnd → Bool
  | .rna => false
  | _ => true

/-- VSCAN and VFRED have add, min and max (R113). -/
def RedOp.three : RedOp → Bool
  | .add | .min | .max => true
  | _ => false

/-- The number of 64-bit pieces of special register `n`; 0 when `n` is unassigned (R219). -/
def sregPieces (n : Nat) : Nat :=
  if n ≤ 0x04 then 1
  else if n = 0x08 ∨ n = 0x09 then 1
  else if 0x10 ≤ n ∧ n ≤ 0x16 then 1
  else if 0x18 ≤ n ∧ n ≤ 0x1B then 1
  else if n = 0x20 then 16
  else if 0x21 ≤ n ∧ n ≤ 0x24 then 1
  else if n = 0x28 ∨ n = 0x29 then 1
  else if n = 0x2A then 8
  else if 0x30 ≤ n ∧ n ≤ 0x33 then 1
  else 0

def S1.ok (x : S1) : Bool := x.d.noStream && x.a.noStream
def S2.ok (x : S2) : Bool := x.d.noStream && x.a.noStream && x.b.noStream
def S3.ok (x : S3) : Bool := x.d.noStream && x.a.noStream && x.b.noStream && x.c.noStream
def P1.ok (x : P1) : Bool := x.d.noStream && x.a.noStream
def P2.ok (x : P2) : Bool := x.d.noStream && x.a.noStream && x.b.noStream
def AT.ok (op : AOp) (x : AT) : Bool :=
  (op != .cas || x.r.val % 2 == 0) && (op != .fadd || x.z == .w)

/-- R277: the encodings of VCVT that are legal. -/
def CV.ok (x : CV) : Bool :=
  x.sty != x.tt
    && x.part.val < Nat.max x.sty.width x.tt.width / Nat.min x.sty.width x.tt.width
    && (!x.wrp || x.tt.isInt) && (!x.iee || x.tt == .e5m2)

/-- R104: the instruction's operands are those its description lists. -/
def Instr.wellFormed : Instr → Bool
  | .br .. | .ckpt .. | .commit | .check .. | .abort .. | .trap .. | .bkpt .. | .halt .. | .loop .. | .loopx ..
  | .iflushAll => true
  | .call _ l _ => l.link
  | .bri _ a | .ret _ a | .gclr a | .tswait a | .iflush a => a.control
  | .calli _ d a => d.link && a.control
  | .lsetup _ _ off => 1 ≤ off.toNat && off.toNat ≤ 255
  | .srd _ d n p => d.link && p.toNat < sregPieces n.toNat
  | .swr _ a n p => a.noStream && p.toNat < sregPieces n.toNat
  | .add x | .sub x | .and x | .or x | .xor x | .andn x | .orn x | .shl x | .shr x | .sra x | .rotl x | .rotr x
  | .min x | .max x | .minn x | .maxn x | .lea x _ | .bfx x | .mul x | .mulh x | .mulhn x
  | .div x | .divn x | .rem x | .remn x => x.ok
  | .sel x c => x.ok && c.noStream
  | .clz x | .ctz x | .popc x | .brev x | .sxt _ x | .zxt _ x | .mov x | .addi x _ => x.ok
  | .bfi x => x.ok
  | .movi _ d _ => d.noStream
  | .movhi .. => true
  | .cmp _ _ d a b => d.noStream && a.noStream && b.noStream
  | .cmpImm _ _ d a _ => d.noStream && a.noStream
  | .pand x | .por x | .pxor x | .pandn x => x.ok
  | .pnot x => x.ok
  | .pfroms _ d a => d.noStream && a.noStream
  | .ptos _ d a => d.noStream && a.noStream
  | .vadd _ | .vsub _ | .vmul _ | .vmulh _ | .vmad _ | .vadds _ | .vsubs _ | .vmin _ | .vmax _
  | .vand _ | .vor _ | .vxor _ | .vandn _ | .vshl _ | .vshr _ | .vperm _ | .vzip _ | .vunzip _ => true
  | .vabs x | .vneg x => x.ty.signed
  | .vsra x => x.ty.signed
  | .vsel _ c => c.noStream
  | .vcmp _ _ _ d _ _ => d.noStream
  | .vbcast x | .viota x => x.a.noStream
  | .vextr _ _ d _ b => d.noStream && b.noStream
  | .vins _ _ _ _ b c => b.noStream && c.noStream
  | .vslide _ c => c.noStream
  | .vred _ _ _ d _ => d.noStream
  | .vscan op _ => op.three
  | .vfadd x | .vfsub x | .vfmul x => x.rm.two
  | .vfma x | .vfms x | .vfnma x => x.rm.two
  | .vfmin x | .vfmax x => x.rm == .rne
  | .vfabs x | .vfneg x | .vfclass x => x.rm == .rne
  | .vfcmp _ _ _ d _ _ => d.noStream
  | .vfrcp x | .vfrsq x | .vfsqrt x | .vexp2 x | .vlog2 x => x.rm.two
  | .vfred op _ _ rm d _ => op.three && (if op == .add then rm.two else rm == .rne) && d.noStream
  | .vcvt x => x.ok
  | .vquant _ _ _ nr ring _ => !nr || ring == 0
  | .vquantF .. | .vdeq .. | .vamax .. | .vamaxC .. => true
  | .vpack x _ => x.ty.width != 8
  | .vunpack x _ => x.ty.width != 32
  | .ld x | .ldG x => x.d.ok
  | .st _ a _ _ => a.ok
  | .lds _ _ _ a b => a.noStream && b.noStream
  | .sts _ _ a b _ => a.noStream && b.noStream
  | .ldx _ _ _ a _ => a.noStream
  | .stx _ _ a b c => a.noStream && !(b.isReg && c.isReg)
  | .ldg x | .ldgG x | .ldc x => x.d.isReg
  | .stg x | .stc x => x.a.ok
  | .pf .. | .sflush .. | .qbind .. | .qunbind .. | .qflush .. => true
  | .smap _ a b _ => a.noStream && b.noStream
  | .sunmap _ a | .sdrop _ a => a.noStream
  | .qstat _ d _ => d.noStream
  | .aadd x => x.ok .add
  | .amin x => x.ok .min
  | .amax x => x.ok .max
  | .aminn x => x.ok .minn
  | .amaxn x => x.ok .maxn
  | .aand x => x.ok .and
  | .aor x => x.ok .or
  | .axor x => x.ok .xor
  | .axchg x => x.ok .xchg
  | .acas x => x.ok .cas
  | .afadd x => x.ok .fadd
  | .atomicOrd op x => x.ok op
  | .acq .. | .fence .. | .fencex .. | .cwaddAdd .. | .cwaddArrive .. | .cwaddRead .. | .waitcw .. => true
  | .rel x | .relf x => x.a.noStream
  | .sscan .. | .cpy .. | .cpyr .. | .mcast .. | .gath .. | .scat .. | .coll .. | .gnode .. => true
  | .mpush .. | .macc .. | .mshiftEdge .. | .mshiftBank .. | .mclr .. | .msel .. => true
  | .mdrain _ _ _ ty rm _ => rm.two && (ty != .f32 || rm == .rne)
  | .bundleIssue .. | .nop | .resultLand .. | .ringPushEffect .. | .tokenComplete .. | .streamFetch .. | .streamWrite ..
  | .orderedAtomicApply .. | .orderedAtomicArrival .. | .orderedAtomicRetry .. | .engineCommandStart ..
  | .engineItemComplete .. | .sscanComplete .. | .collComplete .. | .rollback .. | .rollbackComplete ..
  | .regionStepLimit .. | .commitDrainComplete .. | .uncorrectableError .. | .rerunOutcome .. | .launchDispatch ..
  | .taskBind .. | .nodeComplete .. | .nodeFail .. | .waitNodeSatisfied .. | .waitingTaskReady .. | .priority15Preempt ..
  | .yieldOverrun .. | .taskSave .. | .taskRestore .. | .savedCommandComplete .. | .migrationRequest .. | .migrationReply ..
  | .dfcmdQuery .. | .dfcmdResume .. | .dfcmdCancel .. | .ddbgStop .. | .ddbgStep .. | .ddbgResume .. | .dcfgWrite ..
  | .dcfgApply .. | .dmrtWrite .. | .dmrtApply .. | .domeReadingStart .. | .domeReading .. | .measurementClear ..
  | .registerWrite .. | .rotationPeriodBoundary .. | .counterSample .. | .traceRecord .. | .belfryBeaconSend
  | .belfryBeaconReceive .. | .regionMerge .. | .homeRequest .. | .snoopConflict .. | .homeMaskedWrite .. | .l2Eviction ..
  | .l2Invalidate .. | .coreWriteback .. | .lineFillComplete .. | .stashFillComplete .. | .hostMemWrite .. | .hostMemRead ..
  | .flitReceive .. | .linkReplay .. | .laneFail .. | .moduleRetrainEnd .. | .packetReceive .. | .packetRetry ..
  | .portFail .. | .agentDeclaredDead .. | .throttleStall .. | .coldReset | .warmReset | .belfryStepAdvance
  | .instanceDisabled .. | .stashWritebackAcknowledged .. => true

end Sys2Proof
end

