-- ==== Sys2Proof/Decode.lean ====
section
/-! DEFINITION. Decoding a slot (R99 to R117), encoding one, and the bundle they stand in (R94 to R97).
`decodeSlot` gives checks 7, 8 and 9 of R117 for one slot, in that order. -/

namespace Sys2Proof

/-- The two encoding faults of checks 7 to 9 (R117): cause 0x01 and cause 0x02. -/
inductive EncFault where
  | illegal
  | reserved
deriving DecidableEq, Repr

/-- A field being decoded: whether check 8 fails on it, whether check 9 does, and its value. -/
structure Fld (α : Type) where
  ill : Bool
  res : Bool
  val : α

namespace Fld
def pure {α : Type} (a : α) : Fld α := ⟨false, false, a⟩
def ap {α β : Type} (f : Fld (α → β)) (x : Fld α) : Fld β := ⟨f.ill || x.ill, f.res || x.res, f.val x.val⟩
def map {α β : Type} (f : α → β) (x : Fld α) : Fld β := ⟨x.ill, x.res, f x.val⟩
/-- A further condition of check 8. -/
def illIf {α : Type} (x : Fld α) (b : Bool) : Fld α := ⟨x.ill || b, x.res, x.val⟩
/-- A further condition of check 9. -/
def resIf {α : Type} (x : Fld α) (b : Bool) : Fld α := ⟨x.ill, x.res || b, x.val⟩
/-- Check 8 comes before check 9 (R117). -/
def result {α : Type} (x : Fld α) : Except EncFault α :=
  if x.ill then .error .illegal else if x.res then .error .reserved else .ok x.val
end Fld

/-! ## Forms (R100, R101) -/

def formA (opc : BitVec 10) (g : BitVec 5) (d a b c : BitVec 9) (m : BitVec 5) : SlotWord :=
  opc ++ g ++ d ++ a ++ b ++ c ++ m
def formI (opc : BitVec 10) (g : BitVec 5) (d a : BitVec 9) (imm : BitVec 23) : SlotWord :=
  opc ++ g ++ d ++ a ++ imm
def formL (opc : BitVec 10) (g : BitVec 5) (d : BitVec 9) (imm : BitVec 32) : SlotWord :=
  opc ++ g ++ d ++ imm
def formM (opc : BitVec 10) (g : BitVec 5) (d : BitVec 9) (base : BitVec 6) (off : BitVec 16) (tok lease : BitVec 3)
    (buf : BitVec 4) : SlotWord :=
  opc ++ g ++ d ++ base ++ off ++ tok ++ lease ++ buf
def formX (opc : BitVec 10) (g : BitVec 5) (bank : BitVec 2) (a b d : BitVec 9) (m : BitVec 12) : SlotWord :=
  opc ++ g ++ bank ++ a ++ b ++ d ++ m

def fOpc (w : SlotWord) : BitVec 10 := w.extractLsb' 46 10
def fGrd (w : SlotWord) : BitVec 5 := w.extractLsb' 41 5
def fDst (w : SlotWord) : BitVec 9 := w.extractLsb' 32 9
def fA (w : SlotWord) : BitVec 9 := w.extractLsb' 23 9
def fB (w : SlotWord) : BitVec 9 := w.extractLsb' 14 9
def fC (w : SlotWord) : BitVec 9 := w.extractLsb' 5 9
def fMod (w : SlotWord) : BitVec 5 := w.extractLsb' 0 5
def fImm23 (w : SlotWord) : BitVec 23 := w.extractLsb' 0 23
def fImm32 (w : SlotWord) : BitVec 32 := w.extractLsb' 0 32
def fBase (w : SlotWord) : BitVec 6 := w.extractLsb' 26 6
def fOff (w : SlotWord) : BitVec 16 := w.extractLsb' 10 16
def fTok (w : SlotWord) : BitVec 3 := w.extractLsb' 7 3
def fLease (w : SlotWord) : BitVec 3 := w.extractLsb' 4 3
def fBuf (w : SlotWord) : BitVec 4 := w.extractLsb' 0 4
def fBank (w : SlotWord) : BitVec 2 := w.extractLsb' 39 2
def fXA (w : SlotWord) : BitVec 9 := w.extractLsb' 30 9
def fXB (w : SlotWord) : BitVec 9 := w.extractLsb' 21 9
def fXD (w : SlotWord) : BitVec 9 := w.extractLsb' 12 9
def fXMod (w : SlotWord) : BitVec 12 := w.extractLsb' 0 12

/-! ## Operand fields (R102, R103) -/

/-- An operand field of kind `k` and index `i`. -/
def opnd (k i : Nat) : BitVec 9 := BitVec.ofNat 2 k ++ BitVec.ofNat 7 i

def Src.enc {n : Nat} : Src n → BitVec 9
  | .reg i => opnd 0 i.val
  | .latch k => opnd 1 k.val
  | .nbr k => opnd 2 k.val
  | .stream k => opnd 3 k.val

def Dst.enc {n : Nat} : Dst n → BitVec 9
  | .reg i => opnd 0 i.val
  | .latch => opnd 1 0
  | .stream k => opnd 2 k.val
  | .null => opnd 3 0

def kindOf (c : BitVec 9) : Nat := (c.extractLsb' 7 2).toNat
def idxOf (c : BitVec 9) : Nat := (c.extractLsb' 0 7).toNat

/-- A source field of a file of `n` registers; index bits above the kind's width are reserved (R103). -/
def decSrc (n : Nat) [NeZero n] (c : BitVec 9) : Fld (Src n) :=
  match kindOf c with
  | 0 => ⟨false, n ≤ idxOf c, .reg (Fin.ofNat n (idxOf c))⟩
  | 1 => ⟨false, 8 ≤ idxOf c, .latch (Fin.ofNat 8 (idxOf c))⟩
  | 2 => ⟨false, 8 ≤ idxOf c, .nbr (Fin.ofNat 8 (idxOf c))⟩
  | _ => ⟨false, 8 ≤ idxOf c, .stream (Fin.ofNat 8 (idxOf c))⟩

def decDst (n : Nat) [NeZero n] (c : BitVec 9) : Fld (Dst n) :=
  match kindOf c with
  | 0 => ⟨false, n ≤ idxOf c, .reg (Fin.ofNat n (idxOf c))⟩
  | 1 => ⟨false, idxOf c != 0, .latch⟩
  | 2 => ⟨false, 8 ≤ idxOf c, .stream (Fin.ofNat 8 (idxOf c))⟩
  | _ => ⟨false, idxOf c != 0, .null⟩

/-- A field that names a thing of `n` kinds directly, as kind 00 only (R241, R305, R308, R312). -/
def decReg (n : Nat) [NeZero n] (c : BitVec 9) : Fld (Fin n) :=
  ⟨kindOf c != 0, n ≤ idxOf c, Fin.ofNat n (idxOf c)⟩

def Guard.enc (g : Guard) : BitVec 5 := BitVec.ofBool g.neg ++ BitVec.ofNat 4 g.p.val
def decGuard (c : BitVec 5) : Guard := ⟨c.getLsbD 4, Fin.ofNat 16 (c.extractLsb' 0 4).toNat⟩

/-- Scalar and predicate operands refuse streams (R250). -/
def decS (n : Nat) [NeZero n] (c : BitVec 9) : Fld (Src n) :=
  let f := decSrc n c
  f.illIf (!f.val.noStream)
def decSC (c : BitVec 9) : Fld (Src 64) :=
  let f := decSrc 64 c
  f.illIf (!f.val.control)
def decD (n : Nat) [NeZero n] (c : BitVec 9) : Fld (Dst n) :=
  let f := decDst n c
  f.illIf (!f.val.noStream)
def decDL (c : BitVec 9) : Fld (Dst 64) :=
  let f := decDst 64 c
  f.illIf (!f.val.link)

def fin8 (c : BitVec 3) : Fin 8 := c.toFin
def fin16 (c : BitVec 4) : Fin 16 := c.toFin

/-! ## Types and modes -/

def ITy.enc : ITy → BitVec 3
  | .i8 => 0 | .i16 => 1 | .i32 => 2 | .n8 => 4 | .n16 => 5 | .n32 => 6
def decITy (c : BitVec 3) : Fld ITy :=
  match c.toNat with
  | 0 => .pure .i8
  | 1 => .pure .i16
  | 2 => .pure .i32
  | 4 => .pure .n8
  | 5 => .pure .n16
  | 6 => .pure .n32
  | _ => ⟨true, false, .i8⟩
def FTy.enc : FTy → BitVec 3
  | .f32 => 0 | .f16 => 1 | .bf16 => 2
def decFTy (c : BitVec 3) : Fld FTy :=
  match c.toNat with
  | 0 => .pure .f32
  | 1 => .pure .f16
  | 2 => .pure .bf16
  | _ => ⟨true, false, .f32⟩
def Rnd.enc2 : Rnd → BitVec 2
  | .rne => 0 | .rtz => 1 | .rdn => 2 | .rup => 3 | .rna => 0
def decRnd2 (c : BitVec 2) : Rnd :=
  match c.toNat with
  | 0 => .rne
  | 1 => .rtz
  | 2 => .rdn
  | _ => .rup
def Rnd.enc3 : Rnd → BitVec 3
  | .rne => 0 | .rtz => 1 | .rdn => 2 | .rup => 3 | .rna => 4
def decRnd3 (c : BitVec 3) : Fld Rnd :=
  match c.toNat with
  | 0 => .pure .rne
  | 1 => .pure .rtz
  | 2 => .pure .rdn
  | 3 => .pure .rup
  | 4 => .pure .rna
  | _ => ⟨true, false, .rne⟩
/-- Type codes of R276. -/
def XTy.enc : XTy → BitVec 4
  | .i8 => 0 | .i16 => 1 | .i32 => 2 | .n8 => 4 | .n16 => 5 | .n32 => 6 | .f32 => 8 | .f16 => 9 | .bf16 => 10
  | .e4m3 => 11 | .e5m2 => 12
def decXTy (c : BitVec 4) : Fld XTy :=
  match c.toNat with
  | 0 => .pure .i8
  | 1 => .pure .i16
  | 2 => .pure .i32
  | 4 => .pure .n8
  | 5 => .pure .n16
  | 6 => .pure .n32
  | 8 => .pure .f32
  | 9 => .pure .f16
  | 10 => .pure .bf16
  | 11 => .pure .e4m3
  | 12 => .pure .e5m2
  | _ => ⟨true, false, .i8⟩
def FTy.toXTy : FTy → XTy
  | .f32 => .f32 | .f16 => .f16 | .bf16 => .bf16
def decXFTy (c : BitVec 4) : Fld FTy :=
  match c.toNat with
  | 8 => .pure .f32
  | 9 => .pure .f16
  | 10 => .pure .bf16
  | _ => ⟨true, false, .f32⟩
def ITy.toXTy : ITy → XTy
  | .i8 => .i8 | .i16 => .i16 | .i32 => .i32 | .n8 => .n8 | .n16 => .n16 | .n32 => .n32
def decXITy (c : BitVec 4) : Fld ITy :=
  match c.toNat with
  | 0 => .pure .i8
  | 1 => .pure .i16
  | 2 => .pure .i32
  | 4 => .pure .n8
  | 5 => .pure .n16
  | 6 => .pure .n32
  | _ => ⟨true, false, .i8⟩
def MXF.enc : MXF → BitVec 2
  | .mx8 => 0 | .mx6 => 1 | .mx4 => 2
def decMXF (c : BitVec 2) : Fld MXF :=
  match c.toNat with
  | 0 => .pure .mx8
  | 1 => .pure .mx6
  | 2 => .pure .mx4
  | _ => ⟨true, false, .mx8⟩
def CC.enc : CC → BitVec 4
  | .eq => 0 | .ne => 1 | .lt => 2 | .le => 3 | .gt => 4 | .ge => 5 | .ltn => 6 | .len => 7 | .gtn => 8 | .gen => 9
def decCC (m : Nat) : Option CC :=
  match m with
  | 0 => some .eq
  | 1 => some .ne
  | 2 => some .lt
  | 3 => some .le
  | 4 => some .gt
  | 5 => some .ge
  | 6 => some .ltn
  | 7 => some .len
  | 8 => some .gtn
  | 9 => some .gen
  | _ => none
def FCC.enc : FCC → BitVec 4
  | .eq => 0 | .ne => 1 | .lt => 2 | .le => 3 | .gt => 4 | .ge => 5 | .un => 6 | .ord => 7
def decFCC (m : Nat) : Option FCC :=
  match m with
  | 0 => some .eq
  | 1 => some .ne
  | 2 => some .lt
  | 3 => some .le
  | 4 => some .gt
  | 5 => some .ge
  | 6 => some .un
  | 7 => some .ord
  | _ => none
def RedOp.enc : RedOp → BitVec 4
  | .add => 0 | .min => 1 | .max => 2 | .and => 3 | .or => 4 | .xor => 5
def decRed (m : Nat) : Option RedOp :=
  match m with
  | 0 => some .add
  | 1 => some .min
  | 2 => some .max
  | 3 => some .and
  | 4 => some .or
  | 5 => some .xor
  | _ => none
def ESz.enc : ESz → BitVec 3
  | .b => 0 | .h => 1 | .w => 2 | .d => 3
def decESz (m : Nat) : Option ESz :=
  match m with
  | 0 => some .b
  | 1 => some .h
  | 2 => some .w
  | 3 => some .d
  | _ => none
def XSz.enc : XSz → BitVec 5
  | .b => 0 | .h => 1 | .w => 2
def decXSz (c : BitVec 5) : Fld XSz :=
  match c.toNat with
  | 0 => .pure .b
  | 1 => .pure .h
  | 2 => .pure .w
  | _ => ⟨true, false, .b⟩
def AOp.enc : AOp → BitVec 4
  | .add => 0 | .min => 1 | .max => 2 | .minn => 3 | .maxn => 4 | .and => 5 | .or => 6 | .xor => 7 | .xchg => 8 | .cas => 9
  | .fadd => 10
def decAOp (m : Nat) : Option AOp :=
  match m with
  | 0 => some .add
  | 1 => some .min
  | 2 => some .max
  | 3 => some .minn
  | 4 => some .maxn
  | 5 => some .and
  | 6 => some .or
  | 7 => some .xor
  | 8 => some .xchg
  | 9 => some .cas
  | 10 => some .fadd
  | _ => none

def LdDst.encSize : LdDst → BitVec 3
  | .s z _ => z.enc
  | .v _ => 4
def LdDst.encData : LdDst → BitVec 9
  | .s _ d => d.enc
  | .v d => d.enc
def StSrc.encSize : StSrc → BitVec 3
  | .s z _ => z.enc
  | .v _ => 4
def StSrc.encData : StSrc → BitVec 9
  | .s _ a => a.enc
  | .v a => a.enc

/-- A load's destination, by the size in `m` (R289). -/
def decLd (m : Nat) (c : BitVec 9) : Option (Fld LdDst) :=
  if m = 4 then some ((decDst 128 c).map .v) else (decESz m).map fun z => (decD 64 c).map (.s z)
def decSt (m : Nat) (c : BitVec 9) : Option (Fld StSrc) :=
  if m = 4 then some ((decSrc 128 c).map .v) else (decESz m).map fun z => (decS 64 c).map (.s z)

/-! ## Shapes -/

def gW (w : SlotWord) : Fld Guard := .pure (decGuard (fGrd w))
/-- `GRD` of an instruction that accepts no guard must be zero (R100, check 9). -/
def noGuard {α : Type} (w : SlotWord) (f : Fld α) : Fld α := f.resIf (fGrd w != 0)
def mod0 {α : Type} (w : SlotWord) (f : Fld α) : Fld α := f.illIf (fMod w != 0)
def dst0 {α : Type} (w : SlotWord) (f : Fld α) : Fld α := f.resIf (fDst w != 0)
def a0 {α : Type} (w : SlotWord) (f : Fld α) : Fld α := f.resIf (fA w != 0)
def b0 {α : Type} (w : SlotWord) (f : Fld α) : Fld α := f.resIf (fB w != 0)
def c0 {α : Type} (w : SlotWord) (f : Fld α) : Fld α := f.resIf (fC w != 0)

def dS1x (w : SlotWord) : Fld S1 :=
  (Fld.pure S1.mk).ap (gW w) |>.ap (decD 64 (fDst w)) |>.ap (decS 64 (fA w))
def dS2x (w : SlotWord) : Fld S2 :=
  (Fld.pure S2.mk).ap (gW w) |>.ap (decD 64 (fDst w)) |>.ap (decS 64 (fA w)) |>.ap (decS 64 (fB w))
def dS1 (w : SlotWord) : Fld S1 := mod0 w (b0 w (c0 w (dS1x w)))
def dS2 (w : SlotWord) : Fld S2 := mod0 w (c0 w (dS2x w))
def dS3 (w : SlotWord) : Fld S3 :=
  mod0 w ((Fld.pure S3.mk).ap (gW w) |>.ap (decD 64 (fDst w)) |>.ap (decS 64 (fA w)) |>.ap (decS 64 (fB w))
    |>.ap (decS 64 (fC w)))
def dP1 (w : SlotWord) : Fld P1 :=
  mod0 w (b0 w (c0 w ((Fld.pure P1.mk).ap (gW w) |>.ap (decD 16 (fDst w)) |>.ap (decS 16 (fA w)))))
def dP2 (w : SlotWord) : Fld P2 :=
  mod0 w (c0 w ((Fld.pure P2.mk).ap (gW w) |>.ap (decD 16 (fDst w)) |>.ap (decS 16 (fA w)) |>.ap (decS 16 (fB w))))
def tyF (w : SlotWord) : BitVec 3 := (fMod w).extractLsb' 2 3
def rmF (w : SlotWord) : BitVec 2 := (fMod w).extractLsb' 0 2
/-- `TY` of majors 0x28 to 0x2D; `RM` must be zero (R114). -/
def dITy (w : SlotWord) : Fld ITy := (decITy (tyF w)).illIf (rmF w != 0)
def dV1 (w : SlotWord) : Fld V1 :=
  b0 w (c0 w ((Fld.pure V1.mk).ap (gW w) |>.ap (dITy w) |>.ap (decDst 128 (fDst w)) |>.ap (decSrc 128 (fA w))))
def dV1s (w : SlotWord) : Fld V1 :=
  let f := dV1 w
  f.illIf (!f.val.ty.signed)
def dV2x (w : SlotWord) : Fld V2 :=
  (Fld.pure V2.mk).ap (gW w) |>.ap (dITy w) |>.ap (decDst 128 (fDst w)) |>.ap (decSrc 128 (fA w))
    |>.ap (decSrc 128 (fB w))
def dV2 (w : SlotWord) : Fld V2 := c0 w (dV2x w)
def dV2s (w : SlotWord) : Fld V2 :=
  let f := dV2 w
  f.illIf (!f.val.ty.signed)
def dV3 (w : SlotWord) : Fld V3 :=
  (Fld.pure V3.mk).ap (gW w) |>.ap (dITy w) |>.ap (decDst 128 (fDst w)) |>.ap (decSrc 128 (fA w))
    |>.ap (decSrc 128 (fB w)) |>.ap (decSrc 128 (fC w))
def dVS (w : SlotWord) : Fld VS :=
  b0 w (c0 w ((Fld.pure VS.mk).ap (gW w) |>.ap (dITy w) |>.ap (decDst 128 (fDst w)) |>.ap (decS 64 (fA w))))
def dRm (w : SlotWord) : Fld Rnd := .pure (decRnd2 (rmF w))
def dRm0 (w : SlotWord) : Fld Rnd := (Fld.pure Rnd.rne).illIf (rmF w != 0)
def dF1 (w : SlotWord) (rm : Fld Rnd) : Fld F1 :=
  b0 w (c0 w ((Fld.pure F1.mk).ap (gW w) |>.ap (decFTy (tyF w)) |>.ap rm |>.ap (decDst 128 (fDst w))
    |>.ap (decSrc 128 (fA w))))
def dF2 (w : SlotWord) (rm : Fld Rnd) : Fld F2 :=
  c0 w ((Fld.pure F2.mk).ap (gW w) |>.ap (decFTy (tyF w)) |>.ap rm |>.ap (decDst 128 (fDst w))
    |>.ap (decSrc 128 (fA w)) |>.ap (decSrc 128 (fB w)))
def dF3 (w : SlotWord) : Fld F3 :=
  (Fld.pure F3.mk).ap (gW w) |>.ap (decFTy (tyF w)) |>.ap (dRm w) |>.ap (decDst 128 (fDst w))
    |>.ap (decSrc 128 (fA w)) |>.ap (decSrc 128 (fB w)) |>.ap (decSrc 128 (fC w))

def dM (w : SlotWord) : Fld MAddr := .pure ⟨(fBase w).toFin, fOff w⟩
def tok0 {α : Type} (w : SlotWord) (f : Fld α) : Fld α := f.resIf (fTok w != 0)
def lease0 {α : Type} (w : SlotWord) (f : Fld α) : Fld α := f.resIf (fLease w != 0)
def buf0 {α : Type} (w : SlotWord) (f : Fld α) : Fld α := f.resIf (fBuf w != 0)
def tokW (w : SlotWord) : Fld (Fin 8) := .pure (fin8 (fTok w))
def bufW (w : SlotWord) : Fld (Fin 16) := .pure (fin16 (fBuf w))
/-- The lease of an access: `LX` of 0 selects the default and `LEASE` must be zero (R111). -/
def dLease (lx : Bool) (w : SlotWord) : Fld (Option (Fin 8)) :=
  if lx then .pure (some (fin8 (fLease w))) else (Fld.pure none).resIf (fLease w != 0)
def dLD (m : Nat) (w : SlotWord) : Option (Fld LD) :=
  (decLd m (fDst w)).map fun d =>
    tok0 w (lease0 w ((Fld.pure LD.mk).ap (gW w) |>.ap d |>.ap (dM w) |>.ap (bufW w)))
def dLG (m : Nat) (w : SlotWord) (l : Fld (Option (Fin 8))) : Option (Fld LG) :=
  (decLd m (fDst w)).map fun d =>
    (Fld.pure LG.mk).ap (gW w) |>.ap (d.illIf (!d.val.isReg)) |>.ap (dM w) |>.ap (tokW w) |>.ap l |>.ap (bufW w)
def dSG (m : Nat) (w : SlotWord) (l : Fld (Option (Fin 8))) : Option (Fld SG) :=
  (decSt m (fDst w)).map fun a =>
    (Fld.pure SG.mk).ap (gW w) |>.ap a |>.ap (dM w) |>.ap (tokW w) |>.ap l |>.ap (bufW w)
/-- M-form accesses other than LDG, LDG.g, STG and PF carry no lease (R111). -/
def noLease (w : SlotWord) : Fld (Option (Fin 8)) := dLease false w
def dAT (op : AOp) (z : ASz) (w : SlotWord) : Fld AT :=
  let f := lease0 w (buf0 w ((Fld.pure (AT.mk · z)).ap (gW w) |>.ap (decReg 64 (fDst w)) |>.ap (dM w) |>.ap (tokW w)))
  f.illIf (op == .cas && f.val.r.val % 2 != 0)
def dEC (w : SlotWord) : Fld EC :=
  dst0 w (lease0 w (buf0 w ((Fld.pure EC.mk).ap (gW w) |>.ap (dM w) |>.ap (tokW w))))
def dRL (w : SlotWord) : Fld RL :=
  lease0 w (buf0 w ((Fld.pure RL.mk).ap (gW w) |>.ap (decS 64 (fDst w)) |>.ap (dM w) |>.ap (tokW w)))
def dCW (w : SlotWord) : Fld CW :=
  lease0 w (buf0 w ((Fld.pure CW.mk).ap (gW w) |>.ap (decReg 64 (fDst w)) |>.ap (dM w) |>.ap (tokW w)))

/-! ## The opcode map, major by major (R105 to R115) -/

def dec00 (m : Nat) (w : SlotWord) : Option (Fld Instr) :=
  match m with
  | 0 => some (dst0 w ((Fld.pure Instr.br).ap (gW w) |>.ap (.pure (fImm32 w))))
  | 1 => some ((Fld.pure Instr.call).ap (gW w) |>.ap (decDL (fDst w)) |>.ap (.pure (fImm32 w)))
  | 2 => some (mod0 w (dst0 w (b0 w (c0 w ((Fld.pure Instr.bri).ap (gW w) |>.ap (decSC (fA w)))))))
  | 3 => some (mod0 w (b0 w (c0 w ((Fld.pure Instr.calli).ap (gW w) |>.ap (decDL (fDst w)) |>.ap (decSC (fA w))))))
  | 4 => some (mod0 w (dst0 w (b0 w (c0 w ((Fld.pure Instr.ret).ap (gW w) |>.ap (decSC (fA w)))))))
  | _ => none

/-- LSETUP, LOOP and LOOPX lay `LNK` out as R233 and R234 give. -/
def dec01 (m : Nat) (w : SlotWord) : Option (Fld Instr) :=
  let k : Fin 4 := ((fDst w).extractLsb' 7 2).toFin
  match m with
  | 0 => some (noGuard w (((Fld.pure (Instr.lsetup k ((fDst w).extractLsb' 1 6).toFin (fImm32 w))).resIf
      ((fDst w).getLsbD 0)).illIf (!(1 ≤ (fImm32 w).toNat && (fImm32 w).toNat ≤ 255))))
  | 1 => some (noGuard w ((Fld.pure (Instr.loop k (fImm32 w))).resIf ((fDst w).extractLsb' 0 7 != 0)))
  | 2 => some (noGuard w ((Fld.pure (Instr.loopx k (fImm32 w))).resIf ((fDst w).extractLsb' 0 7 != 0)))
  | _ => none

def dec02 (m : Nat) (w : SlotWord) : Option (Fld Instr) :=
  match m with
  | 0 => some (noGuard w (dst0 w (.pure (.ckpt (fImm32 w)))))
  | 1 => some (noGuard w (mod0 w (dst0 w (a0 w (b0 w (c0 w (.pure .commit)))))))
  | 2 => some (noGuard w (mod0 w (dst0 w (b0 w (c0 w ((decReg 16 (fA w)).map .check))))))
  | 3 => some (mod0 w (dst0 w (a0 w (b0 w (c0 w ((gW w).map .abort))))))
  | 4 => some (noGuard w (mod0 w (dst0 w (b0 w (c0 w ((decSC (fA w)).map .gclr))))))
  | _ => none

def dec03 (m : Nat) (w : SlotWord) : Option (Fld Instr) :=
  match m with
  | 0 => some (dst0 w (a0 w ((Fld.pure Instr.trap).ap (gW w) |>.ap (.pure (fImm23 w)))))
  | 1 => some (dst0 w (a0 w ((Fld.pure Instr.bkpt).ap (gW w) |>.ap (.pure (fImm23 w)))))
  | 2 => some (mod0 w (dst0 w (a0 w (b0 w (c0 w ((gW w).map .halt))))))
  | _ => none

/-- SRD and SWR lay `IMM23` out as R245 gives; an unassigned register or piece is check 8. -/
def dec04 (m : Nat) (w : SlotWord) : Option (Fld Instr) :=
  let n : BitVec 8 := (fImm23 w).extractLsb' 4 8
  let p : BitVec 4 := (fImm23 w).extractLsb' 0 4
  let bad := !(p.toNat < sregPieces n.toNat)
  let hi := (fImm23 w).extractLsb' 12 11 != 0
  match m with
  | 0 => some (((a0 w ((Fld.pure Instr.srd).ap (gW w) |>.ap (decDL (fDst w)) |>.ap (.pure n) |>.ap (.pure p))).illIf
      bad).resIf hi)
  | 1 => some (((dst0 w ((Fld.pure Instr.swr).ap (gW w) |>.ap (decS 64 (fA w)) |>.ap (.pure n) |>.ap (.pure p))).illIf
      bad).resIf hi)
  | _ => none

def dec05 (m : Nat) (w : SlotWord) : Option (Fld Instr) :=
  match m with
  | 0 => some (noGuard w (mod0 w (dst0 w (b0 w (c0 w ((decSC (fA w)).map .tswait))))))
  | 1 =>
    if (fMod w).toNat = 1 then some (noGuard w (dst0 w (a0 w (b0 w (c0 w (.pure .iflushAll))))))
    else some (noGuard w (mod0 w (dst0 w (b0 w (c0 w ((decSC (fA w)).map .iflush))))))
  | _ => none

def op08 (m : Nat) : Option (S2 → Instr) :=
  match m with
  | 0 => some .add
  | 1 => some .sub
  | 2 => some .and
  | 3 => some .or
  | 4 => some .xor
  | 5 => some .andn
  | 6 => some .orn
  | 7 => some .shl
  | 8 => some .shr
  | 9 => some .sra
  | 10 => some .rotl
  | 11 => some .rotr
  | 12 => some .min
  | 13 => some .max
  | 14 => some .minn
  | 15 => some .maxn
  | _ => none
def dec08 (m : Nat) (w : SlotWord) : Option (Fld Instr) := (op08 m).map fun f => (dS2 w).map f

def dec09 (m : Nat) (w : SlotWord) : Option (Fld Instr) :=
  match m with
  | 0 => some ((dS1 w).map .clz)
  | 1 => some ((dS1 w).map .ctz)
  | 2 => some ((dS1 w).map .popc)
  | 3 => some ((dS1 w).map .brev)
  | 4 => some (b0 w (c0 w ((Fld.pure Instr.sxt).ap (decXSz (fMod w)) |>.ap (dS1x w))))
  | 5 => some (b0 w (c0 w ((Fld.pure Instr.zxt).ap (decXSz (fMod w)) |>.ap (dS1x w))))
  | 6 => some ((dS1 w).map .mov)
  | 7 => some (mod0 w ((Fld.pure Instr.sel).ap (dS2x w) |>.ap (decS 16 (fC w))))
  | 8 => some (c0 w (((Fld.pure Instr.lea).ap (dS2x w) |>.ap (.pure (fin8 ((fMod w).extractLsb' 0 3)))).illIf
      ((fMod w).extractLsb' 3 2 != 0)))
  | 9 => some ((dS2 w).map .bfx)
  | 10 => some ((dS3 w).map .bfi)
  | _ => none

def op0A (m : Nat) : Option (S2 → Instr) :=
  match m with
  | 0 => some .mul
  | 1 => some .mulh
  | 2 => some .mulhn
  | 3 => some .div
  | 4 => some .divn
  | 5 => some .rem
  | 6 => some .remn
  | _ => none
def dec0A (m : Nat) (w : SlotWord) : Option (Fld Instr) := (op0A m).map fun f => (dS2 w).map f

def dec0B (m : Nat) (w : SlotWord) : Option (Fld Instr) :=
  match m with
  | 0 => some ((Fld.pure Instr.addi).ap (dS1x w) |>.ap (.pure (fImm23 w)))
  | _ => none

def dec0C (m : Nat) (w : SlotWord) : Option (Fld Instr) :=
  match m with
  | 0 => some ((Fld.pure Instr.movi).ap (gW w) |>.ap (decD 64 (fDst w)) |>.ap (.pure (fImm32 w)))
  | 1 => some ((Fld.pure Instr.movhi).ap (gW w) |>.ap (decReg 64 (fDst w)) |>.ap (.pure (fImm32 w)))
  | _ => none

def dec0D (m : Nat) (w : SlotWord) : Option (Fld Instr) :=
  (decCC m).map fun cc => mod0 w (c0 w ((Fld.pure (Instr.cmp cc)).ap (gW w) |>.ap (decD 16 (fDst w))
    |>.ap (decS 64 (fA w)) |>.ap (decS 64 (fB w))))
def dec0E (m : Nat) (w : SlotWord) : Option (Fld Instr) :=
  (decCC m).map fun cc => (Fld.pure (Instr.cmpImm cc)).ap (gW w) |>.ap (decD 16 (fDst w)) |>.ap (decS 64 (fA w))
    |>.ap (.pure (fImm23 w))

def dec0F (m : Nat) (w : SlotWord) : Option (Fld Instr) :=
  match m with
  | 0 => some ((dP2 w).map .pand)
  | 1 => some ((dP2 w).map .por)
  | 2 => some ((dP2 w).map .pxor)
  | 3 => some ((dP2 w).map .pandn)
  | 4 => some ((dP1 w).map .pnot)
  | 5 => some (mod0 w (b0 w (c0 w ((Fld.pure Instr.pfroms).ap (gW w) |>.ap (decD 16 (fDst w)) |>.ap (decS 64 (fA w))))))
  | 6 => some (mod0 w (b0 w (c0 w ((Fld.pure Instr.ptos).ap (gW w) |>.ap (decD 64 (fDst w)) |>.ap (decS 16 (fA w))))))
  | _ => none

def op28 (m : Nat) : Option (V2 → Instr) :=
  match m with
  | 0 => some .vadd
  | 1 => some .vsub
  | 2 => some .vmul
  | 3 => some .vmulh
  | 5 => some .vadds
  | 6 => some .vsubs
  | 7 => some .vmin
  | 8 => some .vmax
  | _ => none
def dec28 (m : Nat) (w : SlotWord) : Option (Fld Instr) :=
  match m with
  | 4 => some ((dV3 w).map .vmad)
  | 9 => some ((dV1s w).map .vabs)
  | 10 => some ((dV1s w).map .vneg)
  | _ => (op28 m).map fun f => (dV2 w).map f

def op29 (m : Nat) : Option (V2 → Instr) :=
  match m with
  | 0 => some .vand
  | 1 => some .vor
  | 2 => some .vxor
  | 3 => some .vandn
  | 4 => some .vshl
  | 5 => some .vshr
  | _ => none
def dec29 (m : Nat) (w : SlotWord) : Option (Fld Instr) :=
  match m with
  | 6 => some ((dV2s w).map .vsra)
  | 7 => some ((Fld.pure Instr.vsel).ap (dV2x w) |>.ap (decS 16 (fC w)))
  | _ => (op29 m).map fun f => (dV2 w).map f

def dec2A (m : Nat) (w : SlotWord) : Option (Fld Instr) :=
  (decCC m).map fun cc => c0 w ((Fld.pure (Instr.vcmp cc)).ap (gW w) |>.ap (dITy w) |>.ap (decD 16 (fDst w))
    |>.ap (decSrc 128 (fA w)) |>.ap (decSrc 128 (fB w)))

def dec2B (m : Nat) (w : SlotWord) : Option (Fld Instr) :=
  match m with
  | 0 => some ((dVS w).map .vbcast)
  | 1 => some ((dVS w).map .viota)
  | 2 => some (c0 w ((Fld.pure Instr.vextr).ap (gW w) |>.ap (dITy w) |>.ap (decD 64 (fDst w)) |>.ap (decSrc 128 (fA w))
      |>.ap (decS 64 (fB w))))
  | 3 => some ((Fld.pure Instr.vins).ap (gW w) |>.ap (dITy w) |>.ap (decDst 128 (fDst w)) |>.ap (decSrc 128 (fA w))
      |>.ap (decS 64 (fB w)) |>.ap (decS 64 (fC w)))
  | 4 => some ((dV2 w).map .vperm)
  | 5 => some ((Fld.pure Instr.vslide).ap (dV2x w) |>.ap (decS 64 (fC w)))
  | 6 => some ((dV2 w).map .vzip)
  | 7 => some ((dV2 w).map .vunzip)
  | _ => none

def dec2C (m : Nat) (w : SlotWord) : Option (Fld Instr) :=
  (decRed m).map fun op => b0 w (c0 w ((Fld.pure (Instr.vred op)).ap (gW w) |>.ap (dITy w) |>.ap (decD 64 (fDst w))
    |>.ap (decSrc 128 (fA w))))
def dec2D (m : Nat) (w : SlotWord) : Option (Fld Instr) :=
  if m < 3 then (decRed m).map fun op => (dV1 w).map (.vscan op) else none

def dec2E (m : Nat) (w : SlotWord) : Option (Fld Instr) :=
  match m with
  | 0 => some ((dF2 w (dRm w)).map .vfadd)
  | 1 => some ((dF2 w (dRm w)).map .vfsub)
  | 2 => some ((dF2 w (dRm w)).map .vfmul)
  | 3 => some ((dF3 w).map .vfma)
  | 4 => some ((dF3 w).map .vfms)
  | 5 => some ((dF3 w).map .vfnma)
  | 6 => some ((dF2 w (dRm0 w)).map .vfmin)
  | 7 => some ((dF2 w (dRm0 w)).map .vfmax)
  | 8 => some ((dF1 w (dRm0 w)).map .vfabs)
  | 9 => some ((dF1 w (dRm0 w)).map .vfneg)
  | 10 => some ((dF1 w (dRm0 w)).map .vfclass)
  | _ => none

def dec2F (m : Nat) (w : SlotWord) : Option (Fld Instr) :=
  (decFCC m).map fun cc => (c0 w ((Fld.pure (Instr.vfcmp cc)).ap (gW w) |>.ap (decFTy (tyF w)) |>.ap (decD 16 (fDst w))
    |>.ap (decSrc 128 (fA w)) |>.ap (decSrc 128 (fB w)))).illIf (rmF w != 0)

def dec30 (m : Nat) (w : SlotWord) : Option (Fld Instr) :=
  match m with
  | 0 => some ((dF1 w (dRm w)).map .vfrcp)
  | 1 => some ((dF1 w (dRm w)).map .vfrsq)
  | 2 => some ((dF1 w (dRm w)).map .vfsqrt)
  | 3 => some ((dF1 w (dRm w)).map .vexp2)
  | 4 => some ((dF1 w (dRm w)).map .vlog2)
  | _ => none

def dec31 (m : Nat) (w : SlotWord) : Option (Fld Instr) :=
  if m < 3 then
    (decRed m).map fun op => b0 w (c0 w ((Fld.pure (Instr.vfred op)).ap (gW w) |>.ap (decFTy (tyF w))
      |>.ap (if op == .add then dRm w else dRm0 w) |>.ap (decD 64 (fDst w)) |>.ap (decSrc 128 (fA w))))
  else none

/-- VCVT, with the legal combinations of R277. -/
def dVCVT (w : SlotWord) : Fld Instr :=
  let f := (Fld.pure CV.mk).ap (gW w) |>.ap (decDst 128 (fDst w)) |>.ap (decSrc 128 (fA w))
    |>.ap (decXTy ((fB w).extractLsb' 4 4)) |>.ap (decXTy ((fB w).extractLsb' 0 4))
    |>.ap (.pure ((fC w).extractLsb' 0 2).toFin) |>.ap (decRnd3 ((fMod w).extractLsb' 2 3))
    |>.ap (.pure ((fMod w).getLsbD 1)) |>.ap (.pure ((fMod w).getLsbD 0))
  (((f.illIf (!f.val.ok)).resIf ((fB w).getLsbD 8)).resIf ((fC w).extractLsb' 2 7 != 0)).map .vcvt

/-- The rounding field of VQUANT and VDEQ: `CRM` alone (R275). -/
def dCrm (w : SlotWord) : Fld Rnd := (decRnd3 ((fMod w).extractLsb' 2 3)).illIf ((fMod w).extractLsb' 0 2 != 0)

def dVQUANT (w : SlotWord) : Fld Instr :=
  if (fB w).getLsbD 8 then
    noGuard w (c0 w (((Fld.pure Instr.vquantF).ap (decDst 128 (fDst w)) |>.ap (decSrc 128 (fA w))
      |>.ap (.pure ((fB w).getLsbD 7)) |>.ap (.pure ((fB w).extractLsb' 0 2).toFin) |>.ap (dCrm w)).resIf
      ((fB w).extractLsb' 2 5 != 0)))
  else
    let nr := (fB w).getLsbD 4
    let ring := fin16 ((fB w).extractLsb' 0 4)
    noGuard w (c0 w ((((Fld.pure Instr.vquant).ap (decDst 128 (fDst w)) |>.ap (decSrc 128 (fA w))
      |>.ap (decMXF ((fB w).extractLsb' 5 2)) |>.ap (.pure nr) |>.ap (.pure ring) |>.ap (dCrm w)).illIf
      (nr && ring != 0)).resIf ((fB w).getLsbD 7)))

def dVDEQ (w : SlotWord) : Fld Instr :=
  c0 w ((((Fld.pure Instr.vdeq).ap (gW w) |>.ap (decDst 128 (fDst w)) |>.ap (decSrc 128 (fA w))
    |>.ap (decMXF ((fB w).extractLsb' 5 2)) |>.ap (dCrm w)).resIf ((fB w).extractLsb' 7 2 != 0)).resIf
    ((fB w).extractLsb' 0 5 != 0))

def dVAMAX (w : SlotWord) : Fld Instr :=
  let ring := fin16 ((fC w).extractLsb' 0 4)
  let chk {α : Type} (f : Fld α) : Fld α :=
    mod0 w ((((f.illIf (kindOf (fDst w) != 3)).resIf (idxOf (fDst w) != 0)).resIf ((fB w).extractLsb' 5 4 != 0)).resIf
      ((fC w).extractLsb' 4 5 != 0))
  if (fB w).getLsbD 4 then
    chk (a0 w (((Fld.pure Instr.vamaxC).ap (gW w) |>.ap (.pure ring)).illIf ((fB w).extractLsb' 0 4 != 0)))
  else
    chk ((Fld.pure Instr.vamax).ap (gW w) |>.ap (decXFTy ((fB w).extractLsb' 0 4)) |>.ap (decSrc 128 (fA w))
      |>.ap (.pure ring))

def dVPACK (w : SlotWord) : Fld Instr :=
  let f := (Fld.pure V2.mk).ap (gW w) |>.ap (decXITy ((fC w).extractLsb' 0 4)) |>.ap (decDst 128 (fDst w))
    |>.ap (decSrc 128 (fA w)) |>.ap (decSrc 128 (fB w))
  ((((f.illIf (f.val.ty.width == 8)).illIf ((fMod w).extractLsb' 2 3 != 0)).illIf ((fMod w).getLsbD 0)).resIf
    ((fC w).extractLsb' 4 5 != 0)).map (Instr.vpack · ((fMod w).getLsbD 1))

def dVUNPACK (w : SlotWord) : Fld Instr :=
  let f := (Fld.pure V1.mk).ap (gW w) |>.ap (decXITy ((fB w).extractLsb' 0 4)) |>.ap (decDst 128 (fDst w))
    |>.ap (decSrc 128 (fA w))
  mod0 w (((((f.illIf (f.val.ty.width == 32)).illIf ((fC w).getLsbD 1)).resIf ((fB w).extractLsb' 4 5 != 0)).resIf
    ((fC w).extractLsb' 2 7 != 0)).map (Instr.vunpack · ((fC w).getLsbD 0)))

def dec32 (m : Nat) (w : SlotWord) : Option (Fld Instr) :=
  match m with
  | 0 => some (dVCVT w)
  | 1 => some (dVQUANT w)
  | 2 => some (dVDEQ w)
  | 3 => some (dVAMAX w)
  | 4 => some (dVPACK w)
  | 5 => some (dVUNPACK w)
  | _ => none

def dec18 (m : Nat) (w : SlotWord) : Option (Fld Instr) :=
  if m < 8 then (dLD m w).map (·.map .ld) else (dLD (m - 8) w).map (·.map .ldG)
def dec19 (m : Nat) (w : SlotWord) : Option (Fld Instr) :=
  (decSt m (fDst w)).map fun a => tok0 w (lease0 w ((Fld.pure Instr.st).ap (gW w) |>.ap a |>.ap (dM w) |>.ap (bufW w)))
def dec1A (m : Nat) (w : SlotWord) : Option (Fld Instr) :=
  if m < 8 then
    (decESz m).map fun z => mod0 w (c0 w ((Fld.pure Instr.lds).ap (gW w) |>.ap (.pure z) |>.ap (decDst 128 (fDst w))
      |>.ap (decS 64 (fA w)) |>.ap (decS 64 (fB w))))
  else
    (decESz (m - 8)).map fun z => mod0 w (dst0 w ((Fld.pure Instr.sts).ap (gW w) |>.ap (.pure z)
      |>.ap (decS 64 (fA w)) |>.ap (decS 64 (fB w)) |>.ap (decSrc 128 (fC w))))
/-- A second vector register in slot 3 or 4 is illegal (R112). -/
def dec1B (m : Nat) (w : SlotWord) : Option (Fld Instr) :=
  if m < 8 then
    (decESz m).map fun z => mod0 w (c0 w ((Fld.pure Instr.ldx).ap (gW w) |>.ap (.pure z) |>.ap (decDst 128 (fDst w))
      |>.ap (decS 64 (fA w)) |>.ap (decSrc 128 (fB w))))
  else
    (decESz (m - 8)).map fun z =>
      let b := decSrc 128 (fB w)
      let c := decSrc 128 (fC w)
      mod0 w (dst0 w (((Fld.pure Instr.stx).ap (gW w) |>.ap (.pure z) |>.ap (decS 64 (fA w)) |>.ap b |>.ap c).illIf
        (b.val.isReg && c.val.isReg)))

def dec1C (m : Nat) (w : SlotWord) : Option (Fld Instr) := (dLG (m % 8) w (dLease (8 ≤ m) w)).map (·.map .ldg)
def dec1D (m : Nat) (w : SlotWord) : Option (Fld Instr) := (dLG (m % 8) w (dLease (8 ≤ m) w)).map (·.map .ldgG)
def dec1E (m : Nat) (w : SlotWord) : Option (Fld Instr) := (dSG (m % 8) w (dLease (8 ≤ m) w)).map (·.map .stg)
def dec1F (m : Nat) (w : SlotWord) : Option (Fld Instr) :=
  if m < 8 then (dLG m w (noLease w)).map (·.map .ldc) else (dSG (m - 8) w (noLease w)).map (·.map .stc)

def dec20 (m : Nat) (w : SlotWord) : Option (Fld Instr) :=
  match m with
  | 0 => some (dst0 w (c0 w ((((Fld.pure Instr.smap).ap (gW w) |>.ap (decS 64 (fA w)) |>.ap (decS 64 (fB w))
      |>.ap (.pure (Fin.ofNat 7 ((fMod w).extractLsb' 0 3).toNat))).illIf ((fMod w).extractLsb' 0 3 == 7)).illIf
      ((fMod w).extractLsb' 3 2 != 0))))
  | 1 => some (mod0 w (dst0 w (b0 w (c0 w ((Fld.pure Instr.sunmap).ap (gW w) |>.ap (decS 64 (fA w)))))))
  | 2 => some (dst0 w (lease0 w ((Fld.pure Instr.sflush).ap (gW w) |>.ap (dM w) |>.ap (tokW w) |>.ap (bufW w))))
  | 3 => some (mod0 w (dst0 w (b0 w (c0 w ((Fld.pure Instr.sdrop).ap (gW w) |>.ap (decS 64 (fA w)))))))
  | _ => none

def dec21 (m : Nat) (w : SlotWord) : Option (Fld Instr) :=
  match m with
  | 0 => some (tok0 w (lease0 w (buf0 w ((Fld.pure Instr.qbind).ap (gW w) |>.ap (decReg 8 (fDst w)) |>.ap (dM w)))))
  | 1 => some (mod0 w (dst0 w (b0 w (c0 w ((Fld.pure Instr.qunbind).ap (gW w) |>.ap (decReg 8 (fA w)))))))
  | 2 => some (mod0 w (b0 w (c0 w ((Fld.pure Instr.qstat).ap (gW w) |>.ap (decD 64 (fDst w)) |>.ap (decReg 8 (fA w))))))
  | 3 => some (mod0 w (dst0 w (b0 w (c0 w ((Fld.pure Instr.qflush).ap (gW w) |>.ap (decReg 8 (fA w)))))))
  | _ => none

def atomicOf : AOp → AT → Instr
  | .add => .aadd | .min => .amin | .max => .amax | .minn => .aminn | .maxn => .amaxn | .and => .aand | .or => .aor
  | .xor => .axor | .xchg => .axchg | .cas => .acas | .fadd => .afadd
/-- Atomics (R109): AFADD is unassigned in the 64-bit majors. -/
def decAtom (z : ASz) (ord : Bool) (m : Nat) (w : SlotWord) : Option (Fld Instr) :=
  match decAOp m with
  | none => none
  | some op =>
    if op == .fadd && z == .d then none
    else some ((dAT op z w).map (if ord then Instr.atomicOrd op else atomicOf op))

def dec26 (m : Nat) (w : SlotWord) : Option (Fld Instr) :=
  match m with
  | 0 => some (lease0 w (buf0 w ((Fld.pure Instr.acq).ap (gW w)
      |>.ap (if kindOf (fDst w) = 3 then (Fld.pure none).resIf (idxOf (fDst w) != 0) else (decReg 64 (fDst w)).map some)
      |>.ap (dM w) |>.ap (tokW w))))
  | 1 => some ((dRL w).map .rel)
  | 2 => some ((dRL w).map .relf)
  | 3 => some (dst0 w (lease0 w (buf0 w (((Fld.pure Instr.fence).ap (gW w) |>.ap (tokW w)).resIf
      (fBase w != 0 || fOff w != 0)))))
  | 4 => some (dst0 w (lease0 w (buf0 w (((Fld.pure Instr.fencex).ap (gW w) |>.ap (tokW w)).resIf
      (fBase w != 0 || fOff w != 0)))))
  | 5 => some ((dCW w).map .cwaddAdd)
  | 6 => some (tok0 w (lease0 w (buf0 w ((Fld.pure Instr.waitcw).ap (gW w) |>.ap (decReg 64 (fDst w)) |>.ap (dM w)))))
  | 7 => some (dst0 w (tok0 w ((Fld.pure Instr.pf).ap (gW w) |>.ap (dM w) |>.ap (dLease false w) |>.ap (bufW w))))
  | 15 => some (dst0 w (tok0 w ((Fld.pure Instr.pf).ap (gW w) |>.ap (dM w) |>.ap (dLease true w) |>.ap (bufW w))))
  | _ => none

def op27 (m : Nat) : Option (EC → Instr) :=
  match m with
  | 0 => some .sscan
  | 1 => some .cpy
  | 2 => some .cpyr
  | 3 => some .mcast
  | 4 => some .gath
  | 5 => some .scat
  | 6 => some .coll
  | 7 => some .gnode
  | _ => none
def dec27 (m : Nat) (w : SlotWord) : Option (Fld Instr) := (op27 m).map fun f => (dEC w).map f

def bank0 {α : Type} (w : SlotWord) (f : Fld α) : Fld α := f.resIf (fBank w != 0)
def xa0 {α : Type} (w : SlotWord) (f : Fld α) : Fld α := f.resIf (fXA w != 0)
def xb0 {α : Type} (w : SlotWord) (f : Fld α) : Fld α := f.resIf (fXB w != 0)
def xd0 {α : Type} (w : SlotWord) (f : Fld α) : Fld α := f.resIf (fXD w != 0)
/-- `XMOD` bits from `lo` up that must be zero (R326, check 8). -/
def xmodFrom {α : Type} (lo : Nat) (w : SlotWord) (f : Fld α) : Fld α := f.illIf (fXMod w >>> lo != 0)
def bankW (w : SlotWord) : Fld (Fin 4) := .pure (fBank w).toFin

/-- MACC's fields (R326). -/
def dMACC (w : SlotWord) : Fld Instr :=
  let x := fXMod w
  let fmt : Fld MFmt :=
    if x.getLsbD 10 then .pure (.ft (x.extractLsb' 6 2).toFin) else (decMXF (x.extractLsb' 6 2)).map .xf
  let a : Fld (Option (Src 128)) :=
    if x.getLsbD 9 then (decSrc 128 (fXA w)).map some else (Fld.pure none).resIf (fXA w != 0)
  let b : Fld (Option (Src 128)) :=
    if x.getLsbD 8 then (Fld.pure none).resIf (fXB w != 0) else (decSrc 128 (fXB w)).map some
  xd0 w (((Fld.pure Instr.macc).ap (gW w) |>.ap (bankW w) |>.ap (.pure (x.getLsbD 11)) |>.ap fmt |>.ap a |>.ap b).illIf
    (x.extractLsb' 0 6 != 0))

def dec3C (m : Nat) (w : SlotWord) : Option (Fld Instr) :=
  match m with
  | 0 => some (bank0 w (xb0 w (xd0 w (xmodFrom 3 w ((Fld.pure Instr.mpush).ap (gW w)
      |>.ap (.pure (fin8 ((fXMod w).extractLsb' 0 3))) |>.ap (decSrc 128 (fXA w)))))))
  | 1 => some (dMACC w)
  | 2 =>
    if (fXMod w).getLsbD 0 then
      some (xa0 w (xb0 w (xd0 w (xmodFrom 1 w ((Fld.pure Instr.mshiftBank).ap (gW w) |>.ap (bankW w))))))
    else
      some (bank0 w (xb0 w (xd0 w (xmodFrom 1 w ((Fld.pure Instr.mshiftEdge).ap (gW w) |>.ap (decSrc 128 (fXA w)))))))
  | 3 =>
    let ty := decFTy ((fXMod w).extractLsb' 4 3)
    let rm := decRnd2 ((fXMod w).extractLsb' 7 2)
    some (xa0 w (xb0 w (xmodFrom 9 w (((Fld.pure Instr.mdrain).ap (gW w) |>.ap (decDst 128 (fXD w)) |>.ap (bankW w)
      |>.ap ty |>.ap (.pure rm) |>.ap (.pure (fin16 ((fXMod w).extractLsb' 0 4)))).illIf
      (ty.val == .f32 && rm != .rne)))))
  | 4 => some (xa0 w (xb0 w (xd0 w (xmodFrom 1 w ((Fld.pure Instr.mclr).ap (gW w) |>.ap (bankW w)
      |>.ap (.pure ((fXMod w).getLsbD 0)))))))
  | 5 => some (xb0 w (xd0 w (xmodFrom 1 w ((Fld.pure Instr.msel).ap (gW w) |>.ap (bankW w) |>.ap (decReg 4 (fXA w))
      |>.ap (.pure ((fXMod w).getLsbD 0))))))
  | _ => none

/-- The operation a slot word names; `none` when its major or minor is unassigned (check 7). -/
def decodeOp (w : SlotWord) : Option (Fld Instr) :=
  let m := ((fOpc w).extractLsb' 0 4).toNat
  match ((fOpc w).extractLsb' 4 6).toNat with
  | 0x00 => dec00 m w
  | 0x01 => dec01 m w
  | 0x02 => dec02 m w
  | 0x03 => dec03 m w
  | 0x04 => dec04 m w
  | 0x05 => dec05 m w
  | 0x08 => dec08 m w
  | 0x09 => dec09 m w
  | 0x0A => dec0A m w
  | 0x0B => dec0B m w
  | 0x0C => dec0C m w
  | 0x0D => dec0D m w
  | 0x0E => dec0E m w
  | 0x0F => dec0F m w
  | 0x18 => dec18 m w
  | 0x19 => dec19 m w
  | 0x1A => dec1A m w
  | 0x1B => dec1B m w
  | 0x1C => dec1C m w
  | 0x1D => dec1D m w
  | 0x1E => dec1E m w
  | 0x1F => dec1F m w
  | 0x20 => dec20 m w
  | 0x21 => dec21 m w
  | 0x22 => decAtom .w false m w
  | 0x23 => decAtom .d false m w
  | 0x24 => decAtom .w true m w
  | 0x25 => decAtom .d true m w
  | 0x26 => dec26 m w
  | 0x27 => dec27 m w
  | 0x28 => dec28 m w
  | 0x29 => dec29 m w
  | 0x2A => dec2A m w
  | 0x2B => dec2B m w
  | 0x2C => dec2C m w
  | 0x2D => dec2D m w
  | 0x2E => dec2E m w
  | 0x2F => dec2F m w
  | 0x30 => dec30 m w
  | 0x31 => dec31 m w
  | 0x32 => dec32 m w
  | 0x3C => dec3C m w
  | _ => none

/-- The slots whose class a major belongs to (R105 to R115). -/
def majorInSlot (k major : Nat) : Bool :=
  if k = 0 then major ≤ 0x07
  else if k ≤ 2 then 0x08 ≤ major && major ≤ 0x17
  else if k ≤ 4 then 0x18 ≤ major && major ≤ 0x27
  else if k ≤ 6 then 0x28 ≤ major && major ≤ 0x3B
  else 0x3C ≤ major

/-- A feature bit of %feat that is clear makes these encodings illegal (R442). `feat` is %feat [5:0]. -/
def featAllows (feat : BitVec 6) : Instr → Bool
  | .macc _ _ _ (.xf .mx6) _ _ => feat.getLsbD 0
  | .macc _ _ _ (.xf .mx4) _ _ => feat.getLsbD 1
  | .vquant _ _ .mx6 _ _ _ => feat.getLsbD 0
  | .vquant _ _ .mx4 _ _ _ => feat.getLsbD 1
  | .vdeq _ _ _ .mx6 _ => feat.getLsbD 0
  | .vdeq _ _ _ .mx4 _ => feat.getLsbD 1
  | .sscan _ => feat.getLsbD 2
  | _ => true

/-- Checks 7, 8 and 9 of R117 for slot `k` with its `OCC` bit set. -/
def decodeSlot (feat : BitVec 6) (k : Nat) (w : SlotWord) : Except EncFault Instr :=
  if majorInSlot k ((fOpc w).extractLsb' 4 6).toNat then
    match decodeOp w with
    | none => .error .illegal
    | some f => (f.illIf (!featAllows feat f.val)).result
  else .error .illegal

/-! ## Encoding -/

def opcode (major minor : Nat) : BitVec 10 := BitVec.ofNat 6 major ++ BitVec.ofNat 4 minor
def opcodeV (major : Nat) (minor : BitVec 4) : BitVec 10 := BitVec.ofNat 6 major ++ minor

def encS1 (o : BitVec 10) (x : S1) (m : BitVec 5) : SlotWord := formA o x.g.enc x.d.enc x.a.enc 0 0 m
def encS2 (o : BitVec 10) (x : S2) (c : BitVec 9) (m : BitVec 5) : SlotWord :=
  formA o x.g.enc x.d.enc x.a.enc x.b.enc c m
def encP2 (o : BitVec 10) (x : P2) : SlotWord := formA o x.g.enc x.d.enc x.a.enc x.b.enc 0 0
def encV1 (o : BitVec 10) (x : V1) : SlotWord := formA o x.g.enc x.d.enc x.a.enc 0 0 (x.ty.enc ++ 0#2)
def encV2 (o : BitVec 10) (x : V2) (c : BitVec 9) : SlotWord :=
  formA o x.g.enc x.d.enc x.a.enc x.b.enc c (x.ty.enc ++ 0#2)
def encF1 (o : BitVec 10) (x : F1) : SlotWord := formA o x.g.enc x.d.enc x.a.enc 0 0 (x.ty.enc ++ x.rm.enc2)
def encF2 (o : BitVec 10) (x : F2) : SlotWord := formA o x.g.enc x.d.enc x.a.enc x.b.enc 0 (x.ty.enc ++ x.rm.enc2)
def encF3 (o : BitVec 10) (x : F3) : SlotWord :=
  formA o x.g.enc x.d.enc x.a.enc x.b.enc x.c.enc (x.ty.enc ++ x.rm.enc2)
def MAddr.enc (m : MAddr) : BitVec 6 := BitVec.ofNat 6 m.base.val
def e3 (k : Fin 8) : BitVec 3 := BitVec.ofNat 3 k.val
def e4 (k : Fin 16) : BitVec 4 := BitVec.ofNat 4 k.val
def e2 (k : Fin 4) : BitVec 2 := BitVec.ofNat 2 k.val
def encLD (o : BitVec 10) (x : LD) : SlotWord := formM o x.g.enc x.d.encData x.m.enc x.m.off 0 0 (e4 x.buf)
def leaseBits : Option (Fin 8) → BitVec 3
  | none => 0
  | some k => e3 k
def lxBit : Option (Fin 8) → BitVec 1
  | none => 0
  | some _ => 1
def encLG (o : BitVec 10) (x : LG) : SlotWord :=
  formM o x.g.enc x.d.encData x.m.enc x.m.off (e3 x.tok) (leaseBits x.lease) (e4 x.buf)
def encSG (o : BitVec 10) (x : SG) : SlotWord :=
  formM o x.g.enc x.a.encData x.m.enc x.m.off (e3 x.tok) (leaseBits x.lease) (e4 x.buf)
def encAT (ord : Bool) (op : AOp) (x : AT) : SlotWord :=
  formM (opcodeV ((if ord then 0x24 else 0x22) + (if x.z == .d then 1 else 0)) op.enc) x.g.enc (opnd 0 x.r.val) x.m.enc
    x.m.off (e3 x.tok) 0 0
def encEC (minor : Nat) (x : EC) : SlotWord := formM (opcode 0x27 minor) x.g.enc 0 x.m.enc x.m.off (e3 x.tok) 0 0
def encRL (minor : Nat) (x : RL) : SlotWord :=
  formM (opcode 0x26 minor) x.g.enc x.a.enc x.m.enc x.m.off (e3 x.tok) 0 0
def encCW (x : CW) : SlotWord := formM (opcode 0x26 5) x.g.enc (opnd 0 x.r.val) x.m.enc x.m.off (e3 x.tok) 0 0
def encX (minor : Nat) (g : Guard) (bank : BitVec 2) (a b d : BitVec 9) (m : BitVec 12) : SlotWord :=
  formX (opcode 0x3C minor) g.enc bank a b d m
def optSrc : Option (Src 128) → BitVec 9
  | none => 0
  | some a => a.enc
def MFmt.bits : MFmt → BitVec 2
  | .xf f => f.enc
  | .ft k => e2 k
def MFmt.isFt : MFmt → Bool
  | .xf _ => false
  | .ft _ => true

/-- The 56 bits of a slot operation; an event has none. CWADD's three rows have one encoding (R321): which of them
it is depends on the operand's `CWOP`, so its word decodes to the first. -/
def encode : Instr → Option SlotWord
  | .br g off => some (formL (opcode 0x00 0) g.enc 0 off)
  | .call g l off => some (formL (opcode 0x00 1) g.enc l.enc off)
  | .bri g a => some (formA (opcode 0x00 2) g.enc 0 a.enc 0 0 0)
  | .calli g d a => some (formA (opcode 0x00 3) g.enc d.enc a.enc 0 0 0)
  | .ret g a => some (formA (opcode 0x00 4) g.enc 0 a.enc 0 0 0)
  | .lsetup k n off => some (formL (opcode 0x01 0) 0 (e2 k ++ BitVec.ofNat 6 n.val ++ 0#1) off)
  | .loop k off => some (formL (opcode 0x01 1) 0 (e2 k ++ 0#7) off)
  | .loopx k off => some (formL (opcode 0x01 2) 0 (e2 k ++ 0#7) off)
  | .ckpt off => some (formL (opcode 0x02 0) 0 0 off)
  | .commit => some (formA (opcode 0x02 1) 0 0 0 0 0 0)
  | .check p => some (formA (opcode 0x02 2) 0 0 (opnd 0 p.val) 0 0 0)
  | .abort g => some (formA (opcode 0x02 3) g.enc 0 0 0 0 0)
  | .gclr a => some (formA (opcode 0x02 4) 0 0 a.enc 0 0 0)
  | .trap g c => some (formI (opcode 0x03 0) g.enc 0 0 c)
  | .bkpt g c => some (formI (opcode 0x03 1) g.enc 0 0 c)
  | .halt g => some (formA (opcode 0x03 2) g.enc 0 0 0 0 0)
  | .srd g d n p => some (formI (opcode 0x04 0) g.enc d.enc 0 (0#11 ++ n ++ p))
  | .swr g a n p => some (formI (opcode 0x04 1) g.enc 0 a.enc (0#11 ++ n ++ p))
  | .tswait a => some (formA (opcode 0x05 0) 0 0 a.enc 0 0 0)
  | .iflush a => some (formA (opcode 0x05 1) 0 0 a.enc 0 0 0)
  | .iflushAll => some (formA (opcode 0x05 1) 0 0 0 0 0 1)
  | .add x => some (encS2 (opcode 0x08 0) x 0 0)
  | .sub x => some (encS2 (opcode 0x08 1) x 0 0)
  | .and x => some (encS2 (opcode 0x08 2) x 0 0)
  | .or x => some (encS2 (opcode 0x08 3) x 0 0)
  | .xor x => some (encS2 (opcode 0x08 4) x 0 0)
  | .andn x => some (encS2 (opcode 0x08 5) x 0 0)
  | .orn x => some (encS2 (opcode 0x08 6) x 0 0)
  | .shl x => some (encS2 (opcode 0x08 7) x 0 0)
  | .shr x => some (encS2 (opcode 0x08 8) x 0 0)
  | .sra x => some (encS2 (opcode 0x08 9) x 0 0)
  | .rotl x => some (encS2 (opcode 0x08 10) x 0 0)
  | .rotr x => some (encS2 (opcode 0x08 11) x 0 0)
  | .min x => some (encS2 (opcode 0x08 12) x 0 0)
  | .max x => some (encS2 (opcode 0x08 13) x 0 0)
  | .minn x => some (encS2 (opcode 0x08 14) x 0 0)
  | .maxn x => some (encS2 (opcode 0x08 15) x 0 0)
  | .clz x => some (encS1 (opcode 0x09 0) x 0)
  | .ctz x => some (encS1 (opcode 0x09 1) x 0)
  | .popc x => some (encS1 (opcode 0x09 2) x 0)
  | .brev x => some (encS1 (opcode 0x09 3) x 0)
  | .sxt z x => some (encS1 (opcode 0x09 4) x z.enc)
  | .zxt z x => some (encS1 (opcode 0x09 5) x z.enc)
  | .mov x => some (encS1 (opcode 0x09 6) x 0)
  | .sel x c => some (encS2 (opcode 0x09 7) x c.enc 0)
  | .lea x sh => some (encS2 (opcode 0x09 8) x 0 (0#2 ++ e3 sh))
  | .bfx x => some (encS2 (opcode 0x09 9) x 0 0)
  | .bfi x => some (formA (opcode 0x09 10) x.g.enc x.d.enc x.a.enc x.b.enc x.c.enc 0)
  | .mul x => some (encS2 (opcode 0x0A 0) x 0 0)
  | .mulh x => some (encS2 (opcode 0x0A 1) x 0 0)
  | .mulhn x => some (encS2 (opcode 0x0A 2) x 0 0)
  | .div x => some (encS2 (opcode 0x0A 3) x 0 0)
  | .divn x => some (encS2 (opcode 0x0A 4) x 0 0)
  | .rem x => some (encS2 (opcode 0x0A 5) x 0 0)
  | .remn x => some (encS2 (opcode 0x0A 6) x 0 0)
  | .addi x imm => some (formI (opcode 0x0B 0) x.g.enc x.d.enc x.a.enc imm)
  | .movi g d imm => some (formL (opcode 0x0C 0) g.enc d.enc imm)
  | .movhi g d imm => some (formL (opcode 0x0C 1) g.enc (opnd 0 d.val) imm)
  | .cmp cc g d a b => some (formA (opcodeV 0x0D cc.enc) g.enc d.enc a.enc b.enc 0 0)
  | .cmpImm cc g d a imm => some (formI (opcodeV 0x0E cc.enc) g.enc d.enc a.enc imm)
  | .pand x => some (encP2 (opcode 0x0F 0) x)
  | .por x => some (encP2 (opcode 0x0F 1) x)
  | .pxor x => some (encP2 (opcode 0x0F 2) x)
  | .pandn x => some (encP2 (opcode 0x0F 3) x)
  | .pnot x => some (formA (opcode 0x0F 4) x.g.enc x.d.enc x.a.enc 0 0 0)
  | .pfroms g d a => some (formA (opcode 0x0F 5) g.enc d.enc a.enc 0 0 0)
  | .ptos g d a => some (formA (opcode 0x0F 6) g.enc d.enc a.enc 0 0 0)
  | .vadd x => some (encV2 (opcode 0x28 0) x 0)
  | .vsub x => some (encV2 (opcode 0x28 1) x 0)
  | .vmul x => some (encV2 (opcode 0x28 2) x 0)
  | .vmulh x => some (encV2 (opcode 0x28 3) x 0)
  | .vmad x => some (formA (opcode 0x28 4) x.g.enc x.d.enc x.a.enc x.b.enc x.c.enc (x.ty.enc ++ 0#2))
  | .vadds x => some (encV2 (opcode 0x28 5) x 0)
  | .vsubs x => some (encV2 (opcode 0x28 6) x 0)
  | .vmin x => some (encV2 (opcode 0x28 7) x 0)
  | .vmax x => some (encV2 (opcode 0x28 8) x 0)
  | .vabs x => some (encV1 (opcode 0x28 9) x)
  | .vneg x => some (encV1 (opcode 0x28 10) x)
  | .vand x => some (encV2 (opcode 0x29 0) x 0)
  | .vor x => some (encV2 (opcode 0x29 1) x 0)
  | .vxor x => some (encV2 (opcode 0x29 2) x 0)
  | .vandn x => some (encV2 (opcode 0x29 3) x 0)
  | .vshl x => some (encV2 (opcode 0x29 4) x 0)
  | .vshr x => some (encV2 (opcode 0x29 5) x 0)
  | .vsra x => some (encV2 (opcode 0x29 6) x 0)
  | .vsel x c => some (encV2 (opcode 0x29 7) x c.enc)
  | .vcmp cc g ty d a b => some (formA (opcodeV 0x2A cc.enc) g.enc d.enc a.enc b.enc 0 (ty.enc ++ 0#2))
  | .vbcast x => some (formA (opcode 0x2B 0) x.g.enc x.d.enc x.a.enc 0 0 (x.ty.enc ++ 0#2))
  | .viota x => some (formA (opcode 0x2B 1) x.g.enc x.d.enc x.a.enc 0 0 (x.ty.enc ++ 0#2))
  | .vextr g ty d a b => some (formA (opcode 0x2B 2) g.enc d.enc a.enc b.enc 0 (ty.enc ++ 0#2))
  | .vins g ty d a b c => some (formA (opcode 0x2B 3) g.enc d.enc a.enc b.enc c.enc (ty.enc ++ 0#2))
  | .vperm x => some (encV2 (opcode 0x2B 4) x 0)
  | .vslide x c => some (encV2 (opcode 0x2B 5) x c.enc)
  | .vzip x => some (encV2 (opcode 0x2B 6) x 0)
  | .vunzip x => some (encV2 (opcode 0x2B 7) x 0)
  | .vred op g ty d a => some (formA (opcodeV 0x2C op.enc) g.enc d.enc a.enc 0 0 (ty.enc ++ 0#2))
  | .vscan op x => some (encV1 (opcodeV 0x2D op.enc) x)
  | .vfadd x => some (encF2 (opcode 0x2E 0) x)
  | .vfsub x => some (encF2 (opcode 0x2E 1) x)
  | .vfmul x => some (encF2 (opcode 0x2E 2) x)
  | .vfma x => some (encF3 (opcode 0x2E 3) x)
  | .vfms x => some (encF3 (opcode 0x2E 4) x)
  | .vfnma x => some (encF3 (opcode 0x2E 5) x)
  | .vfmin x => some (encF2 (opcode 0x2E 6) x)
  | .vfmax x => some (encF2 (opcode 0x2E 7) x)
  | .vfabs x => some (encF1 (opcode 0x2E 8) x)
  | .vfneg x => some (encF1 (opcode 0x2E 9) x)
  | .vfclass x => some (encF1 (opcode 0x2E 10) x)
  | .vfcmp cc g ty d a b => some (formA (opcodeV 0x2F cc.enc) g.enc d.enc a.enc b.enc 0 (ty.enc ++ 0#2))
  | .vfrcp x => some (encF1 (opcode 0x30 0) x)
  | .vfrsq x => some (encF1 (opcode 0x30 1) x)
  | .vfsqrt x => some (encF1 (opcode 0x30 2) x)
  | .vexp2 x => some (encF1 (opcode 0x30 3) x)
  | .vlog2 x => some (encF1 (opcode 0x30 4) x)
  | .vfred op g ty rm d a => some (formA (opcodeV 0x31 op.enc) g.enc d.enc a.enc 0 0 (ty.enc ++ rm.enc2))
  | .vcvt x => some (formA (opcode 0x32 0) x.g.enc x.d.enc x.a.enc (0#1 ++ x.tt.enc ++ x.sty.enc) (0#7 ++ e2 x.part)
      (x.crm.enc3 ++ BitVec.ofBool x.wrp ++ BitVec.ofBool x.iee))
  | .vquant d a f nr ring crm => some (formA (opcode 0x32 1) 0 d.enc a.enc
      (0#2 ++ f.enc ++ BitVec.ofBool nr ++ e4 ring) 0 (crm.enc3 ++ 0#2))
  | .vquantF d a side k crm => some (formA (opcode 0x32 1) 0 d.enc a.enc
      (1#1 ++ BitVec.ofBool side ++ 0#5 ++ e2 k) 0 (crm.enc3 ++ 0#2))
  | .vdeq g d a f crm => some (formA (opcode 0x32 2) g.enc d.enc a.enc (0#2 ++ f.enc ++ 0#5) 0 (crm.enc3 ++ 0#2))
  | .vamax g ty a ring => some (formA (opcode 0x32 3) g.enc (opnd 3 0) a.enc (0#5 ++ ty.toXTy.enc) (0#5 ++ e4 ring) 0)
  | .vamaxC g ring => some (formA (opcode 0x32 3) g.enc (opnd 3 0) 0 (0#4 ++ 1#1 ++ 0#4) (0#5 ++ e4 ring) 0)
  | .vpack x wrp => some (formA (opcode 0x32 4) x.g.enc x.d.enc x.a.enc x.b.enc (0#5 ++ x.ty.toXTy.enc)
      (0#3 ++ BitVec.ofBool wrp ++ 0#1))
  | .vunpack x part => some (formA (opcode 0x32 5) x.g.enc x.d.enc x.a.enc (0#5 ++ x.ty.toXTy.enc)
      (0#8 ++ BitVec.ofBool part) 0)
  | .ld x => some (encLD (opcodeV 0x18 (0#1 ++ x.d.encSize)) x)
  | .ldG x => some (encLD (opcodeV 0x18 (1#1 ++ x.d.encSize)) x)
  | .st g a m buf => some (formM (opcodeV 0x19 (0#1 ++ a.encSize)) g.enc a.encData m.enc m.off 0 0 (e4 buf))
  | .lds g z d a b => some (formA (opcodeV 0x1A (0#1 ++ z.enc)) g.enc d.enc a.enc b.enc 0 0)
  | .sts g z a b c => some (formA (opcodeV 0x1A (1#1 ++ z.enc)) g.enc 0 a.enc b.enc c.enc 0)
  | .ldx g z d a b => some (formA (opcodeV 0x1B (0#1 ++ z.enc)) g.enc d.enc a.enc b.enc 0 0)
  | .stx g z a b c => some (formA (opcodeV 0x1B (1#1 ++ z.enc)) g.enc 0 a.enc b.enc c.enc 0)
  | .ldg x => some (encLG (opcodeV 0x1C (lxBit x.lease ++ x.d.encSize)) x)
  | .ldgG x => some (encLG (opcodeV 0x1D (lxBit x.lease ++ x.d.encSize)) x)
  | .stg x => some (encSG (opcodeV 0x1E (lxBit x.lease ++ x.a.encSize)) x)
  | .ldc x => if x.lease.isNone then some (encLG (opcodeV 0x1F (0#1 ++ x.d.encSize)) x) else none
  | .stc x => if x.lease.isNone then some (encSG (opcodeV 0x1F (1#1 ++ x.a.encSize)) x) else none
  | .pf g m l buf => some (formM (opcodeV 0x26 (lxBit l ++ 7#3)) g.enc 0 m.enc m.off 0 (leaseBits l) (e4 buf))
  | .smap g a b z => some (formA (opcode 0x20 0) g.enc 0 a.enc b.enc 0 (BitVec.ofNat 5 z.val))
  | .sunmap g a => some (formA (opcode 0x20 1) g.enc 0 a.enc 0 0 0)
  | .sdrop g a => some (formA (opcode 0x20 3) g.enc 0 a.enc 0 0 0)
  | .sflush g m tok buf => some (formM (opcode 0x20 2) g.enc 0 m.enc m.off (e3 tok) 0 (e4 buf))
  | .qbind g q m => some (formM (opcode 0x21 0) g.enc (opnd 0 q.val) m.enc m.off 0 0 0)
  | .qunbind g q => some (formA (opcode 0x21 1) g.enc 0 (opnd 0 q.val) 0 0 0)
  | .qstat g d q => some (formA (opcode 0x21 2) g.enc d.enc (opnd 0 q.val) 0 0 0)
  | .qflush g q => some (formA (opcode 0x21 3) g.enc 0 (opnd 0 q.val) 0 0 0)
  | .aadd x => some (encAT false .add x)
  | .amin x => some (encAT false .min x)
  | .amax x => some (encAT false .max x)
  | .aminn x => some (encAT false .minn x)
  | .amaxn x => some (encAT false .maxn x)
  | .aand x => some (encAT false .and x)
  | .aor x => some (encAT false .or x)
  | .axor x => some (encAT false .xor x)
  | .axchg x => some (encAT false .xchg x)
  | .acas x => some (encAT false .cas x)
  | .afadd x => some (encAT false .fadd x)
  | .atomicOrd op x => some (encAT true op x)
  | .acq g d m tok => some (formM (opcode 0x26 0) g.enc (match d with | none => opnd 3 0 | some r => opnd 0 r.val)
      m.enc m.off (e3 tok) 0 0)
  | .rel x => some (encRL 1 x)
  | .relf x => some (encRL 2 x)
  | .fence g tok => some (formM (opcode 0x26 3) g.enc 0 0 0 (e3 tok) 0 0)
  | .fencex g tok => some (formM (opcode 0x26 4) g.enc 0 0 0 (e3 tok) 0 0)
  | .cwaddAdd x => some (encCW x)
  | .cwaddArrive x => some (encCW x)
  | .cwaddRead x => some (encCW x)
  | .waitcw g r m => some (formM (opcode 0x26 6) g.enc (opnd 0 r.val) m.enc m.off 0 0 0)
  | .sscan x => some (encEC 0 x)
  | .cpy x => some (encEC 1 x)
  | .cpyr x => some (encEC 2 x)
  | .mcast x => some (encEC 3 x)
  | .gath x => some (encEC 4 x)
  | .scat x => some (encEC 5 x)
  | .coll x => some (encEC 6 x)
  | .gnode x => some (encEC 7 x)
  | .mpush g pt a => some (encX 0 g 0 a.enc 0 0 (0#9 ++ e3 pt))
  | .macc g bank cls f a b => some (encX 1 g (e2 bank) (optSrc a) (optSrc b) 0
      (BitVec.ofBool cls ++ BitVec.ofBool f.isFt ++ BitVec.ofBool a.isSome ++ BitVec.ofBool b.isNone ++ f.bits ++ 0#6))
  | .mshiftEdge g a => some (encX 2 g 0 a.enc 0 0 0)
  | .mshiftBank g bank => some (encX 2 g (e2 bank) 0 0 0 1)
  | .mdrain g d bank ty rm row => some (encX 3 g (e2 bank) 0 0 d.enc (0#3 ++ rm.enc2 ++ ty.enc ++ e4 row))
  | .mclr g bank ca => some (encX 4 g (e2 bank) 0 0 0 (0#11 ++ BitVec.ofBool ca))
  | .msel g md ms xch => some (encX 5 g (e2 md) (opnd 0 ms.val) 0 0 (0#11 ++ BitVec.ofBool xch))
  | .bundleIssue .. | .nop | .resultLand .. | .ringPushEffect .. | .tokenComplete .. | .streamFetch .. | .streamWrite ..
  | .orderedAtomicApply .. | .orderedAtomicArrival .. | .orderedAtomicRetry .. | .engineCommandStart ..
  | .engineItemComplete .. | .sscanComplete .. | .collComplete .. | .rollback .. | .rollbackComplete ..
  | .regionStepLimit .. | .commitDrainComplete .. | .uncorrectableError .. | .rerunOutcome .. | .launchDispatch ..
  | .taskBind .. | .nodeComplete .. | .nodeFail .. | .waitNodeSatisfied .. | .waitingTaskReady .. | .priority15Preempt ..
  | .yieldOverrun .. | .taskSave .. | .taskRestore .. | .savedCommandComplete .. | .migrationRequest .. | .migrationReply ..
  | .dfcmdQuery .. | .dfcmdResume .. | .dfcmdCancel .. | .ddbgStop .. | .ddbgStep .. | .ddbgResume .. | .dcfgWrite ..
  | .dcfgApply .. | .dmrtWrite .. | .dmrtApply .. | .domeReadingStart .. | .domeReading .. | .measurementClear ..
  | .registerWrite .. | .rotationPeriodBoundary .. | .counterSample .. | .traceRecord .. | .belfryBeaconSend
  | .belfryBeaconReceive .. | .regionMerge .. | .homeRequest .. | .snoopConflict .. | .homeMaskedWrite .. | .l2Eviction ..
  | .l2Invalidate .. | .coreWriteback .. | .lineFillComplete .. | .stashFillComplete .. | .hostMemWrite .. | .hostMemRead ..
  | .flitReceive .. | .linkReplay .. | .laneFail .. | .moduleRetrainEnd .. | .packetReceive .. | .packetRetry ..
  | .portFail .. | .agentDeclaredDead .. | .throttleStall .. | .coldReset | .warmReset | .belfryStepAdvance
  | .instanceDisabled .. | .stashWritebackAcknowledged .. => none

/-! ## Bundles (R94 to R98) -/

def headerOf (b : BundleBits) : Word := b.extractLsb' 0 64
def slotOf (b : BundleBits) (k : Nat) : SlotWord := b.extractLsb' (64 + 56 * k) 56
def hClass (h : Word) : BitVec 3 := h.extractLsb' 61 3
def hScope (h : Word) : BitVec 3 := h.extractLsb' 58 3
def hAwait (h : Word) : BitVec 8 := h.extractLsb' 50 8
def hPort (h : Word) (p : Nat) : BitVec 5 := h.extractLsb' (20 + 5 * p) 5
def hRun (h : Word) : BitVec 12 := h.extractLsb' 8 12
def hOcc (h : Word) : BitVec 8 := h.extractLsb' 0 8

/-- A bundle that holds one word in slot `k`, its ports enabled for the consumers in `ports` (R97). -/
def bundleWith (k : Nat) (w : SlotWord) (ports : List Nat) : BundleBits :=
  let p : BitVec 512 := ports.zipIdx.foldl (fun acc (c, i) => acc ||| (BitVec.ofNat 512 (16 + c) <<< (20 + 5 * i))) 0
  (BitVec.ofNat 512 1 <<< k) ||| p ||| (w.setWidth 512 <<< (64 + 56 * k))

/-- The first slot that can hold an operation of a major (R60). -/
def slotOfMajor (major : Nat) : Nat :=
  if major ≤ 0x07 then 0 else if major ≤ 0x17 then 1 else if major ≤ 0x27 then 3 else if major ≤ 0x3B then 5 else 7

def opcMajor (w : SlotWord) : Nat := ((fOpc w).extractLsb' 4 6).toNat

/-- The lowest occupied slot of a header. -/
def firstSlot (h : Word) : Option Nat := (List.range 8).find? fun k => h.getLsbD k

/-- The instruction the decoder reads from the bits `w`: up to 56 bits are the word of one slot, in the slot its
major's class names; more are a bundle, whose lowest occupied slot is read (an empty bundle is NOP, R96). -/
def decodeTableWord (nbits w : Nat) : Option Instr :=
  if nbits ≤ 56 then
    let x : SlotWord := BitVec.ofNat 56 w
    match decodeSlot 0x3F (slotOfMajor (opcMajor x)) x with
    | .ok i => some i
    | .error _ => none
  else
    let b : BundleBits := BitVec.ofNat 512 w
    match firstSlot (headerOf b) with
    | none => some .nop
    | some k =>
      match decodeSlot 0x3F k (slotOf b k) with
      | .ok i => some i
      | .error _ => none

end Sys2Proof
end

