-- ==== Sys2Proof/Config.lean ====
section
/-! DEFINITION. The free values of the model: values the manual leaves undefined (R8) or leaves to the
part. None has a body, so nothing can be proved of which value it is (log entry 3). Each is applied to a
counter of `State` that the step advances, so two uses are not known to agree. -/

namespace Sys2Proof.Config

/-- The undefined value number `n` of width `w` (R8). -/
@[noinline] opaque freeBits (w n : Nat) : BitVec w

/-- The Belfry ticks that pass at the machine's step number `n` (R2, R3: a step takes some cycles). -/
@[noinline] opaque freeTicks (n : Nat) : Nat

/-- The slice that executes the ordered atomics of a line (R194; the manual gives no map from lines to slices). -/
@[noinline] opaque sliceOf (place line : Nat) : Nat

/-- The path delay of an Eloaby port, in ticks, as link training measured it (R472). -/
@[noinline] opaque pathDelay (port : Nat) : Nat

end Sys2Proof.Config
end

