-- ==== Sys2Proof/Machine/Bits.lean ====
section
/-! DEFINITION. Elements, lanes and bytes of bit vectors (R5, R251), and the integer helpers of R128. -/

namespace Sys2Proof.Machine

/-- Element `e` of width `w` (R251). -/
def elem (w : Nat) (x : Vec) (e : Nat) : BitVec w := x.extractLsb' (w * e) w

/-- The vector whose elements of width `w` are the list's, from element 0 up. -/
def ofElems {w : Nat} (l : List (BitVec w)) : Vec :=
  l.foldr (fun x acc => (acc <<< w) ||| x.setWidth 1024) 0

/-- The number of elements of width `w` (R251). -/
def nElems (w : Nat) : Nat := 1024 / w

/-- The lane that holds element `e` (R251). -/
def laneOf (w e : Nat) : Nat := w * e / 32

def mapElems (w : Nat) (f : Nat → BitVec w) : Vec := ofElems ((List.range (nElems w)).map f)

/-- Elements with their flags; only elements of enabled lanes raise flags (R255). -/
def mapElemsF (w : Nat) (mask : BitVec 32) (f : Nat → BitVec w × BitVec 6) : Vec × BitVec 6 :=
  let l := (List.range (nElems w)).map fun e => (e, f e)
  (ofElems (l.map fun r => r.2.1),
    l.foldl (fun acc r => if mask.getLsbD (laneOf w r.1) then acc ||| r.2.2 else acc) 0)

/-- 32 bits from a function of the lane. -/
def bits32 (f : Nat → Bool) : BitVec 32 :=
  (List.range 32).foldr (fun i acc => (acc <<< 1) ||| BitVec.setWidth 32 (BitVec.ofBool (f i))) 0

/-- The lanes of `mask`, each widened to 32 bits. -/
def laneMask (mask : BitVec 32) : Vec :=
  ofElems ((List.range 32).map fun i => if mask.getLsbD i then BitVec.allOnes 32 else 0)

/-- New bits where `mask` is set, old bits elsewhere. -/
def blend {w : Nat} (mask new old : BitVec w) : BitVec w := (new &&& mask) ||| (old &&& ~~~mask)

/-- Little-endian bytes of a value (R5). -/
def toBytes (n : Nat) {w : Nat} (x : BitVec w) : List Byte := (List.range n).map fun i => x.extractLsb' (8 * i) 8

/-- The value of little-endian bytes (R5). -/
def ofBytes (w : Nat) (l : List Byte) : BitVec w :=
  l.foldr (fun b acc => (acc <<< 8) ||| b.setWidth w) 0

/-- The unsigned number of little-endian bytes. -/
def natOfBytes (l : List Byte) : Nat := l.foldr (fun b acc => acc * 256 + b.toNat) 0

/-- `n` bytes of a list from offset `o`, as a number. -/
def field (l : List Byte) (o n : Nat) : Nat := natOfBytes ((l.drop o).take n)

/-- The bits [hi:lo] of a number. -/
def bitsOf (x hi lo : Nat) : Nat := x / 2 ^ lo % 2 ^ (hi + 1 - lo)

/-- A `w`-bit number read as two's complement. -/
def signedOf (w x : Nat) : Int := if x < 2 ^ (w - 1) then (x : Int) else (x : Int) - 2 ^ w

/-- Wrap_w (R128). -/
def wrapI (w : Nat) (v : Int) : BitVec w := BitVec.ofInt w v

/-- Sat_iN and Sat_nN (R128), with whether the value changed. -/
def satI (w : Nat) (signed : Bool) (v : Int) : BitVec w × Bool :=
  let lo : Int := if signed then -(2 : Int) ^ (w - 1) else 0
  let hi : Int := if signed then (2 : Int) ^ (w - 1) - 1 else (2 : Int) ^ w - 1
  if v < lo then (BitVec.ofInt w lo, true) else if hi < v then (BitVec.ofInt w hi, true) else (BitVec.ofInt w v, false)

/-- An element read as signed or unsigned by its type (R264). -/
def readI {w : Nat} (signed : Bool) (x : BitVec w) : Int := if signed then x.toInt else (x.toNat : Int)

/-- Number of one bits. -/
def popcount {w : Nat} (x : BitVec w) : Nat := (List.range w).foldl (fun n i => if x.getLsbD i then n + 1 else n) 0

/-- A vector of `n` values, by index. -/
def vecOf {α : Type} (n : Nat) (f : Fin n → α) : Vector α n := ⟨⟨List.ofFn f⟩, by simp⟩

/-- Floor of the base-2 logarithm, 0 for 0, by counting. -/
def log2 (n : Nat) : Nat := n.log2

/-- A list with element `i` replaced. -/
def updAt {α : Type} (l : List α) (i : Nat) (f : α → α) : List α :=
  (l.take i) ++ (match l.drop i with
    | [] => []
    | x :: r => f x :: r)

end Sys2Proof.Machine
end

