-- ==== Sys2Proof/Machine/Mem.lean ====
section
/-! DEFINITION. Byte memory in canonical form: addresses strictly rising, no entry equal to 0, which is what an
unlisted address reads as (log entry 5). -/

namespace Sys2Proof.Machine

abbrev Mem := List Host.Cell

/-- The byte at an address. -/
def Mem.get : List Host.Cell → Nat → Byte
  | [], _ => 0
  | (k, b) :: r, a => if a = k then b else if a < k then 0 else Mem.get r a

/-- Write one byte, keeping the canonical form. -/
def Mem.put : List Host.Cell → Nat → Byte → List Host.Cell
  | [], a, x => if x = 0 then [] else [(a, x)]
  | (k, b) :: r, a, x =>
    if a = k then (if x = 0 then r else (k, x) :: r)
    else if a < k then (if x = 0 then (k, b) :: r else (a, x) :: (k, b) :: r)
    else (k, b) :: Mem.put r a x

/-- The cells from an address on. -/
def Mem.skip : List Host.Cell → Nat → List Host.Cell
  | [], _ => []
  | (k, b) :: r, a => if k < a then Mem.skip r a else (k, b) :: r
/-- The cells below an address. -/
def Mem.below : List Host.Cell → Nat → List Host.Cell
  | [], _ => []
  | (k, b) :: r, a => if k < a then (k, b) :: Mem.below r a else []
/-- Write a byte where there is one. -/
def Mem.putOpt (m : List Host.Cell) (a : Nat) : Option Byte → List Host.Cell
  | some b => Mem.put m a b
  | none => m
/-- Write up to `n` bytes from an address: those that `f` gives. -/
def Mem.putSome (m : List Host.Cell) (a n : Nat) (f : Nat → Option Byte) : List Host.Cell :=
  Mem.below m a ++ (List.range n).foldl (fun h i => Mem.putOpt h (a + i) (f i)) (Mem.skip m a)

/-- The canonical form, from a lower bound. -/
def Mem.wfFrom : Nat → List Host.Cell → Bool
  | _, [] => true
  | lo, (k, b) :: r => decide (lo ≤ k) && decide (b ≠ 0) && Mem.wfFrom (k + 1) r

/-- The canonical form. -/
def Mem.wf (m : List Host.Cell) : Bool := Mem.wfFrom 0 m

/-- Write bytes at rising addresses. -/
def Mem.putBytes (m : List Host.Cell) (a : Nat) : List Byte → List Host.Cell
  | [] => m
  | b :: r => Mem.putBytes (Mem.put m a b) (a + 1) r

/-- `n` bytes from an address; `Mem.getBytes_eq` says that each is `Mem.get`'s. -/
def Mem.getBytes (m : List Host.Cell) (a : Nat) : Nat → List Byte
  | 0 => []
  | n + 1 => let r := Mem.skip m a; Mem.get r a :: Mem.getBytes r (a + 1) n

/-- The bytes of a range, at offsets from its start. -/
def Mem.cut (m : List Host.Cell) (a n : Nat) : List Host.Cell :=
  m.filterMap fun c => if a ≤ c.1 ∧ c.1 < a + n then some (c.1 - a, c.2) else none

/-- A memory without the bytes of a range. -/
def Mem.drop (m : List Host.Cell) (a n : Nat) : List Host.Cell := m.filter fun c => c.1 < a || a + n ≤ c.1

/-- Put cells at offsets from `a`. -/
def Mem.paste (m : List Host.Cell) (a : Nat) : List Host.Cell → List Host.Cell
  | [] => m
  | c :: r => Mem.paste (Mem.put m (a + c.1) c.2) a r

end Sys2Proof.Machine
end

