-- ==== Sys2Proof/Machine/State.lean ====
section
/-! DEFINITION. The state of one package (R1, R15), as plain data, and its value after cold reset. `Arch` is the part
of a core that a speculative region shadows (R375). Fields marked MODEL are the model's own (log entries 1, 2). -/

namespace Sys2Proof.Machine

/-- Why the machine stops: for no reason. Every trap of the manual is a next state, so no constructor is needed. -/
inductive Fault where
deriving DecidableEq, Repr

/-- Why an instruction has no meaning. -/
inductive Refusal where
  /-- an arm of `exec` not modelled yet; raised by `exec` alone; safe. -/
  | notModelled (mnemonic : String)
deriving DecidableEq, Repr

/-! ## Pieces of a core -/

/-- A delayed-scaling ring (R142). -/
structure Ring where
  entries : Vector (BitVec 32) 16
  fill : Nat
  next : Fin 16
deriving DecidableEq, Repr

/-- The matrix state (R324). -/
structure Matrix where
  aEdge : Vector (BitVec 256) 16
  bEdge : Vec
  sa : Vector Byte 16
  sb : Vector Byte 32
  acc : Vector (Vector (BitVec 32) 32) 16
  beat : Fin 16
  opn : Bool
  banks : Vector (Vector (Vector (BitVec 32) 32) 16) 4
deriving DecidableEq, Repr

/-- A stream descriptor (R303, R304). -/
structure QDesc where
  base : Word
  ext : Vector (BitVec 32) 4
  stride : Vector Word 4
  ctl : Word
deriving DecidableEq, Repr

/-- An element the transfer unit fetched, with the fault recorded against it (R306). -/
structure QIn where
  idx : Nat
  data : Vec
  flt : Option (Byte × Word)
  line : Nat
deriving DecidableEq, Repr

/-- An element pushed: its place is taken at issue and its data enters on landing (R254). -/
structure QOut where
  idx : Nat
  addr : Nat
  data : Option Vec
deriving DecidableEq, Repr

/-- A stream register (R303 to R311); `pos` counts elements popped, or pushes issued. -/
structure QState where
  bound : Bool
  desc : QDesc
  pos : Nat
  inq : List QIn
  outq : List QOut
deriving DecidableEq, Repr

/-- The state a region shadows (R375). -/
structure Arch where
  s : Vector Word 64
  v : Vector Vec 128
  p : Vector Pred 16
  lc : Vector (BitVec 32) 4
  lstart : Vector Word 4
  lend : Vector Word 4
  /-- the counters in the order LSETUP set them up, latest first (R474) -/
  lorder : List (Fin 4)
  vrb : BitVec 6
  prb : BitVec 3
  lec : Vector (BitVec 16) 4
  y : Vector Vec 8
  mat : Matrix
  rings : Vector Ring 16
  fflags : BitVec 6
  streams : Vector QState 8
deriving DecidableEq, Repr

/-- A stash operation (R300 to R302), with what it read at issue. -/
inductive StashOp where
  | smap (off : Nat) (va : Nat) (lsz : Nat)
  | sunmap (off : Nat)
  | sdrop (off : Nat)
  | sflush (off : Nat) (buf : Fin 16)
deriving DecidableEq, Repr

/-- What a latency-1 effect on streams does (R286: effective from the next step). -/
inductive QAct where
  | bind (k : Fin 8) (d : QDesc)
  | unbind (k : Fin 8)
deriving DecidableEq, Repr

/-- Where a fixed-latency result lands (R202, R206, R415). Register indices are physical. -/
inductive FDest where
  | s (i : Fin 64)
  | v (i : Fin 128)
  | p (i : Fin 16)
  | latchOnly
  | stream (k : Fin 8) (idx : Nat)
  | ringPush (r : Fin 16)
  | ringClear (r : Fin 16)
  | sreg (n piece : Nat)
  | lec (k : Fin 4)
  | lrange (k : Fin 4)
  | stash (o : StashOp)
  | qact (a : QAct)
  | gclr
  | flagsOnly
deriving DecidableEq, Repr

/-- A fixed-latency result in flight: `left` steps remain, counting the one whose end it lands at (R415). `mask` is
the enabled lanes; `latch` says the slot's latch is written; `rgn` that it was issued in the open region. -/
structure Flight where
  slot : Fin 8
  dest : FDest
  val : Vec
  mask : BitVec 32
  flags : BitVec 6
  left : Nat
  latch : Bool
  rgn : Bool
deriving DecidableEq, Repr

/-- An entry of a core's KTT copy (R423, R424). -/
structure KEntry where
  vbase : Nat
  pbase : Nat
  hkind : Nat
  home : Nat
  dlc : Fin 8
  absent : Bool
  x : Bool
  w : Bool
  rd : Bool
  lsz : Nat
deriving DecidableEq, Repr

/-- Where a byte lives: a scratchpad byte by its R359 address, or a global byte by home and physical address. -/
inductive Loc where
  | spad (a : Nat)
  | glob (a : Nat)
deriving DecidableEq, Repr

/-- A copy of a global line in a core's L1D or stash (R159, R160, R193). -/
structure Line where
  key : Nat
  data : BitVec 512
  valid : BitVec 64
  dirty : BitVec 64
  tick : Nat
  cls : Option (Fin 8)
deriving DecidableEq, Repr

/-- A stash mapping (R161). -/
structure SMapping where
  off : Nat
  va : Nat
  key : Nat
  lsz : Nat
  wr : Bool
  cls : Option (Fin 8)
deriving DecidableEq, Repr

/-- A line fill not yet complete (R374). With `err` set it is over without data: the link or path toward its home failed, and
the stalled access meets that deferred error (R467, R471). -/
structure Fill where
  key : Nat
  cls : Option (Fin 8)
  dropped : Bool
  pf : Bool
  err : Option Byte := none
deriving DecidableEq, Repr

/-- A scope (R164). -/
inductive Scope where
  | core | cluster | die | package | system
deriving DecidableEq, Repr

/-- The register a token operation writes, or the stream that a QBIND whose descriptor met an error binds (R285). -/
inductive RDst where
  | s (i : Fin 64)
  | v (i : Fin 128)
  | q (k : Fin 8)
deriving DecidableEq, Repr

/-- An operation that named a token and has not completed (R210). -/
inductive PKind where
  /-- LDG: bytes already taken, the places of the others, and its lease class; `mask` is the enabled lanes -/
  | load (d : RDst) (mask : BitVec 32) (got : List (Option Byte)) (locs : List Loc) (cls : Option (Fin 8))
  | ldc (d : RDst) (mask : BitVec 32) (got : List (Option Byte)) (locs : List Loc)
  | stg
  | stc (bytes : List (Loc × Byte))
  /-- an atomic: `old` is there once it is performed (R313) -/
  | atomic (op : AOp) (z : ASz) (r : Fin 64) (x x2 : Word) (sc : Scope) (loc : Nat) (old : Option Word)
  | ordAtomic (op : AOp) (z : ASz) (r : Fin 64) (x x2 : Word) (sc : Scope) (loc : Nat) (old : Option Word)
  | acq (d : Option (Fin 64)) (sc : Scope) (loc : Nat)
  /-- REL and RELF; `after` is the held-apart set of R319: lines added since this release issued -/
  | rel (full : Bool) (val : Word) (sc : Scope) (loc : Nat) (after : Sig)
  | fence (sc : Scope)
  | fencex
  | cwadd (r : Fin 64) (v : Word) (sc : Scope) (loc : Nat) (old : Option Word)
  | sflush (key : Option Nat) (buf : Fin 16)
  | engine (id : Nat)
  /-- an item the region holds (R381) -/
  | held
deriving DecidableEq, Repr

structure PendOp where
  seq : Nat
  tok : Fin 8
  kind : PKind
  ea : Word
  slot : Fin 8
  /-- the bundle that issued it (R395) -/
  pc : Word
  rgn : Bool
  /-- bytes counted against a buffer once it has completed without an error (R287) -/
  hot : Option (Fin 16 × Nat) := none
deriving DecidableEq, Repr

/-- A deferred error not yet raised (R285). -/
structure Deferred where
  seq : Nat
  tok : Option (Fin 8)
  cause : Byte
  ea : Word
  dst : Option RDst
  slot : Fin 8
  pc : Word
  rgn : Bool
deriving DecidableEq, Repr

/-- A fixed operand copy of an engine command (R334). -/
inductive EKind where
  | sscan | cpy | cpyr | mcast | gath | scat | coll | gnode
deriving DecidableEq, Repr

/-- An item the Tadpole buffer holds (R378). -/
inductive Held where
  | store (bytes : List (Loc × Byte)) (global : Bool) (tok : Option Nat)
  /-- `idx` is past 2^32 once the binding that pushed it is gone (R311) -/
  | push (k : Fin 8) (idx addr : Nat) (size : Nat) (buf : Fin 16) (data : Option Vec)
  | engine (id : Nat)
  | stash (o : StashOp) (tok : Option Nat)
deriving DecidableEq, Repr

/-- An armed alias guard's bytes (R292). -/
abbrev GuardBytes := Option (List Loc)

/-- The outcome of a rerun (R394). -/
inductive Outcome1 where
  | ended (commit : Bool) (cause : Nat) (step : Nat) (sig load : BitVec 32)
  | error (step : Nat) (addr : Option Word)
deriving DecidableEq, Repr

/-- The region states of R399. -/
inductive RState where
  | closed | opened | draining | unwinding (c : Nat) | rerunA | rerunB
deriving DecidableEq, Repr

/-- An open region (R236, R378, R383, R394). -/
structure Region where
  st : RState
  recovery : Int
  ckpt : Word
  steps : Nat
  shadow : Option Arch
  /-- the Tadpole buffer's items, oldest first (R378) -/
  held : List Held
  guards : Vector GuardBytes 16
  /-- the first rerun's result (R394) -/
  outA : Option Outcome1
  /-- digests of the rerun in progress (R394) -/
  sigCrc : BitVec 32
  loadCrc : BitVec 32
  /-- the second rerun's result -/
  outB : Option Outcome1
  /-- slot and bundle of the error met (R395) -/
  errPc : Word
  errSlot : Nat
deriving DecidableEq, Repr

/-- What a core is stalled on, in the order of R474. -/
inductive Stall where
  | token | stream | stashMiss | split | stretch | substitution | freeze
deriving DecidableEq, Repr

/-- What the task waits for at WAITCW or TSWAIT (R247, R323). -/
inductive WaitOn where
  | cw (loc : Nat) (target : BitVec 32) (sc : Scope)
  | step (n : Word)
deriving DecidableEq, Repr

/-- A COLL command that failed because its identifier or another command clashed with it, as long as a participant it names is
still to start: command, identifier array, participants left (R369). -/
structure OldColl where
  desc : List Byte
  arr : List Nat
  left : List Nat
deriving DecidableEq, Repr

/-- Work of one bundle's issue, in order (MODEL). -/
inductive Work where
  /-- run a slot's operation; `chain` is the word index of a substitute sequence (R460), `last` its last word -/
  | run (slot : Fin 8) (word : Nat) (last : Bool) (i : Instr)
  /-- take a trap with the slots `done` committed -/
  | trap (slot : Nat) (cause : Byte) (fval : Word) (done : BitVec 8)
  | finish
  | event (i : Instr)
deriving DecidableEq, Repr

/-- A counter of the measurement block (R475). -/
structure Ctr where
  cctl : Word
  count : Word
  tena : Word
  trun : Word
deriving DecidableEq, Repr

/-- A level of the loop accounting (R474). -/
structure LAcc where
  fill : Vector Word 8
  nops : Vector Word 8
  stalls : Vector Word 7
deriving DecidableEq, Repr

/-- The measurement block of a core (R473). -/
structure Meas where
  lacc : Vector LAcc 4
  ctrs : Vector Ctr 16
  hotB : Vector Word 16
  hotS : Vector Word 16
  mrot : Word
  tbase : Word
  tctl : Word
  tpos : Nat
  tstep : Nat
  outcomes : List Bool
  /-- records that wait for a place in a full ring: kind, value and step (R478) -/
  twait : List (Nat × BitVec 56 × Nat)
deriving DecidableEq, Repr

/-- A step the lead broadcast, as a member of a gang will issue it (R44, R45, R230). -/
structure GStep where
  pc : Word
  bits : BundleBits
  next : Word
  halt : Bool
  y : Vector Vec 8
deriving DecidableEq, Repr

/-- A task's other registers, which a region does not shadow. -/
structure Special where
  tile : Word
  gpos : BitVec 4
  done : BitVec 8
  rbcause : BitVec 4
  latcls : Byte
  cause : Byte
  fpc : Word
  fslot : BitVec 4
  fval : Word
  fmtt : Vec
  ssthr : BitVec 4
  wsig : Sig
deriving DecidableEq, Repr

/-- A candidate that the arbiter has chosen for cores that are still to be left (R410, R411, R413). -/
structure Promise where
  launch : Nat
  node : Nat
  j : Nat
  members : List Nat
  cores : List Nat
deriving DecidableEq, Repr

/-- An ACQ of one bundle and object that reads the same `GEN` again: since when, and whether it has been repeated (R479). -/
structure Spin where
  pc : Word
  obj : Nat
  gen : Word
  since : Nat
  again : Bool
deriving DecidableEq, Repr

structure Core where
  /-- die * 512 + cluster * 64 + %coreid (R10, R11) -/
  id : Nat
  /-- the task it runs (R408) -/
  task : Option Nat
  a : Arch
  sp : Special
  lct : Word
  semMap : BitVec 6
  semDis : BitVec 6
  kttReg : Word
  ktt : List KEntry
  /-- neighbour latches of the step in issue, and steps received (R45) -/
  ny : Vector Vec 8
  feed : List GStep
  /-- latches as they stood when the step in issue began (R45) -/
  y0 : Vector Vec 8
  maps : List SMapping
  lines : List Line
  /-- stores younger than an ordered atomic of their line that is still to be performed: program-order number, address
  and byte (R297) -/
  young : List (Nat × Nat × Byte)
  fills : List Fill
  icopies : List (Word × BundleBits)
  /-- the loop buffer: bundles of loop bodies, 256 at most (R1, R233) -/
  loopBuf : List (Word × BundleBits)
  flights : List Flight
  pend : List PendOp
  errs : List Deferred
  /-- program-order number of the next token operation -/
  seq : Nat
  rgn : Region
  pc : Word
  /-- the next bundle slot 0 decided, when it has committed (R216) -/
  next : Option Word
  /-- bundle being issued -/
  bundle : BundleBits
  slot : Fin 8
  /-- chain value of a substitute sequence (R460), and whether the word in execution is its last -/
  chain : Option Vec
  chainLast : Bool
  /-- the value of a paired constant in the bundle in issue (R116) -/
  pair : Option Word
  /-- the end of the bundle's step is due (R202) -/
  landDue : Bool
  stall : Option Stall
  /-- the stall is another gang member's (R44) -/
  held : Bool
  /-- the cause and the cycles of the stall in progress, not traced yet, and the tick its wait began (R479) -/
  stallWhy : Option Stall
  stallCyc : Nat
  waitFrom : Nat
  wait : Option WaitOn
  /-- whether the TSWAIT in issue is late: it is not once it has waited (R247) -/
  tsLate : Option Bool
  /-- the candidates the arbiter saw at its last decision while the task waits (R409) -/
  decided : List (Nat × Nat × Nat × Nat × Nat)
  /-- the task or gang this core is kept for (R411) -/
  promise : Option Promise
  halting : Bool
  /-- a COMMIT of the bundle in issue, which ends the region at the end of its step (R240) -/
  commitDue : Bool
  claim : Nat
  sinceYield : Nat
  slice : Nat
  chgSteps : Nat
  wmark : Nat
  /-- disabled without replacement (R14) -/
  disabled : Bool
  /-- the acquire that a task repeats while its object's generation stays (R479) -/
  spin : Option Spin
  m : Meas
deriving DecidableEq, Repr

/-! ## Shared structures -/

/-- A cluster's L2 copy with overlay marks (R170). `amarks` says that a cluster-scope atomic marked it; `writers` are the
cores whose writes marked it (R171). -/
structure L2Line where
  cluster : Nat
  key : Nat
  data : BitVec 512
  valid : BitVec 64
  marks : BitVec 64
  amarks : Bool
  writers : List Nat
  tick : Nat
  cls : Option (Fin 8)
deriving DecidableEq, Repr

inductive Moesi where
  | M | O | E | S
deriving DecidableEq, Repr

/-- The directory's state of a line in one L2 (R190). -/
structure DirEnt where
  key : Nat
  cluster : Nat
  st : Moesi
deriving DecidableEq, Repr

/-- A region record of the tracking across dies (R191). -/
structure DieRegion where
  base : Nat
  lsz : Nat
  holders : List Nat
  owners : List Nat
  tick : Nat
deriving DecidableEq, Repr

/-- A buffered ordered atomic (R194 to R196); `core` and `seq` find the pending operation. -/
structure OrdReq where
  core : Nat
  pseq : Nat
  num : BitVec 16
  step : Word
  /-- of another package: its operation, size, address and operands -/
  far : Option (AOp × ASz × Nat × Word × Word)
deriving DecidableEq, Repr

structure OrdSlice where
  slice : Nat
  buf : List OrdReq
  /-- refused arrivals, and those of them that no progress has been signalled to since (R196) -/
  refused : List OrdReq
  tried : List OrdReq
  /-- the Belfry steps whose end it has worked on (R195) -/
  ended : Nat
  nextNum : List (Nat × BitVec 16)
  lastStep : Nat
  lastSrc : Nat
deriving DecidableEq, Repr

/-- A request sent to a slice and not yet arrived. -/
structure OrdSent where
  slice : Nat
  req : OrdReq
deriving DecidableEq, Repr

/-- An engine command (R336), until complete. `core` is none for a graph node's. -/
structure EngCmd where
  id : Nat
  kind : EKind
  core : Option Nat
  cluster : Nat
  task : Option Nat
  node : Option (Nat × Nat)
  ea : Word
  desc : List Byte
  /-- index of a batch node's scan -/
  sub : Nat
  items : Nat
  doneItems : List Nat
  failCause : Option Byte
  started : Bool
  held : Bool
  sig : Sig
  flags : BitVec 6
  bytes : Nat
  /-- the state-space unit a scan runs on: of the core that issued it, or chosen for a batch (R36, R416) -/
  ssu : Option Nat
  /-- the prescale of a quantising copy, once its ring has been read (R144) -/
  kexp : Option Int
  ssthr : Nat
  ktt : List KEntry
  seq : Nat
  wsig : Sig
  fullinv : Bool
  /-- FENCEX operations it must wait for (R199) -/
  behind : List Nat
  /-- items that have failed, with their causes, while their completion word lies in an absent page (R178, R341) -/
  failing : List (Nat × Byte) := []
deriving DecidableEq, Repr

/-- An RCB of a launch (R25 to R29), with effective values. -/
structure Rcb where
  addr : Nat
  parent : Option Nat
  cores : Option Nat
  steps : Option Nat
  bytes : Option Nat
  prio : Nat
  fdom : Nat
  ktt : Nat
  usedSteps : Nat
  usedBytes : Nat
  stopped : Bool
deriving DecidableEq, Repr

inductive NState where
  | blocked | ready | running | complete | failed | cancelled
deriving DecidableEq, Repr

/-- A graph node (R32, R33). -/
structure Node where
  rcb : Nat
  addr : Nat
  kind : Nat
  succ : List Nat
  work : Nat
  ncw : Nat
  k : Vector Word 5
  st : NState
  status : Byte
  /-- union of the predecessors' signatures, and its own (R38) -/
  acq : Sig
  sig : Sig
  /-- tasks offered, ended; items issued and done -/
  bound : Nat
  ended : Nat
  faulted : Option Byte
  gnode : Option Nat
  /-- bytes its commands have written, charged when it is over (R339) -/
  bytes : Nat
  /-- became ready while its domain was stopped (R428) -/
  heldReady : Bool
  readyTick : Nat
deriving DecidableEq, Repr

structure Launch where
  id : Nat
  die : Fin 4
  cw : Nat
  args : Word
  prio : Nat
  fdom : Nat
  cmask : BitVec 8
  gsize : Nat
  gskew : Nat
  det : Bool
  rcbs : List Rcb
  nodes : List Node
  done : Nat
  fails : Nat
  total : Nat
  retired : Bool
deriving DecidableEq, Repr

inductive TState where
  | ready | running | waiting | migrating | stopped | ended
deriving DecidableEq, Repr

/-- A task's saved state (R414 to R421): the register content, the snapshot, the recorded tokens. The slot in home
memory holds the same by R419; its SPC, SDONE and SNEXT are read back from there (R421). -/
structure Saved where
  a : Arch
  sp : Special
  flights : List Flight
  maps : List SMapping
  spad : List Host.Cell
  wmark : Nat
  pend : List PendOp
  errs : List Deferred
  vol : Bool
  core : Nat
  sinceYield : Nat
  claim : Nat
  halting : Bool
  next : Option Word
  tsLate : Option Bool
  feed : List GStep
  ny : Vector Vec 8
  /-- steps not yet charged (R29) -/
  chg : Nat
  /-- tokens recorded at the save (R414) -/
  toks : Nat
  /-- joins held (R439): signature and flags, in completion order -/
  joins : List (Sig × BitVec 6)
deriving DecidableEq, Repr

structure Task where
  id : Nat
  launch : Nat
  node : Nat
  j : Nat
  st : TState
  core : Option Nat
  readyTick : Nat
  slot : Option Nat
  saved : Option Saved
  wait : Option WaitOn
  /-- the gang it belongs to (id of its lead) and its size -/
  gang : Nat
  gsize : Nat
  gpos : Nat
  cause : Byte
  /-- stopped by its domain (true) or by DDBG (false); a single step pending -/
  domStop : Bool
  stepping : Bool
  /-- pages it waits for -/
  mig : Option Nat
  /-- what is to be done at its next bundle boundary (R391, R413) -/
  stopReq : Option SaveWhy
  args : Word
  /-- the cause it fails with when it leaves its core: its domain was cancelled meanwhile (R408, R414) -/
  cancel : Option Byte := none
deriving DecidableEq, Repr

/-- A pool's launch queue (R20). -/
structure LQueue where
  head : Nat
  expected : Nat
  /-- the head line fired and waits for the dispatcher, in firing order -/
  fired : Bool
  firedAt : Nat
deriving DecidableEq, Repr

/-- An entry of the match-and-replace table (R458). -/
structure MrEnt where
  mmsk : Word
  mval : Word
  mhmsk : Word
  mhval : Word
  mctl : Word
  words : List SlotWord
deriving DecidableEq, Repr

/-- A record of the Gecko recorder (R431). -/
structure Rec where
  tick : Word
  seq : BitVec 32
  src : Nat
  cause : Byte
  slot : Byte
  pc : Word
  val : Word
deriving DecidableEq, Repr

/-- A die's dispatcher and recorder (R403, R433, R457, R481). -/
structure Die where
  dcfg : Word
  dcfgHeld : Option Word
  dsave : Word
  dfcmd : Word
  ddbg : Word
  dmrt : Word
  dmrtHeld : Option Word
  mr : List MrEnt
  mrhash : Word
  ddome : Word
  domeAt : Option Nat
  domeSum : Word
  domeMin : Word
  domeMax : Word
  domeSrc : Word
  /-- the last 4,096 records, latest first, and the count since cold reset -/
  gecko : List Rec
  gcount : Word
  queues : Vector LQueue 64
  spares : Vector Nat 8
  /-- the launch window is open to the host (R483 step 4) -/
  opened : Bool
  /-- launch window bytes (R17) -/
  window : List Host.Cell
  /-- lines whose `VALID` is 1 (64 times the queue, plus the line), in the order of the writes that set it (R22) -/
  valids : List Nat
  slots : List Nat
deriving DecidableEq, Repr

/-- A request for a migration: tick of the fault, package (the host's number being 1,024), source, and whether it arrived
within 2^16 ticks of the entry's last migration (R427). -/
structure MReq where
  tick : Nat
  pkg : Nat
  src : Nat
  soon : Bool
deriving DecidableEq, Repr
/-- A migration of a KTT entry (R426, R427), by the table's physical address and the entry's virtual base. -/
structure Migr where
  key : Nat
  vbase : Nat
  reqs : List MReq
  doneTick : Option Nat
  /-- the mapping the last reply set: physical base, home kind, home -/
  res : Option (Nat × Nat × Nat)
deriving DecidableEq, Repr

/-- A stopped fault domain (R428). -/
structure StopDom where
  die : Fin 4
  dom : Nat
  cause : Byte
deriving DecidableEq, Repr

/-- A UCIe module (R464 to R467). -/
structure Module where
  width : Nat
  spareLanes : Nat
  expected : Nat
  acked : Nat
  replay : Bool
  crcFails : List Nat
  training : Bool
  repaired : Bool
  downAt : Option Nat
  /-- the replay buffer: requests and answers sent and not yet acknowledged, oldest first, each with its number and what it
  carries (R464, R466) -/
  out : List (Nat × List Byte)
deriving DecidableEq, Repr

/-- A packet: the port it came to, its flow (package, source, destination), number and request; `waits` says that it was
refused and no progress has been signalled since (R468 to R470). -/
structure Pkt where
  port : Fin 32
  flow : Nat × Nat × Nat
  num : BitVec 16
  req : FarReq
  waits : Bool
deriving DecidableEq, Repr

structure Flow where
  flow : Nat × Nat × Nat
  expected : BitVec 16
deriving DecidableEq, Repr

/-- An image that ikld handed to the dispatcher (R446, R447): its virtual range, latency class and features. -/
structure Image where
  lo : Nat
  hi : Nat
  lat : Byte
  feat : Word
deriving DecidableEq, Repr

/-- The whole package. -/
structure State where
  core : Core
  others : List Core
  spad : List Host.Cell
  home : List Host.Cell
  poison : List Nat
  /-- words that barrier arrivals use (R178, R322) -/
  barriers : List Nat
  l2 : List L2Line
  dir : List DirEnt
  /-- lines the host holds, and whether it owns them (R190) -/
  hostHeld : List (Nat × Bool)
  dieRegions : List DieRegion
  ords : List OrdSlice
  ordSent : List OrdSent
  ordNums : List (Nat × Nat × BitVec 16)
  cmds : List EngCmd
  cmdNext : Nat
  oldColls : List OldColl
  launches : List Launch
  launchNext : Nat
  tasks : List Task
  taskNext : Nat
  tick : Nat
  lastBeacon : Option Nat
  lastCorr : Option Nat
  beacons : Nat
  skew : Int
  dies : Vector Die 4
  stopped : List StopDom
  feat : BitVec 6
  trapSeqs : List (Nat × BitVec 32)
  migrs : List Migr
  /-- node completion words that wait for a migration (R37): table, address, failure -/
  ncwWait : List (Nat × Nat × Option Byte)
  incarn : List (Nat × Byte)
  dead : List Nat
  modules : Vector Module 4
  /-- the number of the next flit each module sends (R466) -/
  flitSent : Vector Nat 4
  ports : BitVec 32
  /-- packages that no path reaches, with the tick since when (R471) -/
  lost : List (Nat × Nat)
  /-- the next number of each flow this package sends: source, destination (R468) -/
  sentNums : List (Nat × Nat × BitVec 16)
  /-- the beacon last sent or forwarded: its package and count (R472) -/
  beaconOut : Option (Nat × Word)
  flows : List Flow
  reorder : List Pkt
  refusedPkts : List Pkt
  package : Nat
  images : List Image
  /-- MODEL: work of the event in progress, events to come, counter of free values -/
  agenda : List Work
  script : List Instr
  fresh : Nat
deriving DecidableEq, Repr

/-! ## Reset -/

def Ring.reset : Ring := ⟨Vector.replicate 16 0, 0, 0⟩
def Matrix.reset : Matrix where
  aEdge := Vector.replicate 16 0
  bEdge := 0
  sa := Vector.replicate 16 0
  sb := Vector.replicate 32 0
  acc := Vector.replicate 16 (Vector.replicate 32 0)
  beat := 0
  opn := false
  banks := Vector.replicate 4 (Vector.replicate 16 (Vector.replicate 32 0))
def QState.reset : QState := ⟨false, ⟨0, Vector.replicate 4 0, Vector.replicate 4 0, 0⟩, 0, [], []⟩
/-- R40 for the loop counters, R134 and R221 to R223 for %fflags, %vrb, %prb and %lec; the rest by log entry 4. -/
def Arch.reset : Arch where
  s := Vector.replicate 64 0
  v := Vector.replicate 128 0
  p := Vector.replicate 16 0
  lc := Vector.replicate 4 0
  lstart := Vector.replicate 4 0
  lend := Vector.replicate 4 0
  lorder := []
  vrb := 0
  prb := 0
  lec := Vector.replicate 4 0
  y := Vector.replicate 8 0
  mat := Matrix.reset
  rings := Vector.replicate 16 Ring.reset
  fflags := 0
  streams := Vector.replicate 8 QState.reset
def Special.reset : Special where
  tile := 0
  gpos := 0
  done := 0
  rbcause := 0
  latcls := 6
  cause := 0
  fpc := 0
  fslot := 0
  fval := 0
  fmtt := 0
  ssthr := 4
  wsig := 0
def Region.reset : Region where
  st := .closed
  recovery := 0
  ckpt := 0
  steps := 0
  shadow := none
  held := []
  guards := Vector.replicate 16 none
  outA := none
  sigCrc := 0
  loadCrc := 0
  outB := none
  errPc := 0
  errSlot := 0
def LAcc.reset : LAcc := ⟨Vector.replicate 8 0, Vector.replicate 8 0, Vector.replicate 7 0⟩
/-- `RPER` resets to 16 (R477); the other fields to 0. -/
def Meas.reset : Meas where
  lacc := Vector.replicate 4 LAcc.reset
  ctrs := Vector.replicate 16 ⟨0, 0, 0, 0⟩
  hotB := Vector.replicate 16 0
  hotS := Vector.replicate 16 0
  mrot := 16
  tbase := 0
  tctl := 0
  tpos := 0
  tstep := 0
  outcomes := []
  twait := []
/-- %lct's reset value (R192). -/
def lctReset : Word := 0x3F1A16120E0A0600
/-- A core after cold reset: idle, with no task. -/
def Core.reset (id : Nat) : Core where
  id := id
  task := none
  a := Arch.reset
  sp := Special.reset
  lct := lctReset
  semMap := 0b101010
  semDis := 0
  kttReg := 0
  ktt := []
  ny := Vector.replicate 8 0
  feed := []
  y0 := Vector.replicate 8 0
  maps := []
  lines := []
  young := []
  fills := []
  icopies := []
  loopBuf := []
  flights := []
  pend := []
  errs := []
  seq := 0
  rgn := Region.reset
  pc := 0
  next := none
  bundle := 0
  slot := 0
  chain := none
  chainLast := true
  pair := none
  landDue := false
  stall := none
  held := false
  stallWhy := none
  stallCyc := 0
  waitFrom := 0
  wait := none
  tsLate := none
  decided := []
  promise := none
  halting := false
  commitDue := false
  claim := 0
  sinceYield := 0
  slice := 0
  chgSteps := 0
  wmark := 0
  disabled := false
  spin := none
  m := Meas.reset
def LQueue.reset : LQueue := ⟨0, 0, false, 0⟩
/-- `BSE` 10, `SLCE` 16, `AGSH` 20 (R404). -/
def dcfgReset : Word := 0x0000000A00101400
def Die.reset : Die where
  dcfg := dcfgReset
  dcfgHeld := none
  dsave := 0
  dfcmd := 0
  ddbg := 0
  dmrt := 0
  dmrtHeld := none
  mr := []
  mrhash := 0
  ddome := 0
  domeAt := none
  domeSum := 0
  domeMin := 0
  domeMax := 0
  domeSrc := 0
  gecko := []
  gcount := 0
  queues := Vector.replicate 64 LQueue.reset
  spares := Vector.replicate 8 2
  opened := false
  window := []
  valids := []
  slots := []
/-- Spare lanes of a module are not numbered by the manual: 4, log entry 4. -/
def Module.reset : Module := ⟨64, 4, 0, 0, false, [], false, false, none, []⟩
/-- The package after cold reset (R483): no task, no launch, nothing in flight. -/
def State.reset : State where
  core := Core.reset 0
  others := []
  spad := []
  home := []
  poison := []
  barriers := []
  l2 := []
  dir := []
  hostHeld := []
  dieRegions := []
  ords := []
  ordSent := []
  ordNums := []
  cmds := []
  cmdNext := 0
  oldColls := []
  launches := []
  launchNext := 0
  tasks := []
  taskNext := 0
  tick := 0
  lastBeacon := none
  lastCorr := none
  beacons := 0
  skew := 0
  dies := Vector.replicate 4 Die.reset
  stopped := []
  feat := 0x3F
  trapSeqs := []
  migrs := []
  ncwWait := []
  incarn := []
  dead := []
  modules := Vector.replicate 4 Module.reset
  flitSent := Vector.replicate 4 0
  ports := BitVec.allOnes 32
  lost := []
  sentNums := []
  beaconOut := none
  flows := []
  reorder := []
  refusedPkts := []
  package := 0
  images := []
  agenda := []
  script := []
  fresh := 0

end Sys2Proof.Machine
end

