-- ==== Sys2Proof/Machine/Cache.lean ====
section
/-! DEFINITION. The memory levels (R158 to R163, R170 to R175, R190 to R193): scratchpads, a core's lines, the L2
overlays, the homes with the directory, signatures and leases; and translation (R422 to R425). -/

namespace Sys2Proof.Machine

/-! ## Places -/

/-- The space-11 address of an offset in a core's scratchpad (R359). -/
def spadAddr (id off : Nat) : Nat := (id / 512) * 2 ^ 28 + (id / 64 % 8) * 2 ^ 25 + (id % 64) * 2 ^ 19 + off
def spadBytes : Nat := 0x80000
/-- The cluster of a core, 0 to 31. -/
def clusterOf (id : Nat) : Nat := id / 64
def dieOf (id : Nat) : Nat := id / 512
def cidOf (id : Nat) : Nat := id % 64
/-- A core's source number (R11). -/
def srcNum (id : Nat) : Nat := dieOf id * 1024 + id % 512

/-- The key of a global byte: home kind, home package, physical address (R424). -/
def globKey (hkind home pa : Nat) : Nat := hkind * 2 ^ 72 + home * 2 ^ 56 + pa
def lineKey (a : Nat) : Nat := a / 64
/-- A line whose home is another package or the host is leased (R192). -/
def leased (key : Nat) : Bool := 2 ^ 66 ≤ key
/-- Lines an L1D and an L2 hold: 64 KiB and 24 MiB (R1, R159). -/
def l1dLines : Nat := 1024
def l2Lines : Nat := 393216

/-! ## Agents (R429) -/

/-- Agents that can be declared dead: a core by its number, a package, the host. -/
def agentPkg (p : Nat) : Nat := 4096 + p
def agentHost : Nat := 8192
/-- The agent a leased line's home belongs to. -/
def homeAgent (key : Nat) : Nat := if 2 ^ 67 ≤ key then agentHost else agentPkg (key / 2 ^ 50 % 2 ^ 16)
/-- The deferred error a read of a line meets: poison, or a dead home (R285, R429, R430). -/
def homeErr (s : State) (key : Nat) : Option Byte :=
  if s.poison.contains key then some 0x0B
  else if leased key && s.dead.contains (homeAgent key) then some 0x12
  else none

/-- A UCIe module that carries traffic (R467). -/
def moduleUp (m : Module) : Bool := !m.training && m.downAt.isNone
/-- A path leads from a die to a line's home: to the host through the die's module, to another package by a port. Requests
toward a home that no path reaches wait; a dead home answers with its error (R429, R467, R471). -/
def reach (s : State) (die key : Nat) : Bool :=
  !leased key || s.dead.contains (homeAgent key)
    || (if homeAgent key = agentHost then moduleUp (s.modules.get (Fin.ofNat 4 die))
        else s.ports != 0 && !(s.lost.any fun x => agentPkg x.1 == homeAgent key))
/-- Source numbers (R11): the UCIe module of a die, a home slice (0 to 255 in the package), and the core in focus or, for what
a cluster does of itself, its dispatcher. -/
def moduleSrc (die : Nat) : Nat := die * 1024 + 656
def sliceSrc (k : Nat) : Nat := k / 64 % 4 * 1024 + 704 + k % 64
def homeSliceOf (key : Nat) : Nat := Config.sliceOf 32 key % 256
def agentSrc (s : State) (c : Nat) : Nat :=
  if clusterOf s.core.id = c then srcNum s.core.id else c / 8 * 1024 + 640 + c % 8
/-- Flits a module's replay buffer holds (R464). -/
def replayCap : Nat := 128
/-- A flit enters its module's replay buffer under the next number; a full buffer has seen its oldest flit acknowledged first
(R464, R466; log entry 52). -/
def sendFlit (k : Fin 4) (b : List Byte) (s : State) : State :=
  let n := s.flitSent.get k
  let m := s.modules.get k
  let out := m.out ++ [(n, b)]
  { s with
    flitSent := s.flitSent.set k.val (n + 1) k.isLt
    modules := s.modules.set k.val { m with out := out.drop (out.length - replayCap) } k.isLt }
/-- The next packet of a flow of this package is sent (R468). -/
def sendNum (src dst : Nat) (s : State) : State :=
  let n := ((s.sentNums.find? fun x => x.1 == src && x.2.1 == dst).map (·.2.2)).getD 0
  { s with sentNums := (src, dst, n + 1) :: s.sentNums.filter fun x => !(x.1 == src && x.2.1 == dst) }
/-- A destination of another package, as `sentNums` names it: the package above a source number. -/
def farDst (pkg num : Nat) : Nat := pkg * 2 ^ 16 + num
/-- An answer takes the next number of its flow toward this package (R469). -/
def takeAnswer (f : Nat × Nat × Nat) (s : State) : State :=
  let n := ((s.flows.find? fun x => x.flow == f).map (·.expected)).getD 0
  { s with flows := ⟨f, n + 1⟩ :: s.flows.filter fun x => x.flow != f }
/-- A request of the agent with source number `src` of cluster `c` toward a line's home. Toward the host it is the next flit of
the die's module, and its response the next flit the module receives (R466); toward another package it is the next packet of
its flow to the home slice, and its response the next one of the flow back (R468, R469; log entry 52). -/
def sendPktOf (src c key : Nat) (s : State) : State :=
  if !leased key then s
  else if homeAgent key = agentHost then
    let k : Fin 4 := Fin.ofNat 4 (c / 8)
    let s1 := sendFlit k (toBytes 8 (BitVec.ofNat 64 (64 * key))) s
    let m := s1.modules.get k
    { s1 with modules := s1.modules.set k.val { m with expected := m.expected + 1, acked := m.acked + 1 } k.isLt }
  else
    let pkg := key / 2 ^ 50 % 2 ^ 16
    let sl := sliceSrc (homeSliceOf key)
    takeAnswer (pkg, sl, src) (sendNum src (farDst pkg sl) s)
def sendPkt (c key : Nat) (s : State) : State := sendPktOf (agentSrc s c) c key s

/-! ## Signatures (R174) -/

def sigHash (lx : BitVec 50) (i : Nat) : Nat :=
  let t := lx.rotateLeft (17 * i)
  (t.extractLsb' 0 9 ^^^ t.extractLsb' 9 9 ^^^ t.extractLsb' 18 9 ^^^ t.extractLsb' 27 9 ^^^ t.extractLsb' 36 9 ^^^
    (t.extractLsb' 45 5).setWidth 9).toNat

/-- The three bits of a line; `key` is its line key, whose low 50 bits are A[55:6]. -/
def sigLine (key : Nat) : Sig :=
  let lx := BitVec.ofNat 50 key
  (BitVec.ofNat 512 1 <<< sigHash lx 0) ||| (BitVec.ofNat 512 1 <<< sigHash lx 1) ||| (BitVec.ofNat 512 1 <<< sigHash lx 2)

/-- A line is in a signature when all its bits are set. -/
def inSig (sg : Sig) (key : Nat) : Bool := sigLine key &&& sg == sigLine key

/-! ## Lines of 64 bytes -/

def lineByte (d : BitVec 512) (i : Nat) : Byte := d.extractLsb' (8 * i) 8
/-- A byte mask widened to bits. -/
def bmask (m : BitVec 64) : BitVec 512 :=
  (List.range 64).foldr (fun i acc => (acc <<< 8) ||| (if m.getLsbD i then (0xFF : BitVec 512) else 0)) 0
def putByte (d : BitVec 512) (i : Nat) (b : Byte) : BitVec 512 :=
  (d &&& ~~~((0xFF : BitVec 512) <<< (8 * i))) ||| (b.setWidth 512 <<< (8 * i))
def bit64 (i : Nat) : BitVec 64 := BitVec.ofNat 64 1 <<< i
def ofLine (l : List Byte) : BitVec 512 := ofBytes 512 l

/-- The home's 64 bytes of a line. -/
def homeLine (s : State) (key : Nat) : BitVec 512 := ofLine (Mem.getBytes s.home (64 * key) 64)

/-- Write the masked bytes of a line at the home memory. -/
def homePut (s : State) (key : Nat) (d : BitVec 512) (m : BitVec 64) : State :=
  { s with
    home := Mem.putSome s.home (64 * key) 64 fun i => if m.getLsbD i then some (lineByte d i) else none
    poison := if m == BitVec.allOnes 64 then s.poison.filter (· != key) else s.poison }

/-! ## The directory and the L2s -/

def l2Find (s : State) (c key : Nat) : Option L2Line := s.l2.find? fun l => l.cluster == c && l.key == key
def l2Set (s : State) (l : L2Line) : State :=
  { s with l2 := l :: s.l2.filter fun x => !(x.cluster == l.cluster && x.key == l.key) }
def l2Drop (s : State) (c key : Nat) : State :=
  { s with
    l2 := s.l2.filter fun x => !(x.cluster == c && x.key == key)
    dir := s.dir.filter fun x => !(x.cluster == c && x.key == key) }
def dirSet (s : State) (c key : Nat) (st : Moesi) : State :=
  { s with dir := ⟨key, c, st⟩ :: s.dir.filter fun x => !(x.cluster == c && x.key == key) }
/-- The L2 that owns a line: M or O (R190). -/
def dirOwner (s : State) (key : Nat) : Option Nat :=
  (s.dir.find? fun x => x.key == key && (x.st == .M || x.st == .O)).map (·.cluster)

/-- The up-to-date bytes of a line outside any overlay: the owner's copy, or the home's (R190). -/
def homeRead (s : State) (key : Nat) : BitVec 512 :=
  match (dirOwner s key).bind fun c => l2Find s c key with
  | some l => blend (bmask (l.valid &&& ~~~l.marks)) l.data (homeLine s key)
  | none => homeLine s key

/-- The owner's copy goes to the home memory and the owner keeps a shared copy. -/
def flushOwner (s : State) (key : Nat) : State :=
  match dirOwner s key with
  | none => s
  | some c =>
    match l2Find s c key with
    | none => { s with dir := s.dir.filter fun x => !(x.key == key && x.cluster == c) }
    | some l => dirSet (homePut s key l.data (l.valid &&& ~~~l.marks)) c key .S

/-- Invalidate every L2 copy of a line but one, keeping marked bytes (R172, R190). Lease copies stay (R193). -/
def l2Inval (s : State) (keep : Option Nat) (key : Nat) : State :=
  if leased key then s
  else
    { s with
      l2 := s.l2.filterMap fun l =>
        if l.key == key && some l.cluster != keep then
          (if l.marks == 0 then none else some { l with valid := l.marks })
        else some l
      dir := s.dir.filter fun x => !(x.key == key && some x.cluster != keep)
      hostHeld := s.hostHeld.filter (·.1 != key) }

/-- A masked write at the home (R171, R190): it replaces exactly the bytes it carries. -/
def homeWrite (s : State) (from_ : Option Nat) (key : Nat) (d : BitVec 512) (m : BitVec 64) : State :=
  homePut (l2Inval (flushOwner s key) from_ key) key d m

/-- Drop an L2's copy of a line, keeping marked bytes (R172); an owner's copy reaches the home first. -/
def l2Forget (cl key : Nat) (s : State) : State :=
  match l2Find s cl key with
  | none => s
  | some l =>
    let s1 := if dirOwner s key == some cl then flushOwner s key else s
    if l.marks == 0 then l2Drop s1 cl key
    else { l2Set s1 { l with valid := l.marks } with dir := s1.dir.filter fun x => !(x.key == key && x.cluster == cl) }

/-! ## Tracking across dies (R191) -/

def inRegion (base lsz key : Nat) : Bool := base ≤ 64 * key && 64 * key < base + 2 ^ lsz
/-- Invalidate the lines of a region that other dies' L2s hold, their dirty bytes written back. -/
def recallOthers (die base lsz : Nat) (s : State) : State :=
  ((s.l2.filter fun l => l.cluster / 8 != die && inRegion base lsz l.key && !leased l.key).map fun l => (l.cluster, l.key)).foldl
    (fun s x => l2Forget x.1 x.2 s) s
/-- What a request does to the region that holds its line: the first access records the die; a conflict splits it. -/
def trackRegion (die key : Nat) (own : Bool) (s : State) : State :=
  let mk (base lsz : Nat) : DieRegion := ⟨base, lsz, [die], if own then [die] else [], s.tick⟩
  if leased key then s
  else match s.dieRegions.find? fun r => inRegion r.base r.lsz key with
  | none => { s with dieRegions := mk (64 * key / 65536 * 65536) 16 :: s.dieRegions }
  | some r =>
    let others := s.dieRegions.filter fun x => x.base != r.base
    let conflict := (own && r.holders.any (· != die)) || (!own && r.owners.any (· != die))
    if !conflict then
      { s with dieRegions := { r with
          holders := (die :: r.holders).eraseDups, owners := if own then [die] else r.owners } :: others }
    else if r.lsz ≤ 6 then recallOthers die r.base r.lsz { s with dieRegions := mk r.base r.lsz :: others }
    else
      let n := 2 ^ (r.lsz - 1)
      let lo := if 64 * key < r.base + n then r.base else r.base + n
      let hi := if 64 * key < r.base + n then r.base + n else r.base
      recallOthers die lo (r.lsz - 1) { s with
        dieRegions := mk lo (r.lsz - 1) :: ⟨hi, r.lsz - 1, r.holders, r.owners, s.tick⟩ :: others }

/-! ## Pushes and evictions (R171, R306) -/

/-- A push may be granted M in place of writing the home: it marks every byte (R190); a free choice. -/
def pushGrants (s : State) (l : L2Line) : Bool :=
  l.marks == BitVec.allOnes 64 && !leased l.key && Config.freeBits 1 s.fresh == 1
/-- Push a line's marks to its home as one masked write (R171). -/
def l2Push (s0 : State) (c key : Nat) : State :=
  match l2Find s0 c key with
  | none => s0
  | some l =>
    if l.marks == 0 then s0
    else
      let s := sendPkt c key s0
      let clean : L2Line := { l with marks := 0, amarks := false, writers := [] }
      if pushGrants s l then
        let s1 := l2Inval (trackRegion (c / 8) key true s) (some c) key
        let s2 := { s1 with dir := s1.dir.filter (fun x => x.key != key), fresh := s.fresh + 1,
                            poison := s1.poison.filter (· != key) }
        dirSet (l2Set s2 clean) c key .M
      else
        let s1 := homeWrite (trackRegion (c / 8) key false s) (some c) key l.data l.marks
        let s2 := l2Set { s1 with fresh := s.fresh + 1 } clean
        -- the copy that stays is now the only one, and clean (R190)
        if leased key then s2 else dirSet s2 c key .E
/-- A line of a cluster is pinned while a core of it buffers an element drawn from it at level 10 (R306); an element of
128 bytes is drawn from two lines. -/
def pinnedLine (s : State) (cl key : Nat) : Bool :=
  !reach s (cl / 8) key ||
  (s.core :: s.others).any fun c => clusterOf c.id == cl && (List.finRange 8).any fun k =>
    let q := c.a.streams.get k
    (q.desc.ctl.extractLsb' 3 2 == 2) && q.inq.any fun e => e.flt.isNone
      && (e.line == key || (q.desc.ctl.extractLsb' 0 2 == 2 && e.line + 1 == key))
/-- A full L2 gives up its oldest line that is not pinned, its marks pushed first: the manual names no victim, log entry 44. -/
def l2Evict (c : Nat) (s : State) : State :=
  let mine := s.l2.filter fun l => l.cluster == c
  if mine.length ≤ l2Lines then s
  else match (mine.reverse.filter fun l => !pinnedLine s c l.key).head? with
    | some l => l2Forget c l.key (l2Push s c l.key)
    | none => s

/-- The duration of a lease class: `some none` is until acquire (R192). -/
def leaseDur (lct : Word) (c : Fin 8) : Option Nat :=
  let n := (lct.extractLsb' (8 * c.val) 8).toNat
  if n = 0 then some 0 else if n = 63 then none else some (2 ^ n)

/-- Whether a copy filled at `f` under `c0` serves an access of class `c` at tick `t` (R193). Both durations are those of the
%lct of the core that accesses the copy, or that a command belongs to: the manual does not say whose %lct gives the duration of a
class under which another core filled an L2's copy (DESIGN CHOICE, log entry 54). -/
def leaseServes (lct : Word) (f t : Nat) (c0 c : Option (Fin 8)) : Bool :=
  let one (x : Option (Fin 8)) : Bool := match x with
    | none => true
    | some k =>
      match leaseDur lct k with
      | none => true
      | some d => t < f + d
  one c0 && one c

/-- A class that keeps no copy (R192). -/
def uncached (lct : Word) (c : Option (Fin 8)) : Bool :=
  match c with
  | none => false
  | some k => leaseDur lct k == some 0

/-- Bring a whole line into an L2 when it lacks it, or its lease has ended (R160, R190, R193). Marked bytes stay. A
poisoned line (R430) is never copied, so that every load of it meets the error. -/
def l2FillOf (src : Nat) (s0 : State) (lct : Word) (c key : Nat) (cls : Option (Fin 8)) : State :=
  let old0 := l2Find s0 c key
  let hit := match old0 with
    | some l => l.valid == BitVec.allOnes 64 && leaseServes lct l.tick s0.tick l.cls cls
    | none => false
  if hit then s0
  else
    let s := sendPktOf src c key (trackRegion (c / 8) key false s0)
    let old := l2Find s c key
    let marks := match old with
      | some l => l.marks
      | none => 0
    let od := match old with
      | some l => l.data
      | none => 0
    let am := match old with
      | some l => l.amarks
      | none => false
    let wr := match old with
      | some l => l.writers
      | none => []
    let d := blend (bmask marks) od (homeRead s key)
    if (leased key && uncached lct cls) || s.poison.contains key then s
    else
      let st : Moesi := if s.dir.any fun x => x.key == key && x.cluster != c then .S else .E
      -- the owner of an M line goes to O, another holder in E to S (R190)
      let s1 := { s with dir := s.dir.map fun x =>
        if x.key == key && x.cluster != c then
          { x with st := match x.st with
            | .M => .O
            | .E => .S
            | y => y }
        else x }
      let s2 := l2Set s1 ⟨c, key, d, BitVec.allOnes 64, marks, am, wr, s.tick, cls⟩
      let s3 := if leased key then s2 else
        match (s.dir.find? fun x => x.key == key && x.cluster == c) with
        | some _ => s2
        | none => dirSet s2 c key st
      l2Evict c s3

/-- A fill for the core in focus, or for what a cluster does of itself. -/
def l2Fill (s : State) (lct : Word) (c key : Nat) (cls : Option (Fin 8)) : State := l2FillOf (agentSrc s c) s lct c key cls

/-- What a read in a cluster returns: overlay bytes, then the L2 copy, then below (R170). -/
def l2Read (s : State) (lct : Word) (c key : Nat) (cls : Option (Fin 8)) : BitVec 512 :=
  match l2Find s c key with
  | none => homeRead s key
  | some l =>
    if leaseServes lct l.tick s.tick l.cls cls then
      (if l.valid == BitVec.allOnes 64 then l.data else blend (bmask l.valid) l.data (homeRead s key))
    else blend (bmask l.marks) l.data (homeRead s key)

/-- A write from below lands in the overlay (R170). A line the L2 owns goes to its home first, so that the home's value
stays what it was until a push (R173): log entry 9. `atom` says that a cluster-scope atomic writes, else the core in
focus does. -/
def l2Mark (s : State) (c key : Nat) (d : BitVec 512) (m : BitVec 64) (atom : Bool) : State :=
  if m == 0 then s
  else
    let s0 := if dirOwner s key == some c then flushOwner s key else s
    let wr (l : List Nat) : List Nat := if atom then l else (s.core.id :: l).eraseDups
    l2Evict c (match l2Find s0 c key with
      | some l => l2Set s0 { l with
          data := blend (bmask m) d l.data, valid := l.valid ||| m, marks := l.marks ||| m, amarks := l.amarks || atom
          writers := wr l.writers }
      | none => l2Set s0 ⟨c, key, blend (bmask m) d 0, m, m, atom, wr [], s.tick, none⟩)

/-! ## A core's lines (L1D and stash) -/

def lineFind (c : Core) (key : Nat) : Option Line := c.lines.find? fun l => l.key == key
def lineSet (c : Core) (l : Line) : Core := { c with lines := l :: c.lines.filter fun x => x.key != l.key }
def lineDrop (c : Core) (key : Nat) : Core := { c with lines := c.lines.filter fun x => x.key != key }

/-- The stash mapping that holds a global line, and the one that holds a scratchpad offset (R161). -/
def mapOfKey (maps : List SMapping) (key : Nat) : Option SMapping :=
  maps.find? fun m => m.key ≤ 64 * key && 64 * key < m.key + 2 ^ m.lsz
def mapOfOff (maps : List SMapping) (off : Nat) : Option SMapping :=
  maps.find? fun m => m.off ≤ off && off < m.off + 2 ^ m.lsz

/-- Where a scratchpad offset lives: in the scratchpad, or in global memory when it is mapped (R290). -/
def locOfOff (c : Core) (off : Nat) : Loc :=
  match mapOfOff c.maps off with
  | some m => .glob (m.key + (off - m.off))
  | none => .spad (spadAddr c.id off)

/-- The line of an atomic or CWADD not yet performed. -/
def atomKey (p : PendOp) : Option Nat := match p.kind with
  | .atomic _ _ _ _ _ _ a none | .ordAtomic _ _ _ _ _ _ a none | .cwadd _ _ _ a none => some (lineKey a)
  | _ => none
def isOrd (p : PendOp) : Bool := match p.kind with
  | .ordAtomic .. => true
  | _ => false
/-- An ordered atomic not yet performed. -/
def ordOpen (p : PendOp) : Bool := isOrd p && (atomKey p).isSome
/-- A line of the core with an atomic or CWADD of it still to be performed. -/
def unperformed (c : Core) (key : Nat) : Bool := c.pend.any fun p => atomKey p == some key
/-- A line of the core with an ordered atomic of it still to be performed. -/
def ordLine (c : Core) (key : Nat) : Bool := c.pend.any fun p => ordOpen p && atomKey p == some key

/-- The core's own copy of a global byte, when it may serve the access (R160, R193): its latest store first (R297). -/
def ownByte (c : Core) (tick : Nat) (cls : Option (Fin 8)) (a : Nat) : Option Byte :=
  match (c.young.filter fun y => y.2.1 == a).getLast? with
  | some y => some y.2.2
  | none =>
  match lineFind c (lineKey a) with
  | none => none
  | some l =>
    if l.dirty.getLsbD (a % 64) then some (lineByte l.data (a % 64))
    else if l.valid.getLsbD (a % 64) && leaseServes c.lct l.tick tick l.cls cls then some (lineByte l.data (a % 64))
    else none

/-- A store of one byte into L1D or stash: it allocates without filling, and marks the byte dirty (R160). -/
def dirtyByte (c : Core) (a : Nat) (b : Byte) : Core :=
  match lineFind c (lineKey a) with
  | some l => lineSet c { l with
      data := putByte l.data (a % 64) b, valid := l.valid ||| bit64 (a % 64), dirty := l.dirty ||| bit64 (a % 64) }
  | none => lineSet c ⟨lineKey a, putByte 0 (a % 64) b, bit64 (a % 64), bit64 (a % 64), 0, none⟩

/-- A store of the core; behind an atomic of its line that is still to be performed it waits until that one is (R297). -/
def storeByte (c : Core) (a : Nat) (b : Byte) : Core :=
  if unperformed c (lineKey a) then { c with young := c.young ++ [(c.seq, a, b)] } else dirtyByte c a b

/-- Write a line's dirty bytes back to the L2 overlay (R163); the line stays, clean. -/
def writeBack (s : State) (key : Nat) : State :=
  match lineFind s.core key with
  | none => s
  | some l =>
    let s1 := l2Mark s (clusterOf s.core.id) key l.data l.dirty false
    { s1 with core := lineSet s1.core { l with dirty := 0 } }

/-- Every dirty byte of L1D and stash (R180, R187). -/
def writeBackAll (s : State) : State := (s.core.lines.map (·.key)).foldl writeBack s

/-- A full L1D gives up its oldest line, its dirty bytes written back first (log entry 44); the stash holds its mapped lines
apart. -/
def l1dGive (s : State) : State :=
  let l1 := s.core.lines.filter fun l => (mapOfKey s.core.maps l.key).isNone
  if l1.length ≤ l1dLines then s
  else match (l1.reverse.filter fun l => !(s.core.pend.any fun p => atomKey p == some l.key)).head? with
    | some l =>
      let s1 := writeBack s l.key
      { s1 with core := lineDrop s1.core l.key }
    | none => s

/-- One operation of a core allocates four lines at most. -/
def l1dEvict (s : State) : State := l1dGive (l1dGive (l1dGive (l1dGive s)))

/-- The fill tick of a copy that the core takes from its L2: a lease runs from the fill from the home (R193). -/
def copyTick (s : State) (c key : Nat) : Nat :=
  if leased key then ((l2Find s c key).map (·.tick)).getD s.tick else s.tick
/-- Fill a line into the core from below (R160): dirty bytes stay. A class that keeps no copy leaves none. -/
def fillLine (s : State) (key : Nat) (cls : Option (Fin 8)) : State :=
  let cl := clusterOf s.core.id
  let s1 := l2Fill s s.core.lct cl key cls
  let d := l2Read s1 s1.core.lct cl key cls
  if (leased key && uncached s.core.lct cls) || s.poison.contains key then s1
  else
    let (od, dirty) := match lineFind s1.core key with
      | some l => (l.data, l.dirty)
      | none => (0, 0)
    l1dEvict { s1 with core := lineSet s1.core ⟨key, blend (bmask dirty) od d, BitVec.allOnes 64, dirty, copyTick s1 cl key,
        if leased key then cls else none⟩ }

/-- Invalidate a core's clean lines that `p` names; a dirty line is written back first when `wb`, else its clean
bytes alone go (R182). -/
def invalLines (s : State) (p : Nat → Bool) (wb : Bool) : State :=
  let s1 := if wb then ((s.core.lines.filter fun l => p l.key && l.dirty != 0).map (·.key)).foldl writeBack s else s
  { s1 with core := { s1.core with
      lines := s1.core.lines.filterMap fun l =>
        if p l.key then (if l.dirty == 0 then none else some { l with valid := l.dirty }) else some l
      fills := s1.core.fills.map fun f => if p f.key then { f with dropped := true } else f } }

/-- Drop whole lines, dirty bytes included (R163). -/
def dropLines (c : Core) (p : Nat → Bool) : Core := { c with lines := c.lines.filter fun l => !p l.key }

/-! ## Translation (R422 to R425) -/

/-- The entry that covers all of [a, a + n). -/
def kttFind (k : List KEntry) (a n : Nat) : Option KEntry :=
  k.find? fun e => e.vbase ≤ a && a + n ≤ e.vbase + 2 ^ e.lsz
def kttKey (e : KEntry) (a : Nat) : Nat := globKey e.hkind e.home (e.pbase + (a - e.vbase))

/-- The access a check is for (R283 check 4). -/
inductive Acc where
  | rd | wr | rw
deriving DecidableEq, Repr

def accOk (e : KEntry) : Acc → Bool
  | .rd => e.rd
  | .wr => e.w
  | .rw => e.rd && e.w

/-- R283 for the global window: the entry, or the cause of the first failing check. -/
def checkGlob (k : List KEntry) (ea : Int) (sz align : Nat) (acc : Acc) : Except Byte KEntry :=
  if ea < 0 || (2 : Int) ^ 56 < ea + sz then .error 0x09
  else if ea.toNat % align != 0 then .error 0x08
  else
    match kttFind k ea.toNat sz with
    | none => .error 0x05
    | some e =>
      if !accOk e acc then .error 0x07
      else if e.absent then .error 0x06
      else .ok e

/-- R283 for the scratchpad window (checks 1 to 3). -/
def checkSpad (ea : Int) (sz align : Nat) : Except Byte Nat :=
  if ea < 0 || (2 : Int) ^ 64 < ea + sz then .error 0x09
  else if ea.toNat % align != 0 then .error 0x08
  else if spadBytes < ea.toNat + sz then .error 0x05
  else .ok ea.toNat

/-- The lease class of an access: the one it names, or the entry's default; none for a line of this package. -/
def classOf (e : KEntry) (l : Option (Fin 8)) : Option (Fin 8) :=
  if e.hkind = 0 then none else some (l.getD e.dlc)

end Sys2Proof.Machine
end

