-- ==== Sys2Proof/Machine/Float.lean ====
section
/-! DEFINITION. Floating point (R129 to R138, R152 to R156, R269 to R273): exact values, one rounding, flags. -/

namespace Sys2Proof.Machine

/-! ## Flags of %fflags (R134) -/
def fNX : BitVec 6 := 1
def fUF : BitVec 6 := 2
def fOF : BitVec 6 := 4
def fDZ : BitVec 6 := 8
def fNV : BitVec 6 := 16
def fSAT : BitVec 6 := 32

/-- A format of R129: exponent bits, fraction bits, bias, and whether the all-ones exponent is special. -/
structure Fmt where
  eb : Nat
  mb : Nat
  bias : Nat
  ieee : Bool
deriving DecidableEq, Repr

def f32F : Fmt := ⟨8, 23, 127, true⟩
def f16F : Fmt := ⟨5, 10, 15, true⟩
def bf16F : Fmt := ⟨8, 7, 127, true⟩
def e5m2F : Fmt := ⟨5, 2, 15, true⟩
def e4m3F : Fmt := ⟨4, 3, 7, false⟩

def Fmt.width (F : Fmt) : Nat := 1 + F.eb + F.mb

/-- The value a bit pattern has: NaN (signalling or not), infinity, or ± m × 2^e exactly. -/
inductive FVal where
  | nan (sig : Bool)
  | inf (neg : Bool)
  | fin (neg : Bool) (m : Nat) (e : Int)
deriving DecidableEq, Repr

def FVal.isNan : FVal → Bool
  | .nan _ => true
  | _ => false
def FVal.isSNan : FVal → Bool
  | .nan s => s
  | _ => false
/-- Sign of R128; a NaN's sign is not kept here. -/
def FVal.neg : FVal → Bool
  | .nan _ => false
  | .inf n => n
  | .fin n _ _ => n
def FVal.isZero : FVal → Bool
  | .fin _ 0 _ => true
  | _ => false
def FVal.negate : FVal → FVal
  | .nan s => .nan s
  | .inf n => .inf (!n)
  | .fin n m e => .fin (!n) m e

/-- R129: the value of a bit pattern. -/
def decodeF (F : Fmt) (x : Nat) : FVal :=
  let f := x % 2 ^ F.mb
  let e := x / 2 ^ F.mb % 2 ^ F.eb
  let s := x / 2 ^ (F.mb + F.eb) % 2 == 1
  let allOnes := e == 2 ^ F.eb - 1
  if F.ieee && allOnes then
    if f = 0 then .inf s else .nan (f / 2 ^ (F.mb - 1) % 2 == 0)
  else if !F.ieee && allOnes && f == 2 ^ F.mb - 1 then .nan false
  else if e = 0 then .fin s f (1 - (F.bias : Int) - F.mb)
  else .fin s (2 ^ F.mb + f) ((e : Int) - F.bias - F.mb)

/-- The canonical quiet NaN (R130). -/
def nanBits (F : Fmt) : Nat :=
  if F.ieee then (2 ^ F.eb - 1) * 2 ^ F.mb + 2 ^ (F.mb - 1) else 2 ^ (F.eb + F.mb) - 1
def infBits (F : Fmt) (neg : Bool) : Nat :=
  (if neg then 2 ^ (F.eb + F.mb) else 0) + (2 ^ F.eb - 1) * 2 ^ F.mb
def zeroBits (F : Fmt) (neg : Bool) : Nat := if neg then 2 ^ (F.eb + F.mb) else 0
/-- The largest finite magnitude, as integer and exponent. -/
def maxM (F : Fmt) : Nat := if F.ieee then 2 ^ (F.mb + 1) - 1 else 2 ^ (F.mb + 1) - 2
def maxE (F : Fmt) : Int := (if F.ieee then (2 ^ F.eb - 2 : Int) else (2 ^ F.eb - 1 : Int)) - F.bias - F.mb
def maxBits (F : Fmt) (neg : Bool) : Nat :=
  zeroBits F neg + (if F.ieee then (2 ^ F.eb - 2) * 2 ^ F.mb + (2 ^ F.mb - 1) else 2 ^ (F.eb + F.mb) - 2)

/-- Round m × 2^e (plus less than one unit of it, when `sticky`) to a multiple of 2^q in a mode: the multiple, and
whether it is inexact (R132). -/
def roundAt (mode : Rnd) (neg : Bool) (m : Nat) (e : Int) (sticky : Bool) (q : Int) : Nat × Bool :=
  let n := if q ≤ e then m * 2 ^ (e - q).toNat else m / 2 ^ (q - e).toNat
  let r := if q ≤ e then 0 else m % 2 ^ (q - e).toNat
  let d := if q ≤ e then 1 else 2 ^ (q - e).toNat
  let inexact := r != 0 || sticky
  let above := 2 * r > d || (2 * r == d && sticky)
  let tie := 2 * r == d && !sticky
  let up : Bool := match mode with
    | .rne => above || (tie && n % 2 == 1)
    | .rna => above || tie
    | .rtz => false
    | .rdn => inexact && neg
    | .rup => inexact && !neg
  (if up then n + 1 else n, inexact)

/-- Whether n × 2^q exceeds the largest finite magnitude. -/
def exceeds (F : Fmt) (n : Nat) (q : Int) : Bool :=
  if n = 0 then false
  else
    let E := (n.log2 : Int) + q
    let Em := ((maxM F).log2 : Int) + maxE F
    if Em < E then true
    else if E < Em then false
    else if maxE F ≤ q then decide (maxM F < n * 2 ^ (q - maxE F).toNat)
    else decide (maxM F * 2 ^ (maxE F - q).toNat < n)

/-- Round_F of a non-zero magnitude (R133), with its flags. -/
def roundMag (F : Fmt) (mode : Rnd) (neg : Bool) (m : Nat) (e : Int) (sticky : Bool) : Nat × BitVec 6 :=
  let E := (m.log2 : Int) + e
  let emin : Int := 1 - (F.bias : Int)
  let qu := E - F.mb
  let q := max qu (emin - F.mb)
  let (n, inexact) := roundAt mode neg m e sticky q
  let (nu, _) := roundAt mode neg m e sticky qu
  let tiny := nu = 0 || decide ((nu.log2 : Int) + qu < emin)
  if exceeds F n q then
    let big : Bool := match mode with
      | .rne | .rna => true
      | .rtz => false
      | .rdn => neg
      | .rup => !neg
    (if big && F.ieee then infBits F neg else maxBits F neg, fOF ||| fNX)
  else
    let fl := (if inexact then fNX else 0) ||| (if inexact && tiny then fUF else 0)
    let (n', q') := if n = 2 ^ (F.mb + 1) then (2 ^ F.mb, q + 1) else (n, q)
    let bits := if n' < 2 ^ F.mb then n' else ((q' + F.mb + F.bias).toNat) * 2 ^ F.mb + (n' - 2 ^ F.mb)
    (zeroBits F neg + bits, fl)

/-- Round_F of an exact value (R133); a NaN is canonical (R130). -/
def roundF (F : Fmt) (mode : Rnd) : FVal → Nat × BitVec 6
  | .nan s => (nanBits F, if s then fNV else 0)
  | .inf n => (infBits F n, 0)
  | .fin n 0 _ => (zeroBits F n, 0)
  | .fin n m e => roundMag F mode n m e false

/-- m × 2^e as an integer multiple of 2^q, for q ≤ e. -/
def scaled (neg : Bool) (m : Nat) (e q : Int) : Int :=
  let v : Int := (m * 2 ^ (e - q).toNat : Nat)
  if neg then -v else v

/-- The exact product. -/
def mulX : FVal → FVal → FVal
  | .nan s, .nan t => .nan (s || t)
  | .nan s, _ => .nan s
  | _, .nan s => .nan s
  | .inf a, .inf b => .inf (a != b)
  | .inf a, .fin b m _ => if m = 0 then .nan true else .inf (a != b)
  | .fin a m _, .inf b => if m = 0 then .nan true else .inf (a != b)
  | .fin a m e, .fin b n f => .fin (a != b) (m * n) (e + f)

/-- The exact sum; an exact zero takes the sign of R133. A NaN made here is marked invalid. -/
def addX (mode : Rnd) : FVal → FVal → FVal
  | .nan s, .nan t => .nan (s || t)
  | .nan s, _ => .nan s
  | _, .nan s => .nan s
  | .inf a, .inf b => if a = b then .inf a else .nan true
  | .inf a, .fin .. => .inf a
  | .fin .., .inf b => .inf b
  | .fin a m e, .fin b n f =>
    let q := min e f
    let v := scaled a m e q + scaled b n f q
    if v = 0 then .fin (if a = b then a else mode == .rdn) 0 0
    else .fin (decide (v < 0)) v.natAbs q

/-- Round_F(a × b + c) (R269). -/
def fmaF (F : Fmt) (mode : Rnd) (a b c : FVal) : Nat × BitVec 6 :=
  let p := mulX a b
  let nv := a.isSNan || b.isSNan || c.isSNan
  match p with
  | .nan s => (nanBits F, if nv || s then fNV else 0)
  | _ => roundF F mode (addX mode p c)
def addF (F : Fmt) (mode : Rnd) (a b : FVal) : Nat × BitVec 6 := roundF F mode (addX mode a b)
def mulF (F : Fmt) (mode : Rnd) (a b : FVal) : Nat × BitVec 6 := roundF F mode (mulX a b)

/-- Order of two numbers; −0 equals +0. -/
def cmpX : FVal → FVal → Ordering
  | .inf a, .inf b => if a = b then .eq else if a then .lt else .gt
  | .inf a, _ => if a then .lt else .gt
  | _, .inf b => if b then .gt else .lt
  | .fin a m e, .fin b n f =>
    let q := min e f
    compare (scaled a m e q) (scaled b n f q)
  | _, _ => .eq

/-- The lesser or greater, −0 ordered below +0, a lone NaN passed over (R270). `x` and `y` are the bit patterns. -/
def minmaxF (F : Fmt) (isMin : Bool) (x y : Nat) : Nat × BitVec 6 :=
  let a := decodeF F x
  let b := decodeF F y
  let fl := if a.isSNan || b.isSNan then fNV else 0
  if a.isNan && b.isNan then (nanBits F, fl)
  else if a.isNan then (y, fl)
  else if b.isNan then (x, fl)
  else
    let aLess := match cmpX a b with
      | .lt => true
      | .gt => false
      | .eq => a.neg && !b.neg
    (if aLess == isMin then x else if !aLess && cmpX a b == .eq && a.neg == b.neg then x else y, fl)

/-! ## Square root, reciprocal (R273) -/

def isqrtGo (n : Nat) : Nat → Nat → Nat
  | 0, r => r
  | k + 1, r => isqrtGo n k (if (r + 2 ^ k) * (r + 2 ^ k) ≤ n then r + 2 ^ k else r)
/-- The integer square root, bit by bit. -/
def isqrt (n : Nat) : Nat := isqrtGo n (n.log2 / 2 + 1) 0

def rcpF (F : Fmt) (mode : Rnd) : FVal → Nat × BitVec 6
  | .nan s => (nanBits F, if s then fNV else 0)
  | .inf n => (zeroBits F n, 0)
  | .fin n 0 _ => (infBits F n, fDZ)
  | .fin n m e =>
    let k := m.log2 + 40
    roundMag F mode n (2 ^ k / m) (-(k : Int) - e) (2 ^ k % m != 0)

/-- m × 2^e with an even exponent. -/
def evenExp (m : Nat) (e : Int) : Nat × Int := if e % 2 = 0 then (m, e) else (2 * m, e - 1)

def sqrtF (F : Fmt) (mode : Rnd) : FVal → Nat × BitVec 6
  | .nan s => (nanBits F, if s then fNV else 0)
  | .inf n => if n then (nanBits F, fNV) else (infBits F false, 0)
  | .fin n 0 _ => (zeroBits F n, 0)
  | .fin true _ _ => (nanBits F, fNV)
  | .fin false m e =>
    let (m', e') := evenExp m e
    let x := m' * 2 ^ 64
    let r := isqrt x
    roundMag F mode false r (e' / 2 - 32) (r * r != x)

def rsqF (F : Fmt) (mode : Rnd) : FVal → Nat × BitVec 6
  | .nan s => (nanBits F, if s then fNV else 0)
  | .inf n => if n then (nanBits F, fNV) else (zeroBits F false, 0)
  | .fin n 0 _ => (infBits F n, fDZ)
  | .fin true _ _ => (nanBits F, fNV)
  | .fin false m e =>
    let (m', e') := evenExp m e
    let k := m'.log2 / 2 + 40
    let r := isqrt (2 ^ (2 * k) / m')
    roundMag F mode false r (-(k : Int) - e' / 2) (r * r * m' != 2 ^ (2 * k))

/-! ## Integers (R138) -/

/-- Round a value to an integer in a mode. -/
def roundInt (mode : Rnd) : FVal → Option (Int × Bool)
  | .fin n m e =>
    let (k, inexact) := roundAt mode n m e false 0
    some (if n then -(k : Int) else k, inexact)
  | _ => none

/-- The exact value of an integer. -/
def ofInt (v : Int) : FVal := .fin (decide (v < 0)) v.natAbs 0

/-! ## Base-2 exponential and logarithm (R152 to R156) -/

def expT : List Nat :=
  [0x3F800000, 0x3F8B95C2, 0x3F9837F0, 0x3FA5FED7, 0x3FB504F3, 0x3FC5672A, 0x3FD744FD, 0x3FEAC0C7]
/-- C4 to C1, then 1.0. -/
def expC : List Nat := [0x3C1D955B, 0x3D635847, 0x3E75FDF0, 0x3F317218, 0x3F800000]
def expC5 : Nat := 0x3AAEC3FF
/-- L[j] = RNE_f32(log2(1 + j/16)) (R154). -/
def logL : List Nat :=
  [0x00000000, 0x3DB31FB8, 0x3E2E00D2, 0x3E7DE0B6, 0x3EA4D3C2, 0x3EC8DDD4, 0x3EEB3A9F, 0x3F060828,
   0x3F15C01A, 0x3F24D3C2, 0x3F335004, 0x3F41404F, 0x3F4EAED0, 0x3F5BA4A4, 0x3F6829FB, 0x3F744636]
/-- K5 to K1. -/
def logK : List Nat := [0x3E93BB63, 0xBEB8AA3B, 0x3EF6384F, 0xBF38AA3B, 0x3FB8AA3B]
def logK6 : Nat := 0xBE76384F

/-- Horner steps: t ← RNE_f32(t × g + C). -/
def horner (g : FVal) (t : Nat × BitVec 6) (cs : List Nat) : Nat × BitVec 6 :=
  cs.foldl (fun t c =>
    let r := fmaF f32F .rne (decodeF f32F t.1) g (decodeF f32F c)
    (r.1, t.2 ||| (r.2 &&& fNX))) t

def floorX (neg : Bool) (m : Nat) (e : Int) : Int :=
  (if neg then -(((roundAt .rup false m e false 0).1 : Nat) : Int) else (((roundAt .rtz false m e false 0).1 : Nat) : Int))

/-- Exp2_f32 (R153). The exponent is limited to ±1000, beyond which the result is the same. -/
def exp2F (x : FVal) : Nat × BitVec 6 :=
  match x with
  | .nan s => (nanBits f32F, if s then fNV else 0)
  | .inf false => (infBits f32F false, 0)
  | .inf true => (0, 0)
  | .fin neg m e =>
    let n := floorX neg m e
    let q := min e (-3)
    -- f = x - n, as a multiple of 2^q
    let fq := (scaled neg m e q - n * (2 : Int) ^ (-q).toNat).toNat
    let j := fq * 8 / 2 ^ (-q).toNat
    let g := FVal.fin false (fq - j * 2 ^ ((-q).toNat - 3)) q
    let t := horner g (expC5, 0) expC
    let p := mulF f32F .rne (decodeF f32F (expT.getD j 0)) (decodeF f32F t.1)
    let n' : Int := max (-1000) (min 1000 n)
    let r := match decodeF f32F p.1 with
      | .fin s m' e' => roundF f32F .rne (.fin s m' (e' + n'))
      | v => roundF f32F .rne v
    (r.1, t.2 ||| (p.2 &&& fNX) ||| r.2)

def polyL (g : FVal) : Nat × BitVec 6 :=
  let t := horner g (logK6, 0) logK
  let r := mulF f32F .rne (decodeF f32F t.1) g
  (r.1, t.2 ||| (r.2 &&& fNX))

/-- Log2_f32 (R155). -/
def log2F (x : FVal) : Nat × BitVec 6 :=
  match x with
  | .nan s => (nanBits f32F, if s then fNV else 0)
  | .inf n => if n then (nanBits f32F, fNV) else (infBits f32F false, 0)
  | .fin _ 0 _ => (infBits f32F true, fDZ)
  | .fin true _ _ => (nanBits f32F, fNV)
  | .fin false m e =>
    let L := m.log2
    -- x = (m / 2^L) × 2^(e + L)
    if (e + L = -1) && decide (15 * 2 ^ L ≤ 8 * m) then
      polyL (addX .rne (.fin false m e) (.fin true 1 0))
    else
      let j := 16 * m / 2 ^ L - 16
      -- (m/2^L − c)/c with c = (16 + j)/16
      let num := 16 * m - (16 + j) * 2 ^ L
      let den := (16 + j) * 2 ^ L
      let g : Nat × BitVec 6 :=
        if num = 0 then (0, 0) else roundMag f32F .rne false (num * 2 ^ 200 / den) (-200) (num * 2 ^ 200 % den != 0)
      let p := polyL (decodeF f32F g.1)
      let s := addF f32F .rne (decodeF f32F (logL.getD j 0)) (decodeF f32F p.1)
      let r := addF f32F .rne (ofInt (e + L)) (decodeF f32F s.1)
      (r.1, (g.2 ||| p.2 ||| s.2 ||| r.2) &&& fNX)

end Sys2Proof.Machine
end

