-- ==== Sys2Proof/Machine/Mx.lean ====
section
/-! DEFINITION. Conversions (R136 to R138), microscaled formats and quantisation (R139 to R145), %fmtt entries
(R146, R147) and the block close (R149). -/

namespace Sys2Proof.Machine

/-! ## Types -/

def FTy.fmt : FTy → Fmt
  | .f32 => f32F
  | .f16 => f16F
  | .bf16 => bf16F

/-- The floating format of a conversion type; integers have none. -/
def xFmt : XTy → Option Fmt
  | .f32 => some f32F
  | .f16 => some f16F
  | .bf16 => some bf16F
  | .e4m3 => some e4m3F
  | .e5m2 => some e5m2F
  | _ => none

def xSigned : XTy → Bool
  | .i8 | .i16 | .i32 => true
  | _ => false

/-- Round_F with the saturation of R137 where the target is an 8-bit format. -/
def convFloat (F : Fmt) (sat : Bool) (mode : Rnd) (v : FVal) : Nat × BitVec 6 :=
  match v with
  | .inf n => if sat then (maxBits F n, fOF ||| fNX) else (infBits F n, 0)
  | _ =>
    let r := roundF F mode v
    if sat && r.2 &&& fOF != 0 then (maxBits F v.neg, fOF ||| fNX) else r

/-- The conversion of an exact value to an integer of `w` bits (R138). -/
def convInt (w : Nat) (signed wrp : Bool) (mode : Rnd) (v : FVal) : Nat × BitVec 6 :=
  match v with
  | .nan _ => (0, fNV)
  | .inf n => if wrp then (0, fNV) else ((satI w signed (if n then -(2 : Int) ^ 64 else 2 ^ 64)).1.toNat, fNV)
  | _ =>
    match roundInt mode v with
    | none => (0, fNV)
    | some (k, inexact) =>
      let r := satI w signed k
      if r.2 then (if wrp then (wrapI w k).toNat else r.1.toNat, fNV)
      else (r.1.toNat, if inexact then fNX else 0)

/-- Conv of R277: a source pattern of type `sty` to a pattern of type `tt`. -/
def convX (sty tt : XTy) (mode : Rnd) (wrp iee : Bool) (x : Nat) : Nat × BitVec 6 :=
  let v : FVal := match xFmt sty with
    | some F => decodeF F x
    | none => ofInt (signedOf' (xSigned sty) sty.width x)
  match xFmt tt with
  | some F =>
    let sat := tt == .e4m3 || (tt == .e5m2 && !iee)
    convFloat F sat mode v
  | none => convInt tt.width (xSigned tt) wrp mode v
where
  signedOf' (s : Bool) (w x : Nat) : Int := if s then signedOf w (x % 2 ^ w) else (x % 2 ^ w : Nat)

/-! ## MX formats (R140, R141) -/

def MXF.b : MXF → Nat
  | .mx8 => 8
  | .mx6 => 6
  | .mx4 => 4
def MXF.f : MXF → Nat
  | .mx8 => 6
  | .mx6 => 4
  | .mx4 => 2
/-- Bytes of a block's codes (R140). -/
def MXF.bytes (F : MXF) : Nat := 4 * MXF.b F
/-- Fmax × 2^f (R140). -/
def MXF.maxCode (F : MXF) : Nat := 2 ^ (MXF.b F - 1) - 1

/-- A code read as R140 gives: −2^(b−1) reads as −(2^(b−1) − 1). -/
def codeVal (F : MXF) (c : Nat) : Int :=
  let v := signedOf (MXF.b F) (c % 2 ^ MXF.b F)
  if v = -(2 : Int) ^ (MXF.b F - 1) then v + 1 else v

/-- Element `i` of an R141 packing held in `w` bits: each format packs little-endian by bit. -/
def mxElem {w : Nat} (F : MXF) (x : BitVec w) (i : Nat) : Int := codeVal F (x.extractLsb' (MXF.b F * i) (MXF.b F)).toNat

/-- Pack codes as R141 gives. -/
def mxPack (F : MXF) (codes : List (BitVec 8)) : Vec :=
  codes.foldr (fun c acc => (acc <<< MXF.b F) ||| (c.setWidth 1024 &&& BitVec.ofNat 1024 (2 ^ MXF.b F - 1))) 0

/-- floor(log2 (m × 2^e)) for m > 0. -/
def flog2 (m : Nat) (e : Int) : Int := (m.log2 : Int) + e

/-- The largest magnitude among a ring's filled, non-NaN entries, as m × 2^e; none when it counts as empty; an
infinity is `some none` (R142). -/
def ringMax (r : Ring) : Option (Option (Nat × Int)) :=
  let vals := ((List.range 16).filter fun i => i < r.fill).filterMap fun i =>
    match decodeF f32F (r.entries.toList.getD i 0).toNat with
    | .nan _ => none
    | .inf _ => some (none : Option (Nat × Int))
    | .fin _ m e => some (some (m, e))
  vals.foldl (fun acc x =>
    match acc, x with
    | none, x => some x
    | some none, _ => some none
    | _, none => some none
    | some (some (m, e)), some (n, f) =>
      let q := min e f
      if scaled false m e q < scaled false n f q then some (some (n, f)) else some (some (m, e))) none

/-- The prescale exponent k (R144). -/
def prescale (F : MXF) (r : Ring) : Int :=
  match ringMax r with
  | none => 0
  | some none => -127
  | some (some (0, _)) => 0
  | some (some (m, e)) =>
    -- floor(log2 (maxCode × 2^(−f) / (m × 2^e)))
    let a := MXF.maxCode F
    let q : Int := (a.log2 : Int) - m.log2
    -- a / m is in (2^(q−1), 2^(q+1)); the floor of its logarithm is q when a ≥ m × 2^q, else q − 1
    let ge := if 0 ≤ q then decide (m * 2 ^ q.toNat ≤ a) else decide (m ≤ a * 2 ^ (-q).toNat)
    let k := (if ge then q else q - 1) - MXF.f F - e
    max (-127) (min 127 k)

/-- Quant_MX (R145): scale byte, codes, flags. -/
def quantMX (x : List FVal) (F : MXF) (k : Int) (mode : Rnd) : Byte × List (BitVec 8) × BitVec 6 :=
  if x.any (fun v => v.isNan || match v with | .inf _ => true | _ => false) then
    (0xFF, x.map fun _ => 0, fNV)
  else
    let X : Int := x.foldl (fun acc v =>
      match v with
      | .fin _ m e => if m = 0 then acc else max acc (flog2 m (e + k))
      | _ => acc) (-100000)
    let X := if X = -100000 then -127 else X
    let s : Int := min (max (X + 127) 0) 254
    let r := x.map fun v =>
      match v with
      | .fin n m e =>
        let (q, inexact) := roundAt mode n m (e + k + MXF.f F - (s - 127)) false 0
        let lim := MXF.maxCode F
        let q' := if lim < q then lim else q
        let code : Int := if n then -(q' : Int) else q'
        (BitVec.ofInt 8 code, (if inexact then fNX else 0) ||| (if lim < q then fSAT else 0))
      | _ => ((0 : BitVec 8), (0 : BitVec 6))
    (BitVec.ofInt 8 s, r.map (·.1), r.foldl (fun acc y => acc ||| y.2) 0)

/-! ## %fmtt (R146, R147) -/

structure FmtEntry where
  af : MXF
  bf : MXF
  aring : Fin 16
  bring : Fin 16
  anr : Bool
  bnr : Bool
deriving DecidableEq, Repr

def mxfOf (n : Nat) : Option MXF :=
  match n with
  | 0 => some .mx8
  | 1 => some .mx6
  | 2 => some .mx4
  | _ => none

/-- The valid format pairs (R147). -/
def pairOk : MXF → MXF → Bool
  | .mx8, .mx8 | .mx6, .mx6 | .mx4, .mx4 | .mx8, .mx4 | .mx4, .mx8 => true
  | _, _ => false

/-- %feat's effect on a format (R442). -/
def mxfAllowed (feat : BitVec 6) : MXF → Bool
  | .mx8 => true
  | .mx6 => feat.getLsbD 0
  | .mx4 => feat.getLsbD 1

/-- Entry (value of lcK) mod 64, when it is valid. -/
def fmttEntry (feat : BitVec 6) (fmtt : Vec) (lc : BitVec 32) : Option FmtEntry :=
  let e : BitVec 16 := fmtt.extractLsb' (16 * (lc.toNat % 64)) 16
  match mxfOf (e.extractLsb' 14 2).toNat, mxfOf (e.extractLsb' 12 2).toNat with
  | some a, some b =>
    if pairOk a b && e.extractLsb' 0 2 == 0 && mxfAllowed feat a && mxfAllowed feat b then
      some ⟨a, b, (e.extractLsb' 8 4).toFin, (e.extractLsb' 4 4).toFin, e.getLsbD 3, e.getLsbD 2⟩
    else none
  | _, _ => none

/-- Depth d of a pair (R148), and its element exponent e (R140). -/
def pairDepth : MXF → MXF → Nat
  | .mx8, .mx8 => 2
  | .mx6, .mx6 => 4
  | .mx4, .mx4 => 8
  | _, _ => 4
def pairExp : MXF → MXF → Int
  | .mx8, .mx8 => -12
  | .mx6, .mx6 => -8
  | .mx4, .mx4 => -4
  | _, _ => -8

/-- One cell's close (R149, R157): the new bank value and its flags; a NaN in the bank stays, without a flag. -/
def closeCell (acc : BitVec 32) (sa sb : Byte) (e : Int) (bank : BitVec 32) : BitVec 32 × BitVec 6 :=
  if sa == 0xFF || sb == 0xFF then (BitVec.ofNat 32 (nanBits f32F), fNV)
  else if (decodeF f32F bank.toNat).isNan then (BitVec.ofNat 32 (nanBits f32F), 0)
  else
    let c : FVal × BitVec 6 :=
      if acc == 0 then (.fin false 0 0, 0)
      else
        let r := roundF f32F .rne (.fin (acc.toInt < 0) acc.toInt.natAbs ((sa.toNat : Int) + sb.toNat - 254 + e))
        (decodeF f32F r.1, r.2)
    let r := addF f32F .rne (decodeF f32F bank.toNat) c.1
    (BitVec.ofNat 32 r.1, c.2 ||| r.2)

end Sys2Proof.Machine
end

