-- ==== Sys2Proof/Machine/Ops.lean ====
section
/-! DEFINITION. The shared operations: the core in focus, records, measurement, results in flight and their landing
(R202 to R208), rollback (R237), taking a trap (R215, R428) and the return from one (R418). -/

namespace Sys2Proof.Machine

def State.mapCore (s : State) (f : Core → Core) : State := { s with core := f s.core }
def State.mapA (s : State) (f : Arch → Arch) : State := s.mapCore fun c => { c with a := f c.a }
def State.mapSp (s : State) (f : Special → Special) : State := s.mapCore fun c => { c with sp := f c.sp }
def State.mapRgn (s : State) (f : Region → Region) : State := s.mapCore fun c => { c with rgn := f c.rgn }
def State.mapM (s : State) (f : Meas → Meas) : State := s.mapCore fun c => { c with m := f c.m }

/-! ## The core in focus (MODEL) -/

/-- A core of the package: the one in focus, a listed one, or an idle core as reset left it. -/
def coreOf (s : State) (n : Nat) : Core :=
  if s.core.id = n then s.core else (s.others.find? fun c => c.id == n).getD (Core.reset n)

/-- The listed cores stand in ascending number, each once. -/
def insertCore (c : Core) : List Core → List Core
  | [] => [c]
  | d :: r => if c.id < d.id then c :: d :: r else d :: insertCore c r
/-- Bring core `n` into focus. -/
def focus (n : Nat) (s : State) : State :=
  if s.core.id = n then s
  else { s with
    core := coreOf s n
    others := insertCore s.core (s.others.filter fun c => c.id != n && c.id != s.core.id) }

/-- Run `f` with core `n` in focus, then give the focus back. -/
def onCore (n : Nat) (f : State → State) (s : State) : State := focus s.core.id (f (focus n s))

/-- Every core the state lists. -/
def coresOf (s : State) : List Core := s.core :: s.others

/-- The cores of the package (R1, R10). -/
def coreIds : List Nat := (List.range 32).flatMap fun c => (List.range 48).map fun k => c * 64 + k
def validCore (n : Nat) : Bool := n < 2048 && n % 64 < 48

/-- A free value's number is used once. -/
def State.bump (s : State) : State := { s with fresh := s.fresh + 1 }

/-! ## Tasks -/

def taskFind (s : State) (t : Nat) : Option Task := s.tasks.find? fun x => x.id == t
def taskSet (s : State) (t : Task) : State := { s with tasks := s.tasks.map fun x => if x.id == t.id then t else x }
def taskUpd (s : State) (t : Nat) (f : Task → Task) : State :=
  { s with tasks := s.tasks.map fun x => if x.id == t then f x else x }
/-- The task the core in focus runs. -/
def curTask (s : State) : Option Task := s.core.task.bind (taskFind s)
def launchFind (s : State) (l : Nat) : Option Launch := s.launches.find? fun x => x.id == l
def launchUpd (s : State) (l : Nat) (f : Launch → Launch) : State :=
  { s with launches := s.launches.map fun x => if x.id == l then f x else x }
def nodeFind (s : State) (l n : Nat) : Option Node := (launchFind s l).bind fun x => x.nodes[n]?
def nodeUpd (s : State) (l n : Nat) (f : Node → Node) : State :=
  launchUpd s l fun x => { x with nodes := updAt x.nodes n f }
def taskNode (s : State) (t : Task) : Option Node := nodeFind s t.launch t.node
/-- The RCB of a task's node. -/
def taskRcb (s : State) (t : Task) : Option Rcb :=
  (launchFind s t.launch).bind fun l => (l.nodes[t.node]?).bind fun n => l.rcbs[n.rcb]?
/-- A task's die and effective fault domain (R27, R50). -/
def taskDom (s : State) (t : Task) : Nat × Nat :=
  (((launchFind s t.launch).map (·.die.val)).getD 0, ((taskRcb s t).map (·.fdom)).getD 0)
def domStopped (s : State) (die dom : Nat) : Bool := s.stopped.any fun d => d.die.val == die && d.dom == dom

/-! ## Records of the Gecko recorder (R431 to R434) -/

def dieUpd (s : State) (d : Nat) (f : Die → Die) : State :=
  { s with dies := vecOf 4 fun i => if i.val = d then f (s.dies.get i) else s.dies.get i }
def dieGet (s : State) (d : Nat) : Die := s.dies.get (Fin.ofNat 4 d)

/-- Write one record: the source numbers its records, the ring keeps the last 4,096. -/
def record (die src : Nat) (cause slot : Byte) (pc val : Word) (s : State) : State :=
  let q := ((s.trapSeqs.find? fun x => x.1 == src).map (·.2)).getD 0
  let r : Rec := ⟨BitVec.ofNat 64 s.tick, q, src, cause, slot, pc, val⟩
  dieUpd { s with trapSeqs := (src, q + 1) :: s.trapSeqs.filter fun x => x.1 != src } die fun d =>
    { d with gecko := (r :: d.gecko).take 4096, gcount := d.gcount + 1 }

/-- The die dispatcher's source number (R11). -/
def dispSrc (die : Nat) : Nat := die * 1024 + 648

/-! ## Time and measurement (R474 to R477, R484) -/

def rotPeriod (m : Meas) : Nat := 2 ^ (m.mrot.extractLsb' 0 8).toNat
/-- The group active at a tick (R484). -/
def activeGroup (m : Meas) (t : Nat) : Nat := t / rotPeriod m % ((m.mrot.extractLsb' 8 2).toNat + 1)
def ctrOn (c : Ctr) : Bool := c.cctl.getLsbD 63
def ctrGroup (c : Ctr) : Nat := (c.cctl.extractLsb' 16 2).toNat
def ctrEvt (c : Ctr) : Nat := (c.cctl.extractLsb' 0 16).toNat

/-- Ticks of (t, t + n] in which group `g` is active. -/
def groupTicks (m : Meas) (t n g : Nat) : Nat := ((List.range n).filter fun i => activeGroup m (t + 1 + i) == g).length

def mapCtrs (m : Meas) (f : Ctr → Ctr) : Meas := { m with ctrs := vecOf 16 fun i => f (m.ctrs.get i) }

/-- Count `n` events of a code on the core in focus: counters that are on, with their group active. -/
def countEvt (evt n : Nat) (s : State) : State :=
  s.mapM fun m => mapCtrs m fun c =>
    if ctrOn c && ctrEvt c == evt && ctrGroup c == activeGroup m s.tick then
      { c with count := c.count + BitVec.ofNat 64 n } else c

/-- What `n` ticks do to a core's counters: `TENA`, `TRUN`, and cycle counts (four cycles a tick, R2). -/
def ticksMeas (t n : Nat) (m : Meas) : Meas :=
  mapCtrs m fun c =>
    if ctrOn c then
      let r := groupTicks m t n (ctrGroup c)
      { c with tena := c.tena + BitVec.ofNat 64 n, trun := c.trun + BitVec.ofNat 64 r,
               count := if ctrEvt c == 1 then c.count + BitVec.ofNat 64 (4 * r) else c.count }
    else c

/-- `n` ticks of the 64-bit Belfry counter (R1). -/
def tickOn (n : Nat) (s : State) : State :=
  let f (c : Core) : Core := { c with m := ticksMeas s.tick n c.m }
  { s with tick := (s.tick + n) % 2 ^ 64, core := f s.core, others := s.others.map f }
/-- The cores of a cluster by number (R10). -/
def clusterCores (cl : Nat) : List Nat := (List.range 48).map fun k => cl * 64 + k
/-- The cores of a die that have not been retired. -/
def dieCores (s : State) (die : Nat) : List Nat :=
  ((List.range 8).flatMap fun c => clusterCores (die * 8 + c)).filter fun k => !(coreOf s k).disabled
/-- A reading of the Dome tree: the sum, the least and the greatest, ties to the lowest source (R481). -/
def domeRead (s : State) (die : Nat) (d : Die) : Die :=
  let i := (d.ddome.extractLsb' 0 4).toFin
  let l := (dieCores s die).map fun k => (srcNum k, ((coreOf s k).m.ctrs.get i).count)
  let lo := l.foldl (fun (a : Nat × Word) x => if x.2.toNat < a.2.toNat then x else a) (l.headD (0, 0))
  let hi := l.foldl (fun (a : Nat × Word) x => if a.2.toNat < x.2.toNat then x else a) (l.headD (0, 0))
  { d with
    ddome := d.ddome &&& 0xF
    domeAt := none
    domeSum := l.foldl (fun a x => a + x.2) 0
    domeMin := lo.2
    domeMax := hi.2
    domeSrc := BitVec.ofNat 64 (lo.1 + hi.1 * 2 ^ 16) }
/-- The ticks from now within `n` at which a die's reading of the Dome tree is taken (R481). -/
def domeIn (s : State) (n : Nat) (d : Die) : Option Nat :=
  d.domeAt.bind fun t => if s.tick < t && t ≤ s.tick + n then some (t - s.tick) else none
/-- Let `n` ticks pass: a reading of the Dome tree that falls due is taken at its own tick (R481). -/
def passTicks (n : Nat) (s : State) : State :=
  let s1 := tickOn n s
  if (List.finRange 4).any fun i => (domeIn s n (s.dies.get i)).isSome then
    { s1 with dies := vecOf 4 fun i => match domeIn s n (s.dies.get i) with
      | some t => domeRead (tickOn t s) i.val (s.dies.get i)
      | none => s.dies.get i }
  else s1

/-- The level a bundle address is charged to: the one most recently set up among those that hold it. -/
def levelOf (a : Arch) (pc : Word) : Option (Fin 4) :=
  a.lorder.find? fun k => decide ((a.lstart.get k).toNat ≤ pc.toNat ∧ pc.toNat ≤ (a.lend.get k).toNat)
def laccUpd (k : Fin 4) (f : LAcc → LAcc) (m : Meas) : Meas := { m with lacc := m.lacc.set k.val (f (m.lacc.get k)) k.isLt }
def stallIdx : Stall → Fin 7
  | .token => 0
  | .stream => 1
  | .stashMiss => 2
  | .split => 3
  | .stretch => 4
  | .substitution => 5
  | .freeze => 6
/-- Charge cycles of stall to the level of the bundle they delay, and to the counters (R474, R476). -/
def addStall (c : Stall) (n : Nat) (s : State) : State :=
  let i := stallIdx c
  let add (l : LAcc) : LAcc := { l with stalls := l.stalls.set i.val (l.stalls.get i + BitVec.ofNat 64 n) i.isLt }
  let s1 := countEvt (0x10 + i.val) n s
  match levelOf s.core.a s.core.pc with
  | some k => s1.mapM (laccUpd k add)
  | none => s1
def traceOn (m : Meas) : Bool := m.tctl.getLsbD 63
/-- A stall's cycles as its records give them: a longer one takes several (R485). -/
def stallParts (n : Nat) : List Nat :=
  let m := 2 ^ 48 - 1
  List.replicate (n / m) m ++ (if n % m = 0 then [] else [n % m])
/-- The records of a stall of a core that has ended (R479, R485). -/
def stallWork (c : Core) (k : Stall) (n : Nat) : List Work :=
  if traceOn c.m then (stallParts n).map fun n =>
    .event (.traceRecord c.id (.stall (BitVec.ofNat 48 n) (Fin.ofNat 8 (stallIdx k).val)))
  else []
/-- The records of the stall in progress, should it end now. -/
def stallDue (c : Core) : List Work := match c.stallWhy with
  | some k => stallWork c k c.stallCyc
  | none => []
/-- The stall in progress ends, with its records. -/
def dropStall (s : State) : State :=
  { s.mapCore (fun c => { c with stall := none, held := false, stallWhy := none, stallCyc := 0 }) with
    agenda := s.agenda ++ stallDue s.core }
/-- Cycles of a stall that begins and ends here, charged and recorded. -/
def chargeStall (c : Stall) (n : Nat) (s : State) : State :=
  { addStall c n s with agenda := s.agenda ++ stallWork s.core c n }
/-- Cycles for which a core is frozen pass: a fetch miss, a commit's drain, a rollback's recovery (R204, R474). -/
def frozen (s : State) : State :=
  passTicks (Config.freeTicks (s.fresh + 1))
    (chargeStall .freeze (Config.freeBits 32 s.fresh).toNat { s with fresh := s.fresh + 2 })
/-- Bytes an access moves, against its buffer (R287). -/
def hotBytes (buf : Fin 16) (n : Nat) (s : State) : State :=
  s.mapM fun m => { m with hotB := m.hotB.set buf.val (m.hotB.get buf + BitVec.ofNat 64 n) buf.isLt }
/-- Stall cycles an access causes (R287). -/
def hotStall (buf : Fin 16) (n : Word) (s : State) : State :=
  s.mapM fun m => { m with hotS := m.hotS.set buf.val (m.hotS.get buf + n) buf.isLt }

/-! ## Registers (R206, R251) -/

def physV (vrb : BitVec 6) (i : Fin 128) : Fin 128 :=
  if i.val < 64 then i else Fin.ofNat 128 (64 + (i.val - 64 + vrb.toNat) % 64)
def physP (prb : BitVec 3) (i : Fin 16) : Fin 16 :=
  if i.val < 8 then i else Fin.ofNat 16 (8 + (i.val - 8 + prb.toNat) % 8)

def getS (a : Arch) (i : Fin 64) : Word := a.s.get i
def getV (a : Arch) (i : Fin 128) : Vec := a.v.get i
/-- p0 reads all ones (R100, R250). -/
def getP (a : Arch) (i : Fin 16) : Pred := if i = 0 then BitVec.allOnes 32 else a.p.get i
def setS (a : Arch) (i : Fin 64) (x : Word) : Arch := { a with s := a.s.set i.val x i.isLt }
def setV (a : Arch) (i : Fin 128) (x : Vec) : Arch := { a with v := a.v.set i.val x i.isLt }
/-- A write to p0 changes nothing (R250). -/
def setP (a : Arch) (i : Fin 16) (x : Pred) : Arch := if i = 0 then a else { a with p := a.p.set i.val x i.isLt }

/-! ## Signatures (R175, R319) -/

/-- The latest pending release of a core, by program-order number. -/
def lastRel (c : Core) : Option Nat := (c.pend.filter fun p => match p.kind with
  | .rel .. => true
  | _ => false).getLast?.map (·.seq)
/-- OR a signature into the set held apart since the release of a number, or into %wsig. -/
def orSigOf (rel : Option Nat) (sg : Sig) (s : State) : State :=
  match rel with
  | none => s.mapSp fun p => { p with wsig := p.wsig ||| sg }
  | some n => s.mapCore fun c => { c with pend := c.pend.map fun p =>
      if p.seq == n then
        { p with kind := match p.kind with
          | .rel f v sc a h => .rel f v sc a (h ||| sg)
          | k => k }
      else p }
/-- OR a signature into %wsig, or while a release is pending into the set held apart since it (R319, R402). -/
def orSig (sg : Sig) (s : State) : State := orSigOf (lastRel s.core) sg s
def addLineSig (key : Nat) (s : State) : State := orSig (sigLine key) s

/-- Digest step of CRC-32C, one byte (R394). -/
def crcByte (c : BitVec 32) (b : Byte) : BitVec 32 :=
  (List.range 8).foldl (fun c _ => if c.getLsbD 0 then (c >>> 1) ^^^ 0x82F63B78 else c >>> 1) (c ^^^ b.setWidth 32)
def crcBytes (c : BitVec 32) (l : List Byte) : BitVec 32 := l.foldl crcByte c

/-! ## Landing (R202 to R208, R237) -/

/-- What the slot's latch receives; lanes guarded off are already zero in a flight's value (R207, R208). -/
def latchVal (f : Flight) : Vec := f.val

/-- Put a result's data at its place in an out stream (R254). -/
def fillOut (q : QState) (idx : Nat) (x : Vec) : QState :=
  { q with outq := q.outq.map fun e => if e.idx == idx then { e with data := some x } else e }

/-- A ring push (R142). -/
def ringPut (r : Ring) (x : BitVec 32) : Ring :=
  { entries := r.entries.set r.next.val x r.next.isLt, fill := min 16 (r.fill + 1), next := r.next + 1 }

/-- A 64-bit piece of a special register that lands in the shadowed state. -/
def landSreg (a : Arch) (n : Nat) (x : Word) : Arch :=
  if n = 0x10 then { a with vrb := x.setWidth 6 }
  else if n = 0x11 then { a with prb := x.setWidth 3 }
  else if n = 0x12 then { a with lec := vecOf 4 fun k => x.extractLsb' (16 * k.val) 16 }
  else if n = 0x14 then { a with fflags := x.setWidth 6 }
  else if h : n - 0x30 < 4 then
    if 0x30 ≤ n then { a with lc := a.lc.set (n - 0x30) (x.setWidth 32) h } else a
  else a

/-- The destination a landing result writes, in the shadowed state. -/
def landDest (a : Arch) (f : Flight) : Arch :=
  match f.dest with
  | .s i => setS a i (f.val.setWidth 64)
  | .v i => setV a i (blend (laneMask f.mask) f.val (getV a i))
  | .p i => setP a i (blend f.mask (f.val.setWidth 32) (a.p.get i))
  | .latchOnly | .flagsOnly | .ringPush _ | .ringClear _ | .stash _ | .qact _ | .gclr => a
  | .stream k idx => { a with streams := a.streams.set k.val (fillOut (a.streams.get k) idx f.val) k.isLt }
  | .sreg n _ => landSreg a n (f.val.setWidth 64)
  | .lec k => { a with lec := a.lec.set k.val (f.val.setWidth 16) k.isLt }
  | .lrange k =>
    { a with lstart := a.lstart.set k.val (f.val.setWidth 64) k.isLt
             lend := a.lend.set k.val ((f.val >>> 64).setWidth 64) k.isLt
             lorder := k :: a.lorder.filter (· != k) }

/-- One result: its destination, then its slot's latch. -/
def landOne (a : Arch) (f : Flight) : Arch :=
  let a1 := landDest a f
  if f.latch then { a1 with y := a1.y.set f.slot.val (latchVal f) f.slot.isLt } else a1

def isSwrFlags (f : Flight) : Bool := f.dest == .sreg 0x14 0

/-- The results in the order they take effect in one step: an SWR to %fflags first, then ascending slot, and issue
order within a slot (R205, R135). -/
def landOrder (fs : List Flight) : List Flight :=
  fs.filter isSwrFlags ++
    (List.range 8).flatMap fun k => fs.filter fun f => f.slot.val == k && !isSwrFlags f

/-- Every result of one step, with its flags ORed last (R135). -/
def landArch (fs : List Flight) (a : Arch) : Arch :=
  let a1 := (landOrder fs).foldl landOne a
  { a1 with fflags := fs.foldl (fun acc f => acc ||| f.flags) a1.fflags }

/-- The unshadowed places a result writes: %fmtt and %ssthr (R146, R347). -/
def landSpecial (sp : Special) (f : Flight) : Special :=
  match f.dest with
  | .sreg n p =>
    let x : Word := f.val.setWidth 64
    let m : Vec := ((BitVec.allOnes 64).setWidth 1024) <<< (64 * p)
    let xs : Vec := (x.setWidth 1024) <<< (64 * p)
    if n = 0x20 then { sp with fmtt := blend m xs sp.fmtt }
    else if n = 0x21 then
      (if 2 ≤ (x.extractLsb' 0 4).toNat ∧ (x.extractLsb' 0 4).toNat ≤ 8 then { sp with ssthr := x.extractLsb' 0 4 } else sp)
    else sp
  | _ => sp

/-- The data of a held stream push is filled in when its result lands (R378). -/
def landHeld (h : List Held) (f : Flight) : List Held :=
  match f.dest with
  | .stream k idx => h.map fun e => match e with
    | .push k' idx' a z b none => if k' = k ∧ idx' = idx then .push k' idx' a z b (some f.val) else e
    | e => e
  | _ => h

/-- SFLUSH's write-back, its bytes counted against its buffer (R287, R301). -/
def flushLine (buf : Fin 16) (key : Nat) (s : State) : State :=
  writeBack (hotBytes buf (((lineFind s.core key).map fun l => popcount l.dirty).getD 0) s) key
/-- A stash operation takes effect (R300, R301); its write-backs were acknowledged within the step. -/
def stashDo (o : StashOp) (s : State) : State :=
  match o with
  | .smap off va lsz =>
    match kttFind s.core.ktt va (2 ^ lsz) with
    | none => s
    | some e =>
      let key := kttKey e va
      let inR (k : Nat) : Bool := key ≤ 64 * k && 64 * k < key + 2 ^ lsz
      let s1 := ((s.core.lines.filter fun l => inR l.key).map (·.key)).foldl writeBack s
      { s1 with
        core := { dropLines s1.core inR with maps := s1.core.maps ++ [⟨off, va, key, lsz, e.w, classOf e none⟩] }
        spad := Mem.drop s1.spad (spadAddr s.core.id off) (2 ^ lsz) }
  | .sunmap off =>
    match mapOfOff s.core.maps off with
    | none => s
    | some m =>
      let inR (k : Nat) : Bool := m.key ≤ 64 * k && 64 * k < m.key + 2 ^ m.lsz
      let s1 := ((s.core.lines.filter fun l => inR l.key).map (·.key)).foldl writeBack s
      -- the range's contents are undefined (R301): one free value for each byte
      let base := spadAddr s.core.id m.off
      let sp := (List.range (2 ^ m.lsz)).foldl (fun mm i =>
        Mem.put mm (base + i) (Config.freeBits 8 (s1.fresh + i))) s1.spad
      { s1 with
        core := { dropLines s1.core inR with maps := s1.core.maps.filter fun x => x.off != m.off }
        spad := sp, fresh := s1.fresh + 2 ^ m.lsz }
  | .sdrop off =>
    match mapOfOff s.core.maps off with
    | none => s
    | some m => s.mapCore fun c =>
        let inR (k : Nat) : Bool := m.key ≤ 64 * k && 64 * k < m.key + 2 ^ m.lsz
        { dropLines c inR with young := c.young.filter fun y => !inR (lineKey y.2.1) }
  | .sflush off buf =>
    match mapOfOff s.core.maps off with
    | none => s
    | some m => flushLine buf (lineKey (m.key + (off - m.off))) s

/-- QBIND, QUNBIND effects (R305, R308). -/
def qactDo (a : Arch) : QAct → Arch
  | .bind k d => { a with streams := a.streams.set k.val ⟨true, d, 0, [], []⟩ k.isLt }
  | .unbind k => { a with streams := a.streams.set k.val QState.reset k.isLt }

/-- Pushes to a stream that is unbound belong to no later binding of it (R311). -/
def oldPushes (k : Fin 8) (s : State) : State :=
  let old (h : Held) : Held := match h with
    | .push j i a z b d => if j = k then .push j (i + 2 ^ 32) a z b d else h
    | _ => h
  let fl (f : Flight) : Flight := match f.dest with
    | .stream j i => if j = k then { f with dest := .stream j (i + 2 ^ 32) } else f
    | _ => f
  s.mapCore fun c => { c with
    flights := c.flights.map fl
    rgn := { c.rgn with held := c.rgn.held.map old } }
/-- Effects that change more than registers, at the end of their step. -/
def landAct (s : State) (f : Flight) : State :=
  match f.dest with
  | .stash o => stashDo o s
  | .gclr => s.mapRgn fun r =>
      let g := vecOf 16 fun i : Fin 16 => bif f.val.getLsbD i.val then none else r.guards.get i
      { r with guards := g }
  | .qact a => (match a with
      | .unbind k => oldPushes k s
      | _ => s).mapA fun x => qactDo x a
  | _ => s

def isRing (f : Flight) : Bool := match f.dest with
  | .ringPush _ | .ringClear _ => true
  | _ => false

/-- The destination of a result, as a digest names it. -/
def destBytes : FDest → List Byte
  | .s i => [1, BitVec.ofNat 8 i.val]
  | .v i => [2, BitVec.ofNat 8 i.val]
  | .p i => [3, BitVec.ofNat 8 i.val]
  | .latchOnly => [4, 0]
  | .stream k i => [5, BitVec.ofNat 8 k.val] ++ toBytes 8 (BitVec.ofNat 64 i)
  | .ringPush r => [6, BitVec.ofNat 8 r.val]
  | .ringClear r => [7, BitVec.ofNat 8 r.val]
  | .sreg n p => [8, BitVec.ofNat 8 n, BitVec.ofNat 8 p]
  | .lec k => [9, BitVec.ofNat 8 k.val]
  | .lrange k => [10, BitVec.ofNat 8 k.val]
  | .stash _ | .qact _ | .gclr | .flagsOnly => [11, 0]
/-- Register writes of a rerun, into its digest: what the region issued, each with its destination and lanes (R394). -/
def digestLand (r : Region) (fs : List Flight) : Region :=
  if r.st == .rerunA || r.st == .rerunB then
    { r with sigCrc := ((landOrder fs).filter (·.rgn)).foldl (fun c f =>
        crcBytes c (destBytes f.dest ++ toBytes 4 f.mask ++ toBytes 128 f.val)) r.sigCrc }
  else r

/-- The end of a step: every count falls by one and those at zero land; results older than the region land in its
shadow too (R202, R237). Ring pushes wait for RING_PUSH_EFFECT. -/
def landStep (s : State) : State :=
  let fs := s.core.flights.map fun f => { f with left := f.left - 1 }
  let due := fs.filter fun f => f.left == 0 && !isRing f
  let rest := fs.filter fun f => !(f.left == 0 && !isRing f)
  let c := s.core
  let rgn := digestLand c.rgn due
  let c' := { c with
    a := landArch due c.a
    sp := due.foldl landSpecial c.sp
    flights := rest
    landDue := false
    rgn := { rgn with
      shadow := rgn.shadow.map (landArch (due.filter fun f => !f.rgn))
      held := due.foldl landHeld rgn.held } }
  due.foldl landAct { s with core := c' }

def ringOne (a : Arch) (f : Flight) : Arch :=
  match f.dest with
  | .ringPush r => { a with rings := a.rings.set r.val (ringPut (a.rings.get r) (f.val.setWidth 32)) r.isLt }
  | .ringClear r =>
    let g := a.rings.get r
    { a with rings := a.rings.set r.val { g with fill := 0, next := 0 } r.isLt }
  | _ => a

/-- Ring pushes and clears whose step has come, slot 5 before slot 6 (R143, R279). -/
def ringStep (s : State) : State :=
  let due := landOrder (s.core.flights.filter fun f => f.left == 0 && isRing f)
  s.mapCore fun c => { c with
    a := due.foldl ringOne c.a
    flights := c.flights.filter fun f => !(f.left == 0 && isRing f)
    rgn := { c.rgn with shadow := c.rgn.shadow.map fun a => (due.filter fun f => !f.rgn).foldl ringOne a } }

/-- Put a result in flight. A substitute word that is not the last, whose destination is null, reaches only the chain
(R460), its flags the end of the step. -/
def schedule (f : Flight) (s : State) : State :=
  if s.core.chainLast then s.mapCore fun c => { c with flights := c.flights ++ [f] }
  else s.mapCore fun c => { c with
    chain := if f.latch || f.dest == .flagsOnly then some (latchVal f) else c.chain
    flights := c.flights ++ [{ f with dest := .flagsOnly, latch := false, left := 1 }] }

def regionOpen (c : Core) : Bool := c.rgn.st == .opened || c.rgn.st == .rerunA || c.rgn.st == .rerunB

/-! ## Rollback (R237, R390, R394, R401) -/

/-- A pending operation whose item the region holds: a store or flush, or an engine command not started. -/
def isHeldTok (s : State) (p : PendOp) : Bool := match p.kind with
  | .held => true
  | .engine id => s.cmds.any fun e => e.id == id && e.held
  | _ => false

/-- Steps 1, 4 and 5 of R237, and R401 for the tokens of discarded items. -/
def cancelRegion (s : State) : State :=
  { s.mapCore (fun c => { c with
      flights := c.flights.filter (fun f => !f.rgn)
      pend := c.pend.filter (fun p => !(p.rgn && isHeldTok s p))
      rgn := { c.rgn with held := [], guards := Vector.replicate 16 none } }) with
    cmds := s.cmds.filter fun e => !(e.held && e.core == some s.core.id) }

def crcDone (c : BitVec 32) : BitVec 32 := ~~~c

def ekindNum : EKind → Nat
  | .sscan => 0
  | .cpy => 1
  | .cpyr => 2
  | .mcast => 3
  | .gath => 4
  | .scat => 5
  | .coll => 6
  | .gnode => 7
/-- A number and a location, as a digest names them. -/
def numBytes (n : Nat) : List Byte := toBytes 8 (BitVec.ofNat 64 n)
def locBytes : Loc → List Byte
  | .spad a => 0 :: numBytes a
  | .glob a => 1 :: toBytes 16 (BitVec.ofNat 128 a)
/-- The digest of the items a region holds, in program order (R394): each by its kind and its fields, an engine command by its
kind and descriptor. -/
def heldBytes (s : State) : Held → List Byte
  | .store b _ _ => 16 :: (b.flatMap fun x => locBytes x.1 ++ [x.2])
  | .push k idx a z b d => [17, BitVec.ofNat 8 k.val, BitVec.ofNat 8 b.val] ++ numBytes idx ++ numBytes a ++ numBytes z
      ++ toBytes 128 (d.getD 0)
  | .engine id => match s.cmds.find? fun c => c.id == id with
    | some c => [18, BitVec.ofNat 8 (ekindNum c.kind)] ++ toBytes 8 c.ea ++ c.desc
    | none => [18]
  | .stash o _ => match o with
    | .smap a b c => 19 :: (numBytes a ++ numBytes b ++ numBytes c)
    | .sunmap a => 20 :: numBytes a
    | .sdrop a => 21 :: numBytes a
    | .sflush a b => 22 :: (numBytes a ++ [BitVec.ofNat 8 b.val])

/-- A rerun reaches an outcome (R394). -/
def rerunEnd (o : Outcome1) (s : State) : State :=
  let s1 := s.mapRgn fun r => if r.st == .rerunA then { r with outA := some o } else { r with outB := some o }
  { s1 with agenda := [] }
def rerunEnded (commit : Bool) (cause : Nat) (s : State) : State :=
  let r := s.core.rgn
  rerunEnd (.ended commit cause r.steps
    (crcDone (r.held.foldl (fun c h => crcBytes c (heldBytes s h)) r.sigCrc)) (crcDone r.loadCrc)) s

/-- A rollback trigger of cause `c`: an open region unwinds (R399); inside a rerun it is the rerun's outcome; with no
region open it does nothing. None of the bundle's slots commits; older results land at the end of its step. -/
def startRollback (c : Nat) (s : State) : State :=
  match s.core.rgn.st with
  | .opened =>
    let s1 := countEvt 7 1 (cancelRegion s)
    { s1.mapCore (fun k => { k with rgn := { k.rgn with st := .unwinding c }, landDue := true, next := none, feed := [] }) with
      agenda := [.event (.resultLand s.core.id), .event (.ringPushEffect s.core.id)] }
  | .rerunA | .rerunB =>
    { (rerunEnded false c s).mapCore fun k => { k with
        flights := k.flights.filter (fun f => !f.rgn), landDue := true, next := none } with
      agenda := [.event (.resultLand s.core.id), .event (.ringPushEffect s.core.id)] }
  | _ => s

/-! ## Taking a trap (R215, R243, R390, R428) -/

/-- A stop that is asked for gives way to a stronger one: a switch to an involuntary stop, that to a stop of its own
domain, and any to the end of its subtree (R29, R408). -/
def stopRank : SaveWhy → Nat
  | .yield | .wait => 0
  | .preempt | .overrun => 1
  | .page => 2
  | .debug | .step _ => 3
  | .domain => 4
  | .fault _ => 5
  | .budget => 6
def stronger (old : Option SaveWhy) (why : SaveWhy) : SaveWhy := match old with
  | none => why
  | some w => if stopRank w < stopRank why then why else w
/-- Ask for the save of a task: it leaves its core at the next bundle boundary, or when an open region ends (R391). -/
def stopTask (t : Nat) (why : SaveWhy) (s : State) : State :=
  taskUpd s t fun x => { x with stopReq := some (stronger x.stopReq why) }

/-- Stop a fault domain (R50, R408, R428), recording kind 0x88; a second fault leaves the first cause. -/
def stopDomain (die : Nat) (dom : Nat) (cause : Byte) (s : State) : State :=
  let s1 := if domStopped s die dom then s
    else record die (dispSrc die) 0x88 0 (BitVec.ofNat 64 dom) (cause.setWidth 64)
      { s with stopped := s.stopped ++ [⟨Fin.ofNat 4 die, dom, cause⟩] }
  { s1 with tasks := s1.tasks.map fun t =>
      if taskDom s t == (die, dom) then
        match t.st with
        | .running => { t with stopReq := some (stronger t.stopReq .domain), domStop := true }
        | .ready | .waiting | .migrating | .stopped => { t with st := .stopped, domStop := true }
        | .ended => t
      else t }

/-- The members of a task's gang (R42), itself included. -/
def gangOf (s : State) (t : Task) : List Nat := (s.tasks.filter fun x => x.gang == t.gang).map (·.id)

/-- `KBASE` of %ktt (R422). -/
def kttBase (w : Word) : Nat := (w.extractLsb' 12 44).toNat * 4096
/-- The entry an address lies in, by virtual base, for a migration (R426). -/
def absentBase (c : Core) (ea : Nat) : Nat := ((kttFind c.ktt ea 1).map (·.vbase)).getD 0

/-- A migration request reaches the home of an entry; a source asks once (R426, R427). -/
def addMigr (key vbase tick pkg src : Nat) (s : State) : State :=
  let mine (m : Migr) : Bool := m.key == key && m.vbase == vbase
  let soon (m : Migr) : Bool := match m.doneTick with
    | some t => decide (s.tick ≤ t + 2 ^ 16)
    | none => false
  let add (m : Migr) : Migr :=
    if mine m && !(m.reqs.any fun r => r.pkg == pkg && r.src == src) then
      { m with reqs := m.reqs ++ [⟨tick, pkg, src, soon m⟩] } else m
  { s with migrs := if s.migrs.any mine then s.migrs.map add
      else s.migrs ++ [⟨key, vbase, [⟨tick, pkg, src, false⟩], none, none⟩] }
/-- A page-absent stop (R426): the task leaves its core at once, precisely, and sees no trap. A fetch that meets the
page also names the bundle (R229). -/
def pageStop (slot : Nat) (done : BitVec 8) (fval : Word) (s : State) : State :=
  let s1 := s.mapSp fun p =>
    if slot = 8 then { p with done := done, fpc := s.core.pc, fslot := 8, fval := fval } else { p with done := done }
  let base := absentBase s.core fval.toNat
  match curTask s with
  | none => { s1 with agenda := [] }
  | some t =>
    let key := kttBase s.core.kttReg
    let s2 : State := (gangOf s t).foldl (fun s g => taskUpd (stopTask g .page s) g fun x => { x with mig := some base }) s1
    { addMigr key base s.tick s.package (srcNum s.core.id) s2 with agenda := [] }

/-- TAKING A TRAP at slot `slot` (8 for the header) with `done` the committed slots. In an open region the bundle
rolls back instead (R390). Cause 0x06 migrates (R426). Otherwise %cause, %fpc, %fslot, %fval and %done are set
(R118, R215), the record is written (R431), and the task is saved; unless it is under a debug stop or step, its fault
domain stops (R428); a gang stops with its member (R46, R487). The pc keeps the bundle's address, and SNEXT the next bundle when slot 0 has committed (R216). -/
def takeTrap (slot : Nat) (cause : Byte) (fval : Word) (done : BitVec 8) (s : State) : State :=
  if regionOpen s.core then startRollback (if cause == 0x06 then 7 else 4) s
  else if cause == 0x06 then pageStop slot done fval s
  else
    let s1 := s.mapSp fun p => { p with
      cause := cause, fpc := s.core.pc, fslot := BitVec.ofNat 4 slot, fval := fval, done := done }
    let s2 := record (dieOf s.core.id) (srcNum s.core.id) cause
      (BitVec.ofNat 4 slot |> fun x => (s.core.sp.gpos ++ x)) s.core.pc fval s1
    let s3 := { s2.mapCore (fun c => { c with landDue := false, tsLate := none, halting := c.halting && done.getLsbD 0 }) with agenda := [] }
    match curTask s with
    | none => s3
    | some t =>
      let debug := t.stepping || t.stopReq == some .debug
      if debug && (cause == 0x0E || cause == 0x0F) then
        (gangOf s t).foldl (fun s g => stopTask g (if g = t.id then .step cause else .debug) s) s3
      else
        let d := taskDom s t
        let s4 := stopTask t.id (.fault cause) s3
        stopDomain d.1 d.2 cause s4

/-- The slots below `k`. -/
def below (k : Nat) : BitVec 8 := BitVec.ofNat 8 (2 ^ k - 1)

/-- A precise trap at the slot in execution: the slots below it have committed (R215). -/
def trapHere (cause : Byte) (fval : Word) (s : State) : State :=
  takeTrap s.core.slot.val cause fval (below s.core.slot.val ||| s.core.sp.done) s

end Sys2Proof.Machine
end

