-- ==== Sys2Proof/Machine/Flags.lean ====
section
/-! DEFINITION. Conditions and the flags they raise (R107, R113, R272), the class bits of VFCLASS (R271), and special
registers as words (R219 to R225). -/

namespace Sys2Proof.Machine

/-- The conditions ending in n compare as unsigned whatever the type (R107, R265). -/
def ccUnsigned : CC → Bool
  | .ltn | .len | .gtn | .gen => true
  | _ => false

/-- A condition on two exact integers. -/
def ccInt (cc : CC) (a b : Int) : Bool :=
  match cc with
  | .eq => a == b
  | .ne => a != b
  | .lt | .ltn => decide (a < b)
  | .le | .len => decide (a ≤ b)
  | .gt | .gtn => decide (b < a)
  | .ge | .gen => decide (b ≤ a)

/-- A condition on two words, read with the signedness of the condition and the type (R261, R265). -/
def ccHolds (cc : CC) (signed : Bool) {w : Nat} (a b : BitVec w) : Bool :=
  let sg := signed && !ccUnsigned cc
  ccInt cc (readI sg a) (readI sg b)

/-- A floating condition, and NV (R272). -/
def fccHolds (cc : FCC) (a b : FVal) : Bool × BitVec 6 :=
  let un := a.isNan || b.isNan
  let sn := a.isSNan || b.isSNan
  let o := cmpX a b
  let nvS : BitVec 6 := if sn then fNV else 0
  let nvA : BitVec 6 := if un then fNV else 0
  match cc with
  | .eq => (!un && o == .eq, nvS)
  | .ne => (un || o != .eq, nvS)
  | .lt => (!un && o == .lt, nvA)
  | .le => (!un && o != .gt, nvA)
  | .gt => (!un && o == .gt, nvA)
  | .ge => (!un && o != .lt, nvA)
  | .un => (un, nvS)
  | .ord => (!un, nvS)

/-- The bit VFCLASS sets (R271). -/
def fclassBit (F : Fmt) (v : FVal) : Nat :=
  match v with
  | .nan true => 8
  | .nan false => 9
  | .inf n => if n then 0 else 7
  | .fin n 0 _ => if n then 3 else 4
  | .fin n m _ => if m < 2 ^ F.mb then (if n then 2 else 5) else (if n then 1 else 6)

/-- %step (R220, R435). -/
def bseOf (d : Die) : Nat := (d.dcfg.extractLsb' 32 8).toNat
def stepOf (s : State) (die : Nat) : Nat := s.tick / 2 ^ bseOf (dieGet s die)

/-- %lec as a word (R223). -/
def lecWord (a : Arch) : Word := a.lec.get 3 ++ a.lec.get 2 ++ a.lec.get 1 ++ a.lec.get 0

/-- %sem as a word (R121). -/
def semWord (c : Core) : Word := (0 : BitVec 50) ++ c.semDis ++ (0 : BitVec 2) ++ c.semMap

/-- Piece `p` of special register `n`, as it stands (R219). -/
def readSreg (s : State) (n p : Nat) : Word :=
  let c := s.core
  if n = 0x00 then BitVec.ofNat 64 (cidOf c.id)
  else if n = 0x01 then BitVec.ofNat 64 (clusterOf c.id % 8)
  else if n = 0x02 then BitVec.ofNat 64 (dieOf c.id)
  else if n = 0x03 then c.sp.tile
  else if n = 0x04 then c.sp.gpos.setWidth 64
  else if n = 0x08 then BitVec.ofNat 64 s.tick
  else if n = 0x09 then BitVec.ofNat 64 (stepOf s (dieOf c.id))
  else if n = 0x10 then c.a.vrb.setWidth 64
  else if n = 0x11 then c.a.prb.setWidth 64
  else if n = 0x12 then lecWord c.a
  else if n = 0x13 then c.sp.done.setWidth 64
  else if n = 0x14 then c.a.fflags.setWidth 64
  else if n = 0x15 then c.sp.rbcause.setWidth 64
  else if n = 0x16 then c.sp.latcls.setWidth 64
  else if n = 0x18 then c.sp.cause.setWidth 64
  else if n = 0x19 then c.sp.fpc
  else if n = 0x1A then c.sp.fslot.setWidth 64
  else if n = 0x1B then c.sp.fval
  else if n = 0x20 then c.sp.fmtt.extractLsb' (64 * p) 64
  else if n = 0x21 then c.sp.ssthr.setWidth 64
  else if n = 0x22 then c.lct
  else if n = 0x23 then s.feat.setWidth 64
  else if n = 0x24 then (dieGet s (dieOf c.id)).mrhash
  else if n = 0x28 then semWord c
  else if n = 0x29 then c.kttReg
  else if n = 0x2A then c.sp.wsig.extractLsb' (64 * p) 64
  else if h : n - 0x30 < 4 then (c.a.lc.get ⟨n - 0x30, h⟩).setWidth 64
  else 0

/-- The registers a tile task may write (R219). -/
def sregRW (n : Nat) : Bool :=
  n == 0x10 || n == 0x11 || n == 0x12 || n == 0x14 || n == 0x20 || n == 0x21 || (0x30 ≤ n && n ≤ 0x33)

end Sys2Proof.Machine
end

