-- ==== Sys2Proof/Machine/Operands.lean ====
section
/-! DEFINITION. Operands: guards (R227, R252), sources and destinations of every kind (R102, R206 to R208, R250,
R254), and the streams they read and write (R303 to R307). -/

namespace Sys2Proof.Machine

/-! ## Guards -/

/-- The guard predicate as it stands at issue, inverted when the negate bit is set. -/
def guardBits (s : State) (g : Guard) : Pred :=
  let p := getP s.core.a (physP s.core.a.prb g.p)
  if g.neg then ~~~p else p
/-- A guard on the whole operation: bit 0 (R227, R252). -/
def guardOn (s : State) (g : Guard) : Bool := (guardBits s g).getLsbD 0

/-! ## Streams -/

def qElemBytes (d : QDesc) : Nat := 32 * 2 ^ bitsOf d.ctl.toNat 1 0
def qLevel (d : QDesc) : Nat := bitsOf d.ctl.toNat 4 3
def qOut (d : QDesc) : Bool := d.ctl.getLsbD 2
def qBuf (d : QDesc) : Fin 16 := (d.ctl.extractLsb' 8 4).toFin
def qLease (d : QDesc) : Option (Fin 8) := if d.ctl.getLsbD 15 then some (d.ctl.extractLsb' 12 3).toFin else none
def qExt (d : QDesc) (i : Fin 4) : Nat := (d.ext.get i).toNat
/-- C of R304. -/
def qCount (d : QDesc) : Nat := qExt d 0 * qExt d 1 * qExt d 2 * qExt d 3
/-- The address of element `j` (R304), exact. -/
def qAddr (d : QDesc) (j : Nat) : Int :=
  let e0 := qExt d 0
  let e1 := qExt d 1
  let e2 := qExt d 2
  (d.base.toNat : Int) + (j % e0 : Nat) * (d.stride.get 0).toInt + (j / e0 % e1 : Nat) * (d.stride.get 1).toInt
    + (j / (e0 * e1) % e2 : Nat) * (d.stride.get 2).toInt + (j / (e0 * e1 * e2) : Nat) * (d.stride.get 3).toInt

/-- The lease class of an access of a mapped range: the one it names, or the mapping's (R192, R193). -/
def mapCls (m : SMapping) (l : Option (Fin 8)) : Option (Fin 8) := m.cls.map fun d => l.getD d
/-- A byte of the core's scratchpad window as it stands now, stash included; an absent stash line is filled (R161). `l` is the
lease class that the access names. -/
def spadReadAs (l : Option (Fin 8)) (s : State) (off : Nat) : Byte × State :=
  match mapOfOff s.core.maps off with
  | none => (Mem.get s.spad (spadAddr s.core.id off), s)
  | some m =>
    let a := m.key + (off - m.off)
    let cls := mapCls m l
    match ownByte s.core s.tick cls a with
    | some b => (b, s)
    | none =>
      let s1 := fillLine s (lineKey a) cls
      ((ownByte s1.core s1.tick cls a).getD (lineByte (l2Read s1 s1.core.lct (clusterOf s1.core.id) (lineKey a) cls)
        (a % 64)), s1)
def spadRead (s : State) (off : Nat) : Byte × State := spadReadAs none s off

def spadReadAsN (l : Option (Fin 8)) (s : State) (off : Nat) : Nat → List Byte × State
  | 0 => ([], s)
  | n + 1 =>
    let r := spadReadAs l s off
    let r2 := spadReadAsN l r.2 (off + 1) n
    (r.1 :: r2.1, r2.2)
def spadReadN (s : State) (off n : Nat) : List Byte × State := spadReadAsN none s off n

/-- A store of one byte to the core's scratchpad window (R290); it raises the watermark (R417). -/
def spadWrite (s : State) (off : Nat) (b : Byte) : State :=
  match mapOfOff s.core.maps off with
  | none => { s with
      spad := Mem.put s.spad (spadAddr s.core.id off) b
      core := { s.core with wmark := max s.core.wmark (off + 1) } }
  | some m =>
    let a := m.key + (off - m.off)
    addLineSig (lineKey a) (s.mapCore fun c => storeByte c a b)

def spadWriteN (s : State) (off : Nat) : List Byte → State
  | [] => s
  | b :: r => spadWriteN (spadWrite s off b) (off + 1) r

/-- The error a line the core must fill meets: its home's, or that of a fill whose link failed (R285, R467, R471). -/
def lineErr (s : State) (key : Nat) : Option Byte :=
  match (s.core.fills.find? fun f => f.key == key && f.err.isSome).bind (·.err) with
  | some e => some e
  | none => homeErr s key
/-- The global byte and class of a scratchpad byte in a stash line that the core has no copy of for the access. -/
def stashLack (s : State) (l : Option (Fin 8)) (off : Nat) : Option (Nat × Option (Fin 8)) :=
  match mapOfOff s.core.maps off with
  | some m =>
    let a := m.key + (off - m.off)
    if (ownByte s.core s.tick (mapCls m l) a).isSome then none else some (a, mapCls m l)
  | none => none
/-- The error a read of scratchpad bytes meets in a stash line that must be filled (R285, R430). -/
def spadErrAs (l : Option (Fin 8)) (s : State) (off n : Nat) : Option Byte :=
  (List.range n).findSome? fun i => (stashLack s l (off + i)).bind fun x => lineErr s (lineKey x.1)
def spadErr (s : State) (off n : Nat) : Option Byte := spadErrAs none s off n
/-- The transfer unit reads element `j` of a stream (R306). Level 10 reads the L2 under R283; the
line is pinned while the element is buffered (`pinnedLine`). An error it meets is recorded against the element, as a check
that fails is, and is raised at the slot that pops it: log entry 45. -/
def fetchElem (s : State) (d : QDesc) (j : Nat) : QIn × State :=
  let n := qElemBytes d
  let ea := qAddr d j
  if qLevel d = 2 then
    match checkGlob s.core.ktt ea n n .rd with
    | .error c => (⟨j, 0, some (c, BitVec.ofInt 64 ea), 0⟩, s)
    | .ok e =>
      let a := kttKey e ea.toNat
      let cls := classOf e (qLease d)
      let cl := clusterOf s.core.id
      let keys := (List.range ((n + 63) / 64)).map fun i => lineKey a + i
      match keys.findSome? (homeErr s) with
      | some c => (⟨j, 0, some (c, BitVec.ofInt 64 ea), 0⟩, s)
      | none =>
      let s1 := keys.foldl (fun s k => l2Fill s s.core.lct cl k cls) s
      let bytes := (List.range n).map fun i => lineByte (l2Read s1 s1.core.lct cl (lineKey (a + i)) cls) ((a + i) % 64)
      (⟨j, ofBytes 1024 bytes, none, lineKey a⟩, s1)
  else match spadErrAs (qLease d) s ea.toNat n with
    | some c => (⟨j, 0, some (c, BitVec.ofInt 64 ea), 0⟩, s)
    | none =>
      let r := spadReadAsN (qLease d) s ea.toNat n
      (⟨j, ofBytes 1024 r.1, none, 0⟩, r.2)

def setQ (k : Fin 8) (q : QState) (s : State) : State :=
  s.mapA fun a => { a with streams := a.streams.set k.val q k.isLt }
def getQ (s : State) (k : Fin 8) : QState := s.core.a.streams.get k

/-- Fetch the next element of an in stream into its buffer (R306): at most 16 ahead. One that an error keeps from moving is not
counted (R287). -/
def streamFill (k : Fin 8) (s : State) : State :=
  let q := getQ s k
  let r := fetchElem s q.desc (q.pos + q.inq.length)
  hotBytes (qBuf q.desc) (if r.1.flt.isNone then qElemBytes q.desc else 0) (setQ k { q with inq := q.inq ++ [r.1] } r.2)

/-- Take one element (R254), zero-extended to 1024 bits. An empty buffer is filled first. -/
def popStream (k : Fin 8) (s : State) : Vec × State :=
  let s1 := if (getQ s k).inq.isEmpty then streamFill k s else s
  let q := getQ s1 k
  match q.inq with
  | [] => (0, s1)
  | e :: r =>
    (e.data, setQ k { q with inq := r, pos := q.pos + 1 } s1)

/-- Take a push's place at issue (R254): in the stream, or in the Tadpole buffer with its own address inside a region
(R310, R378). Its element index. -/
def pushPlace (k : Fin 8) (s : State) : Nat × State :=
  let q := getQ s k
  let addr := (qAddr q.desc q.pos).toNat
  if regionOpen s.core then
    (q.pos, (setQ k { q with pos := q.pos + 1 } s).mapRgn fun r =>
      { r with held := r.held ++ [.push k q.pos addr (qElemBytes q.desc) (qBuf q.desc) none] })
  else (q.pos, setQ k { q with pos := q.pos + 1, outq := q.outq ++ [⟨q.pos, addr, none⟩] } s)

/-- Write the oldest pushed element that has its data (R306). A push into a stash mapping without write permission is written too:
R300 gives 0x07 to a store, and R255 lists no such trap for a push (DESIGN CHOICE, log entry 54). -/
def streamWriteHead (k : Fin 8) (s : State) : State :=
  let q := getQ s k
  match q.outq with
  | ⟨i, a, some x⟩ :: r =>
    let n := qElemBytes q.desc
    let s1 := spadWriteN s a (toBytes n x)
    let s2 := setQ k { q with outq := r } s1
    hotBytes (qBuf q.desc) n (s2.mapRgn fun g => { g with shadow := g.shadow.map fun (sa : Arch) =>
      let sq := sa.streams.get k
      { sa with streams := sa.streams.set k.val { sq with outq := sq.outq.filter (·.idx != i) } k.isLt } })
  | _ => s

/-! ## Sources -/

/-- A latch: word j ≥ 2 of a substitute sequence reads its own slot's latch from the chain (R460). -/
def latchOf (s : State) (k : Fin 8) : Vec :=
  match s.core.chain with
  | some x => if k = s.core.slot then x else s.core.a.y.get k
  | none => s.core.a.y.get k

def readS (s : State) : Src 64 → Word
  | .reg i => getS s.core.a i
  | .latch k => (latchOf s k).setWidth 64
  | .nbr k => (s.core.ny.get k).setWidth 64
  | .stream _ => 0

def readP (s : State) : Src 16 → Pred
  | .reg i => getP s.core.a (physP s.core.a.prb i)
  | .latch k => (latchOf s k).setWidth 32
  | .nbr k => (s.core.ny.get k).setWidth 32
  | .stream _ => 0

/-- A vector source; a stream source takes one element. -/
def readV (s : State) : Src 128 → Vec × State
  | .reg i => (getV s.core.a (physV s.core.a.vrb i), s)
  | .latch k => (latchOf s k, s)
  | .nbr k => (s.core.ny.get k, s)
  | .stream k => popStream k s

/-! ## Destinations -/

/-- Put a scalar result in flight: it lands at the end of the `lat`-th step, counting this one (R202, R207). -/
def emitS (lat : Nat) (d : Dst 64) (x : Word) (fl : BitVec 6) (s : State) : State :=
  let f (dst : FDest) (latch : Bool) : Flight :=
    ⟨s.core.slot, dst, x.setWidth 1024, BitVec.allOnes 32, fl, lat, latch, regionOpen s.core⟩
  match d with
  | .reg i => schedule (f (.s i) true) s
  | .latch => schedule (f .latchOnly true) s
  | _ => schedule (f .flagsOnly false) s

/-- A predicate result; lanes outside `mask` keep the register's bits and read 0 in the latch. -/
def emitP (lat : Nat) (d : Dst 16) (mask : BitVec 32) (x : Pred) (fl : BitVec 6) (s : State) : State :=
  let f (dst : FDest) (latch : Bool) : Flight :=
    ⟨s.core.slot, dst, (x &&& mask).setWidth 1024, mask, fl, lat, latch, regionOpen s.core⟩
  match d with
  | .reg i => schedule (f (.p (physP s.core.a.prb i)) true) s
  | .latch => schedule (f .latchOnly true) s
  | _ => schedule (f .flagsOnly false) s

/-- A vector result; lanes outside `mask` keep the register's and read 0 in the latch (R207). With every lane off nothing is
pushed to a stream: such an operation writes nothing (R64; log entry 12). -/
def emitV (lat : Nat) (d : Dst 128) (mask : BitVec 32) (x : Vec) (fl : BitVec 6) (s : State) : State :=
  let f (s : State) (dst : FDest) (latch : Bool) : Flight :=
    ⟨s.core.slot, dst, x &&& laneMask mask, mask, fl, lat, latch, regionOpen s.core⟩
  match d with
  | .reg i => schedule (f s (.v (physV s.core.a.vrb i)) true) s
  | .latch => schedule (f s .latchOnly true) s
  | .stream k =>
    if mask == 0 then schedule (f s .latchOnly true) s
    else
    let r := pushPlace k s
    schedule (f r.2 (.stream k r.1) true) r.2
  | .null => schedule (f s .flagsOnly false) s

/-- An effect of latency 1 on other state, which writes no latch (R203). -/
def emitX (dst : FDest) (x : Vec) (s : State) : State :=
  schedule ⟨s.core.slot, dst, x, BitVec.allOnes 32, 0, 1, false, regionOpen s.core⟩ s

/-- A whole-operation guard: a disabled operation does nothing (R227, R252). -/
def whenOn (g : Guard) (f : State → State) (s : State) : Host.Outcome State Fault Refusal :=
  .next (if guardOn s g then f s else s)

end Sys2Proof.Machine
end

