-- ==== Sys2Proof/Machine/Vector.lean ====
section
/-! DEFINITION. Vector integer instructions of slots 5 and 6 (R263 to R267). The guard is per lane (R252); every source
element is read whole. -/

namespace Sys2Proof.Machine

/-- A vector operation of one, two or three vector sources, read in the order A, B, C (R254), from whose bit patterns
`f` makes the result with its flags. -/
def vec1 (lat : Nat) (g : Guard) (d : Dst 128) (a : Src 128) (f : BitVec 32 → Vec → Vec × BitVec 6) (s : State) :
    Host.Outcome State Fault Refusal :=
  let mask := guardBits s g
  let ra := readV s a
  let r := f mask ra.1
  .next (emitV lat d mask r.1 r.2 ra.2)
def vec2 (lat : Nat) (g : Guard) (d : Dst 128) (a b : Src 128) (f : BitVec 32 → Vec → Vec → Vec × BitVec 6)
    (s : State) : Host.Outcome State Fault Refusal :=
  let mask := guardBits s g
  let ra := readV s a
  let rb := readV ra.2 b
  let r := f mask ra.1 rb.1
  .next (emitV lat d mask r.1 r.2 rb.2)
def vec3 (lat : Nat) (g : Guard) (d : Dst 128) (a b c : Src 128) (f : BitVec 32 → Vec → Vec → Vec → Vec × BitVec 6)
    (s : State) : Host.Outcome State Fault Refusal :=
  let mask := guardBits s g
  let ra := readV s a
  let rb := readV ra.2 b
  let rc := readV rb.2 c
  let r := f mask ra.1 rb.1 rc.1
  .next (emitV lat d mask r.1 r.2 rc.2)

/-- Element by element, on exact integers read by the type (R264). -/
def int1 (ty : ITy) (f : Int → Int) (_ : BitVec 32) (a : Vec) : Vec × BitVec 6 :=
  (mapElems ty.width fun e => wrapI ty.width (f (readI ty.signed (elem ty.width a e))), 0)
def int2 (ty : ITy) (f : Int → Int → Int) (_ : BitVec 32) (a b : Vec) : Vec × BitVec 6 :=
  (mapElems ty.width fun e =>
    wrapI ty.width (f (readI ty.signed (elem ty.width a e)) (readI ty.signed (elem ty.width b e))), 0)
def int3 (ty : ITy) (f : Int → Int → Int → Int) (_ : BitVec 32) (a b c : Vec) : Vec × BitVec 6 :=
  (mapElems ty.width fun e => wrapI ty.width (f (readI ty.signed (elem ty.width a e))
    (readI ty.signed (elem ty.width b e)) (readI ty.signed (elem ty.width c e))), 0)
/-- Saturating forms set SAT when the value changes (R264, R128). -/
def sat2 (ty : ITy) (f : Int → Int → Int) (mask : BitVec 32) (a b : Vec) : Vec × BitVec 6 :=
  mapElemsF ty.width mask fun e =>
    let r := satI ty.width ty.signed (f (readI ty.signed (elem ty.width a e)) (readI ty.signed (elem ty.width b e)))
    (r.1, if r.2 then fSAT else 0)
/-- Shifts take y modulo w. -/
def shft (ty : ITy) (f : {w : Nat} → BitVec w → Nat → BitVec w) (_ : BitVec 32) (a b : Vec) : Vec × BitVec 6 :=
  (mapElems ty.width fun e => f (elem ty.width a e) ((elem ty.width b e).toNat % ty.width), 0)

def execVadd (x : V2) (s : State) : Host.Outcome State Fault Refusal :=
  vec2 2 x.g x.d x.a x.b (int2 x.ty (· + ·)) s
def execVsub (x : V2) (s : State) : Host.Outcome State Fault Refusal :=
  vec2 2 x.g x.d x.a x.b (int2 x.ty (· - ·)) s
def execVmul (x : V2) (s : State) : Host.Outcome State Fault Refusal :=
  vec2 3 x.g x.d x.a x.b (int2 x.ty (· * ·)) s
def execVmulh (x : V2) (s : State) : Host.Outcome State Fault Refusal :=
  vec2 3 x.g x.d x.a x.b (int2 x.ty fun a b => a * b / 2 ^ x.ty.width) s
def execVmad (x : V3) (s : State) : Host.Outcome State Fault Refusal :=
  vec3 3 x.g x.d x.a x.b x.c (int3 x.ty fun a b c => a * b + c) s
def execVadds (x : V2) (s : State) : Host.Outcome State Fault Refusal :=
  vec2 2 x.g x.d x.a x.b (sat2 x.ty (· + ·)) s
def execVsubs (x : V2) (s : State) : Host.Outcome State Fault Refusal :=
  vec2 2 x.g x.d x.a x.b (sat2 x.ty (· - ·)) s
def execVmin (x : V2) (s : State) : Host.Outcome State Fault Refusal :=
  vec2 2 x.g x.d x.a x.b (int2 x.ty fun a b => min a b) s
def execVmax (x : V2) (s : State) : Host.Outcome State Fault Refusal :=
  vec2 2 x.g x.d x.a x.b (int2 x.ty fun a b => max a b) s
def execVabs (x : V1) (s : State) : Host.Outcome State Fault Refusal :=
  vec1 2 x.g x.d x.a (int1 x.ty fun a => a.natAbs) s
def execVneg (x : V1) (s : State) : Host.Outcome State Fault Refusal :=
  vec1 2 x.g x.d x.a (int1 x.ty fun a => -a) s
def execVand (x : V2) (s : State) : Host.Outcome State Fault Refusal :=
  vec2 2 x.g x.d x.a x.b (fun _ a b => (a &&& b, 0)) s
def execVor (x : V2) (s : State) : Host.Outcome State Fault Refusal :=
  vec2 2 x.g x.d x.a x.b (fun _ a b => (a ||| b, 0)) s
def execVxor (x : V2) (s : State) : Host.Outcome State Fault Refusal :=
  vec2 2 x.g x.d x.a x.b (fun _ a b => (a ^^^ b, 0)) s
def execVandn (x : V2) (s : State) : Host.Outcome State Fault Refusal :=
  vec2 2 x.g x.d x.a x.b (fun _ a b => (a &&& ~~~b, 0)) s
def execVshl (x : V2) (s : State) : Host.Outcome State Fault Refusal :=
  vec2 2 x.g x.d x.a x.b (shft x.ty fun a h => a <<< h) s
/-- VSHR is logical for an n type and arithmetic for an i type. -/
def execVshr (x : V2) (s : State) : Host.Outcome State Fault Refusal :=
  vec2 2 x.g x.d x.a x.b (shft x.ty fun a h => if x.ty.signed then a.sshiftRight h else a >>> h) s
def execVsra (x : V2) (s : State) : Host.Outcome State Fault Refusal :=
  vec2 2 x.g x.d x.a x.b (shft x.ty fun a h => a.sshiftRight h) s
/-- VSEL: x when bit lane(e) of pC is 1, else y. -/
def execVsel (x : V2) (c : Src 16) (s : State) : Host.Outcome State Fault Refusal :=
  vec2 2 x.g x.d x.a x.b (fun _ a b => (blend (laneMask (readP s c)) a b, 0)) s

/-- A compare's predicate: a lane's bit is 1 when every element of the lane satisfies it (R265, R272). -/
def laneAll (w : Nat) (f : Nat → Bool) : Pred :=
  bits32 fun i => (List.range (32 / w)).all fun j => f (i * (32 / w) + j)
def execVcmp (cc : CC) (g : Guard) (ty : ITy) (d : Dst 16) (a b : Src 128) (s : State) :
    Host.Outcome State Fault Refusal :=
  let mask := guardBits s g
  let ra := readV s a
  let rb := readV ra.2 b
  .next (emitP 2 d mask
    (laneAll ty.width fun e => ccHolds cc ty.signed (elem ty.width ra.1 e) (elem ty.width rb.1 e)) 0 rb.2)

/-! ## Permutes (R266) -/

def execVbcast (x : VS) (s : State) : Host.Outcome State Fault Refusal :=
  .next (emitV 2 x.d (guardBits s x.g) (mapElems x.ty.width fun _ => (readS s x.a).setWidth x.ty.width) 0 s)
def execViota (x : VS) (s : State) : Host.Outcome State Fault Refusal :=
  .next (emitV 2 x.d (guardBits s x.g)
    (mapElems x.ty.width fun e => (readS s x.a).setWidth x.ty.width + BitVec.ofNat x.ty.width e) 0 s)
/-- An element widened to a scalar: sign-extended for an i type, zero-extended for an n type. -/
def widen (ty : ITy) (x : BitVec ty.width) : Word := if ty.signed then x.signExtend 64 else x.setWidth 64
def execVextr (g : Guard) (ty : ITy) (d : Dst 64) (a : Src 128) (b : Src 64) (s : State) :
    Host.Outcome State Fault Refusal :=
  whenOn g (fun s =>
    let ra := readV s a
    emitS 4 d (widen ty (elem ty.width ra.1 ((readS s b).toNat % nElems ty.width))) 0 ra.2) s
def execVins (g : Guard) (ty : ITy) (d : Dst 128) (a : Src 128) (b c : Src 64) (s : State) :
    Host.Outcome State Fault Refusal :=
  vec1 4 g d a (fun _ x => (mapElems ty.width fun e =>
    if e = (readS s c).toNat % nElems ty.width then (readS s b).setWidth ty.width else elem ty.width x e, 0)) s
def execVperm (x : V2) (s : State) : Host.Outcome State Fault Refusal :=
  vec2 4 x.g x.d x.a x.b (fun _ a b => (mapElems x.ty.width fun e =>
    elem x.ty.width a ((elem x.ty.width b e).toNat % nElems x.ty.width), 0)) s
def execVslide (x : V2) (c : Src 64) (s : State) : Host.Outcome State Fault Refusal :=
  let n := nElems x.ty.width
  let k := (readS s c).toNat % n
  vec2 4 x.g x.d x.a x.b (fun _ a b => (mapElems x.ty.width fun e =>
    if e + k < n then elem x.ty.width a (e + k) else elem x.ty.width b (e + k - n), 0)) s
def execVzip (x : V2) (s : State) : Host.Outcome State Fault Refusal :=
  vec2 4 x.g x.d x.a x.b (fun _ a b => (mapElems x.ty.width fun e =>
    if e % 2 = 0 then elem x.ty.width a (e / 2) else elem x.ty.width b (e / 2), 0)) s
def execVunzip (x : V2) (s : State) : Host.Outcome State Fault Refusal :=
  let h := nElems x.ty.width / 2
  vec2 4 x.g x.d x.a x.b (fun _ a b => (mapElems x.ty.width fun e =>
    if e < h then elem x.ty.width a (2 * e) else elem x.ty.width b (2 * (e - h)), 0)) s

/-! ## Reductions and scans (R151, R267) -/

/-- One level of the pairwise tree: the present one where one is absent. -/
def treeLevel {α : Type} (op : α → α → α) : List (Option α) → List (Option α)
  | a :: b :: r => (match a, b with
    | some x, some y => some (op x y)
    | some x, none => some x
    | none, y => y) :: treeLevel op r
  | l => l
/-- The tree of R151, with as many levels as `n` counts. -/
def tree {α : Type} (op : α → α → α) : Nat → List (Option α) → Option α
  | 0, l => (l.head?).join
  | n + 1, l => tree op n (treeLevel op l)

/-- An integer reduction's operation, with the type's signedness. -/
def redOp (op : RedOp) (ty : ITy) (a b : BitVec ty.width) : BitVec ty.width :=
  let sg := ty.signed
  match op with
  | .add => a + b
  | .min => if readI sg a ≤ readI sg b then a else b
  | .max => if readI sg b ≤ readI sg a then a else b
  | .and => a &&& b
  | .or => a ||| b
  | .xor => a ^^^ b
/-- The identities of R151. -/
def redId (op : RedOp) (ty : ITy) : BitVec ty.width :=
  match op with
  | .add | .or | .xor => 0
  | .and => BitVec.allOnes ty.width
  | .min => if ty.signed then BitVec.ofNat ty.width (2 ^ (ty.width - 1) - 1) else BitVec.allOnes ty.width
  | .max => if ty.signed then BitVec.ofNat ty.width (2 ^ (ty.width - 1)) else 0
/-- The active elements: those whose lane is enabled. -/
def actives (w : Nat) (mask : BitVec 32) (x : Vec) : List (Option (BitVec w)) :=
  (List.range (nElems w)).map fun e => if mask.getLsbD (laneOf w e) then some (elem w x e) else none

def execVred (op : RedOp) (g : Guard) (ty : ITy) (d : Dst 64) (a : Src 128) (s : State) :
    Host.Outcome State Fault Refusal :=
  let mask := guardBits s g
  let ra := readV s a
  .next (emitS 5 d (widen ty ((tree (redOp op ty) 7 (actives ty.width mask ra.1)).getD (redId op ty))) 0 ra.2)

/-- Running values over the active elements. -/
def scanGo {w : Nat} (op : BitVec w → BitVec w → BitVec w) (acc : BitVec w) : List (Option (BitVec w)) → List (BitVec w)
  | [] => []
  | none :: r => acc :: scanGo op acc r
  | some x :: r => op acc x :: scanGo op (op acc x) r
def execVscan (op : RedOp) (x : V1) (s : State) : Host.Outcome State Fault Refusal :=
  vec1 5 x.g x.d x.a (fun mask a =>
    (ofElems (scanGo (redOp op x.ty) (redId op x.ty) (actives x.ty.width mask a)), 0)) s

end Sys2Proof.Machine
end

