-- ==== Sys2Proof/Machine/VFloat.lean ====
section
/-! DEFINITION. Vector floating-point instructions (R268 to R274), element by element with one rounding each, per-lane
guards, and the flags of enabled lanes alone (R255). -/

namespace Sys2Proof.Machine

def fwidth (ty : FTy) : Nat := (FTy.fmt ty).width
/-- Element `e` as a number's bit pattern. -/
def felem (ty : FTy) (x : Vec) (e : Nat) : Nat := (elem (fwidth ty) x e).toNat
def fval (ty : FTy) (x : Vec) (e : Nat) : FVal := decodeF (FTy.fmt ty) (felem ty x e)
def ofRes (w : Nat) (r : Nat × BitVec 6) : BitVec w × BitVec 6 := (BitVec.ofNat w r.1, r.2)

def flt1 (ty : FTy) (f : FVal → Nat × BitVec 6) (mask : BitVec 32) (a : Vec) : Vec × BitVec 6 :=
  mapElemsF (fwidth ty) mask fun e => ofRes (fwidth ty) (f (fval ty a e))
def flt2 (ty : FTy) (f : FVal → FVal → Nat × BitVec 6) (mask : BitVec 32) (a b : Vec) : Vec × BitVec 6 :=
  mapElemsF (fwidth ty) mask fun e => ofRes (fwidth ty) (f (fval ty a e) (fval ty b e))
def flt3 (ty : FTy) (f : FVal → FVal → FVal → Nat × BitVec 6) (mask : BitVec 32) (a b c : Vec) : Vec × BitVec 6 :=
  mapElemsF (fwidth ty) mask fun e => ofRes (fwidth ty) (f (fval ty a e) (fval ty b e) (fval ty c e))

def execVfadd (x : F2) (s : State) : Host.Outcome State Fault Refusal :=
  vec2 4 x.g x.d x.a x.b (flt2 x.ty fun a b => addF (FTy.fmt x.ty) x.rm a b) s
def execVfsub (x : F2) (s : State) : Host.Outcome State Fault Refusal :=
  vec2 4 x.g x.d x.a x.b (flt2 x.ty fun a b => addF (FTy.fmt x.ty) x.rm a b.negate) s
def execVfmul (x : F2) (s : State) : Host.Outcome State Fault Refusal :=
  vec2 4 x.g x.d x.a x.b (flt2 x.ty fun a b => mulF (FTy.fmt x.ty) x.rm a b) s
def execVfma (x : F3) (s : State) : Host.Outcome State Fault Refusal :=
  vec3 4 x.g x.d x.a x.b x.c (flt3 x.ty fun a b c => fmaF (FTy.fmt x.ty) x.rm a b c) s
def execVfms (x : F3) (s : State) : Host.Outcome State Fault Refusal :=
  vec3 4 x.g x.d x.a x.b x.c (flt3 x.ty fun a b c => fmaF (FTy.fmt x.ty) x.rm a b c.negate) s
def execVfnma (x : F3) (s : State) : Host.Outcome State Fault Refusal :=
  vec3 4 x.g x.d x.a x.b x.c (flt3 x.ty fun a b c => fmaF (FTy.fmt x.ty) x.rm a.negate b c) s
def execVfmin (x : F2) (s : State) : Host.Outcome State Fault Refusal :=
  vec2 4 x.g x.d x.a x.b (fun mask a b => mapElemsF (fwidth x.ty) mask fun e =>
    ofRes (fwidth x.ty) (minmaxF (FTy.fmt x.ty) true (felem x.ty a e) (felem x.ty b e))) s
def execVfmax (x : F2) (s : State) : Host.Outcome State Fault Refusal :=
  vec2 4 x.g x.d x.a x.b (fun mask a b => mapElemsF (fwidth x.ty) mask fun e =>
    ofRes (fwidth x.ty) (minmaxF (FTy.fmt x.ty) false (felem x.ty a e) (felem x.ty b e))) s
/-- VFABS and VFNEG change the sign bit; a NaN gives the canonical NaN (R271). -/
def signOp (F : Fmt) (abs : Bool) (x : Nat) : Nat × BitVec 6 :=
  match decodeF F x with
  | .nan s => (nanBits F, if s then fNV else 0)
  | v =>
    let mag := x % 2 ^ (F.eb + F.mb)
    (if abs || (v.neg) then mag else zeroBits F true + mag, 0)
def execVfabs (x : F1) (s : State) : Host.Outcome State Fault Refusal :=
  vec1 2 x.g x.d x.a (fun mask a => mapElemsF (fwidth x.ty) mask fun e =>
    ofRes (fwidth x.ty) (signOp (FTy.fmt x.ty) true (felem x.ty a e))) s
def execVfneg (x : F1) (s : State) : Host.Outcome State Fault Refusal :=
  vec1 2 x.g x.d x.a (fun mask a => mapElemsF (fwidth x.ty) mask fun e =>
    ofRes (fwidth x.ty) (signOp (FTy.fmt x.ty) false (felem x.ty a e))) s
def execVfclass (x : F1) (s : State) : Host.Outcome State Fault Refusal :=
  vec1 2 x.g x.d x.a (fun _ a => (mapElems (fwidth x.ty) fun e =>
    BitVec.ofNat (fwidth x.ty) (2 ^ fclassBit (FTy.fmt x.ty) (fval x.ty a e)), 0)) s
/-- VFCMP: the predicate of R265, and the flags of enabled lanes (R272). -/
def execVfcmp (cc : FCC) (g : Guard) (ty : FTy) (d : Dst 16) (a b : Src 128) (s : State) :
    Host.Outcome State Fault Refusal :=
  let mask := guardBits s g
  let ra := readV s a
  let rb := readV ra.2 b
  let r (e : Nat) := fccHolds cc (fval ty ra.1 e) (fval ty rb.1 e)
  let fl := (mapElemsF (fwidth ty) mask fun e => ((0 : BitVec (fwidth ty)), (r e).2)).2
  .next (emitP 2 d mask (laneAll (fwidth ty) fun e => (r e).1) fl rb.2)
def execVfrcp (x : F1) (s : State) : Host.Outcome State Fault Refusal :=
  vec1 6 x.g x.d x.a (flt1 x.ty (rcpF (FTy.fmt x.ty) x.rm)) s
def execVfrsq (x : F1) (s : State) : Host.Outcome State Fault Refusal :=
  vec1 6 x.g x.d x.a (flt1 x.ty (rsqF (FTy.fmt x.ty) x.rm)) s
def execVfsqrt (x : F1) (s : State) : Host.Outcome State Fault Refusal :=
  vec1 6 x.g x.d x.a (flt1 x.ty (sqrtF (FTy.fmt x.ty) x.rm)) s
/-- The FP16 and BF16 forms round the FP32 result once more, with both steps' flags (R156). -/
def viaF32 (ty : FTy) (f : FVal → Nat × BitVec 6) (v : FVal) : Nat × BitVec 6 :=
  let r := f v
  match ty with
  | .f32 => r
  | _ =>
    let q := roundF (FTy.fmt ty) .rne (decodeF f32F r.1)
    (q.1, r.2 ||| q.2)
def execVexp2 (x : F1) (s : State) : Host.Outcome State Fault Refusal :=
  vec1 6 x.g x.d x.a (flt1 x.ty (viaF32 x.ty exp2F)) s
def execVlog2 (x : F1) (s : State) : Host.Outcome State Fault Refusal :=
  vec1 6 x.g x.d x.a (flt1 x.ty (viaF32 x.ty log2F)) s

/-- One node of a floating reduction, with the flags so far (R151, R270, R274). -/
def fredNode (F : Fmt) (op : RedOp) (rm : Rnd) (a b : Nat × BitVec 6) : Nat × BitVec 6 :=
  let r := match op with
    | .min => minmaxF F true a.1 b.1
    | .max => minmaxF F false a.1 b.1
    | _ => addF F rm (decodeF F a.1) (decodeF F b.1)
  (r.1, a.2 ||| b.2 ||| r.2)
def fredId (F : Fmt) : RedOp → Nat
  | .min => infBits F false
  | .max => infBits F true
  | _ => 0
/-- A NaN result is canonical (R130), a lone passed-through element included. -/
def canonF (F : Fmt) (x : Nat) : Nat := if (decodeF F x).isNan then nanBits F else x
def execVfred (op : RedOp) (g : Guard) (ty : FTy) (rm : Rnd) (d : Dst 64) (a : Src 128) (s : State) :
    Host.Outcome State Fault Refusal :=
  let mask := guardBits s g
  let ra := readV s a
  let l := (actives (fwidth ty) mask ra.1).map fun o => o.map fun x => (x.toNat, (0 : BitVec 6))
  let r := (tree (fredNode (FTy.fmt ty) op rm) 7 l).getD (fredId (FTy.fmt ty) op, 0)
  -- a signalling NaN operand sets NV, one that passes through alone included (R130)
  let nv := if l.any fun o => (o.map fun x => (decodeF (FTy.fmt ty) x.1).isSNan).getD false then fNV else 0
  .next (emitS 5 d (BitVec.ofNat 64 (canonF (FTy.fmt ty) r.1)) (r.2 ||| nv) ra.2)

end Sys2Proof.Machine
end

