-- ==== Sys2Proof/Machine/Convert.lean ====
section
/-! DEFINITION. Conversions, packing, delayed scaling and MX blocks (R275 to R281). -/

namespace Sys2Proof.Machine

/-- Element `e` of a pattern of width `w`. -/
def xelem (w : Nat) (x : Vec) (e : Nat) : Nat := (elem w x e).toNat

/-- VCVT (R277): widening takes part `PART` of the source, narrowing fills part `PART` of the result. -/
def execVcvt (x : CV) (s : State) : Host.Outcome State Fault Refusal :=
  let ws := x.sty.width
  let wt := x.tt.width
  vec1 3 x.g x.d x.a (fun mask a => mapElemsF wt mask fun e =>
    if ws ≤ wt then ofRes wt (convX x.sty x.tt x.crm x.wrp x.iee (xelem ws a (x.part.val * (1024 / wt) + e)))
    else
      let ns := 1024 / ws
      if x.part.val * ns ≤ e ∧ e < (x.part.val + 1) * ns then
        ofRes wt (convX x.sty x.tt x.crm x.wrp x.iee (xelem ws a (e - x.part.val * ns)))
      else (0, 0)) s

/-- The layout of a quantised block (R280). -/
def quantVec (F : MXF) (q : Byte × List (BitVec 8) × BitVec 6) (k : Int) : Vec :=
  mxPack F q.2.1 ||| (q.1.setWidth 1024 <<< 960) ||| ((BitVec.ofInt 8 k).setWidth 1024 <<< 968)
/-- Quantise 32 FP32 elements with a prescale exponent. -/
def quantTo (F : MXF) (k : Int) (crm : Rnd) (d : Dst 128) (a : Src 128) (s : State) : State :=
  let ra := readV s a
  let q := quantMX ((List.range 32).map fun e => fval .f32 ra.1 e) F k crm
  emitV 5 d (BitVec.allOnes 32) (quantVec F q k) q.2.2 ra.2
def execVquant (d : Dst 128) (a : Src 128) (f : MXF) (nr : Bool) (ring : Fin 16) (crm : Rnd) (s : State) :
    Host.Outcome State Fault Refusal :=
  .next (quantTo f (if nr then 0 else prescale f (s.core.a.rings.get ring)) crm d a s)
/-- The .f form takes format, ring and prescale from one side of the %fmtt entry of lcK; an invalid entry raises 0x01
(R147). -/
def execVquantF (d : Dst 128) (a : Src 128) (side : Bool) (k : Fin 4) (crm : Rnd) (s : State) :
    Host.Outcome State Fault Refusal :=
  match fmttEntry s.feat s.core.sp.fmtt (s.core.a.lc.get k) with
  | none => .next (trapHere 0x01 (((encode (.vquantF d a side k crm)).getD 0).setWidth 64) s)
  | some e =>
    let f := if side then e.bf else e.af
    let nr := if side then e.bnr else e.anr
    let ring := if side then e.bring else e.aring
    .next (quantTo f (if nr then 0 else prescale f (s.core.a.rings.get ring)) crm d a s)

/-- VDEQ removes scale and prescale; a scale of 0xFF gives NaN and NV (R281). -/
def execVdeq (g : Guard) (d : Dst 128) (a : Src 128) (f : MXF) (crm : Rnd) (s : State) :
    Host.Outcome State Fault Refusal :=
  vec1 3 g d a (fun mask x =>
    let sc := (elem 8 x 120).toNat
    let k := (elem 8 x 121).toInt
    if sc = 0xFF then (mapElems 32 fun _ => BitVec.ofNat 32 0x7FC00000, if mask == 0 then 0 else fNV)
    else mapElemsF 32 mask fun e =>
      let q := mxElem f x e
      ofRes 32 (roundF f32F crm (.fin (decide (q < 0)) q.natAbs ((sc : Int) - 127 - MXF.f f - k)))) s

/-- The largest magnitude among active elements that are not NaN, as FP32 (R143, R279). -/
def amaxOf (ty : FTy) (mask : BitVec 32) (x : Vec) : FVal :=
  (actives (fwidth ty) mask x).foldl (fun acc o =>
    match o with
    | none => acc
    | some b =>
      match decodeF (FTy.fmt ty) b.toNat with
      | .nan _ => acc
      | .inf _ => .inf false
      | .fin _ m e => if cmpX acc (.fin false m e) == .lt then .fin false m e else acc) (.fin false 0 0)
/-- VAMAX writes no register, no latch and no flag; the push takes effect at the end of the fifth step. -/
def execVamax (g : Guard) (ty : FTy) (a : Src 128) (ring : Fin 16) (s : State) : Host.Outcome State Fault Refusal :=
  let ra := readV s a
  let m := (roundF f32F .rne (amaxOf ty (guardBits s g) ra.1)).1
  .next (schedule ⟨s.core.slot, .ringPush ring, BitVec.ofNat 1024 m, 0, 0, 5, false, regionOpen s.core⟩ ra.2)
/-- VAMAX.c clears the ring. A guard that turns every lane off suppresses it (R64); of others it selects no element: log
entry 12. -/
def execVamaxC (g : Guard) (ring : Fin 16) (s : State) : Host.Outcome State Fault Refusal :=
  .next (if guardBits s g == 0 then s
    else schedule ⟨s.core.slot, .ringClear ring, 0, 0, 0, 5, false, regionOpen s.core⟩ s)

/-- VPACK narrows the elements of A then B to half their width (R278). -/
def execVpack (x : V2) (wrp : Bool) (s : State) : Host.Outcome State Fault Refusal :=
  let ws := x.ty.width
  let ns := 1024 / ws
  let h := ws / 2
  vec2 3 x.g x.d x.a x.b (fun mask a b => mapElemsF h mask fun e =>
    let v := readI x.ty.signed (if e < ns then elem ws a e else elem ws b (e - ns))
    if wrp then (wrapI h v, 0)
    else
      let r := satI h x.ty.signed v
      (r.1, if r.2 then fSAT else 0)) s
/-- VUNPACK widens half of A's elements to twice their width (R278). -/
def execVunpack (x : V1) (part : Bool) (s : State) : Host.Outcome State Fault Refusal :=
  let ws := x.ty.width
  vec1 3 x.g x.d x.a (fun _ a => (mapElems (2 * ws) fun e =>
    wrapI (2 * ws) (readI x.ty.signed (elem ws a ((if part then 512 / ws else 0) + e))), 0)) s

end Sys2Proof.Machine
end

