-- ==== Sys2Proof/Machine/Matrix.lean ====
section
/-! DEFINITION. Matrix operations of slot 7 (R324 to R332). They change the matrix state in the step they issue, are
guarded as a whole but for MDRAIN, and name no token. -/

namespace Sys2Proof.Machine

def mapMat (f : Matrix → Matrix) (s : State) : State := s.mapA fun a => { a with mat := f a.mat }

/-- 32 bytes of a source. -/
def row32 (x : Vec) (r : Nat) : BitVec 256 := x.extractLsb' (256 * r) 256
def byteAt (x : Vec) (i : Nat) : Byte := x.extractLsb' (8 * i) 8

/-- MPUSH (R328). -/
def mpushDo (pt : Fin 8) (x : Vec) (m : Matrix) : Matrix :=
  let sa := vecOf 16 fun i => byteAt x i.val
  let sb := vecOf 32 fun j => byteAt x (16 + j.val)
  match pt.val with
  | 4 => { m with sa := sa, sb := sb }
  | 5 => { m with sa := sa }
  | 6 => { m with sb := sb }
  | 7 => { m with bEdge := x }
  | n => { m with aEdge := vecOf 16 fun i => if i.val / 4 = n then row32 x (i.val % 4) else m.aEdge.get i }
def execMpush (g : Guard) (pt : Fin 8) (a : Src 128) (s : State) : Host.Outcome State Fault Refusal :=
  whenOn g (fun s =>
    let ra := readV s a
    mapMat (mpushDo pt ra.1) ra.2) s

/-- The sum one cell adds in a beat (R148, R329). -/
def beatSum (fa fb : MXF) (m : Matrix) (a : Option Vec) (b : Vec) (i : Fin 16) (j : Nat) : Int :=
  let d := pairDepth fa fb
  let c0 := (m.beat.val % (32 / d)) * d
  (List.range d).foldl (fun sum k =>
    let x := match a with
      | some v => mxElem fa v (d * i.val + k)
      | none => mxElem fa (m.aEdge.get i) (c0 + k)
    sum + x * mxElem fb b (32 * k + j)) 0

/-- One beat without a close. -/
def beatDo (fa fb : MXF) (a : Option Vec) (b : Vec) (m : Matrix) : Matrix :=
  { m with
    acc := vecOf 16 fun i => vecOf 32 fun j =>
      (m.acc.get i).get j + BitVec.ofInt 32 (beatSum fa fb m a b i j.val)
    beat := m.beat + 1
    opn := true }
/-- A block close into a bank, with its flags (R149). -/
def closeDo (e : Int) (bank : Fin 4) (m : Matrix) : Matrix × BitVec 6 :=
  let old := m.banks.get bank
  let r := vecOf 16 fun i => vecOf 32 fun j =>
    closeCell ((m.acc.get i).get j) (m.sa.get i) (m.sb.get j) e ((old.get i).get j)
  let fl := r.toList.foldl (fun f row => row.toList.foldl (fun f c => f ||| c.2) f) 0
  ({ m with
      banks := m.banks.set bank.val (vecOf 16 fun i => vecOf 32 fun j => ((r.get i).get j).1) bank.isLt
      acc := Vector.replicate 16 (Vector.replicate 32 0)
      beat := 0
      opn := false }, fl)

/-- The pair of a MACC: `XF` on both sides, or the %fmtt entry of lcK (R147, R329). -/
def maccPair (s : State) : MFmt → Option (MXF × MXF)
  | .xf f => some (f, f)
  | .ft k => (fmttEntry s.feat s.core.sp.fmtt (s.core.a.lc.get k)).map fun e => (e.af, e.bf)

/-- MACC (R329): its flags are ORed in its own step. -/
def execMacc (g : Guard) (bank : Fin 4) (cls : Bool) (f : MFmt) (a b : Option (Src 128)) (s : State) :
    Host.Outcome State Fault Refusal :=
  whenOn g (fun s =>
    match maccPair s f with
    | none => trapHere 0x01 (((encode (.macc g bank cls f a b)).getD 0).setWidth 64) s
    | some (fa, fb) =>
      let ra : Option Vec × State := match a with
        | some x => let r := readV s x; (some r.1, r.2)
        | none => (none, s)
      let rb : Vec × State := match b with
        | some x => readV ra.2 x
        | none => (ra.2.core.a.mat.bEdge, ra.2)
      let m := beatDo fa fb ra.1 rb.1 rb.2.core.a.mat
      let r := if cls then closeDo (pairExp fa fb) bank m else (m, 0)
      countEvt 4 1 (schedule ⟨s.core.slot, .flagsOnly, 0, 0, r.2, 1, false, regionOpen s.core⟩
        (mapMat (fun _ => r.1) rb.2))) s

/-- MSHIFT with `SK` 0 (R330). -/
def execMshiftEdge (g : Guard) (a : Src 128) (s : State) : Host.Outcome State Fault Refusal :=
  whenOn g (fun s =>
    let ra := readV s a
    mapMat (fun m => { m with
      aEdge := vecOf 16 fun i => if i.val = 0 then row32 ra.1 0 else m.aEdge.get (i - 1)
      sa := vecOf 16 fun i => if i.val = 0 then byteAt ra.1 32 else m.sa.get (i - 1) }) ra.2) s
/-- MSHIFT with `SK` 1 (R330). -/
def execMshiftBank (g : Guard) (bank : Fin 4) (s : State) : Host.Outcome State Fault Refusal :=
  whenOn g (mapMat fun m =>
    let old := m.banks.get bank
    let new := vecOf 16 fun i => if i.val = 15 then Vector.replicate 32 0 else old.get (i + 1)
    { m with banks := m.banks.set bank.val new bank.isLt }) s

/-- The row MDRAIN reads, in the format named (R331). -/
def drainRow (ty : FTy) (rm : Rnd) (mask : BitVec 32) (row : Vector (BitVec 32) 32) : Vec × BitVec 6 :=
  match ty with
  | .f32 => (ofElems row.toList, 0)
  | _ => mapElemsF 16 mask fun e =>
    if h : e < 32 then ofRes 16 (roundF (FTy.fmt ty) rm (decodeF f32F (row.get ⟨e, h⟩).toNat)) else (0, 0)
/-- MDRAIN is guarded per lane and lands after four steps (R331). -/
def execMdrain (g : Guard) (d : Dst 128) (bank : Fin 4) (ty : FTy) (rm : Rnd) (row : Fin 16) (s : State) :
    Host.Outcome State Fault Refusal :=
  let mask := guardBits s g
  let r := drainRow ty rm mask ((s.core.a.mat.banks.get bank).get row)
  .next (emitV 4 d mask r.1 r.2 s)

/-- MCLR (R332). -/
def execMclr (g : Guard) (bank : Fin 4) (ca : Bool) (s : State) : Host.Outcome State Fault Refusal :=
  whenOn g (mapMat fun m =>
    let m1 := { m with banks := m.banks.set bank.val (Vector.replicate 16 (Vector.replicate 32 0)) bank.isLt }
    if ca then { m1 with acc := Vector.replicate 16 (Vector.replicate 32 0), beat := 0, opn := false } else m1) s
/-- MSEL copies or exchanges two banks (R332). -/
def execMsel (g : Guard) (md ms : Fin 4) (xch : Bool) (s : State) : Host.Outcome State Fault Refusal :=
  whenOn g (mapMat fun m =>
    let x := m.banks.get md
    let y := m.banks.get ms
    let b1 := m.banks.set md.val y md.isLt
    { m with banks := if xch then b1.set ms.val x ms.isLt else b1 }) s

end Sys2Proof.Machine
end

