-- ==== Sys2Proof/Machine/Access.lean ====
section
/-! DEFINITION. What each instruction reads, names and addresses: its operands (R97, R102, R213), its token (R210), its
addresses with their checks (R282 to R284, R300, R305, R307), and the precise traps its own description gives. -/

namespace Sys2Proof.Machine

/-- The operands of an instruction. `vs` are vector sources with their field position (A 0, B 1, C 2); `regs` are
scalar registers read through other fields (R213). -/
structure Opnds where
  ss : List (Src 64) := []
  vs : List (Nat × Src 128) := []
  regs : List (Fin 64) := []
  ds : List (Dst 64) := []
  dv : List (Dst 128) := []
  tok : Option (Fin 8) := none
  /-- the guard, and whether it governs the whole operation -/
  g : Guard := Guard.always
  whole : Bool := true

def ldOp (d : LdDst) (o : Opnds) : Opnds :=
  match d with
  | .s _ d => { o with ds := [d] }
  | .v d => { o with dv := [d], whole := false }
def stOp (a : StSrc) (o : Opnds) : Opnds :=
  match a with
  | .s _ a => { o with ss := a :: o.ss }
  | .v a => { o with vs := [(0, a)], whole := false }
def opS2 (x : S2) : Opnds := { ss := [x.a, x.b], ds := [x.d], g := x.g }
def opS1 (x : S1) : Opnds := { ss := [x.a], ds := [x.d], g := x.g }
def opV2 (x : V2) : Opnds := { vs := [(0, x.a), (1, x.b)], dv := [x.d], g := x.g, whole := false }
def opV1 (x : V1) : Opnds := { vs := [(0, x.a)], dv := [x.d], g := x.g, whole := false }
def opF1 (x : F1) : Opnds := { vs := [(0, x.a)], dv := [x.d], g := x.g, whole := false }
def opF2 (x : F2) : Opnds := { vs := [(0, x.a), (1, x.b)], dv := [x.d], g := x.g, whole := false }
def opF3 (x : F3) : Opnds := { vs := [(0, x.a), (1, x.b), (2, x.c)], dv := [x.d], g := x.g, whole := false }
def opAT (op : AOp) (x : AT) : Opnds :=
  { ss := [.reg x.r] ++ (if op = .cas then [.reg (x.r + 1)] else []), regs := [x.m.base], ds := [.reg x.r], tok := some x.tok, g := x.g }
def opEC (x : EC) : Opnds := { regs := [x.m.base], tok := some x.tok, g := x.g }
def opRL (x : RL) : Opnds := { ss := [x.a], regs := [x.m.base], tok := some x.tok, g := x.g }
def opCW (x : CW) : Opnds := { ss := [.reg x.r], regs := [x.m.base], ds := [.reg x.r], tok := some x.tok, g := x.g }

/-- The operands of each instruction; an event has none. -/
def opnds : Instr → Opnds
  | .br g _ => { g := g }
  | .call g l _ => { ds := [l], g := g }
  | .bri g a | .ret g a => { ss := [a], g := g }
  | .calli g d a => { ss := [a], ds := [d], g := g }
  | .lsetup _ n _ => { regs := [n] }
  | .gclr a | .tswait a | .iflush a => { ss := [a] }
  | .abort g | .trap g _ | .bkpt g _ | .halt g => { g := g }
  | .srd g d _ _ => { ds := [d], g := g }
  | .swr g a _ _ => { ss := [a], g := g }
  | .add x | .sub x | .and x | .or x | .xor x | .andn x | .orn x | .shl x | .shr x | .sra x | .rotl x | .rotr x
  | .min x | .max x | .minn x | .maxn x | .lea x _ | .bfx x | .mul x | .mulh x | .mulhn x
  | .div x | .divn x | .rem x | .remn x => opS2 x
  | .sel x _ => opS2 x
  | .clz x | .ctz x | .popc x | .brev x | .sxt _ x | .zxt _ x | .mov x | .addi x _ => opS1 x
  | .bfi x => { ss := [x.a, x.b, x.c], ds := [x.d], g := x.g }
  | .movi g d _ => { ds := [d], g := g }
  | .movhi g d _ => { regs := [d], ds := [.reg d], g := g }
  | .cmp _ g _ a b => { ss := [a, b], g := g }
  | .cmpImm _ g _ a _ => { ss := [a], g := g }
  | .pand x | .por x | .pxor x | .pandn x => { g := x.g }
  | .pnot x => { g := x.g }
  | .pfroms g _ a => { ss := [a], g := g }
  | .ptos g d _ => { ds := [d], g := g }
  | .vadd x | .vsub x | .vmul x | .vmulh x | .vadds x | .vsubs x | .vmin x | .vmax x
  | .vand x | .vor x | .vxor x | .vandn x | .vshl x | .vshr x | .vsra x | .vperm x | .vzip x | .vunzip x => opV2 x
  | .vmad x => { vs := [(0, x.a), (1, x.b), (2, x.c)], dv := [x.d], g := x.g, whole := false }
  | .vabs x | .vneg x => opV1 x
  | .vsel x _ => opV2 x
  | .vcmp _ g _ _ a b => { vs := [(0, a), (1, b)], g := g, whole := false }
  | .vbcast x | .viota x => { ss := [x.a], dv := [x.d], g := x.g, whole := false }
  | .vextr g _ d a b => { ss := [b], vs := [(0, a)], ds := [d], g := g }
  | .vins g _ d a b c => { ss := [b, c], vs := [(0, a)], dv := [d], g := g, whole := false }
  | .vslide x c => { opV2 x with ss := [c] }
  | .vred _ g _ d a => { vs := [(0, a)], ds := [d], g := g, whole := false }
  | .vscan _ x => opV1 x
  | .vfadd x | .vfsub x | .vfmul x | .vfmin x | .vfmax x => opF2 x
  | .vfma x | .vfms x | .vfnma x => opF3 x
  | .vfabs x | .vfneg x | .vfclass x | .vfrcp x | .vfrsq x | .vfsqrt x | .vexp2 x | .vlog2 x => opF1 x
  | .vfcmp _ g _ _ a b => { vs := [(0, a), (1, b)], g := g, whole := false }
  | .vfred _ g _ _ d a => { vs := [(0, a)], ds := [d], g := g, whole := false }
  | .vcvt x => { vs := [(0, x.a)], dv := [x.d], g := x.g, whole := false }
  | .vquant d a _ _ _ _ | .vquantF d a _ _ _ => { vs := [(0, a)], dv := [d] }
  | .vdeq g d a _ _ => { vs := [(0, a)], dv := [d], g := g, whole := false }
  | .vamax g _ a _ => { vs := [(0, a)], g := g, whole := false }
  | .vamaxC g _ => { g := g, whole := false }
  | .vpack x _ => opV2 x
  | .vunpack x _ => opV1 x
  | .ld x | .ldG x => ldOp x.d { regs := [x.m.base], g := x.g }
  | .st g a m _ => stOp a { regs := [m.base], g := g }
  | .lds g _ d a b => { ss := [a, b], dv := [d], g := g, whole := false }
  | .sts g _ a b c => { ss := [a, b], vs := [(0, c)], g := g, whole := false }
  | .ldx g _ d a b => { ss := [a], vs := [(0, b)], dv := [d], g := g, whole := false }
  | .stx g _ a b c => { ss := [a], vs := [(0, b), (0, c)], g := g, whole := false }
  | .ldg x | .ldgG x | .ldc x => ldOp x.d { regs := [x.m.base], tok := some x.tok, g := x.g }
  | .stg x | .stc x => stOp x.a { regs := [x.m.base], tok := some x.tok, g := x.g }
  | .pf g m _ _ => { regs := [m.base], g := g }
  | .smap g a b _ => { ss := [a, b], g := g }
  | .sunmap g a | .sdrop g a => { ss := [a], g := g }
  | .sflush g m t _ => { regs := [m.base], tok := some t, g := g }
  | .qbind g _ m => { regs := [m.base], g := g }
  | .qunbind g _ | .qflush g _ => { g := g }
  | .qstat g d _ => { ds := [d], g := g }
  | .aadd x => opAT .add x | .amin x => opAT .min x | .amax x => opAT .max x | .aminn x => opAT .minn x
  | .amaxn x => opAT .maxn x | .aand x => opAT .and x | .aor x => opAT .or x | .axor x => opAT .xor x
  | .axchg x => opAT .xchg x | .acas x => opAT .cas x | .afadd x => opAT .fadd x
  | .atomicOrd op x => opAT op x
  | .acq g d m t => { regs := [m.base], ds := (d.map Dst.reg).toList, tok := some t, g := g }
  | .rel x | .relf x => opRL x
  | .fence g t | .fencex g t => { tok := some t, g := g }
  | .cwaddAdd x | .cwaddArrive x | .cwaddRead x => opCW x
  | .waitcw g r m => { ss := [.reg r], regs := [m.base], ds := [.reg r], g := g }
  | .sscan x | .cpy x | .cpyr x | .mcast x | .gath x | .scat x | .coll x | .gnode x => opEC x
  | .mpush g _ a | .mshiftEdge g a => { vs := [(0, a)], g := g }
  | .macc g _ _ _ a b => { vs := (a.map fun x => (0, x)).toList ++ (b.map fun x => (1, x)).toList, g := g }
  | .mshiftBank g _ | .mclr g _ _ | .msel g _ _ _ => { g := g }
  | .mdrain g d _ _ _ _ => { dv := [d], g := g, whole := false }
  | _ => {}

/-- An operation its whole-operation guard disables (R210, R227, R252, R288). -/
def disabled (s : State) (i : Instr) : Bool :=
  let o := opnds i
  o.whole && !guardOn s o.g

/-! ## Addresses (R109, R282, R294) -/

def eszBytes : ESz → Nat
  | .b => 1
  | .h => 2
  | .w => 4
  | .d => 8
def aszBytes : ASz → Nat
  | .w => 4
  | .d => 8
def LdDst.bytes : LdDst → Nat
  | .s z _ => eszBytes z
  | .v _ => 128
def StSrc.bytes : StSrc → Nat
  | .s z _ => eszBytes z
  | .v _ => 128
/-- EA ← s[BASE] + SignExt(OFF16) × z, exact. -/
def eaM (s : State) (m : MAddr) (z : Nat) : Int := ((getS s.core.a m.base).toNat : Int) + m.off.toInt * z

/-- Element e of z bytes is enabled by its lane; a 64-bit element by lane 2e (R291). -/
def elemOn (mask : BitVec 32) (z e : Nat) : Bool := mask.getLsbD (z * e / 4)
/-- The enabled elements of a strided or indexed access, with their addresses. -/
def elemAddrs (mask : BitVec 32) (z : Nat) (f : Nat → Int) : List (Nat × Int) :=
  ((List.range (128 / z)).filter (elemOn mask z)).map fun e => (e, f e)
def strideAddr (s : State) (a b : Src 64) (e : Nat) : Int := ((readS s a).toNat : Int) + e * (readS s b).toInt
def indexAddr (base : Word) (idx : Vec) (z e : Nat) : Int :=
  (base.toNat : Int) + ((idx >>> (8 * z * e)).toNat % 2 ^ (8 * z) * z : Nat)

/-- The core a cluster-window address names, and whether its byte is mapped as stash there (R158, R283). -/
def cwCore (s : State) (ea : Nat) : Nat := clusterOf s.core.id * 64 + ea / 0x80000
def checkCluster (s : State) (ea : Int) (sz : Nat) : Option Byte :=
  if ea < 0 || (2 : Int) ^ 64 < ea + sz then some 0x09
  else if ea.toNat % sz != 0 then some 0x08
  else if 48 ≤ ea.toNat / 0x80000 then some 0x05
  else
    let c := coreOf s (cwCore s ea.toNat)
    if (List.range sz).any fun i => (mapOfOff c.maps (ea.toNat % 0x80000 + i)).isSome then some 0x05 else none

/-- A precise trap: its cause, value, and whether its own slot has committed (R243). -/
structure TrapInfo where
  cause : Byte
  val : Word
  commit : Bool
deriving DecidableEq, Repr

def trapEA (c : Byte) (ea : Int) : Option TrapInfo := some ⟨c, BitVec.ofInt 64 ea, false⟩

/-- The scratchpad check of an access; a store to a mapped range without write permission is cause 0x07 (R300). -/
def spadTrap (s : State) (ea : Int) (sz align : Nat) (wr : Bool) : Option TrapInfo :=
  match checkSpad ea sz align with
  | .error c => trapEA c ea
  | .ok off =>
    if wr && (List.range sz).any fun i => match mapOfOff s.core.maps (off + i) with
      | some m => !m.wr
      | none => false then trapEA 0x07 ea
    else none
def globTrap (s : State) (ea : Int) (sz : Nat) (acc : Acc) : Option TrapInfo :=
  match checkGlob s.core.ktt ea sz sz acc with
  | .error c => trapEA c ea
  | .ok _ => none
/-- The lowest failing element (R284). -/
def elemTrap (s : State) (l : List (Nat × Int)) (z : Nat) (wr : Bool) : Option TrapInfo :=
  l.findSome? fun e => spadTrap s e.2 z z wr

/-! ## Streams (R307) -/

/-- A pop's check against the stream as earlier reads of the bundle left it. -/
def popTrap (s : State) (k : Fin 8) : Option TrapInfo :=
  let q := getQ s k
  if !q.bound || qOut q.desc || qCount q.desc ≤ q.pos then some ⟨0x0A, BitVec.ofNat 64 k.val, false⟩
  else
    match q.inq.find? fun e => e.idx == q.pos with
    | some e => e.flt.map fun f => ⟨f.1, f.2, false⟩
    | none => none
def pushTrap (s : State) (k : Fin 8) : Option TrapInfo :=
  let q := getQ s k
  if !q.bound || !qOut q.desc || qCount q.desc ≤ q.pos then some ⟨0x0A, BitVec.ofNat 64 k.val, false⟩ else none
def stepQ (s : State) (k : Fin 8) : State :=
  setQ k { getQ s k with pos := (getQ s k).pos + 1, inq := (getQ s k).inq.drop 1 } s

def vsStreams (o : Opnds) : List (Fin 8) := o.vs.filterMap fun v => match v.2 with
  | .stream k => some k
  | _ => none
def dvStreams (o : Opnds) : List (Fin 8) := o.dv.filterMap fun d => match d with
  | .stream k => some k
  | _ => none

/-- The streams an operation pushes to; one guarded per lane, with every lane off, pushes nothing (R64; log entry 12). -/
def pushStreams (s : State) (i : Instr) : List (Fin 8) :=
  let o := opnds i
  if !o.whole && guardBits s o.g == 0 then [] else dvStreams o
/-- The first stream check of an instruction that fails: its pops in the order A, B, C, then its push. -/
def streamTrap (s : State) (i : Instr) : Option TrapInfo :=
  let o := opnds i
  let go := (vsStreams o).foldl (fun (acc : Option TrapInfo × State) k =>
    match acc.1 with
    | some t => (some t, acc.2)
    | none => (popTrap acc.2 k, stepQ acc.2 k)) (none, s)
  match go.1 with
  | some t => some t
  | none => (pushStreams s i).findSome? (pushTrap go.2)

/-! ## Stash mappings as they will stand (R302) -/

def stashApply (c : Core) (maps : List SMapping) : StashOp → List SMapping
  | .smap off va lsz =>
    match kttFind c.ktt va (2 ^ lsz) with
    | some e => maps ++ [⟨off, va, kttKey e va, lsz, e.w, classOf e none⟩]
    | none => maps
  | .sunmap off =>
    match mapOfOff maps off with
    | some m => maps.filter fun x => x.off != m.off
    | none => maps
  | _ => maps
/-- The mappings once every earlier held or issued stash operation has been performed. An SMAP or SFLUSH in slot 4 outside a
region is checked against the SMAP or SUNMAP of slot 3 as performed, though that takes effect from the next step (R286): the
manual does not say which (DESIGN CHOICE, log entry 54). -/
def mapsAfter (s : State) : List SMapping :=
  let held := s.core.rgn.held.filterMap fun h => match h with
    | .stash o _ => some o
    | _ => none
  let fl := s.core.flights.filterMap fun f => match f.dest with
    | .stash o => some o
    | _ => none
  (held ++ fl).foldl (stashApply s.core) s.core.maps

/-- SMAP's checks (R300). -/
def smapTrap (s : State) (a b : Word) (lsz : Nat) : Option TrapInfo :=
  let n := 2 ^ lsz
  if a.toNat % n != 0 then some ⟨0x08, a, false⟩
  else if b.toNat % n != 0 then some ⟨0x08, b, false⟩
  else if 2 ^ 56 < b.toNat + n then some ⟨0x09, b, false⟩
  else
    match kttFind s.core.ktt b.toNat n with
    | none => some ⟨0x05, b, false⟩
    | some e =>
      if !e.rd then some ⟨0x07, b, false⟩
      else if spadBytes < a.toNat + n then some ⟨0x05, a, false⟩
      else
        let ms := mapsAfter s
        let key := kttKey e b.toNat
        let bad := 8 ≤ ms.length || ms.any fun m =>
          (m.off < a.toNat + n && a.toNat < m.off + 2 ^ m.lsz) || (m.key < key + n && key < m.key + 2 ^ m.lsz)
        if bad then some ⟨0x11, a, false⟩ else none

/-! ## QBIND (R303 to R305) -/

def qDescOf (b : List Byte) : QDesc where
  base := BitVec.ofNat 64 (field b 0 8)
  ext := vecOf 4 fun i => BitVec.ofNat 32 (field b (8 + 4 * i.val) 4)
  stride := vecOf 4 fun i => BitVec.ofNat 64 (field b (0x18 + 8 * i.val) 8)
  ctl := BitVec.ofNat 64 (field b 0x38 8)

/-- The least and greatest element address: each coordinate at the end its stride points to. -/
def qExtremes (d : QDesc) : Int × Int :=
  (List.range 4).foldl (fun acc i =>
    let st := (d.stride.get (Fin.ofNat 4 i)).toInt * ((qExt d (Fin.ofNat 4 i) : Int) - 1)
    (acc.1 + min 0 st, acc.2 + max 0 st)) ((d.base.toNat : Int), (d.base.toNat : Int))

/-- Every coordinate that moves has a stride that is a multiple of the element size, and the base is one (R305). -/
def qAligned (d : QDesc) : Bool :=
  let n : Int := qElemBytes d
  (d.base.toNat : Int) % n == 0 && (List.range 4).all fun i =>
    qExt d (Fin.ofNat 4 i) ≤ 1 || (d.stride.get (Fin.ofNat 4 i)).toInt % n == 0

/-- All bytes of a stash stream are mapped: for a mapped range's 4 KiB grain it is enough that each element's first and
last byte are. -/
def qMapped (s : State) (d : QDesc) : Bool :=
  (List.range (qCount d)).all fun j =>
    let a := (qAddr d j).toNat
    (mapOfOff s.core.maps a).isSome && (mapOfOff s.core.maps (a + qElemBytes d - 1)).isSome

/-- The descriptor is refused with cause 0x0A (R305). A non-zero `QLS` with `QLX` 0 is refused like a reserved field: the manual does
not say what it does (R304; DESIGN CHOICE, log entry 54). -/
def qbindBad (s : State) (k : Fin 8) (d : QDesc) : Bool :=
  let c := d.ctl.toNat
  let e := qExtremes d
  (getQ s k).bound || bitsOf c 63 16 != 0 || bitsOf c 7 5 != 0 || (bitsOf c 15 15 == 0 && bitsOf c 14 12 != 0)
    || qLevel d == 3 || bitsOf c 1 0 == 3 || ((List.range 4).any fun i => qExt d (Fin.ofNat 4 i) == 0)
    || 2 ^ 32 ≤ qCount d || (qLevel d == 2 && qOut d)
    || (qLevel d ≤ 1 && (e.1 < 0 || (spadBytes : Int) < e.2 + qElemBytes d || !qAligned d))
    || (qLevel d == 1 && !qMapped s d)
    || (qLevel d == 2 && !((d.base.toNat : Int) % qElemBytes d == 0 && (List.range 4).all fun i =>
        (d.stride.get (Fin.ofNat 4 i)).toInt % qElemBytes d == 0))

/-- QBIND's descriptor, read at issue from the scratchpad or the stash. -/
def qbindDesc (s : State) (m : MAddr) : QDesc := qDescOf (spadReadN s (eaM s m 64).toNat 64).1

end Sys2Proof.Machine
end

