-- ==== Sys2Proof/Machine/Control.lean ====
section
/-! DEFINITION. Control instructions of slot 0 (R226 to R249). -/

namespace Sys2Proof.Machine

/-- A closing operation met in an open region rolls it back, whatever its guard (R238). -/
def closes (f : State → Host.Outcome State Fault Refusal) (s : State) : Host.Outcome State Fault Refusal :=
  if regionOpen s.core then .next (startRollback 4 s) else f s

/-- Slot 0 decides the next bundle (R229). -/
def goTo (t : Word) (s : State) : State := s.mapCore fun c => { c with next := some t }
/-- The outcome of a guarded control operation, for the trace (R479). -/
def noteOutcome (g : Guard) (taken : Bool) (s : State) : State :=
  if g == Guard.always || !s.core.m.tctl.getLsbD 63 then s
  else s.mapM fun m => { m with outcomes := m.outcomes ++ [taken] }

/-- P + 64 × SignExt(OFFB), exact (R231). -/
def relTarget (pc : Word) (off : BitVec 32) : Int := (pc.toNat : Int) + 64 * off.toInt
def relBad (t : Int) : Bool := t < 0 || (2 : Int) ^ 56 ≤ t
/-- The next bundle in memory. -/
def fallThrough (pc : Word) : Word := pc + 64

/-- A relative transfer, with its link when it has one (R231). -/
def relGo (off : BitVec 32) (link : Option (Dst 64)) (s : State) : State :=
  let t := relTarget s.core.pc off
  if relBad t then trapHere 0x09 0 s
  else
    let s1 := match link with
      | some d => emitS 1 d (fallThrough s.core.pc) 0 s
      | none => s
    goTo (BitVec.ofInt 64 t) s1
/-- An absolute transfer (R232): the alignment test, then the range test. -/
def absTrap (t : Word) : Option TrapInfo :=
  if t.extractLsb' 0 6 != 0 then some ⟨0x08, t, false⟩
  else if t.extractLsb' 56 8 != 0 then some ⟨0x09, t, false⟩
  else none
def absGo (a : Src 64) (link : Option (Dst 64)) (s : State) : State :=
  let t := readS s a
  match absTrap t with
  | some e => trapHere e.cause e.val s
  | none =>
    let s1 := match link with
      | some d => emitS 1 d (fallThrough s.core.pc) 0 s
      | none => s
    goTo t s1

def execBr (g : Guard) (off : BitVec 32) (s : State) : Host.Outcome State Fault Refusal :=
  .next (noteOutcome g (guardOn s g) (if guardOn s g then relGo off none s else s))
def execCall (g : Guard) (lnk : Dst 64) (off : BitVec 32) (s : State) : Host.Outcome State Fault Refusal :=
  .next (noteOutcome g (guardOn s g) (if guardOn s g then relGo off (some lnk) s else s))
def execBri (g : Guard) (a : Src 64) (s : State) : Host.Outcome State Fault Refusal :=
  .next (noteOutcome g (guardOn s g) (if guardOn s g then absGo a none s else s))
def execCalli (g : Guard) (d : Dst 64) (a : Src 64) (s : State) : Host.Outcome State Fault Refusal :=
  .next (noteOutcome g (guardOn s g) (if guardOn s g then absGo a (some d) s else s))
/-- RET has the effect of BRI (R232). -/
def execRet (g : Guard) (a : Src 64) (s : State) : Host.Outcome State Fault Refusal :=
  .next (noteOutcome g (guardOn s g) (if guardOn s g then absGo a none s else s))

/-! ## Loops (R233, R234) -/

/-- A stage predicate that LSETUP or LOOP writes. It writes no latch (R203, R207), also where the bundle stops part-way and the
snapshot holds it as an entry of slot 0, of which R420 and R440 say that it writes its slot's latch: DESIGN CHOICE, log
entry 54. -/
def emitPred (i : Fin 16) (x : Pred) (s : State) : State := emitX (.p i) (x.setWidth 1024) s

/-- LSETUP: the counter, its epilogue count, the range, and the stage predicates through %prb at issue (R233). -/
def execLsetup (k : Fin 4) (n : Fin 64) (off : BitVec 32) (s : State) : Host.Outcome State Fault Refusal :=
  let x := getS s.core.a n
  let start := s.core.pc + 64
  let end_ := s.core.pc + 64 * off.setWidth 64
  let s1 := emitX (.sreg (0x30 + k.val) 0) ((x.extractLsb' 0 32).setWidth 1024) s
  let s2 := emitX (.lec k) ((x.extractLsb' 32 16).setWidth 1024) s1
  let s3 := emitX (.lrange k) (start.setWidth 1024 ||| (end_.setWidth 1024 <<< 64)) s2
  .next ((List.range 8).foldl (fun t i =>
    emitPred (physP s.core.a.prb (Fin.ofNat 16 (8 + i))) (if i = 0 then BitVec.allOnes 32 else 0) t) s3)

/-- Rotate(), and p8 under the new %prb (R234). -/
def rotate (p8 : Pred) (s : State) : State :=
  let vrb := s.core.a.vrb - 1
  let prb := s.core.a.prb - 1
  let s1 := emitX (.sreg 0x10 0) (vrb.setWidth 1024) s
  let s2 := emitX (.sreg 0x11 0) (prb.setWidth 1024) s1
  emitPred (physP prb 8) p8 s2
/-- What a LOOP does: take the loop's branch, the epilogue's, or none. -/
inductive LoopWay where
  | body | epilogue | out
deriving DecidableEq, Repr
def loopWay (s : State) (k : Fin 4) : LoopWay :=
  if s.core.a.lc.get k != 0 then .body else if s.core.a.lec.get k != 0 then .epilogue else .out
def execLoop (k : Fin 4) (off : BitVec 32) (s : State) : Host.Outcome State Fault Refusal :=
  let t := relTarget s.core.pc off
  match loopWay s k with
  | .out => .next (goTo (fallThrough s.core.pc) s)
  | .body =>
    if relBad t then .next (trapHere 0x09 0 s)
    else .next (goTo (BitVec.ofInt 64 t) (rotate (BitVec.allOnes 32)
      (emitX (.sreg (0x30 + k.val) 0) ((s.core.a.lc.get k - 1).setWidth 1024) s)))
  | .epilogue =>
    if relBad t then .next (trapHere 0x09 0 s)
    else .next (goTo (BitVec.ofInt 64 t) (rotate 0 (emitX (.lec k) ((s.core.a.lec.get k - 1).setWidth 1024) s)))
def execLoopx (k : Fin 4) (off : BitVec 32) (s : State) : Host.Outcome State Fault Refusal :=
  let t := relTarget s.core.pc off
  if s.core.a.lc.get k != 0 then
    if relBad t then .next (trapHere 0x09 0 s)
    else .next (goTo (BitVec.ofInt 64 t) (emitX (.sreg (0x30 + k.val) 0) ((s.core.a.lc.get k - 1).setWidth 1024) s))
  else .next (goTo (fallThrough s.core.pc) s)

/-! ## Regions (R236 to R242) -/

/-- Open a region with the state as it stands (R236). -/
def openRegion (off : BitVec 32) (s : State) : State :=
  s.mapRgn fun r => { r with
    st := .opened, recovery := relTarget s.core.pc off, ckpt := s.core.pc, steps := 0, shadow := some s.core.a,
    held := [], guards := Vector.replicate 16 none, outA := none, outB := none,
    sigCrc := BitVec.allOnes 32, loadCrc := BitVec.allOnes 32 }
/-- CKPT opens a region with the shadow of the state before any slot of its bundle; in an open region it rolls back.
A rerun begins at its CKPT bundle, which is in the region already (R394). -/
def execCkpt (off : BitVec 32) (s : State) : Host.Outcome State Fault Refusal :=
  let r := s.core.rgn
  match r.st with
  | .closed => .next (openRegion off s)
  | .rerunA | .rerunB => if r.steps = 0 ∧ r.ckpt = s.core.pc then .next s else .next (startRollback 4 s)
  | .opened => .next (startRollback 4 s)
  | _ => .next s
/-- COMMIT ends the region at the end of its step; with none open it has no effect (R240). -/
def execCommit (s : State) : Host.Outcome State Fault Refusal :=
  .next (if regionOpen s.core then s.mapCore fun c => { c with commitDue := true } else s)
def execCheck (p : Fin 16) (s : State) : Host.Outcome State Fault Refusal :=
  if (getP s.core.a (physP s.core.a.prb p)).getLsbD 0 then .next s
  else if regionOpen s.core then .next (startRollback 1 s)
  else .next (trapHere 0x15 0 s)
def execAbort (g : Guard) (s : State) : Host.Outcome State Fault Refusal :=
  whenOn g (fun s => if regionOpen s.core then startRollback 3 s else trapHere 0x15 0 s) s
/-- The guards armed now, as bits. -/
def armedBits (r : Region) : BitVec 16 :=
  (List.range 16).foldl (fun acc i =>
    if (r.guards.get (Fin.ofNat 16 i)).isSome then acc ||| (1#16 <<< i) else acc) 0
/-- GCLR disarms for stores from the next step (R242). -/
def execGclr (a : Src 64) (s : State) : Host.Outcome State Fault Refusal :=
  .next (if regionOpen s.core then
    emitX .gclr (((readS s a).setWidth 16 &&& armedBits s.core.rgn).setWidth 1024) s else s)

/-! ## Traps, the end of a task, special registers (R243 to R248) -/

/-- TRAP and BKPT commit slot 0 and stop before slot 1 (R243). -/
def stopAfter0 (cause : Byte) (code : BitVec 23) (s : State) : State :=
  takeTrap 0 cause (code.setWidth 64) (1 ||| s.core.sp.done) (goTo (fallThrough s.core.pc) s)
def execTrap (g : Guard) (code : BitVec 23) (s : State) : Host.Outcome State Fault Refusal :=
  closes (whenOn g (stopAfter0 0x15 code)) s
def execBkpt (g : Guard) (code : BitVec 23) (s : State) : Host.Outcome State Fault Refusal :=
  closes (whenOn g (stopAfter0 0x0E code)) s
/-- HALT takes effect once every slot of its bundle has committed; one that issues again alone, after a deferred error, was enabled
(R215, R244). -/
def execHalt (g : Guard) (s : State) : Host.Outcome State Fault Refusal :=
  closes (fun s => .next (if guardOn s g || s.core.sp.done == 0xFE then s.mapCore fun c => { c with halting := true } else s)) s
def execSrd (g : Guard) (d : Dst 64) (reg : BitVec 8) (piece : BitVec 4) (s : State) :
    Host.Outcome State Fault Refusal :=
  whenOn g (fun s => emitS 1 d (readSreg s reg.toNat piece.toNat) 0 s) s
/-- SWR to a read-only or firmware register traps 0x10 with %fval N (R246). -/
def execSwr (g : Guard) (a : Src 64) (reg : BitVec 8) (piece : BitVec 4) (s : State) :
    Host.Outcome State Fault Refusal :=
  closes (whenOn g fun s =>
    if sregRW reg.toNat then emitX (.sreg reg.toNat piece.toNat) ((readS s a).setWidth 1024) s
    else trapHere 0x10 (reg.setWidth 64) s) s

/-- Deterministic mode of the task in focus (R47). -/
def detMode (s : State) : Bool :=
  match curTask s with
  | some t => ((launchFind s t.launch).map (·.det)).getD false
  | none => false
/-- Issue stops at the slot in execution, whose condition does not hold: the slots below it have committed, and the
bundle issues again (R215). -/
def stopToWait (w : WaitOn) (s : State) : State :=
  { s.mapCore (fun c => { c with
      wait := some w, landDue := false, tsLate := some false, sp := { c.sp with done := below c.slot.val ||| c.sp.done } }) with agenda := [] }
/-- TSWAIT: on time or late it completes; else issue stops (R247). A target passed at issue is logged in deterministic
mode, unless the task waited for it. -/
def execTswait (a : Src 64) (s : State) : Host.Outcome State Fault Refusal :=
  closes (fun s =>
    let t := readS s a
    let n := stepOf s (dieOf s.core.id)
    if t.toNat ≤ n then
      -- late when its target had passed as it issued, unless it waited for it
      let late := s.core.tsLate.getD (decide (t.toNat < n))
      let s1 := if late && detMode s then
        record (dieOf s.core.id) (srcNum s.core.id) 0x83 (s.core.sp.gpos ++ (0 : BitVec 4)) t (BitVec.ofNat 64 n) s else s
      .next (s1.mapCore fun c => { c with wait := none })
    else .next (stopToWait (.step t) s)) s
/-- IFLUSH drops the copies of one bundle, or all (R248). -/
def execIflush (a : Src 64) (s : State) : Host.Outcome State Fault Refusal :=
  let va := readS s a
  .next (s.mapCore fun c => { c with
    icopies := c.icopies.filter fun x => x.1 >>> 6 != va >>> 6
    loopBuf := c.loopBuf.filter fun x => x.1 >>> 6 != va >>> 6 })
def execIflushAll (s : State) : Host.Outcome State Fault Refusal :=
  .next (s.mapCore fun c => { c with icopies := [], loopBuf := [] })
/-- An empty bundle's work (R96). -/
def execNop (s : State) : Host.Outcome State Fault Refusal := .next s

end Sys2Proof.Machine
end

