-- ==== Sys2Proof/Machine/Place.lean ====
section
/-! DEFINITION. Atomics at their places (R188, R189, R313, R314), loads not yet complete (R296, R374), and the stores of
a core (R160, R290, R380). -/

namespace Sys2Proof.Machine

/-! ## Reading and writing at a place (R188) -/

/-- The default lease class of a global byte, from the entry that maps it. -/
def clsOfKey (c : Core) (a : Nat) : Option (Fin 8) :=
  (c.ktt.find? fun e => kttKey e e.vbase ≤ a && a < kttKey e e.vbase + 2 ^ e.lsz).bind fun e => classOf e none

/-- Bytes and mask of line `key` from a list of bytes at rising global addresses. -/
def lineOf (key : Nat) (l : List (Nat × Byte)) : BitVec 512 × BitVec 64 :=
  l.foldl (fun acc x =>
    if lineKey x.1 == key then (putByte acc.1 (x.1 % 64) x.2, acc.2 ||| bit64 (x.1 % 64)) else acc) (0, 0)
def keysOf (l : List Nat) : List Nat := (l.map lineKey).eraseDups

/-- `n` bytes at `a` as the place of scope `sc` holds them. -/
def placeRead (sc : Scope) (a n : Nat) (s : State) : List Byte × State :=
  let addrs := (List.range n).map (a + ·)
  let cl := clusterOf s.core.id
  match sc with
  | .core =>
    let miss := addrs.filter fun x => (ownByte s.core s.tick (clsOfKey s.core x) x).isNone
    let s1 := (keysOf miss).foldl (fun s k => fillLine s k (clsOfKey s.core (64 * k))) s
    (addrs.map fun x => (ownByte s1.core s1.tick (clsOfKey s1.core x) x).getD
      (lineByte (l2Read s1 s1.core.lct cl (lineKey x) (clsOfKey s1.core x)) (x % 64)), s1)
  | .cluster =>
    let s1 := (keysOf addrs).foldl (fun s k => l2Fill s s.core.lct cl k (clsOfKey s.core (64 * k))) s
    (addrs.map fun x => lineByte (l2Read s1 s1.core.lct cl (lineKey x) (clsOfKey s1.core x)) (x % 64), s1)
  | _ => (addrs.map fun x => lineByte (homeRead s (lineKey x)) (x % 64), s)
/-- A scope whose place is the home. -/
def atHome (sc : Scope) : Bool := sc != .core && sc != .cluster
/-- Requests of an agent toward the homes of lines, one each (R466, R468). -/
def sendKeys (src cl : Nat) (l : List Nat) (s : State) : State := l.foldl (fun s k => sendPktOf src cl k s) s
/-- A read of the core in focus at a place; one at the home is a request of its own. -/
def placeFetch (sc : Scope) (a n : Nat) (s : State) : List Byte × State :=
  let r := placeRead sc a n s
  let cl := clusterOf s.core.id
  (r.1, if atHome sc then sendKeys (agentSrc s cl) cl (keysOf ((List.range n).map (a + ·))) r.2 else r.2)

/-- The issuing cluster's leased copy is replaced after an atomic at the home (R189): its unmarked bytes go. -/
def dropLeaseCopy (cl key : Nat) (s : State) : State :=
  if leased key then
    match l2Find s cl key with
    | none => s
    | some l => if l.marks == 0 then l2Drop s cl key else l2Set s { l with valid := l.marks }
  else s

/-- Write bytes at their homes, as masked writes; an agent of a cluster is tracked by its die (R190, R191). -/
def homeStore (cl : Option Nat) (l : List (Nat × Byte)) (s : State) : State :=
  let track (k : Nat) (s : State) : State := match cl with
    | some c => trackRegion (c / 8) k false s
    | none => s
  (keysOf (l.map (·.1))).foldl (fun s k => homeWrite (track k s) none k (lineOf k l).1 (lineOf k l).2) s
/-- Write bytes at the place of scope `sc`; a cluster-scope write marks every byte it writes (R170). -/
def placeWrite (sc : Scope) (l : List (Nat × Byte)) (s : State) : State :=
  let cl := clusterOf s.core.id
  match sc with
  | .core => l1dEvict (s.mapCore fun c => l.foldl (fun c x => dirtyByte c x.1 x.2) c)
  | .cluster => (keysOf (l.map (·.1))).foldl (fun s k => l2Mark s cl k (lineOf k l).1 (lineOf k l).2 true) s
  | _ => (keysOf (l.map (·.1))).foldl (fun s k => dropLeaseCopy cl k s) (homeStore (some cl) l s)

/-- Bytes with their addresses. -/
def bytesAt (a : Nat) (l : List Byte) : List (Nat × Byte) := (List.range l.length).zipWith (fun i b => (a + i, b)) l

/-! ## Atomics (R313, R322) -/

/-- The new value of an atomic on a word of 8z bits (R313). -/
def atomNew (op : AOp) (z : ASz) (old x x2 : Word) : Word :=
  let w := 8 * aszBytes z
  let o := old.toNat % 2 ^ w
  let v := x.toNat % 2 ^ w
  let so := signedOf w o
  let sv := signedOf w v
  let r : Nat := match op with
    | .add => (o + v) % 2 ^ w
    | .and => (BitVec.ofNat 64 o &&& BitVec.ofNat 64 v).toNat
    | .or => (BitVec.ofNat 64 o ||| BitVec.ofNat 64 v).toNat
    | .xor => (BitVec.ofNat 64 o ^^^ BitVec.ofNat 64 v).toNat
    | .min => if sv < so then v else o
    | .max => if so < sv then v else o
    | .minn => if v < o then v else o
    | .maxn => if o < v then v else o
    | .xchg => v
    | .cas => if o = v then x2.toNat % 2 ^ w else o
    | .fadd => (addF f32F .rne (decodeF f32F o) (decodeF f32F v)).1
  BitVec.ofNat 64 r

/-- A completion word after an update (R178, R322): DONE, FAILED, STATUS. -/
def cwDone (w : Word) : BitVec 32 := w.extractLsb' 0 32
def cwFailed (w : Word) : BitVec 16 := w.extractLsb' 32 16
def cwStatus (w : Word) : BitVec 16 := w.extractLsb' 48 16
def cwMake (st fl : BitVec 16) (d : BitVec 32) : Word := st ++ fl ++ d
/-- FAILED saturates (R177). -/
def addSat16 (a b : BitVec 16) : BitVec 16 := if 0xFFFF < a.toNat + b.toNat then 0xFFFF else a + b
/-- CWADD's effect on the word (R322). -/
def cwaddNew (old v : Word) : Word :=
  let n := (v.extractLsb' 0 16).toNat
  if v.extractLsb' 62 2 = 0 then
    let fl := v.extractLsb' 32 16
    let st : BitVec 16 := if fl = 0 then cwStatus old else (v.extractLsb' 48 14).setWidth 16
    cwMake st (addSat16 (cwFailed old) fl) (cwDone old + v.extractLsb' 0 32)
  else if v.extractLsb' 62 2 = 1 then
    let d := cwDone old + 1
    cwMake (if n ≠ 0 ∧ d.toNat % n = 0 then cwStatus old + 1 else cwStatus old) (cwFailed old) d
  else old

/-- Before an atomic of wider scope (R189, R314): the line's dirty bytes go to the overlay; the L1D copy goes; of a
stash-mapped line the atomic's own bytes go, so that later loads are ordered behind the atomic. -/
def beforeAtomic (a n : Nat) (s : State) : State :=
  let key := lineKey a
  let s1 := writeBack s key
  match mapOfKey s.core.maps key with
  | none => { s1 with core := lineDrop s1.core key }
  | some _ =>
    match lineFind s1.core key with
    | none => s1
    | some l =>
      let m := (List.range n).foldl (fun (m : BitVec 64) i => m ||| bit64 ((a + i) % 64)) 0
      { s1 with core := lineSet s1.core { l with valid := l.valid &&& ~~~m } }

/-- Perform a read-modify-write of `n` bytes at a place; the old value. -/
def rmw (sc : Scope) (a n : Nat) (f : Word → Word) (s : State) : Word × State :=
  let s0 := if sc = .core then s else beforeAtomic a n s
  let r := placeRead sc a n s0
  let old := ofBytes 64 r.1
  (old, placeWrite sc (bytesAt a (toBytes n (f old))) r.2)

def pendSet (seq : Nat) (k : PKind) (s : State) : State :=
  s.mapCore fun c => { c with pend := c.pend.map fun p => if p.seq == seq then { p with kind := k } else p }

/-- The error a read at the place of a scope meets (R285): at core scope in the bytes that the core lacks. -/
def placeErr (sc : Scope) (a n : Nat) (s : State) : Option Byte :=
  if sc = .core && (List.range n).all fun i => (ownByte s.core s.tick (clsOfKey s.core (a + i)) (a + i)).isSome then none
  else homeErr s (lineKey a)
/-- A word that barrier arrivals use is a barrier object (R178, R322): its last CWADD with an addition or an arrival says
which it is (log entry 20). -/
def noteBarrier (a : Nat) (v : Word) (s : State) : State :=
  if v.extractLsb' 62 2 = 1 then { s with barriers := (a :: s.barriers).eraseDups }
  else if v.extractLsb' 62 2 = 0 then { s with barriers := s.barriers.filter (· != a) }
  else s
/-- An access at a place can be made now: at core scope of bytes the core holds, else of a line whose home a path reaches
(R467, R471). -/
def placeReach (sc : Scope) (a n : Nat) (s : State) : Bool :=
  (sc == .core && (List.range n).all fun i => (ownByte s.core s.tick (clsOfKey s.core (a + i)) (a + i)).isSome)
    || reach s (dieOf s.core.id) (lineKey a)
/-- The flow that carries an atomic or CWADD still to be performed at a home outside the package, or the module (R466, R468). -/
def atomFlow (p : PendOp) : Option (Nat × Nat) :=
  let go (sc : Scope) (a : Nat) : Option (Nat × Nat) :=
    if atHome sc && leased (lineKey a) then
      some (homeAgent (lineKey a), if homeAgent (lineKey a) = agentHost then 0 else homeSliceOf (lineKey a))
    else none
  match p.kind with
  | .atomic _ _ _ _ _ sc a none | .cwadd _ _ sc a none => go sc a
  | _ => none
/-- An older atomic of a line is still to be performed. -/
def lineBehind (s : State) (key : Nat) (p : PendOp) : Bool := s.core.pend.any fun q => q.seq < p.seq && atomKey q == some key
/-- An older request of the same flow is still to be performed: the destination applies them in sequence (R466, R469). -/
def flowBehind (s : State) (p : PendOp) : Bool :=
  (atomFlow p).isSome && s.core.pend.any fun q => q.seq < p.seq && atomFlow q == atomFlow p
/-- A pending atomic or CWADD, not ordered, that can be performed now: no error is met at its place (R285), a path leads there,
and the older ones of its line and its flow have been performed (R297). -/
def canPerform (s : State) (p : PendOp) : Bool :=
  !flowBehind s p && !((atomKey p).any fun k => lineBehind s k p) && match p.kind with
  | .atomic _ z _ _ _ sc a none => (placeErr sc a (aszBytes z) s).isNone && placeReach sc a (aszBytes z) s
  | .cwadd _ _ sc a none => (placeErr sc a 8 s).isNone && placeReach sc a 8 s
  | _ => false
/-- Perform a pending atomic or CWADD of the core in focus, once. -/
def performOp (p : PendOp) (s : State) : State :=
  if !canPerform s p then s
  else match p.kind with
  | .atomic op z r x x2 sc a none =>
    let q := rmw sc a (aszBytes z) (fun old => atomNew op z old x x2) s
    pendSet p.seq (.atomic op z r x x2 sc a (some q.1)) q.2
  | .cwadd r v sc a none =>
    let q := rmw sc a 8 (fun old => cwaddNew old v) s
    pendSet p.seq (.cwadd r v sc a (some q.1)) (noteBarrier a v q.2)
  | _ => s

/-! ## Loads not yet complete -/

/-- Give the bytes of a line to the loads that wait for them. -/
def serveBytes (key : Nat) (d : BitVec 512) (got : List (Option Byte)) (locs : List Loc) : List (Option Byte) :=
  got.zipWith (fun g l => match g, l with
    | some b, _ => some b
    | none, .glob a => if lineKey a == key then some (lineByte d (a % 64)) else none
    | none, .spad _ => none) locs
/-- A load of class `cls` takes the bytes of a line that were read under that class (R193). -/
def serveOf (key : Nat) (cls : Option (Fin 8)) (d : BitVec 512) (p : PendOp) : PendOp := match p.kind with
  | .load r m got locs c => if c == cls then { p with kind := .load r m (serveBytes key d got locs) locs c } else p
  | _ => p
/-- The loads of class `cls` that wait for a line take its bytes. -/
def serveLoads (key : Nat) (cls : Option (Fin 8)) (d : BitVec 512) (s : State) : State :=
  s.mapCore fun c => { c with pend := c.pend.map (serveOf key cls d) }
def waitsFor (key : Nat) (p : PendOp) : Bool := match p.kind with
  | .load _ _ got locs _ => (got.zip locs).any fun x => match x with
    | (none, .glob a) => lineKey a == key
    | _ => false
  | _ => false
def loadCls (p : PendOp) : Option (Fin 8) := match p.kind with
  | .load _ _ _ _ c => c
  | _ => none

/-- The bytes of a line as the core's loads of a class see them: its own dirty bytes over the L2's. -/
def lineNow (key : Nat) (cls : Option (Fin 8)) (s : State) : BitVec 512 × State :=
  let s1 := l2Fill s s.core.lct (clusterOf s.core.id) key cls
  let d := l2Read s1 s1.core.lct (clusterOf s.core.id) key cls
  (match lineFind s1.core key with
    | some l => blend (bmask l.dirty) l.data d
    | none => d, s1)
/-- One waiting load takes the bytes of a line, when a path reaches its home and no error is met there. -/
def serveOne (key : Nat) (p : PendOp) (s : State) : State :=
  if !reach s (dieOf s.core.id) key || (homeErr s key).isSome then s
  else
    let r := lineNow key (loadCls p) s
    r.2.mapCore fun c => { c with pend := c.pend.map fun q => if q.seq == p.seq then serveOf key (loadCls p) r.1 q else q }
/-- What the core has pending of a line: an atomic is performed, a load behind no atomic takes its bytes. -/
def settleOne (key : Nat) (p : PendOp) (s : State) : State :=
  if atomKey p == some key then performOp p s else if waitsFor key p && !lineBehind s key p then serveOne key p s else s
/-- Before the core writes a line (R297): its earlier atomics there are performed, and its earlier loads take their
bytes, in program order, some cycle between issue and completion. Behind an ordered atomic of the line, or one whose home no
path reaches, all of them wait for it. -/
def settle (key : Nat) (s : State) : State :=
  if ordLine s.core key then s
  else s.core.pend.foldl (fun s p => settleOne key p s) s

/-- What waited behind an atomic of a line, up to the next one that cannot be performed: the core's later atomics, loads and
stores there, in program order (R297). -/
def replay (key : Nat) (s : State) : State :=
  let lim := ((s.core.pend.filter fun p => atomKey p == some key && !canPerform s p).map (·.seq)).head?
  let now (n : Nat) : Bool := match lim with
    | some m => n ≤ m
    | none => true
  let mine (y : Nat × Nat × Byte) : Bool := lineKey y.2.1 == key
  let put (s : State) (y : Nat × Nat × Byte) : State := s.mapCore fun c => dirtyByte c y.2.1 y.2.2
  let stay := s.core.young.filter fun y => !(mine y && now y.1)
  let one (acc : State × List (Nat × Nat × Byte)) (p : PendOp) : State × List (Nat × Nat × Byte) :=
    let s1 := (acc.2.filter fun y => y.1 ≤ p.seq).foldl put acc.1
    (settleOne key p s1, acc.2.filter fun y => p.seq < y.1)
  let todo := s.core.pend.filter fun p => now p.seq && !isOrd p && (atomKey p == some key || waitsFor key p)
  let r := todo.foldl one
    (s.mapCore fun c => { c with young := c.young.filter fun y => !mine y }, s.core.young.filter fun y => mine y && now y.1)
  (l1dEvict (r.2.foldl put r.1)).mapCore fun c => { c with young := stay }
/-- Perform a pending atomic or CWADD, then what waited behind it. -/
def performLine (p : PendOp) (s : State) : State :=
  match atomKey p with
  | some key =>
    let s1 := performOp p s
    if s1.core.young.any fun y => lineKey y.2.1 == key then replay key s1 else s1
  | none => s

/-! ## Stores -/

/-- The locations of a range of the scratchpad window, and of global bytes. -/
def locsOf (c : Core) (off n : Nat) : List Loc := (List.range n).map fun i => locOfOff c (off + i)
def globLocs (a n : Nat) : List Loc := (List.range n).map fun i => .glob (a + i)

/-- The latest held store to a byte (R380). A held push is no store and is not read. -/
def heldByte (h : List Held) (l : Loc) : Option Byte :=
  h.foldl (fun acc e => match e with
    | .store b _ _ => match (b.filter fun x => x.1 == l).getLast? with
      | some x => some x.2
      | none => acc
    | _ => acc) none

/-- Put an item in the Tadpole buffer (R378). -/
def hold (h : Held) (s : State) : State := s.mapRgn fun r => { r with held := r.held ++ [h] }

/-- Write one byte where it lives (R160, R290): the line enters %wsig (R175), a scratchpad byte raises its core's
watermark (R417). -/
def storeLoc (x : Loc × Byte) (s : State) : State :=
  match x.1 with
  | .glob a => addLineSig (lineKey a) ((settle (lineKey a) s).mapCore fun c => storeByte c a x.2)
  | .spad a =>
    let id := a / 2 ^ 28 * 512 + a / 2 ^ 25 % 8 * 64 + a / 2 ^ 19 % 64
    let up (c : Core) : Core := if c.id = id then { c with wmark := max c.wmark (a % 2 ^ 19 + 1) } else c
    { s with spad := Mem.put s.spad a x.2, core := up s.core, others := s.others.map up }
def storeLocs (l : List (Loc × Byte)) (s : State) : State := l1dEvict (l.foldl (fun s x => storeLoc x s) s)

/-- Put a token operation in flight (R210), with the bytes that its completion counts. -/
def addPendHot (hot : Option (Fin 16 × Nat)) (tok : Fin 8) (k : PKind) (ea : Word) (s : State) : State :=
  s.mapCore fun c => { c with seq := c.seq + 1, pend := c.pend ++ [⟨c.seq, tok, k, ea, c.slot, c.pc, regionOpen c, hot⟩] }
def addPend (tok : Fin 8) (k : PKind) (ea : Word) (s : State) : State := addPendHot none tok k ea s

/-- Arm the lowest-numbered guard not armed, inside an open region (R292). -/
def armGuard (l : List Loc) (s : State) : State :=
  if regionOpen s.core then
    match (List.finRange 16).find? fun i => (s.core.rgn.guards.get i).isNone with
    | some i => s.mapRgn fun r => { r with guards := r.guards.set i.val (some l) i.isLt }
    | none => s
  else s

/-- A load returns in a rerun: its address, those of its elements, and its value enter the load digest (R394). -/
def digestLoad (ea : Word) (more b : List Byte) (s : State) : State :=
  if s.core.rgn.st == .rerunA || s.core.rgn.st == .rerunB then
    s.mapRgn fun r => { r with loadCrc := crcBytes r.loadCrc (toBytes 8 ea ++ more ++ b) }
  else s

/-- Note a deferred error (R285); one of an operation of the open region goes with the region (R390). -/
def addErr (seq : Nat) (tok : Option (Fin 8)) (cause : Byte) (ea : Word) (dst : Option RDst) (s : State) : State :=
  s.mapCore fun c =>
    let q : Option PendOp := c.pend.find? fun (p : PendOp) => p.seq == seq
    let inR : Bool := (q.map fun (p : PendOp) => p.rgn).getD (regionOpen c)
    let k : Fin 8 := (q.map fun (p : PendOp) => p.slot).getD c.slot
    let pc : Word := (q.map fun (p : PendOp) => p.pc).getD c.pc
    { c with errs := c.errs ++ [⟨seq, tok, cause, ea, dst, k, pc, inR⟩] }

/-- A free value of `w` bits (R8), used once. -/
def freeVal (w : Nat) (s : State) : BitVec w × State := (Config.freeBits w s.fresh, s.bump)

end Sys2Proof.Machine
end

