-- ==== Sys2Proof/Machine/MemOps.lean ====
section
/-! DEFINITION. Memory instructions of slots 3 and 4 (R289 to R302): scratchpad, global and cluster accesses, prefetch
and the stash. -/

namespace Sys2Proof.Machine

/-- A check that traps precisely at the slot (R284). -/
def orTrap (t : Option TrapInfo) (f : State → State) (s : State) : State :=
  match t with
  | some e => trapHere e.cause e.val s
  | none => f s

/-- Scratchpad loads land after 6 steps, 4 in latency class 4 (R203, R451). -/
def ldLat (s : State) : Nat := if s.core.sp.latcls = 4 then 4 else 6

/-- The lanes an access enables: all of them for a scalar size (R288). -/
def dstLanes (s : State) (g : Guard) : LdDst → BitVec 32
  | .s .. => BitVec.allOnes 32
  | .v _ => guardBits s g
def srcLanes (s : State) (g : Guard) : StSrc → BitVec 32
  | .s .. => BitVec.allOnes 32
  | .v _ => guardBits s g
/-- A guard on a scalar size governs the whole operation. -/
def dstOn (s : State) (g : Guard) : LdDst → Bool
  | .s .. => guardOn s g
  | .v _ => true
def srcOn (s : State) (g : Guard) : StSrc → Bool
  | .s .. => guardOn s g
  | .v _ => true
/-- Byte i of an access lies in lane i / 4. -/
def byteOn (m : BitVec 32) (i : Nat) : Bool := m.getLsbD (i / 4)
def countOn (m : BitVec 32) (n : Nat) : Nat := ((List.range n).filter (byteOn m)).length

/-! ## Scratchpad loads (R290 to R294) -/

/-- One byte a scratchpad load takes: the latest held store, else the scratchpad or stash. -/
def loadByte (off : Nat) (s : State) : Byte × State :=
  match heldByte s.core.rgn.held (locOfOff s.core off) with
  | some b => (b, s)
  | none => spadRead s off
/-- The bytes at the enabled offsets; the others read 0. -/
def loadOffs (s : State) : List (Nat × Bool) → List Byte × State
  | [] => ([], s)
  | (o, on) :: r =>
    let x := if on then loadByte o s else (0, s)
    let t := loadOffs x.2 r
    (x.1 :: t.1, t.2)

/-- The error a scratchpad load meets in a stash line it must fill (R430). -/
def stashErr (s : State) (offs : List (Nat × Bool)) : Option Byte :=
  offs.findSome? fun o =>
    if o.2 then (stashLack s none o.1).bind fun x =>
      if (heldByte s.core.rgn.held (.glob x.1)).isSome then none else lineErr s (lineKey x.1)
    else none

def regOf (s : State) : LdDst → Option RDst
  | .s _ (.reg i) => some (.s i)
  | .v (.reg i) => some (.v (physV s.core.a.vrb i))
  | _ => none

/-- A load that reads at issue: the bytes, the load digest, and the destination; after an error the destination is
undefined (R285), and no byte has moved (R287). -/
def loadNow (d : LdDst) (m : BitVec 32) (ea : Word) (offs : List (Nat × Bool)) (buf : Fin 16) (n : Nat) (s : State) : State :=
  let emit (x : Vec) (s : State) : State := match d with
    | .s _ d => emitS (ldLat s) d (x.setWidth 64) 0 s
    | .v d => emitV (ldLat s) d m x 0 s
  match stashErr s offs with
  | some c =>
    let f := freeVal 1024 s
    emit f.1 (addErr s.core.seq none c ea (regOf s d) f.2)
  | none =>
    let r := loadOffs s offs
    hotBytes buf n <| emit (ofBytes 1024 r.1) (digestLoad ea (offs.flatMap fun o => toBytes 4 (BitVec.ofNat 32 o.1)) r.1 r.2)

def spanOffs (ea : Nat) (n : Nat) (m : BitVec 32) (all : Bool) : List (Nat × Bool) :=
  (List.range n).map fun i => (ea + i, all || byteOn m i)

/-- LD and LD.g (R290 to R292). -/
def ldGo (x : LD) (arm : Bool) (s : State) : State :=
  let n := LdDst.bytes x.d
  let ea := eaM s x.m n
  if !dstOn s x.g x.d then s
  else orTrap (spadTrap s ea n n false) (fun s =>
    let m := dstLanes s x.g x.d
    let k := match x.d with
      | .s .. => n
      | .v _ => countOn m n
    let s1 := if arm then armGuard (locsOf s.core ea.toNat n) s else s
    loadNow x.d m (BitVec.ofInt 64 ea) (spanOffs ea.toNat n m (m == BitVec.allOnes 32)) x.buf k s1) s
def execLd (x : LD) (s : State) : Host.Outcome State Fault Refusal := .next (ldGo x false s)
def execLdG (x : LD) (s : State) : Host.Outcome State Fault Refusal := .next (ldGo x true s)

/-- Offsets of the enabled elements of a strided or indexed load, in element order. -/
def elemOffs (m : BitVec 32) (z : Nat) (f : Nat → Int) : List (Nat × Bool) :=
  (List.range (128 / z)).flatMap fun e => (List.range z).map fun i => ((f e).toNat + i, elemOn m z e)
/-- The lanes written: a 64-bit element is enabled, both its lanes, when its lower lane is (R291). -/
def elemLanes (m : BitVec 32) (z : Nat) : BitVec 32 :=
  let e := m &&& 0x55555555
  if z = 8 then e ||| (e <<< 1) else m
/-- A load of elements. A deferred error of it records element 0's address, whichever element's line failed: the manual names
none of its addresses (R285), log entry 14. -/
def gatherGo (g : Guard) (z : ESz) (d : Dst 128) (f : Nat → Int) (s : State) : State :=
  let m := guardBits s g
  let n := eszBytes z
  orTrap (elemTrap s (elemAddrs m n f) n false) (fun s =>
    loadNow (.v d) (elemLanes m n) (BitVec.ofInt 64 (f 0)) (elemOffs m n f) 0 (n * (elemAddrs m n f).length) s) s
def execLds (g : Guard) (z : ESz) (d : Dst 128) (a b : Src 64) (s : State) : Host.Outcome State Fault Refusal :=
  .next (gatherGo g z d (strideAddr s a b) s)
def execLdx (g : Guard) (z : ESz) (d : Dst 128) (a : Src 64) (b : Src 128) (s : State) :
    Host.Outcome State Fault Refusal :=
  let r := readV s b
  let f := indexAddr (readS s a) r.1 (eszBytes z)
  let m := guardBits s g
  match elemTrap s (elemAddrs m (eszBytes z) f) (eszBytes z) false with
  | some t => .next (trapHere t.cause t.val s)
  | none => .next (gatherGo g z d f r.2)

/-! ## Scratchpad stores -/

/-- The source of a store, as bytes. -/
def srcBytes (s : State) : StSrc → List Byte × State
  | .s z a => (toBytes (eszBytes z) (readS s a), s)
  | .v a =>
    let r := readV s a
    (toBytes 128 r.1, r.2)

/-- The enabled bytes of a store at an offset, with their locations. -/
def storeAt (c : Core) (off : Nat) (m : BitVec 32) (all : Bool) (b : List Byte) : List (Loc × Byte) :=
  ((List.range b.length).zip b).filterMap fun x =>
    if all || byteOn m x.1 then some (locOfOff c (off + x.1), x.2) else none

/-- Store now, or into the Tadpole buffer in an open region (R378). -/
def storeOrHold (l : List (Loc × Byte)) (s : State) : State :=
  if regionOpen s.core then hold (.store l false none) s else storeLocs l s

/-- ST counts its bytes against its buffer when it issues, held in a region or not, and they stay counted when the region rolls
back: the manual leaves the moment open (R287), log entry 14. -/
def execSt (g : Guard) (a : StSrc) (m : MAddr) (buf : Fin 16) (s : State) : Host.Outcome State Fault Refusal :=
  let n := StSrc.bytes a
  let ea := eaM s m n
  if !srcOn s g a then .next s
  else .next (orTrap (spadTrap s ea n n true) (fun s =>
    let r := srcBytes s a
    let l := storeAt r.2.core ea.toNat (srcLanes s g a) (n != 128) r.1
    hotBytes buf l.length (storeOrHold l r.2)) s)

/-- Element stores in ascending order, one held entry each (R294, R378). -/
def scatterGo (m : BitVec 32) (z : Nat) (f : Nat → Int) (x : Vec) (s : State) : State :=
  let es := elemAddrs m z f
  hotBytes 0 (z * es.length) (es.foldl (fun s e =>
    storeOrHold (storeAt s.core e.2.toNat 0 true (toBytes z (x >>> (8 * z * e.1)))) s) s)
def execSts (g : Guard) (z : ESz) (a b : Src 64) (c : Src 128) (s : State) : Host.Outcome State Fault Refusal :=
  let m := guardBits s g
  let n := eszBytes z
  let f := strideAddr s a b
  .next (orTrap (elemTrap s (elemAddrs m n f) n true) (fun s =>
    let r := readV s c
    scatterGo m n f r.1 r.2) s)
def execStx (g : Guard) (z : ESz) (a : Src 64) (b c : Src 128) (s : State) : Host.Outcome State Fault Refusal :=
  let m := guardBits s g
  let n := eszBytes z
  let i := readV s b
  let f := indexAddr (readS s a) i.1 n
  .next (orTrap (elemTrap s (elemAddrs m n f) n true) (fun _ =>
    let r := readV i.2 c
    scatterGo m n f r.1 r.2) s)

/-! ## Global accesses (R295 to R297) -/

/-- A byte a global load has at issue: a held store, or the core's own copy. -/
def globTake (s : State) (cls : Option (Fin 8)) (on : Bool) (a : Nat) : Option Byte :=
  if !on then some 0
  else
    match heldByte s.core.rgn.held (.glob a) with
    | some b => some b
    | none => ownByte s.core s.tick cls a
/-- Ask for a line, or bring it near: a prefetch past the core's 2,048 outstanding requests is not made (R1). -/
def addFill (key : Nat) (cls : Option (Fin 8)) (pf : Bool) (s : State) : State :=
  if pf && 2048 ≤ s.core.fills.length then s
  else if s.core.fills.any fun f => f.key == key && f.cls == cls && !f.dropped && (f.pf == pf || pf) then s
  else s.mapCore fun c => { c with fills := c.fills ++ [⟨key, cls, false, pf, none⟩] }

/-- The register a token operation writes, bound at issue (R206). -/
def tokDst (s : State) : LdDst → RDst
  | .s _ (.reg i) => .s i
  | .v (.reg i) => .v (physV s.core.a.vrb i)
  | .s .. => .s 0
  | .v _ => .v 0

/-- LDG and LDG.g (R296, R292): bytes at hand are taken at issue, missing lines fill from the L2. Its bytes count when it has
completed without an error (R287; log entry 14). -/
def ldgGo (x : LG) (arm : Bool) (s : State) : State :=
  let n := LdDst.bytes x.d
  let ea := eaM s x.m n
  if !dstOn s x.g x.d then s
  else
    match checkGlob s.core.ktt ea n n .rd with
    | .error c => trapHere c (BitVec.ofInt 64 ea) s
    | .ok e =>
      let a := kttKey e ea.toNat
      let cls := classOf e x.lease
      let m := dstLanes s x.g x.d
      let on (i : Nat) : Bool := n != 128 || byteOn m i
      let got := (List.range n).map fun i => globTake s cls (on i) (a + i)
      let miss := keysOf ((((List.range n).zip got).filter fun y => y.2.isNone).map fun y => a + y.1)
      let s1 := if arm then armGuard (globLocs a n) s else s
      let s2 := countEvt 5 miss.length (miss.foldl (fun s k => addFill k cls false s) s1)
      addPendHot (some (x.buf, ((List.range n).filter on).length)) x.tok (.load (tokDst s x.d) m got (globLocs a n) cls)
        (BitVec.ofInt 64 ea) s2
def execLdg (x : LG) (s : State) : Host.Outcome State Fault Refusal := .next (ldgGo x false s)
def execLdgG (x : LG) (s : State) : Host.Outcome State Fault Refusal := .next (ldgGo x true s)

/-- STG writes into L1D or stash at issue; in a region it is held (R296, R381). -/
def execStg (x : SG) (s : State) : Host.Outcome State Fault Refusal :=
  let n := StSrc.bytes x.a
  let ea := eaM s x.m n
  if !srcOn s x.g x.a then .next s
  else
    match checkGlob s.core.ktt ea n n .wr with
    | .error c => .next (trapHere c (BitVec.ofInt 64 ea) s)
    | .ok e =>
      let a := kttKey e ea.toNat
      let r := srcBytes s x.a
      let m := srcLanes s x.g x.a
      let l := ((List.range n).zip r.1).filterMap fun y =>
        if n != 128 || byteOn m y.1 then some (Loc.glob (a + y.1), y.2) else none
      let ea' := BitVec.ofInt 64 ea
      .next (hotBytes x.buf l.length (if regionOpen s.core then
        addPend x.tok .held ea' (hold (.store l true (some x.tok.val)) r.2)
      else addPend x.tok .stg ea' (storeLocs l r.2)))

/-! ## The cluster window (R298) -/

/-- The locations an LDC or STC names. -/
def cwLocs (s : State) (ea n : Nat) : List Loc :=
  (List.range n).map fun i => .spad (spadAddr (cwCore s ea) (ea % 0x80000 + i))

def execLdc (x : LG) (s : State) : Host.Outcome State Fault Refusal :=
  let n := LdDst.bytes x.d
  let ea := eaM s x.m n
  if !dstOn s x.g x.d then .next s
  else
    match checkCluster s ea n with
    | some c => .next (trapHere c (BitVec.ofInt 64 ea) s)
    | none =>
      let m := dstLanes s x.g x.d
      let locs := cwLocs s ea.toNat n
      let got := ((List.range n).zip locs).map fun y =>
        if n != 128 || byteOn m y.1 then heldByte s.core.rgn.held y.2 else some 0
      .next (addPendHot (some (x.buf, ((List.range n).filter fun i => n != 128 || byteOn m i).length)) x.tok
        (.ldc (tokDst s x.d) m got locs) (BitVec.ofInt 64 ea) s)
def execStc (x : SG) (s : State) : Host.Outcome State Fault Refusal :=
  let n := StSrc.bytes x.a
  let ea := eaM s x.m n
  if !srcOn s x.g x.a then .next s
  else
    match checkCluster s ea n with
    | some c => .next (trapHere c (BitVec.ofInt 64 ea) s)
    | none =>
      let r := srcBytes s x.a
      let m := srcLanes s x.g x.a
      let l := ((cwLocs s ea.toNat n).zip r.1).zip (List.range n) |>.filterMap fun y =>
        if n != 128 || byteOn m y.2 then some y.1 else none
      let ea' := BitVec.ofInt 64 ea
      .next (if regionOpen s.core then
        addPendHot (some (x.buf, l.length)) x.tok .held ea' (hold (.store l false (some x.tok.val)) r.2)
      else addPendHot (some (x.buf, l.length)) x.tok (.stc l) ea' r.2)

/-- A prefetch may still be asked for: the core has less than 2,048 requests outstanding (R1), and none for the line and class. -/
def pfRoom (key : Nat) (cls : Option (Fin 8)) (s : State) : Bool :=
  s.core.fills.length < 2048 && !(s.core.fills.any fun f => f.key == key && f.cls == cls && !f.dropped)
/-- PF fills the line at EA rounded down; it never traps (R299, R284). The 64 bytes of a prefetch that is made count against its
buffer at issue, and none of one that is not: the manual does not say whether and when they count (R287; DESIGN CHOICE, log
entry 14). -/
def execPf (g : Guard) (m : MAddr) (lease : Option (Fin 8)) (buf : Fin 16) (s : State) :
    Host.Outcome State Fault Refusal :=
  whenOn g (fun s =>
    let ea := eaM s m 64
    match checkGlob s.core.ktt (ea / 64 * 64) 64 64 .rd with
    | .error _ => s
    | .ok e =>
      let a := kttKey e (ea / 64 * 64).toNat
      let cls := classOf e lease
      if (List.range 64).all fun i => (ownByte s.core s.tick cls (a + i)).isSome then s
      else hotBytes buf (if pfRoom (lineKey a) cls s then 64 else 0) (addFill (lineKey a) cls true s)) s

/-! ## The stash (R300 to R302) -/

/-- A stash operation: held in an open region, else performed by the next step. -/
def stashOp (o : StashOp) (s : State) : State :=
  if regionOpen s.core then hold (.stash o none) s else emitX (.stash o) 0 s
def execSmap (g : Guard) (a b : Src 64) (size : Fin 7) (s : State) : Host.Outcome State Fault Refusal :=
  whenOn g (fun s => orTrap (smapTrap s (readS s a) (readS s b) (12 + size.val))
    (stashOp (.smap (readS s a).toNat (readS s b).toNat (12 + size.val))) s) s
def execSunmap (g : Guard) (a : Src 64) (s : State) : Host.Outcome State Fault Refusal :=
  whenOn g (fun s => stashOp (.sunmap (readS s a).toNat) s) s
def execSdrop (g : Guard) (a : Src 64) (s : State) : Host.Outcome State Fault Refusal :=
  whenOn g (fun s => stashOp (.sdrop (readS s a).toNat) s) s
/-- SFLUSH of an unmapped offset completes its token at once (R301); in a region it still takes its entry (R378). -/
def execSflush (g : Guard) (m : MAddr) (tok : Fin 8) (buf : Fin 16) (s : State) : Host.Outcome State Fault Refusal :=
  whenOn g (fun s =>
    let ea := eaM s m 64
    orTrap (spadTrap s ea 64 64 false) (fun s =>
      let ea' := BitVec.ofInt 64 ea
      match mapOfOff (mapsAfter s) ea.toNat with
      | none => if regionOpen s.core then hold (.stash (.sflush ea.toNat buf) none) s else s
      | some mp =>
        if regionOpen s.core then addPend tok .held ea' (hold (.stash (.sflush ea.toNat buf) (some tok.val)) s)
        else addPend tok (.sflush (some (lineKey (mp.key + (ea.toNat - mp.off)))) buf) ea' s) s) s

end Sys2Proof.Machine
end

