-- ==== Sys2Proof/Machine/Streams.lean ====
section
/-! DEFINITION. Stream instructions and the transfer unit (R303 to R311). -/

namespace Sys2Proof.Machine

/-- QBIND reads its descriptor at issue and binds from the next step (R305). In an open region it reads memory, and no bytes that
stores of the region hold: the manual names loads, streams and the state-space unit alone (R380; DESIGN CHOICE, log entry 54). A
descriptor in a stash line that meets an error is undefined, and the error is deferred with the stream as its destination (R285;
log entry 46). -/
def execQbind (g : Guard) (q : Fin 8) (m : MAddr) (s : State) : Host.Outcome State Fault Refusal :=
  whenOn g (fun s =>
    let ea := eaM s m 64
    orTrap (spadTrap s ea 64 64 false) (fun s => match spadErr s ea.toNat 64 with
      | some c =>
        let f := freeVal 512 s
        emitX (.qact (.bind q (qDescOf (toBytes 64 f.1)))) 0 (addErr s.core.seq none c (BitVec.ofInt 64 ea) (some (.q q)) f.2)
      | none =>
        let r := spadReadN s ea.toNat 64
        let d := qDescOf r.1
        if qbindBad s q d then trapHere 0x0A (BitVec.ofInt 64 ea) s
        else emitX (.qact (.bind q d)) 0 r.2) s) s

/-- The data of the pushes to a stream still in flight enters it now; their latches land by step count. QFLUSH waits
for pushes that no stalled step could land (R204, R308): log entry 7. -/
def takePushes (k : Fin 8) (s : State) : State :=
  let mine (f : Flight) : Bool := match f.dest with
    | .stream j _ => j == k
    | _ => false
  let fs := s.core.flights.filter mine
  let ent (a : Arch) (f : Flight) : Arch := match f.dest with
    | .stream j idx => { a with streams := a.streams.set j.val (fillOut (a.streams.get j) idx f.val) j.isLt }
    | _ => a
  s.mapCore fun c => { c with
    a := fs.foldl ent c.a
    flights := c.flights.map fun f => if mine f then { f with dest := .latchOnly } else f
    rgn := { c.rgn with
      held := fs.foldl landHeld c.rgn.held
      shadow := c.rgn.shadow.map fun a => (fs.filter fun f => !f.rgn).foldl ent a } }

/-- Write every element pushed to a stream. -/
def drainOut (k : Fin 8) (s : State) : State :=
  let s1 := takePushes k s
  (List.range (getQ s1 k).outq.length).foldl (fun s _ => streamWriteHead k s) s1

/-- QFLUSH writes every element pushed before it (R308, R311). -/
def execQflush (g : Guard) (q : Fin 8) (s : State) : Host.Outcome State Fault Refusal :=
  whenOn g (fun s => if (getQ s q).bound && qOut (getQ s q).desc then drainOut q s else s) s
/-- QUNBIND flushes an out stream, drops an in stream's elements, and unbinds from the next step. A push of a higher slot of the
same bundle still finds the stream bound, and outside a region its element is lost with the binding: the manual gives it no
place (R308), log entry 14. -/
def execQunbind (g : Guard) (q : Fin 8) (s : State) : Host.Outcome State Fault Refusal :=
  whenOn g (fun s =>
    if (getQ s q).bound then
      emitX (.qact (.unbind q)) 0 (if qOut (getQ s q).desc then drainOut q s else s)
    else s) s

/-- Held pushes of a stream as it is bound now count as buffered (R311). -/
def heldPushes (s : State) (k : Fin 8) : Nat := (s.core.rgn.held.filter fun h => match h with
  | .push j i .. => j == k && i < 2 ^ 32
  | _ => false).length
/-- The status word (R309). -/
def qstatWord (s : State) (k : Fin 8) : Word :=
  let q := getQ s k
  if !q.bound then 0
  else
    let out := qOut q.desc
    let buf := if out then q.outq.length + heldPushes s k else q.inq.length
    let flt := q.inq.any fun e => e.flt.isSome
    BitVec.ofNat 64 ((qCount q.desc - q.pos) % 2 ^ 32) ||| (BitVec.ofNat 64 (buf % 256) <<< 32)
      ||| (1#64 <<< 40) ||| (if out then 1#64 <<< 41 else 0) ||| (if flt then 1#64 <<< 42 else 0)
def execQstat (g : Guard) (d : Dst 64) (q : Fin 8) (s : State) : Host.Outcome State Fault Refusal :=
  whenOn g (fun s => emitS 1 d (qstatWord s q) 0 s) s

/-- The lines an element of level 10 is drawn from, its first one given. -/
def elemLines (d : QDesc) (first : Nat) : List Nat := if qElemBytes d = 128 then [first, first + 1] else [first]
/-- Lines the core's tile fetch unit holds pinned (R306). -/
def pinned (s : State) : List Nat :=
  ((List.finRange 8).flatMap fun k =>
    let q := getQ s k
    if qLevel q.desc = 2 then (q.inq.filter (·.flt.isNone)).flatMap fun e => elemLines q.desc e.line else []).eraseDups
/-- The lines the next element of a stream would pin. -/
def nextLines (s : State) (q : QState) : List Nat :=
  let n := qElemBytes q.desc
  let ea := qAddr q.desc (q.pos + q.inq.length)
  if qLevel q.desc != 2 then []
  else match checkGlob s.core.ktt ea n n .rd with
    | .ok e => elemLines q.desc (lineKey (kttKey e ea.toNat))
    | .error _ => []
/-- The lines of a stash that the next element of a stream must fill. -/
def nextStash (s : State) (q : QState) : List Nat :=
  if qLevel q.desc = 2 then []
  else
    let ea := (qAddr q.desc (q.pos + q.inq.length)).toNat
    ((List.range (qElemBytes q.desc)).filterMap fun i => (stashLack s (qLease q.desc) (ea + i)).map fun x => lineKey x.1).eraseDups
/-- A stream has an element to fetch and a place for it. -/
def wantsFetch (s : State) (k : Fin 8) : Bool :=
  let q := getQ s k
  q.bound && !qOut q.desc && q.inq.length < 16 && q.pos + q.inq.length < qCount q.desc
    && (pinned s ++ nextLines s q).eraseDups.length ≤ 64
/-- Its lines can be read: a path leads to their homes, and no atomic of the core on a stash line, which the fetch would come
before, is still to be performed (R297, R467, R471). -/
def canFetch (s : State) (k : Fin 8) : Bool :=
  let q := getQ s k
  wantsFetch s k && (nextLines s q ++ nextStash s q).all (reach s (dieOf s.core.id)) && !(nextStash s q).any (unperformed s.core)
/-- The next element of a stream waits for an agent that no path reaches; it is recorded with an error (R467, R471). -/
def failFetch (agent : Nat) (cause : Byte) (k : Fin 8) (s : State) : State :=
  let q := getQ s k
  if wantsFetch s k && (nextLines s q ++ nextStash s q).any fun x =>
      leased x && homeAgent x == agent && !reach s (dieOf s.core.id) x then
    let j := q.pos + q.inq.length
    setQ k { q with inq := q.inq ++ [⟨j, 0, some (cause, BitVec.ofInt 64 (qAddr q.desc j)), 0⟩] } s
  else s
/-- STREAM_FETCH: the next element enters its stream's buffer, at most 16 ahead and 64 pinned lines (R306). -/
def execStreamFetch (core : Nat) (q : Fin 8) (s : State) : Host.Outcome State Fault Refusal :=
  .next (onCore core (fun s => if canFetch s q then streamFill q s else s) s)
/-- STREAM_WRITE: the oldest landed push is written, in push order (R306). -/
def execStreamWrite (core : Nat) (q : Fin 8) (s : State) : Host.Outcome State Fault Refusal :=
  .next (onCore core (streamWriteHead q) s)

end Sys2Proof.Machine
end

