-- ==== Sys2Proof/Machine/Atomics.lean ====
section
/-! DEFINITION. Atomic instructions (R312 to R315) and the ordered atomics' slices (R194 to R196). -/

namespace Sys2Proof.Machine

/-- The scope a bundle's header states (R164). -/
def scopeOf (h : Word) : Scope :=
  match (hScope h).toNat with
  | 0 => .core
  | 1 => .cluster
  | 2 => .die
  | 3 => .package
  | _ => .system
/-- The scope of the bundle in issue (R165). -/
def curScope (s : State) : Scope := scopeOf (headerOf s.core.bundle)

/-! ## Ordered atomics -/

/-- The slices of the package: 48 of each cluster's L2, then 64 home slices of each die (R1). -/
def homeSlice0 : Nat := 32 * 48
def sliceDie (k : Nat) : Nat := if k < homeSlice0 then k / 48 / 8 else (k - homeSlice0) / 64 % 4
/-- The slice that executes an ordered atomic: of the cluster's L2, or of the homes (R188, R194). -/
def sliceFor (s : State) (sc : Scope) (a : Nat) : Nat :=
  if sc = .cluster then clusterOf s.core.id * 48 + Config.sliceOf (clusterOf s.core.id) (lineKey a) % 48
  else homeSlice0 + Config.sliceOf 32 (lineKey a) % 256
/-- The next number of a flow, taken (R194). -/
def takeNum (src slice : Nat) (s : State) : BitVec 16 × State :=
  let n := ((s.ordNums.find? fun x => x.1 == src && x.2.1 == slice).map (·.2.2)).getD 0
  (n, { s with ordNums := (src, slice, n + 1) :: s.ordNums.filter fun x => !(x.1 == src && x.2.1 == slice) })
def sliceGet (s : State) (k : Nat) : OrdSlice := (s.ords.find? fun x => x.slice == k).getD ⟨k, [], [], [], 0, [], 0, 0⟩
def sliceSet (x : OrdSlice) (s : State) : State := { s with ords := x :: s.ords.filter fun y => y.slice != x.slice }
def nextOf (x : OrdSlice) (src : Nat) : BitVec 16 := ((x.nextNum.find? fun y => y.1 == src).map (·.2)).getD 0
def isNext (x : OrdSlice) (r : OrdReq) : Bool := r.num == nextOf x r.core
/-- Flows active in a slice: those the buffer holds an atomic of (R196). -/
def activeFlows (x : OrdSlice) : List Nat := (x.buf.map (·.core)).eraseDups
/-- R196: whether the slice admits an arrival. A new flow needs a free entry of its own to reserve. -/
def admits (x : OrdSlice) (r : OrdReq) : Bool :=
  let act := (activeFlows x).length
  let other := (x.buf.filter fun y => !isNext x y).length
  if (activeFlows x).contains r.core then isNext x r || act + other < 64
  else act < 32 && act + 1 + other + (if isNext x r then 0 else 1) ≤ 64
/-- A source of another package, as a slice numbers it; and the source number of a request (R11, R468). -/
def farCore (pkg src : Nat) : Nat := 2 ^ 32 + src * 2 ^ 16 + pkg
def reqSrc (r : OrdReq) : Nat := if r.far.isSome then (r.core - 2 ^ 32) / 2 ^ 16 else srcNum r.core
/-- Before an atomic the slice has applied, in issue step then source (R195). -/
def isLate (x : OrdSlice) (r : OrdReq) : Bool :=
  r.step.toNat < x.lastStep || (r.step.toNat == x.lastStep && reqSrc r < x.lastSrc)
/-- The position of the task a core runs in its gang, as a record's slot byte has it (R431). -/
def gposByte (id : Nat) (s : State) : Byte := (coreOf s id).sp.gpos ++ (0 : BitVec 4)
/-- An admitted atomic enters the buffer, a late one logged. -/
def enterOrd (x : OrdSlice) (r : OrdReq) (s : State) : State :=
  let s1 := sliceSet { x with buf := x.buf ++ [r], refused := x.refused.filter (· != r), tried := x.tried.filter (· != r) } s
  if isLate x r then
    record (if r.far.isSome then sliceDie x.slice else dieOf r.core) (reqSrc r) 0x82 (gposByte r.core s)
      (BitVec.ofNat 64 (reqSrc r)) r.step s1
  else s1
def ordBefore (a b : OrdReq) : Bool :=
  a.step.toNat < b.step.toNat || (a.step.toNat == b.step.toNat && reqSrc a < reqSrc b)
/-- The pending operation a request stands for, at its core. -/
def ordOp (s : State) (r : OrdReq) : Option PendOp := (coreOf s r.core).pend.find? fun p => p.seq == r.pseq && isOrd p
/-- An older ordered atomic of the same core and line is still to be performed, in another slice (R297). -/
def ordWaits (s : State) (r : OrdReq) : Bool :=
  match ordOp s r with
  | some p => (coreOf s r.core).pend.any fun q => q.seq < p.seq && ordOpen q && atomKey q == atomKey p
  | none => false
/-- The next atomic a slice applies at the end of step `m`: the first in issue step, then source, among those next in
their flow and stamped before `m` (R195). -/
def pickOrd (s : State) (x : OrdSlice) (m : Nat) : Option OrdReq :=
  (x.buf.filter fun r => isNext x r && r.step.toNat + 1 ≤ m && !ordWaits s r).foldl (fun acc r => match acc with
    | none => some r
    | some a => if ordBefore r a then some r else some a) none
/-- An atomic of an agent outside the clusters, at the home of its line (R466, R469); a poisoned line keeps its bytes. -/
def homeAtomic (op : AOp) (z : ASz) (a : Nat) (x x2 : Word) (s : State) : State :=
  if (homeErr s (lineKey a)).isSome then s
  else
    let n := aszBytes z
    let old := ofBytes 64 (((toBytes 64 (homeRead s (lineKey a))).drop (a % 64)).take n)
    homeStore none (bytesAt a (toBytes n (atomNew op z old x x2))) s
/-- The answer of an ordered atomic of the host or of another package, once it is performed (R466, R469). -/
def answerOrd (r : OrdReq) (a : Nat) (b : List Byte) (s : State) : State :=
  let src := reqSrc r
  let pkg := (r.core - 2 ^ 32) % 2 ^ 16
  if pkg = 1024 then sendFlit (Fin.ofNat 4 (src / 1024)) b s
  else sendNum (sliceSrc (homeSliceOf (lineKey a))) (farDst pkg src) s
/-- Perform the pending ordered atomic a request stands for, at its core, behind the core's earlier atomics of the line
and before its later accesses of it (R297); with its home dead or its line poisoned it is not performed (R285). -/
def performOrd (r : OrdReq) (s : State) : State :=
  match r.far with
  | some (op, z, a, x, x2) =>
    answerOrd r a (((toBytes 64 (homeRead s (lineKey a))).drop (a % 64)).take (aszBytes z)) (homeAtomic op z a x x2 s)
  | none => onCore r.core (fun s =>
    match s.core.pend.find? fun p => p.seq == r.pseq with
    | some p =>
      match p.kind with
      | .ordAtomic op z d x x2 sc a none =>
        if (homeErr s (lineKey a)).isSome then s else
        let s1 := (s.core.pend.filter fun q => q.seq < p.seq && atomKey q == some (lineKey a)).foldl
          (fun s q => performOp q s) s
        let q := rmw sc a (aszBytes z) (fun old => atomNew op z old x x2) s1
        replay (lineKey a) (pendSet p.seq (.ordAtomic op z d x x2 sc a (some q.1)) q.2)
      | _ => s
    | none => s) s
/-- The atomics applied at the end of step `m`, one after the other; each is progress to what was refused (R196). -/
def applyOrd (k m : Nat) : Nat → State → State
  | 0, s => s
  | n + 1, s =>
    let x := sliceGet s k
    match pickOrd s x m with
    | none => s
    | some r =>
      let y : OrdSlice := { x with
        buf := x.buf.filter fun z => z != r
        tried := []
        nextNum := (r.core, r.num + 1) :: x.nextNum.filter fun z => z.1 != r.core
        lastStep := if isLate x r then x.lastStep else r.step.toNat
        lastSrc := if isLate x r then x.lastSrc else reqSrc r }
      applyOrd k m n (sliceSet y (performOrd r s))
/-- The end of the slice's own last Belfry step, once for each step (R195). -/
def stepEnds (k : Nat) (s : State) : State :=
  let x := sliceGet s k
  let n := stepOf s (sliceDie k)
  if n ≤ x.ended then s
  else applyOrd k (n - 1) x.buf.length (sliceSet { x with ended := n } s)
/-- ORDERED_ATOMIC_APPLY: the end of the slice's Belfry step (R195). -/
def execOrderedAtomicApply (slice : Nat) (s : State) : Host.Outcome State Fault Refusal := .next (stepEnds slice s)
/-- ORDERED_ATOMIC_ARRIVAL: the n-th request on its way to a slice arrives, in whatever order: admitted, or refused until
the slice makes progress (R194, R196). -/
def execOrderedAtomicArrival (slice n : Nat) (s : State) : Host.Outcome State Fault Refusal :=
  match (s.ordSent.filter fun x => x.slice == slice)[n]? with
  | none => .next s
  | some y =>
    let s1 := stepEnds slice { s with ordSent := s.ordSent.filter fun z => z != y }
    let x := sliceGet s1 slice
    .next (if admits x y.req then enterOrd x y.req s1
      else sliceSet { x with refused := x.refused ++ [y.req], tried := x.tried ++ [y.req] } s1)
/-- ORDERED_ATOMIC_RETRY: the n-th refused request is sent again, once for each progress of the slice and in the order in
which its source's requests were refused; refused again it keeps its place (R196). -/
def execOrderedAtomicRetry (slice n : Nat) (s : State) : Host.Outcome State Fault Refusal :=
  let s1 := stepEnds slice s
  let x := sliceGet s1 slice
  .next (match x.refused[n]? with
    | none => s1
    | some r =>
      if x.tried.contains r || (x.refused.take n).any fun y => y.core == r.core && !x.tried.contains y then s1
      else if admits x r then enterOrd x r s1
      else sliceSet { x with tried := x.tried ++ [r] } s1)

/-! ## The instructions -/

/-- The request of an atomic or CWADD toward a home outside the package, numbered as it issues (R466, R468). -/
def sendAtom (sc : Scope) (key : Nat) (s : State) : State :=
  if atHome sc then sendPkt (clusterOf s.core.id) key s else s
/-- An atomic (R312 to R315): the operand is read, the line enters %wsig, and the token becomes pending. A core-scope
atomic is performed at once; a wider one by its token's completion. -/
def atomGo (op : AOp) (ord : Bool) (x : AT) (s : State) : State :=
  let n := aszBytes x.z
  let ea := eaM s x.m n
  match checkGlob s.core.ktt ea n n .rw with
  | .error c => trapHere c (BitVec.ofInt 64 ea) s
  | .ok e =>
    let a := kttKey e ea.toNat
    let key := lineKey a
    let sc := curScope s
    let v := getS s.core.a x.r
    let v2 := getS s.core.a (x.r + 1)
    let ea' := BitVec.ofInt 64 ea
    let s1 := addLineSig key (settle key s)
    if sc = .core && !unperformed s1.core key && (placeErr .core a n s1).isNone && placeReach .core a n s1 then
      let q := rmw .core a n (fun old => atomNew op x.z old v v2) s1
      addPend x.tok (.atomic op x.z x.r v v2 sc a (some q.1)) ea' q.2
    else
      let s2 := sendAtom sc key (beforeAtomic a n s1)
      if ord && sc != .core then
        let sl := sliceFor s2 sc a
        let t := takeNum s2.core.id sl s2
        let req : OrdReq := ⟨s2.core.id, s2.core.seq, t.1, BitVec.ofNat 64 (stepOf s2 (dieOf s2.core.id)), none⟩
        addPend x.tok (.ordAtomic op x.z x.r v v2 sc a none) ea' { t.2 with ordSent := t.2.ordSent ++ [⟨sl, req⟩] }
      else addPend x.tok (.atomic op x.z x.r v v2 sc a none) ea' s2
/-- An atomic closes a region (R238) and has a whole-operation guard. -/
def atomInstr (op : AOp) (ord : Bool) (x : AT) (s : State) : Host.Outcome State Fault Refusal :=
  closes (whenOn x.g (atomGo op ord x)) s

def execAadd (x : AT) (s : State) : Host.Outcome State Fault Refusal := atomInstr .add false x s
def execAmin (x : AT) (s : State) : Host.Outcome State Fault Refusal := atomInstr .min false x s
def execAmax (x : AT) (s : State) : Host.Outcome State Fault Refusal := atomInstr .max false x s
def execAminn (x : AT) (s : State) : Host.Outcome State Fault Refusal := atomInstr .minn false x s
def execAmaxn (x : AT) (s : State) : Host.Outcome State Fault Refusal := atomInstr .maxn false x s
def execAand (x : AT) (s : State) : Host.Outcome State Fault Refusal := atomInstr .and false x s
def execAor (x : AT) (s : State) : Host.Outcome State Fault Refusal := atomInstr .or false x s
def execAxor (x : AT) (s : State) : Host.Outcome State Fault Refusal := atomInstr .xor false x s
def execAxchg (x : AT) (s : State) : Host.Outcome State Fault Refusal := atomInstr .xchg false x s
def execAcas (x : AT) (s : State) : Host.Outcome State Fault Refusal := atomInstr .cas false x s
def execAfadd (x : AT) (s : State) : Host.Outcome State Fault Refusal := atomInstr .fadd false x s
/-- The `.ord` forms (R315). -/
def execAtomicOrd (op : AOp) (x : AT) (s : State) : Host.Outcome State Fault Refusal := atomInstr op true x s

end Sys2Proof.Machine
end

