-- ==== Sys2Proof/Machine/Release.lean ====
section
/-! DEFINITION. What acquires, releases and joins do (R171, R180 to R184, R193, R201, R319, R374). -/

namespace Sys2Proof.Machine

/-! ## Copies in a cluster's L2 -/

def l2Keys (s : State) (cl : Nat) : List Nat := (s.l2.filter fun l => l.cluster == cl).map (·.key)
/-- The lines of an L2 that carry no marks. -/
def l2Clean (s : State) (cl : Nat) : List Nat := (s.l2.filter fun l => l.cluster == cl && l.marks == 0).map (·.key)

/-- A lease without a tick limit: it expires at an acquire at system scope (R193). -/
def untilAcquire (lct : Word) (c : Option (Fin 8)) : Bool := match c with
  | none => false
  | some k => (leaseDur lct k).isNone

/-! ## Acquire (R182) -/

/-- Steps 2 to 4 of an acquire of the signature `sg`: the core's lines, %wsig, and the L2 at cluster scope; leased
lines in the signature, and at system scope those held until acquire, expire (R193). -/
def acquireSig (sg : Sig) (full : Bool) (sc : Scope) (s : State) : State :=
  let cl := clusterOf s.core.id
  let s1 := if full then invalLines s (fun _ => true) false else invalLines s (inSig sg) true
  let ends (l : Option (Fin 8)) (key : Nat) : Bool :=
    leased key && ((sc == .system && untilAcquire s.core.lct l) || full || inSig sg key)
  let keep (l : Line) : Option Line :=
    if ends l.cls l.key then (if l.dirty == 0 then none else some { l with valid := l.dirty }) else some l
  let s2 := s1.mapCore fun c => { c with lines := c.lines.filterMap keep }
  let s3 := ((s2.l2.filter fun l => l.cluster == cl && ends l.cls l.key).map (·.key)).foldl (fun s k => l2Forget cl k s) s2
  let gone := s.core.lines.length - s3.core.lines.length
  let s4 := countEvt 9 gone (countEvt 8 (if full then 1 else 0) (orSig sg s3))
  if sc == .cluster then
    ((l2Clean s4 cl).filter fun k => full || inSig sg k).foldl (fun s k => l2Forget cl k s) s4
  else s4

/-- The fields of a sync object's 128 bytes (R176). -/
structure SyncObj where
  value : Word
  gen : Word
  flags : Word
  sg : Sig
def objOf (b : List Byte) : SyncObj :=
  ⟨BitVec.ofNat 64 (field b 0 8), BitVec.ofNat 64 (field b 8 8), BitVec.ofNat 64 (field b 16 8),
    ofBytes 512 (b.drop 64)⟩
def objBytes (o : SyncObj) (old : List Byte) : List Byte :=
  toBytes 8 o.value ++ toBytes 8 o.gen ++ toBytes 8 o.flags ++ (old.drop 24).take 40 ++ toBytes 64 o.sg

/-- Before an object's access at a place wider than the core its two lines leave the L1D, and before any acquire (R316). -/
def beforeObj (a : Nat) (s : State) : State := beforeAtomic (a + 64) 64 (beforeAtomic a 64 s)

/-- ACQ's effect; the generation it read (R182). It reads past the L1D at every scope: at core scope in the L2, where the
core's own bytes of the object have gone. -/
def acquireObj (sc : Scope) (a : Nat) (s : State) : Word × State :=
  let r := placeFetch (if sc = .core then .cluster else sc) a 128 (beforeObj a s)
  let o := objOf r.1
  (o.gen, acquireSig o.sg (o.flags.getLsbD 0) sc r.2)

/-! ## Release (R180, R181) -/

/-- The marked lines of its cluster's L2 that a release of a core pushes: those the core wrote, those cluster-scope
atomics wrote, and those in its %wsig (R171, R201). -/
def pushesOf (id : Nat) (sg : Sig) (l : L2Line) : Bool :=
  l.cluster == clusterOf id && l.marks != 0 && (l.amarks || l.writers.contains id || inSig sg l.key)
def pushes (c : Core) (l : L2Line) : Bool := pushesOf c.id c.sp.wsig l
/-- The lines a release of the core in focus pushes: those its own dirty bytes mark first, and the marked ones. -/
def pushKeys (s : State) : List Nat :=
  ((s.core.lines.filter fun l => l.dirty != 0).map (·.key)) ++ (s.l2.filter (pushes s.core)).map (·.key)
/-- Every home a release pushes to can be reached. -/
def pushesReach (s : State) : Bool := (pushKeys s).all (reach s (dieOf s.core.id))
/-- A push toward a dead home is never acknowledged: the release meets that error (R285, R429). -/
def pushErr (s : State) : Option Byte :=
  if (pushKeys s).any fun k => leased k && s.dead.contains (homeAgent k) then some 0x12 else none
def pushMarks (s : State) : State :=
  ((s.l2.filter (pushes s.core)).map (·.key)).foldl (fun s k => l2Push s (clusterOf s.core.id) k) s
/-- Step 2 of a release. -/
def releaseWrites (sc : Scope) (s : State) : State :=
  match sc with
  | .core => s
  | .cluster => writeBackAll s
  | _ => pushMarks (writeBackAll s)
/-- Step 4's rule on a signature. -/
def mergeSig (sg new flags : BitVec 512) : BitVec 512 × Bool :=
  if 256 ≤ popcount (sg ||| new) then (sg, true) else (sg ||| new, flags.getLsbD 0)
/-- Steps 4 and 5 on an object: RELF clears the signature first (R181). -/
def releaseNew (full : Bool) (v : Word) (w : Sig) (o : SyncObj) : SyncObj :=
  let sg := if full then 0 else o.sg
  let fl := if full then o.flags &&& ~~~1#64 else o.flags
  let m := mergeSig sg w (fl.setWidth 512)
  { value := v, gen := o.gen + 1, flags := (fl &&& ~~~1#64) ||| (if m.2 then 1#64 else 0), sg := m.1 }
/-- One atomic on an object at its place. -/
def objUpdate (sc : Scope) (a : Nat) (f : SyncObj → SyncObj) (s : State) : State :=
  let r := placeFetch sc a 128 (if sc = .core then s else beforeObj a s)
  placeWrite sc (bytesAt a (objBytes (f (objOf r.1)) r.1)) r.2
/-- Step 6: %wsig takes the set held apart (R319). -/
def clearWsig (after : Sig) (s : State) : State := s.mapSp fun p => { p with wsig := after }
/-- A whole release of the core in focus. -/
def releaseObj (full : Bool) (v : Word) (sc : Scope) (a : Nat) (after : Sig) (s : State) : State :=
  clearWsig after (objUpdate sc a (releaseNew full v s.core.sp.wsig) (releaseWrites sc s))

/-! ## Joins (R184) -/

/-- Join a command's signature: into %wsig, or the set held apart, and out of the core's lines; a dirty line in it is
written back first, as by an acquire. A fill of a line in it that is outstanding leaves no copy either, as behind an acquire
(R374): R184 speaks of lines held alone (DESIGN CHOICE, log entry 54). -/
def joinSig (sg : Sig) (s : State) : State := invalLines (orSig sg s) (inSig sg) true
/-- OR flags into %fflags, and into the shadow when the command is older than the region (R237). -/
def orFlags (f : BitVec 6) (shadow : Bool) (s : State) : State :=
  s.mapCore fun c => { c with
    a := { c.a with fflags := c.a.fflags ||| f }
    rgn := if shadow then { c.rgn with shadow := c.rgn.shadow.map fun a => { a with fflags := a.fflags ||| f } } else c.rgn }

end Sys2Proof.Machine
end

