-- ==== Sys2Proof/Machine/Graph.lean ====
section
/-! DEFINITION. Task graphs (R31 to R38), completion words (R177 to R179), translation tables as the dispatcher reads
them (R422 to R425), charges and budget faults (R29), completion, failure and retirement (R48 to R51). -/

namespace Sys2Proof.Machine

/-! ## Words at the homes -/

/-- `n` bytes as an agent outside the clusters reads them, line by line. -/
def homeBytesGet (s : State) (a n : Nat) : List Byte :=
  let k := lineKey a
  (((List.range ((a % 64 + n + 63) / 64)).flatMap fun i => toBytes 64 (homeRead s (k + i))).drop (a % 64)).take n
def homeWord (s : State) (a : Nat) : Word := ofBytes 64 (homeBytesGet s a 8)
/-- Write bytes at their homes, as an agent outside the clusters does, line by line. -/
def homeBytesPut (a : Nat) (l : List Byte) (s : State) : State :=
  let o := a % 64
  (List.range ((o + l.length + 63) / 64)).foldl (fun s i =>
    homeStore none
      (bytesAt (max a (64 * (lineKey a + i))) ((l.drop (64 * i - o)).take (if i = 0 then 64 - o else 64))) s) s
def homeWordPut (a : Nat) (w : Word) (s : State) : State := homeBytesPut a (toBytes 8 w) s

/-! ## Translation tables (R423, R424, R425) -/

/-- One entry of an image, at its 32 bytes. -/
def kttEntry (b : List Byte) : KEntry :=
  let at_ := field b 16 8
  { vbase := field b 0 8, pbase := field b 8 8, hkind := bitsOf at_ 33 32, home := bitsOf at_ 31 16,
    dlc := Fin.ofNat 8 (bitsOf at_ 15 13), absent := bitsOf at_ 12 12 == 1, x := bitsOf at_ 9 9 == 1,
    w := bitsOf at_ 8 8 == 1, rd := bitsOf at_ 7 7 == 1, lsz := bitsOf at_ 5 0 }
/-- An entry breaks R425: a reserved bit or field set, a size out of range, a misaligned base, a wrong home. -/
def kttEntryBad (b : List Byte) : Bool :=
  let at_ := field b 16 8
  let e := kttEntry b
  bitsOf at_ 63 34 != 0 || bitsOf at_ 11 10 != 0 || bitsOf at_ 6 6 != 0 || field b 24 8 != 0 || e.hkind == 3
    || (e.hkind != 1 && e.home != 0) || e.lsz < 16 || 40 < e.lsz || e.vbase % 2 ^ e.lsz != 0 || e.pbase % 2 ^ e.lsz != 0
def kttOverlap (a b : KEntry) : Bool := a.vbase < b.vbase + 2 ^ b.lsz && b.vbase < a.vbase + 2 ^ a.lsz
def kttRows (s : State) (addr : Nat) : List (List Byte) :=
  let n := (homeBytesGet s addr 1).foldl (fun _ b => b.toNat + 1) 1
  (List.range n).map fun e => homeBytesGet s (addr + 32 + 32 * e) 32
/-- Whether an image is valid (R425). -/
def kttOk (s : State) (addr : Nat) : Bool :=
  let rows := kttRows s addr
  let es := rows.map kttEntry
  addr % 4096 == 0 && ((homeBytesGet s addr 32).drop 1).all (· == 0) && rows.all (fun b => !kttEntryBad b)
    && (List.range es.length).all fun i => (es.drop (i + 1)).all fun e => match es[i]? with
      | some x => !kttOverlap x e
      | none => true
/-- The mapping a migration set, over the image's entry: the image itself is never written (R425, R426). -/
def migrEntry (s : State) (ktt : Nat) (e : KEntry) : KEntry :=
  match (s.migrs.find? fun m => m.key == ktt && m.vbase == e.vbase).bind (·.res) with
  | some (p, k, h) => { e with pbase := p, hkind := k, home := h, absent := false }
  | none => e
/-- The entries of a table as the dispatcher copies them. -/
def kttLoad (s : State) (addr : Nat) : List KEntry := ((kttRows s addr).map kttEntry).map (migrEntry s addr)

/-- Ask for the migration of the entry that covers an address (R426, R37). -/
def askMigr (ktt : Nat) (es : List KEntry) (ea : Nat) (src : Nat) (s : State) : State :=
  match kttFind es ea 1 with
  | none => s
  | some e => addMigr ktt e.vbase s.tick s.package src s

/-! ## Completion words (R178) -/

/-- One item's update: DONE, or FAILED with its cause in STATUS. A barrier object's STATUS is its generation and stays
(log entry 20). -/
def cwItem (barrier : Bool) (fail : Option Byte) (w : Word) : Word :=
  match fail with
  | none => cwMake (cwStatus w) (cwFailed w) (cwDone w + 1)
  | some c => cwMake (if barrier then cwStatus w else c.setWidth 16) (addSat16 (cwFailed w) 1) (cwDone w)
/-- R179: satisfied when DONE has reached the target or something failed. -/
def cwSatisfied (target : BitVec 32) (w : Word) : Bool := target.toNat ≤ (cwDone w).toNat || cwFailed w != 0

/-- Update the word at a virtual address; a failing check is returned. -/
def cwVirt (es : List KEntry) (va : Nat) (fail : Option Byte) (s : State) : Option Byte × State :=
  match checkGlob es (va : Int) 8 8 .wr with
  | .error c => (some c, s)
  | .ok e =>
    let a := kttKey e va
    (none, homeWordPut a (cwItem (s.barriers.contains a) fail (homeWord s a)) s)

/-! ## Nodes -/

def rcbOf (l : Launch) (n : Node) : Option Rcb := l.rcbs[n.rcb]?
def nodeDom (l : Launch) (n : Node) : Nat := ((rcbOf l n).map (·.fdom)).getD 0
def nodeKtt (l : Launch) (n : Node) : Nat := ((rcbOf l n).map (·.ktt)).getD 0
def nodeK (n : Node) (i : Fin 5) : Nat := (n.k.get i).toNat
def nodeOver (n : Node) : Bool := n.st == .complete || n.st == .failed || n.st == .cancelled

/-- The tasks of a range (R34, R39). -/
def rangeDim (n : Node) (lo hi : Nat) : Nat := bitsOf (nodeK n 2) hi lo + 1 - bitsOf (nodeK n 1) hi lo
def rangeTasks (n : Node) : Nat := rangeDim n 0 15 * rangeDim n 16 31 * rangeDim n 32 47
/-- %tile of task j (R39, R40). -/
def tileOf (n : Node) (j : Nat) : Word :=
  let nx := rangeDim n 0 15
  let ny := rangeDim n 16 31
  let x := bitsOf (nodeK n 1) 15 0 + j % nx
  let y := bitsOf (nodeK n 1) 31 16 + j / nx % ny
  let z := bitsOf (nodeK n 1) 47 32 + j / (nx * ny)
  BitVec.ofNat 64 (x + y * 2 ^ 16 + z * 2 ^ 32)
/-- Members of a gang: GSIZE + 1, or 1 (R42). -/
def gangSize (l : Launch) : Nat := l.gsize + 1
/-- A task is placed only within the visible cores of a cluster (R14, R43). -/
def visibleCores (s : State) (cl : Nat) : Nat :=
  48 - ((coresOf s).filter fun c => clusterOf c.id == cl && c.disabled).length
def launchClusters (l : Launch) : List Nat := ((List.range 8).filter fun c => l.cmask.getLsbD c).map fun c => l.die.val * 8 + c

/-- The source number of the dispatcher that walks a launch's graphs: that of the lowest cluster (R11, R38). -/
def walkSrc (l : Launch) : Nat := let c := (launchClusters l).headD 0; c / 8 * 1024 + 640 + c % 8
/-- A node's own completion word (R37). -/
def ncwUpdate (l : Nat) (n : Node) (fail : Option Byte) (s : State) : State :=
  match launchFind s l with
  | none => s
  | some lx =>
    if n.ncw = 0 then s
    else
      let es := kttLoad s (nodeKtt lx n)
      let r := cwVirt es n.ncw fail s
      match r.1 with
      | none => r.2
      | some 0x06 => askMigr (nodeKtt lx n) es n.ncw (walkSrc lx)
          { s with ncwWait := s.ncwWait ++ [(nodeKtt lx n, n.ncw, fail)] }
      | some c => record lx.die.val (dispSrc lx.die.val) 0x8B 0 (BitVec.ofNat 64 n.ncw) (c.setWidth 64) s

/-- USTEPS and UBYTES of every RCB, written at retirement (R25, R48). -/
def writeUsage (l : Launch) (s : State) : State :=
  l.rcbs.foldl (fun s r => homeWordPut (r.addr + 0x40) (BitVec.ofNat 64 r.usedBytes)
    (homeWordPut (r.addr + 0x38) (BitVec.ofNat 64 r.usedSteps) s)) s
/-- STATUS of a launch completion word: RET, and the cause of the last failure (R48). -/
def launchStatus (old : BitVec 16) (fail : Option Byte) (ret : Bool) : BitVec 16 :=
  let c : BitVec 16 := match fail with
    | some c => c.setWidth 16
    | none => old &&& 0x00FF
  if ret then c ||| 0x8000 else c
/-- Every store is visible at system scope before a launch retires (R49): marked bytes go home. -/
def pushAll (s : State) : State :=
  ((s.l2.filter fun l => l.marks != 0).map fun l => (l.cluster, l.key)).foldl (fun s x => l2Push s x.1 x.2) s
/-- One node's count in the launch completion word; the last one retires the launch in the same atomic (R48, R49). -/
def launchCount (l : Nat) (fail : Option Byte) (s : State) : State :=
  let s1 := launchUpd s l fun x => match fail with
    | none => { x with done := x.done + 1 }
    | some _ => { x with fails := x.fails + 1 }
  match launchFind s1 l with
  | none => s
  | some x =>
    let last := x.done + x.fails == x.total
    let s2 := if last then writeUsage x (pushAll s1) else s1
    let w := homeWord s2 x.cw
    let new := match fail with
      | none => cwMake (launchStatus (cwStatus w) none last) (cwFailed w) (cwDone w + 1)
      | some c => cwMake (launchStatus (cwStatus w) (some c) last) (addSat16 (cwFailed w) 1) (cwDone w)
    let s3 := homeWordPut x.cw new s2
    if last then launchUpd s3 l fun x => { x with retired := true } else s3

/-- A GNODE command ends with its node (R371). -/
def gnodeDone (n : Node) (s : State) : State :=
  match n.gnode with
  | none => s
  | some id => { s with cmds := s.cmds.map fun c => if c.id == id then { c with doneItems := [0] } else c }

/-! ## Becoming ready (R36) -/

/-- The core whose state-space unit takes a batch's scan: the cores of `CMASK` in turn, those disabled left out (R36). The
manual names none: log entry 21. -/
def batchCore (s : State) (lx : Launch) (sub : Nat) : Option Nat :=
  let l := ((launchClusters lx).flatMap fun c => (List.range 48).map (c * 64 + ·)).filter fun k => !(coreOf s k).disabled
  l[sub % max 1 l.length]?
/-- An engine command that a node issues to a cluster's engines, or a batch's scan (R36). Its descriptor is read when
it starts. -/
def nodeCmd (lx : Launch) (ni : Nat) (n : Node) (kind : EKind) (ea sub : Nat) (s : State) : State :=
  let c : EngCmd := {
    id := s.cmdNext, kind := kind, core := none, cluster := (launchClusters lx).headD 0, task := none,
    node := some (lx.id, ni), ea := BitVec.ofNat 64 ea, desc := [], sub := sub, items := 1, doneItems := [],
    failCause := none, started := false, held := false, sig := 0, flags := 0, bytes := 0,
    ssu := if kind == .sscan then batchCore s lx sub else none, kexp := none, ssthr := 4, ktt := kttLoad s (nodeKtt lx n), seq := 0, wsig := n.acq, fullinv := 256 ≤ popcount n.acq, behind := [] }
  { s with cmds := s.cmds ++ [c], cmdNext := s.cmdNext + 1 }
def copyKind (n : Node) : EKind :=
  match nodeK n 1 % 8 with
  | 0 => .cpy
  | 1 => .cpyr
  | 2 => .mcast
  | 3 => .gath
  | _ => .scat
/-- Start what a ready node does by itself: engine nodes issue their commands. -/
def launchNode (l ni : Nat) (s : State) : State :=
  match launchFind s l, nodeFind s l ni with
  | some lx, some n =>
    if n.kind = 1 then nodeCmd lx ni n (copyKind n) (nodeK n 0) 0 (nodeUpd s l ni fun x => { x with st := .running })
    else if n.kind = 2 then nodeCmd lx ni n .coll (nodeK n 0) 0 (nodeUpd s l ni fun x => { x with st := .running })
    else if n.kind = 3 then
      (List.range (nodeK n 1 % 65536)).foldl (fun s i => nodeCmd lx ni n .sscan (nodeK n 0 + 64 * i) i s)
        (nodeUpd s l ni fun x => { x with st := .running })
    else if n.kind = 0 then
      -- R42, R43: a range that is no multiple of the gang, or can never be placed
      let g := gangSize lx
      let small := (launchClusters lx).all fun c => visibleCores s c < g
      let bad := rangeTasks n % g != 0 || small
        || (match (rcbOf lx n).bind (·.cores) with
          | some b => b < g
          | none => false)
      if bad then nodeUpd s l ni fun x => { x with faulted := some 0x11 } else s
    else s
  | _, _ => s
/-- A node becomes ready; in a stopped domain it is held (R50, R428). -/
def readyNode (l ni : Nat) (s : State) : State :=
  match launchFind s l, nodeFind s l ni with
  | some lx, some n =>
    let held := domStopped s lx.die.val (nodeDom lx n)
    let s1 := nodeUpd s l ni fun x => { x with st := .ready, heldReady := held, readyTick := s.tick }
    if held then s1 else launchNode l ni s1
  | _, _ => s

/-! ## Completion and failure (R36, R37, R48) -/

/-- The successors of a node, transitively. -/
def reachNodes (nodes : List Node) : Nat → List Nat → List Nat
  | 0, l => l
  | f + 1, l =>
    let next := l.flatMap fun i => ((nodes[i]?).map (·.succ)).getD []
    reachNodes nodes f (l ++ next).eraseDups
def failOne (l ni : Nat) (st : NState) (cause : Byte) (s : State) : State :=
  match nodeFind s l ni with
  | none => s
  | some n =>
    if nodeOver n then s
    else launchCount l (some cause) (ncwUpdate l n (some cause) (gnodeDone n
      (nodeUpd s l ni fun x => { x with st := st, status := cause, heldReady := false })))
/-- A node fails: its successors are cancelled with the same status. -/
def failNode (l ni : Nat) (st : NState) (cause : Byte) (s : State) : State :=
  match launchFind s l with
  | none => s
  | some lx =>
    let after := (reachNodes lx.nodes lx.nodes.length [ni]).filter (· != ni)
    after.foldl (fun s i => failOne l i .cancelled cause s) (failOne l ni st cause s)
/-- A node completes: its words, then its successors' counts. -/
def finishNode (l ni : Nat) (s : State) : State :=
  match nodeFind s l ni with
  | none => s
  | some n =>
    if nodeOver n then s
    else
      let s1 := ncwUpdate l n none (gnodeDone n (nodeUpd s l ni fun x => { x with st := .complete }))
      let s2 := n.succ.foldl (fun s i =>
        nodeUpd s l i fun x => { x with work := x.work - 1, acq := x.acq ||| n.acq ||| n.sig }) s1
      let s3 := n.succ.eraseDups.foldl (fun s i => match nodeFind s l i with
        | some x => if x.st == .blocked && x.work == 0 then readyNode l i s else s
        | none => s) s2
      launchCount l none s3

/-! ## Tasks that end -/

def freeSlot (t : Task) (s : State) : State :=
  match t.slot with
  | none => s
  | some n => dieUpd s (taskDom s t).1 fun d => { d with slots := d.slots.filter (· != n) }
/-- A task has ended; its node counts it, with a failure or its release's signature. -/
def endTask (t : Nat) (fail : Option Byte) (sg : Sig) (s : State) : State :=
  match taskFind s t with
  | none => s
  | some x =>
    let s1 := freeSlot x (taskUpd s t fun y => { y with st := .ended, core := none, slot := none, saved := none, stopReq := none })
    nodeUpd s1 x.launch x.node fun n => { n with
      ended := n.ended + 1, sig := n.sig ||| sg, faulted := match n.faulted with
        | some c => some c
        | none => fail }

/-! ## What a node still waits for -/

/-- The commands of a node that are not over. -/
def nodeCmds (s : State) (l ni : Nat) : List EngCmd := s.cmds.filter fun c => c.node == some (l, ni)
/-- Commands of tasks of a node that have ended without waiting for them (R29, R428). -/
def orphans (s : State) (l ni : Nat) : List EngCmd := s.cmds.filter fun c =>
  match c.task.bind (taskFind s) with
  | some t => t.launch == l && t.node == ni && t.st == .ended
  | none => false
/-- What a kind's completion needs (R33). -/
def nodeDone (s : State) (l ni : Nat) (n : Node) : Bool :=
  n.faulted.isNone && !n.heldReady &&
  (if n.kind = 4 then n.st == .ready
   else if n.kind = 0 then (n.st == .ready || n.st == .running) && n.ended == rangeTasks n
   else if n.kind ≤ 3 then n.st == .running && (nodeCmds s l ni).isEmpty
   else false)
/-- A failed node's tasks and items, and the items its tasks had started, have all ended (R49, R50). -/
def nodeQuiet (s : State) (l ni : Nat) (n : Node) : Bool :=
  (n.kind != 0 || n.bound == n.ended) && (nodeCmds s l ni).isEmpty && (orphans s l ni).isEmpty

/-! ## Charges (R29, R339) -/

def rcbAncestors (l : Launch) : Nat → Nat → List Nat
  | 0, _ => []
  | f + 1, r => r :: (match (l.rcbs[r]?).bind (·.parent) with
    | some p => rcbAncestors l f p
    | none => [])
def inSubtree (l : Launch) (top r : Nat) : Bool := (rcbAncestors l 8 r).contains top
/-- Add to the totals of an RCB and of its ancestors. -/
def addUse (l r steps bytes : Nat) (s : State) : State :=
  launchUpd s l fun x =>
    let up := rcbAncestors x 8 r
    { x with rcbs := (List.range x.rcbs.length).zipWith (fun i q =>
        if up.contains i then { q with usedSteps := q.usedSteps + steps, usedBytes := q.usedBytes + bytes } else q) x.rcbs }
/-- The bytes of a node's commands are charged when it is over (R339). -/
def useNode (l ni : Nat) (s : State) : State :=
  match nodeFind s l ni with
  | some n => if n.bytes = 0 then s else addUse l n.rcb 0 n.bytes (nodeUpd s l ni fun x => { x with bytes := 0 })
  | none => s
/-- A saved task's steps not yet charged are charged at its end (R29). -/
def useSaved (t : Task) (s : State) : State :=
  match t.saved, taskNode s t with
  | some v, some n => if v.chg = 0 then s else addUse t.launch n.rcb v.chg 0 s
  | _, _ => s
/-- A budget fault of the subtree of RCB `r` (R29). What its tasks and nodes still owe is charged as they end. -/
def budgetFault (l r : Nat) (total : Nat) (s : State) : State :=
  match launchFind s l with
  | none => s
  | some lx =>
    let s1 := record lx.die.val (dispSrc lx.die.val) 0x14 0 (BitVec.ofNat 64 ((lx.rcbs[r]?.map (·.addr)).getD 0))
      (BitVec.ofNat 64 total)
      (launchUpd s l fun x => { x with rcbs := (List.range x.rcbs.length).zipWith (fun i q =>
        if inSubtree lx r i then { q with stopped := true } else q) x.rcbs })
    let mine (t : Task) : Bool := t.launch == l && (match lx.nodes[t.node]? with
      | some n => inSubtree lx r n.rcb
      | none => false)
    let s2 := (s1.tasks.filter mine).foldl (fun s t => match t.st with
      | .running => taskUpd s t.id fun x => { x with stopReq := some .budget }
      | .ready | .waiting | .migrating => endTask t.id (some 0x14) 0 (useSaved t s)
      | .stopped | .ended => s) s1
    let idx := (List.range lx.nodes.length).filter fun i => match nodeFind s2 l i with
      | some n => inSubtree lx r n.rcb && !nodeOver n
      | none => false
    let s3 : State := { s2 with cmds := s2.cmds.filter fun c => c.started || !(match c.node with
      | some (a, b) => a == l && idx.contains b
      | none => false) }
    idx.foldl (fun s i => match nodeFind s l i with
      | none => s
      | some n =>
        if nodeDone s2 l i n then finishNode l i (useNode l i s)
        else if nodeQuiet s l i n then failNode l i .cancelled 0x14 (useNode l i s)
        else nodeUpd s l i fun x => { x with faulted := some (x.faulted.getD 0x14) }) s3
/-- Charge an RCB and its ancestors; totals past an effective budget fault (R29). -/
def chargeRcb (l r steps bytes : Nat) (s : State) : State :=
  match launchFind s l with
  | none => s
  | some lx => (rcbAncestors lx 8 r).foldl (fun s i =>
      match (launchFind s l).bind fun x => x.rcbs[i]? with
      | none => s
      | some q =>
        if q.stopped then s
        else
          match q.steps, q.bytes with
          | some b, _ => if b < q.usedSteps then budgetFault l i q.usedSteps s
              else (match q.bytes with
                | some c => if c < q.usedBytes then budgetFault l i q.usedBytes s else s
                | none => s)
          | none, some c => if c < q.usedBytes then budgetFault l i q.usedBytes s else s
          | none, none => s) (addUse l r steps bytes s)
/-- Charge a task's RCB. -/
def chargeTask (t steps bytes : Nat) (s : State) : State :=
  match taskFind s t with
  | none => s
  | some x => match taskNode s x with
    | none => s
    | some n => chargeRcb x.launch n.rcb steps bytes s

/-! ## Node events -/

/-- The bytes of a node's commands are charged at its completion, before a launch that it ends retires (R25, R339). -/
def chargeNode (l ni : Nat) (n : Node) (s : State) : State :=
  if n.bytes = 0 then s else chargeRcb l n.rcb 0 n.bytes (nodeUpd s l ni fun x => { x with bytes := 0 })
/-- NODE_COMPLETE (R36, R49). -/
def execNodeComplete (launch node : Nat) (s : State) : Host.Outcome State Fault Refusal :=
  match nodeFind s launch node with
  | some n => .next (if nodeDone s launch node n then finishNode launch node (chargeNode launch node n s) else s)
  | none => .next s
/-- NODE_FAIL: a node whose item or task failed, with that cause (R37, R42, R43, R48). -/
def execNodeFail (launch node : Nat) (cause : BitVec 8) (s : State) : Host.Outcome State Fault Refusal :=
  match nodeFind s launch node with
  | some n =>
    .next (if n.faulted == some cause && nodeQuiet s launch node n then
      failNode launch node .failed cause (chargeNode launch node n s) else s)
  | none => .next s

/-- What a wait node finds: satisfied, a failure, an absent entry, or neither (R37). -/
inductive WaitSees where
  | yes | no | absent | fails (c : Byte)
deriving DecidableEq, Repr
def waitSees (s : State) (es : List KEntry) (n : Node) : WaitSees :=
  let sz := if n.kind = 5 then 8 else 128
  match checkGlob es (nodeK n 0 : Int) sz 1 .rd with
  | .error 0x06 => .absent
  | .error c => .fails c
  | .ok e =>
    let a := kttKey e (nodeK n 0)
    if n.kind = 5 then
      let w := homeWord s a
      if cwFailed w != 0 then .fails (w.extractLsb' 48 8)
      else if nodeK n 1 % 2 ^ 32 ≤ (cwDone w).toNat then .yes else .no
    else if nodeK n 1 ≤ (homeWord s (a + 8)).toNat then .yes else .no
/-- WAIT_NODE_SATISFIED: the dispatcher reads the watched word or object of a ready wait node (R33, R36, R37). -/
def execWaitNodeSatisfied (launch node : Nat) (s : State) : Host.Outcome State Fault Refusal :=
  match launchFind s launch, nodeFind s launch node with
  | some lx, some n =>
    if n.st == .ready && !n.heldReady && (n.kind = 5 || n.kind = 6) then
      let es := kttLoad s (nodeKtt lx n)
      match waitSees s es n with
      | .yes => .next (finishNode launch node s)
      | .fails c => .next (failNode launch node .failed c s)
      | .absent => .next (askMigr (nodeKtt lx n) es (nodeK n 0) (walkSrc lx) s)
      | .no => .next s
    else .next s
  | _, _ => .next s

end Sys2Proof.Machine
end

