-- ==== Sys2Proof/Machine/Ssm.lean ====
section
/-! DEFINITION. The arithmetic of the state-space scan (R349 to R351): every rounding is one RNE_f32 of the exact
expression, in the index order given. Values are FP32 bit patterns; flags accumulate. -/

namespace Sys2Proof.Machine

/-- A value with the flags raised so far. -/
structure Fl where
  val : Nat
  fl : BitVec 6
deriving DecidableEq, Repr

def f32v (x : Nat) : FVal := decodeF f32F x
/-- One RNE_f32 of an exact value. -/
def rn (v : FVal) (fl : BitVec 6) : Fl :=
  let r := roundF f32F .rne v
  ⟨r.1, fl ||| r.2⟩
/-- The NaN of a product or sum made invalid by its operands' signalling is kept by `mulX` and `addX`. -/
def sumX (a b : FVal) : FVal := addX .rne a b

abbrev Mat := List (List Nat)
def matAt (m : Mat) (i j : Nat) : Nat := (m.getD i []).getD j 0
def vecAt (l : List FVal) (i : Nat) : FVal := l.getD i (.fin false 0 0)

/-- One step's data: x and B and C as exact BF16 values, a as FP32. -/
structure SStep where
  x : List FVal
  b : List FVal
  c : List FVal
  a : FVal

/-- The skip term (R350). -/
def skipY (d : Option (List FVal)) (v : Fl) (p : Nat) (st : SStep) : Fl :=
  match d with
  | some dv => rn (sumX (f32v v.val) (mulX (vecAt dv p) (vecAt st.x p))) v.fl
  | none => v

/-- A sum over n of terms, each rounded into the running value from +0. -/
def runSum (n : Nat) (term : Nat → FVal) (fl : BitVec 6) : Fl :=
  (List.range n).foldl (fun u i => rn (sumX (f32v u.val) (term i)) u.fl) ⟨0, fl⟩

/-- A row of results, with their flags joined. -/
def rowOf (n : Nat) (f : Nat → Fl) : List Nat × BitVec 6 :=
  let l := (List.range n).map f
  (l.map (·.val), l.foldl (fun acc v => acc ||| v.fl) 0)
def matOf (n p : Nat) (f : Nat → Nat → Fl) : Mat × BitVec 6 :=
  let l := (List.range n).map fun i => rowOf p (f i)
  (l.map (·.1), l.foldl (fun acc v => acc ||| v.2) 0)

/-- The recurrent form of a chunk: the state after it, its y rows, its flags. -/
def chunkRec (n p : Nat) (d : Option (List FVal)) (h : Mat) (sts : List SStep) : Mat × Mat × BitVec 6 :=
  sts.foldl (fun acc st =>
    let hn := matOf n p fun i j => rn (sumX (mulX st.a (f32v (matAt acc.1 i j))) (mulX (vecAt st.b i) (vecAt st.x j))) 0
    let y := rowOf p fun j =>
      skipY d (runSum n (fun i => mulX (f32v (matAt hn.1 i j)) (vecAt st.c i)) 0) j st
    (hn.1, acc.2.1 ++ [y.1], acc.2.2 ||| hn.2 ||| y.2)) (h, [], 0)

/-- A[s..ℓ][s], from 1.0, one column of the decay table: entry i is A[s + i][s]. -/
def decayCol (as_ : List FVal) : List Fl :=
  (as_.foldl (fun (acc : List Fl × Fl) a =>
    let v := rn (mulX (f32v acc.2.val) a) acc.2.fl
    (acc.1 ++ [v], v)) ([⟨0x3F800000, 0⟩], ⟨0x3F800000, 0⟩)).1
/-- The decay table: entry (τ, s), for s ≤ τ. -/
def decay (cols : List (List Fl)) (t s : Nat) : Fl := (cols.getD s []).getD (t - s) ⟨0x3F800000, 0⟩

/-- The chunked form of a chunk (R350). -/
def chunkPar (n p : Nat) (d : Option (List FVal)) (h : Mat) (sts : List SStep) : Mat × Mat × BitVec 6 :=
  let l := sts.length
  let cols := (List.range (l + 1)).map fun s => decayCol ((sts.drop s).map (·.a))
  let colFl := cols.foldl (fun acc c => c.foldl (fun a v => a ||| v.fl) acc) (0 : BitVec 6)
  let stAt (t : Nat) : SStep := sts.getD (t - 1) ⟨[], [], [], .fin false 0 0⟩
  let y := matOf l p fun ti j =>
    let t := ti + 1
    let st := stAt t
    let u := (List.range t).foldl (fun (u : Fl) si =>
      let q := stAt (si + 1)
      let g := runSum n (fun i => mulX (vecAt st.c i) (vecAt q.b i)) u.fl
      let w := rn (mulX (f32v (decay cols t (si + 1)).val) (f32v g.val)) g.fl
      rn (sumX (f32v u.val) (mulX (f32v w.val) (vecAt q.x j))) w.fl) ⟨0, 0⟩
    let w := runSum n (fun i => mulX (vecAt st.c i) (f32v (matAt h i j))) u.fl
    let z := rn (mulX (f32v (decay cols t 0).val) (f32v w.val)) w.fl
    skipY d (rn (sumX (f32v u.val) (f32v z.val)) z.fl) j st
  let hn := matOf n p fun i j =>
    (List.range l).foldl (fun (v : Fl) si =>
      let q := stAt (si + 1)
      rn (sumX (f32v v.val) (mulX (mulX (f32v (decay cols l (si + 1)).val) (vecAt q.b i)) (vecAt q.x j))) v.fl)
      (rn (mulX (f32v (decay cols l 0).val) (f32v (matAt h i j))) 0)
  (hn.1, y.1, colFl ||| y.2 ||| hn.2)

/-- Whether a chunk of length ℓ runs in chunked form (R349). -/
def chunked (frc thr l : Nat) : Bool := frc == 1 || (frc == 0 && 2 ^ thr ≤ l)

/-- Every chunk in order, by structural recursion on the number of chunks (R349, R351). -/
def scanChunks (n p frc thr q : Nat) (d : Option (List FVal)) : Nat → Mat → List SStep → Mat × Mat × BitVec 6
  | 0, h, _ => (h, [], 0)
  | k + 1, h, sts =>
    if sts.isEmpty then (h, [], 0)
    else
      let c := sts.take q
      let r := if chunked frc thr c.length then chunkPar n p d h c else chunkRec n p d h c
      let t := scanChunks n p frc thr q d k r.1 (sts.drop q)
      (t.1, r.2.1 ++ t.2.1, r.2.2 ||| t.2.2)

end Sys2Proof.Machine
end

