-- ==== Sys2Proof/Machine/Descr.lean ====
section
/-! DEFINITION. Engine descriptors and their limits (R334, R340 to R372), and graph nodes as memory holds them (R32 to
R35). A descriptor is its list of bytes. -/

namespace Sys2Proof.Machine

def dW (d : List Byte) (o : Nat) : Nat := field d o 8
def dZero (d : List Byte) (o n : Nat) : Bool := ((d.drop o).take n).all (· == 0)

/-! ## The common words (R340) -/

def dEcw (d : List Byte) : Nat := dW d 0x30
def dEctl (d : List Byte) : Nat := dW d 0x38
def dRbar (d : List Byte) : Nat := bitsOf (dEctl d) 63 48
def dDspc (d : List Byte) : Nat := bitsOf (dEctl d) 35 34
def dSspc (d : List Byte) : Nat := bitsOf (dEctl d) 33 32
def dEbuf (d : List Byte) : Fin 16 := Fin.ofNat 16 (bitsOf (dEctl d) 23 20)
def dLease (d : List Byte) : Option (Fin 8) :=
  if bitsOf (dEctl d) 19 19 = 1 then some (Fin.ofNat 8 (bitsOf (dEctl d) 18 16)) else none
def dSty (d : List Byte) : Nat := bitsOf (dEctl d) 15 12
def dTt (d : List Byte) : Nat := bitsOf (dEctl d) 11 8
def dEring (d : List Byte) : Nat := bitsOf (dEctl d) 7 4
def dEnr (d : List Byte) : Nat := bitsOf (dEctl d) 3 3
/-- Codes of R276. -/
def xtyOf (n : Nat) : Option XTy :=
  match n with
  | 0 => some .i8
  | 1 => some .i16
  | 2 => some .i32
  | 4 => some .n8
  | 5 => some .n16
  | 6 => some .n32
  | 8 => some .f32
  | 9 => some .f16
  | 10 => some .bf16
  | 11 => some .e4m3
  | 12 => some .e5m2
  | _ => none
def mxOf (n : Nat) : Option MXF :=
  match n with
  | 13 => some .mx8
  | 14 => some .mx6
  | 15 => some .mx4
  | _ => none
def isFloatTy (t : XTy) : Bool := !t.isInt
def xBytes (t : XTy) : Nat := t.width / 8

/-- The reserved bits of ECTL, its lease, its word, and RBAR without a receiving scratchpad. -/
def commonBad (d : List Byte) (bulk : Bool) : Bool :=
  let e := dEctl d
  dEcw d % 8 != 0 || bitsOf e 47 36 != 0 || bitsOf e 31 24 != 0 || bitsOf e 2 0 != 0
    || (bitsOf e 19 19 == 0 && bitsOf e 18 16 != 0) || dSspc d == 3 || (dEnr d == 1 && dEring d != 0)
    || (!bulk && dRbar d != 0)
def bulkSpace (sp : Nat) : Bool := sp == 2 || sp == 3

/-! ## CPY and CPYR (R356 to R361) -/

def cExt (d : List Byte) (i : Nat) : Nat := bitsOf (dW d 0x10) (16 * i + 15) (16 * i)
def cSS (d : List Byte) (i : Nat) : Int := signedOf 32 (field d (0x18 + 4 * (i - 1)) 4)
def cDS (d : List Byte) (i : Nat) : Int := signedOf 32 (field d (0x24 + 4 * (i - 1)) 4)
def cSrc (d : List Byte) : Nat := dW d 0
def cDst (d : List Byte) : Nat := dW d 8
def srcW (d : List Byte) : Nat := ((xtyOf (dSty d)).map xBytes).getD 1
def dstW (d : List Byte) : Nat := ((xtyOf (dTt d)).map xBytes).getD 1
/-- Source elements aligned to their width: the base, and every stride that moves. -/
def srcAligned (d : List Byte) : Bool :=
  cSrc d % srcW d == 0 && [1, 2, 3].all fun i => cExt d i ≤ 1 || cSS d i % (srcW d : Int) == 0
/-- A paged destination leaves CDST unused (R360). -/
def cpyBad (d : List Byte) (paged : Bool) : Bool :=
  commonBad d (bulkSpace (dDspc d)) || [0, 1, 2, 3].any (fun i => cExt d i == 0) || (xtyOf (dSty d)).isNone
    || ((xtyOf (dTt d)).isNone && (mxOf (dTt d)).isNone)
    || ((dSspc d == 1 || dSspc d == 2) && !srcAligned d)
    || ((dDspc d == 1 || dDspc d == 2) && (mxOf (dTt d)).isNone && !paged && cDst d % dstW d != 0)
def xlctl (d : List Byte) : Nat := dW d 0x58
def xPsco (d : List Byte) : Nat := bitsOf (xlctl d) 63 48
def xToff (d : List Byte) : Nat := bitsOf (xlctl d) 47 24
def xPgt (d : List Byte) : Nat := bitsOf (xlctl d) 23 8
def xTr (d : List Byte) : Bool := bitsOf (xlctl d) 0 0 == 1
def xAflag (d : List Byte) : Nat := dW d 0x40
def xAval (d : List Byte) : Word := BitVec.ofNat 64 (dW d 0x48)
def xPlist (d : List Byte) : Nat := dW d 0x50
def xScla (d : List Byte) : Nat := dW d 0x60
def xKadr (d : List Byte) : Nat := dW d 0x68
def cpyrBad (d : List Byte) : Bool :=
  let paged := xPlist d != 0
  let mx := (mxOf (dTt d)).isSome
  cpyBad d paged || xAflag d % 128 != 0 || (dDspc d != 0 && xAflag d != 0) || xAval d == BitVec.allOnes 64 || xPlist d % 8 != 0
    || bitsOf (xlctl d) 7 1 != 0 || (!paged && xToff d != 0) || (paged != (xPgt d != 0))
    || ((!mx || paged) && xScla d != 0) || (!mx && xKadr d != 0) || !dZero d 0x70 16
    || (mx && (cExt d 0 % 32 != 0 || (paged && (cExt d 0 != 32 || cExt d 2 != 1 || cExt d 3 != 1))
      || !(((xtyOf (dSty d)).map isFloatTy).getD false)))

/-! ## MCAST, GATH, SCAT, COLL (R364, R366, R368) -/

def mcastBad (d : List Byte) : Bool :=
  let e := dEctl d
  commonBad d true || bitsOf e 35 32 != 0 || bitsOf e 15 3 != 0 || dW d 0 % 64 != 0 || dW d 8 % 64 != 0
    || dW d 16 % 64 != 0 || dW d 16 == 0 || 0x80000 < dW d 8 + dW d 16 || bitsOf (dW d 24) 63 48 != 0 || dW d 24 == 0
    || !dZero d 0x20 16
def gathBad (d : List Byte) : Bool :=
  commonBad d (dDspc d == 2) || dDspc d == 3 || bitsOf (dEctl d) 15 8 != 0 || dW d 16 % 4 != 0
    || bitsOf (dW d 24) 31 0 == 0 || bitsOf (dW d 24) 63 32 != 0 || 10 < dW d 32 || !dZero d 0x28 8
def collKind (d : List Byte) : Nat := bitsOf (dW d 0x28) 3 0
def collOp (d : List Byte) : Nat := bitsOf (dW d 0x28) 7 4
def collType (d : List Byte) : Nat := bitsOf (dW d 0x28) 11 8
def collCount (d : List Byte) : Nat := bitsOf (dW d 0x10) 31 0
def collTag (d : List Byte) : Nat := bitsOf (dW d 0x20) 31 0
def collN (d : List Byte) : Nat := bitsOf (dW d 0x20) 41 32 + 1
def collBad (d : List Byte) : Bool :=
  let e := dEctl d
  commonBad d false || bitsOf e 35 32 != 0 || bitsOf e 15 3 != 0 || collCount d == 0 || bitsOf (dW d 0x10) 63 32 != 0
    || dW d 0x18 % 2 != 0 || bitsOf (dW d 0x20) 63 42 != 0 || 2 < collKind d || 2 < collOp d
    || !(collType d == 2 || collType d == 8 || collType d == 10) || bitsOf (dW d 0x28) 63 12 != 0

/-! ## SSCAN (R344 to R348) -/

def sOff (d : List Byte) (i : Nat) : Nat := field d (4 * i) 4
def sGbase (d : List Byte) : Nat := dW d 0x20
def sScw (d : List Byte) : Nat := dW d 0x28
def sQ (d : List Byte) : Nat := bitsOf (dW d 0x30) 63 48
def sP (d : List Byte) : Nat := bitsOf (dW d 0x30) 46 40
def sN (d : List Byte) : Nat := bitsOf (dW d 0x30) 39 32
def sL (d : List Byte) : Nat := bitsOf (dW d 0x30) 31 0
def sSthr (d : List Byte) : Nat := bitsOf (dW d 0x38) 15 12
def sGv (d : List Byte) : Bool := bitsOf (dW d 0x38) 7 7 == 1
def sDsk (d : List Byte) : Bool := bitsOf (dW d 0x38) 6 6 == 1
def sYf (d : List Byte) : Bool := bitsOf (dW d 0x38) 5 5 == 1
def sFrc (d : List Byte) : Nat := bitsOf (dW d 0x38) 3 2
/-- The ranges a scan names, in descriptor order: offset, bytes, element size; D only when it is used. -/
def sRanges (d : List Byte) : List (Nat × Nat × Nat) :=
  [(sOff d 0, 2 * sL d * sP d, 2), (sOff d 1, 2 * sL d * sN d, 2), (sOff d 2, 2 * sL d * sN d, 2), (sOff d 3, 4 * sL d, 4),
   (sOff d 4, 4 * sN d * sP d, 4), (sOff d 5, 4 * sN d * sP d, 4),
   (sOff d 6, (if sYf d then 4 else 2) * sL d * sP d, if sYf d then 4 else 2)]
    ++ (if sDsk d then [(sOff d 7, 4 * sP d, 4)] else [])
def sscanBad (d : List Byte) : Bool :=
  let c := dW d 0x38
  bitsOf (dW d 0x30) 47 47 != 0 || sQ d == 0 || sP d < 2 || 64 < sP d || sP d % 2 != 0 || sN d < 2 || 128 < sN d
    || sN d % 2 != 0 || sL d == 0 || bitsOf c 63 16 != 0 || bitsOf c 4 4 != 0 || bitsOf c 1 0 != 0 || sSthr d == 1
    || 8 < sSthr d || sFrc d == 3 || (!sDsk d && sOff d 7 != 0) || (!sGv d && sGbase d != 0) || sScw d % 8 != 0
    || (!sGv d && (sRanges d).any fun r => spadBytes < r.1 + r.2.1 || r.1 % r.2.2 != 0)

/-! ## Graph nodes (R32 to R35, R371) -/

/-- The kind words a kind does not use. -/
def unusedK (kind : Nat) : List Nat :=
  match kind with
  | 0 => [4]
  | 1 => [2, 3, 4]
  | 2 => [1, 2, 3, 4]
  | 3 => [2, 3, 4]
  | 4 => [0, 1, 2, 3, 4]
  | _ => [2, 3, 4]
def nK (b : List Byte) (i : Nat) : Nat := dW b (0x18 + 8 * i)
def nKind (b : List Byte) : Nat := bitsOf (dW b 0) 3 0
def nPreds (b : List Byte) : Nat := bitsOf (dW b 0) 47 32
def nNsucc (b : List Byte) : Nat := bitsOf (dW b 0) 31 16
/-- A node breaks R32 to R35 by itself. Bits of K1 above the command, the count and the target of kinds 1, 3 and 5 make it bad when
one is set: R33 does not say that they must be zero (DESIGN CHOICE, log entry 54). -/
def nodeBad (b : List Byte) : Bool :=
  let k := nKind b
  let al := match k with
    | 0 => 64
    | 1 => if nK b 1 == 1 then 128 else 64
    | 2 | 3 => 64
    | 5 => 8
    | 6 => 128
    | _ => 1
  bitsOf (dW b 0) 63 48 != 0 || bitsOf (dW b 0) 15 4 != 0 || 6 < k || dW b 0x10 % 8 != 0
    || (unusedK k).any (fun i => nK b i != 0) || nK b 0 % al != 0
    || (k == 0 && (bitsOf (nK b 1) 63 48 != 0 || bitsOf (nK b 2) 63 48 != 0
      || bitsOf (nK b 2) 15 0 < bitsOf (nK b 1) 15 0 || bitsOf (nK b 2) 31 16 < bitsOf (nK b 1) 31 16
      || bitsOf (nK b 2) 47 32 < bitsOf (nK b 1) 47 32))
    || (k == 1 && 4 < nK b 1) || (k == 3 && (nK b 1 == 0 || 65535 < nK b 1)) || (k == 5 && 2 ^ 32 ≤ nK b 1)
def gnodeBad (b : List Byte) : Bool := nodeBad b || nPreds b != 0 || nNsucc b != 0 || dW b 8 != 0 || nKind b == 3
/-- A node of RCB `rcb`, at its address, with its successors. -/
def nodeOf (b : List Byte) (rcb addr : Nat) (succ : List Nat) : Node where
  rcb := rcb
  addr := addr
  kind := nKind b
  succ := succ
  work := nPreds b
  ncw := dW b 0x10
  k := vecOf 5 fun i => BitVec.ofNat 64 (nK b i.val)
  st := .blocked
  status := 0
  acq := 0
  sig := 0
  bound := 0
  ended := 0
  faulted := none
  gnode := none
  bytes := 0
  heldReady := false
  readyTick := 0

/-! ## Any command -/

def descSize : EKind → Nat
  | .cpyr => 128
  | _ => 64
def descBad (k : EKind) (d : List Byte) : Bool :=
  match k with
  | .sscan => sscanBad d
  | .cpy => cpyBad d false || dDspc d == 3 || (mxOf (dTt d)).isSome
  | .cpyr => cpyrBad d
  | .mcast => mcastBad d
  | .gath | .scat => gathBad d
  | .coll => collBad d
  | .gnode => gnodeBad d
/-- How many items a command has, and which numbers they carry (R336): MCAST numbers them by core. -/
def itemCount (k : EKind) (d : List Byte) : Nat :=
  match k with
  | .mcast => ((List.range 48).filter fun c => (dW d 24).testBit c).length
  | .gath | .scat => bitsOf (dW d 24) 31 0
  | _ => 1
def isItem (k : EKind) (d : List Byte) (i : Nat) : Bool :=
  match k with
  | .mcast => i < 48 && (dW d 24).testBit i
  | .gath | .scat => i < bitsOf (dW d 24) 31 0
  | _ => i == 0
/-- The completion word a command names. -/
def cmdCw (k : EKind) (d : List Byte) : Nat :=
  match k with
  | .sscan => sScw d
  | .gnode => 0
  | _ => dEcw d

end Sys2Proof.Machine
end

