-- ==== Sys2Proof/Machine/Engine.lean ====
section
/-! DEFINITION. Engine commands (R333 to R343, R356 to R372): issue, start, and the items of the copy engines. -/

namespace Sys2Proof.Machine

def cmdFind (s : State) (id : Nat) : Option EngCmd := s.cmds.find? fun c => c.id == id
def cmdUpd (id : Nat) (f : EngCmd → EngCmd) (s : State) : State :=
  { s with cmds := s.cmds.map fun c => if c.id == id then f c else c }
def isScan (k : EKind) : Bool := k == .sscan
/-- Every item of a command has completed or failed (R336). -/
def cmdDone (c : EngCmd) : Bool := c.started && c.items ≤ c.doneItems.length
/-- Places of R335 that the task in focus takes, scans or the other commands: those not complete, held ones not counted. They
move with the task (R416). -/
def placesUsed (s : State) (scan : Bool) : Nat :=
  (s.cmds.filter fun c => c.task.isSome && c.task == s.core.task && !c.held && !cmdDone c && isScan c.kind == scan).length

/-! ## Issue (R333, R334) -/

/-- FENCEX operations pending on a core (R199). -/
def pendFencex (c : Core) : List Nat := (c.pend.filter fun p => p.kind == .fencex).map (·.seq)
/-- The checks of an engine instruction at issue. -/
def engTrap (k : EKind) (x : EC) (s : State) : Option TrapInfo :=
  let ea := eaM s x.m 64
  match spadTrap s ea (descSize k) (descSize k) false with
  | some t => some t
  | none =>
    if (spadErr s ea.toNat (descSize k)).isNone && descBad k (spadReadN s ea.toNat (descSize k)).1 then some ⟨0x11, BitVec.ofInt 64 ea, false⟩ else none
/-- An engine instruction: the descriptor is copied, the command waits to start, its token is pending. In an open region the copy
is of memory, and of no bytes that stores of the region hold: the manual names loads, streams and the state-space unit alone (R380;
DESIGN CHOICE, log entry 54). A descriptor in a stash line that meets an error moves nothing, and its token completes with
the error deferred (R285; log entry 46). -/
def engGo (k : EKind) (x : EC) (s : State) : Host.Outcome State Fault Refusal :=
  whenOn x.g (fun s => orTrap (engTrap k x s) (fun s =>
    let ea := eaM s x.m 64
    match spadErr s ea.toNat (descSize k) with
    | some c => addPend x.tok .stg (BitVec.ofInt 64 ea) (addErr s.core.seq (some x.tok) c (BitVec.ofInt 64 ea) none s)
    | none =>
    let r := spadReadN s ea.toNat (descSize k)
    let s1 := r.2
    let op := regionOpen s1.core
    let c : EngCmd := {
      id := s1.cmdNext, kind := k, core := some s1.core.id, cluster := clusterOf s1.core.id, task := s1.core.task,
      node := none, ea := BitVec.ofInt 64 ea, desc := r.1, sub := 0, items := itemCount k r.1, doneItems := [],
      failCause := none, started := false, held := op, sig := 0, flags := 0, bytes := 0,
      ssu := if k == .sscan then some s1.core.id else none, kexp := none, ssthr := s1.core.sp.ssthr.toNat, ktt := s1.core.ktt, seq := s1.core.seq, wsig := 0, fullinv := false,
      behind := pendFencex s1.core }
    let s2 := { s1 with cmds := s1.cmds ++ [c], cmdNext := s1.cmdNext + 1 }
    addPend x.tok (.engine c.id) c.ea (if op then hold (.engine c.id) s2 else s2)) s) s

def execSscan (x : EC) (s : State) : Host.Outcome State Fault Refusal := engGo .sscan x s
def execCpy (x : EC) (s : State) : Host.Outcome State Fault Refusal := engGo .cpy x s
def execCpyr (x : EC) (s : State) : Host.Outcome State Fault Refusal := engGo .cpyr x s
def execMcast (x : EC) (s : State) : Host.Outcome State Fault Refusal := engGo .mcast x s
def execGath (x : EC) (s : State) : Host.Outcome State Fault Refusal := engGo .gath x s
def execScat (x : EC) (s : State) : Host.Outcome State Fault Refusal := engGo .scat x s
def execColl (x : EC) (s : State) : Host.Outcome State Fault Refusal := engGo .coll x s
def execGnode (x : EC) (s : State) : Host.Outcome State Fault Refusal := engGo .gnode x s

/-! ## Addresses of the engines (R340 to R342) -/

/-- Where an engine access goes: a global byte, a scratchpad byte, a failure with its cause, or an absent page. -/
inductive EPlace where
  | at (l : Loc)
  | fail (c : Byte)
  | absent (ea : Nat)
  /-- no path reaches its home, this agent's, now (R467, R471) -/
  | held (agent : Nat)
deriving DecidableEq, Repr

/-- A global byte, once a path reaches its home. -/
def globPlace (s : State) (c : EngCmd) (a : Nat) : EPlace :=
  if reach s (c.cluster / 8) (lineKey a) then .at (.glob a) else .held (homeAgent (lineKey a))
/-- A core that exists: a %coreid that names no core, past the visible ones, is not one (R14, R342). -/
def coreExists (s : State) (id : Nat) : Bool := validCore id && !(coreOf s id).disabled
/-- A scratchpad byte of a core, outside its stash. -/
def spadPlace (s : State) (id off n : Nat) : EPlace :=
  if !coreExists s id || spadBytes < off + n then .fail 0x05
  else if (List.range n).any fun i => (mapOfOff (coreOf s id).maps (off + i)).isSome then .fail 0x05
  else .at (.spad (spadAddr id off))
/-- R341: the checks of `n` bytes at an address of a space. A stash-mapped byte of the own scratchpad is global memory
below the core (R161, R200). -/
def engPlace (s : State) (c : EngCmd) (sp : Nat) (a : Int) (n : Nat) (acc : Acc) : EPlace :=
  if sp = 0 then
    match checkGlob c.ktt a n n acc with
    | .error 0x06 => .absent a.toNat
    | .error e => .fail e
    | .ok e => globPlace s c (kttKey e a.toNat)
  else if a < 0 || 2 ^ 64 < a.toNat + n then .fail 0x09
  else if a.toNat % n != 0 then .fail 0x08
  else if sp = 1 then
    match c.core with
    | none => .fail 0x11
    | some id =>
      if spadBytes < a.toNat + n then .fail 0x05
      else match locOfOff (coreOf s id) a.toNat with
        | .glob g => globPlace s c g
        | l => .at l
  else if sp = 2 then
    if c.core.isNone then .fail 0x11
    else if 48 ≤ a.toNat / spadBytes then .fail 0x05
    else spadPlace s (c.cluster * 64 + a.toNat / spadBytes) (a.toNat % spadBytes) n
  else if 2 ^ 30 ≤ a.toNat then .fail 0x05
  else spadPlace s (a.toNat / 2 ^ 28 * 512 + a.toNat / 2 ^ 25 % 8 * 64 + a.toNat / 2 ^ 19 % 64) (a.toNat % spadBytes) n
def locAdd : Loc → Nat → Loc
  | .spad a, i => .spad (a + i)
  | .glob a, i => .glob (a + i)
/-- The %lct that gives a command's lease durations: the issuing core's; for a graph node's command, that of the lowest core
of its cluster. The manual names none (R365): log entry 47. -/
def cmdLct (s : State) (c : EngCmd) : Word := (coreOf s (c.core.getD (c.cluster * 64))).lct
def cmdDie (c : EngCmd) : Nat := c.cluster / 8
/-- The source number of the engine that serves a command (R11): one of its cluster's twelve copy engines, or the core whose
state-space unit runs it. Which of the twelve, the manual does not say: log entry 47. -/
def cmdSrc (c : EngCmd) : Nat :=
  match c.ssu with
  | some k => srcNum k
  | none => cmdDie c * 1024 + 512 + c.cluster % 8 * 16 + c.id % 12
/-- A byte as an engine reads it: a scratchpad's, or the L2's under the command's lease (R193, R337). -/
def engByte (c : EngCmd) (cls : Nat → Option (Fin 8)) (l : Loc) (s : State) : Byte × State :=
  match l with
  | .spad a => (Mem.get s.spad a, s)
  | .glob a =>
    let lct := cmdLct s c
    let k := cls a
    let s1 := l2FillOf (cmdSrc c) s lct c.cluster (lineKey a) k
    (lineByte (l2Read s1 lct c.cluster (lineKey a) k) (a % 64), s1)
/-- The lease class of a command's access: its own, or the entry's default. -/
def engCls (c : EngCmd) (a : Nat) : Option (Fin 8) :=
  (c.ktt.find? fun e => kttKey e e.vbase ≤ a && a < kttKey e e.vbase + 2 ^ e.lsz).bind fun e =>
    classOf e (if c.kind == .sscan || c.kind == .gnode then none else dLease c.desc)
def engBytes (c : EngCmd) (l : Loc) (n : Nat) (s : State) : List Byte × State :=
  (List.range n).foldl (fun acc i =>
    let r := engByte c (engCls c) (locAdd l i) acc.2
    (acc.1 ++ [r.1], r.2)) ([], s)

/-! ## The work of one item -/

/-- An item in progress: the machine, the lines and bytes it has written, and how it ends. -/
structure Job where
  s : State
  sig : Sig
  bytes : Nat
  fails : Option Byte
  waits : Option Nat
  held : Option Nat

def Job.on (s : State) : Job := ⟨s, 0, 0, none, none, none⟩
/-- Continue a job that has neither failed nor met an absent page or a home that no path reaches. -/
def Job.go (j : Job) (f : Job → Job) : Job := if j.fails.isSome || j.waits.isSome || j.held.isSome then j else f j
def Job.place (j : Job) (p : EPlace) (f : Loc → Job → Job) : Job :=
  j.go fun j => match p with
    | .at l => f l j
    | .fail c => { j with fails := some c }
    | .absent a => { j with waits := some a }
    | .held a => { j with held := some a }
/-- Read `n` bytes; a poisoned or dead home fails the item. -/
def Job.read (j : Job) (c : EngCmd) (sp : Nat) (a : Int) (n : Nat) (f : List Byte → Job → Job) : Job :=
  j.place (engPlace j.s c sp a n .rd) fun l j =>
    let bad := match l with
      | .glob g => homeErr j.s (lineKey g)
      | .spad _ => none
    match bad with
    | some e => { j with fails := some e }
    | none =>
      let r := engBytes c l n j.s
      f r.1 { j with s := r.2 }
/-- Write bytes at their place: at the homes (R337), or into a scratchpad. -/
def Job.put (j : Job) (c : EngCmd) (l : Loc) (b : List Byte) : Job :=
  match l with
  | .glob a =>
    { j with s := homeStore (some c.cluster) (bytesAt a b)
               (sendKeys (cmdSrc c) c.cluster (keysOf ((bytesAt a b).map (·.1))) j.s), bytes := j.bytes + b.length,
             sig := (keysOf ((bytesAt a b).map (·.1))).foldl (fun g k => g ||| sigLine k) j.sig }
  | .spad a => { j with s := storeLocs ((bytesAt a b).map fun x => (.spad x.1, x.2)) j.s, bytes := j.bytes + b.length }
/-- The core a scratchpad destination must stay within (R342). -/
def inTarget (target : Option Nat) : Loc → Bool
  | .glob _ => true
  | .spad a => match target with
    | none => true
    | some id => a / 2 ^ 19 == spadAddr id 0 / 2 ^ 19
def Job.write (j : Job) (c : EngCmd) (target : Option Nat) (sp : Nat) (a : Int) (b : List Byte) : Job :=
  j.place (engPlace j.s c sp a b.length .wr) fun l j =>
    if inTarget target l then j.put c l b else { j with fails := some 0x05 }
/-- A byte as its home has it, or the scratchpad. -/
def plainByte (s : State) : Loc → Byte
  | .spad a => Mem.get s.spad a
  | .glob a => lineByte (homeRead s (lineKey a)) (a % 64)
/-- The bits that codes of `n` bits put into bytes: offset, mask and value, each byte once; codes are (bit offset, value). -/
def codeBytes (n : Nat) (codes : List (Nat × Nat)) : List (Nat × Byte × Byte) :=
  let put (l : List (Nat × Byte × Byte)) (i : Nat) (bit : Bool) : List (Nat × Byte × Byte) :=
    let m : Byte := 1#8 <<< (i % 8)
    let v : Byte := if bit then m else 0
    if l.any fun x => x.1 == i / 8 then
      l.map fun x => if x.1 == i / 8 then (x.1, x.2.1 ||| m, (x.2.2 &&& ~~~m) ||| v) else x
    else l ++ [(i / 8, m, v)]
  codes.foldl (fun l c => (List.range n).foldl (fun l i => put l (c.1 + i) (c.2.testBit i)) l) []
/-- Write codes of `n` bits from a byte address, leaving the other bits as their homes have them (R360). -/
def Job.writeCodes (j : Job) (c : EngCmd) (target : Option Nat) (sp : Nat) (base : Int) (n : Nat) (codes : List (Nat × Nat)) :
    Job :=
  (codeBytes n codes).foldl (fun j x => j.place (engPlace j.s c sp (base + (x.1 : Nat)) 1 .wr) fun l j =>
    if !inTarget target l then { j with fails := some 0x05 }
    else j.put c l [(plainByte j.s l &&& ~~~x.2.1) ||| x.2.2]) j

/-! ## CPY and CPYR (R357, R360, R361) -/

/-- The conversion of an element (R341). -/
def engConv (d : List Byte) (b : List Byte) : List Byte :=
  match xtyOf (dSty d), xtyOf (dTt d) with
  | some st, some tt =>
    if st = tt then b else toBytes (xBytes tt) (BitVec.ofNat 64 (convX st tt .rne false false (natOfBytes b)).1)
  | _, _ => b
/-- The coordinates of a copy, i0 fastest. -/
def coords (d : List Byte) : List (Nat × Nat × Nat × Nat) :=
  (List.range (cExt d 3)).flatMap fun i3 => (List.range (cExt d 2)).flatMap fun i2 =>
    (List.range (cExt d 1)).flatMap fun i1 => (List.range (cExt d 0)).map fun i0 => (i0, i1, i2, i3)
def srcAddr (d : List Byte) (x : Nat × Nat × Nat × Nat) : Int :=
  (cSrc d : Int) + (x.1 * srcW d : Nat) + x.2.1 * cSS d 1 + x.2.2.1 * cSS d 2 + x.2.2.2 * cSS d 3
/-- `pos` of an element, with the position along the paged axis given. -/
def dstPos (d : List Byte) (tr : Bool) (x : Nat × Nat × Nat × Nat) (j : Nat) : Int :=
  (if tr then (j : Int) + x.1 * cDS d 1 else (x.1 : Int) + j * cDS d 1) + x.2.2.1 * cDS d 2 + x.2.2.2 * cDS d 3
/-- The base an element's page gives, from the page list or CDST. -/
def Job.base (j : Job) (c : EngCmd) (i1 : Nat) (f : Int → Nat → Job → Job) : Job :=
  let d := c.desc
  if c.kind == .cpyr && xPlist d != 0 then
    let u := xToff d + i1
    j.read c 0 (xPlist d + 8 * (u / xPgt d) : Nat) 8 fun b j => f (natOfBytes b : Nat) (u % xPgt d) j
  else f (cDst d : Nat) i1 j
/-- One element of a copy. -/
def copyElem (c : EngCmd) (target : Option Nat) (x : Nat × Nat × Nat × Nat) (j : Job) : Job :=
  let d := c.desc
  j.read c (dSspc d) (srcAddr d x) (srcW d) fun b j => j.base c x.2.1 fun base p j =>
    j.write c target (dDspc d) (base + dstPos d (c.kind == .cpyr && xTr d) x p * dstW d) (engConv d b)
/-- Read several elements in order. -/
def readAll (c : EngCmd) (sp n : Nat) (f : List (List Byte) → Job → Job) : List Int → List (List Byte) → Job → Job
  | [], acc, j => f acc.reverse j
  | a :: r, acc, j => j.read c sp a n fun b j => readAll c sp n f r (b :: acc) j
/-- One block of 32 elements of a quantising CPYR, with its scale byte (R361). An element whose position is negative has no
place in a packing: its item fails with 0x09 (log entry 47). -/
def copyBlock (c : EngCmd) (target : Option Nat) (f : MXF) (blk i1 i2 i3 : Nat) (j : Job) : Job :=
  let d := c.desc
  let addrs := (List.range 32).map fun i => srcAddr d (32 * blk + i, i1, i2, i3)
  readAll c (dSspc d) (srcW d) (fun bs j =>
    let x := bs.map fun b => match (xtyOf (dSty d)).bind xFmt with
      | some F => decodeF F (natOfBytes b)
      | none => .fin false 0 0
    let q := quantMX x f (c.kexp.getD 0) .rne
    j.base c i1 fun base p j =>
      let pos := ((List.range 32).zip q.2.1).map fun e => (dstPos d (xTr d) (32 * blk + e.1, i1, i2, i3) p, e.2.toNat)
      let j1 := if pos.any fun x => x.1 < 0 then j.place (.fail 0x09) fun _ j => j
        else j.writeCodes c target (dDspc d) base (MXF.b f) (pos.map fun x => (MXF.b f * x.1.toNat, x.2))
      let sAddr : Int := if xPlist d != 0 then base + (64 * xPsco d + p : Nat)
        else (xScla d : Int) + (blk + cExt d 0 / 32 * (i1 + cExt d 1 * (i2 + cExt d 2 * i3)) : Nat)
      j1.write c target (dDspc d) sAddr [q.1]) addrs [] j
/-- The blocks of a quantising CPYR: block, i1, i2, i3. -/
def blocks (d : List Byte) : List (Nat × Nat × Nat × Nat) :=
  (List.range (cExt d 3)).flatMap fun i3 => (List.range (cExt d 2)).flatMap fun i2 =>
    (List.range (cExt d 1)).flatMap fun i1 => (List.range (cExt d 0 / 32)).map fun b => (b, i1, i2, i3)

/-- The core an address of space 10 or 11 names, when it names one that exists (R342). -/
def coreNamed (s : State) (c : EngCmd) (sp : Nat) (a : Int) : Option Nat :=
  let named (id : Nat) : Option Nat := if coreExists s id then some id else none
  if a < 0 then none
  else if sp = 2 then (if a.toNat / spadBytes < 48 then named (c.cluster * 64 + a.toNat / spadBytes) else none)
  else if 2 ^ 30 ≤ a.toNat then none
  else named (a.toNat / 2 ^ 28 * 512 + a.toNat / 2 ^ 25 % 8 * 64 + a.toNat / 2 ^ 19 % 64)
/-- A barrier word must lie in an existing core's scratchpad outside its stash (R342). -/
def barrierPlace (s : State) (id rbar : Nat) : EPlace := spadPlace s id (8 * rbar) 8
/-- A copy's target scratchpad: the core its destination base names (R342). -/
def Job.target (j : Job) (c : EngCmd) (f : Option Nat → Job → Job) : Job :=
  if bulkSpace (dDspc c.desc) then j.base c 0 fun base _ j => match coreNamed j.s c (dDspc c.desc) base with
    | some id => f (some id) j
    | none => { j with fails := some 0x05 }
  else f none j
/-- The whole of a CPY or CPYR. Of several checks that fail, the first one met gives the cause: the barrier word's, then,
element by element, the source's, the page entry's, the destination's. The manual orders none (R341): log entry 47. -/
def copyJob (c : EngCmd) (j : Job) : Job :=
  let d := c.desc
  j.target c fun target j =>
    let bar := match target with
      | some id => barrierPlace j.s id (dRbar d)
      | none => .at (.spad 0)
    j.place bar fun _ j =>
      match mxOf (dTt d) with
      | none => (coords d).foldl (fun j x => copyElem c target x j) j
      | some f =>
        let j1 := (blocks d).foldl (fun j x => copyBlock c target f x.1 x.2.1 x.2.2.1 x.2.2.2 j) j
        if xKadr d = 0 then j1 else j1.write c target (dDspc d) (xKadr d : Nat) [BitVec.ofInt 8 (c.kexp.getD 0)]

/-! ## MCAST, GATH, SCAT (R365, R367) -/

/-- The source of an MCAST, read once: its bytes follow the descriptor once they are taken. -/
def mcastSource (c : EngCmd) (f : List Byte → Job → Job) (j : Job) : Job :=
  let d := c.desc
  if d.length ≤ 64 then
    readAll c 0 64 (fun bs j =>
      f bs.flatten { j with s := cmdUpd c.id (fun x => { x with desc := d ++ bs.flatten }) j.s })
      ((List.range (dW d 16 / 64)).map fun i => ((dW d 0 + 64 * i : Nat) : Int)) [] j
  else f (d.drop 64) j
def mcastJob (c : EngCmd) (item : Nat) (j : Job) : Job :=
  let id := c.cluster * 64 + item
  j.place (barrierPlace j.s id (dRbar c.desc)) fun _ j => mcastSource c (fun b j =>
    j.place (spadPlace j.s id (dW c.desc 8) b.length) fun l j => j.put c l b) j
/-- An index of a GATH or SCAT list: its bytes, none when its check fails, or unknown as long as its page is absent or no path
reaches its home. -/
inductive Idx where
  | is (b : List Byte) | bad | unknown
deriving DecidableEq, Repr
def idxOf (s : State) (c : EngCmd) (i : Nat) : Idx :=
  match engPlace s c (dSspc c.desc) (dW c.desc 16 + 4 * i : Nat) 4 .rd with
  | .at l => .is (engBytes c l 4 s).1
  | .fail _ => .bad
  | _ => .unknown
/-- A lower element of a SCAT with the same index, or one that is not known yet, is still to be moved: the higher one waits for
it, so that it wins (R338, R367). -/
def scatWaits (s : State) (c : EngCmd) (g : Nat) : Bool :=
  c.kind == .scat && (List.range g).any fun i => !c.doneItems.contains i && match idxOf s c i, idxOf s c g with
    | .unknown, _ => true
    | .is x, .is y => x == y
    | _, _ => false
def gathJob (c : EngCmd) (g : Nat) (j : Job) : Job :=
  let d := c.desc
  let z := 2 ^ dW d 32
  let (bs, ls) := if c.kind == .gath then (dSspc d, dDspc d) else (dDspc d, dSspc d)
  j.read c ls (dW d 16 + 4 * g : Nat) 4 fun ib j =>
    let ba : Int := (dW d 0 + natOfBytes ib * z : Nat)
    let la : Int := (dW d 8 + g * z : Nat)
    if c.kind == .gath then j.read c bs ba z fun b j => j.write c none ls la b
    else j.read c ls la z fun b j => j.write c none bs ba b

/-! ## The end of an item (R178, R336, R342, R362) -/

/-- The table a command translates by. -/
def cmdKtt (s : State) (c : EngCmd) : Nat :=
  match c.node with
  | some (l, n) => match launchFind s l, nodeFind s l n with
    | some lx, some nx => nodeKtt lx nx
    | _, _ => 0
  | none => (((c.task.bind (taskFind s)).bind (taskRcb s)).map (·.ktt)).getD (((c.core.map fun id =>
      kttBase (coreOf s id).kttReg)).getD 0)
/-- The core whose barrier word an item updates, with the word's place. -/
def itemBarrier (s : State) (c : EngCmd) (item : Nat) : Option Nat :=
  let d := c.desc
  match c.kind with
  | .mcast => if isItem .mcast d item then some (c.cluster * 64 + item) else none
  | .cpy | .cpyr =>
    if bulkSpace (dDspc d) && !(c.core.isNone && dDspc d == 2) then
      if c.kind == .cpyr && xPlist d != 0 then
        match engPlace s c 0 (xPlist d + 8 * (xToff d / xPgt d) : Nat) 8 .rd with
        | .at l => coreNamed s c (dDspc d) (natOfBytes (engBytes c l 8 s).1 : Nat)
        | _ => none
      else coreNamed s c (dDspc d) (cDst d : Nat)
    else none
  | _ => none
/-- The barrier word's update, after every write of the item. -/
def barrierUpdate (c : EngCmd) (item : Nat) (fail : Option Byte) (s : State) : State :=
  match itemBarrier s c item with
  | none => s
  | some id =>
    match barrierPlace s id (dRbar c.desc) with
    | .at (.spad a) =>
      let w := ofBytes 64 (Mem.getBytes s.spad a 8)
      storeLocs ((bytesAt a (toBytes 8 (cwItem false fail w))).map fun x => (.spad x.1, x.2)) s
    | _ => s
/-- The completion word's update; a word that fails its check is not written. -/
def ecwUpdate (c : EngCmd) (fail : Option Byte) (s : State) : State :=
  let a := cmdCw c.kind c.desc
  if a = 0 then s else (cwVirt c.ktt a fail s).2
/-- The flag of a CPYR is checked before any byte moves (R362): absent, refused, or fit. -/
def flagCheck (c : EngCmd) : Option Byte :=
  if c.kind == .cpyr && xAflag c.desc != 0 then
    match checkGlob c.ktt (xAflag c.desc : Int) 128 128 .wr with
    | .error e => some e
    | .ok _ => none
  else none
/-- The arrival release of a CPYR (R362, R363): exactly the lines written; all ones for a failed item. -/
def arrivalRelease (c : EngCmd) (sg : Sig) (fail : Option Byte) (s : State) : State :=
  if c.kind != .cpyr || xAflag c.desc = 0 then s
  else
    match checkGlob c.ktt (xAflag c.desc : Int) 128 128 .wr with
    | .error _ => s
    | .ok e =>
      let a := kttKey e (xAflag c.desc)
      let old := homeBytesGet s a 128
      let v := if fail.isSome then BitVec.allOnes 64 else xAval c.desc
      homeBytesPut a (objBytes (releaseNew false v sg (objOf old)) old) s
/-- A node's command ends: its bytes, signature and failure go to the node (R38, R339). -/
def nodeCmdEnd (c : EngCmd) (s : State) : State :=
  match c.node with
  | none => s
  | some (l, n) => nodeUpd { s with cmds := s.cmds.filter fun x => x.id != c.id } l n fun x => { x with
      sig := x.sig ||| c.sig, bytes := x.bytes + c.bytes, faulted := match x.faulted with
        | some f => some f
        | none => c.failCause }
/-- A command that has just completed stands behind those that completed before it (R439). -/
def cmdLast (id : Nat) (s : State) : State :=
  { s with cmds := (s.cmds.filter fun c => c.id != id) ++ s.cmds.filter fun c => c.id == id }
/-- One item is over: its command counts it; the last one completes the command, and ends a node's. -/
def itemOver (id item : Nat) (fail : Option Byte) (sg : Sig) (bytes : Nat) (fl : BitVec 6) (s : State) : State :=
  let s1 := cmdUpd id (fun c => { c with
    doneItems := item :: c.doneItems, sig := c.sig ||| sg, bytes := c.bytes + bytes, flags := c.flags ||| fl,
    failCause := match c.failCause with
      | some x => some x
      | none => fail }) s
  match cmdFind s1 id with
  | none => s1
  | some c => if c.items ≤ c.doneItems.length then (if c.node.isSome then nodeCmdEnd c s1 else cmdLast id s1) else s1
/-- An absent page makes the item wait while the page migrates (R341). -/
def itemWaits (c : EngCmd) (ea : Nat) (s : State) : State := askMigr (cmdKtt s c) c.ktt ea (cmdSrc c) s
/-- A completion word in an absent page holds its item back. -/
def cwAbsent (c : EngCmd) : Option Nat :=
  let a := cmdCw c.kind c.desc
  if a = 0 then none
  else match checkGlob c.ktt (a : Int) 8 8 .wr with
    | .error 0x06 => some a
    | _ => none
/-- Finish an item from its job. -/
def finishItem (c : EngCmd) (item : Nat) (s : State) (j : Job) : State :=
  if j.held.isSome then s
  else match j.waits with
  | some ea => itemWaits c ea s
  | none =>
    let s1 := arrivalRelease c j.sig j.fails (barrierUpdate c item j.fails j.s)
    let s2 := match c.core with
      | some id => onCore id (hotBytes (dEbuf c.desc) j.bytes) s1
      | none => s1
    itemOver c.id item j.fails j.sig j.bytes 0 (ecwUpdate c j.fails s2)

/-- An item ends with a failure, from the job that wrote what it wrote: its words are updated and its arrival release is made
(R178, R336, R342, R362). While the page of its completion word or its flag is absent, it waits for the migration (R341). -/
def failItem (c : EngCmd) (item : Nat) (cause : Byte) (j : Job) (s : State) : State :=
  let flag := if flagCheck c == some 0x06 then some (xAflag c.desc) else none
  match cwAbsent c, flag with
  | some a, _ | none, some a => itemWaits c a (cmdUpd c.id (fun x =>
      { x with failing := (item, cause) :: x.failing.filter fun y => y.1 != item }) s)
  | none, none => finishItem c item s { j with held := none, waits := none, fails := some cause }
/-- The failure an item has met and not yet reported. -/
def failingItem (c : EngCmd) (item : Nat) : Option Byte := (c.failing.find? fun y => y.1 == item).map (·.2)

/-- In-flight quantisation disabled by %feat (R442). -/
def quantOff (s : State) (c : EngCmd) : Bool :=
  c.kind == .cpyr && match mxOf (dTt c.desc) with
    | none => false
    | some .mx8 => !s.feat.getLsbD 5
    | some .mx6 => !s.feat.getLsbD 5 || !s.feat.getLsbD 0
    | some .mx4 => !s.feat.getLsbD 5 || !s.feat.getLsbD 1
/-- A use a graph node may not make: a scratchpad of an issuing core, a ring of one, a scan without a global base
(R340, R346, R361). -/
def nodeMisuse (c : EngCmd) : Bool :=
  let d := c.desc
  let sp (x : Nat) : Bool := x == 1 || x == 2
  c.core.isNone && (match c.kind with
    | .sscan => !sGv d
    | .mcast | .coll | .gnode => false
    | _ => sp (dSspc d) || sp (dDspc d) || (c.kind == .cpyr && (mxOf (dTt d)).isSome && dEnr d == 0))
/-- An item that fails with 0x11 whatever its data. -/
def itemRefused (s : State) (c : EngCmd) : Bool :=
  nodeMisuse c || quantOff s c || (c.kind == .sscan && c.core.isNone && !s.feat.getLsbD 2)

/-- The work of one item of a copy engine. -/
def itemJob (c : EngCmd) (item : Nat) (s : State) : Job :=
  let j0 : Job := { Job.on s with fails := if itemRefused s c then some 0x11 else none }
  match c.kind with
  | .cpy | .cpyr => j0.go (copyJob c)
  | .mcast => mcastJob c item j0
  | .gath | .scat => j0.go (gathJob c item)
  | _ => { j0 with held := some 0 }
/-- ENGINE_ITEM_COMPLETE: a copy engine's item completes or fails (R336 to R338). Its bytes are read at this moment, within
the interval the manual leaves (R337): log entry 47. -/
def execEngineItemComplete (id item : Nat) (s : State) : Host.Outcome State Fault Refusal :=
  match cmdFind s id with
  | none => .next s
  | some c =>
    if !c.started || !isItem c.kind c.desc item || c.doneItems.contains item || scatWaits s c item then .next s
    else
      match failingItem c item, cwAbsent c with
      | some e, _ => .next (failItem c item e (.on s) s)
      | none, some a => .next (itemWaits c a s)
      | none, none => .next (finishItem c item s (itemJob c item s))

/-! ## Start (R335, R16, R199, R361, R362, R371, R372) -/

/-- Whether a command's fault domain is stopped. -/
def cmdStopped (s : State) (c : EngCmd) : Bool :=
  match c.node with
  | some (l, n) => match launchFind s l, nodeFind s l n with
    | some lx, some nx => domStopped s lx.die.val (nodeDom lx nx)
    | _, _ => false
  | none => match c.task.bind (taskFind s) with
    | some t => domStopped s (taskDom s t).1 (taskDom s t).2
    | none => false
/-- An earlier FENCEX of the issuing core is still pending (R199). -/
def cmdFenced (s : State) (c : EngCmd) : Bool :=
  match c.core with
  | some id => (coreOf s id).task == c.task && (coreOf s id).pend.any fun p => c.behind.contains p.seq
  | none => false
/-- The bytes below and above a base that strides reach: extent and stride of each axis. -/
def reachOf (l : List (Nat × Int)) : Int × Int :=
  l.foldl (fun a x =>
    let t := ((x.1 : Int) - 1) * x.2
    (a.1 + min 0 t, a.2 + max 0 t)) (0, 0)
/-- A range of bytes of a space meets the scratchpad of core `id`. -/
def meetsSpad (c : EngCmd) (id sp : Nat) (lo hi : Int) : Bool :=
  let a : Int := if sp = 2 then (cidOf id * spadBytes : Nat) else (spadAddr id 0 : Nat)
  if sp = 1 then c.core == some id
  else if sp = 2 then c.cluster == clusterOf id && decide (lo < a + spadBytes) && decide (a < hi)
  else sp == 3 && decide (lo < a + spadBytes) && decide (a < hi)
/-- A command reads or writes a core's scratchpad (R414). Where its addresses come from memory, it may. -/
def cmdTouches (c : EngCmd) (id : Nat) : Bool :=
  let d := c.desc
  let w : Int := srcW d
  let src := reachOf [(cExt d 0, w), (cExt d 1, cSS d 1), (cExt d 2, cSS d 2), (cExt d 3, cSS d 3)]
  let reads := meetsSpad c id (dSspc d) (cSrc d + src.1) (cSrc d + src.2 + w)
  let tr := c.kind == .cpyr && xTr d
  let dst := reachOf [(cExt d 0, if tr then cDS d 1 else 1), (cExt d 1, if tr then 1 else cDS d 1), (cExt d 2, cDS d 2),
    (cExt d 3, cDS d 3)]
  let z : Int := dstW d
  let may (sp : Nat) : Bool := meetsSpad c id sp 0 (2 ^ 64)
  let writes := meetsSpad c id (dDspc d) (cDst d + dst.1 * z) (cDst d + dst.2 * z + z)
  match c.kind with
  | .sscan => c.core == some id && !sGv d
  | .cpy => reads || writes
  | .cpyr =>
    let n := cExt d 0 / 32 * cExt d 1 * cExt d 2 * cExt d 3
    reads || (if xPlist d != 0 then may (dDspc d) else writes)
      || ((mxOf (dTt d)).isSome && meetsSpad c id (dDspc d) (xScla d : Nat) ((xScla d + n : Nat) : Int))
      || (xKadr d != 0 && meetsSpad c id (dDspc d) (xKadr d : Nat) ((xKadr d + 1 : Nat) : Int))
  | .mcast => c.cluster == clusterOf id && isItem c.kind d (cidOf id)
  | .gath | .scat => may (dSspc d) || may (dDspc d)
  | .coll | .gnode => false
/-- A command that quantises by a ring of its task (R144). -/
def readsRing (c : EngCmd) : Bool := c.kind == .cpyr && (mxOf (dTt c.desc)).isSome && dEnr c.desc == 0
/-- A command that has not started, and needs what its saved task took along: its scratchpad, or its rings. -/
def cmdParked (s : State) (c : EngCmd) : Bool :=
  match c.task.bind (taskFind s) with
  | some t => t.saved.isSome && (readsRing c || (c.core.map (cmdTouches c)).getD false)
  | none => false
/-- One core's commands start in issue order (R16); one that may not start now holds no other task's. -/
def cmdFirst (s : State) (c : EngCmd) : Bool :=
  match c.core with
  | some id => !(s.cmds.any fun x => x.core == some id && !x.started && x.id < c.id
      && (x.task == c.task || !(cmdStopped s x || cmdParked s x)))
  | none => true
/-- A place is free for a task's command to start in (R335): one that a region held takes it now. -/
def placeFree (s : State) (c : EngCmd) : Bool :=
  c.task.isNone || (s.cmds.filter fun x => x.task == c.task && x.started && !cmdDone x && isScan x.kind == isScan c.kind).length
    < (if isScan c.kind then 8 else 16)
/-- The GNODE nodes of a launch not yet complete (R372). -/
def openGnodes (l : Launch) : Nat := (l.nodes.filter fun n => n.gnode.isSome && !nodeOver n).length
def mapDesc (c : EngCmd) (d : List Byte) : EngCmd := { c with desc := d, items := itemCount c.kind d }
/-- The items a command's failure counts: all of them, and one of a command that names none (log entry 21). -/
def failList (c : EngCmd) : List Nat :=
  let l := (List.range (max c.items 64)).filter (isItem c.kind c.desc)
  if l.isEmpty then [0] else l
/-- A command fails as a whole before it moves a byte: every item of it ends so. -/
def failStart (c : EngCmd) (cause : Byte) (s : State) : State :=
  let s1 := cmdUpd c.id (fun x => { x with started := true, items := (failList c).length }) s
  (failList c).foldl (fun s i => failItem c i cause (.on s) s) s1
/-- The signature a task holds now, wherever it is. -/
def taskSig (s : State) (t : Task) : Sig :=
  match t.core with
  | some id => (coreOf s id).sp.wsig
  | none => (t.saved.map (·.sp.wsig)).getD 0
/-- What a task wrote is visible at package scope: its dirty bytes, where it runs, and the marks its stores left (R38). -/
def publishTask (t : Task) (s : State) : State :=
  match t.core with
  | some k => onCore k (releaseWrites .package) s
  | none => match t.saved with
    | some v => onCore v.core (fun s => ((s.l2.filter (pushesOf v.core v.sp.wsig)).map (·.key)).foldl
        (fun s k => l2Push s (clusterOf v.core) k) s) s
    | none => s
/-- A GNODE starts: the launch's total grows, the node is added and becomes ready behind the task's signature. -/
def startGnode (c : EngCmd) (s : State) : State :=
  match c.task.bind (taskFind s) with
  | none => s
  | some t =>
    match launchFind s t.launch, taskNode s t with
    | some lx, some tn =>
      if 256 ≤ openGnodes lx then s
      else
        let n := { nodeOf c.desc tn.rcb 0 [] with gnode := some c.id, acq := taskSig s t }
        let s1 := cmdUpd c.id (fun x => { x with started := true }) s
        let s2 := launchUpd s1 t.launch fun x => { x with nodes := x.nodes ++ [n], total := x.total + 1 }
        readyNode t.launch lx.nodes.length (publishTask t s2)
    | _, _ => s
/-- The prescale of a quantising CPYR, from the ring as it stands now (R144, R361). -/
def startExp (s : State) (c : EngCmd) : Int :=
  match c.core, mxOf (dTt c.desc) with
  | some id, some f => if readsRing c then prescale f ((coreOf s id).a.rings.get (Fin.ofNat 16 (dEring c.desc))) else 0
  | _, _ => 0
/-- A command starts: behind those that started before it (R354), its ring read unless a commit has read it. -/
def begin1 (c : EngCmd) (s : State) : State :=
  { s with cmds := (s.cmds.filter fun x => x.id != c.id) ++
      (s.cmds.filter fun x => x.id == c.id).map fun x =>
        { x with started := true, kexp := some (x.kexp.getD (startExp s c)) } }
/-- The flag is in order, or the command waits or fails; then it starts. -/
def startFlag (c : EngCmd) (s : State) : State :=
  match flagCheck c with
  | some 0x06 => itemWaits c (xAflag c.desc) s
  | some e => failStart c e s
  | none => begin1 c s
/-- A node's items start with an acquire of the union of its predecessors' signatures: leased copies in it leave their
cluster's L2, all of them when it is saturated (R38, R193). -/
def nodeAcquire (c : EngCmd) (s : State) : State :=
  ((s.l2.filter fun l => l.cluster == c.cluster && leased l.key && (c.fullinv || inSig c.wsig l.key)).map (·.key)).foldl
    (fun s k => l2Forget c.cluster k s) s
/-- A node's command acquires, reads its descriptor and is checked; one out of limits fails its item with 0x11 (R340). -/
def nodeStart (c : EngCmd) (s0 : State) : State :=
  let s := nodeAcquire c s0
  match checkGlob c.ktt (c.ea.toNat : Int) (descSize c.kind) (descSize c.kind) .rd with
  | .error 0x06 => itemWaits c c.ea.toNat s
  | .error e => failStart c e s
  | .ok e =>
    let d := homeBytesGet s (kttKey e c.ea.toNat) (descSize c.kind)
    let c1 : EngCmd := { mapDesc c d with ssthr := if sSthr d = 0 then 4 else sSthr d }
    let s1 := cmdUpd c.id (fun _ => c1) s
    if descBad c.kind d then failStart c1 0x11 s1 else startFlag c1 s1
/-- What the start of a command does. -/
def startCmd (c : EngCmd) (s : State) : State :=
  if c.node.isSome && c.desc.isEmpty then nodeStart c s
  else if c.kind == .gnode then startGnode c s
  else startFlag c s
/-- A core's command that has started is an event of its counters (R476). -/
def countStart (c : EngCmd) (s : State) : State :=
  match c.core with
  | some k => if ((cmdFind s c.id).map (·.started)).getD true then onCore k (countEvt 0x0A 1) s else s
  | none => s
/-- The task that issued a command has ended: it was cancelled, or a budget fault ended it; one that is cancelled on its core
ends as it leaves it. -/
def cmdOrphan (s : State) (c : EngCmd) : Bool := match c.task.bind (taskFind s) with
  | some t => t.st == .ended || t.cancel.isSome
  | none => false
/-- The cause a command of an ended task fails with: its own cancellation's, or its node's. -/
def orphanCause (s : State) (c : EngCmd) : Byte :=
  let t := c.task.bind (taskFind s)
  (t.bind (·.cancel)).getD (((t.bind (taskNode s)).bind (·.faulted)).getD 0x14)
/-- ENGINE_COMMAND_START. A command of a task that was cancelled or ended before it could start fails with that cause: the
manual leaves it open (R50, R428), log entry 48. -/
def execEngineCommandStart (id : Nat) (s : State) : Host.Outcome State Fault Refusal :=
  match cmdFind s id with
  | none => .next s
  | some c =>
    if c.started then .next s
    else if cmdOrphan s c then .next (failStart c (orphanCause s c) s)
    else if c.held || cmdStopped s c || cmdParked s c || cmdFenced s c || !cmdFirst s c || !placeFree s c then .next s
    else .next (countStart c (startCmd c s))

/-! ## SSCAN (R344 to R354) -/

/-- The SSU reads and writes the scratchpad window of its core, stash included, or global memory through the L2. -/
def scanPlace (s : State) (c : EngCmd) (off n al : Nat) (acc : Acc) : EPlace :=
  match checkGlob c.ktt ((sGbase c.desc + off : Nat) : Int) n al acc with
  | .error 0x06 => .absent (sGbase c.desc + off)
  | .error e => .fail e
  | .ok e => globPlace s c (kttKey e (sGbase c.desc + off))
/-- Read an array of elements of `z` bytes at an offset. -/
def scanRead (c : EngCmd) (off cnt z : Nat) (f : List Nat → Job → Job) (j : Job) : Job :=
  if sGv c.desc then
    let rec go : List Nat → List Nat → Job → Job
      | [], acc, j => f acc.reverse j
      | i :: r, acc, j => j.place (scanPlace j.s c (off + z * i) z z .rd) fun l j =>
          match l with
          | .glob a => match homeErr j.s (lineKey a) with
            | some e => { j with fails := some e }
            | none =>
              let b := engBytes c l z j.s
              go r (natOfBytes b.1 :: acc) { j with s := b.2 }
          | .spad _ => j
    go (List.range cnt) [] j
  else
    let id := c.core.getD 0
    let s1 := focus id j.s
    match spadErr s1 off (cnt * z) with
    | some e => j.go fun j => { j with fails := some e }
    | none =>
    let r := spadReadN s1 off (cnt * z)
    f ((List.range cnt).map fun i => field r.1 (z * i) z) { j with s := focus j.s.core.id r.2 }
/-- Output bytes that overlap another range of the scan are undefined (R353): free values. H_out may be H_0 itself. -/
def scanOut (c : EngCmd) (self : Nat) (off : Nat) (b : List Byte) (s : State) : List Byte :=
  let rs := sRanges c.desc
  let same (i : Nat) : Bool := self == 5 && i == 4 && sOff c.desc 4 == sOff c.desc 5
  let clash (a : Nat) : Bool := (List.range rs.length).any fun i =>
    match rs[i]? with
    | some r => i != self && r.1 ≤ a && a < r.1 + r.2.1 && !same i
    | none => false
  (List.range b.length).zipWith (fun i x => if clash (off + i) then Config.freeBits 8 (s.fresh + i) else x) b
/-- Write an array of elements of `z` bytes. -/
def scanWrite (c : EngCmd) (self off z : Nat) (vals : List Nat) (j : Job) : Job :=
  let b := scanOut c self off (vals.flatMap fun v => toBytes z (BitVec.ofNat 64 v)) j.s
  let j0 := { j with s := { j.s with fresh := j.s.fresh + b.length } }
  if sGv c.desc then
    (List.range vals.length).foldl (fun j i =>
      j.place (scanPlace j.s c (off + z * i) z z .wr) fun l j => j.put c l ((b.drop (z * i)).take z)) j0
  else
    j0.go fun j => { j with
      s := onCore (c.core.getD 0) (fun s => spadWriteN s off b) j.s, bytes := j.bytes + b.length }
def rowsOf (w : Nat) : Nat → List Nat → List (List Nat)
  | 0, _ => []
  | n + 1, l => l.take w :: rowsOf w n (l.drop w)
/-- The whole scan; its flags go to the command. Its accesses are made and checked in the order x, B, C, a, H_0, D, H_out, y,
and the first that fails gives the cause: the manual orders none (R348), log entry 47. -/
def scanJob (c : EngCmd) (j : Job) : Job :=
  let d := c.desc
  let n := sN d
  let p := sP d
  let l := sL d
  let thr := if sSthr d = 0 then c.ssthr else sSthr d
  let bf (x : Nat) : FVal := decodeF bf16F x
  scanRead c (sOff d 0) (l * p) 2 (fun xs j => scanRead c (sOff d 1) (l * n) 2 (fun bs j =>
    scanRead c (sOff d 2) (l * n) 2 (fun cs j => scanRead c (sOff d 3) l 4 (fun as_ j =>
    scanRead c (sOff d 4) (n * p) 4 (fun hs j => scanRead c (if sDsk d then sOff d 7 else sOff d 3) (if sDsk d then p else 0) 4
      (fun ds j =>
        let xr := rowsOf p l xs
        let br := rowsOf n l bs
        let cr := rowsOf n l cs
        let sts := (List.range l).map fun t => (⟨(xr.getD t []).map bf, (br.getD t []).map bf, (cr.getD t []).map bf,
          f32v (as_.getD t 0)⟩ : SStep)
        let r := scanChunks n p (sFrc d) thr (sQ d) (if sDsk d then some (ds.map f32v) else none) l (rowsOf p n hs) sts
        let yb := r.2.1.flatten.map fun v => if sYf d then (v, (0 : BitVec 6)) else roundF bf16F .rne (f32v v)
        let fl := yb.foldl (fun a v => a ||| v.2) r.2.2
        let j1 := scanWrite c 5 (sOff d 5) 4 r.1.flatten j
        let j2 := scanWrite c 6 (sOff d 6) (if sYf d then 4 else 2) (yb.map (·.1)) j1
        { j2 with s := cmdUpd c.id (fun x => { x with flags := x.flags ||| fl }) j2.s }) j) j) j) j) j) j
/-- The scans of one state-space unit run one at a time, in the order they started (R354). -/
def scanTurn (s : State) (c : EngCmd) : Bool :=
  ((s.cmds.find? fun x => x.ssu == c.ssu && x.kind == .sscan && x.started && x.doneItems.isEmpty).map (·.id)) == some c.id
/-- SSCAN_COMPLETE: the scan's single item (R348 to R354); it reads and writes at this one moment, within what R355 leaves
open (log entry 47). A batch scan's flags are discarded. -/
def execSscanComplete (id : Nat) (s : State) : Host.Outcome State Fault Refusal :=
  match cmdFind s id with
  | none => .next s
  | some c =>
    if c.kind != .sscan || !c.started || !c.doneItems.isEmpty || !scanTurn s c then .next s
    else
      match failingItem c 0, cwAbsent c with
      | some e, _ => .next (failItem c 0 e (.on s) s)
      | none, some a => .next (itemWaits c a s)
      | none, none =>
        let j0 : Job := { Job.on s with fails := if itemRefused s c then some 0x11 else none }
        let j := j0.go (scanJob c)
        if j.held.isSome then .next s
        else match j.waits with
        | some ea => .next (itemWaits c ea s)
        | none =>
          let s1 := match c.core with
            | some k => onCore k (hotBytes (Fin.ofNat 16 (bitsOf (dW c.desc 0x38) 11 8)) j.bytes) j.s
            | none => j.s
          .next (itemOver id 0 j.fails j.sig j.bytes 0 (ecwUpdate c j.fails s1))

/-! ## COLL (R368 to R370) -/

/-- A participant's identifier. -/
def collId (s : State) (c : EngCmd) : Nat := s.package * 32 + c.cluster
/-- The identifier array as a command reads it. -/
def collArray (s : State) (c : EngCmd) : Except EPlace (List Nat) :=
  (List.range (collN c.desc)).foldl (fun acc i => match acc with
    | .error e => .error e
    | .ok l => match engPlace s c 0 (dW c.desc 0x18 + 2 * i : Nat) 2 .rd with
      | .at p => .ok (l ++ [natOfBytes (engBytes c p 2 s).1])
      | e => .error e) (.ok [])
def collWidth (d : List Byte) : Nat := if collType d = 10 then 2 else 4
/-- The tree of R151 over the ranks, in the element type. -/
def collNode (d : List Byte) (a b : Nat) : Nat :=
  let op : RedOp := match collOp d with
    | 0 => .add
    | 1 => .min
    | _ => .max
  if collType d = 2 then (redOp op .i32 (BitVec.ofNat 32 a) (BitVec.ofNat 32 b)).toNat
  else (fredNode (if collType d = 8 then f32F else bf16F) op .rne (a, 0) (b, 0)).1
def collCanon (d : List Byte) (x : Nat) : Nat :=
  if collType d = 2 then x else canonF (if collType d = 8 then f32F else bf16F) x
def collTree (d : List Byte) (l : List Nat) : Nat := collCanon d ((tree (collNode d) 10 (l.map some)).getD 0)
/-- Same tag, and one of the fields that must agree differs (R369). -/
def collDiffers (a b : List Byte) : Bool :=
  collN a != collN b || dW a 0x28 != dW b 0x28 || collCount a != collCount b
/-- Elements a rank sends. -/
def collSendLen (d : List Byte) : Nat := if collKind d = 2 then collCount d * collN d else collCount d
/-- What a rank receives (R370). -/
def collRecv (d : List Byte) (sends : List (List Nat)) (rank : Nat) : List Nat :=
  let c := collCount d
  let col (e : Nat) : List Nat := sends.map fun l => l.getD e 0
  if collKind d = 1 then sends.flatMap fun l => l.take c
  else if collKind d = 0 then (List.range c).map fun e => collTree d (col e)
  else (List.range c).map fun e => collTree d (col (rank * c + e))
/-- A participant's item ends with a failure. -/
def collFail (cause : Byte) (s : State) (c : EngCmd) : State := failItem c 0 cause (.on s) s
/-- A COLL command that has started and is not over, with its identifier array, when that can be read. -/
def collsOf (s : State) (tag : Nat) : List (EngCmd × List Nat) :=
  (s.cmds.filter fun c => c.kind == .coll && c.started && c.doneItems.isEmpty && c.failing.isEmpty
    && collTag c.desc == tag).filterMap fun c =>
    match collArray s c with
    | .ok l => some (c, l)
    | .error _ => none
/-- Another command, of descriptor `d` and array `arr`, clashes with `x` in the participant `me`: it has the tag of `x`, it names
`me` and it differs (R369). -/
def collClash (x : EngCmd × List Nat) (me : Nat) (d : List Byte) (arr : List Nat) : Bool :=
  collTag d == collTag x.1.desc && arr.contains me && (collDiffers d x.1.desc || arr != x.2)
/-- A command that fails with 0x11: its identifier is not in its array exactly once, or another command with its tag that
names it differs (R369): one of this package, one that failed so before, or one of another package. An array that repeats any
identifier fails too: no collective of it can complete (log entry 49). -/
def collBadNow (s : State) (far : List FarColl) (l : List (EngCmd × List Nat)) (x : EngCmd × List Nat) : Bool :=
  let me := collId s x.1
  x.2.eraseDups.length != x.2.length || !x.2.contains me
    || l.any (fun y => y.1.id != x.1.id && collClash x me y.1.desc y.2)
    || s.oldColls.any (fun o => o.left.contains me && collClash x me o.desc o.arr)
    || far.any (fun f => collClash x me f.desc f.arr)
/-- Clashing commands fail. Each is remembered for the participants it names that are still to start, and is forgotten with the
last of them (R369). -/
def collFailAll (l : List (EngCmd × List Nat)) (s : State) : State :=
  let ids := l.map fun x => collId s x.1
  let new : List OldColl := l.map fun x => ⟨x.1.desc, x.2, x.2.eraseDups.filter fun i => i / 32 == s.package⟩
  let tags := l.map fun x => collTag x.1.desc
  let old := (s.oldColls ++ new).map fun o =>
    if tags.contains (collTag o.desc) then { o with left := o.left.filter fun i => !ids.contains i } else o
  (l.map (·.1)).foldl (collFail 0x11) { s with oldColls := old.filter fun o => !o.left.isEmpty }
/-- A rank of a collective: a command of this package, or another package's participant with the elements it sent. -/
inductive Rank where
  | own (c : EngCmd)
  | far (send : List Word)
deriving DecidableEq, Repr
/-- The participant with identifier `i` of the collective that `x` takes part in. -/
def rankOfId (s : State) (l : List (EngCmd × List Nat)) (x : EngCmd × List Nat) (far : List FarColl) (i : Nat) :
    Option Rank :=
  if i / 32 != s.package then
    (far.find? fun y => y.id == i && collTag y.desc == collTag x.1.desc && !collDiffers y.desc x.1.desc && y.arr == x.2).map
      fun y => .far y.send
  else (l.find? fun y => collId s y.1 == i && !collDiffers y.1.desc x.1.desc && y.2 == x.2).map fun y => .own y.1
/-- Read every rank's send buffer: the first that waits or fails stops it. -/
def collSends (d : List Byte) : List Rank → List (List Nat) → Job → (List (List Nat) → Job → Job) → Job
  | [], acc, j, f => f acc j
  | .far ws :: r, acc, j, f => collSends d r (acc ++ [ws.map (·.toNat)]) j f
  | .own c :: r, acc, j, f =>
    readAll c 0 (collWidth d) (fun bs j => collSends d r (acc ++ [bs.map natOfBytes]) j f)
      ((List.range (collSendLen d)).map fun e => ((dW c.desc 0 + collWidth d * e : Nat) : Int)) [] j
/-- Write a participant's receive buffer. -/
def collWrite (c : EngCmd) (sends : List (List Nat)) (rank : Nat) (j : Job) : Job :=
  let w := collWidth c.desc
  let vals := collRecv c.desc sends rank
  (List.range vals.length).foldl (fun (q : Job) e =>
    q.write c none 0 (dW c.desc 8 + w * e : Nat) (toBytes w (BitVec.ofNat 64 (vals.getD e 0)))) j
/-- The receive buffers of this package's participants, each an item of its own; one that must wait holds them all. -/
def collDeliver (sends : List (List Nat)) (rs : List (Nat × Rank)) (j0 : Job) : Job :=
  rs.foldl (fun j r => match r.2 with
    | .far _ => j
    | .own c =>
      j.go fun j =>
        match cwAbsent c with
        | some a => { j with waits := some a }
        | none =>
          let q := collWrite c sends r.1 (.on j.s)
          if q.held.isSome || q.waits.isSome then { j with held := q.held, waits := q.waits }
          else
            let s1 := match c.core with
              | some k => onCore k (hotBytes (dEbuf c.desc) q.bytes) q.s
              | none => q.s
            { j with s := itemOver c.id 0 q.fails q.sig q.bytes 0 (ecwUpdate c q.fails s1) }) j0
/-- The collective's one move: every rank's send buffer is read, then every receive buffer of this package is written. -/
def collJob (d : List Byte) (rs : List Rank) (s : State) : Job :=
  collSends d rs [] (.on s) fun sends j => collDeliver sends ((List.range rs.length).zip rs) j
/-- The commands of this package among the ranks. -/
def ownRanks (rs : List Rank) : List EngCmd := rs.filterMap fun r => match r with
  | .own x => some x
  | .far _ => none
/-- COLL_COMPLETE: the collective of command `id` completes in every participant of this package together, or its item
fails (R369). `run.far` holds the commands of participants of other packages, with what they sent. Of the cases of R369 that
hold at once, 0x11 gives the cause first, then a dead agent, 0x12, then a link that failed, 0x13: the manual orders none (DESIGN
CHOICE, log entry 54). -/
def execCollComplete (run : CollRun) (s : State) : Host.Outcome State Fault Refusal :=
  match cmdFind s run.id with
  | none => .next s
  | some c =>
    if c.kind != .coll || !c.started || !c.doneItems.isEmpty then .next s
    else
      match failingItem c 0, cwAbsent c, collArray s c with
      | some e, _, _ => .next (failItem c 0 e (.on s) s)
      | none, some a, _ => .next (itemWaits c a s)
      | none, none, .error (.absent a) => .next (itemWaits c a s)
      | none, none, .error (.fail e) => .next (collFail e s c)
      | none, none, .error _ => .next s
      | none, none, .ok arr =>
        let l := collsOf s (collTag c.desc)
        let others := arr.filter fun i => i / 32 != s.package
        if collBadNow s run.far l (c, arr) then .next (collFailAll (l.filter (collBadNow s run.far l)) s)
        else if others.any fun i => s.dead.contains (agentPkg (i / 32)) then .next (collFail 0x12 s c)
        else if others.any fun i => s.ports == 0 || s.lost.any fun x => x.1 == i / 32 then .next (collFail 0x13 s c)
        else
          let rs := arr.filterMap (rankOfId s l (c, arr) run.far)
          if rs.length != arr.length then .next s
          else
            let j := collJob c.desc rs s
            if j.held.isSome then .next s
            else match j.waits, j.fails with
            | some a, _ => .next (itemWaits c a s)
            | none, some e => .next ((ownRanks rs).foldl (collFail e) s)
            | none, none => .next j.s

/-! ## A link or port that fails (R467) -/

/-- Items under way that wait for an agent no path reaches end with `cause`. -/
def failMoves (sel : EngCmd → Bool) (agent : Nat) (cause : Byte) (s : State) : State :=
  (s.cmds.filter fun c => c.started && sel c && c.kind != .coll && c.kind != .gnode).foldl (fun s c =>
    ((List.range (max c.items 64)).filter fun i => isItem c.kind c.desc i && !c.doneItems.contains i).foldl (fun s i =>
      let j := if c.kind == .sscan then (Job.on s).go (scanJob c) else itemJob c i s
      if j.held == some agent then failItem c i cause j s else s) s) s
/-- A collective that waits for such an agent ends so in its participants of this package. -/
def failColls (sel : EngCmd → Bool) (agent : Nat) (cause : Byte) (s : State) : State :=
  (s.cmds.filter fun c => c.started && sel c && c.kind == .coll && c.doneItems.isEmpty).foldl (fun s c =>
    match collArray s c with
    | .error (.held a) => if a == agent then collFail cause s c else s
    | .error _ => s
    | .ok arr =>
      let rs := arr.filterMap (rankOfId s (collsOf s (collTag c.desc)) (c, arr) [])
      if rs.length == arr.length && (collJob c.desc rs s).held == some agent then (ownRanks rs).foldl (collFail cause) s
      else s) s
def failItems (sel : EngCmd → Bool) (agent : Nat) (cause : Byte) (s : State) : State :=
  failColls sel agent cause (failMoves sel agent cause s)

end Sys2Proof.Machine
end

