-- ==== Sys2Proof/Machine/Sync.lean ====
section
/-! DEFINITION. Synchronisation instructions (R316 to R323) and the completion of token operations (R210, R214, R285). -/

namespace Sys2Proof.Machine

/-! ## The instructions -/

/-- A synchronising access: it closes a region, is guarded as a whole, and checks its address (R238, R283, R288). -/
def syncGo (g : Guard) (m : MAddr) (n : Nat) (acc : Acc) (f : Nat → Word → State → State) (s : State) :
    Host.Outcome State Fault Refusal :=
  closes (whenOn g fun s =>
    let ea := eaM s m n
    match checkGlob s.core.ktt ea n n acc with
    | .error c => trapHere c (BitVec.ofInt 64 ea) s
    | .ok e => f (kttKey e ea.toNat) (BitVec.ofInt 64 ea) s) s
/-- ACQ is performed when its token completes (R316). -/
def execAcq (g : Guard) (d : Option (Fin 64)) (m : MAddr) (tok : Fin 8) (s : State) : Host.Outcome State Fault Refusal :=
  syncGo g m 128 .rw (fun a ea s => addPend tok (.acq d (curScope s) a) ea s) s
/-- REL and RELF take their value at issue; lines added later are held apart (R318, R319). -/
def relGoSync (full : Bool) (x : RL) (s : State) : Host.Outcome State Fault Refusal :=
  syncGo x.g x.m 128 .rw (fun a ea s => addPend x.tok (.rel full (readS s x.a) (curScope s) a 0) ea s) s
def execRel (x : RL) (s : State) : Host.Outcome State Fault Refusal := relGoSync false x s
def execRelf (x : RL) (s : State) : Host.Outcome State Fault Refusal := relGoSync true x s
def execFence (g : Guard) (tok : Fin 8) (s : State) : Host.Outcome State Fault Refusal :=
  closes (whenOn g fun s => addPend tok (.fence (curScope s)) 0 s) s
def execFencex (g : Guard) (tok : Fin 8) (s : State) : Host.Outcome State Fault Refusal :=
  closes (whenOn g fun s => addPend tok .fencex 0 s) s
/-- CWADD reads its operand at issue and adds the line to %wsig (R321, R322); `CWOP` of the operand decides the effect. -/
def cwaddGo (x : CW) (s : State) : Host.Outcome State Fault Refusal :=
  syncGo x.g x.m 8 .rw (fun a ea s =>
    let key := lineKey a
    let v := getS s.core.a x.r
    let sc := curScope s
    let s1 := addLineSig key (settle key s)
    if sc = .core && !unperformed s1.core key && (placeErr .core a 8 s1).isNone && placeReach .core a 8 s1 then
      let q := rmw .core a 8 (fun old => cwaddNew old v) s1
      addPend x.tok (.cwadd x.r v sc a (some q.1)) ea (noteBarrier a v q.2)
    else addPend x.tok (.cwadd x.r v sc a none) ea (sendAtom sc key (beforeAtomic a 8 s1))) s
/-- CWADD with `CWOP` 00. -/
def execCwaddAdd (x : CW) (s : State) : Host.Outcome State Fault Refusal := cwaddGo x s
/-- CWADD with `CWOP` 01, a barrier arrival. -/
def execCwaddArrive (x : CW) (s : State) : Host.Outcome State Fault Refusal := cwaddGo x s
/-- CWADD with `CWOP` 10 or 11, a read. -/
def execCwaddRead (x : CW) (s : State) : Host.Outcome State Fault Refusal := cwaddGo x s

/-- The word a WAITCW reads: at the place of its scope, past the L1D; at core scope that place is the core (R188). -/
def waitWord (sc : Scope) (a : Nat) (s : State) : Word × State :=
  let r := placeFetch sc a 8 s
  (ofBytes 64 r.1, r.2)
/-- The word can be read now: a path leads to it, and at core scope no atomic of the core on its line, which it comes behind, is
still to be performed (R297, R467). -/
def waitReads (sc : Scope) (a : Nat) (s : State) : Bool :=
  placeReach sc a 8 s && !(sc == .core && unperformed s.core (lineKey a))
/-- WAITCW: satisfied, it writes the word by the end of its step; else issue stops at a yield point (R323). A word that
meets an uncorrectable error ends the wait, with the error deferred (R285): log entry 46. -/
def execWaitcw (g : Guard) (r : Fin 64) (m : MAddr) (s : State) : Host.Outcome State Fault Refusal :=
  syncGo g m 8 .rd (fun a ea s =>
    let target := (getS s.core.a r).setWidth 32
    match placeErr (curScope s) a 8 s with
    | some c =>
      let f := freeVal 64 s
      (emitS 1 (.reg r) f.1 0 (addErr s.core.seq none c ea (some (.s r)) f.2)).mapCore fun c => { c with wait := none }
    | none =>
      let w := if waitReads (curScope s) a s then waitWord (curScope s) a s else (0, s)
      if waitReads (curScope s) a s && cwSatisfied target w.1 then
        (emitS 1 (.reg r) w.1 0 w.2).mapCore fun c => { c with wait := none }
      else stopToWait (.cw a target (curScope s)) s) s

/-! ## TOKEN_COMPLETE -/

def overlaps (a b : List Loc) : Bool := a.any fun l => b.contains l
def ldcLocs (p : PendOp) : Option (List Loc) := match p.kind with
  | .ldc _ _ _ l => some l
  | _ => none
def stcLocs (p : PendOp) : Option (List Loc) := match p.kind with
  | .stc b => some (b.map (·.1))
  | _ => none
/-- The core whose scratchpad a location is in. -/
def locCore : Loc → Nat
  | .spad a => a / 2 ^ 28 * 512 + a / 2 ^ 25 % 8 * 64 + a / 2 ^ 19 % 64
  | .glob _ => 0
def isEngine (p : PendOp) : Bool := match p.kind with
  | .engine _ => true
  | _ => false
/-- The register a completing operation writes. -/
def tokReg (p : PendOp) : Option RDst := match p.kind with
  | .load d .. => some d
  | .ldc d .. => some d
  | .atomic _ _ r .. | .ordAtomic _ _ r .. | .cwadd r .. => some (.s r)
  | .acq d .. => d.map .s
  | _ => none
def flightTo (d : RDst) (f : Flight) : Bool := match d, f.dest with
  | .s i, .s j => i == j
  | .v i, .v j => i == j
  | .q _, _ | _, _ => false
/-- No step of this core lands results: it is stalled on a token, asked to leave, or undoing a region. -/
def noStepLands (s : State) : Bool :=
  s.core.stall == some .token
    || (match s.core.rgn.st with
      | .unwinding _ => true
      | _ => false)
    || (match curTask s with
      | some t => t.stopReq.isSome
      | none => false)
/-- R214: a token write lands no earlier than an older fixed-latency write to its register. Where no step could land
that one, the token's write comes at once, and stays the later of the two: log entry 8. -/
def waitsFlight (s : State) (p : PendOp) : Bool :=
  match tokReg p with
  | some d => !noStepLands s && s.core.flights.any (flightTo d)
  | none => false

/-- The lines whose homes a pending operation still needs an answer of. -/
def waitsHome (p : PendOp) : List Nat :=
  match p.kind with
  | .load _ _ got locs _ => (got.zip locs).filterMap fun x => match x with
    | (none, .glob a) => some (lineKey a)
    | _ => none
  | .atomic _ _ _ _ _ _ a none | .ordAtomic _ _ _ _ _ _ a none | .cwadd _ _ _ a none => [lineKey a]
  | .acq _ _ a | .rel _ _ _ a _ => [lineKey a]
  | _ => []
/-- The homes an operation needs can be reached: its own, and for a release those of what it pushes and performs. -/
def homesReach (s : State) (p : PendOp) : Bool :=
  let far (q : PendOp) : Bool := (waitsHome q).all (reach s (dieOf s.core.id))
  match p.kind with
  | .load .. => true
  | .rel _ _ sc _ _ => sc == .core
      || (far p && pushesReach s && (s.core.pend.filter fun q => q.seq < p.seq).all fun q => far q)
  | _ => far p

/-- The task in focus is being saved: the engine tokens it has are recorded, and no longer complete on this core (R414). -/
def stopping (s : State) : Bool := match curTask s with
  | some t => t.stopReq.isSome && !regionOpen s.core && !(t.stopReq == some .yield && !s.core.feed.isEmpty)
  | none => false
/-- Whether an operation may complete now. -/
def tokenReady (s : State) (p : PendOp) : Bool :=
  let older := s.core.pend.filter fun q => q.seq < p.seq
  !waitsFlight s p && homesReach s p &&
  match p.kind with
  | .load _ _ got locs _ => (got.zip locs).all fun x => match x with
    | (none, .glob a) => (homeErr s (lineKey a)).isSome
    | (none, .spad _) => false
    | _ => true
  | .ldc _ _ _ l => !(older.any fun q => ((stcLocs q).map (overlaps l)).getD false)
  | .stc b => !(older.any fun q => ((stcLocs q).map (overlaps (b.map (·.1)))).getD false
      || ((ldcLocs q).map (overlaps (b.map (·.1)))).getD false)
  | .stg | .acq .. => true
  | .atomic _ _ _ _ _ _ a old => old.isSome || !(flowBehind s p || lineBehind s (lineKey a) p)
  | .cwadd _ _ _ a old => old.isSome || !(flowBehind s p || lineBehind s (lineKey a) p)
  | .ordAtomic _ _ _ _ _ _ a old => old.isSome || (homeErr s (lineKey a)).isSome
  | .rel _ _ sc _ _ =>
    !(older.any fun q => match q.kind with
      | .rel .. => true
      | .stc _ => sc != .core
      | .ordAtomic _ _ _ _ _ _ _ none => sc != .core
      | _ => false) && (sc == .core || s.core.young.isEmpty)
  | .fence _ => !(older.any fun q => !isEngine q)
  | .fencex => s.core.young.isEmpty
  | .sflush k _ => match k with
    | some key => !(s.core.pend.any fun q => ordOpen q && atomKey q == some key)
    | none => true
  | .engine id => match cmdFind s id with
    | some c => cmdDone c && !stopping s
    | none => true
  | .held => false

/-- The destination of a token's write, as a digest names it (R394). -/
def rdstBytes : RDst → List Byte
  | .s i => destBytes (.s i)
  | .v i => destBytes (.v i)
  | .q k => destBytes (.qact (.unbind k))
/-- Write a token operation's register, over any older result still in flight, and into the shadow when the operation
is older than the region (R214, R237); after a rollback trigger a region's own write is discarded. -/
def tokWrite (p : PendOp) (d : RDst) (m : BitVec 32) (x : Vec) (s : State) : State :=
  let un : Bool := match s.core.rgn.st with
    | .unwinding _ => p.rgn
    | _ => false
  if un then s
  else
    let w (a : Arch) : Arch := match d with
      | .s i => setS a i (x.setWidth 64)
      | .v i => setV a i (blend (laneMask m) x (getV a i))
      | .q _ => a
    let fl (f : Flight) : Flight :=
      if flightTo d f then
        match d with
        | .s _ => { f with dest := .latchOnly }
        | .v _ => { f with mask := f.mask &&& ~~~m }
        | .q _ => f
      else f
    s.mapCore fun c => { c with
      a := w c.a
      flights := c.flights.map fl
      rgn := { c.rgn with
        shadow := if p.rgn then c.rgn.shadow else c.rgn.shadow.map w
        sigCrc := if p.rgn && (c.rgn.st == .rerunA || c.rgn.st == .rerunB) then
            crcBytes c.rgn.sigCrc (rdstBytes d ++ toBytes 4 m ++ toBytes 128 x)
          else c.rgn.sigCrc } }
def dropPend (p : PendOp) (s : State) : State :=
  let s1 := s.mapCore fun c => { c with pend := c.pend.filter fun q => q.seq != p.seq }
  -- what waited behind an atomic that was not performed goes on
  match atomKey p with
  | some key => if s1.core.young.isEmpty then s1 else replay key s1
  | none => s1
/-- The error an access of an object meets in either of its lines (R285). -/
def objErr (s : State) (a : Nat) : Option Byte :=
  match homeErr s (lineKey a) with
  | some c => some c
  | none => homeErr s (lineKey a + 1)
/-- A completion with an error: the destination is undefined, the error is deferred (R285). -/
def tokError (p : PendOp) (cause : Byte) (s : State) : State :=
  let s1 := addErr p.seq (some p.tok) cause p.ea (tokReg p) s
  match tokReg p with
  | some d =>
    let f := freeVal 1024 s1
    tokWrite p d (BitVec.allOnes 32) f.1 f.2
  | none => s1
/-- Old values are zero-extended (R312). -/
def oldVal (z : ASz) (old : Word) : Vec := (old.setWidth (8 * aszBytes z)).setWidth 1024

/-- The bytes a completed operation moved count against its buffer (R287). -/
def countHot (p : PendOp) (s : State) : State := match p.hot with
  | some x => hotBytes x.1 x.2 s
  | none => s
/-- An acquire that a task repeats at one bundle while the object's `GEN` stays spins; a `GEN` that has changed ends the spin, with
a record of kind 3 (R479; DESIGN CHOICE, log entry 36). -/
def noteSpin (pc : Word) (obj : Nat) (gen : Word) (s : State) : State :=
  let go (since : Nat) (again : Bool) (s : State) : State :=
    s.mapCore fun c => { c with spin := some ⟨pc, obj, gen, since, again⟩ }
  match s.core.spin with
  | some x =>
    if x.pc == pc && x.obj == obj then
      if x.gen == gen then go x.since true s
      else if x.again && traceOn s.core.m then
        let s1 := go s.tick false s
        { s1 with agenda := s1.agenda ++ [.event (.traceRecord s.core.id (.flagWait (BitVec.ofNat 56 (s.tick - x.since))))] }
      else go s.tick false s
    else go s.tick false s
  | none => go s.tick false s
/-- What the completion of each kind does, its token made complete last. An SFLUSH writes back as it completes, so that an SDROP which
issues before discards the bytes first: R301 does not say which comes first (DESIGN CHOICE, log entry 54). -/
def completeOp (p : PendOp) (s : State) : State :=
  match p.kind with
  | .load d m got locs _ =>
    let err := (got.zip locs).findSome? fun x => match x with
      | (none, .glob a) => homeErr s (lineKey a)
      | _ => none
    match err with
    | some c => tokError p c s
    | none =>
      let b := got.map fun g => g.getD 0
      countHot p (tokWrite p d m (ofBytes 1024 b) (if p.rgn then digestLoad p.ea [] b s else s))
  | .ldc d m got locs =>
    if locs.any fun l => s.dead.contains (locCore l) then tokError p 0x12 s
    else
      let b := got.zipWith (fun g l => match g, l with
        | some x, _ => x
        | none, .spad a => Mem.get s.spad a
        | none, .glob _ => 0) locs
      countHot p (tokWrite p d m (ofBytes 1024 b) (if p.rgn then digestLoad p.ea [] b s else s))
  | .stg => countHot p s
  | .fence _ | .held => s
  | .stc b =>
    if b.any fun x => s.dead.contains (locCore x.1) then tokError p 0x12 s else countHot p (storeLocs b s)
  | .atomic _ z r _ _ _ a _ =>
    let s1 := performLine p s
    match ((s1.core.pend.find? fun q => q.seq == p.seq).map (fun (q : PendOp) => q.kind) : Option PKind) with
    | some (.atomic _ _ _ _ _ _ _ (some old)) => tokWrite p (.s r) (BitVec.allOnes 32) (oldVal z old) s1
    | _ => tokError p ((homeErr s1 (lineKey a)).getD 0x12) s1
  | .ordAtomic _ z r _ _ _ a old =>
    match old with
    | some o => tokWrite p (.s r) (BitVec.allOnes 32) (oldVal z o) s
    | none => tokError p ((homeErr s (lineKey a)).getD 0x12) s
  | .cwadd r _ _ a _ =>
    let s1 := performLine p s
    match ((s1.core.pend.find? fun q => q.seq == p.seq).map (fun (q : PendOp) => q.kind) : Option PKind) with
    | some (.cwadd _ _ _ _ (some old)) => tokWrite p (.s r) (BitVec.allOnes 32) (old.setWidth 1024) s1
    | _ => tokError p ((homeErr s1 (lineKey a)).getD 0x12) s1
  | .acq d sc a =>
    match objErr s a with
    | some c => tokError p c s
    | none =>
      let r := acquireObj sc a s
      let s1 := noteSpin p.pc a r.1 r.2
      match d with
      | some i => tokWrite p (.s i) (BitVec.allOnes 32) (r.1.setWidth 1024) s1
      | none => s1
  | .rel full v sc a after =>
    let s1 := if sc = .core then s else (s.core.pend.filter fun q => q.seq < p.seq).foldl (fun s q => performLine q s) s
    match (if atHome sc then pushErr s1 else none).orElse fun _ => objErr s1 a with
    | some c => tokError p c (clearWsig after (releaseWrites sc s1))
    | none => releaseObj full v sc a after s1
  | .fencex => writeBackAll s
  | .sflush k buf => match k with
    | some key => flushLine buf key s
    | none => s
  | .engine id =>
    match cmdFind s id with
    | none => s
    | some c =>
      let s1 := orFlags c.flags (!p.rgn) (joinSig c.sig s)
      let s2 := match c.failCause with
        | some e => if cmdCw c.kind c.desc = 0 && c.kind != EKind.gnode then addErr p.seq (some p.tok) e c.ea none s1 else s1
        | none => s1
      let s3 := { s2 with cmds := s2.cmds.filter fun x => x.id != id }
      match c.task with
      | some t => chargeTask t 0 c.bytes s3
      | none => s3

/-- TOKEN_COMPLETE: the n-th pending operation of a core completes when it can. -/
def execTokenComplete (core n : Nat) (s : State) : Host.Outcome State Fault Refusal :=
  .next (onCore core (fun s =>
    match s.core.pend[n]? with
    | none => s
    | some p => if tokenReady s p then dropPend p (completeOp p s) else s) s)

/-! ## Fills (R160, R161, R374) -/

/-- A line that arrives is served to the loads of its class that wait for it, and stays, unless an acquire has dropped it or its
read met an error. -/
def takeFill (key : Nat) (cls : Option (Fin 8)) (keep : Bool) (s : State) : State :=
  if (homeErr s key).isSome then s
  else
    let cl := clusterOf s.core.id
    let s1 := l2Fill s s.core.lct cl key cls
    let s2 := serveLoads key cls (l2Read s1 s1.core.lct cl key cls) s1
    if keep then fillLine s2 key cls else s2
/-- The fills of a line under a class, and whether one of them leaves a copy (R374). -/
def fillsOf (c : Core) (f : Fill) : List Fill := c.fills.filter fun x => x.key == f.key && x.cls == f.cls && x.err.isNone
def fillStays (c : Core) (f : Fill) : Bool := (fillsOf c f).any fun x => !x.dropped
/-- LINE_FILL_COMPLETE: the loads that wait take their bytes; the line stays unless an acquire dropped each fill of it. A line
with an earlier atomic of the core still to be performed waits behind it (R189). -/
def execLineFillComplete (core : Nat) (key : Nat) (s : State) : Host.Outcome State Fault Refusal :=
  .next (onCore core (fun s =>
    match s.core.fills.find? fun f => f.key == key && f.err.isNone with
    | none => s
    | some f =>
      if unperformed s.core key || !reach s (dieOf core) key then s
      else
        takeFill key f.cls (fillStays s.core f) (s.mapCore fun c => { c with fills := c.fills.filter (!(fillsOf c f).contains ·) })) s)
/-- STASH_FILL_COMPLETE: the missing stash lines arrive and the stalled bundle may issue; loads that wait for one take
their bytes, and one that an acquire dropped leaves no copy (R161, R294, R374). A fill whose link has failed, or whose home is
dead, is over without data (R467, R471). -/
def execStashFillComplete (core : Nat) (s : State) : Host.Outcome State Fault Refusal :=
  .next (onCore core (fun s =>
    if s.core.stall == some .stashMiss then
      let stash := s.core.fills.filter fun f => (mapOfKey s.core.maps f.key).isSome
      let ks := stash.filter fun f => f.err.isSome || (!unperformed s.core f.key && reach s (dieOf core) f.key)
      let s1 := (ks.filter (·.err.isNone)).foldl (fun s f => takeFill f.key f.cls (!f.dropped) s) s
      if ks.isEmpty && !stash.isEmpty then s else s1.mapCore fun c => { c with
        stall := none, fills := c.fills.filter fun f => f.err.isSome || !(ks.any fun x => x.key == f.key && x.cls == f.cls) }
    else s) s)

end Sys2Proof.Machine
end

