-- ==== Sys2Proof/Machine/Region.lean ====
section
/-! DEFINITION. The ends of speculative regions (R236 to R240, R386, R393 to R399). While a region unwinds its state
carries what follows the undoing: a rollback's cause, or one of the continuations below. -/

namespace Sys2Proof.Machine

/-- What follows an undoing that is no plain rollback (R393, R395 to R397): rerun A, rerun B, the poison trap, the
retirement of the core, and another member's retirement. -/
def thenRerunA : Nat := 16
def thenRerunB : Nat := 17
def thenPoison : Nat := 18
def thenRetire : Nat := 19
def thenAgain : Nat := 20

/-- Cores that run the members of a task's gang, its own included (R42). -/
def gangCores (s : State) : List Nat :=
  match curTask s with
  | none => [s.core.id]
  | some t => (s.tasks.filter fun x => x.gang == t.gang).filterMap (·.core)
/-- Do the same on every core of the gang, the core in focus among them. -/
def onGang (f : State → State) (s : State) : State := (gangCores s).foldl (fun s k => onCore k f s) s

/-- Undo a region as steps 1, 4 and 5 of R237, then wait for its tokens. -/
def unwindTo (c : Nat) (s : State) : State :=
  (cancelRegion s).mapCore fun k => { k with rgn := { k.rgn with st := .unwinding c }, next := none, landDue := false,
                                             commitDue := false, halting := false, feed := [] }

/-! ## ROLLBACK (R237, R390, R391, R401) -/

/-- A rollback trigger without a step of its own: a stall under a pre-emption (R391), or another member's rollback. -/
def rollNow (c : Nat) (s : State) : State :=
  match s.core.rgn.st with
  | .opened => countEvt 7 1 (unwindTo c s)
  | .rerunA | .rerunB => { rerunEnded false c s with agenda := s.agenda }
  | _ => s
/-- The position of the task in focus in its gang. -/
def gposOf (s : State) : Nat := ((curTask s).map (·.gpos)).getD 0
/-- The region that a rolled back CKPT bundle opens on a member behind the one that met the trigger (R230, R236). -/
def behindCkpt (p : Nat) (r : Region) (s : State) : State :=
  if p < gposOf s && r.steps = 0 && s.core.rgn.st == .closed then
    s.mapRgn fun q => { q with
      st := .opened, recovery := r.recovery, ckpt := r.ckpt, steps := 0, shadow := some s.core.a, held := [],
      guards := Vector.replicate 16 none, outA := none, outB := none,
      sigCrc := BitVec.allOnes 32, loadCrc := BitVec.allOnes 32 }
  else s
/-- A rollback that the member at position `p` met in its region `r`, on another member (R230): one behind it counts
the step of the bundle and lands what that step lands; one ahead of it may have committed, and is not yet drained. -/
def rollMember (c p : Nat) (r : Region) (s0 : State) : State :=
  let s := behindCkpt p r s0
  let s1 := match s.core.rgn.st with
    | .draining => if gposOf s < p then countEvt 7 1 (unwindTo c s) else s
    | _ => rollNow c s
  if p < gposOf s && regionOpen s.core then ringStep (landStep s1) else s1
/-- The same rollback on the members other than the one in focus. -/
def rollOthers (c : Nat) (s : State) : State :=
  let p := gposOf s
  let r := s.core.rgn
  ((gangCores s).filter (· != s.core.id)).foldl (fun s k => onCore k (rollMember c p r) s) s
/-- A rollback of the whole gang without a step of its own. -/
def rollGang (c : Nat) (s : State) : State := rollOthers c (rollNow c s)
/-- ROLLBACK: a trigger of a cause that R225 assigns, on every member of the gang (R230). -/
def execRollback (core : Nat) (cause : Fin 16) (s : State) : Host.Outcome State Fault Refusal :=
  .next (if 1 ≤ cause.val ∧ cause.val ≤ 8 then onCore core (onGang (rollNow cause.val)) s else s)
/-- REGION_STEP_LIMIT: the bundle at region step count 2,048 rolls back, before any other trigger (R239). -/
def execRegionStepLimit (core : Nat) (s : State) : Host.Outcome State Fault Refusal :=
  .next (onCore core (fun s => if regionOpen s.core && 2048 ≤ s.core.rgn.steps then startRollback 6 s else s) s)

/-! ## Gangs and single steps -/

/-- A member behind this one has not committed the region yet: its rollback would undo this one's (R230). -/
def laggards (s : State) : Bool :=
  let p := gposOf s
  (gangCores s).any fun k => decide (p < (((coreOf s k).task.bind (taskFind s)).map (·.gpos)).getD 0) && regionOpen (coreOf s k)
/-- A single step ends at the next bundle, or when the region it stepped into has ended (R391, R407). -/
def stepStop (s : State) : State :=
  match curTask s with
  | some t => if t.stepping && stopRank (t.stopReq.getD .yield) ≤ 2 then takeTrap 8 0x0F 0 0 s else s
  | none => s

/-! ## ROLLBACK_COMPLETE (R237 steps 2 to 7, R393 to R397) -/

/-- Restore the shadowed state, and drop what the region's operations left. -/
def restoreShadow (s : State) : State :=
  s.mapCore fun c => { c with
    a := c.rgn.shadow.getD c.a
    errs := c.errs.filter fun e => !e.rgn
    stall := none, held := false, stallWhy := none, stallCyc := 0, wait := none, tsLate := none, halting := false, commitDue := false, next := none, landDue := false
    sp := { c.sp with done := 0 } }
def closeRegion (s : State) : State :=
  s.mapRgn fun r => { r with st := .closed, shadow := none, held := [], guards := Vector.replicate 16 none }
/-- Begin a rerun at the CKPT bundle, with the shadow kept (R393). -/
def beginRerun (st : RState) (s : State) : State :=
  s.mapCore fun c => { c with
    pc := c.rgn.ckpt
    rgn := { c.rgn with st := st, steps := 0, held := [], guards := Vector.replicate 16 none,
                        sigCrc := BitVec.allOnes 32, loadCrc := BitVec.allOnes 32 } }
/-- The recovery address follows a rollback; out of range it raises 0x09 there (R236). -/
def toRecovery (s : State) : State :=
  let r := s.core.rgn.recovery
  let a := BitVec.ofInt 64 r
  let s1 := s.mapCore fun c => { c with pc := a }
  if relBad r then takeTrap 8 0x09 a 0 s1 else s1
def setRbcause (c : Nat) (s : State) : State := s.mapSp fun p => { p with rbcause := BitVec.ofNat 4 c }

/-! ## Dead agents (R429, R430, R471) -/

/-- The cores a pending operation still needs an answer from. -/
def waitsCore (p : PendOp) : List Nat :=
  match p.kind with
  | .ldc _ _ got locs => (got.zip locs).filterMap fun x => match x with
    | (none, l@(.spad _)) => some (locCore l)
    | _ => none
  | .stc b => b.map fun x => locCore x.1
  | _ => []
/-- A pending request of the core in focus toward an agent: its own, or a push that a release waits for. -/
def toward (agent : Nat) (s : State) (p : PendOp) : Bool :=
  let at_ (k : Nat) : Bool := leased k && homeAgent k == agent
  let push : Bool := match p.kind with
    | .rel _ _ sc _ _ => atHome sc
    | _ => false
  (waitsHome p).any at_ || (push && (pushKeys s).any at_) || (waitsCore p).contains agent
/-- The set held apart behind a release that fails goes back into %wsig, or into the set held apart behind an older one (R319,
R402). -/
def freeApart (p : PendOp) (s : State) : State := match p.kind with
  | .rel _ _ _ _ after => orSigOf (lastRel { s.core with pend := s.core.pend.filter fun q => q.seq < p.seq }) after s
  | _ => s
/-- Requests outstanding complete as deferred errors (R285). -/
def failOps (sel : State → PendOp → Bool) (cause : Byte) (s : State) : State :=
  ((coresOf s).map (·.id)).foldl (fun s k => onCore k (fun s =>
    (s.core.pend.filter (sel s)).foldl (fun s p => dropPend p (tokError p cause (freeApart p s))) s) s) s
/-- The fills of the core in focus toward an agent that no path reaches: one that an access of the stash stalls for is over with
the error, the others leave nothing; the element a stream waits for is recorded with it (R467, R471). -/
def failFill (agent : Nat) (cause : Byte) (s : State) : State :=
  let gone (f : Fill) : Bool := leased f.key && homeAgent f.key == agent && !reach s (dieOf s.core.id) f.key
  let left (f : Fill) : Option Fill :=
    if !gone f then some f
    else if (mapOfKey s.core.maps f.key).isSome && !f.pf then some { f with err := some cause }
    else none
  (List.finRange 8).foldl (fun s k => failFetch agent cause k s) (s.mapCore fun c => { c with fills := c.fills.filterMap left })
/-- The same on the cores `sel` names. -/
def failFills (sel : Nat → Bool) (agent : Nat) (cause : Byte) (s : State) : State :=
  (((coresOf s).map (·.id)).filter sel).foldl (fun s k => onCore k (failFill agent cause) s) s
/-- What the homes do about a dead host: lines it held shared are dropped, lines it owned are poisoned (R430). -/
def scrub (agent : Nat) (s : State) : State :=
  if agent = agentHost then
    { s with poison := ((s.hostHeld.filter (·.2)).map (·.1) ++ s.poison).eraseDups, hostHeld := [] }
  else s
def incarnOf (s : State) (agent : Nat) : Byte := ((s.incarn.find? fun x => x.1 == agent).map (·.2)).getD 0
/-- An agent as a record names it: a core by its source number (R11), another package by its number above a source number of 0,
the host as package 1,024: log entry 51. -/
def agentRec (agent : Nat) : Nat :=
  if agent < 2048 then srcNum agent else if agent = agentHost then 1024 * 2 ^ 16 else (agent - agentPkg 0) * 2 ^ 16
/-- Declare an agent dead: the record, the homes' scrub, and the requests toward it. -/
def declareDead (agent : Nat) (cause : Byte) (s : State) : State :=
  let d := if agent < 2048 then dieOf agent else 0
  let s1 := record d (dispSrc d) 0x85 0 (BitVec.ofNat 64 (agentRec agent))
    ((incarnOf s agent).setWidth 64) s
  failOps (toward agent) cause (scrub agent { s1 with dead := (agent :: s1.dead).eraseDups })
/-- An agent is restarted under its next incarnation. -/
def restartAgent (agent : Nat) (s : State) : State :=
  { s with
    dead := s.dead.filter (· != agent)
    incarn := (agent, incarnOf s agent + 1) :: s.incarn.filter fun x => x.1 != agent }

/-- The spare that replaces a core of a cluster, or none (R10, R14). -/
def takeSpare (id : Nat) (s : State) : Option Nat × State :=
  let k := Fin.ofNat 8 (clusterOf id % 8)
  let n := (dieGet s (dieOf id)).spares.get k
  if n = 0 then (none, s)
  else (some (2 - n), dieUpd s (dieOf id) fun d => { d with spares := d.spares.set k.val (n - 1) k.isLt })
/-- The record of a retirement: the core is the source, then the CKPT bundle and the spare's number (R396). -/
def retireRecord (id : Nat) (pc : Word) (spare : Option Nat) (s : State) : State :=
  record (dieOf id) (srcNum id) 0x0C ((coreOf s id).sp.gpos ++ (8 : BitVec 4)) pc ((spare.map (BitVec.ofNat 64)).getD (BitVec.allOnes 64)) s
/-- Tasks not yet bound of a range that the visible cores can no longer hold never start (R43). -/
def retestRanges (s : State) : State :=
  s.launches.foldl (fun s l => (List.range l.nodes.length).foldl (fun s i =>
    match nodeFind s l.id i with
    | some n =>
      let small := (launchClusters l).all fun c => visibleCores s c < gangSize l
      if n.kind = 0 && (n.st == .ready || n.st == .running) && n.bound < rangeTasks n && small then
        nodeUpd s l.id i fun x => { x with faulted := some (x.faulted.getD 0x11) }
      else s
    | none => s) s) s
/-- Retire the core in focus (R13, R14, R396): a spare takes its number, its memory and its task; with no spare left
the core is disabled and its task leaves it as in an involuntary pre-emption. -/
def retireCore (s : State) : State :=
  let id := s.core.id
  let r := takeSpare id s
  let s1 := declareDead id 0x12 (retireRecord id s.core.pc r.1 r.2)
  match r.1 with
  | some _ => restartAgent id (s1.mapCore fun c => { c with semMap := 0b101010, semDis := 0 })
  | none =>
    let s2 := s1.mapCore fun c => { c with disabled := true }
    retestRanges (match curTask s with
      | some t => (gangOf s t).foldl (fun s g => stopTask g .preempt s) s2
      | none => s2)

/-- What follows an undone region. -/
def afterUndo (c : Nat) (s : State) : State :=
  if c = thenRerunA then beginRerun .rerunA s
  else if c = thenRerunB then beginRerun .rerunB s
  else if c = thenPoison then
    let r := s.core.rgn
    let addr : Word := match r.outB with
      | some (.error _ (some a)) => a
      | _ => 0
    let s1 := setRbcause 8 (closeRegion s)
    let s2 := takeTrap r.errSlot 0x0B addr 0 (s1.mapCore fun k => { k with pc := r.errPc })
    s2.mapCore fun k => { k with pc := BitVec.ofInt 64 r.recovery }
  else if c = thenRetire then
    retireCore ((closeRegion s).mapCore fun k => { k with pc := k.rgn.ckpt })
  else if c = thenAgain then (closeRegion s).mapCore fun k => { k with pc := k.rgn.ckpt }
  else toRecovery (setRbcause c (closeRegion s))
def undone (c : Nat) (s : State) : State :=
  let s1 := afterUndo c s
  if s1.core.rgn.st == .closed && c ≤ 8 then stepStop s1 else s1
/-- ROLLBACK_COMPLETE: every token of the region has completed. -/
def execRollbackComplete (core : Nat) (s : State) : Host.Outcome State Fault Refusal :=
  .next (onCore core (fun s =>
    match s.core.rgn.st with
    | .unwinding c =>
      if s.core.landDue || s.core.pend.any (·.rgn) then s
      else
        -- a stall that the rollback ended is recorded; the recovery is charged to the level of the bundle it delays (R474)
        let t := undone c (restoreShadow s)
        frozen { t with agenda := t.agenda ++ stallDue s.core }
    | _ => s) s)

/-! ## COMMIT_DRAIN_COMPLETE (R240, R386) -/

/-- A held store or push reaches its place; earlier elements of a push's stream first (R310, R386). -/
def drainStore (h : Held) (s : State) : State :=
  match h with
  | .store b _ _ => storeLocs b s
  | .push k _ a z b d => hotBytes b z (spadWriteN (drainOut k s) a (toBytes z (d.getD 0)))
  | _ => s
def drainStash (h : Held) (s : State) : State :=
  match h with
  | .stash o _ => stashDo o s
  | _ => s
/-- The held commands may start; a quantising one has read its ring at the commit (R144, R386). -/
def releaseCmds (s : State) : State :=
  { s with cmds := s.cmds.map fun e =>
      if e.held && e.core == some s.core.id then { e with held := false, kexp := some (startExp s e) } else e }
/-- After a commit nothing in flight belongs to a region (R388), and held stores' tokens may complete (R381). -/
def ofNoRegion (s : State) : State :=
  s.mapCore fun c => { c with
    flights := c.flights.map fun f => { f with rgn := false }
    pend := c.pend.map fun p => { p with rgn := false, kind := if p.kind == .held then .stg else p.kind }
    errs := c.errs.map fun e => { e with rgn := false } }
/-! ## Detected errors (R393 to R397) -/

/-- The bundle and slot of an error: of the operation that met it, where a pending error names one (R395). -/
def noteErr (site : ErrSite) (slot : Nat) (s : State) : State :=
  let met (e : Deferred) : Bool := e.rgn && e.cause == 0x0B && site == some e.ea && e.slot.val == slot
  match s.core.errs.find? met with
  | some e => (s.mapCore fun c => { c with errs := c.errs.filter (· != e) }).mapRgn fun r => { r with errPc := e.pc, errSlot := slot }
  | none => s.mapRgn fun r => { r with errPc := s.core.pc, errSlot := slot }
/-- One member's region is undone for rerun A; `p` and `r` are the position and region of the member that met the error. -/
def joinRerun (p : Nat) (r : Region) (s0 : State) : State :=
  let s := behindCkpt p r s0
  match s.core.rgn.st with
  | .opened | .draining => (unwindTo thenRerunA s).mapRgn fun q => { q with outA := none, outB := none }
  | _ => s
/-- UNCORRECTABLE_ERROR in an open region starts the reruns of every member; in a rerun it is its outcome. -/
def execUncorrectableError (core : Nat) (site : ErrSite) (slot : Fin 8) (s : State) : Host.Outcome State Fault Refusal :=
  .next (onCore core (fun s =>
    match s.core.rgn.st with
    | .opened => onGang (joinRerun (gposOf s) s.core.rgn) (noteErr site slot.val s)
    | .rerunA =>
      if s.core.rgn.outA.isSome then s
      else { rerunEnd (.error s.core.rgn.steps site) (noteErr site slot.val s) with agenda := s.agenda }
    | .rerunB =>
      if s.core.rgn.outB.isSome then s
      else { rerunEnd (.error s.core.rgn.steps site) (noteErr site slot.val s) with agenda := s.agenda }
    | _ => s) s)

/-- A row of the comparison, in the order the members of a gang apply them (R395, R397). -/
inductive Row where
  | poison | retire | roll (c : Nat) | commit | none
deriving DecidableEq, Repr
/-- R395; a member that another's error stopped has no outcome of its own in that rerun, and one that met an error in one
rerun alone falls under the last row. -/
def outcomeRow (a b : Option Outcome1) : Row :=
  match a, b with
  | some (.error n x), some (.error m y) => if n = m ∧ x = y ∧ x.isSome then .poison else .retire
  | some (.ended k c n sg l), some (.ended k' c' n' sg' l') =>
    if k = k' ∧ c = c' ∧ n = n' ∧ l = l' ∧ sg = sg' then (if k then .commit else .roll c)
    else if l ≠ l' then .roll 8 else .retire
  | some _, some _ | some (.error ..), none | none, some (.error ..) => .retire
  | _, _ => .none
def rowRank : Row → Nat
  | .poison => 0
  | .retire => 1
  | .roll _ => 2
  | .commit => 3
  | .none => 4
/-- The first row of any member. -/
def gangRow (s : State) : Row :=
  (gangCores s).foldl (fun acc k =>
    let r := outcomeRow (coreOf s k).rgn.outA (coreOf s k).rgn.outB
    if rowRank r < rowRank acc then r else acc) .none
/-- Apply the gang's row on the member in focus. -/
def applyRow (g : Row) (s : State) : State :=
  let own := outcomeRow s.core.rgn.outA s.core.rgn.outB
  match g with
  | .poison => unwindTo (if own == .poison then thenPoison else 8) s
  | .retire => unwindTo (if own == .retire then thenRetire else thenAgain) s
  | .roll c => unwindTo c s
  | .commit => s.mapRgn fun r => { r with st := .draining }
  | .none => unwindTo 8 s
/-- A rerun is over when every member has its outcome, or one met an error. -/
def outcomesIn (l : List (Option Outcome1)) : Bool :=
  l.all (·.isSome) || l.any fun o => match o with
    | some (.error ..) => true
    | _ => false
/-- RERUN_OUTCOME: rerun A's outcome starts rerun B; rerun B's applies the row. -/
def execRerunOutcome (core : Nat) (s : State) : Host.Outcome State Fault Refusal :=
  .next (onCore core (fun s =>
    let cs := (gangCores s).map (coreOf s)
    match s.core.rgn.st with
    | .rerunA => if outcomesIn (cs.map (·.rgn.outA)) then onGang (unwindTo thenRerunB) s else s
    | .rerunB => if outcomesIn (cs.map (·.rgn.outB)) then
        let g := gangRow s
        onGang (applyRow g) s else s
    | _ => s) s)

end Sys2Proof.Machine
end

