-- ==== Sys2Proof/Machine/Launch.lean ====
section
/-! DEFINITION. Launches (R17 to R37, R442): the line monitor, the validation of a record with its tree, tables and
graphs, and acceptance. -/

namespace Sys2Proof.Machine

/-! ## Launch windows (R17, R20) -/

def lineAt (q k : Nat) : Nat := q * 4096 + k * 64
def vseqOf (d : Die) (q : Nat) : Nat := (Mem.get d.window (lineAt q (d.queues.get (Fin.ofNat 64 q)).head + 63)).toNat
def queueUpd (d : Die) (q : Nat) (f : LQueue → LQueue) : Die :=
  let i := Fin.ofNat 64 q
  { d with queues := d.queues.set i.val (f (d.queues.get i)) i.isLt }
/-- A line fires when its `VALID` is 1 and its queue has not fired it yet. -/
def fireIf (q tick : Nat) (d : Die) : Die :=
  if 128 ≤ vseqOf d q && !(d.queues.get (Fin.ofNat 64 q)).fired then
    queueUpd d q fun x => { x with fired := true, firedAt := tick }
  else d
/-- Lines that a write of the window's bytes `[lo, lo + n)` leaves with `VALID` 1 where it was 0 follow those set before, and
lines it clears are dropped (R22). -/
def noteValids (lo n : Nat) (old new : List Host.Cell) (l : List Nat) : List Nat :=
  let on (m : List Host.Cell) (x : Nat) : Bool := 128 ≤ (Mem.get m (64 * x + 63)).toNat
  let hit := (List.range ((lo + n) / 64 - lo / 64)).map (lo / 64 + ·)
  l.filter (on new) ++ hit.filter fun x => on new x && !on old x
/-- Lines fired in one tick go by queue number, others by the writes that set their `VALID` (R22). -/
def firesBefore (d : Die) (p q : Nat) : Bool :=
  let at_ (i : Nat) : Nat × Nat := let x := d.queues.get (Fin.ofNat 64 i); (x.firedAt, d.valids.idxOf (64 * i + x.head))
  if (at_ p).1 = (at_ q).1 then p < q else (at_ p).2 < (at_ q).2
/-- The queue the dispatcher takes next. -/
def nextQueue (d : Die) : Option Nat :=
  (List.range 64).foldl (fun acc q =>
    if !(d.queues.get (Fin.ofNat 64 q)).fired then acc
    else match acc with
      | none => some q
      | some p => if firesBefore d q p then some q else acc) none

/-! ## The RCB tree (R25 to R28) -/

/-- A pointer's bits [63:56] must be zero (R18). -/
def ptrBad (x : Nat) : Bool := 2 ^ 56 ≤ x
def rcbBytes (s : State) (a : Nat) : List Byte := homeBytesGet s a 128
def rOvr (b : List Byte) (i : Nat) : Bool := (dW b 0x20).testBit (32 + i)
/-- An RCB breaks R25 or R26 by itself. A field whose `OVR` bit is clear is ignored, whatever it holds (R27). -/
def rcbBad (b : List Byte) (a : Nat) (root : Bool) : Bool :=
  a % 128 != 0 || ptrBad a || !dZero b 0x48 56 || bitsOf (dW b 0x20) 63 40 != 0 || bitsOf (dW b 0x20) 39 38 != 0
    || (rOvr b 0 && bitsOf (dW b 0x20) 15 0 == 0) || dW b 0x10 % 64 != 0
    || [0, 8, 0x10].any (fun o => ptrBad (dW b o)) || (rOvr b 5 && ptrBad (dW b 0x18)) || (root && !rOvr b 5)
def minOpt (a : Option Nat) (b : Nat) : Option Nat := some ((a.map (min b)).getD b)
/-- Effective values of an RCB under its parent's (R27). -/
def rcbUnder (b : List Byte) (a : Nat) (p : Option Nat) (up : Rcb) : Rcb where
  addr := a
  parent := p
  cores := if rOvr b 0 then minOpt up.cores (bitsOf (dW b 0x20) 15 0) else up.cores
  steps := if rOvr b 1 then minOpt up.steps (dW b 0x28) else up.steps
  bytes := if rOvr b 2 then minOpt up.bytes (dW b 0x30) else up.bytes
  prio := if rOvr b 3 then bitsOf (dW b 0x20) 19 16 else up.prio
  fdom := if rOvr b 4 then bitsOf (dW b 0x20) 31 20 else up.fdom
  ktt := if rOvr b 5 then dW b 0x18 else up.ktt
  usedSteps := 0
  usedBytes := 0
  stopped := false
/-- Walk the tree from a work list of (address, parent, depth): at most 256 nodes, 8 levels, none reached twice. The
root's sibling field names no node of the tree. -/
def walkTree (s : State) (top : Rcb) : Nat → List (Nat × Option Nat × Nat) → List Rcb → Option (List Rcb)
  | _, [], acc => some acc
  | 0, _ :: _, _ => none
  | f + 1, (a, p, dep) :: r, acc =>
    let b := rcbBytes s a
    if rcbBad b a p.isNone || 8 < dep || 256 ≤ acc.length || acc.any fun x => x.addr == a then none
    else
      let up := match p.bind fun i => acc[i]? with
        | some q => q
        | none => top
      let me := acc.length
      let kid := if dW b 0 = 0 then [] else [(dW b 0, some me, dep + 1)]
      let sib := if dW b 8 = 0 || p.isNone then [] else [(dW b 8, p, dep)]
      walkTree s top f (kid ++ sib ++ r) (acc ++ [rcbUnder b a p up])

/-! ## Graphs (R31 to R35) -/

def graphSucc (s : State) (b : List Byte) : List Nat :=
  (List.range (nNsucc b)).map fun i => natOfBytes (homeBytesGet s (dW b 8 + 2 * i) 2)
/-- Pointers of a node keep bits [63:56] zero. -/
def nodePtrBad (b : List Byte) : Bool :=
  ptrBad (dW b 8) || ptrBad (dW b 0x10) || ptrBad (nK b 0) || (nKind b == 0 && ptrBad (nK b 3))
def edges (ns : List Node) : List Nat := ns.flatMap (·.succ)
/-- The edges form no cycle: take away the nodes no remaining edge names, as often as there are nodes. -/
def acyclic (ns : List Node) : Nat → List Nat → Bool
  | 0, left => left.isEmpty
  | f + 1, left =>
    let named := left.flatMap fun i => ((ns[i]?).map (·.succ)).getD []
    let stay := left.filter named.contains
    stay.isEmpty || (stay.length < left.length && acyclic ns f stay)
/-- The graph an RCB owns, its node indices not yet shifted. -/
def readGraph (s : State) (ri : Nat) (g : Nat) : Option (List Node) :=
  let h := homeBytesGet s g 64
  if dW h 0 % 64 != 0 || ptrBad (dW h 0) || bitsOf (dW h 8) 63 16 != 0 || !dZero h 0x10 48 then none
  else
    let n := bitsOf (dW h 8) 15 0
    let bs := (List.range n).map fun i => homeBytesGet s (dW h 0 + 64 * i) 64
    let ns := ((List.range n).zip bs).map fun x => nodeOf x.2 ri (dW h 0 + 64 * x.1) (graphSucc s x.2)
    let es := edges ns
    if bs.any (fun b => nodeBad b || nodePtrBad b) || es.any (fun i => n ≤ i)
      || ((List.range n).zip ns).any (fun x => x.2.work != (es.filter (· == x.1)).length)
      || !acyclic ns n (List.range n) then none
    else some ns
def shiftNode (k : Nat) (n : Node) : Node := { n with succ := n.succ.map (· + k) }
/-- Every graph of the tree, one after the other. -/
def readGraphs (s : State) : List (Nat × Rcb) → List Node → Option (List Node)
  | [], acc => some acc
  | (i, r) :: t, acc =>
    let g := dW (rcbBytes s r.addr) 0x10
    if g = 0 then readGraphs s t acc
    else match readGraph s i g with
      | none => none
      | some ns => readGraphs s t (acc ++ ns.map (shiftNode acc.length))

/-! ## The record (R18, R19, R23) -/

def lCtrl (b : List Byte) : Nat := dW b 0x18
def lPrio (b : List Byte) : Nat := bitsOf (lCtrl b) 3 0
def lFdom (b : List Byte) : Nat := bitsOf (lCtrl b) 19 8
def lDet (b : List Byte) : Bool := (lCtrl b).testBit 22
def lGsize (b : List Byte) : Nat := bitsOf (lCtrl b) 26 23
def lGskew (b : List Byte) : Nat := bitsOf (lCtrl b) 29 27
def lCmask (b : List Byte) : Nat := bitsOf (lCtrl b) 55 48
/-- Device memory of the package, 2,048 GB (R1, R4). -/
def deviceBytes : Nat := 2048 * 10 ^ 9
def cwBad (b : List Byte) : Bool := dW b 0x10 % 8 != 0 || deviceBytes < dW b 0x10 + 8
/-- The record breaks R18 or R19, asks for a feature that is disabled (R442), or for deterministic mode before Belfry
alignment, which two beacons give (R472, R483). -/
def launchBad (s : State) (b : List Byte) : Bool :=
  let c := lCtrl b
  cwBad b || !dZero b 0x20 31 || ptrBad (dW b 8) || bitsOf c 63 56 != 0 || lCmask b == 0 || bitsOf c 47 30 != 0
    || bitsOf c 21 20 != 0 || bitsOf c 7 4 != 0 || (lGsize b == 0 && lGskew b != 0)
    || (lGsize b != 0 && !s.feat.getLsbD 3) || (lDet b && (!s.feat.getLsbD 4 || s.beacons < 2))
def rootAbove (b : List Byte) : Rcb := ⟨0, none, none, none, none, lPrio b, lFdom b, 0, 0, 0, false⟩
/-- A valid record's launch, or none. -/
def readLaunch (s : State) (die : Nat) (b : List Byte) : Option Launch :=
  if launchBad s b then none
  else
    match walkTree s (rootAbove b) 257 [(dW b 0, none, 1)] [] with
    | none => none
    | some rs =>
      if rs.any fun r => !kttOk s r.ktt then none
      else
        match readGraphs s ((List.range rs.length).zip rs) [] with
        | none => none
        | some ns => some {
            id := s.launchNext, die := Fin.ofNat 4 die, cw := dW b 0x10, args := BitVec.ofNat 64 (dW b 8), prio := lPrio b,
            fdom := lFdom b, cmask := BitVec.ofNat 8 (lCmask b), gsize := lGsize b, gskew := lGskew b, det := lDet b,
            rcbs := rs, nodes := ns, done := 0, fails := 0, total := ns.length, retired := false }

/-- A range whose gang exceeds its core budget fails, tested at acceptance (R43). -/
def acceptTests (x : Launch) (s : State) : State :=
  (List.range x.nodes.length).foldl (fun s i => match x.nodes[i]? with
    | some n =>
      let small := match (rcbOf x n).bind (·.cores) with
        | some b => b < gangSize x
        | none => false
      if n.kind = 0 && small then nodeUpd s x.id i fun y => { y with faulted := some 0x11 } else s
    | none => s) s
/-- Acceptance: the launch runs, its sources become ready; one with no node retires at once (R36, R48). -/
def acceptLaunch (x : Launch) (s : State) : State :=
  let s1 := { s with launches := s.launches ++ [x], launchNext := s.launchNext + 1 }
  if x.total = 0 then
    let s2 := writeUsage x s1
    let w := homeWord s2 x.cw
    launchUpd (homeWordPut x.cw (cwMake (launchStatus (cwStatus w) none true) (cwFailed w) (cwDone w)) s2) x.id
      fun y => { y with retired := true }
  else
    (List.range x.nodes.length).foldl (fun s i => match nodeFind s x.id i with
      | some n => if n.st == .blocked && n.work == 0 && n.faulted.isNone then readyNode x.id i s else s
      | none => s) (acceptTests x s1)
/-- Refusal (R23): a count of 1 and 0x8011 in the word, or a record when the word itself cannot be written. -/
def refuseLaunch (die q k : Nat) (b : List Byte) (s : State) : State :=
  if cwBad b then record die (dispSrc die) 0x87 0 (BitVec.ofNat 64 q) (BitVec.ofNat 64 k) s
  else
    let a := dW b 0x10
    let w := homeWord s a
    homeWordPut a (cwMake 0x8011 (addSat16 (cwFailed w) 1) (cwDone w)) s

/-- LAUNCH_DISPATCH: the dispatcher of a die takes a fired line (R20 to R23). -/
def execLaunchDispatch (die : Fin 4) (s : State) : Host.Outcome State Fault Refusal :=
  let d := dieGet s die.val
  match nextQueue d with
  | none => .next s
  | some q =>
    let x := d.queues.get (Fin.ofNat 64 q)
    let k := x.head
    let b := Mem.getBytes d.window (lineAt q k) 64
    let clear (f : LQueue → LQueue) (d : Die) : Die :=
      fireIf q s.tick (queueUpd { d with
        window := Mem.put d.window (lineAt q k + 63) 0, valids := d.valids.filter (· != 64 * q + k) } q fun x => f { x with fired := false })
    if vseqOf d q % 128 = x.expected then
      let s1 := dieUpd s die.val (clear fun x => { x with head := (x.head + 1) % 64, expected := (x.expected + 1) % 128 })
      match readLaunch s1 die.val b with
      | some l => .next (acceptLaunch l s1)
      | none => .next (refuseLaunch die.val q k b s1)
    else
      .next (record die.val (dispSrc die.val) 0x80 0 (BitVec.ofNat 64 q) (BitVec.ofNat 64 k)
        (dieUpd s die.val (clear id)))

end Sys2Proof.Machine
end

