-- ==== Sys2Proof/Machine/Slot.lean ====
section
/-! DEFINITION. Save slots (R405, R419 to R421): the image of a saved task in home memory, and what is read back. -/

namespace Sys2Proof.Machine

/-- The home address of slot `n` of a die (R405). -/
def slotAddr (s : State) (die n : Nat) : Nat := ((dieGet s die).dsave.extractLsb' 20 36).toNat * 2 ^ 20 + n * 2 ^ 20
def slotCount (s : State) (die : Nat) : Nat := ((dieGet s die).dsave.extractLsb' 0 12).toNat
/-- The lowest free slot of a die (R417). -/
def freeSlotOf (s : State) (die : Nat) : Option Nat :=
  (List.range (slotCount s die)).find? fun n => !(dieGet s die).slots.contains n

def b8 (n : Nat) : List Byte := toBytes 8 (BitVec.ofNat 64 n)
def w8 (w : Word) : List Byte := toBytes 8 w

/-- A trap record's 32 bytes (R431). -/
def recBytes (r : Rec) : List Byte :=
  w8 r.tick ++ toBytes 4 r.seq ++ toBytes 2 (BitVec.ofNat 16 r.src) ++ [r.cause, r.slot] ++ w8 r.pc ++ w8 r.val

/-- Kind and index of a snapshot entry (R420). Kinds the table gives no index for are numbered by the model: pieces of
%fmtt from 0x40, loop ranges from 0x60, a ring's clear from 0x10. -/
def snapKind : FDest → Nat × Nat
  | .s i => (0, i.val)
  | .v i => (1, i.val)
  | .p i => (2, i.val)
  | .latchOnly => (3, 0)
  | .ringPush r => (4, r.val)
  | .ringClear r => (4, 0x10 + r.val)
  | .stream k _ => (5, k.val)
  | .sreg n p => (6, if n = 0x20 then 0x40 + p else n)
  | .lec _ => (6, 0x12)
  | .lrange k => (6, 0x60 + k.val)
  | .stash _ | .qact _ | .gclr | .flagsOnly => (7, 0)
def snapBytes (f : Flight) : List Byte :=
  let k := snapKind f.dest
  toBytes 128 f.val ++
    b8 (k.2 + k.1 * 2 ^ 8 + f.slot.val * 2 ^ 12 + f.left * 2 ^ 16 + f.flags.toNat * 2 ^ 24) ++ List.replicate 8 0

/-- The task's state as the slot's header has it (R421). -/
def stateCode : TState → Nat
  | .ready => 1
  | .running => 2
  | .waiting => 3
  | .migrating => 4
  | .stopped => 5
  | .ended => 0
def sstat (t : Task) : Word := BitVec.ofNat 64 (stateCode t.st + t.cause.toNat * 256)
def ringBytes (r : Ring) : List Byte :=
  r.entries.toList.flatMap (toBytes 4) ++ toBytes 4 (BitVec.ofNat 32 r.fill) ++ toBytes 4 (BitVec.ofNat 32 r.next.val)
def rowsBytes (m : Vector (Vector (BitVec 32) 32) 16) : List Byte := m.toList.flatMap fun r => r.toList.flatMap (toBytes 4)
def qDescBytes (d : QDesc) : List Byte :=
  w8 d.base ++ d.ext.toList.flatMap (toBytes 4) ++ d.stride.toList.flatMap w8 ++ w8 d.ctl
/-- A stream's part of a slot: descriptor, position, buffered count and elements. -/
def streamParts (base : Nat) (q : QState) : List (Nat × List Byte) :=
  let els := if qOut q.desc then q.outq.map (fun e => e.data.getD 0) else q.inq.map (·.data)
  [(base, qDescBytes q.desc), (base + 64, b8 q.pos), (base + 72, b8 els.length), (base + 256, els.flatMap (toBytes 128))]
def ekindCode : EKind → Nat
  | .sscan => 0
  | .cpy => 1
  | .cpyr => 2
  | .mcast => 3
  | .gath => 4
  | .scat => 5
  | .coll => 6
  | .gnode => 7
/-- The recorded tokens, as bits. -/
def tokMask (l : List PendOp) : Nat :=
  ((List.range 8).filter fun k => l.any fun p => p.tok.val == k).foldl (fun a k => a + 2 ^ k) 0
def cmdEntry (s : State) (p : PendOp) : List Byte :=
  match p.kind with
  | .engine id => match cmdFind s id with
    | some c => b8 (ekindCode c.kind + p.tok.val * 256) ++ w8 c.ea
    | none => b8 (p.tok.val * 256) ++ w8 p.ea
  | _ => b8 (p.tok.val * 256) ++ w8 p.ea
def roundUp4K (n : Nat) : Nat := (n + 4095) / 4096 * 4096

/-- The slot's image: parts at their offsets (R419 to R421). -/
def slotImage (s : State) (t : Task) (v : Saved) (pc : Word) (next : Option Word) : List (Nat × List Byte) :=
  let a := v.a
  let sp := v.sp
  let m := a.mat
  [(0x00, w8 pc), (0x08, b8 sp.done.toNat), (0x10, w8 (next.getD 0)), (0x18, w8 (sstat t)), (0x20, b8 (tokMask v.pend)),
   (0x28, b8 (roundUp4K v.wmark)), (0x30, b8 v.flights.length), (0x38, b8 (srcNum v.core)), (0x40, b8 v.sinceYield),
   (0x48, b8 v.claim), (0x50, List.replicate 48 0),
   (0x100, a.s.toList.flatMap w8), (0x300, (List.finRange 16).flatMap fun i => toBytes 4 (getP a i)), (0x340, a.lc.toList.flatMap fun x => b8 x.toNat),
   (0x360, (List.finRange 4).flatMap fun k => w8 (a.lstart.get k) ++ w8 (a.lend.get k)),
   (0x3A0, b8 a.vrb.toNat ++ b8 a.prb.toNat ++ w8 (lecWord a) ++ b8 a.fflags.toNat ++ b8 sp.rbcause.toNat
     ++ b8 sp.latcls.toNat ++ b8 sp.ssthr.toNat ++ b8 sp.cause.toNat ++ w8 sp.fpc ++ b8 sp.fslot.toNat ++ w8 sp.fval
     ++ b8 sp.done.toNat),
   (0x400, toBytes 128 sp.fmtt), (0x480, toBytes 64 sp.wsig), (0x4C0, List.replicate 64 0),
   (0x900, (List.finRange 16).flatMap fun r => ringBytes (a.rings.get r) ++ List.replicate 56 0),
   (0x1100, a.v.toList.flatMap (toBytes 128)),
   (0x5100, m.banks.toList.flatMap rowsBytes ++ rowsBytes m.acc ++ m.aEdge.toList.flatMap (toBytes 32) ++ toBytes 128 m.bEdge
     ++ m.sa.toList ++ m.sb.toList ++ [BitVec.ofNat 8 m.beat.val, if m.opn then 1 else 0]),
   (0xC900, v.flights.flatMap snapBytes),
   (0xED00, v.maps.flatMap fun x => b8 x.off ++ b8 x.va), (0xED80, v.pend.flatMap (cmdEntry s)),
   (0x80000, Mem.getBytes v.spad 0 (roundUp4K v.wmark))]
  ++ (if v.vol then [] else [(0x500, a.y.toList.flatMap (toBytes 128))])
  ++ (List.finRange 8).flatMap fun k => streamParts (0x8100 + 2304 * k.val) (a.streams.get k)
def slotWrite (base : Nat) (l : List (Nat × List Byte)) (s : State) : State :=
  l.foldl (fun s x => homeBytesPut (base + x.1) x.2 s) s
/-- Bring `SSTAT` of every slot of the package up to date. -/
def syncSlots (s : State) : State :=
  s.tasks.foldl (fun s t => match t.slot with
    | some n => homeWordPut (slotAddr s (taskDom s t).1 n + 0x18) (sstat t) s
    | none => s) s

/-! ## Free values at a start or a resume (R8, R40, R209, R417) -/

/-- `n` free bytes of a core's scratchpad from offset `lo`. -/
def freeSpad (id lo : Nat) (s : State) : State :=
  let n := spadBytes - lo
  let base := spadAddr id lo
  { s with
    spad := Mem.paste (Mem.drop s.spad base n) base ((List.range n).map fun i => (i, Config.freeBits 8 (s.fresh + i)))
    fresh := s.fresh + n }
def freeLatches (f : Nat) : Vector Vec 8 := vecOf 8 fun i => Config.freeBits 1024 (f + i.val)
/-- Numbers of free values a start takes, and the shadowed state at a start (R40, R142, R324). -/
def startFree : Nat := 4096
def startArch (f : Nat) : Arch :=
  { Arch.reset with
    s := vecOf 64 fun i => Config.freeBits 64 (f + i.val)
    v := vecOf 128 fun i => Config.freeBits 1024 (f + 64 + i.val)
    p := vecOf 16 fun i => Config.freeBits 32 (f + 192 + i.val)
    lstart := vecOf 4 fun i => Config.freeBits 64 (f + 208 + i.val)
    lend := vecOf 4 fun i => Config.freeBits 64 (f + 212 + i.val)
    y := freeLatches (f + 216)
    mat := {
      aEdge := vecOf 16 fun i => Config.freeBits 256 (f + 224 + i.val)
      bEdge := Config.freeBits 1024 (f + 240)
      sa := vecOf 16 fun i => Config.freeBits 8 (f + 241 + i.val)
      sb := vecOf 32 fun i => Config.freeBits 8 (f + 257 + i.val)
      acc := vecOf 16 fun i => vecOf 32 fun j => Config.freeBits 32 (f + 289 + 32 * i.val + j.val)
      beat := 0
      opn := false
      banks := vecOf 4 fun b => vecOf 16 fun i => vecOf 32 fun j =>
        Config.freeBits 32 (f + 801 + 512 * b.val + 32 * i.val + j.val) }
    rings := vecOf 16 fun r => {
      entries := vecOf 16 fun i => Config.freeBits 32 (f + 2849 + 18 * r.val + i.val)
      fill := (Config.freeBits 5 (f + 2865 + 18 * r.val)).toNat % 17
      next := (Config.freeBits 4 (f + 2866 + 18 * r.val)).toFin } }
/-- %cause and its companions, and %fmtt, are undefined at a start; %ssthr is 4 (R40, R146, R347). -/
def startSpecial (f : Nat) : Special :=
  { Special.reset with
    cause := Config.freeBits 8 (f + 3200)
    fpc := Config.freeBits 64 (f + 3201)
    fslot := Config.freeBits 4 (f + 3202)
    fval := Config.freeBits 64 (f + 3203)
    fmtt := mapElems 64 fun p => Config.freeBits 64 (f + 3204 + p) }

end Sys2Proof.Machine
end

