-- ==== Sys2Proof/Machine/Sched.lean ====
section
/-! DEFINITION. Scheduling (R30, R38 to R43, R408 to R421, R439, R447, R487): candidates and the arbiter, binding, yields,
pre-emption, saving and restoring. -/

namespace Sys2Proof.Machine

/-! ## Candidates (R30, R410, R418) -/

/-- A Ready task or gang the arbiter may bind: members that were saved, or the next ones of a range, from `j`. -/
structure Cand where
  rank : Nat
  tick : Nat
  launch : Nat
  node : Nat
  j : Nat
  members : List Nat
  size : Nat
deriving DecidableEq, Repr

def slceOf (d : Die) : Nat := (d.dcfg.extractLsb' 16 8).toNat
def agshOf (d : Die) : Nat := (d.dcfg.extractLsb' 8 8).toNat
/-- The rank of a Ready task (R410). -/
def rankOf (s : State) (die p since : Nat) : Nat :=
  if 15 ≤ p then 15 else min (p + (s.tick - since) / 2 ^ agshOf (dieGet s die)) 14
def nodePrio (l : Launch) (n : Node) : Nat := ((rcbOf l n).map (·.prio)).getD 0

/-- A core that holds no task and can take one. -/
def coreEmpty (s : State) (id : Nat) : Bool :=
  let c := coreOf s id
  validCore id && c.task.isNone && !c.disabled
/-- An empty core that is kept for no one. -/
def coreFree (s : State) (id : Nat) : Bool := coreEmpty s id && (coreOf s id).promise.isNone
/-- What the arbiter has chosen and not yet bound, each once. -/
def promises (s : State) : List Promise := ((coresOf s).filterMap (·.promise)).eraseDups
/-- Tasks placed now, but for those about to leave. -/
def placed (s : State) (leaving : List Nat) : List Task := s.tasks.filter fun t => t.core.isSome && !leaving.contains t.id
/-- R30: room under every effective `BCORES` from an RCB to the root, chosen tasks counted as placed. -/
def roomFor (s : State) (l : Launch) (r size : Nat) (leaving : List Nat) : Bool :=
  (rcbAncestors l 8 r).all fun a =>
    match (l.rcbs[a]?).bind (·.cores) with
    | none => true
    | some b =>
      let under (node : Nat) : Bool := match l.nodes[node]? with
        | some n => inSubtree l a n.rcb
        | none => false
      let now := ((placed s leaving).filter fun t => t.launch == l.id && under t.node).length
      let soon := ((promises s).filter fun p => p.launch == l.id && under p.node).foldl (fun n p => n + p.cores.length) 0
      now + soon + size ≤ b
/-- Nothing of a node may start: its domain or subtree is stopped, or the node has failed or is held. -/
def nodeShut (s : State) (l : Launch) (n : Node) : Bool :=
  domStopped s l.die.val (nodeDom l n) || n.faulted.isSome || n.heldReady || ((rcbOf l n).map (·.stopped)).getD false

/-- Tasks of a range that are chosen and not yet bound. -/
def promisedOf (s : State) (l i : Nat) : Nat :=
  ((promises s).filter fun p => p.launch == l && p.node == i && p.members.isEmpty).foldl (fun n p => n + p.cores.length) 0
/-- The next tasks of a ready range, in ascending j (R39, R42). -/
def freshCands (s : State) : List Cand :=
  s.launches.flatMap fun l => if l.retired then [] else
    (List.range l.nodes.length).filterMap fun i =>
      match l.nodes[i]? with
      | none => none
      | some n =>
        let j := n.bound + promisedOf s l.id i
        if n.kind = 0 && (n.st == .ready || n.st == .running) && j < rangeTasks n && !nodeShut s l n then
          some ⟨rankOf s l.die.val (nodePrio l n) n.readyTick, n.readyTick, l.id, i, j, [], gangSize l⟩
        else none
/-- The members of a task's gang that have not ended. -/
def liveGang (s : State) (t : Task) : List Task := s.tasks.filter fun x => x.gang == t.gang && x.st != .ended
/-- Saved tasks, and gangs all of whose members that have not ended are Ready; each once, and none that is chosen already. -/
def savedCands (s : State) : List Cand :=
  s.tasks.filterMap fun t =>
    let ms := liveGang s t
    if t.st != .ready || (ms.head?.map (·.id)) != some t.id || (promises s).any (fun p => p.members.contains t.id) then none
    else
      match launchFind s t.launch, taskNode s t with
      | some l, some n =>
        if ms.all (fun x => x.st == .ready && x.saved.isSome) && !domStopped s l.die.val (nodeDom l n) then
          let tick := ms.foldl (fun a x => max a x.readyTick) 0
          some ⟨rankOf s l.die.val (nodePrio l n) tick, tick, l.id, t.node, t.j, ms.map (·.id), ms.length⟩
        else none
      | _, _ => none

/-- The first of two candidates (R410): rank, then tick, then launch, then j. -/
def candBefore (a b : Cand) : Bool :=
  if a.rank != b.rank then b.rank < a.rank
  else if a.tick != b.tick then a.tick < b.tick
  else if a.launch != b.launch then a.launch < b.launch
  else a.j < b.j
/-- The cores a saved gang must return to (R41, R418): its own after a voluntary switch, or when they are free. -/
def ownCores (s : State) (c : Cand) : List Nat := c.members.filterMap fun m => ((taskFind s m).bind (·.saved)).map (·.core)
def mustReturn (s : State) (c : Cand) : Bool :=
  c.members.any fun m => (((taskFind s m).bind (·.saved)).map fun v => v.vol && !(coreOf s v.core).disabled).getD false
def taskPrio (s : State) (t : Task) : Nat := ((taskRcb s t).map (·.prio)).getD 0
/-- The gang on a core stands at a yield point, and R411 would switch it out for a candidate of rank `rank` (R409, R410). -/
def givesWay (s : State) (rank id : Nat) : Bool :=
  match (coreOf s id).task.bind (taskFind s) with
  | none => false
  | some t =>
    let ms := liveGang s t
    let cs := (ms.filterMap (·.core)).map (coreOf s)
    let lead := ((taskFind s t.gang).bind (·.core)).map (coreOf s)
    cs.any (·.wait.isSome) && ms.all (·.stopReq.isNone) && cs.all (·.promise.isNone) && (taskPrio s t < rank || (match lead with
      | some c => decide (c.slice < c.claim)
      | none => false))
/-- The cores a candidate takes when core `id` is offered, `free` being those of its cluster that count as free, ascending: the
core offered, other free ones, then those whose tasks give way. A saved gang returns to its own cores when they are free, and
after a voluntary switch to no others (R41, R410, R418). -/
def coresFor (s : State) (c : Cand) (id : Nat) (free : List Nat) : Option (List Nat) :=
  let own := ownCores s c
  let cl := clusterOf id
  let more := if c.size = 1 then [] else (clusterCores cl).filter fun k => !free.contains k && givesWay s c.rank k
  let all := id :: ((free ++ more).filter (· != id))
  if !c.members.isEmpty && (mustReturn s c || own.all free.contains) then
    (if own.contains id && own.all all.contains then some own else none)
  else if !c.members.isEmpty && (own.any fun o => clusterOf o != cl) then none
  else if c.size ≤ all.length then some ((clusterCores cl).filter (all.take c.size).contains)
  else none
/-- The members of the gangs that run on some cores. -/
def occupants (s : State) (cores : List Nat) : List Nat :=
  (((cores.filterMap fun k => (coreOf s k).task).filterMap (taskFind s)).flatMap (gangOf s)).eraseDups
/-- The cores a candidate would take, when it may run on core `id`: its launch names the cluster, its budget has room with
those that leave not counted, slots are free. -/
def candFits (s : State) (c : Cand) (id : Nat) (free : List Nat) : Option (List Nat) :=
  match launchFind s c.launch, coresFor s c id free with
  | some l, some cores =>
    let kept := ((promises s).filter fun p => p.members.isEmpty && ((launchFind s p.launch).map (·.die)) == some l.die).foldl
      (fun n p => n + p.cores.length) 0
    if l.die.val == dieOf id && l.cmask.getLsbD (clusterOf id % 8) && (match l.nodes[c.node]? with
        | some n => roomFor s l n.rcb c.size (occupants s cores)
        | none => false)
      && (!c.members.isEmpty || (dieGet s l.die.val).slots.length + kept + c.size ≤ slotCount s l.die.val)
    then some cores else none
  | _, _ => none
/-- The first candidate of core `id`, with the cores it takes. -/
def firstCand (s : State) (id : Nat) (free : List Nat) : Option (Cand × List Nat) :=
  (freshCands s ++ savedCands s).foldl (fun acc c => match candFits s c id free, acc with
    | none, _ => acc
    | some k, none => some (c, k)
    | some k, some b => if candBefore c b.1 then some (c, k) else some b) none
def freeCores (s : State) (cl : Nat) : List Nat := (clusterCores cl).filter (coreFree s)
/-- The first candidate of a free core (R411). -/
def candOfFree (s : State) (id : Nat) : Option (Cand × List Nat) := firstCand s id (freeCores s (clusterOf id))

/-! ## Yield points (R409 to R412, R487) -/

/-- The first candidate at a yield point of task `t`: its gang's cores count as free. -/
def candAtYield (s : State) (t : Task) (id : Nat) : Option (Cand × List Nat) :=
  let mine := (s.tasks.filter fun x => x.gang == t.gang).filterMap (·.core)
  firstCand s id ((clusterCores (clusterOf id)).filter fun k => coreFree s k || mine.contains k)
/-- Keep cores for a candidate until their tasks have left (R411, R413). -/
def promiseTo (c : Cand) (cores : List Nat) (s : State) : State :=
  let p : Promise := ⟨c.launch, c.node, c.j, c.members, cores⟩
  cores.foldl (fun s k => onCore k (fun s => s.mapCore fun x => { x with promise := some p }) s) s
/-- Switch out the gangs on a candidate's cores, task `t`'s by `why` and others as at the wait they stand at. -/
def switchFor (t : Task) (why : SaveWhy) (c : Cand) (cores : List Nat) (s : State) : State :=
  let mine := gangOf s t
  let s1 := (occupants s cores).foldl (fun s g => stopTask g (if mine.contains g then why else .wait) s) s
  promiseTo c cores s1
/-- R411 at a yield point of the core in focus, with claim `r`; a gang is decided on its lead. -/
def yieldPoint (why : SaveWhy) (r : Nat) (s : State) : State :=
  match curTask s with
  | none => s
  | some t =>
    if t.gpos != 0 || t.stopReq.isSome then s
    else
      let left := s.core.slice
      match candAtYield s t s.core.id with
      | some x => if taskPrio s t < x.1.rank || left < r then switchFor t why x.1 x.2 s else s
      | none => if left < r then s.mapCore fun c => { c with slice := 2 ^ slceOf (dieGet s (dieOf s.core.id)) } else s
/-- Charges are applied at a yield bundle and at the end of a task (R29). -/
def chargeNow (s : State) : State :=
  match s.core.task with
  | none => s
  | some t => chargeTask t s.core.chgSteps 0 (s.mapCore fun c => { c with chgSteps := 0 })

/-! ## Starting a task (R38, R40, R422, R447) -/

/-- The dispatcher writes %ktt and the copy when the core holds another table; instruction copies go with it. -/
def loadKtt (ktt : Nat) (s : State) : State :=
  if kttBase s.core.kttReg = ktt && s.core.kttReg.getLsbD 8 then s
  else
    let es := kttLoad s ktt
    s.mapCore fun c => { c with
      kttReg := BitVec.ofNat 64 (ktt / 4096 * 4096 + 0x100 + (es.length - 1)), ktt := es, icopies := [], loopBuf := [] }
/-- The image that holds an entry point; code that no image names has latency class 6. -/
def imageOf (s : State) (entry : Nat) : Image :=
  (s.images.find? fun i => i.lo ≤ entry && entry < i.hi).getD ⟨0, 0, 6, 0⟩
/-- The lowest virtual address of a node (R40). -/
def nodeVirt (es : List KEntry) (n : Node) : Nat :=
  if n.gnode.isSome then 0
  else
    let l := (es.filter fun e => e.hkind == 0 && e.pbase ≤ n.addr && n.addr < e.pbase + 2 ^ e.lsz).map fun e =>
      e.vbase + (n.addr - e.pbase)
    match l with
    | [] => 0
    | x :: r => r.foldl min x
/-- The core in focus starts task `t` of node `n`. -/
def startTask (t : Task) (l : Launch) (n : Node) (s : State) : State :=
  let s1 := loadKtt (nodeKtt l n) s
  let f := s1.fresh
  let s2 := freeSpad s1.core.id 0 { s1 with fresh := f + startFree }
  let arg : Word := if n.k.get 3 = 0 then l.args else n.k.get 3
  let a := startArch f
  let a2 := setS (setS a 1 arg) 2 (BitVec.ofNat 64 (nodeVirt s2.core.ktt n))
  let sp : Special := { startSpecial f with
    tile := tileOf n t.j, gpos := BitVec.ofNat 4 t.gpos, latcls := (imageOf s2 (nodeK n 0)).lat }
  let s3 := s2.mapCore fun c => { c with
    task := some t.id, a := a2, sp := sp, ny := Vector.replicate 8 0, feed := [], y0 := Vector.replicate 8 0, maps := [],
    flights := [], pend := [], errs := [], rgn := Region.reset, pc := n.k.get 0, next := none, chain := none,
    landDue := false, stall := none, held := false, wait := none, tsLate := none, decided := [], halting := false,
    commitDue := false, claim := 65536, sinceYield := 0,
    slice := 2 ^ slceOf (dieGet s2 l.die.val), chgSteps := 0, wmark := 0, spin := none }
  let full : Bool := 256 ≤ popcount n.acq
  (acquireSig n.acq full .package s3).mapSp fun p => { p with wsig := n.acq }

/-! ## TASK_BIND (R408, R411, R413, R417) -/

/-- The lowest free slots of a die, taken. -/
def takeSlots (die : Nat) : Nat → State → List Nat × State
  | 0, s => ([], s)
  | k + 1, s =>
    match freeSlotOf s die with
    | none => ([], s)
    | some n =>
      let r := takeSlots die k (dieUpd s die fun d => { d with slots := d.slots ++ [n] })
      (n :: r.1, r.2)
/-- Bind a gang of a range's next tasks to cores in ascending %coreid. -/
def bindFresh (c : Cand) (l : Launch) (n : Node) (cores : List Nat) (s : State) : State :=
  let sl := takeSlots l.die.val c.size s
  let lead := sl.2.taskNext
  let mk (g : Nat) : Task := {
    id := lead + g, launch := l.id, node := c.node, j := c.j + g, st := .running, core := cores[g]?, readyTick := c.tick,
    slot := sl.1[g]?, saved := none, wait := none, gang := lead, gsize := c.size, gpos := g, cause := 0, domStop := false,
    stepping := false, mig := none, stopReq := none, args := 0 }
  let ts := (List.range c.size).map mk
  let s1 : State := { sl.2 with tasks := sl.2.tasks ++ ts, taskNext := lead + c.size }
  let s2 := nodeUpd s1 l.id c.node fun x => { x with st := .running, bound := x.bound + c.size }
  ts.foldl (fun s t => match t.core with
    | some k => onCore k (startTask t l n) s
    | none => s) s2
/-- Bind saved tasks; each is restored before it issues. -/
def bindSaved (c : Cand) (cores : List Nat) (s : State) : State :=
  (c.members.zip cores).foldl (fun s x =>
    let s1 := taskUpd s x.1 fun t => { t with st := .running, core := some x.2, mig := none, domStop := false }
    let s2 := onCore x.2 (fun s => s.mapCore fun k => { k with task := some x.1, slice := 2 ^ slceOf (dieGet s (dieOf x.2)) }) s1
    { s2 with agenda := s2.agenda ++ [.event (.taskRestore x.2 x.1)] }) s
/-- An image's required features against %feat as it now stands (R447). -/
def imageRefused (s : State) (n : Node) : Bool :=
  (imageOf s (nodeK n 0)).feat &&& ~~~(s.feat.setWidth 64) != 0
/-- Bind a candidate to cores that are empty. -/
def bindCand (c : Cand) (cores : List Nat) (s : State) : State :=
  match launchFind s c.launch with
  | some l =>
    match l.nodes[c.node]? with
    | none => s
    | some n =>
      if !c.members.isEmpty then syncSlots (bindSaved c cores s)
      else if imageRefused s n then nodeUpd s l.id c.node fun x => { x with faulted := some 0x11 }
      else syncSlots (bindFresh c l n cores s)
  | none => s
/-- A promise ends: it has been kept, or cannot be. -/
def dropPromise (p : Promise) (s : State) : State :=
  p.cores.foldl (fun s k => onCore k (fun s => s.mapCore fun x => if x.promise == some p then { x with promise := none } else x) s) s
/-- The candidate a promise was made to, while it may still start. -/
def promiseCand (s : State) (p : Promise) : Option Cand :=
  match launchFind s p.launch with
  | none => none
  | some l => match l.nodes[p.node]? with
    | none => none
    | some n =>
      let tick := match p.members with
        | [] => n.readyTick
        | m :: _ => ((taskFind s m).map (·.readyTick)).getD 0
      let c : Cand := ⟨0, tick, p.launch, p.node, p.j, p.members, p.cores.length⟩
      let ok := if p.members.isEmpty then !nodeOver n && !nodeShut s l n
        else p.members.all fun m => match taskFind s m with
          | some x => x.st == .ready && x.saved.isSome
          | none => false
      if !l.retired && ok && p.cores.all (fun k => !(coreOf s k).disabled) then some c else none
/-- TASK_BIND: a free core takes its first candidate, and one kept for a task or gang that one, when all its cores are empty. -/
def execTaskBind (core : Nat) (s : State) : Host.Outcome State Fault Refusal :=
  .next (match (coreOf s core).promise with
    | some p => match promiseCand s p with
      | none => dropPromise p s
      | some c => if p.cores.all (coreEmpty s) then bindCand c p.cores (dropPromise p s) else s
    | none =>
      if coreFree s core then
        match candOfFree s core with
        | some x =>
          if x.2.all (coreEmpty s) then bindCand x.1 x.2 s
          else promiseTo x.1 x.2 ((occupants s x.2).foldl (fun s g => stopTask g .wait s) s)
        | none => s
      else s)

/-! ## TASK_SAVE (R46, R390, R391, R414 to R421) -/

/-- Step 4 of R414: what must complete first. A command the stopped domain keeps from starting does not count. -/
def touchPending (s : State) : Bool :=
  s.cmds.any fun c => !cmdDone c && !c.held && cmdTouches c s.core.id && (c.started || !cmdStopped s c)
/-- A bundle is in progress: work of its slots or its end is left. -/
def midBundle (s : State) : Bool := s.agenda.any fun w => match w with
  | .event _ => false
  | _ => true
/-- The core in focus can be saved: between bundles, with no region open and step 3's operations complete. -/
def canSave (s : State) : Bool :=
  !midBundle s && s.core.rgn.st == .closed && s.core.pend.all isEngine && !touchPending s
/-- The state a save leaves its task in, unless its domain has stopped (R408): a fault's or domain stop's task is Ready when
the domain was resumed before it was saved. -/
def saveState : SaveWhy → TState
  | .yield | .preempt | .overrun | .fault _ | .domain => .ready
  | .wait => .waiting
  | .page => .migrating
  | .budget => .ended
  | .debug | .step _ => .stopped
def voluntary : SaveWhy → Bool
  | .yield | .wait => true
  | _ => false
/-- The cause of a stop, as `SSTAT` reports it (R421). -/
def stopCause : SaveWhy → Byte
  | .fault c | .step c => c
  | .page => 0x06
  | .overrun => 0x0D
  | _ => 0
/-- The record of a stop that writes one (R412, R419, R431). -/
def stopRecord (s : State) (why : SaveWhy) : Option Rec :=
  match why with
  | .fault c | .step c => (dieGet s (dieOf s.core.id)).gecko.find? fun r => r.src == srcNum s.core.id && r.cause == c
  | .overrun => (dieGet s (dieOf s.core.id)).gecko.find? fun r => r.src == srcNum s.core.id && r.cause == 0x0D
  | _ => none
/-- The signatures of commands that read or wrote this scratchpad, complete and not yet joined, go into the saved %wsig
(R414 step 4). -/
def touchSig (s : State) : Sig :=
  (s.cmds.filter fun c => c.task == s.core.task && cmdDone c && cmdTouches c s.core.id).foldl (fun g c => g ||| c.sig) 0
/-- The next bundle that slot 0 decided, once it has committed (R216). -/
def nextDone (c : Core) : Option Word := if c.sp.done.getLsbD 0 then some (c.next.getD (fallThrough c.pc)) else none
def savedOf (why : SaveWhy) (s : State) : Saved :=
  let c := s.core
  let keep (x : Host.Cell) : Bool := x.1 < roundUp4K c.wmark && (mapOfOff c.maps x.1).isNone
  { a := c.a, sp := { c.sp with wsig := c.sp.wsig ||| touchSig s }, flights := c.flights, maps := c.maps,
    spad := (Mem.cut s.spad (spadAddr c.id 0) spadBytes).filter keep, wmark := c.wmark, pend := c.pend, errs := c.errs,
    vol := voluntary why, core := c.id, sinceYield := c.sinceYield, claim := c.claim, halting := c.halting, next := nextDone c,
    tsLate := c.tsLate, feed := c.feed, ny := c.ny, chg := c.chgSteps, toks := tokMask c.pend, joins := [] }
/-- The core in focus is left without a task. -/
def clearCore (s : State) : State :=
  s.mapCore fun c => { c with
    task := none, flights := [], pend := [], errs := [], maps := [], feed := [], next := none, stall := none, held := false,
    wait := none, tsLate := none, decided := [], halting := false, landDue := false, rgn := Region.reset, chgSteps := 0, spin := none }
/-- The migration a task waits for is still to be answered (R426). -/
def migrOpen (s : State) (t : Task) : Bool :=
  let k := ((taskRcb s t).map (·.ktt)).getD 0
  s.migrs.any fun m => m.key == k && t.mig == some m.vbase && !m.reqs.isEmpty
/-- A recorded command of a task that is out is complete: its token is complete in `STOK`, and its join is held (R416,
R439). -/
def settleCmd (id : Nat) (t : Task) (v : Saved) (c : EngCmd) (s : State) : State :=
  let p := v.pend.find? fun p => p.kind == .engine id
  let errs := match c.failCause, p with
    | some e, some p => if cmdCw c.kind c.desc = 0 && c.kind != EKind.gnode then
        v.errs ++ [⟨p.seq, some p.tok, e, c.ea, none, p.slot, p.pc, false⟩] else v.errs
    | _, _ => v.errs
  let left := v.pend.filter fun p => p.kind != .engine id
  let v2 : Saved := { v with pend := left, errs := errs, joins := v.joins ++ [(c.sig, c.flags)] }
  let s1 := chargeTask t.id 0 c.bytes { taskUpd s t.id (fun x => { x with saved := some v2 }) with
    cmds := s.cmds.filter fun x => x.id != id }
  match t.slot with
  | some n => homeWordPut (slotAddr s1 (taskDom s1 t).1 n + 0x20)
      (BitVec.ofNat 64 (v.toks + 256 * (v.toks - tokMask left))) s1
  | none => s1
/-- The commands recorded for a task that is out and that are complete are settled, in the order they were issued. -/
def settleTask (t : Nat) (s : State) : State :=
  (s.cmds.filter fun c => c.task == some t && cmdDone c).foldl (fun s c =>
    match taskFind s t with
    | none => s
    | some x => match x.saved with
      | some v => if v.pend.any fun p => p.kind == .engine c.id then settleCmd c.id x v c s else s
      | none => s) s
/-- The save of R414 on the core in focus, for task `t`; a task that a budget fault or the cancellation of its domain ends
leaves its core the same way. -/
def saveTask (t : Task) (why : SaveWhy) (s : State) : State :=
  let s1 := writeBackAll (dropStall s)
  match if why = .budget then some (0x14 : Byte) else t.cancel with
  | some c =>
    -- a charge applied at its own end comes after the end (R29)
    syncSlots (chargeTask t.id s1.core.chgSteps 0 (endTask t.id (some c) 0 (clearCore s1)))
  | none =>
    let v := savedOf why s1
    let st := if t.domStop then .stopped else if why == .page && !migrOpen s1 t then .ready else saveState why
    let t2 : Task := { t with
      st := st, core := none, saved := some v, wait := if st == .waiting then s1.core.wait else none, stopReq := none,
      readyTick := s1.tick, cause := stopCause why
      stepping := match why with
        | .debug | .step _ | .fault _ => false
        | _ => t.stepping }
    let s2 := taskSet s1 t2
    let s3 := match t.slot with
      | some n =>
        let base := slotAddr s2 (taskDom s2 t).1 n
        let w := slotWrite base (slotImage s2 t2 v s1.core.pc v.next) s2
        match stopRecord s1 why with
        | some r => homeBytesPut (base + 0x80) (recBytes r) w
        | none => w
      | none => s2
    syncSlots (settleTask t.id (clearCore s3))
/-- Every member of a gang has issued what the lead broadcast (R487). -/
def gangLevel (s : State) (t : Task) : Bool :=
  (gangOf s t).all fun g => match (taskFind s g).bind (·.core) with
    | some k => (coreOf s k).feed.isEmpty
    | none => true
/-- TASK_SAVE: the task whose stop was asked for leaves its core. -/
def execTaskSave (core : Nat) (why : SaveWhy) (s : State) : Host.Outcome State Fault Refusal :=
  .next (onCore core (fun s =>
    match curTask s with
    | some t => if t.stopReq == some why && canSave s && t.saved.isNone && (why != .yield || gangLevel s t) then saveTask t why s else s
    | none => s) s)

/-! ## TASK_RESTORE (R41, R209, R415, R416, R418, R421, R439) -/

/-- A stream's buffered elements stop at the first that recorded an absent page: it is fetched again (R426). -/
def refetch (q : QState) : QState := { q with inq := q.inq.takeWhile fun e => match e.flt with
  | some (c, _) => c != 0x06
  | none => true }
/-- A join held in the slot. -/
def applyJoin (s : State) (j : Sig × BitVec 6) : State := orFlags j.2 false (joinSig j.1 s)
/-- The restore of task `t` on the core in focus from its saved state. -/
def restoreSaved (t : Task) (v : Saved) (s : State) : State :=
  let l := launchFind s t.launch
  let n := taskNode s t
  let task := t.id
  let s1 := match l, n with
    | some l, some n => loadKtt (nodeKtt l n) s
    | _, _ => s
  let id := s1.core.id
  let base := (t.slot.map (slotAddr s1 (taskDom s1 t).1)).getD 0
  let pc : Word := if t.slot.isSome then homeWord s1 base else s1.core.pc
  let done : BitVec 8 := if t.slot.isSome then (homeWord s1 (base + 8)).setWidth 8 else v.sp.done
  let next : Option Word := if t.slot.isNone then v.next
    else if done.getLsbD 0 then some (homeWord s1 (base + 0x10)) else none
  let f := s1.fresh
  let a : Arch := { v.a with
    y := if v.vol then freeLatches f else v.a.y
    streams := vecOf 8 fun k => refetch (v.a.streams.get k) }
  let ny := if v.vol && t.gpos != 0 then freeLatches (f + 8) else v.ny
  -- the latches of steps still to be issued are undefined after a voluntary switch too (R209)
  let feed := if v.vol then (List.range v.feed.length).zipWith (fun i g => { g with y := freeLatches (f + 16 + 8 * i) }) v.feed
    else v.feed
  let hi := roundUp4K v.wmark
  let s2 := freeSpad id hi { s1 with fresh := f + 16 + 8 * v.feed.length }
  let sb := spadAddr id 0
  let s3 := { s2 with spad := Mem.paste (Mem.drop s2.spad sb hi) sb v.spad }
  let s4 := s3.mapCore fun c => { c with
    task := some t.id, a := a, sp := { v.sp with done := done }, ny := ny, feed := feed, maps := v.maps,
    flights := v.flights, pend := v.pend, errs := v.errs, seq := v.pend.foldl (fun m p => max m (p.seq + 1)) c.seq,
    rgn := Region.reset, pc := pc, next := next, chain := none, landDue := false, stall := none, held := false, wait := none,
    tsLate := v.tsLate, decided := [], halting := v.halting, commitDue := false, claim := v.claim, sinceYield := v.sinceYield, chgSteps := v.chg,
    wmark := v.wmark }
  -- another core starts with no clean line; the lines of the mappings entered again are invalid on any core (R418)
  let mapped (k : Nat) : Bool := (mapOfKey v.maps k).isSome
  let own := ((s4.core.lines.filter fun l => mapped l.key).map (·.key)).foldl writeBack s4
  let unmapped : State := { own with core := dropLines own.core mapped }
  let s5 := if id = v.core then unmapped else invalLines unmapped (fun _ => true) false
  let move (c : EngCmd) : EngCmd :=
    if c.task == some task && !c.started then
      -- a scan with `GV` 1 keeps the state-space unit of the core that issued it (R416)
      (if c.kind == .sscan && sGv c.desc then { c with behind := [] }
       else { c with core := some id, cluster := clusterOf id, ssu := c.ssu.map fun _ => id, behind := [] }) else c
  let s6 : State := { s5 with cmds := s5.cmds.map move }
  let s7 := v.joins.foldl applyJoin s6
  taskUpd s7 t.id fun x => { x with saved := none, wait := none, mig := none }
/-- The restore, joins of commands that completed while the task was out included (R416). -/
def restoreTask (t : Task) (s : State) : State :=
  let s1 := settleTask t.id s
  match taskFind s1 t.id with
  | some x => match x.saved with
    | some v => restoreSaved x v s1
    | none => s1
  | none => s1
/-- TASK_RESTORE: a bound task takes its saved state back. -/
def execTaskRestore (core task : Nat) (s : State) : Host.Outcome State Fault Refusal :=
  .next (onCore core (fun s =>
    match taskFind s task with
    | some t =>
      if t.saved.isSome && s.core.task == some task && t.core == some core then restoreTask t s else s
    | none => s) s)

/-- SAVED_COMMAND_COMPLETE: a command recorded at a save completes while its task is out (R416, R439); one of a task that has
ended is done with, its bytes charged. -/
def execSavedCommandComplete (id : Nat) (s : State) : Host.Outcome State Fault Refusal :=
  .next (match cmdFind s id with
    | none => s
    | some c =>
      match c.task.bind (taskFind s) with
      | none => s
      | some t =>
        if !cmdDone c then s
        else if t.st == .ended then chargeTask t.id 0 c.bytes { s with cmds := s.cmds.filter fun x => x.id != id }
        else match t.saved with
          | none => s
          | some v => if t.core.isNone && v.pend.any fun p => p.kind == .engine id then settleCmd id t v c s else s)

/-! ## Ready again, and pre-emption (R408, R412, R413) -/

/-- A waiting task's condition (R179, R247). -/
def waitHolds (s : State) (die : Nat) : WaitOn → Bool
  | .cw loc target _ => cwSatisfied target (homeWord s loc)
  | .step n => n.toNat ≤ stepOf s die
/-- The word a waiting task watches at its scope: the core's and cluster's own copies count (R188, R323). -/
def waitSeen (s : State) (t : Task) (w : WaitOn) : Bool :=
  match w, t.saved with
  | .cw loc target sc, some v =>
    let s1 := focus v.core s
    (placeErr sc loc 8 s1).isSome || cwSatisfied target (waitWord sc loc s1).1
  | w, _ => waitHolds s (taskDom s t).1 w
/-- WAITING_TASK_READY: the watched condition holds; a gang's members are ready together (R487). -/
def execWaitingTaskReady (task : Nat) (s : State) : Host.Outcome State Fault Refusal :=
  match taskFind s task with
  | none => .next s
  | some t =>
    let ms := s.tasks.filter fun x => x.gang == t.gang
    let ok (x : Task) : Bool := match x.st, x.wait with
      | .waiting, some w => waitSeen s x w
      | _, _ => true
    if t.st == .waiting && ms.all ok then
      .next (syncSlots { s with tasks := s.tasks.map fun x =>
        if x.gang == t.gang && x.st == .waiting then { x with st := .ready, readyTick := s.tick } else x })
    else .next s
/-- The cores of a cluster that a candidate of rank 15 could take: free ones, then those whose tasks are below 15, the lowest
priority first, then the highest source number (R413). -/
def preemptable (s : State) (cl : Nat) : List Nat :=
  let free := freeCores s cl
  let busy := (clusterCores cl).filterMap fun k =>
    if (coreOf s k).promise.isSome || (coreOf s k).disabled then none
    else match (coreOf s k).task.bind (taskFind s) with
      | some t => if taskPrio s t < 15 && t.stopReq.isNone then some (taskPrio s t, k) else none
      | none => none
  free ++ (List.range 15).flatMap fun p => ((busy.filter fun x => x.1 == p).map (·.2)).reverse
/-- Better for a pre-emption: a lower priority, then a higher source number. -/
def preferred (s : State) (a b : Nat) : Bool :=
  let p (k : Nat) : Nat := (((coreOf s k).task.bind (taskFind s)).map (taskPrio s)).getD 0
  p a < p b || (p a == p b && srcNum b < srcNum a)
/-- The cores a candidate of rank 15 pre-empts, when no core is free for it. A task that must return to its own
core pre-empts that one, a saved one stays in its cluster; a gang takes the first cluster with enough cores. The manual says
none of this for gangs and returning tasks: log entry 50. -/
def preemptCores (s : State) (l : Launch) (c : Cand) : Option (List Nat) :=
  let own := ownCores s c
  let cls := if c.members.isEmpty then launchClusters l else (own.map clusterOf).eraseDups
  let take (cl : Nat) : List Nat := (preemptable s cl).take c.size
  if mustReturn s c then
    (if !own.all (coreFree s) && own.all (fun k => (preemptable s (clusterOf k)).contains k) then some own else none)
  else if cls.any fun cl => c.size ≤ (freeCores s cl).length then none
  else
    let fit := cls.filter fun cl => (take cl).length == c.size
    let best := fit.foldl (fun (acc : Option Nat) cl => match acc with
      | none => some cl
      | some b => if c.size = 1 && preferred s ((take cl).headD 0) ((take b).headD 0) then some cl else some b) none
    best.map fun cl => (clusterCores cl).filter (take cl).contains
/-- A stop at the next bundle boundary of a task and its gang; a region of a gang that a member stalls rolls back at once
(R46, R391). -/
def preemptTask (t : Task) (why : SaveWhy) (s : State) : State :=
  let gs := gangOf s t
  let s1 := gs.foldl (fun s g => stopTask g why s) s
  let cs := (gs.filterMap fun g => (taskFind s g).bind (·.core)).map (coreOf s)
  match t.core with
  | some k => if cs.any fun c => c.stall.isSome && !c.held then
      onCore k (fun s => if regionOpen s.core then onGang (rollNow 6) s else s) s1 else s1
  | none => s1
/-- The candidates of rank 15 of ranges not yet bound. -/
def fresh15 (s : State) : List Cand := (freshCands s).filter fun c => c.rank == 15
/-- PRIORITY15_PREEMPT: a saved task `task` of rank 15, or past the numbers in use the next of a range, has become Ready and no
core is free (R413). -/
def execPriority15Preempt (task : Nat) (s : State) : Host.Outcome State Fault Refusal :=
  let c := if s.taskNext ≤ task then (fresh15 s)[task - s.taskNext]?
    else (savedCands s).find? fun c => c.rank == 15 && c.members.contains task
  .next (match c with
    | none => s
    | some c =>
      match (launchFind s c.launch).bind fun l => if (l.nodes[c.node]?).isNone then none else (preemptCores s l c).bind fun cores =>
          if (match l.nodes[c.node]? with
            | some n => roomFor s l n.rcb c.size (occupants s cores)
            | none => false) && (!c.members.isEmpty || (dieGet s l.die.val).slots.length + c.size ≤ slotCount s l.die.val)
          then some cores else none with
      | none => s
      | some cores =>
        let s1 := (((cores.filterMap fun k => (coreOf s k).task).filterMap (taskFind s))).foldl (fun s t => preemptTask t .preempt s) s
        promiseTo c cores s1)
/-- YIELD_OVERRUN: the count of steps since the last yield point would pass the claim by more than 1,024 (R412). -/
def overrun (c : Core) : Bool := c.claim + 1024 ≤ c.sinceYield
def execYieldOverrun (core : Nat) (s : State) : Host.Outcome State Fault Refusal :=
  .next (onCore core (fun s =>
    match curTask s with
    | some t =>
      if overrun s.core && t.gpos == 0 && t.stopReq.isNone && !regionOpen s.core then
        let s1 := record (dieOf core) (srcNum core) 0x0D (BitVec.ofNat 8 (t.gpos * 16)) s.core.pc (BitVec.ofNat 64 s.core.claim) s
        onGang (fun s => s.mapCore fun c => { c with claim := 65536, sinceYield := 0 })
          (preemptTask t .preempt (stopTask t.id .overrun s1))
      else s
    | none => s) s)

end Sys2Proof.Machine
end

