-- ==== Sys2Proof/Machine/Sha.lean ====
section
/-! DEFINITION. SHA-256, which the manual takes by name for %mrhash (R457). Its constants are computed from what they stand
for: the first 32 bits of the fractional parts of roots of the first primes (PRESUMED, log entry 43). -/

namespace Sys2Proof.Machine

def primeN (n : Nat) : Bool := 2 ≤ n && (List.range n).all fun d => d < 2 || n % d != 0
/-- The first 64 primes. -/
def shaPrimes : List Nat := (List.range 312).filter primeN
/-- The greatest number whose `k`-th power is at most `n`, its bits below `b` found from the top. -/
def rootBits (k n : Nat) : Nat → Nat → Nat
  | 0, r => r
  | b + 1, r => rootBits k n b (if (r + 2 ^ b) ^ k ≤ n then r + 2 ^ b else r)
def fracRoot (k p : Nat) : BitVec 32 := BitVec.ofNat 32 (rootBits k (p * 2 ^ (32 * k)) 36 0)
/-- The words the rounds add, from cube roots, and the words the digest starts from, from square roots. -/
def shaCube : List (BitVec 32) := shaPrimes.map (fracRoot 3)
def shaSquare : List (BitVec 32) := (shaPrimes.take 8).map (fracRoot 2)

/-- The exclusive or of a word's rotations. -/
def spin (x : BitVec 32) (l : List Nat) : BitVec 32 := l.foldl (fun y n => y ^^^ x.rotateRight n) 0
/-- One round on the eight words, with its constant and schedule word added together. -/
def shaMix (v : List (BitVec 32)) (kw : BitVec 32) : List (BitVec 32) :=
  let at_ (i : Nat) : BitVec 32 := v.getD i 0
  let pick := at_ 6 ^^^ (at_ 4 &&& (at_ 5 ^^^ at_ 6))
  let most := (at_ 0 &&& at_ 1) ||| (at_ 2 &&& (at_ 0 ||| at_ 1))
  let up := at_ 7 + spin (at_ 4) [6, 11, 25] + pick + kw
  [up + spin (at_ 0) [2, 13, 22] + most] ++ (v.take 3) ++ [at_ 3 + up] ++ ((v.drop 4).take 3)
/-- `n` more schedule words behind those of a window, each from the sixteen before it. -/
def shaMore : Nat → List (BitVec 32) → List (BitVec 32)
  | 0, _ => []
  | n + 1, w =>
    let lo := w.getD 1 0
    let hi := w.getD 14 0
    let x := spin lo [7, 18] ^^^ lo.ushiftRight 3
    let y := spin hi [17, 19] ^^^ hi.ushiftRight 10
    let z := w.getD 0 0 + x + w.getD 9 0 + y
    z :: shaMore n (w.drop 1 ++ [z])
/-- Words of four bytes, the first the most significant. -/
def wordsOf : Nat → List Byte → List (BitVec 32)
  | 0, _ => []
  | n + 1, l => BitVec.ofNat 32 ((l.take 4).foldl (fun x b => 256 * x + b.toNat) 0) :: wordsOf n (l.drop 4)
def shaChunk (v : List (BitVec 32)) (b : List Byte) : List (BitVec 32) :=
  let w := wordsOf 16 b
  List.zipWith (· + ·) v ((List.zipWith (· + ·) shaCube (w ++ shaMore 48 w)).foldl shaMix v)
def shaChunks : Nat → List Byte → List (BitVec 32) → List (BitVec 32)
  | 0, _, v => v
  | n + 1, l, v => shaChunks n (l.drop 64) (shaChunk v (l.take 64))
/-- The message, a one bit, zeros, and its length in bits in the last eight bytes of a chunk. -/
def shaMessage (m : List Byte) : List Byte :=
  let zeros := (64 - (m.length + 9) % 64) % 64
  m ++ (0x80 :: List.replicate zeros 0) ++ (toBytes 8 (BitVec.ofNat 64 (8 * m.length))).reverse
/-- Bits [255:192] of the digest: its first two words. -/
def sha256First64 (m : List Byte) : BitVec 64 :=
  let l := shaMessage m
  let v := shaChunks (l.length / 64) l shaSquare
  v.getD 0 0 ++ v.getD 1 0

end Sys2Proof.Machine
end

