-- ==== Sys2Proof/Machine/Firm.lean ====
section
/-! DEFINITION. What firmware does to a die's dispatcher (R404 to R407, R428, R457, R458, R481), and the migration of
pages (R426, R427). -/

namespace Sys2Proof.Machine

/-! ## Migration (R426, R427) -/

def hostPkg : Nat := 1024
/-- MIGRATION_REQUEST: a request reaches the entry's home; a source asks once (R427). -/
def execMigrationRequest (ktt vbase tick pkg src : Nat) (s : State) : Host.Outcome State Fault Refusal :=
  .next (addMigr ktt vbase tick pkg src s)

/-- The first request: by tick, package, source (R427). -/
def firstReq (l : List MReq) : Option MReq :=
  let lt (a b : MReq) : Bool :=
    a.tick < b.tick || (a.tick == b.tick && (a.pkg < b.pkg || (a.pkg == b.pkg && a.src < b.src)))
  l.foldl (fun acc r => match acc with
    | none => some r
    | some a => if lt r a then some r else some a) none
/-- Write back and drop every copy of the bytes of a range of keys. -/
def recallRange (key n : Nat) (s : State) : State :=
  let inR (k : Nat) : Bool := key ≤ 64 * k && 64 * k < key + n
  let s1 := ((coresOf s).map (·.id)).foldl (fun s k => onCore k (fun s =>
    let s1 := ((s.core.lines.filter fun l => inR l.key).map (·.key)).foldl writeBack s
    { s1 with core := dropLines s1.core inR }) s) s
  ((s1.l2.filter fun l => inR l.key).map fun l => (l.cluster, l.key)).foldl (fun s x =>
    l2Forget x.1 x.2 (l2Push s x.1 x.2)) s1
/-- Move the bytes of an entry from one place to another, poison with them. -/
def moveBytes (src dst n : Nat) (s : State) : State :=
  let s1 := recallRange src n s
  let cells := Mem.cut s1.home src n
  let bad := (s1.poison.filter fun k => src ≤ 64 * k && 64 * k < src + n).map fun k => (64 * k - src + dst) / 64
  { s1 with
    home := Mem.paste (Mem.drop (Mem.drop s1.home src n) dst n) dst cells
    poison := bad ++ s1.poison.filter fun k => !(src ≤ 64 * k && 64 * k < src + n) }
/-- Set an entry in every copy of a table: the cores', and those of commands issued under it. -/
def setEntry (ktt vbase pbase hkind home : Nat) (s : State) : State :=
  let one (e : KEntry) : KEntry :=
    if e.vbase = vbase then { e with pbase := pbase, hkind := hkind, home := home, absent := false } else e
  let core (c : Core) : Core :=
    if kttBase c.kttReg = ktt && c.kttReg.getLsbD 8 then
      let q := vecOf 8 fun k => refetch (c.a.streams.get k)
      { c with ktt := c.ktt.map one, a := { c.a with streams := q } }
    else c
  { s with
    core := core s.core, others := s.others.map core
    cmds := s.cmds.map fun c => if cmdKtt s c = ktt then { c with ktt := c.ktt.map one } else c }
/-- Node words that waited for the entry are written (R37). -/
def flushNcw (ktt vbase lsz : Nat) (s : State) : State :=
  let mine (x : Nat × Nat × Option Byte) : Bool := x.1 == ktt && vbase ≤ x.2.1 && x.2.1 < vbase + 2 ^ lsz
  let s1 := { s with ncwWait := s.ncwWait.filter fun x => !mine x }
  (s.ncwWait.filter mine).foldl (fun s x => (cwVirt (kttLoad s ktt) x.2.1 x.2.2 s).2) s1
/-- MIGRATION_REPLY: the home serves the first request and answers the others with a remote mapping; within 2^16 ticks
of a migration every request is answered so. -/
def execMigrationReply (ktt vbase : Nat) (s : State) : Host.Outcome State Fault Refusal :=
  match s.migrs.find? fun m => m.key == ktt && m.vbase == vbase with
  | none => .next s
  | some m =>
    match (kttLoad s ktt).find? fun e => e.vbase == vbase with
    | none => .next s
    | some e =>
      if m.reqs.isEmpty then .next s
      else
        -- those that arrived within 2^16 ticks of the last migration are answered with a remote mapping alone
        let w := (firstReq (m.reqs.filter fun r => !r.soon)).getD ⟨0, s.package, 0, false⟩
        let recent := m.reqs.all (·.soon)
        let n := 2 ^ e.lsz
        let hk := if w.pkg = s.package then 0 else if w.pkg = hostPkg then 2 else 1
        let hm := if hk = 1 then w.pkg else 0
        let pb := if recent then e.pbase else (Config.freeBits 56 s.fresh).toNat / n * n
        let hk2 := if recent then e.hkind else hk
        let hm2 := if recent then e.home else hm
        let s1 := if recent then s
          else moveBytes (globKey e.hkind e.home e.pbase) (globKey hk hm pb) n s.bump
        let upd (x : Migr) : Migr :=
          if x.key == ktt && x.vbase == vbase then
            { x with reqs := [], doneTick := if recent then x.doneTick else some s.tick, res := some (pb, hk2, hm2) }
          else x
        let s2 := setEntry ktt vbase pb hk2 hm2 { s1 with migrs := s1.migrs.map upd }
        let s3 := if recent then s2
          else record 0 (dispSrc 0) 0x86 0 (BitVec.ofNat 64 vbase) (BitVec.ofNat 64 pb) s2
        let wake (t : Task) : Task :=
          if t.st == .migrating && t.mig == some vbase && ((taskRcb s3 t).map (·.ktt)).getD 0 == ktt then
            { t with st := .ready, readyTick := s3.tick } else t
        .next (syncSlots (flushNcw ktt vbase e.lsz { s3 with tasks := s3.tasks.map wake }))

/-! ## Fault domains (R406, R428) -/

def dopWord (dop : Nat) (dom : BitVec 12) : Word := BitVec.ofNat 64 (dop * 2 ^ 58 + dom.toNat)
/-- A read of DFCMD: `STOPPED` of the domain last written. -/
def dfcmdRead (s : State) (die : Nat) : Word :=
  let w := (dieGet s die).dfcmd
  if domStopped s die (w.setWidth 12).toNat then w ||| (1#64 <<< 63) else w
def setDfcmd (die : Fin 4) (dop : Nat) (dom : BitVec 12) (s : State) : State :=
  dieUpd s die.val fun d => { d with dfcmd := dopWord dop dom }
/-- DFCMD_QUERY. -/
def execDfcmdQuery (die : Fin 4) (dom : BitVec 12) (s : State) : Host.Outcome State Fault Refusal :=
  .next (setDfcmd die 0 dom s)
def unstop (die : Fin 4) (dom : Nat) (s : State) : State :=
  { s with stopped := s.stopped.filter fun d => !(d.die == die && d.dom == dom) }
/-- Nodes of a domain held by a stop. -/
def heldNodes (s : State) (die : Fin 4) (dom : Nat) : List (Nat × Nat) :=
  s.launches.flatMap fun l => if l.die != die then [] else
    (List.range l.nodes.length).filterMap fun i => match l.nodes[i]? with
      | some n => if n.heldReady && nodeDom l n == dom then some (l.id, i) else none
      | none => none
/-- A Stopped task is Ready again; one still to be saved is Ready once it is. A task of a subtree that a budget fault ended is
not resumed: it ends with that status (R29). -/
def goOn (t : Task) (s : State) : State :=
  if t.st != .stopped then taskUpd s t.id fun x => { x with domStop := false }
  else if ((taskRcb s t).map (·.stopped)).getD false then
    chargeTask t.id ((t.saved.map (·.chg)).getD 0) 0 (endTask t.id (some 0x14) 0 s)
  else taskUpd s t.id fun x => { x with st := .ready, readyTick := s.tick, domStop := false }
/-- DFCMD_RESUME: Stopped tasks are Ready, and held nodes start. -/
def execDfcmdResume (die : Fin 4) (dom : BitVec 12) (s : State) : Host.Outcome State Fault Refusal :=
  let s0 := setDfcmd die 1 dom s
  if domStopped s die.val dom.toNat then
    let s1 := record die.val (dispSrc die.val) 0x89 0 (dom.setWidth 64) 1 (unstop die dom.toNat s0)
    let mine (t : Task) : Bool := taskDom s t == (die.val, dom.toNat)
    let s2 : State := (s1.tasks.filter fun t => mine t && (t.st == .stopped || t.domStop)).foldl (fun s t => goOn t s) s1
    .next (syncSlots ((heldNodes s2 die dom.toNat).foldl (fun s x =>
      launchNode x.1 x.2 (nodeUpd s x.1 x.2 fun n => { n with heldReady := false })) s2))
  else .next s0
/-- A task of a cancelled domain ends, with the steps it was not charged yet; one still on its core first leaves it, as in a
save (R414). -/
def cancelTask (cause : Byte) (s : State) (t : Task) : State :=
  if t.core.isSome then taskUpd s t.id fun x => { x with cancel := some cause }
  else chargeTask t.id ((t.saved.map (·.chg)).getD 0) 0 (endTask t.id (some cause) 0 s)
/-- DFCMD_CANCEL: Stopped tasks and held nodes fail with the cause that stopped the domain. Commands of a cancelled task that
had not started fail with it too (log entry 48). -/
def execDfcmdCancel (die : Fin 4) (dom : BitVec 12) (s : State) : Host.Outcome State Fault Refusal :=
  let s0 := setDfcmd die 2 dom s
  match s.stopped.find? fun d => d.die == die && d.dom == dom.toNat with
  | none => .next s0
  | some d =>
    let s1 := record die.val (dispSrc die.val) 0x89 0 (dom.setWidth 64) 2 (unstop die dom.toNat s0)
    let mine := s1.tasks.filter fun t => taskDom s t == (die.val, dom.toNat) && (t.st == .stopped || t.domStop)
    let s2 := mine.foldl (cancelTask d.cause) s1
    .next (syncSlots ((heldNodes s2 die dom.toNat).foldl (fun s x => failNode x.1 x.2 .failed d.cause s) s2))

/-! ## Debug control (R407) -/

def setDdbg (die : Fin 4) (op : Nat) (slot : BitVec 12) (s : State) : State :=
  dieUpd s die.val fun d => { d with ddbg := BitVec.ofNat 64 (op * 2 ^ 62 + slot.toNat) }
def slotTask (s : State) (die : Fin 4) (slot : BitVec 12) : Option Task :=
  s.tasks.find? fun t => t.slot == some slot.toNat && (taskDom s t).1 == die.val
/-- DDBG_STOP: an involuntary pre-emption into the Stopped state. -/
def execDdbgStop (die : Fin 4) (slot : BitVec 12) (s : State) : Host.Outcome State Fault Refusal :=
  let s0 := setDdbg die 1 slot s
  match slotTask s die slot with
  | some t => .next (if t.st == .running then preemptTask t .debug s0 else s0)
  | none => .next s0
/-- A task that DDBG may let go on: Stopped, and its domain is not. -/
def debugStopped (s : State) (t : Task) : Bool := t.st == .stopped && !domStopped s (taskDom s t).1 (taskDom s t).2
/-- Stopped members of a task's gang become Ready; a step is the task's own (R407). -/
def debugGo (step : Bool) (t : Task) (s : State) : State :=
  syncSlots ((s.tasks.filter fun x => x.gang == t.gang && x.st == .stopped).foldl (fun s x =>
    goOn x (taskUpd s x.id fun x => { x with stepping := step && x.id == t.id })) s)
/-- DDBG_STEP: one bundle, then a stop with cause 0x0F. -/
def execDdbgStep (die : Fin 4) (slot : BitVec 12) (s : State) : Host.Outcome State Fault Refusal :=
  let s0 := setDdbg die 2 slot s
  match slotTask s die slot with
  | some t => .next (if debugStopped s t then debugGo true t s0 else s0)
  | none => .next s0
/-- DDBG_RESUME. -/
def execDdbgResume (die : Fin 4) (slot : BitVec 12) (s : State) : Host.Outcome State Fault Refusal :=
  let s0 := setDdbg die 3 slot s
  match slotTask s die slot with
  | some t => .next (if debugStopped s t then debugGo false t s0 else s0)
  | none => .next s0

/-! ## DCFG (R404) -/

/-- No launch of a die is running. -/
def dieIdle (s : State) (die : Fin 4) : Bool := s.launches.all fun l => l.retired || l.die != die
/-- A field takes a value within its limits. -/
def dcfgField (old v : Word) (lo lo8 hi8 : Nat) : Word :=
  let x := (v.extractLsb' lo 8).toNat
  if lo8 ≤ x ∧ x ≤ hi8 then blend ((0xFF : Word) <<< lo) v old else old
def dcfgMerge (old v : Word) : Word :=
  dcfgField (dcfgField (dcfgField old v 32 4 30) v 16 10 24) v 8 8 40
/-- DCFG_WRITE: the value is held until no launch of the die runs. -/
def execDcfgWrite (die : Fin 4) (v : Word) (s : State) : Host.Outcome State Fault Refusal :=
  .next (dieUpd s die.val fun d => { d with dcfgHeld := some v })
def execDcfgApply (die : Fin 4) (s : State) : Host.Outcome State Fault Refusal :=
  .next (if dieIdle s die then dieUpd s die.val fun d => match d.dcfgHeld with
      | some v => { d with dcfg := dcfgMerge d.dcfg v, dcfgHeld := none }
      | none => d
    else s)

/-! ## DMRT (R457, R458) -/

def mrEntBytes (b : List Byte) (e : Nat) : List Byte := (b.drop (64 + 96 * e)).take 96
def mrWords (e : List Byte) : Nat := bitsOf (dW e 0x20) 18 16
/-- An entry for which the image is refused (R458). The reserved value 11 of the class field is a reason too, as a reserved bit is:
the rule's list does not name it (DESIGN CHOICE, log entry 54). -/
def mrBad (e : List Byte) : Bool :=
  let c := dW e 0x20
  bitsOf (dW e 0) 63 56 != 0 || c.testBit 0 || c.testBit 7 || bitsOf c 9 8 == 3 || bitsOf c 15 10 != 0
    || bitsOf c 63 19 != 0 || mrWords e == 0 || 4 < mrWords e || !dZero e 0x28 8 || !dZero e 0x50 16
def mrEnt (e : List Byte) : MrEnt where
  mmsk := BitVec.ofNat 64 (dW e 0)
  mval := BitVec.ofNat 64 (dW e 8)
  mhmsk := BitVec.ofNat 64 (dW e 0x10)
  mhval := BitVec.ofNat 64 (dW e 0x18)
  mctl := BitVec.ofNat 64 (dW e 0x20)
  words := (List.range (mrWords e)).map fun i => BitVec.ofNat 56 (dW e (0x30 + 8 * i))
/-- DMRT_WRITE. -/
def execDmrtWrite (die : Fin 4) (v : Word) (s : State) : Host.Outcome State Fault Refusal :=
  let w := v &&& 0x00FFFFFFFFFFFFC0
  .next (dieUpd s die.val fun d => { d with dmrt := w, dmrtHeld := some w })
/-- DMRT_APPLY: the image is read, checked and put in force on every core of the die, or refused. -/
def execDmrtApply (die : Fin 4) (s : State) : Host.Outcome State Fault Refusal :=
  match (dieGet s die.val).dmrtHeld with
  | none => .next s
  | some w =>
    if !dieIdle s die then .next s
    else
      let a := w.toNat
      let h := homeBytesGet s a 64
      let n := (h.headD 0).toNat
      let s1 := dieUpd s die.val fun d => { d with dmrtHeld := none }
      let refuse (i : Word) : State := record die.val (dispSrc die.val) 0x8A 0 w i s1
      if 64 < n || !dZero h 1 63 then .next (refuse (BitVec.allOnes 64))
      else
        let b := homeBytesGet s a (64 + 96 * n)
        match (List.range n).find? fun e => mrBad (mrEntBytes b e) with
        | some e => .next (refuse (BitVec.ofNat 64 e))
        | none => .next (dieUpd s1 die.val fun d => { d with
            mr := (List.range n).map fun e => mrEnt (mrEntBytes b e)
            mrhash := if n = 0 then 0 else sha256First64 b })

/-! ## The Dome tree (R481) -/

/-- DOME_READING_START: a write of DDOME; ignored while a reading is in progress. -/
def execDomeReadingStart (die : Fin 4) (v : Word) (s : State) : Host.Outcome State Fault Refusal :=
  .next (dieUpd s die.val fun d =>
    if d.ddome.getLsbD 63 then d
    else if v.getLsbD 62 then { d with ddome := (v &&& 0xF) ||| (1#64 <<< 63), domeAt := some (s.tick + 16) }
    else { d with ddome := v &&& 0xF })
/-- DOME_READING: a reading whose tick a correction has skipped is taken now. -/
def execDomeReading (die : Fin 4) (s : State) : Host.Outcome State Fault Refusal :=
  .next (match (dieGet s die.val).domeAt with
    | some t => if t ≤ s.tick then dieUpd s die.val (domeRead s die.val) else s
    | none => s)

end Sys2Proof.Machine
end

