-- ==== Sys2Proof/Machine/Measure.lean ====
section
/-! DEFINITION. Measurement and trace (R473 to R479, R484, R485), and the device registers firmware or the host writes
(R6, R121, R192, R403, R405, R441). -/

namespace Sys2Proof.Machine

/-! ## Loop accounting (R474) -/

/-- Charge a step to its level, and count it with its committed slot operations. -/
def chargeStep (occ : BitVec 8) (s : State) : State :=
  let add (l : LAcc) : LAcc := {
    l with
    fill := vecOf 8 fun i => if occ.getLsbD i.val then l.fill.get i + 1 else l.fill.get i
    nops := vecOf 8 fun i => if occ.getLsbD i.val then l.nops.get i else l.nops.get i + 1 }
  let s1 := countEvt 3 (popcount occ) (countEvt 2 1 s)
  match levelOf s.core.a s.core.pc with
  | some k => s1.mapM (laccUpd k add)
  | none => s1

/-! ## The trace ring (R478, R479) -/

def traceDrop (m : Meas) : Bool := m.tctl.getLsbD 62
def traceFull (m : Meas) : Bool := m.tctl.getLsbD 61
/-- Records the ring holds. -/
def traceCap (m : Meas) : Nat := (m.tctl.extractLsb' 0 20).toNat * 256
/-- A record's 16 bytes. -/
def traceBytes (kind : Nat) (v : BitVec 56) (step : Nat) : List Byte :=
  toBytes 8 (BitVec.ofNat 64 step) ++ [BitVec.ofNat 8 kind] ++ toBytes 7 v
def traceSlot (kind : Nat) (v : BitVec 56) (step : Nat) (s : State) : State :=
  let m := s.core.m
  let full := traceCap m ≤ m.tpos + 1
  let s1 := homeBytesPut (m.tbase.toNat + 16 * m.tpos) (traceBytes kind v step) s
  s1.mapM fun m => { m with tpos := m.tpos + 1, tctl := if full then m.tctl ||| (1#64 <<< 61) else m.tctl }
/-- Write one record. Where the ring is full tracing stops behind an overflow record, which the ring's last place is kept for;
or the core stalls (R478), and records that the work under way still makes wait for a place: log entry 36. -/
def tracePutAt (kind : Nat) (v : BitVec 56) (step : Nat) (s : State) : State :=
  let m := s.core.m
  if !traceOn m then s
  else if traceDrop m && traceCap m ≤ m.tpos + 1 then
    (if traceCap m ≤ m.tpos then s else traceSlot 4 0 step s).mapM fun m => { m with tctl := m.tctl &&& ~~~(1#64 <<< 63) }
  else if traceCap m ≤ m.tpos then s.mapM fun m => { m with twait := m.twait ++ [(kind, v, step)] }
  else traceSlot kind v step s
/-- A record of the step in issue. -/
def tracePut (kind : Nat) (v : BitVec 56) (s : State) : State := tracePutAt kind v s.core.m.tstep s
/-- Records that waited enter a ring that has been given room. -/
def traceDrain (s : State) : State :=
  s.core.m.twait.foldl (fun s x => tracePutAt x.1 x.2.1 x.2.2 s) (s.mapM fun m => { m with twait := [] })
/-- The branch outcomes collected, oldest first from bit 0. -/
def outcomeBits (l : List Bool) : BitVec 56 :=
  (l.take 48).foldr (fun b acc => (acc <<< 1) ||| (if b then 1 else 0)) 0 ||| (BitVec.ofNat 56 (l.take 48).length <<< 48)
def traceFlush (s : State) : State :=
  if s.core.m.outcomes.isEmpty then s
  else (tracePut 2 (outcomeBits s.core.m.outcomes) s).mapM fun m => { m with outcomes := m.outcomes.drop 48 }
/-- A record of another kind goes behind the outcomes collected so far. -/
def traceRec (kind : Nat) (v : BitVec 56) (s : State) : State := tracePut kind v (traceFlush s)
/-- TRACE_RECORD. -/
def execTraceRecord (core : Nat) (k : TraceKind) (s : State) : Host.Outcome State Fault Refusal :=
  .next (onCore core (fun s =>
    if !traceOn s.core.m then s
    else match k with
      | .stall n c => traceRec 1 ((0#5 ++ BitVec.ofNat 3 c.val) ++ n) s
      | .branches => if 48 ≤ s.core.m.outcomes.length then traceFlush s else s
      | .flagWait t => traceRec 3 t s
      | .overflow => if traceDrop s.core.m && traceCap s.core.m ≤ s.core.m.tpos + 1 then traceRec 4 0 s else s
      | .switch t => traceRec 5 t s
      | .sample pc k => traceRec 6 (0#2 ++ k ++ pc) s) s)
/-- COUNTER_SAMPLE: the count of a sampled counter passed a multiple of its period (R479). -/
def execCounterSample (core : Nat) (n : Fin 16) (slot : BitVec 4) (s : State) : Host.Outcome State Fault Refusal :=
  .next (onCore core (fun s =>
    let c := s.core.m.ctrs.get n
    if ctrOn c && c.cctl.extractLsb' 50 6 != 0 && traceOn s.core.m then
      traceRec 6 (0#2 ++ slot ++ (s.core.pc.extractLsb' 6 50)) s
    else s) s)

/-! ## Records an event causes (R479) -/

/-- The slot whose operation, the `n`-th of its bundle, is counted (R476). -/
def nthSlot (b : BundleBits) (n : Nat) : BitVec 4 :=
  BitVec.ofNat 4 ((((List.range 8).filter fun k => (hOcc (headerOf b)).getLsbD k)[n - 1]?).getD 8)
/-- Sample records: a count that passed a multiple of its period between two states. A step and its slot operations are counted
at the step's end: the sample names the bundle that issued. -/
def sampleWork (a b : Core) (slot : BitVec 4) : List Work :=
  (List.finRange 16).filterMap fun n =>
    let x := b.m.ctrs.get n
    let p := (x.cctl.extractLsb' 50 6).toNat
    let old := (a.m.ctrs.get n).count.toNat
    let here (k : BitVec 4) : Work := .event (.traceRecord b.id (.sample (a.pc.extractLsb' 6 50) k))
    if ctrOn x && p != 0 && old / 2 ^ p < x.count.toNat / 2 ^ p then
      some (if ctrEvt x == 2 then here 8
        else if ctrEvt x == 3 then here (nthSlot a.bundle (2 ^ p - old % 2 ^ p))
        else .event (.counterSample b.id n slot))
    else none
/-- Switch records: the task that left the core, and the one it took. -/
def switchWork (a b : Core) (s : State) : List Work :=
  let tile (t : Nat) : Word := (((taskFind s t).bind (·.saved)).map (·.sp.tile)).getD b.sp.tile
  let rec1 (w : Word) : Work := .event (.traceRecord b.id (.switch (w.setWidth 56)))
  if a.task == b.task then []
  else (if a.task.isSome then [rec1 a.sp.tile] else []) ++ (match b.task with
    | some t => [rec1 (tile t)]
    | none => [])
/-- The records that the work between two states causes on the cores that trace; `slot` is the slot in execution. -/
def traced (slot : BitVec 4) (a b : State) : State :=
  if (coresOf b).any fun c => traceOn c.m then
    { b with agenda := ((coresOf b).filter fun c => traceOn c.m).flatMap (fun c =>
        let old := coreOf a c.id
        sampleWork old c (if c.id = b.core.id then slot else 8) ++ switchWork old c b) ++ b.agenda }
  else b

/-! ## Counters (R473, R475, R477, R484) -/

/-- At the next tick the accounting, the hotness counters and every count are zero (R473). -/
def clearMeas (s : State) : State :=
  s.mapM (fun m => mapCtrs { m with
      lacc := Vector.replicate 4 LAcc.reset, hotB := Vector.replicate 16 0, hotS := Vector.replicate 16 0 }
    fun c => { c with count := 0, tena := 0, trun := 0 })
/-- MEASUREMENT_CLEAR. -/
def execMeasurementClear (core : Nat) (s : State) : Host.Outcome State Fault Refusal :=
  .next (onCore core clearMeas (passTicks 1 s))
/-- ROTATION_PERIOD_BOUNDARY: time reaches the core's next period boundary, where the active group advances (R484). -/
def execRotationPeriodBoundary (core : Nat) (s : State) : Host.Outcome State Fault Refusal :=
  let p := rotPeriod (coreOf s core).m
  .next (passTicks (p - s.tick % p) s)

/-! ## Registers (R6) -/

def ctrUpd (n : Fin 16) (f : Ctr → Ctr) (m : Meas) : Meas := { m with ctrs := m.ctrs.set n.val (f (m.ctrs.get n)) n.isLt }
/-- A field of `w` bits at `lo`, with the value there replaced. -/
def putField (old v : Word) (lo w : Nat) : Word := blend (((1#64 <<< w) - 1) <<< lo) v old
/-- %sem: a bit that would bind a slot to a disabled instance stays (R121). -/
def semMerge (c : Core) (v : Word) : BitVec 6 :=
  (List.range 6).foldl (fun acc i =>
    let want := v.getLsbD i
    let inst := 2 * (i / 2) + (if want then 1 else 0)
    let bit := if c.semDis.getLsbD inst then c.semMap.getLsbD i else want
    if bit then acc ||| (1#6 <<< i) else acc) 0
/-- %lct: a reserved value leaves its field (R192). -/
def lctMerge (old v : Word) : Word :=
  (List.range 8).foldl (fun acc k =>
    if (v.extractLsb' (8 * k) 8).toNat < 64 then putField acc v (8 * k) 8 else acc) old
/-- `MROT`: `RPER` takes 8 to 32 (R477). -/
def mrotMerge (old v : Word) : Word :=
  let x := putField old v 8 2
  if 8 ≤ (v.extractLsb' 0 8).toNat ∧ (v.extractLsb' 0 8).toNat ≤ 32 then putField x v 0 8 else x
/-- `TFUL` is set as long as the ring is full: always, when it has no place (R478). -/
def fullNow (m : Meas) : Meas :=
  if traceCap m ≤ m.tpos && (traceOn m || traceFull m) then { m with tctl := m.tctl ||| (1#64 <<< 61) }
  else { m with tctl := m.tctl &&& ~~~(1#64 <<< 61) }
/-- `TCTL`: `TFUL` is read-only; enabling tracing starts an empty ring at step 0 (R478, R479). -/
def tctlWrite (v : Word) (m : Meas) : Meas :=
  let w := putField (putField (m.tctl &&& (7#64 <<< 61)) v 62 2) v 0 20
  fullNow (if v.getLsbD 63 && !traceOn m then { m with tctl := w, tpos := 0, tstep := 0, outcomes := [], twait := [] }
    else { m with tctl := w })
/-- A write of a register but for the windows' addresses: of a die, a core or the package. A counter or rotation setting is
written behind the tick of the write, and the tick that follows passes under it (R477). -/
def coreReg (r : DevReg) (v : Word) (s : State) : State :=
  match r with
  | .dsave die => dieUpd s die.val fun d => { d with dsave := v &&& 0x00FFFFFFFFF00FFF }
  | .sem core => onCore core (fun s => s.mapCore fun c => { c with semMap := semMerge c v }) s
  | .lct core => onCore core (fun s => s.mapCore fun c => { c with lct := lctMerge c.lct v }) s
  | .feat => if s.launches.all (·.retired) then { s with feat := v.setWidth 6 } else s
  | .cctl core n => passTicks 1 <| onCore core (fun s => s.mapM (ctrUpd n fun c =>
      { c with cctl := v &&& 0x80FC00000003FFFF })) s
  | .count core n => onCore core (fun s => s.mapM (ctrUpd n fun c => { c with count := v })) s
  | .tena core n => onCore core (fun s => s.mapM (ctrUpd n fun c => { c with tena := v })) s
  | .trun core n => onCore core (fun s => s.mapM (ctrUpd n fun c => { c with trun := v })) s
  | .mrot core => passTicks 1 <| onCore core (fun s => s.mapM fun m => { m with mrot := mrotMerge m.mrot v }) s
  | .tbase core => onCore core (fun s => s.mapM fun m => { m with tbase := v &&& ~~~0xFFF }) s
  | .tctl core => onCore core (fun s => traceDrain (s.mapM (tctlWrite v))) s
  | .ktt core => onCore core (fun s => s.mapCore fun c => { c with
      kttReg := v &&& 0x00FFFFFFFFFFF1FF, ktt := if v.getLsbD 8 then c.ktt else [] }) s
  | .launchWindow die =>
    if v.getLsbD 0 then dieUpd s die.val fun d => { d with opened := true, queues := Vector.replicate 64 LQueue.reset } else s
  | .window .. | .disp .. => s
/-- The register of a core's measurement block that a write at a word of it reaches (R473, R475); the others are read-only or
reserved, but for `MCLR`. -/
def blockReg (core i : Nat) : Option DevReg :=
  if 128 ≤ i && i < 192 then
    let n := Fin.ofNat 16 ((i - 128) / 4)
    some (match (i - 128) % 4 with
      | 0 => .cctl core n
      | 1 => .count core n
      | 2 => .tena core n
      | _ => .trun core n)
  else if i = 224 then some (.mrot core)
  else if i = 225 then some (.tbase core)
  else if i = 226 then some (.tctl core)
  else none
/-- A level's words: `FILL`, `NOPS` and the seven stall counts, then zeros (R474). -/
def laccWord (l : LAcc) (i : Nat) : Word := (l.fill.toList ++ l.nops.toList ++ l.stalls.toList).getD i 0
/-- What the host reads at word `i` of a core's block (R473 to R478). -/
def blockRead (m : Meas) (i : Nat) : Word :=
  if i < 128 then laccWord (m.lacc.get (Fin.ofNat 4 (i / 32))) (i % 32)
  else if i < 192 then
    let c := m.ctrs.get (Fin.ofNat 16 ((i - 128) / 4))
    match (i - 128) % 4 with
    | 0 => c.cctl
    | 1 => c.count
    | 2 => c.tena
    | _ => c.trun
  else if i < 224 then
    let k := Fin.ofNat 16 ((i - 192) / 2)
    if i % 2 = 0 then m.hotB.get k else m.hotS.get k
  else if i = 224 then m.mrot
  else if i = 225 then m.tbase
  else if i = 226 then m.tctl
  else if i = 227 then BitVec.ofNat 64 m.tpos
  else 0
/-- The core whose block an offset of a die's window lies in. -/
def windowCore (die : Fin 4) (off : Nat) : Nat := die.val * 512 + off / 4096
/-- The word of a die's measurement window at an offset, over CXL.io. -/
def windowRead (s : State) (die : Fin 4) (off : Nat) : Word :=
  if validCore (windowCore die off) && off < 512 * 4096 then blockRead (coreOf s (windowCore die off)).m (off % 4096 / 8) else 0
/-- A write at an offset of the window. -/
def windowWrite (die : Fin 4) (off : Nat) (v : Word) (s : State) : State :=
  let k := windowCore die off
  let i := off % 4096 / 8
  if !validCore k || 512 * 4096 ≤ off then s
  else if i = 228 then (if v.getLsbD 0 then onCore k clearMeas (passTicks 1 s) else s)
  else match blockReg k i with
    | some r => coreReg r v s
    | none => s
/-- The dispatcher register of a die at an offset, as firmware reads it (R403 to R407, R457, R481). -/
def dispRead (s : State) (die : Fin 4) (off : Nat) : Word :=
  let d := dieGet s die.val
  match off with
  | 0x000 => d.dcfg
  | 0x008 => d.dsave
  | 0x010 => dfcmdRead s die.val
  | 0x018 => d.ddbg
  | 0x020 => d.dmrt
  | 0x028 => d.ddome
  | 0x030 => d.domeSum
  | 0x038 => d.domeMin
  | 0x040 => d.domeMax
  | 0x048 => d.domeSrc
  | _ => 0
/-- A write at an offset; the results of a Dome reading are read-only. -/
def dispWrite (die : Fin 4) (off : Nat) (v : Word) (s : State) : Host.Outcome State Fault Refusal :=
  let slot := v.setWidth 12
  match off with
  | 0x000 => execDcfgWrite die v s
  | 0x008 => .next (coreReg (.dsave die) v s)
  | 0x010 => match (v.extractLsb' 58 2).toNat with
    | 0 => execDfcmdQuery die slot s
    | 1 => execDfcmdResume die slot s
    | 2 => execDfcmdCancel die slot s
    | _ => .next s
  | 0x018 => match (v.extractLsb' 62 2).toNat with
    | 1 => execDdbgStop die slot s
    | 2 => execDdbgStep die slot s
    | 3 => execDdbgResume die slot s
    | _ => .next (setDdbg die 0 slot s)
  | 0x020 => execDmrtWrite die v s
  | 0x028 => execDomeReadingStart die v s
  | _ => .next s
/-- REGISTER_WRITE: a device register, by firmware or the host. A counter or rotation setting governs from the next
tick (R477); %feat is written only while nothing runs (R441). -/
def execRegisterWrite (r : DevReg) (v : Word) (s : State) : Host.Outcome State Fault Refusal :=
  match r with
  | .window die off => .next (windowWrite die off v s)
  | .disp die off => dispWrite die off v s
  | r => .next (coreReg r v s)

end Sys2Proof.Machine
end

