-- ==== Sys2Proof/Machine/Fabric.lean ====
section
/-! DEFINITION. Belfry time (R472), the homes and their directories (R169 to R173, R190, R191, R197), the host and its
link (R465 to R467), the Eloaby fabric (R468 to R471), dead agents (R429, R430), power, resets and hardware changes
(R13, R433, R482, R483). -/

namespace Sys2Proof.Machine

/-! ## Belfry time (R472, R247) -/

/-- Stands for every package, where no path is left to any. -/
def everyPkg : Nat := 2 ^ 16
/-- Since when no path reaches a package (R471). -/
def lostSince (s : State) (p : Nat) : Option Nat := (s.lost.find? fun x => x.1 == p || x.1 == everyPkg).map (·.2)
def pkgReached (s : State) (p : Nat) : Bool := s.ports != 0 && !s.dead.contains (agentPkg p) && (lostSince s p).isNone
/-- The lowest-numbered of the packages that are reachable is the time source. -/
def timeSource (s : State) : Bool := (List.range s.package).all fun p => !pkgReached s p
/-- BELFRY_BEACON_SEND: the time source sends a beacon every 2^12 ticks. -/
def execBelfryBeaconSend (s : State) : Host.Outcome State Fault Refusal :=
  let due : Bool := match s.lastBeacon with
    | none => true
    | some t => decide (t + 4096 ≤ s.tick)
  .next (if timeSource s && due then
    { s with lastBeacon := some s.tick, beacons := s.beacons + 1, beaconOut := some (s.package, BitVec.ofNat 64 s.tick) } else s)
/-- A pending correction skips or repeats one tick, at most once every 2^10 ticks. -/
def correctTick (s : State) : State :=
  let may : Bool := match s.lastCorr with
    | none => true
    | some t => decide (t + 1024 ≤ s.tick)
  if s.skew = 0 || !may then s
  else if 0 < s.skew then { s with tick := (s.tick + 1) % 2 ^ 64, skew := s.skew - 1, lastCorr := some s.tick }
  else { s with skew := s.skew + 1, lastCorr := some s.tick }
/-- BELFRY_BEACON_RECEIVE: a beacon of the time source, of count `v`, reaches a port: with the path's delay it gives the
difference that is corrected tick by tick, and goes on to the other ports. -/
def execBelfryBeaconReceive (port : Fin 32) (pkg : Nat) (v : Word) (s : State) : Host.Outcome State Fault Refusal :=
  let lowest := pkg < s.package && pkgReached s pkg && (List.range pkg).all fun p => !pkgReached s p
  let now := v + BitVec.ofNat 64 (Config.pathDelay port.val)
  .next (if !s.ports.getLsbD port.val || !lowest then s
    else correctTick { s with
      skew := (now.toNat : Int) - s.tick, lastBeacon := some s.tick, beacons := s.beacons + 1, beaconOut := some (pkg, now) })
/-- BELFRY_STEP_ADVANCE: time reaches the next Belfry step of the die of the core in focus. -/
def execBelfryStepAdvance (s : State) : Host.Outcome State Fault Refusal :=
  let p := 2 ^ bseOf (dieGet s (dieOf s.core.id))
  .next (correctTick (passTicks (p - s.tick % p) s))

/-! ## Tracking across dies (R191) -/

/-- REGION_MERGE: two halves without conflict for 2^20 ticks become one region again: their holders are united, the owning ones
among them, and its last conflict is the later of theirs. -/
def execRegionMerge (base : Nat) (s : State) : Host.Outcome State Fault Refusal :=
  .next (match s.dieRegions.find? fun r => r.base == base with
    | none => s
    | some a =>
      match s.dieRegions.find? fun r => r.base == a.base + 2 ^ a.lsz && r.lsz == a.lsz with
      | none => s
      | some b =>
        if 16 ≤ a.lsz || a.base % 2 ^ (a.lsz + 1) != 0 || s.tick < a.tick + 2 ^ 20 || s.tick < b.tick + 2 ^ 20 then s
        else { s with dieRegions :=
          ⟨a.base, a.lsz + 1, (a.holders ++ b.holders).eraseDups, (a.owners ++ b.owners).eraseDups, max a.tick b.tick⟩
            :: s.dieRegions.filter fun r => r.base != a.base && r.base != b.base })

/-! ## The homes (R171, R172, R190) -/

/-- The host as a requester. -/
def hostCluster : Nat := 32
/-- The host takes a line: shared, or as its owner. -/
def hostTake (key : Nat) (own : Bool) (s : State) : State :=
  let s1 := if own then l2Inval (flushOwner s key) none key
    else { s with dir := s.dir.map fun x =>
      if x.key == key then { x with st := match x.st with
        | .M => .O
        | .E => .S
        | y => y } else x }
  { s1 with hostHeld := (key, own) :: s1.hostHeld.filter (·.1 != key) }
/-- A fill or an ownership request of a cluster, or of the host, at the home. -/
def homeReq (cluster key : Nat) (own : Bool) (s : State) : State :=
  if leased key then s
  else if hostCluster ≤ cluster then hostTake key own s
  else
    let s0 := l2Fill (if own then trackRegion (cluster / 8) key true s else s) s.core.lct cluster key none
    if own && (l2Find s0 cluster key).isSome then dirSet (l2Inval (flushOwner s0 key) (some cluster) key) cluster key .M
    else s0
/-- HOME_REQUEST. -/
def execHomeRequest (cluster : Nat) (key : Nat) (own : Bool) (s : State) : Host.Outcome State Fault Refusal :=
  .next (homeReq cluster key own s)
/-- One of two requests that met, served at the home. -/
def serveSnoop (key : Nat) (r : SnoopReq) (s : State) : State :=
  match r.kind with
  | .read => homeReq r.cluster key false s
  | .own => homeReq r.cluster key true s
  | .maskedWrite => l2Push s r.cluster key
  | .atomic core => onCore core (fun s =>
      (s.core.pend.filter fun p => atomKey p == some key).foldl (fun s p => performLine p s) s) s
/-- SNOOP_CONFLICT: an agent with a request pending for a line receives a snoop for it, or two ownership requests meet. The home
orders the two by tick of issue, die and source in deterministic mode or when they arrive in one cycle, else by arrival; the
later one is replayed after the earlier one (R197). -/
def execSnoopConflict (first second : SnoopReq) (key : Nat) (s : State) : Host.Outcome State Fault Refusal :=
  let one := Config.freeBits 1 s.fresh == 1
  let det := s.launches.any fun l => l.det && !l.retired
  let k (x : SnoopReq) : Nat × Nat × Nat := (x.tick.toNat, x.cluster / 8, x.src)
  let a := k first
  let b := k second
  let swap := b.1 < a.1 || (b.1 == a.1 && (b.2.1 < a.2.1 || (b.2.1 == a.2.1 && b.2.2 < a.2.2)))
  let s1 := if det then s else s.bump
  .next (if (det || one) && swap then serveSnoop key first (serveSnoop key second s1)
    else serveSnoop key second (serveSnoop key first s1))
/-- HOME_MASKED_WRITE: a push replaces exactly its bytes (R171, R173). -/
def execHomeMaskedWrite (cluster : Nat) (key : Nat) (s : State) : Host.Outcome State Fault Refusal :=
  .next (l2Push s cluster key)
/-- L2_EVICTION: marked bytes go home, then the line leaves, unless it is pinned (R171, R306). -/
def execL2Eviction (cluster : Nat) (key : Nat) (s : State) : Host.Outcome State Fault Refusal :=
  .next (if pinnedLine s cluster key then s else l2Forget cluster key (l2Push s cluster key))
/-- L2_INVALIDATE: the unmarked bytes go, the marked stay (R172). No home invalidates a lease copy (R193). -/
def execL2Invalidate (cluster : Nat) (key : Nat) (s : State) : Host.Outcome State Fault Refusal :=
  .next (if leased key then s else l2Forget cluster key s)
/-- CORE_WRITEBACK: a line's dirty bytes reach the overlay at a moment the core chooses, and an L1D line may leave; a
line with an earlier atomic still to be performed keeps its younger bytes (R160, R163, R169, R189). -/
def execCoreWriteback (core : Nat) (key : Nat) (evict : Bool) (s : State) : Host.Outcome State Fault Refusal :=
  .next (onCore core (fun s =>
    if unperformed s.core key then s
    else
      let s1 := writeBack s key
      if evict && (mapOfKey s.core.maps key).isNone then s1.mapCore fun c => lineDrop c key else s1) s)
/-- The write-back part of a stash operation in flight. -/
def stashAck (f : Flight) (s : State) : State :=
  let out (base lsz : Nat) (s : State) : State :=
    ((s.core.lines.filter fun l => base ≤ 64 * l.key && 64 * l.key < base + 2 ^ lsz).map (·.key)).foldl writeBack s
  match f.dest with
  | .stash (.smap _ va lsz) => match kttFind s.core.ktt va (2 ^ lsz) with
    | some e => out (kttKey e va) lsz s
    | none => s
  | .stash (.sunmap off) => match mapOfOff s.core.maps off with
    | some m => out m.key m.lsz s
    | none => s
  | _ => s
/-- STASH_WRITEBACK_ACKNOWLEDGED: the write-backs of the SMAP and SUNMAP in issue are acknowledged; the end of the step
then enters or removes the mapping (R300, R301). -/
def execStashWritebackAcknowledged (core : Nat) (s : State) : Host.Outcome State Fault Refusal :=
  .next (onCore core (fun s => s.core.flights.foldl (fun s f => stashAck f s) s) s)

/-! ## The host's accesses (R20, R465) -/

def windowBytes : Nat := 0x40000
/-- Every queue whose head line now holds a valid record fires. -/
def fireAll (tick : Nat) (d : Die) : Die := (List.range 64).foldl (fun d q => fireIf q tick d) d
/-- HOST_MEM_WRITE: bytes to a die's launch window, once firmware has opened it (R483), or to device memory. -/
def execHostMemWrite (die : Fin 4) (window : Bool) (addr : Nat) (data : List Byte) (s : State) :
    Host.Outcome State Fault Refusal :=
  .next (if !moduleUp (s.modules.get die) then s
    else if window then
      (if (dieGet s die.val).opened && addr + data.length ≤ windowBytes then
        dieUpd s die.val fun d =>
          let w := Mem.putBytes d.window addr data
          fireAll s.tick { d with window := w, valids := noteValids addr data.length d.window w d.valids }
      else s)
    else if addr + data.length ≤ deviceBytes then homeBytesPut addr data s
    else s)
/-- HOST_MEM_READ: a line read over CXL.mem is served by the home, and its owner keeps it shared. -/
def execHostMemRead (die : Fin 4) (window : Bool) (addr n : Nat) (s : State) : Host.Outcome State Fault Refusal :=
  .next (if window || !moduleUp (s.modules.get die) || deviceBytes < addr + n then s
    else (keysOf ((List.range n).map (addr + ·))).foldl (fun s k => hostTake k false s) s)

/-! ## Links (R466, R467) -/

def modUpd (m : Fin 4) (f : Module → Module) (s : State) : State :=
  { s with modules := s.modules.set m.val (f (s.modules.get m)) m.isLt }
/-- A CRC failure: more than 8 within 2^16 ticks, with the lanes repaired, make the module retrain. -/
def crcFail (tick : Nat) (m : Module) : Module :=
  let l := (tick :: m.crcFails).filter fun t => tick < t + 2 ^ 16
  { m with replay := true, crcFails := l, training := m.training || (m.repaired && 8 < l.length && m.width == 64) }
/-- The bytes of a request lie in device memory. -/
def inDevice (addr n : Nat) : Bool := decide (addr + n ≤ deviceBytes)
/-- The bytes a request reads or writes fit in a flit of 256 (R464; log entry 52). -/
def flitFits : Option FarReq → Bool
  | some (.read _ n) => n ≤ 256
  | some (.write _ b) => b.length ≤ 256
  | _ => true
/-- The first byte a request names. -/
def farAddr : FarReq → Nat
  | .read a _ | .write a _ | .atomic _ _ a .. | .ordAtomic _ _ a .. | .cwadd a _ | .release _ a .. => a
/-- CWADD's update of a word for an agent outside the clusters, at the home (R322). -/
def homeCwadd (a : Nat) (v : Word) (s : State) : State :=
  if (homeErr s (lineKey a)).isSome then s else noteBarrier a v (homeWordPut a (cwaddNew (homeWord s a) v) s)
/-- The release of a sync object for such an agent: steps 4 and 5 of R180 and R181. -/
def homeRelease (full : Bool) (a : Nat) (v : Word) (sg : Sig) (s : State) : State :=
  if (objErr s a).isSome then s
  else
    let old := homeBytesGet s a 128
    homeBytesPut a (objBytes (releaseNew full v sg (objOf old)) old) s
/-- A request of the host or of another package's agent is executed once, at the home (R466, R469); what it answers. An ordered
atomic goes to its slice, and answers when it is performed. -/
def farDo (host : Bool) (pkg src : Nat) (r : FarReq) (s : State) : List Byte × State :=
  match r with
  | .read a n =>
    if !inDevice a n then ([], s)
    else (homeBytesGet s a n, if host then (keysOf ((List.range n).map (a + ·))).foldl (fun s k => hostTake k false s) s else s)
  | .write a b => ([], if inDevice a b.length then homeBytesPut a b s else s)
  | .atomic op z a x x2 =>
    if inDevice a (aszBytes z) then (homeBytesGet s a (aszBytes z), homeAtomic op z a x x2 s) else ([], s)
  | .ordAtomic op z a x x2 n step =>
    let sl := homeSlice0 + homeSliceOf (lineKey a)
    ([], { s with ordSent := s.ordSent ++ [⟨sl, ⟨farCore pkg src, 0, n, step, some (op, z, a, x, x2)⟩⟩] })
  | .cwadd a v => if inDevice a 8 then (homeBytesGet s a 8, homeCwadd a v s) else ([], s)
  | .release full a v sg => ([], if inDevice a 128 then homeRelease full a v sg s else s)
/-- The request is answered at once: every one is, but an ordered atomic, which waits in its slice. -/
def answers : Option FarReq → Bool
  | none | some (.ordAtomic ..) => false
  | _ => true
/-- FLIT_RECEIVE: a good flit with the next number is accepted and its request executed once; its answer goes back, and is kept
in the replay buffer of 128 until acknowledged; one already accepted is discarded; a bad CRC or a gap requests replay. A
request whose answer finds no place there is left to the sender: log entry 52. -/
def execFlitReceive (module : Fin 4) (seq : Nat) (crcGood : Bool) (flit : Flit) (s : State) :
    Host.Outcome State Fault Refusal :=
  .next (if !moduleUp (s.modules.get module) || !flitFits flit.req then s
    else if !crcGood then modUpd module (crcFail s.tick) s
    else
      let s1 := modUpd module (fun m => { m with out := m.out.filter fun x => flit.ack ≤ x.1 }) s
      let m := s1.modules.get module
      if seq < m.expected then s1
      else if m.expected < seq || (answers flit.req && replayCap ≤ m.out.length) then
        modUpd module (fun m => { m with replay := true }) s1
      else
        let s2 := modUpd module (fun m => { m with expected := m.expected + 1, acked := m.expected + 1, replay := false }) s1
        match flit.req with
        | none => s2
        | some r =>
          let q := farDo true 1024 (moduleSrc module.val) r s2
          if answers flit.req then sendFlit module q.1 q.2 else q.2)
/-- LINK_REPLAY: the sender starts again at the oldest flit not acknowledged. -/
def execLinkReplay (module : Fin 4) (s : State) : Host.Outcome State Fault Refusal :=
  .next (if moduleUp (s.modules.get module) then modUpd module (fun m => { m with replay := false, expected := m.acked }) s else s)
/-- LANE_FAIL: a redundant lane repairs it, or the module retrains to ×32. -/
def execLaneFail (module : Fin 4) (s : State) : Host.Outcome State Fault Refusal :=
  .next (modUpd module (fun m =>
    if m.spareLanes = 0 then { m with training := true }
    else { m with spareLanes := m.spareLanes - 1, repaired := true, crcFails := [] }) s)
/-- MODULE_RETRAIN_END: traffic resumes at ×32, or the requests pending on the module fail with cause 0x13. -/
def execModuleRetrainEnd (module : Fin 4) (ok : Bool) (s : State) : Host.Outcome State Fault Refusal :=
  .next (if !(s.modules.get module).training then s
    else if ok then modUpd module (fun m => { m with training := false, width := 32, replay := true, crcFails := [] }) s
    else failItems (fun c => cmdDie c == module.val) agentHost 0x13
      (failOps (fun s p => dieOf s.core.id == module.val && toward agentHost s p) 0x13
        (failFills (fun k => dieOf k == module.val) agentHost 0x13
          (modUpd module (fun m => { m with training := false, downAt := some s.tick }) s))))

/-! ## The Eloaby fabric (R468 to R471) -/

def flowNext (s : State) (f : Nat × Nat × Nat) : BitVec 16 := ((s.flows.find? fun x => x.flow == f).map (·.expected)).getD 0
/-- What was refused at a port may be sent again: the port has made progress (R470). -/
def portProgress (port : Fin 32) (s : State) : State :=
  { s with refusedPkts := s.refusedPkts.map fun q => if q.port == port then { q with waits := false } else q }
/-- Apply a packet: its request at the home, which sends its answer back in the flow toward the request's source, and the flow's
next number. -/
def applyPkt (p : Pkt) (s : State) : State :=
  let done := (farDo false p.flow.1 p.flow.2.1 p.req s).2
  let s1 := portProgress p.port (if answers (some p.req) then
    sendNum (sliceSrc (homeSliceOf (lineKey (farAddr p.req)))) (farDst p.flow.1 p.flow.2.1) done else done)
  { s1 with
    flows := ⟨p.flow, p.num + 1⟩ :: s1.flows.filter fun x => x.flow != p.flow
    reorder := s1.reorder.filter fun q => !(q.flow == p.flow && q.num == p.num) }
/-- Apply what the reorder buffers hold next of a flow. -/
def drainFlow (f : Nat × Nat × Nat) : Nat → State → State
  | 0, s => s
  | n + 1, s => match s.reorder.find? fun p => p.flow == f && p.num == flowNext s f with
    | some p => drainFlow f n (applyPkt p s)
    | none => s
/-- A packet at its destination port: the next of its flow is applied, a duplicate discarded, another held in the port's buffer
of 512 or refused. -/
def admitPkt (p : Pkt) (s : State) : State :=
  let ahead := (p.num - flowNext s p.flow).toNat
  let same (q : Pkt) : Bool := q.flow == p.flow && q.num == p.num
  let rest := s.refusedPkts.filter fun q => !same q
  if ahead = 0 then drainFlow p.flow 512 (applyPkt p { s with refusedPkts := rest })
  else if 0x8000 ≤ ahead || s.reorder.any same then { s with refusedPkts := rest }
  else if 256 < ahead || 512 ≤ (s.reorder.filter fun q => q.port == p.port).length then
    { s with refusedPkts := if s.refusedPkts.any same then s.refusedPkts.map fun q => if same q then { q with waits := true } else q
        else s.refusedPkts ++ [{ p with waits := true }] }
  else { s with reorder := s.reorder ++ [p], refusedPkts := rest }
/-- PACKET_RECEIVE; a packet of an old incarnation of its sender is discarded and logged (R429). -/
def execPacketReceive (flow : PortFlow) (seq : BitVec 16) (incarnation : Byte) (req : FarReq) (s : State) :
    Host.Outcome State Fault Refusal :=
  let port := flow.port
  .next (if !s.ports.getLsbD port.val then s
    else if incarnOf s (agentPkg flow.flow.1) != incarnation then
      record (port.val / 8) (port.val / 8 * 1024 + 664 + port.val % 8) 0x84 0 (BitVec.ofNat 64 (flow.flow.1 * 2 ^ 16 + flow.flow.2.1))
        (incarnation.setWidth 64) s
    else admitPkt ⟨port, flow.flow, seq, req, false⟩ s)
/-- PACKET_RETRY: the oldest refused packet of a flow is sent again, once its port has signalled progress. -/
def execPacketRetry (flow : PortFlow) (s : State) : Host.Outcome State Fault Refusal :=
  .next (match s.refusedPkts.find? fun p => p.flow == flow.flow && p.port == flow.port with
    | none => s
    | some p => if p.waits then s else admitPkt p s)
/-- PORT_FAIL: the flows of the port, and what it holds of them, go on through the die's others; no flow loses its numbering.
`loss` names the packages that no path reaches any more, which is the fabric's to know (R471). -/
def execPortFail (loss : PortLoss) (s : State) : Host.Outcome State Fault Refusal :=
  let port := loss.port
  let up := s.ports &&& ~~~(1#32 <<< port.val)
  let next := ((List.finRange 32).find? fun k => k.val / 8 == port.val / 8 && up.getLsbD k.val).getD port
  let move (p : Pkt) : Pkt := if p.port == port then { p with port := next } else p
  let gone := if up == 0 then loss.lost ++ [everyPkg] else loss.lost
  .next { s with
    ports := up
    reorder := s.reorder.map move, refusedPkts := s.refusedPkts.map move
    lost := s.lost ++ (gone.filter fun p => !(s.lost.any fun x => x.1 == p)).map fun p => (p, s.tick) }

/-! ## Dead agents (R429, R430, R471) -/

/-- An agent may be declared dead: a core that has been disabled, the host when a link has been down for 2^20 ticks, another
package when no path has reached it for as long. -/
def mayDie (s : State) (a : Nat) : Bool :=
  let past (t : Option Nat) : Bool := match t with
    | some t => decide (t + 2 ^ 20 ≤ s.tick)
    | none => false
  !s.dead.contains a &&
  (if a = agentHost then (List.finRange 4).any fun m => past (s.modules.get m).downAt
    else if a < 2048 then (coreOf s a).disabled
    else agentPkg 0 ≤ a && a != agentPkg s.package && past (lostSince s (a - agentPkg 0)))
/-- AGENT_DECLARED_DEAD: requests pending toward a package fail with 0x13 while other paths remain, else with 0x12. -/
def execAgentDeclaredDead (agent : Nat) (s : State) : Host.Outcome State Fault Refusal :=
  .next (if mayDie s agent then
    let cause : Byte := if agentPkg 0 ≤ agent && agent != agentHost && s.ports != 0 then 0x13 else 0x12
    declareDead agent cause (failItems (fun _ => true) agent cause (failFills (fun _ => true) agent cause s))
  else s)

/-! ## Power, resets, hardware changes -/

/-- COLD_RESET; the package keeps its number, and the model its order of events. -/
def execColdReset (s : State) : Host.Outcome State Fault Refusal :=
  .next { State.reset with package := s.package, script := s.script, fresh := s.fresh }
/-- A core after warm reset: one that was disabled without replacement stays so until cold reset (R14). -/
def Core.warm (c : Core) : Core := { Core.reset c.id with disabled := c.disabled }
/-- WARM_RESET: the Gecko recorder with its numbering, the modules' widths, the memories and what retirements have used up stay;
all else is as after cold reset (R14, R433, R483). -/
def execWarmReset (s : State) : Host.Outcome State Fault Refusal :=
  .next { State.reset with
    core := s.core.warm, others := (s.others.map Core.warm).filter fun c => c != Core.reset c.id
    package := s.package, script := s.script, fresh := s.fresh, tick := s.tick, home := s.home, poison := s.poison
    spad := s.spad, trapSeqs := s.trapSeqs, images := s.images, incarn := s.incarn
    dead := s.dead.filter fun a => a < 2048 && (coreOf s a).disabled
    dies := vecOf 4 fun i => { Die.reset with
      gecko := (s.dies.get i).gecko, gcount := (s.dies.get i).gcount, spares := (s.dies.get i).spares }
    modules := vecOf 4 fun i => { Module.reset with width := (s.modules.get i).width } }
/-- A retirement; an open region is undone first (R14, R396). -/
def retireNow (s : State) : State := if regionOpen s.core then unwindTo thenRetire s else retireCore s
/-- INSTANCE_DISABLED: unit 0 is control, 1 and 2 scalar, 3 and 4 memory, 5 and 6 vector, 7 matrix. Firmware binds both
slots of a class to the instance that is left; with none left the core is retired (R13). -/
def execInstanceDisabled (core : Nat) (unit : Fin 8) (s : State) : Host.Outcome State Fault Refusal :=
  .next (onCore core (fun s =>
    if unit = 0 ∨ unit = 7 then retireNow s
    else
      let i := unit.val - 1
      let dis := s.core.semDis ||| (1#6 <<< i)
      let pairBits : BitVec 6 := 3#6 <<< (i / 2 * 2)
      if dis &&& pairBits == pairBits then retireNow { s with core := { s.core with semDis := dis } }
      else { s with core := { s.core with
        semDis := dis
        -- both slots of the class to the instance that is left
        semMap := if i % 2 = 0 then s.core.semMap ||| pairBits else s.core.semMap &&& ~~~pairBits } }) s)

end Sys2Proof.Machine
end

