-- ==== Sys2Proof/Machine/Issue.lean ====
section
/-! DEFINITION. The issue of a bundle (R94 to R122, R202 to R218, R486): fetch, the stalls, the checks, what a bundle does
in an open region (R238, R239, R378 to R391), in a gang (R44 to R46, R230, R487), and the end of its step. -/

namespace Sys2Proof.Machine

/-! ## Fetch (R249, R283, R425) -/

/-- The check of an instruction fetch at the bundle's address. -/
def fetchCheck (s : State) (pc : Word) : Except Byte KEntry :=
  if 2 ^ 56 < pc.toNat + 64 then .error 0x09
  else
    match kttFind s.core.ktt pc.toNat 64 with
    | none => .error 0x05
    | some e => if !e.x then .error 0x07 else if e.absent then .error 0x06 else .ok e
/-- A store of `n` bundles keeps the newest: the L1 instruction cache 1,024, the loop buffer 256 (R1; log entry 44). -/
def keepCopy (n : Nat) (l : List (Word × BundleBits)) (pc : Word) (b : BundleBits) : List (Word × BundleBits) :=
  ((pc, b) :: l.filter fun x => x.1 != pc).take n
/-- The bundle of a loop body that the loop buffer holds: it takes no fetch miss (R233). -/
def loopCopy (c : Core) (pc : Word) : Option BundleBits :=
  if (levelOf c.a pc).isSome then (c.loopBuf.find? fun x => x.1 == pc).map (·.2) else none
/-- A bundle of a loop body enters the loop buffer as it is fetched (R233). -/
def keepLoop (pc : Word) (b : BundleBits) (s : State) : State :=
  if (levelOf s.core.a pc).isSome then s.mapCore fun c => { c with loopBuf := keepCopy 256 c.loopBuf pc b } else s
/-- The cores of the other members of the gang. -/
def gangMates (s : State) (t : Task) : List Core :=
  ((s.tasks.filter fun x => x.gang == t.gang && x.id != t.id && x.st != .ended).filterMap (·.core)).map (coreOf s)
def skewOf (s : State) (t : Task) : Nat := ((launchFind s t.launch).map (·.gskew)).getD 0
/-- A stall of `n` cycles of the core in focus stalls the other members of its gang as long, charged as a freeze (R44, R474); one
that every member has at the same bundle, in the same cycles where the skew is 0, is not charged to them again. -/
def mateStall (each : Bool) (n : Nat) (s : State) : State :=
  match curTask s with
  | none => s
  | some t =>
    if t.gsize ≤ 1 || (each && skewOf s t = 0) then s
    else ((gangMates s t).map (·.id)).foldl (fun s k => onCore k (chargeStall .freeze n) s) s
/-- The bundle as the L2 and the levels below give it, after the cycles of a miss; the core keeps a copy. -/
def fetchBelow (e : KEntry) (pc : Word) (s : State) : Except Byte BundleBits × State :=
  let key := lineKey (kttKey e pc.toNat)
  let cl := clusterOf s.core.id
  let cls := classOf e none
  match homeErr s key with
  | some c => (.error c, s)
  | none =>
    let s1 := l2Fill s s.core.lct cl key cls
    let b : BundleBits := l2Read s1 s1.core.lct cl key cls
    let s2 := mateStall false (Config.freeBits 32 s1.fresh).toNat (frozen s1)
    (.ok b, keepLoop pc b (s2.mapCore fun c => { c with icopies := keepCopy 1024 c.icopies pc b }))
/-- A held copy serves the fetch at the pc. -/
def fetchHit (s : State) : Bool :=
  (loopCopy s.core s.core.pc).isSome || ((s.core.icopies.any fun x => x.1 == s.core.pc) && Config.freeBits 1 s.fresh == 1)
/-- The fetch misses, and no path reaches the home of its line at present (R467, R471). -/
def fetchWaits (s : State) : Bool :=
  !fetchHit s && match fetchCheck s s.core.pc with
    | .error _ => false
    | .ok e => !reach s (dieOf s.core.id) (lineKey (kttKey e s.core.pc.toNat))
/-- The loop buffer serves a loop body's bundle; another held copy may serve the fetch, or not: a free choice (R249). -/
def fetch (s : State) : Except Byte BundleBits × State :=
  let pc := s.core.pc
  match fetchCheck s pc with
  | .error c => (.error c, s)
  | .ok e =>
    match loopCopy s.core pc with
    | some b => (.ok b, s)
    | none =>
      match s.core.icopies.find? fun x => x.1 == pc with
      | none => fetchBelow e pc s
      | some x => if Config.freeBits 1 s.fresh == 1 then (.ok x.2, keepLoop pc x.2 s.bump) else fetchBelow e pc s.bump

/-! ## Match-and-replace (R459, R460) and the checks of R117 -/

/-- The substitute words of slot `k`, when an entry of the die's table matches it. -/
def mrWords? (s : State) (b : BundleBits) (k : Nat) : Option (List SlotWord) :=
  if k = 0 || k = 7 || !(hOcc (headerOf b)).getLsbD k then none
  else
    ((dieGet s (dieOf s.core.id)).mr.find? fun e =>
      let c := (e.mctl.extractLsb' 8 2).toNat
      e.mctl.getLsbD k && (c == 0 || (c == 1 && s.core.sp.latcls == 4) || (c == 2 && s.core.sp.latcls == 6))
        && (slotOf b k).setWidth 64 &&& e.mmsk == e.mval && headerOf b &&& e.mhmsk == e.mhval).map (·.words)

/-- A stop found at issue: its slot (8 for the header), cause and value. -/
structure Stop where
  slot : Nat
  cause : Byte
  val : Word
deriving DecidableEq, Repr
/-- A slot's words as they issue. -/
structure SlotOps where
  slot : Fin 8
  ops : List (SlotWord × Instr)
  /-- the words of the match-and-replace table stand for the slot's own -/
  subst : Bool := false
deriving DecidableEq, Repr

/-- Checks 1 to 5. -/
def headerStop (h : Word) : Option Byte :=
  let ports := (List.range 6).map (hPort h)
  if hClass h != 0 && hClass h != 1 then some 0x01
  else if 4 < (hScope h).toNat then some 0x01
  else if hRun h != 0 && hClass h == 0 then some 0x02
  else if ports.any fun p => p.getLsbD 4 && 10 ≤ (p.extractLsb' 0 4).toNat then some 0x01
  else if ports.any fun p => !p.getLsbD 4 && p != 0 then some 0x02
  else none
/-- The consumers the enabled ports name (R97). -/
def portCodes (h : Word) : List Nat :=
  ((List.range 6).map (hPort h)).filterMap fun p => if p.getLsbD 4 then some (p.extractLsb' 0 4).toNat else none
/-- The consumer code of a vector source of slot `k` at field position `p`. -/
def consumer (k p : Nat) : Nat := if k = 3 then 0 else if k = 4 then 1 else if k = 5 then 2 + p else if k = 6 then 5 + p else 8 + p
/-- A vector-register source of a slot has no port. -/
def portless (codes : List Nat) (k : Nat) (i : Instr) : Bool :=
  (opnds i).vs.any fun v => v.2.isReg && !codes.contains (consumer k v.1)

def predDst : Instr → List (Dst 16)
  | .cmp _ _ d _ _ | .cmpImm _ _ d _ _ | .pfroms _ d _ | .vcmp _ _ _ d _ _ | .vfcmp _ _ _ d _ _ => [d]
  | .pand x | .por x | .pxor x | .pandn x => [x.d]
  | .pnot x => [x.d]
  | _ => []
/-- An operation of slots 3 and 4. -/
def memSlot (i : Instr) : Bool :=
  match encode i with
  | some w => 0x18 ≤ opcMajor w && opcMajor w ≤ 0x27
  | none => false
def isQstat : Instr → Bool
  | .qstat .. => true
  | _ => false
/-- What a substitute word before the last must be: a null destination, no token, no memory, no engine (R460). -/
def chainOk (i : Instr) : Bool :=
  let o := opnds i
  o.tok.isNone && (!memSlot i || isQstat i) && o.ds.all (· == .null) && o.dv.all (· == .null) && (predDst i).all (· == .null)

/-- A code of the selected %fmtt entry names a format that %feat disables (R442). -/
def fmttDisabled (s : State) (lc : BitVec 32) : Bool :=
  let e : BitVec 16 := s.core.sp.fmtt.extractLsb' (16 * (lc.toNat % 64)) 16
  let off (c : Nat) : Bool := (c == 1 && !s.feat.getLsbD 0) || (c == 2 && !s.feat.getLsbD 1)
  off (e.extractLsb' 14 2).toNat || off (e.extractLsb' 12 2).toNat
/-- The entry of %fmtt an operation selects is refused by check 8, as an `XMOD` not listed is: any that gives MACC no
format (R147), and one of a format that %feat disables (R442). -/
def fmttIllegal (s : State) : Instr → Bool
  | .macc _ _ _ f _ _ => (maccPair s f).isNone
  | .vquantF _ _ _ k _ => fmttDisabled s (s.core.a.lc.get k)
  | _ => false
/-- The cause of a slot's word on which check 9 would fail: check 8 comes first, with the entry of %fmtt it selects (R117). -/
def reservedCause (s : State) (w : SlotWord) : Byte :=
  if (decodeOp w).any fun f => fmttIllegal s f.val then 0x01 else 0x02
/-- Checks 6 to 9 of one slot; any fault of a substitute word is cause 0x01 with that word. -/
def slotChecks (s : State) (b : BundleBits) (k : Fin 8) : Except Stop SlotOps :=
  let w0 := slotOf b k.val
  if !(hOcc (headerOf b)).getLsbD k.val then
    (if w0 != 0 then .error ⟨k.val, 0x02, w0.setWidth 64⟩ else .ok { slot := k, ops := [] })
  else
    match mrWords? s b k.val with
    | none =>
      match decodeSlot s.feat k.val w0 with
      | .error .illegal => .error ⟨k.val, 0x01, w0.setWidth 64⟩
      | .error .reserved => .error ⟨k.val, reservedCause s w0, w0.setWidth 64⟩
      | .ok i => if fmttIllegal s i then .error ⟨k.val, 0x01, w0.setWidth 64⟩ else .ok { slot := k, ops := [(w0, i)] }
    | some ws =>
      (List.range ws.length).foldl (fun acc j =>
        match acc, ws[j]? with
        | .ok o, some w =>
          match decodeSlot s.feat k.val w with
          | .error _ => .error ⟨k.val, 0x01, w.setWidth 64⟩
          | .ok i =>
            if (j + 1 < ws.length && !chainOk i) || fmttIllegal s i then .error ⟨k.val, 0x01, w.setWidth 64⟩
            else .ok { o with ops := o.ops ++ [(w, i)] }
        | a, _ => a) (.ok { slot := k, ops := [], subst := true })
def allSlots (s : State) (b : BundleBits) : List (Fin 8) → Except Stop (List SlotOps)
  | [] => .ok []
  | k :: r =>
    match slotChecks s b k with
    | .error e => .error e
    | .ok o => match allSlots s b r with
      | .error e => .error e
      | .ok l => .ok (if o.ops.isEmpty then l else o :: l)
/-- Check 10 on a slot whose source lacks a port; a substitute word's fault is cause 0x01 with that word (R460). -/
def portStop (b : BundleBits) (codes : List Nat) (o : SlotOps) : Stop :=
  let own : Stop := ⟨o.slot.val, 0x03, (slotOf b o.slot.val).setWidth 64⟩
  if o.subst then match o.ops.find? fun x => portless codes o.slot.val x.2 with
    | some x => ⟨o.slot.val, 0x01, x.1.setWidth 64⟩
    | none => own
  else own
/-- The checks of R117, in order. -/
def checks (s : State) (b : BundleBits) : Except Stop (List SlotOps) :=
  let h := headerOf b
  match headerStop h with
  | some c => .error ⟨8, c, h⟩
  | none =>
    let codes := portCodes h
    match allSlots s b (List.finRange 8) with
    | .error e => .error e
    | .ok l =>
      if codes.eraseDups.length != codes.length then .error ⟨8, 0x03, h⟩
      else
        match l.find? fun o => o.ops.any fun x => portless codes o.slot.val x.2 with
        | some o => .error (portStop b codes o)
        | none => .ok l

/-! ## Tokens, deferred errors, hazards (R210 to R213, R285) -/

def tokPending (c : Core) (k : Nat) : Bool := c.pend.any fun p => p.tok.val == k
def tokHeld (s : State) (k : Nat) : Bool := s.core.pend.any fun p => p.tok.val == k && p.rgn && isHeldTok s p
/-- Pending tokens the header awaits. -/
def awaited (s : State) (b : BundleBits) : List Nat :=
  (List.range 8).filter fun k => (hAwait (headerOf b)).getLsbD k && tokPending s.core k
/-- Pending tokens the bundle's enabled operations name, before any replacement (R486 step 2). -/
def renamed (s : State) (b : BundleBits) : List Nat :=
  (List.range 8).filterMap fun k =>
    if (hOcc (headerOf b)).getLsbD k && !s.core.sp.done.getLsbD k then
      match decodeSlot s.feat k (slotOf b k) with
      | .ok i => match (opnds i).tok with
        | some t => if !disabled s i && tokPending s.core t.val then some t.val else none
        | none => none
      | .error _ => none
    else none
/-- The stream an instruction names. -/
def namedQ : Instr → List (Fin 8)
  | .qbind _ k _ | .qunbind _ k | .qflush _ k | .qstat _ _ k => [k]
  | _ => []
/-- The registers and streams an operation reads or names as destination (R213, R285). -/
def touched (s : State) (i : Instr) : List RDst :=
  let o := opnds i
  let sreg (a : Src 64) : Option RDst := match a with
    | .reg i => some (.s i)
    | _ => none
  let vreg (a : Nat × Src 128) : Option RDst := match a.2 with
    | .reg i => some (.v (physV s.core.a.vrb i))
    | _ => none
  let sdst (a : Dst 64) : Option RDst := match a with
    | .reg i => some (.s i)
    | _ => none
  let vdst (a : Dst 128) : Option RDst := match a with
    | .reg i => some (.v (physV s.core.a.vrb i))
    | _ => none
  o.ss.filterMap sreg ++ o.vs.filterMap vreg ++ o.regs.map RDst.s ++ o.ds.filterMap sdst ++ o.dv.filterMap vdst
    ++ (vsStreams o ++ dvStreams o ++ namedQ i).map RDst.q
def slotTouched (s : State) (o : SlotOps) : List RDst := o.ops.flatMap fun x => touched s x.2
/-- The slots that have not committed. -/
def todo (s : State) (l : List SlotOps) : List SlotOps := l.filter fun o => !s.core.sp.done.getLsbD o.slot.val
def opsOf (l : List SlotOps) : List (Fin 8 × Instr) := l.flatMap fun o => o.ops.map fun x => (o.slot, x.2)
/-- The first deferred error the bundle meets. A bundle that issues again has passed its awaits. -/
def errMet (s : State) (b : BundleBits) (l : List SlotOps) : Option Deferred :=
  let regs := (todo s l).flatMap (slotTouched s)
  let met (e : Deferred) : Bool :=
    (match e.tok with
      | some k => s.core.sp.done == 0 && (hAwait (headerOf b)).getLsbD k.val
      | none => false)
    || (match e.dst with
      | some d => regs.contains d
      | none => false)
  (s.core.errs.filter met).foldl (fun acc e => match acc with
    | none => some e
    | some a => if e.seq < a.seq then some e else some a) none
def dropErr (e : Deferred) (s : State) : State := s.mapCore fun c => { c with errs := c.errs.filter (· != e) }
/-- The first slot that touches a register with a token write pending. -/
def hazard (s : State) (b : BundleBits) (l : List SlotOps) : Option Stop :=
  let regs := s.core.pend.filterMap tokReg
  ((todo s l).find? fun o => (slotTouched s o).any regs.contains).map fun o => ⟨o.slot.val, 0x04, (slotOf b o.slot.val).setWidth 64⟩

/-! ## The per-slot checks (R486 step 7) -/

def info (t : TrapInfo) (k : Nat) : Stop := ⟨k, t.cause, t.val⟩
/-- The checks an operation's own description gives at issue. -/
def ownTrap (s : State) (i : Instr) : Option TrapInfo :=
  let rel (off : BitVec 32) : Option TrapInfo := if relBad (relTarget s.core.pc off) then some ⟨0x09, 0, false⟩ else none
  let atom (x : AT) : Option TrapInfo := globTrap s (eaM s x.m (aszBytes x.z)) (aszBytes x.z) .rw
  match i with
  | .br _ off | .call _ _ off => rel off
  | .bri _ a | .ret _ a | .calli _ _ a => absTrap (readS s a)
  | .loop k off => if loopWay s k == .out then none else rel off
  | .loopx k off => if s.core.a.lc.get k == 0 then none else rel off
  | .swr _ _ n _ => if sregRW n.toNat then none else some ⟨0x10, n.setWidth 64, false⟩
  | .check p => if (getP s.core.a (physP s.core.a.prb p)).getLsbD 0 then none else some ⟨0x15, 0, false⟩
  | .abort _ => some ⟨0x15, 0, false⟩
  | .vquantF _ _ _ k _ => if (fmttEntry s.feat s.core.sp.fmtt (s.core.a.lc.get k)).isSome then none
    else some ⟨0x01, ((encode i).getD 0).setWidth 64, false⟩
  | .ld x | .ldG x => spadTrap s (eaM s x.m (LdDst.bytes x.d)) (LdDst.bytes x.d) (LdDst.bytes x.d) false
  | .st _ a m _ => spadTrap s (eaM s m (StSrc.bytes a)) (StSrc.bytes a) (StSrc.bytes a) true
  | .lds g z _ a b => elemTrap s (elemAddrs (guardBits s g) (eszBytes z) (strideAddr s a b)) (eszBytes z) false
  | .sts g z a b _ => elemTrap s (elemAddrs (guardBits s g) (eszBytes z) (strideAddr s a b)) (eszBytes z) true
  | .ldx g z _ a b =>
    elemTrap s (elemAddrs (guardBits s g) (eszBytes z) (indexAddr (readS s a) (readV s b).1 (eszBytes z))) (eszBytes z) false
  | .stx g z a b _ =>
    elemTrap s (elemAddrs (guardBits s g) (eszBytes z) (indexAddr (readS s a) (readV s b).1 (eszBytes z))) (eszBytes z) true
  | .ldg x | .ldgG x => globTrap s (eaM s x.m (LdDst.bytes x.d)) (LdDst.bytes x.d) .rd
  | .stg x => globTrap s (eaM s x.m (StSrc.bytes x.a)) (StSrc.bytes x.a) .wr
  | .ldc x => (checkCluster s (eaM s x.m (LdDst.bytes x.d)) (LdDst.bytes x.d)).bind fun c => trapEA c (eaM s x.m (LdDst.bytes x.d))
  | .stc x => (checkCluster s (eaM s x.m (StSrc.bytes x.a)) (StSrc.bytes x.a)).bind fun c => trapEA c (eaM s x.m (StSrc.bytes x.a))
  | .smap _ a b z => smapTrap s (readS s a) (readS s b) (12 + z.val)
  | .sflush _ m _ _ => spadTrap s (eaM s m 64) 64 64 false
  | .qbind _ q m =>
    match spadTrap s (eaM s m 64) 64 64 false with
    | some t => some t
    | none => if (spadErr s (eaM s m 64).toNat 64).isNone && qbindBad s q (qbindDesc s m) then trapEA 0x0A (eaM s m 64) else none
  | .aadd x | .amin x | .amax x | .aminn x | .amaxn x | .aand x | .aor x | .axor x | .axchg x | .acas x | .afadd x
  | .atomicOrd _ x => atom x
  | .acq _ _ m _ => globTrap s (eaM s m 128) 128 .rw
  | .rel x | .relf x => globTrap s (eaM s x.m 128) 128 .rw
  | .cwaddAdd x | .cwaddArrive x | .cwaddRead x => globTrap s (eaM s x.m 8) 8 .rw
  | .waitcw _ _ m => globTrap s (eaM s m 8) 8 .rd
  | .sscan x => engTrap .sscan x s
  | .cpy x => engTrap .cpy x s
  | .cpyr x => engTrap .cpyr x s
  | .mcast x => engTrap .mcast x s
  | .gath x => engTrap .gath x s
  | .scat x => engTrap .scat x s
  | .coll x => engTrap .coll x s
  | .gnode x => engTrap .gnode x s
  | _ => none
/-- The streams and mappings as they stand once an operation of the bundle has issued. -/
def afterOp (s : State) (i : Instr) : State :=
  let s1 := (vsStreams (opnds i) ++ pushStreams s i).foldl stepQ s
  let put (o : StashOp) (s : State) : State := s.mapCore fun c => { c with
    flights := c.flights ++ [⟨c.slot, .stash o, 0, 0, 0, 1, false, false⟩] }
  match i with
  | .smap _ a b z => put (.smap (readS s a).toNat (readS s b).toNat (12 + z.val)) s1
  | .sunmap _ a => put (.sunmap (readS s a).toNat) s1
  | _ => s1
/-- The state in which a word of slot `k` reads its operands: a later word of a substitute sequence reads its slot's latch from
the chain, which in slots 3 and 4, where the checks of step 7 read latches, QSTAT alone feeds (R460). -/
def atWord (s : State) (k : Fin 8) : State :=
  if s.core.slot = k && s.core.chain.isSome then s else s.mapCore fun c => { c with slot := k, chain := none }
def feedChain (s : State) : Instr → State
  | .qstat g _ q => if guardOn s g then s.mapCore fun c => { c with chain := some ((qstatWord s q).setWidth 1024) } else s
  | _ => s
/-- The operations of a bundle, each with the state in which it is checked: streams and mappings as the ones before it leave
them (R307). -/
def words : State → List (Fin 8 × Instr) → List (State × Instr)
  | _, [] => []
  | s, (k, i) :: r =>
    let t := atWord s k
    (t, i) :: words (if disabled t i then t else feedChain (afterOp t i) i) r
/-- Those that their guards leave on. -/
def wordsOn (s : State) (l : List (Fin 8 × Instr)) : List (State × Instr) := (words s l).filter fun x => !disabled x.1 x.2
/-- The first check of an operation that stops it. -/
def opTrap (s : State) (i : Instr) : Option TrapInfo := (ownTrap s i).orElse fun _ => streamTrap s i
/-- The first operation of the bundle that a check stops. -/
def checkSlots (s : State) (ops : List (Fin 8 × Instr)) : Option Stop :=
  (wordsOn s ops).findSome? fun x => (opTrap x.1 x.2).map fun t => info t x.1.core.slot.val
/-- The first operation whose element of a stream carries an uncorrectable error, with that element: in an open region it pops it,
and the error is met at the end of the step (R393). -/
def streamErr (s : State) (ops : List (Fin 8 × Instr)) : Option (Fin 8 × Word) :=
  (wordsOn s ops).findSome? fun x => match ownTrap x.1 x.2, streamTrap x.1 x.2 with
    | none, some t => if t.cause == 0x0B then some (x.1.core.slot, t.val) else none
    | _, _ => none
/-- The first operation of a region's bundle that a check stops; an uncorrectable error is none (R390, R393). -/
def rgnSlots (s : State) (ops : List (Fin 8 × Instr)) : Option (Instr × Stop) :=
  (wordsOn s ops).findSome? fun x => match opTrap x.1 x.2 with
    | some t => if t.cause == 0x0B then none else some (x.2, info t x.1.core.slot.val)
    | none => none

/-! ## Open regions (R238, R239, R292, R378 to R384, R390) -/

/-- The closing operations of R238; CKPT closes by itself (R236). -/
def closing : Instr → Bool
  | .aadd _ | .amin _ | .amax _ | .aminn _ | .amaxn _ | .aand _ | .aor _ | .axor _ | .axchg _ | .acas _ | .afadd _
  | .atomicOrd .. | .acq .. | .rel _ | .relf _ | .fence .. | .fencex .. | .cwaddAdd _ | .cwaddArrive _ | .cwaddRead _
  | .waitcw .. | .tswait _ | .halt _ | .swr .. | .trap .. | .bkpt .. => true
  | _ => false
def isCkpt : Instr → Bool
  | .ckpt _ => true
  | _ => false
/-- The bytes a store item of the region writes, in program order, for the alias guards. -/
def storeLocs? (s : State) (i : Instr) : List Loc :=
  let c := s.core
  let elems (m : BitVec 32) (z : Nat) (f : Nat → Int) : List Loc :=
    (elemAddrs m z f).flatMap fun e => locsOf c e.2.toNat z
  let pushes : List Loc := (pushStreams s i).flatMap fun k =>
    let q := getQ s k
    locsOf c (qAddr q.desc q.pos).toNat (qElemBytes q.desc)
  let on (m : BitVec 32) (n : Nat) (l : List Loc) : List Loc :=
    ((List.range n).zip l).filterMap fun x => if n != 128 || byteOn m x.1 then some x.2 else none
  pushes ++ match i with
    | .st g a m _ =>
      let n := StSrc.bytes a
      on (srcLanes s g a) n (locsOf c (eaM s m n).toNat n)
    | .sts g z a b _ => elems (guardBits s g) (eszBytes z) (strideAddr s a b)
    | .stx g z a b _ => elems (guardBits s g) (eszBytes z) (indexAddr (readS s a) (readV s b).1 (eszBytes z))
    | .stg x =>
      let n := StSrc.bytes x.a
      match checkGlob c.ktt (eaM s x.m n) n n .wr with
      | .ok e => on (srcLanes s x.g x.a) n (globLocs (kttKey e (eaM s x.m n).toNat) n)
      | .error _ => []
    | .stc x =>
      let n := StSrc.bytes x.a
      on (srcLanes s x.g x.a) n (cwLocs s (eaM s x.m n).toNat n)
    | _ => []
/-- Entries of the Tadpole buffer an operation takes (R378). -/
def tadpole (s : State) (i : Instr) : Nat :=
  (pushStreams s i).length + match i with
    | .st .. | .stg _ | .stc _ | .smap .. | .sunmap .. | .sdrop .. | .sflush .. | .sscan _ | .cpy _ | .cpyr _ | .mcast _
    | .gath _ | .scat _ | .coll _ | .gnode _ => 1
    | .sts g z a b _ => (elemAddrs (guardBits s g) (eszBytes z) (strideAddr s a b)).length
    | .stx g z a b _ => (elemAddrs (guardBits s g) (eszBytes z) (indexAddr (readS s a) (readV s b).1 (eszBytes z))).length
    | _ => 0
/-- The bytes a `.g` load guards. -/
def guardLocs? (s : State) : Instr → Option (List Loc)
  | .ldG x => some (locsOf s.core (eaM s x.m (LdDst.bytes x.d)).toNat (LdDst.bytes x.d))
  | .ldgG x =>
    let n := LdDst.bytes x.d
    match checkGlob s.core.ktt (eaM s x.m n) n n .rd with
    | .ok e => some (globLocs (kttKey e (eaM s x.m n).toNat) n)
    | .error _ => none
  | _ => none
/-- A guard hit of the bundle: a store overlaps a guard that is armed, or that a lower slot of it arms (R383). -/
def guardHit : List (List Loc) → List (State × Instr) → Bool
  | _, [] => false
  | armed, (s, i) :: r =>
    let st := storeLocs? s i
    armed.any (overlaps st) || guardHit (armed ++ (guardLocs? s i).toList) r
def armedLocs (r : Region) : List (List Loc) := r.guards.toList.filterMap id
/-- The rollback an open region's bundle causes before it executes, or none. `ckpt` says that the bundle opens it. -/
def regionTrap (s : State) (ckpt : Bool) (ops : List (Fin 8 × Instr)) : Option Nat :=
  let on := (ops.map (·.2)).filter fun i => !disabled s i
  if ops.any fun x => closing x.2 then some 4
  else
    match rgnSlots s ops with
    | some (.check _, _) => some 1
    | some (.abort _, _) => some 3
    | some (_, t) => some (if t.cause == 0x06 then 7 else 4)
    | none =>
      let held := if ckpt then 0 else s.core.rgn.held.length
      let armed := if ckpt then [] else armedLocs s.core.rgn
      if 256 < held + (on.map (tadpole s)).foldl (· + ·) 0 then some 5
      else if 16 < armed.length + (on.filter fun i => (guardLocs? s i).isSome).length then some 5
      else if guardHit armed (wordsOn s ops) then some 2
      else none

/-! ## Stalls (R204, R254, R306, R320, R335, R161, R323, R247) -/

def streamNeed (ops : List Instr) (f : Instr → List (Fin 8)) (k : Fin 8) : Nat := ((ops.flatMap f).filter (· == k)).length
/-- A stream that cannot serve the bundle yet: an in stream short of elements, or a full out stream whose oldest element
can be written. -/
def streamStall (s : State) (ops : List Instr) : Option (Fin 8) :=
  (List.finRange 8).find? fun k =>
    let q := getQ s k
    let pops := streamNeed ops (fun i => vsStreams (opnds i)) k
    let pushes := streamNeed ops (pushStreams s) k
    (0 < pops && q.inq.length < pops)
      || (0 < pushes && !regionOpen s.core && 16 < q.outq.length + pushes && (match q.outq with
        | e :: _ => e.data.isSome
        | [] => false))
def bufOf : Instr → Fin 16
  | .ld x | .ldG x => x.buf
  | .st _ _ _ b => b
  | _ => 0
/-- Bytes of the scratchpad window an access reaches, each with whether it sees held stores there (R380). -/
def spadSpan (s : State) (i : Instr) : List (Nat × Bool) :=
  let span (ea n : Nat) (m : BitVec 32) : List (Nat × Bool) :=
    ((List.range n).filter fun j => n != 128 || byteOn m j).map fun j => (ea + j, true)
  let elems (m : BitVec 32) (z : Nat) (f : Nat → Int) : List (Nat × Bool) :=
    (elemAddrs m z f).flatMap fun e => (List.range z).map fun j => (e.2.toNat + j, true)
  let desc (m : MAddr) (n : Nat) : List (Nat × Bool) := (List.range n).map fun j => ((eaM s m 64).toNat + j, false)
  match i with
  | .ld x | .ldG x => span (eaM s x.m (LdDst.bytes x.d)).toNat (LdDst.bytes x.d) (dstLanes s x.g x.d)
  | .st g a m _ => span (eaM s m (StSrc.bytes a)).toNat (StSrc.bytes a) (srcLanes s g a)
  | .lds g z _ a b => elems (guardBits s g) (eszBytes z) (strideAddr s a b)
  | .sts g z a b _ => elems (guardBits s g) (eszBytes z) (strideAddr s a b)
  | .ldx g z _ a b => elems (guardBits s g) (eszBytes z) (indexAddr (readS s a) (readV s b).1 (eszBytes z))
  | .stx g z a b _ => elems (guardBits s g) (eszBytes z) (indexAddr (readS s a) (readV s b).1 (eszBytes z))
  | .qbind _ _ m => desc m 64
  | .sscan x => desc x.m (descSize .sscan)
  | .cpy x => desc x.m (descSize .cpy)
  | .cpyr x => desc x.m (descSize .cpyr)
  | .mcast x => desc x.m (descSize .mcast)
  | .gath x => desc x.m (descSize .gath)
  | .scat x => desc x.m (descSize .scat)
  | .coll x => desc x.m (descSize .coll)
  | .gnode x => desc x.m (descSize .gnode)
  | _ => []
/-- The stash lines an operation misses, with their lease classes; a line that no copy may serve is read where it is, once no
atomic of the core on it is still to be performed (R297). -/
def missesOf (s : State) (i : Instr) : List (Nat × Option (Fin 8)) :=
  (spadSpan s i).filterMap fun o => (stashLack s none o.1).bind fun x =>
    let key := lineKey x.1
    if (o.2 && (heldByte s.core.rgn.held (.glob x.1)).isSome) || (lineErr s key).isSome
      || (leased key && uncached s.core.lct x.2 && !unperformed s.core key) then none
    else some (key, x.2)
/-- The stash lines a bundle misses. -/
def stashMisses (s : State) (ops : List (Fin 8 × Instr)) : List (Nat × Option (Fin 8)) :=
  ((wordsOn s ops).flatMap fun x => missesOf x.1 x.2).eraseDups
/-- The buffer of the first access of a bundle that misses the stash (R287). -/
def missBuf (s : State) (ops : List (Fin 8 × Instr)) : Fin 16 :=
  (((wordsOn s ops).filter fun x => !(missesOf x.1 x.2).isEmpty).map fun x => bufOf x.2).headD 0
def isLoad6 : Instr → Bool
  | .ld _ | .ldG _ | .lds .. | .ldx .. => true
  | _ => false
def engKind? : Instr → Option EKind
  | .sscan _ => some .sscan
  | .cpy _ => some .cpy
  | .cpyr _ => some .cpyr
  | .mcast _ => some .mcast
  | .gath _ => some .gath
  | .scat _ => some .scat
  | .coll _ => some .coll
  | .gnode _ => some .gnode
  | _ => none
/-- Engine places the bundle needs are not free (R335); a held command takes its place at commit. -/
def placesFull (s : State) (ops : List Instr) : Bool :=
  let ks := ops.filterMap engKind?
  let sc := (ks.filter isScan).length
  !regionOpen s.core && ((0 < sc && 8 < placesUsed s true + sc) || (sc < ks.length && 16 < placesUsed s false + (ks.length - sc)))
def isFence : Instr → Bool
  | .fence .. => true
  | _ => false
/-- A pending FENCE holds a bundle with a memory operation; one in slot 3 holds its bundle's own operation in slot 4 until
the operations before it are complete (R186, R320). -/
def fenceHolds (s : State) (ops : List (Fin 8 × Instr)) : Bool :=
  let old := s.core.pend.any fun p => match p.kind with
    | .fence _ => true
    | _ => false
  let own := (ops.any fun x => x.1 == 3 && isFence x.2 && !disabled s x.2) && ops.any fun x => x.1 == 4 && !disabled s x.2
  (old && ops.any fun x => x.1 == 3 || x.1 == 4) || (own && s.core.pend.any fun p => !isEngine p)
/-- What an unsatisfied WAITCW or TSWAIT of the bundle waits for. -/
def waitsOn (s : State) : List Instr → Option WaitOn × State
  | [] => (none, s)
  | .waitcw _ r m :: l =>
    match checkGlob s.core.ktt (eaM s m 8) 8 8 .rd with
    | .error _ => waitsOn s l
    | .ok e =>
      let a := kttKey e (eaM s m 8).toNat
      let target := (getS s.core.a r).setWidth 32
      let w := if waitReads (curScope s) a s then waitWord (curScope s) a s else (0, s)
      if (placeErr (curScope s) a 8 s).isSome then waitsOn s l
      else if waitReads (curScope s) a s && cwSatisfied target w.1 then waitsOn w.2 l else (some (.cw a target (curScope s)), w.2)
  | .tswait a :: l =>
    let t := readS s a
    if t.toNat ≤ stepOf s (dieOf s.core.id) then waitsOn s l else (some (.step t), s)
  | _ :: l => waitsOn s l

/-- The core that keeps the claim and the count of steps: the lead's, for a gang (R487). -/
def claimCore (s : State) : Core := (((curTask s).bind fun t => (taskFind s t.gang).bind (·.core)).map (coreOf s)).getD s.core
/-- The task in focus is asked to leave, or has passed its claim (R391, R412). -/
def leaving (s : State) : Bool := overrun (claimCore s) || (match curTask s with
  | some t => t.stopReq.isSome
  | none => false)
/-- Held at issue: cycles of stall pass, charged under their cause; a stall of another cause before it is over, and recorded. A
region of a task that is asked to leave rolls back at once (R391, R412). -/
def stallOn (c : Stall) (s : State) : State :=
  let n := (Config.freeBits 32 s.fresh).toNat
  let s1 := passTicks (Config.freeTicks (s.fresh + 1)) (addStall c n { s with fresh := s.fresh + 2 })
  let new := s.core.stallWhy != some c
  let s2 := { s1.mapCore (fun k => { k with
      stall := some c, held := false, stallWhy := some c, stallCyc := if new then n else k.stallCyc + n }) with
    agenda := s1.agenda ++ (if new then stallDue s.core else []) }
  if regionOpen s2.core && leaving s2 then rollNow 6 s2 else s2
/-- The hotness counter of the access that stalls (R287). -/
def stallHot (buf : Fin 16) (s : State) : State := hotStall buf (BitVec.ofNat 64 (Config.freeBits 32 s.fresh).toNat) s

/-! ## Gangs (R44, R45, R46, R230) -/

def gangNext (s : State) (t : Task) : Option Task := s.tasks.find? fun x => x.gang == t.gang && x.gpos == t.gpos + 1
/-- The steps the next member has still to issue. -/
def behind (s : State) (t : Task) : Nat := match (gangNext s t).bind (·.core) with
  | some k => (coreOf s k).feed.length
  | none => 0
/-- A core that stalls or waits by itself, and not for another member of its gang. -/
def stallsItself (c : Core) : Bool := (c.stall.isSome && !c.held) || c.wait.isSome
/-- Another member stalls, so this one stalls with it and the skew stays (R44, R487). -/
def gangHolds (s : State) (t : Task) : Bool := t.gsize > 1 && (gangMates s t).any stallsItself
/-- A member's next step is not due: another member is out, the next one is behind by the skew already, or a region is
open and the lead's step before is not issued by all, so that a rollback finds every member at one bundle (R230). -/
def gangWaits (s : State) (t : Task) : Bool :=
  if t.gsize ≤ 1 then false
  else
    let ms := s.tasks.filter fun x => x.gang == t.gang && x.id != t.id && x.st != .ended
    let cs := gangMates s t
    let inRgn := regionOpen s.core || s.core.commitDue || cs.any fun c => regionOpen c
    (ms.any fun x => x.core.isNone || x.saved.isSome)
      || skewOf s t < behind s t
      || (t.gpos == 0 && inRgn && cs.any fun c => !c.feed.isEmpty)
/-- The lead is held before its CKPT bundle until the other members have issued the steps before it. -/
def ckptPending (s : State) (c : Core) : Bool :=
  c.held && (hOcc (headerOf c.bundle)).getLsbD 0 && (match decodeSlot s.feat 0 (slotOf c.bundle 0) with
    | .ok (.ckpt _) => true
    | _ => false)
/-- The members behind the lead catch up with it: it halts or has ended, it has yielded, or a region is open or about to be
(R230, R487). -/
def gangDrains (s : State) (t : Task) : Bool :=
  (match taskFind s t.gang with
    | none => true
    | some l => l.st == .ended || l.stopReq == some .yield || (match l.core.map (coreOf s) with
      | some c => c.halting || ckptPending s c
      | none => false))
  || (s.core :: gangMates s t).any fun c => c.rgn.st != .closed || c.commitDue
/-- A member's next step is due: the lead's always; another one's once the member before it is ahead by the skew, which so never
changes (R44). -/
def stepDue (s : State) (t : Task) : Bool :=
  t.gpos == 0 || (!s.core.feed.isEmpty && (skewOf s t < s.core.feed.length || gangDrains s t))
/-- A gang opens a region when every member has issued the steps before it, so that a rollback of the CKPT bundle finds
them all there (R230, R236). -/
def ckptHolds (s : State) : Bool := match curTask s with
  | some t => t.gpos == 0 && t.gsize > 1 && (gangMates s t).any fun c => !c.feed.isEmpty
  | none => false
/-- Hold the core still for other members; no cycle of a stall of its own passes. -/
def holdStill (s : State) : State := s.mapCore fun c => { c with stall := some (c.stall.getD .freeze), held := true }
/-- A core that stalls with another member of its gang. -/
def gangStall (s : State) : Bool := match curTask s with
  | some t => gangHolds s t
  | none => false
/-- The stall of another member, charged as a freeze (R44, R474). -/
def stallWith (s : State) : State := (stallOn .freeze s).mapCore fun c => { c with held := c.stall.isSome }
/-- The step the lead broadcasts reaches the next member with the latches this one read at its issue. -/
def feedNext (g : GStep) (s : State) : State :=
  match (curTask s).bind (gangNext s) with
  | none => s
  | some t => match t.core with
    | none => s
    | some k => onCore k (fun s => s.mapCore fun c => { c with feed := c.feed ++ [g] }) s
/-- The lead's decision, as a member follows it; a member that would choose another bundle records it (R230). -/
def followLead (own : Word) (s : State) : Word × State :=
  match s.core.feed with
  | g :: _ =>
    if g.next != own then
      (g.next, record (dieOf s.core.id) (srcNum s.core.id) 0x81 (s.core.sp.gpos ++ (0 : BitVec 4)) g.next own s)
    else (g.next, s)
  | [] => (own, s)

/-! ## Issue (R486) -/

/-- Nothing of this core issues now. -/
def issueBlocked (s : State) : Bool :=
  let c := s.core
  c.task.isNone || c.disabled || (c.halting && c.sp.done == 0) || (match c.rgn.st with
    | .draining | .unwinding _ => true
    | .rerunA => c.rgn.outA.isSome
    | .rerunB => c.rgn.outB.isSome
    | _ => false)
  || (match curTask s with
    | none => false
    | some t =>
      t.saved.isSome || !stepDue s t || gangWaits s t
        || (t.stopReq.isSome && !regionOpen c && !(t.stopReq == some .yield && !c.feed.isEmpty)))

/-- Take a stop at issue: nothing of the bundle commits, but for the slots that had committed before (R215). -/
def stopAt (t : Stop) (s : State) : State :=
  let r := takeTrap t.slot t.cause t.val s.core.sp.done s
  { r with agenda := s.agenda ++ r.agenda }
/-- A rollback before the bundle executes. -/
def rollAt (c : Nat) (s : State) : State :=
  let r := startRollback c s
  { r with agenda := s.agenda ++ r.agenda }
/-- A decoded operation as it executes: CWADD's word stands for three of them, by its operand's `CWOP` (R321). -/
def asIssued (s : State) : Instr → Instr
  | .cwaddAdd x =>
    let op := ((getS s.core.a x.r).extractLsb' 62 2).toNat
    if op = 0 then .cwaddAdd x else if op = 1 then .cwaddArrive x else .cwaddRead x
  | i => i
/-- The work of a bundle's slots that have not committed yet. -/
def slotWork (s : State) (o : SlotOps) : List Work :=
  if s.core.sp.done.getLsbD o.slot.val then []
  else (List.range o.ops.length).filterMap fun j =>
    (o.ops[j]?).map fun x => .run o.slot j (j + 1 == o.ops.length) (asIssued s x.2)
/-- The combined value of a paired constant (R116). -/
def pairOf (s : State) (l : List SlotOps) : Option Word :=
  let one (k : Fin 8) : Option Instr := match (l.find? fun o => o.slot == k).map (·.ops) with
    | some [x] => some x.2
    | _ => none
  match one 1, one 2 with
  | some (.movi g (.reg d) lo), some (.movhi g' d' hi) | some (.movhi g' d' hi), some (.movi g (.reg d) lo) =>
    if d = d' && guardOn s g && guardOn s g' then some (hi ++ lo) else none
  | _, _ => none
/-- The end of a bundle's step. -/
def stepEnd (s : State) : List Work := [.event (.resultLand s.core.id), .event (.ringPushEffect s.core.id), .finish]
def hasStash (ops : List Instr) : Bool := ops.any fun i => match i with
  | .smap .. | .sunmap .. => true
  | _ => false
/-- Cycles the bundle takes beyond its own: a split, the words of a substitution (R122, R460). -/
def splitCycles (s : State) (h : Word) : Nat :=
  let both (i : Nat) : Bool := (hOcc h).getLsbD (2 * i + 1) && (hOcc h).getLsbD (2 * i + 2)
    && s.core.semMap.getLsbD (2 * i) == s.core.semMap.getLsbD (2 * i + 1)
  if both 0 || both 1 || both 2 then 1 else 0
def substCycles (l : List SlotOps) : Nat := l.foldl (fun n o => max n (o.ops.length - 1)) 0
/-- A stall that ends with this issue is traced, and so is a wait (R479, R485). -/
def endStall (s : State) : State :=
  let c := s.core
  let w := match c.wait with
    | some _ => if traceOn c.m then [Work.event (.traceRecord c.id (.flagWait (BitVec.ofNat 56 (s.tick - c.waitFrom))))] else []
    | none => []
  let s1 := dropStall s
  { s1 with agenda := s1.agenda ++ w }
/-- Cycles that the bundle takes beyond its own, of this core and its gang (R44). -/
def moreCycles (c : Stall) (n : Nat) (s : State) : State := mateStall true n (chargeStall c n s)
/-- An uncorrectable error of an element that the bundle pops in an open region, or in the one it opens, is met at the end of its
step (R393). -/
def noteStreamErr (l : List SlotOps) (s : State) : State :=
  let ops := opsOf (todo s l)
  if regionOpen s.core || ops.any fun x => isCkpt x.2 then
    match streamErr s ops with
    | some e => s.mapCore fun c => { c with errs := c.errs ++ [⟨c.seq, none, 0x0B, e.2, none, e.1, c.pc, true⟩] }
    | none => s
  else s
/-- Execute a bundle that no check and no stall holds. -/
def startBundle (l : List SlotOps) (s0 : State) : State :=
  let s := noteStreamErr l s0
  let ops := l.flatMap fun o => o.ops.map (·.2)
  let s1 := (endStall s).mapCore fun c => { c with landDue := true, pair := pairOf s l, y0 := c.a.y }
  let s2 := moreCycles .substitution (substCycles (todo s l))
    (moreCycles .split (splitCycles s (headerOf s.core.bundle)) s1)
  { s2 with agenda := s2.agenda ++ (if l.isEmpty then [.event .nop] else l.flatMap (slotWork s))
      ++ (if hasStash ops then [.event (.stashWritebackAcknowledged s.core.id)] else []) ++ stepEnd s }
/-- The slots `l` below a stop commit, then it is taken (R215). -/
def startStop (t : Stop) (l : List SlotOps) (done : BitVec 8) (s : State) : State :=
  { (endStall s).mapCore (fun c => { c with pair := pairOf s l, y0 := c.a.y }) with
    agenda := (endStall s).agenda ++ l.flatMap (slotWork s) ++ [.trap t.slot t.cause t.val done] }

/-- What a candidate is known by while a task waits (R409). -/
def candKeys (s : State) : List (Nat × Nat × Nat × Nat × Nat) :=
  (freshCands s ++ savedCands s).map fun c => (c.launch, c.node, c.members.headD 0 + min 1 c.members.length, c.tick, c.rank)
/-- The arbiter decides when the wait begins, and again when a candidate has become Ready since (R409), or the rank of one has
risen, so that no Ready task stays unbound for ever (R52; log entry 28). -/
def waitDecision (first : Bool) (r : Nat) (s : State) : State :=
  let ks := candKeys s
  let s1 := s.mapCore fun c => { c with decided := ks }
  if first then yieldPoint .wait r (s1.mapCore fun c => { c with claim := r, sinceYield := 0 })
  else if ks.all s.core.decided.contains then s1
  else yieldPoint .wait s.core.claim s1
/-- A gang that the arbiter has decided to switch out stands at a yield point too while a member waits: it leaves there (R487). -/
def leaveWaiting (s : State) : State :=
  match curTask s with
  | some t => (gangOf s t).foldl (fun s g => taskUpd s g fun x =>
      if x.stopReq == some .yield then { x with stopReq := some .wait } else x) s
  | none => s
/-- Wait at a WAITCW or TSWAIT: a yield point, decided for a gang on its lead (R247, R323, R409, R412, R487). -/
def waitHere (w : WaitOn) (s : State) : State :=
  let h := headerOf s.core.bundle
  let r := if hClass h == 1 && hRun h != 0 then 16 * (hRun h).toNat else 65536
  let first := s.core.wait.isNone
  let s1 := (leaveWaiting s).mapCore fun c => { c with
    wait := some w, held := false, waitFrom := if first then s.tick else c.waitFrom }
  let y := waitDecision first r
  let s2 := passTicks (Config.freeTicks s1.fresh) s1.bump
  match curTask s2 with
  | none => s2
  | some t => match (taskFind s2 t.gang).bind (·.core) with
    | some k => onCore k y s2
    | none => y s2

/-- A TSWAIT that waits is not late; one beside a WAITCW that waits is judged as the bundle first comes to the wait (R247). -/
def judgeLate (ops : List Instr) (w : WaitOn) (s : State) : State :=
  let late : Option Bool := match w with
    | .step _ => some false
    | .cw .. => ops.findSome? fun i => match i with
      | .tswait a => some (decide ((readS s a).toNat < stepOf s (dieOf s.core.id)))
      | _ => none
  s.mapCore fun c => { c with tsLate := if c.tsLate.isSome then c.tsLate else late }
/-- A stash miss of a bundle: its lines are asked for, each counted once (R476). -/
def missHere (ops : List (Fin 8 × Instr)) (s : State) : State :=
  let ms := stashMisses s ops
  let new := ms.filter fun x => !(s.core.fills.any fun f => f.key == x.1 && f.cls == x.2 && !f.dropped)
  stallOn .stashMiss (stallHot (missBuf s ops) (countEvt 6 new.length (ms.foldl (fun s x => addFill x.1 x.2 false s) s)))
/-- Step 8 of R486 for the slots `l` of the bundle: the stall that holds them, if any, taken; else the state they start
from. Stream stalls and stash misses are charged to a buffer, a miss of two accesses to the first one's alone, and token stalls
to none (R287). A WAITCW is tested on the word as it stands before any slot of its bundle commits, slot 3's arrival included
(R323). The manual leaves both open: log entry 14. A member of a gang that waits is tested while no other member stalls or
waits (R44, R487). -/
def stallFor (l : List SlotOps) (s : State) : State × Bool :=
  let ops := opsOf (todo s l)
  let on := (ops.map (·.2)).filter fun i => !disabled s i
  if fenceHolds s ops then (stallOn .token s, true)
  else
    match streamStall s on with
    | some k => (stallOn .stream (stallHot (qBuf (getQ s k).desc) s), true)
    | none =>
      if placesFull s on then (stallOn .token s, true)
      else if !(stashMisses s ops).isEmpty then (missHere ops s, true)
      else if gangStall s then (stallWith s, true)
      else
        let w := waitsOn s on
        match w.1 with
        | some x => (waitHere x (judgeLate on x w.2), true)
        | none => if traceOn s.core.m && traceFull s.core.m && !traceDrop s.core.m then (stallOn .freeze w.2, true) else (w.2, false)
/-- A split and a substitution are stalls too: a region that is to be left rolls back at them (R391). -/
def splitLeaves (l : List SlotOps) (s : State) : Bool :=
  regionOpen s.core && leaving s && 0 < splitCycles s (headerOf s.core.bundle) + substCycles (todo s l)
/-- Step 8 of R486, then execution. -/
def stallOrGo (l : List SlotOps) (s : State) : State :=
  let r := stallFor l s
  if r.2 then r.1
  else if splitLeaves l r.1 then rollNow 6 r.1
  else startBundle l r.1
/-- A stop of steps 6 and 7: the slots below it commit once nothing stalls them. A slot of them that its own check would
stop does not commit, nor do those above it; it meets its check when the bundle issues again (R215, R486). -/
def stallOrStop (t : Stop) (l : List SlotOps) (s : State) : State :=
  let low := (todo s l).filter fun o => o.slot.val < t.slot
  let n := match checkSlots s (opsOf low) with
    | some u => min u.slot t.slot
    | none => t.slot
  let go := low.filter fun o => o.slot.val < n
  if go.isEmpty then startStop t [] (below n ||| s.core.sp.done) s
  else
    let r := stallFor go s
    if r.2 then r.1 else startStop t go (below n ||| s.core.sp.done) r.1

/-- Steps 5 to 8 of R486 on a bundle that passed the checks of R117. -/
def afterChecks (b : BundleBits) (l : List SlotOps) (s : State) : State :=
  match errMet s b l with
  | some e =>
    if regionOpen s.core then rollAt 4 s else stopAt ⟨8, e.cause, e.ea⟩ (dropErr e s)
  | none =>
    match hazard s b l with
    | some t => if regionOpen s.core then rollAt 4 s else stallOrStop t l s
    | none =>
      let ops := opsOf (todo s l)
      let rest := ops.filter fun x => !isCkpt x.2
      if regionOpen s.core then
        let again := s.core.rgn.st != .opened && s.core.rgn.steps = 0
        if ops.length != rest.length && !again then rollAt 4 s
        else match regionTrap s false rest with
          | some c => rollAt c s
          | none => stallOrGo l s
      else if ops.length != rest.length then
        -- a CKPT bundle: its other slots are in the region it opens (R236)
        if ckptHolds s then holdStill s
        else match regionTrap s true rest, ((ops.find? fun x => isCkpt x.2).map fun (x : Fin 8 × Instr) => x.2 : Option Instr) with
        | some c, some (.ckpt off) => rollAt c (openRegion off s)
        | _, _ => stallOrGo l s
      else
        match checkSlots s ops with
        | some t => stallOrStop t l s
        | none => stallOrGo l s

/-- Steps 1 to 4 of R486. -/
def issueBundle (b : BundleBits) (s0 : State) : State :=
  let s := s0.mapCore fun c => { c with bundle := b, chain := none }
  let tokens := awaited s b ++ renamed s b
  if !tokens.isEmpty then
    (if regionOpen s.core && tokens.any (tokHeld s) then rollAt 4 s else stallOn .token s)
  else
    match checks s b with
    | .error t => stopAt t s
    | .ok l => afterChecks b l s

/-- An uncorrectable error a load of the open region met starts the reruns (R393). -/
def regionErr (c : Core) : Option Deferred :=
  if regionOpen c then c.errs.find? fun e => e.rgn && e.cause == 0x0B else none
/-- The bundle next to issue on the core in focus. -/
def issueHere (s : State) : State :=
  match regionErr s.core with
  | some e => { s with agenda := s.agenda ++ [.event (.uncorrectableError s.core.id (some e.ea) e.slot)] }
  | none =>
    if regionOpen s.core && 2048 ≤ s.core.rgn.steps then rollAt 6 s
    else
      match curTask s, s.core.feed with
      | some t, g :: _ =>
        if t.gpos != 0 then issueBundle g.bits (s.mapCore fun c => { c with pc := g.pc, ny := g.y })
        else s
      | _, _ =>
        if regionOpen s.core && leaving s && !fetchHit s then rollNow 6 s
        else if fetchWaits s then stallOn .freeze s
        else
        let f := fetch s
        match f.1 with
        | .error c => stopAt ⟨8, c, s.core.pc⟩ f.2
        | .ok b => issueBundle b f.2
/-- A rollback of one member is every member's (R230). -/
def spread (a b : State) : State :=
  if regionOpen a.core && a.core.id == b.core.id then
    match b.core.rgn.st with
    | .unwinding c => if c ≤ 8 then rollOthers c b else b
    | .rerunA => match a.core.rgn.outA, b.core.rgn.outA with
      | none, some (.ended false c ..) => rollOthers c b
      | _, _ => b
    | .rerunB => match a.core.rgn.outB, b.core.rgn.outB with
      | none, some (.ended false c ..) => rollOthers c b
      | _, _ => b
    | _ => b
  else b
/-- A stall stands in an open region that is to be left: the region rolls back at once (R391). -/
def stalledLeaving (s : State) : Bool := regionOpen s.core && leaving s && (stallsItself s.core || gangStall s)
/-- The issue of the core in focus. -/
def issue (s : State) : State :=
  if issueBlocked s then s
  else if stalledLeaving s then spread s (rollNow 6 s)
  else if overrun s.core && !regionOpen s.core && gposOf s = 0 then { s with agenda := s.agenda ++ [.event (.yieldOverrun s.core.id)] }
  else spread s (issueHere s)
/-- BUNDLE_ISSUE (R486): a core issues its next bundle, when no bundle is in progress. -/
def execBundleIssue (core : Nat) (s : State) : Host.Outcome State Fault Refusal :=
  .next (if midBundle s then s else issue (focus core s))

/-! ## The end of a step -/

/-- What HALT does before its release: streams flushed and unbound, mappings removed (R41, R310). -/
def haltTidy (s : State) : State :=
  let s1 := (List.finRange 8).foldl (fun s k =>
    if (getQ s k).bound then setQ k QState.reset (if qOut (getQ s k).desc then drainOut k s else s) else s) s
  (s1.core.maps.map (·.off)).foldl (fun s o => stashDo (.sunmap o) s) s1
/-- HALT's end of the task: its release, once every home that it pushes to can be reached, and the charge (R38, R41, R201). -/
def endHalt (s : State) : State :=
  let s2 := haltTidy s
  if !pushesReach s2 then s
  else
    let s3 := releaseWrites .package s2
    match s3.core.task with
    | none => clearCore s3
    -- a charge applied at its own end comes after the end (R29)
    | some t => syncSlots (chargeTask t s3.core.chgSteps 0 (endTask t none s3.core.sp.wsig (clearCore s3)))
/-- HALT waits for results and tokens; a deferred error still unraised is raised in its place (R244). -/
def haltStep (s : State) : State :=
  let s1 := if s.core.flights.isEmpty then s else ringStep (landStep s)
  if !s1.core.flights.isEmpty || !s1.core.pend.isEmpty then s1
  else
    match s1.core.errs.foldl (fun (acc : Option Deferred) e => match acc with
        | none => some e
        | some a => if e.seq < a.seq then some e else some a) none with
    | some e => takeTrap 0 e.cause e.ea 0xFE (dropErr e s1)
    | none => endHalt s1
/-- RESULT_LAND: the end of a bundle's step; while HALT waits, results land with no bundle issuing. -/
def execResultLand (core : Nat) (s : State) : Host.Outcome State Fault Refusal :=
  .next (onCore core (fun s => if s.core.landDue then landStep s else if s.core.halting && s.core.sp.done == 0 then haltStep s else s) s)
/-- RING_PUSH_EFFECT: pushes and clears whose fifth step has ended (R143). -/
def execRingPushEffect (core : Nat) (s : State) : Host.Outcome State Fault Refusal := .next (onCore core ringStep s)

/-- A yield bundle that has committed outside a region (R217, R218, R411, R412). -/
def yieldHere (h : Word) (s : State) : State :=
  if hClass h != 1 || regionOpen s.core then s
  else
    let r := if hRun h = 0 then 65536 else 16 * (hRun h).toNat
    yieldPoint .yield r (chargeNow (s.mapCore fun c => { c with claim := r, sinceYield := 0 }))
/-- The bundle in issue is stretched: a slot that it issues holds a load of the scratchpad (R452, R461). -/
def stretched (s : State) : Bool :=
  (List.finRange 8).any fun k => !s.core.sp.done.getLsbD k.val && (match slotChecks s s.core.bundle k with
    | .ok o => o.ops.any fun x => isLoad6 x.2
    | .error _ => false)
/-- The cycles in which no bundle follows one that was stretched: a stop of the task, or of its region, that is due drops them
(R391, R452, R461). -/
def stretch (n : Nat) (s : State) : State :=
  if n = 0 then s
  else if regionOpen s.core && leaving s then rollGang 6 s
  else match curTask s with
    | some t => if t.stopReq.isSome && t.stopReq != some .yield then s else moreCycles .stretch n s
    | none => s
/-- COMMIT_DRAIN_COMPLETE: stores and pushes in program order, then stash operations, then engine commands; a COMMIT of a
yield bundle then is a yield point (R218). -/
def execCommitDrainComplete (core : Nat) (s : State) : Host.Outcome State Fault Refusal :=
  .next (onCore core (fun s =>
    if s.core.rgn.st == .draining && !laggards s then
      let s1 := (List.finRange 8).foldl (fun s k => takePushes k s) s
      let items := s1.core.rgn.held
      let s2 := items.foldl (fun s h => drainStore h s) s1
      let s3 := items.foldl (fun s h => drainStash h s) s2
      frozen (stepStop (yieldHere (headerOf s.core.bundle) (ofNoRegion (closeRegion (releaseCmds s3)))))
    else s) s)
/-- After the step's results: the next bundle, the counts, the end of a region, a halt, a yield, a single step. -/
def finish (s : State) : State :=
  let c := s.core
  let h := headerOf c.bundle
  let f := followLead (c.next.getD (fallThrough c.pc)) s
  let lead := gposOf s == 0
  let halt := match c.feed with
    | g :: _ => if lead then c.halting else g.halt
    | [] => c.halting
  -- a HALT that issues again after a deferred error was broadcast before (R244)
  let s0 := if c.sp.done == 0xFE then f.2 else feedNext ⟨c.pc, c.bundle, f.1, halt, c.y0⟩ f.2
  let s1 := chargeStep (hOcc h) s0
  let s2 := s1.mapCore fun k => { k with
    pc := if halt then k.pc else f.1
    sp := { k.sp with done := 0 }
    next := none, chain := none, chainLast := true, pair := none, wait := none, tsLate := none, stall := none, held := false, halting := halt
    feed := if lead || halt then k.feed else k.feed.drop 1
    fills := k.fills.filter (·.err.isNone)
    chgSteps := k.chgSteps + 1, sinceYield := k.sinceYield + 1, slice := k.slice - 1
    rgn := { k.rgn with steps := k.rgn.steps + 1 }
    m := { k.m with tstep := if traceOn k.m then k.m.tstep + 1 else k.m.tstep } }
  let n := if c.sp.latcls == 4 && stretched s then 2 else 0
  let s3 := passTicks (Config.freeTicks s2.fresh) s2.bump
  let s4 := if traceOn s3.core.m && 48 ≤ s3.core.m.outcomes.length then
      { s3 with agenda := s3.agenda ++ [.event (.traceRecord s3.core.id .branches)] } else s3
  match regionErr s4.core with
  | some e => { s4 with agenda := s4.agenda ++ [.event (.uncorrectableError s4.core.id (some e.ea) e.slot)] }
  | none =>
    stretch n (if s4.core.commitDue then
      let s5 := s4.mapCore fun k => { k with commitDue := false }
      match s5.core.rgn.st with
      | .opened => s5.mapRgn fun r => { r with st := .draining }
      | _ => { rerunEnded true 0 s5 with agenda := s5.agenda }
    else if regionOpen s4.core || halt then s4
    else stepStop (yieldHere h s4))
/-- THROTTLE_STALL: cycles in which a core issues nothing and nothing lands (R204, R482), a stall of its gang too (R44); a region
that is to be left rolls back at it (R391). -/
def execThrottleStall (core cycles : Nat) (s : State) : Host.Outcome State Fault Refusal :=
  .next (passTicks (cycles / 4) (onCore core (fun s =>
    let s1 := mateStall false cycles (chargeStall .freeze cycles s)
    if 0 < cycles && regionOpen s1.core && leaving s1 then rollGang 6 s1 else s1) s))

end Sys2Proof.Machine
end

