-- ==== Sys2Proof/Machine/Scalar.lean ====
section
/-! DEFINITION. Scalar and predicate instructions of slots 1 and 2 (R256 to R262). Their guards govern the whole
operation (R252); the latencies are those of R203. -/

namespace Sys2Proof.Machine

/-- A two-operand scalar operation of latency `lat`. -/
def scalar2 (lat : Nat) (x : S2) (f : Word → Word → Word) (s : State) : Host.Outcome State Fault Refusal :=
  whenOn x.g (fun s => emitS lat x.d (f (readS s x.a) (readS s x.b)) 0 s) s
/-- A one-operand scalar operation of latency 1. -/
def scalar1 (x : S1) (f : Word → Word) (s : State) : Host.Outcome State Fault Refusal :=
  whenOn x.g (fun s => emitS 1 x.d (f (readS s x.a)) 0 s) s

/-! ## Results (R257 to R259) -/

/-- A shift or rotation takes the amount modulo 64. -/
def shAmt (b : Word) : Nat := (b.extractLsb' 0 6).toNat
def clzW (a : Word) : Word := BitVec.ofNat 64 (if a = 0 then 64 else 63 - a.toNat.log2)
def ctzW (a : Word) : Word := BitVec.ofNat 64 (((List.range 64).find? fun i => a.getLsbD i).getD 64)
def brevW (a : Word) : Word :=
  (List.range 64).foldl (fun acc i => (acc <<< 1) ||| (BitVec.ofBool (a.getLsbD i)).setWidth 64) 0
def sxtW (z : XSz) (a : Word) : Word :=
  match z with
  | .b => (a.setWidth 8).signExtend 64
  | .h => (a.setWidth 16).signExtend 64
  | .w => (a.setWidth 32).signExtend 64
def zxtW (z : XSz) (a : Word) : Word :=
  match z with
  | .b => (a.setWidth 8).setWidth 64
  | .h => (a.setWidth 16).setWidth 64
  | .w => (a.setWidth 32).setWidth 64
/-- The position and length of a control value (R258). -/
def bfPos (c : Word) : Nat := (c.extractLsb' 0 6).toNat
def bfLen (c : Word) : Nat := min (c.extractLsb' 8 7).toNat 64
def bfxW (a b : Word) : Word := BitVec.ofNat 64 (a.toNat / 2 ^ bfPos b % 2 ^ bfLen b)
def bfiW (a b c : Word) : Word :=
  let mask : Word := BitVec.ofNat 64 ((2 ^ bfLen c - 1) * 2 ^ bfPos c)
  (a &&& ~~~mask) ||| ((b <<< bfPos c) &&& mask)
def mulhW (a b : Word) : Word := BitVec.ofInt 64 (a.toInt * b.toInt / 2 ^ 64)
def mulhnW (a b : Word) : Word := BitVec.ofNat 64 (a.toNat * b.toNat / 2 ^ 64)
def divW (a b : Word) : Word := if b = 0 then BitVec.allOnes 64 else BitVec.ofInt 64 (a.toInt.tdiv b.toInt)
def divnW (a b : Word) : Word := if b = 0 then BitVec.allOnes 64 else BitVec.ofNat 64 (a.toNat / b.toNat)
def remW (a b : Word) : Word := if b = 0 then a else BitVec.ofInt 64 (a.toInt.tmod b.toInt)
def remnW (a b : Word) : Word := if b = 0 then a else BitVec.ofNat 64 (a.toNat % b.toNat)

/-! ## Instructions -/

def execAdd (x : S2) (s : State) : Host.Outcome State Fault Refusal := scalar2 1 x (fun a b => a + b) s
def execSub (x : S2) (s : State) : Host.Outcome State Fault Refusal := scalar2 1 x (fun a b => a - b) s
def execAnd (x : S2) (s : State) : Host.Outcome State Fault Refusal := scalar2 1 x (fun a b => a &&& b) s
def execOr (x : S2) (s : State) : Host.Outcome State Fault Refusal := scalar2 1 x (fun a b => a ||| b) s
def execXor (x : S2) (s : State) : Host.Outcome State Fault Refusal := scalar2 1 x (fun a b => a ^^^ b) s
def execAndn (x : S2) (s : State) : Host.Outcome State Fault Refusal := scalar2 1 x (fun a b => a &&& ~~~b) s
def execOrn (x : S2) (s : State) : Host.Outcome State Fault Refusal := scalar2 1 x (fun a b => a ||| ~~~b) s
def execShl (x : S2) (s : State) : Host.Outcome State Fault Refusal := scalar2 1 x (fun a b => a <<< shAmt b) s
def execShr (x : S2) (s : State) : Host.Outcome State Fault Refusal := scalar2 1 x (fun a b => a >>> shAmt b) s
def execSra (x : S2) (s : State) : Host.Outcome State Fault Refusal := scalar2 1 x (fun a b => a.sshiftRight (shAmt b)) s
def execRotl (x : S2) (s : State) : Host.Outcome State Fault Refusal := scalar2 1 x (fun a b => a.rotateLeft (shAmt b)) s
def execRotr (x : S2) (s : State) : Host.Outcome State Fault Refusal := scalar2 1 x (fun a b => a.rotateRight (shAmt b)) s
def execMin (x : S2) (s : State) : Host.Outcome State Fault Refusal := scalar2 1 x (fun a b => if a.toInt ≤ b.toInt then a else b) s
def execMax (x : S2) (s : State) : Host.Outcome State Fault Refusal := scalar2 1 x (fun a b => if b.toInt ≤ a.toInt then a else b) s
def execMinn (x : S2) (s : State) : Host.Outcome State Fault Refusal := scalar2 1 x (fun a b => if a.toNat ≤ b.toNat then a else b) s
def execMaxn (x : S2) (s : State) : Host.Outcome State Fault Refusal := scalar2 1 x (fun a b => if b.toNat ≤ a.toNat then a else b) s
def execBfx (x : S2) (s : State) : Host.Outcome State Fault Refusal := scalar2 1 x (fun a b => bfxW a b) s
def execMul (x : S2) (s : State) : Host.Outcome State Fault Refusal := scalar2 3 x (fun a b => a * b) s
def execMulh (x : S2) (s : State) : Host.Outcome State Fault Refusal := scalar2 3 x (fun a b => mulhW a b) s
def execMulhn (x : S2) (s : State) : Host.Outcome State Fault Refusal := scalar2 3 x (fun a b => mulhnW a b) s
def execDiv (x : S2) (s : State) : Host.Outcome State Fault Refusal := scalar2 18 x (fun a b => divW a b) s
def execDivn (x : S2) (s : State) : Host.Outcome State Fault Refusal := scalar2 18 x (fun a b => divnW a b) s
def execRem (x : S2) (s : State) : Host.Outcome State Fault Refusal := scalar2 18 x (fun a b => remW a b) s
def execRemn (x : S2) (s : State) : Host.Outcome State Fault Refusal := scalar2 18 x (fun a b => remnW a b) s
def execClz (x : S1) (s : State) : Host.Outcome State Fault Refusal := scalar1 x (fun a => clzW a) s
def execCtz (x : S1) (s : State) : Host.Outcome State Fault Refusal := scalar1 x (fun a => ctzW a) s
def execPopc (x : S1) (s : State) : Host.Outcome State Fault Refusal := scalar1 x (fun a => BitVec.ofNat 64 (popcount a)) s
def execBrev (x : S1) (s : State) : Host.Outcome State Fault Refusal := scalar1 x (fun a => brevW a) s
def execMov (x : S1) (s : State) : Host.Outcome State Fault Refusal := scalar1 x (fun a => a) s
def execSxt (z : XSz) (x : S1) (s : State) : Host.Outcome State Fault Refusal := scalar1 x (sxtW z) s
def execZxt (z : XSz) (x : S1) (s : State) : Host.Outcome State Fault Refusal := scalar1 x (zxtW z) s
/-- SEL: a when bit 0 of pC is 1, else b. -/
def execSel (x : S2) (c : Src 16) (s : State) : Host.Outcome State Fault Refusal :=
  scalar2 1 x (fun a b => if (readP s c).getLsbD 0 then a else b) s
def execLea (x : S2) (sh : Fin 8) (s : State) : Host.Outcome State Fault Refusal :=
  scalar2 1 x (fun a b => a + (b <<< sh.val)) s
def execBfi (x : S3) (s : State) : Host.Outcome State Fault Refusal :=
  whenOn x.g (fun s => emitS 1 x.d (bfiW (readS s x.a) (readS s x.b) (readS s x.c)) 0 s) s
def execAddi (x : S1) (imm : BitVec 23) (s : State) : Host.Outcome State Fault Refusal :=
  scalar1 x (fun a => a + imm.signExtend 64) s
/-- MOVI; in a paired constant the combined value lands as the result of slot 2, and both latches receive it (R116,
R126). -/
def execMovi (g : Guard) (d : Dst 64) (imm : BitVec 32) (s : State) : Host.Outcome State Fault Refusal :=
  whenOn g (fun s => match s.core.pair with
    | some x => emitS 1 (if s.core.slot = 2 then d else .latch) x 0 s
    | none => emitS 1 d (imm.signExtend 64) 0 s) s
/-- MOVHI reads its destination at issue (R260). -/
def execMovhi (g : Guard) (d : Fin 64) (imm : BitVec 32) (s : State) : Host.Outcome State Fault Refusal :=
  whenOn g (fun s => match s.core.pair with
    | some x => emitS 1 (if s.core.slot = 2 then .reg d else .latch) x 0 s
    | none => emitS 1 (.reg d) (imm ++ (getS s.core.a d).setWidth 32) 0 s) s

/-- A predicate result on the whole operation: all ones or all zeros (R261). -/
def predAll (b : Bool) : Pred := if b then BitVec.allOnes 32 else 0
def execCmp (cc : CC) (g : Guard) (d : Dst 16) (a b : Src 64) (s : State) : Host.Outcome State Fault Refusal :=
  whenOn g (fun s => emitP 1 d (BitVec.allOnes 32) (predAll (ccHolds cc true (readS s a) (readS s b))) 0 s) s
def execCmpImm (cc : CC) (g : Guard) (d : Dst 16) (a : Src 64) (imm : BitVec 23) (s : State) :
    Host.Outcome State Fault Refusal :=
  whenOn g (fun s => emitP 1 d (BitVec.allOnes 32) (predAll (ccHolds cc true (readS s a) (imm.signExtend 64))) 0 s) s

/-- A two-operand predicate operation (R262). -/
def pred2 (x : P2) (f : Pred → Pred → Pred) (s : State) : Host.Outcome State Fault Refusal :=
  whenOn x.g (fun s => emitP 1 x.d (BitVec.allOnes 32) (f (readP s x.a) (readP s x.b)) 0 s) s
def execPand (x : P2) (s : State) : Host.Outcome State Fault Refusal := pred2 x (· &&& ·) s
def execPor (x : P2) (s : State) : Host.Outcome State Fault Refusal := pred2 x (· ||| ·) s
def execPxor (x : P2) (s : State) : Host.Outcome State Fault Refusal := pred2 x (· ^^^ ·) s
def execPandn (x : P2) (s : State) : Host.Outcome State Fault Refusal := pred2 x (fun a b => a &&& ~~~b) s
def execPnot (x : P1) (s : State) : Host.Outcome State Fault Refusal :=
  whenOn x.g (fun s => emitP 1 x.d (BitVec.allOnes 32) (~~~(readP s x.a)) 0 s) s
def execPfroms (g : Guard) (d : Dst 16) (a : Src 64) (s : State) : Host.Outcome State Fault Refusal :=
  whenOn g (fun s => emitP 1 d (BitVec.allOnes 32) ((readS s a).setWidth 32) 0 s) s
def execPtos (g : Guard) (d : Dst 64) (a : Src 16) (s : State) : Host.Outcome State Fault Refusal :=
  whenOn g (fun s => emitS 1 d ((readP s a).setWidth 64) 0 s) s

end Sys2Proof.Machine
end

