-- ==== Sys2Proof/Machine/Dispatch.lean ====
section
/-! DEFINITION. The dispatch: one arm per constructor of `Instr`. -/

namespace Sys2Proof.Machine

def exec (i : Instr) (s : State) : Host.Outcome State Fault Refusal :=
  match i with
  | .bundleIssue core => Sys2Proof.Machine.execBundleIssue core s
  | .resultLand core => Sys2Proof.Machine.execResultLand core s
  | .ringPushEffect core => Sys2Proof.Machine.execRingPushEffect core s
  | .tokenComplete core n => Sys2Proof.Machine.execTokenComplete core n s
  | .br g off => Sys2Proof.Machine.execBr g off s
  | .call g lnk off => Sys2Proof.Machine.execCall g lnk off s
  | .bri g a => Sys2Proof.Machine.execBri g a s
  | .calli g d a => Sys2Proof.Machine.execCalli g d a s
  | .ret g a => Sys2Proof.Machine.execRet g a s
  | .lsetup k n off => Sys2Proof.Machine.execLsetup k n off s
  | .loop k off => Sys2Proof.Machine.execLoop k off s
  | .loopx k off => Sys2Proof.Machine.execLoopx k off s
  | .ckpt off => Sys2Proof.Machine.execCkpt off s
  | .check p => Sys2Proof.Machine.execCheck p s
  | .abort g => Sys2Proof.Machine.execAbort g s
  | .gclr a => Sys2Proof.Machine.execGclr a s
  | .trap g code => Sys2Proof.Machine.execTrap g code s
  | .bkpt g code => Sys2Proof.Machine.execBkpt g code s
  | .halt g => Sys2Proof.Machine.execHalt g s
  | .srd g d reg piece => Sys2Proof.Machine.execSrd g d reg piece s
  | .swr g a reg piece => Sys2Proof.Machine.execSwr g a reg piece s
  | .tswait a => Sys2Proof.Machine.execTswait a s
  | .iflush a => Sys2Proof.Machine.execIflush a s
  | .add x => Sys2Proof.Machine.execAdd x s
  | .sub x => Sys2Proof.Machine.execSub x s
  | .and x => Sys2Proof.Machine.execAnd x s
  | .or x => Sys2Proof.Machine.execOr x s
  | .xor x => Sys2Proof.Machine.execXor x s
  | .andn x => Sys2Proof.Machine.execAndn x s
  | .orn x => Sys2Proof.Machine.execOrn x s
  | .shl x => Sys2Proof.Machine.execShl x s
  | .shr x => Sys2Proof.Machine.execShr x s
  | .sra x => Sys2Proof.Machine.execSra x s
  | .rotl x => Sys2Proof.Machine.execRotl x s
  | .rotr x => Sys2Proof.Machine.execRotr x s
  | .min x => Sys2Proof.Machine.execMin x s
  | .max x => Sys2Proof.Machine.execMax x s
  | .minn x => Sys2Proof.Machine.execMinn x s
  | .maxn x => Sys2Proof.Machine.execMaxn x s
  | .clz x => Sys2Proof.Machine.execClz x s
  | .ctz x => Sys2Proof.Machine.execCtz x s
  | .popc x => Sys2Proof.Machine.execPopc x s
  | .brev x => Sys2Proof.Machine.execBrev x s
  | .sxt z x => Sys2Proof.Machine.execSxt z x s
  | .zxt z x => Sys2Proof.Machine.execZxt z x s
  | .mov x => Sys2Proof.Machine.execMov x s
  | .sel x c => Sys2Proof.Machine.execSel x c s
  | .lea x sh => Sys2Proof.Machine.execLea x sh s
  | .bfx x => Sys2Proof.Machine.execBfx x s
  | .bfi x => Sys2Proof.Machine.execBfi x s
  | .mul x => Sys2Proof.Machine.execMul x s
  | .mulh x => Sys2Proof.Machine.execMulh x s
  | .mulhn x => Sys2Proof.Machine.execMulhn x s
  | .div x => Sys2Proof.Machine.execDiv x s
  | .divn x => Sys2Proof.Machine.execDivn x s
  | .rem x => Sys2Proof.Machine.execRem x s
  | .remn x => Sys2Proof.Machine.execRemn x s
  | .addi x imm => Sys2Proof.Machine.execAddi x imm s
  | .movi g d imm => Sys2Proof.Machine.execMovi g d imm s
  | .movhi g d imm => Sys2Proof.Machine.execMovhi g d imm s
  | .cmp cc g d a b => Sys2Proof.Machine.execCmp cc g d a b s
  | .cmpImm cc g d a imm => Sys2Proof.Machine.execCmpImm cc g d a imm s
  | .pand x => Sys2Proof.Machine.execPand x s
  | .por x => Sys2Proof.Machine.execPor x s
  | .pxor x => Sys2Proof.Machine.execPxor x s
  | .pandn x => Sys2Proof.Machine.execPandn x s
  | .pnot x => Sys2Proof.Machine.execPnot x s
  | .pfroms g d a => Sys2Proof.Machine.execPfroms g d a s
  | .ptos g d a => Sys2Proof.Machine.execPtos g d a s
  | .vadd x => Sys2Proof.Machine.execVadd x s
  | .vsub x => Sys2Proof.Machine.execVsub x s
  | .vmul x => Sys2Proof.Machine.execVmul x s
  | .vmulh x => Sys2Proof.Machine.execVmulh x s
  | .vmad x => Sys2Proof.Machine.execVmad x s
  | .vadds x => Sys2Proof.Machine.execVadds x s
  | .vsubs x => Sys2Proof.Machine.execVsubs x s
  | .vmin x => Sys2Proof.Machine.execVmin x s
  | .vmax x => Sys2Proof.Machine.execVmax x s
  | .vabs x => Sys2Proof.Machine.execVabs x s
  | .vneg x => Sys2Proof.Machine.execVneg x s
  | .vand x => Sys2Proof.Machine.execVand x s
  | .vor x => Sys2Proof.Machine.execVor x s
  | .vxor x => Sys2Proof.Machine.execVxor x s
  | .vandn x => Sys2Proof.Machine.execVandn x s
  | .vshl x => Sys2Proof.Machine.execVshl x s
  | .vshr x => Sys2Proof.Machine.execVshr x s
  | .vsra x => Sys2Proof.Machine.execVsra x s
  | .vsel x c => Sys2Proof.Machine.execVsel x c s
  | .vcmp cc g ty d a b => Sys2Proof.Machine.execVcmp cc g ty d a b s
  | .vbcast x => Sys2Proof.Machine.execVbcast x s
  | .viota x => Sys2Proof.Machine.execViota x s
  | .vextr g ty d a b => Sys2Proof.Machine.execVextr g ty d a b s
  | .vins g ty d a b c => Sys2Proof.Machine.execVins g ty d a b c s
  | .vperm x => Sys2Proof.Machine.execVperm x s
  | .vslide x c => Sys2Proof.Machine.execVslide x c s
  | .vzip x => Sys2Proof.Machine.execVzip x s
  | .vunzip x => Sys2Proof.Machine.execVunzip x s
  | .vred op g ty d a => Sys2Proof.Machine.execVred op g ty d a s
  | .vscan op x => Sys2Proof.Machine.execVscan op x s
  | .vfadd x => Sys2Proof.Machine.execVfadd x s
  | .vfsub x => Sys2Proof.Machine.execVfsub x s
  | .vfmul x => Sys2Proof.Machine.execVfmul x s
  | .vfma x => Sys2Proof.Machine.execVfma x s
  | .vfms x => Sys2Proof.Machine.execVfms x s
  | .vfnma x => Sys2Proof.Machine.execVfnma x s
  | .vfmin x => Sys2Proof.Machine.execVfmin x s
  | .vfmax x => Sys2Proof.Machine.execVfmax x s
  | .vfabs x => Sys2Proof.Machine.execVfabs x s
  | .vfneg x => Sys2Proof.Machine.execVfneg x s
  | .vfclass x => Sys2Proof.Machine.execVfclass x s
  | .vfcmp cc g ty d a b => Sys2Proof.Machine.execVfcmp cc g ty d a b s
  | .vfrcp x => Sys2Proof.Machine.execVfrcp x s
  | .vfrsq x => Sys2Proof.Machine.execVfrsq x s
  | .vfsqrt x => Sys2Proof.Machine.execVfsqrt x s
  | .vexp2 x => Sys2Proof.Machine.execVexp2 x s
  | .vlog2 x => Sys2Proof.Machine.execVlog2 x s
  | .vfred op g ty rm d a => Sys2Proof.Machine.execVfred op g ty rm d a s
  | .vcvt x => Sys2Proof.Machine.execVcvt x s
  | .vquant d a f nr ring crm => Sys2Proof.Machine.execVquant d a f nr ring crm s
  | .vquantF d a side k crm => Sys2Proof.Machine.execVquantF d a side k crm s
  | .vdeq g d a f crm => Sys2Proof.Machine.execVdeq g d a f crm s
  | .vamax g ty a ring => Sys2Proof.Machine.execVamax g ty a ring s
  | .vamaxC g ring => Sys2Proof.Machine.execVamaxC g ring s
  | .vpack x wrp => Sys2Proof.Machine.execVpack x wrp s
  | .vunpack x part => Sys2Proof.Machine.execVunpack x part s
  | .ld x => Sys2Proof.Machine.execLd x s
  | .ldG x => Sys2Proof.Machine.execLdG x s
  | .st g a m buf => Sys2Proof.Machine.execSt g a m buf s
  | .lds g z d a b => Sys2Proof.Machine.execLds g z d a b s
  | .sts g z a b c => Sys2Proof.Machine.execSts g z a b c s
  | .ldx g z d a b => Sys2Proof.Machine.execLdx g z d a b s
  | .stx g z a b c => Sys2Proof.Machine.execStx g z a b c s
  | .ldg x => Sys2Proof.Machine.execLdg x s
  | .ldgG x => Sys2Proof.Machine.execLdgG x s
  | .stg x => Sys2Proof.Machine.execStg x s
  | .ldc x => Sys2Proof.Machine.execLdc x s
  | .stc x => Sys2Proof.Machine.execStc x s
  | .pf g m lease buf => Sys2Proof.Machine.execPf g m lease buf s
  | .smap g a b size => Sys2Proof.Machine.execSmap g a b size s
  | .sunmap g a => Sys2Proof.Machine.execSunmap g a s
  | .sdrop g a => Sys2Proof.Machine.execSdrop g a s
  | .sflush g m tok buf => Sys2Proof.Machine.execSflush g m tok buf s
  | .qbind g q m => Sys2Proof.Machine.execQbind g q m s
  | .qunbind g q => Sys2Proof.Machine.execQunbind g q s
  | .qstat g d q => Sys2Proof.Machine.execQstat g d q s
  | .qflush g q => Sys2Proof.Machine.execQflush g q s
  | .streamFetch core q => Sys2Proof.Machine.execStreamFetch core q s
  | .streamWrite core q => Sys2Proof.Machine.execStreamWrite core q s
  | .aadd x => Sys2Proof.Machine.execAadd x s
  | .amin x => Sys2Proof.Machine.execAmin x s
  | .amax x => Sys2Proof.Machine.execAmax x s
  | .aminn x => Sys2Proof.Machine.execAminn x s
  | .amaxn x => Sys2Proof.Machine.execAmaxn x s
  | .aand x => Sys2Proof.Machine.execAand x s
  | .aor x => Sys2Proof.Machine.execAor x s
  | .axor x => Sys2Proof.Machine.execAxor x s
  | .axchg x => Sys2Proof.Machine.execAxchg x s
  | .acas x => Sys2Proof.Machine.execAcas x s
  | .afadd x => Sys2Proof.Machine.execAfadd x s
  | .atomicOrd op x => Sys2Proof.Machine.execAtomicOrd op x s
  | .orderedAtomicApply slice => Sys2Proof.Machine.execOrderedAtomicApply slice s
  | .orderedAtomicArrival slice n => Sys2Proof.Machine.execOrderedAtomicArrival slice n s
  | .orderedAtomicRetry slice n => Sys2Proof.Machine.execOrderedAtomicRetry slice n s
  | .acq g d m tok => Sys2Proof.Machine.execAcq g d m tok s
  | .rel x => Sys2Proof.Machine.execRel x s
  | .relf x => Sys2Proof.Machine.execRelf x s
  | .fence g tok => Sys2Proof.Machine.execFence g tok s
  | .fencex g tok => Sys2Proof.Machine.execFencex g tok s
  | .cwaddAdd x => Sys2Proof.Machine.execCwaddAdd x s
  | .cwaddArrive x => Sys2Proof.Machine.execCwaddArrive x s
  | .cwaddRead x => Sys2Proof.Machine.execCwaddRead x s
  | .waitcw g r m => Sys2Proof.Machine.execWaitcw g r m s
  | .sscan x => Sys2Proof.Machine.execSscan x s
  | .cpy x => Sys2Proof.Machine.execCpy x s
  | .cpyr x => Sys2Proof.Machine.execCpyr x s
  | .mcast x => Sys2Proof.Machine.execMcast x s
  | .gath x => Sys2Proof.Machine.execGath x s
  | .scat x => Sys2Proof.Machine.execScat x s
  | .coll x => Sys2Proof.Machine.execColl x s
  | .gnode x => Sys2Proof.Machine.execGnode x s
  | .engineCommandStart id => Sys2Proof.Machine.execEngineCommandStart id s
  | .engineItemComplete id item => Sys2Proof.Machine.execEngineItemComplete id item s
  | .sscanComplete id => Sys2Proof.Machine.execSscanComplete id s
  | .collComplete run => Sys2Proof.Machine.execCollComplete run s
  | .mpush g pt a => Sys2Proof.Machine.execMpush g pt a s
  | .macc g bank cls f a b => Sys2Proof.Machine.execMacc g bank cls f a b s
  | .mshiftEdge g a => Sys2Proof.Machine.execMshiftEdge g a s
  | .mshiftBank g bank => Sys2Proof.Machine.execMshiftBank g bank s
  | .mdrain g d bank ty rm row => Sys2Proof.Machine.execMdrain g d bank ty rm row s
  | .mclr g bank ca => Sys2Proof.Machine.execMclr g bank ca s
  | .msel g md ms xch => Sys2Proof.Machine.execMsel g md ms xch s
  | .rollback core cause => Sys2Proof.Machine.execRollback core cause s
  | .rollbackComplete core => Sys2Proof.Machine.execRollbackComplete core s
  | .regionStepLimit core => Sys2Proof.Machine.execRegionStepLimit core s
  | .commitDrainComplete core => Sys2Proof.Machine.execCommitDrainComplete core s
  | .uncorrectableError core site slot => Sys2Proof.Machine.execUncorrectableError core site slot s
  | .rerunOutcome core => Sys2Proof.Machine.execRerunOutcome core s
  | .launchDispatch die => Sys2Proof.Machine.execLaunchDispatch die s
  | .taskBind core => Sys2Proof.Machine.execTaskBind core s
  | .nodeComplete launch node => Sys2Proof.Machine.execNodeComplete launch node s
  | .nodeFail launch node cause => Sys2Proof.Machine.execNodeFail launch node cause s
  | .waitNodeSatisfied launch node => Sys2Proof.Machine.execWaitNodeSatisfied launch node s
  | .waitingTaskReady task => Sys2Proof.Machine.execWaitingTaskReady task s
  | .priority15Preempt task => Sys2Proof.Machine.execPriority15Preempt task s
  | .yieldOverrun core => Sys2Proof.Machine.execYieldOverrun core s
  | .taskSave core why => Sys2Proof.Machine.execTaskSave core why s
  | .taskRestore core task => Sys2Proof.Machine.execTaskRestore core task s
  | .savedCommandComplete id => Sys2Proof.Machine.execSavedCommandComplete id s
  | .migrationRequest ktt vbase tick pkg src => Sys2Proof.Machine.execMigrationRequest ktt vbase tick pkg src s
  | .migrationReply ktt vbase => Sys2Proof.Machine.execMigrationReply ktt vbase s
  | .dfcmdQuery die dom => Sys2Proof.Machine.execDfcmdQuery die dom s
  | .dfcmdResume die dom => Sys2Proof.Machine.execDfcmdResume die dom s
  | .dfcmdCancel die dom => Sys2Proof.Machine.execDfcmdCancel die dom s
  | .ddbgStop die slot => Sys2Proof.Machine.execDdbgStop die slot s
  | .ddbgStep die slot => Sys2Proof.Machine.execDdbgStep die slot s
  | .ddbgResume die slot => Sys2Proof.Machine.execDdbgResume die slot s
  | .dcfgWrite die v => Sys2Proof.Machine.execDcfgWrite die v s
  | .dcfgApply die => Sys2Proof.Machine.execDcfgApply die s
  | .dmrtWrite die v => Sys2Proof.Machine.execDmrtWrite die v s
  | .dmrtApply die => Sys2Proof.Machine.execDmrtApply die s
  | .domeReadingStart die v => Sys2Proof.Machine.execDomeReadingStart die v s
  | .domeReading die => Sys2Proof.Machine.execDomeReading die s
  | .measurementClear core => Sys2Proof.Machine.execMeasurementClear core s
  | .registerWrite r v => Sys2Proof.Machine.execRegisterWrite r v s
  | .rotationPeriodBoundary core => Sys2Proof.Machine.execRotationPeriodBoundary core s
  | .counterSample core n slot => Sys2Proof.Machine.execCounterSample core n slot s
  | .traceRecord core k => Sys2Proof.Machine.execTraceRecord core k s
  | .belfryBeaconReceive port pkg v => Sys2Proof.Machine.execBelfryBeaconReceive port pkg v s
  | .regionMerge base => Sys2Proof.Machine.execRegionMerge base s
  | .homeRequest cluster key own => Sys2Proof.Machine.execHomeRequest cluster key own s
  | .snoopConflict first second key => Sys2Proof.Machine.execSnoopConflict first second key s
  | .homeMaskedWrite cluster key => Sys2Proof.Machine.execHomeMaskedWrite cluster key s
  | .l2Eviction cluster key => Sys2Proof.Machine.execL2Eviction cluster key s
  | .l2Invalidate cluster key => Sys2Proof.Machine.execL2Invalidate cluster key s
  | .coreWriteback core key evict => Sys2Proof.Machine.execCoreWriteback core key evict s
  | .lineFillComplete core key => Sys2Proof.Machine.execLineFillComplete core key s
  | .stashFillComplete core => Sys2Proof.Machine.execStashFillComplete core s
  | .instanceDisabled core unit => Sys2Proof.Machine.execInstanceDisabled core unit s
  | .stashWritebackAcknowledged core => Sys2Proof.Machine.execStashWritebackAcknowledged core s
  | .hostMemWrite die window addr data => Sys2Proof.Machine.execHostMemWrite die window addr data s
  | .hostMemRead die window addr n => Sys2Proof.Machine.execHostMemRead die window addr n s
  | .flitReceive module seq crcGood flit => Sys2Proof.Machine.execFlitReceive module seq crcGood flit s
  | .linkReplay module => Sys2Proof.Machine.execLinkReplay module s
  | .laneFail module => Sys2Proof.Machine.execLaneFail module s
  | .moduleRetrainEnd module ok => Sys2Proof.Machine.execModuleRetrainEnd module ok s
  | .packetReceive flow seq incarnation req => Sys2Proof.Machine.execPacketReceive flow seq incarnation req s
  | .packetRetry flow => Sys2Proof.Machine.execPacketRetry flow s
  | .portFail loss => Sys2Proof.Machine.execPortFail loss s
  | .agentDeclaredDead agent => Sys2Proof.Machine.execAgentDeclaredDead agent s
  | .throttleStall core cycles => Sys2Proof.Machine.execThrottleStall core cycles s
  | .nop => Sys2Proof.Machine.execNop s
  | .commit => Sys2Proof.Machine.execCommit s
  | .iflushAll => Sys2Proof.Machine.execIflushAll s
  | .belfryBeaconSend => Sys2Proof.Machine.execBelfryBeaconSend s
  | .coldReset => Sys2Proof.Machine.execColdReset s
  | .warmReset => Sys2Proof.Machine.execWarmReset s
  | .belfryStepAdvance => Sys2Proof.Machine.execBelfryStepAdvance s

end Sys2Proof.Machine
end

