-- ==== Sys2Proof/Machine/Next.lean ====
section
/-! DEFINITION. The work of a step, item by item, and the event that comes next when `State.script` names none (MODEL, log
entry 1): the manual leaves the order of most events open, and any order can be given in the script. -/

namespace Sys2Proof.Machine

/-! ## The work of a step -/

/-- One item of work. The words of a substitute sequence pass their chain value on (R460). -/
def runWork (w : Work) (s : State) : Host.Outcome State Fault Refusal :=
  match w with
  | .run k j last i =>
    let s1 := s.mapCore fun c => { c with slot := k, chain := if j = 0 then none else c.chain, chainLast := last }
    match exec i s1 with
    | .next t => .next (traced (BitVec.ofNat 4 k.val) s (spread s1 t))
    | o => o
  | .trap k c v done => .next (traced 8 s (spread s (takeTrap k c v done s)))
  | .finish => .next (traced 8 s (finish s))
  | .event i =>
    match exec i s with
    | .next t => .next (traced 8 s t)
    | o => o

/-- Work through the agenda; what is left after `n` items is done by the next step. -/
def drain : Nat → State → Host.Outcome State Fault Refusal
  | 0, s => .next s
  | n + 1, s =>
    match s.agenda with
    | [] => .next s
    | w :: r =>
      match runWork w { s with agenda := r } with
      | .next t => drain n t
      | o => o

/-! ## The next event -/

/-- A core that may issue: it holds a task, and nothing but its own bundle can hold it. -/
def canIssue (s : State) (c : Core) : Bool := !issueBlocked (focus c.id s)
def runnable (s : State) (c : Core) : Bool := canIssue s c && c.stall.isNone && c.wait.isNone

/-- Events of one core that may be due. -/
def coreEvents (s : State) (c : Core) : List Instr :=
  let streams := (List.finRange 8).filter fun k => (c.a.streams.get k).bound
  (if c.landDue || c.halting then [.resultLand c.id] else [])
    ++ (if c.flights.any fun f => f.left == 0 && isRing f then [.ringPushEffect c.id] else [])
    ++ (List.range c.pend.length).map (Instr.tokenComplete c.id)
    ++ (match c.rgn.st with
      | .draining => [.commitDrainComplete c.id]
      | .unwinding _ => [.rollbackComplete c.id]
      | .rerunA | .rerunB => [.rerunOutcome c.id]
      | _ => [])
    ++ (if c.stall == some .stashMiss then [.stashFillComplete c.id] else [])
    ++ c.fills.map (fun f => .lineFillComplete c.id f.key)
    ++ streams.map (Instr.streamFetch c.id) ++ streams.map (Instr.streamWrite c.id)
    ++ (match (c.task.bind (taskFind s)).bind (·.stopReq) with
      | some w => [.taskSave c.id w]
      | none => [])
    ++ (match c.task.bind (taskFind s) with
      | some t => if t.saved.isSome then [.taskRestore c.id t.id] else []
      | none => [])
/-- Events of an engine command: its start, its next item, its end while its task is out. -/
def cmdEvents (c : EngCmd) : List Instr :=
  let item := (List.range (max c.items 64)).find? fun i => isItem c.kind c.desc i && !c.doneItems.contains i
  (if c.started then [] else [.engineCommandStart c.id])
    ++ (match c.kind with
      | .sscan => [.sscanComplete c.id]
      | .coll => [.collComplete ⟨c.id, []⟩]
      | .gnode => []
      | _ => (item.map fun i => Instr.engineItemComplete c.id i).toList)
    ++ [.savedCommandComplete c.id]
def launchEvents (l : Launch) : List Instr :=
  if l.retired then []
  else (List.range l.nodes.length).flatMap fun i =>
    [.nodeComplete l.id i, .waitNodeSatisfied l.id i] ++ (match (l.nodes[i]?).bind (·.faulted) with
      | some c => [Instr.nodeFail l.id i c]
      | none => [])
def dieEvents (d : Fin 4) : List Instr := [.dcfgApply d, .dmrtApply d, .launchDispatch d, .domeReading d]
/-- Slices with a request on its way, buffered or refused. -/
def slicesUsed (s : State) : List Nat := (s.ords.map (·.slice) ++ s.ordSent.map (·.slice)).eraseDups
/-- Events of one slice: the next arrival, the next application, and what was refused. -/
def sliceEvents (s : State) (k : Nat) : List Instr :=
  [.orderedAtomicArrival k 0, .orderedAtomicApply k]
    ++ (List.range (sliceGet s k).refused.length).map (Instr.orderedAtomicRetry k)
/-- Bindings of Ready tasks, those a core is kept for among them, and pre-emptions for tasks of rank 15. -/
def bindEvents (s : State) : List Instr :=
  let cs := freshCands s ++ savedCands s
  let kept := (coresOf s).filter fun c => c.promise.isSome
  kept.map (fun c => Instr.taskBind c.id)
    ++ (if cs.isEmpty then [] else (coreIds.filter fun k => coreFree s k && (candOfFree s k).isSome).map Instr.taskBind)
    ++ ((savedCands s).filter fun c => c.rank == 15).map (fun c => Instr.priority15Preempt (c.members.headD 0))
    ++ (List.range (fresh15 s).length).map fun i => Instr.priority15Preempt (s.taskNext + i)
/-- Events that may be due, in the order the model tries them. -/
def dueEvents (s : State) : List Instr :=
  (coresOf s).flatMap (coreEvents s)
    ++ s.cmds.flatMap cmdEvents
    ++ (slicesUsed s).flatMap (sliceEvents s)
    ++ s.launches.flatMap launchEvents
    ++ (s.migrs.filter fun m => !m.reqs.isEmpty).map (fun m => Instr.migrationReply m.key m.vbase)
    ++ (s.tasks.filter fun t => t.st == .waiting).map (fun t => Instr.waitingTaskReady t.id)
    ++ (List.finRange 4).flatMap dieEvents
    ++ bindEvents s
    ++ [.belfryBeaconSend]
/-- The event changes something. -/
def changes (s : State) (i : Instr) : Bool :=
  match exec i s with
  | .next t => t != s
  | _ => true
/-- The listed core after the one in focus that can issue, in ascending number, then round. -/
def nextCore (s : State) (p : Core → Bool) : Option Nat :=
  let l := s.others.filter p
  match l.find? fun c => s.core.id < c.id with
  | some c => some c.id
  | none => (l.head?).map (·.id)
/-- A core tries its bundle. -/
def tries (k : Nat) : Work := .event (.bundleIssue k)
/-- Every event that is due. -/
def dueWork (s : State) : List Work := ((dueEvents s).filter (changes s)).map Work.event
/-- The core that tries its bundle when the one in focus gives way: the next that can issue, in turn. -/
def nextOr (s : State) : Nat := (nextCore s (canIssue s)).getD s.core.id
/-- The work of the next step, fair to every core and event (R52). The core in focus issues; at each 64th of its steps all
events that are due happen and the focus passes on. While the core is held: the events that are due, then the next core that
can run; where none can, another held core tries its bundle, and time passes once nothing is due. -/
def nextWork (s : State) : List Work :=
  if runnable s s.core then
    (if s.core.slice % 64 = 0 then dueWork s ++ [tries (nextOr s)] else [tries s.core.id])
  else
    match nextCore s (runnable s), dueWork s with
    | some k, due => due ++ [tries k]
    | none, [] => [.event .belfryStepAdvance, tries (nextOr s)]
    | none, due => due ++ [tries (nextOr s)]

/-- Items of work one step does at most. -/
def stepFuel : Nat := 4096
/-- What the next step works on: work left over, else the script's next event, else the model's. -/
def loadAgenda (s : State) : State :=
  match s.agenda with
  | _ :: _ => s
  | [] =>
    match s.script with
    | i :: r => { s with script := r, agenda := if (encode i).isNone then [.event i] else [] }
    | [] => { s with agenda := nextWork s }

/-! ## A program's first instruction -/

/-- The bundle that holds one operation word, its vector sources' ports enabled. -/
def oneWord (x : SlotWord) : BundleBits :=
  let k := slotOfMajor (opcMajor x)
  let ports := match decodeSlot 0x3F k x with
    | .ok i => (opnds i).vs.filterMap fun (v : Nat × Src 128) => if v.2.isReg then some (consumer k v.1) else none
    | .error _ => []
  bundleWith k x ports.eraseDups
/-- Up to 56 bits are one slot's word, more are a bundle. -/
def bundleOfBits (nbits w : Nat) : BundleBits := if nbits ≤ 56 then oneWord (BitVec.ofNat 56 w) else BitVec.ofNat 512 w
/-- The translation a bare core is given: all of the package's memory at its own address, executable. -/
def bareEntry : KEntry := ⟨0, 0, 0, 0, 0, false, true, true, true, 56⟩
/-- The task a bare core is given. -/
def bareTask (id core : Nat) : Task := {
  id := id, launch := 0, node := 0, j := 0, st := .running, core := some core, readyTick := 0, slot := none, saved := none,
  wait := none, gang := id, gsize := 1, gpos := 0, cause := 0, domStop := false, stepping := false, mig := none,
  stopReq := none, args := 0 }
/-- The core in focus with a task that may issue at its pc. -/
def readyCore (s : State) : State :=
  let c0 := s.core
  let c1 := match fetchCheck s c0.pc with
    | .ok _ => c0
    | .error _ => { c0 with
        ktt := [bareEntry], kttReg := 0x100, pc := if 2 ^ 56 < c0.pc.toNat + 64 then 0 else c0.pc }
  let c2 := { c1 with
    stall := none, held := false, wait := none, tsLate := none, decided := [], promise := none, halting := false,
    landDue := false, disabled := false, feed := [], chgSteps := 0,
    rgn := Region.reset, claim := 65536, sinceYield := 0, slice := 65535, next := none
    sp := { c1.sp with done := 0 }
    errs := [], icopies := c1.icopies.filter (fun x => x.1 != c1.pc), loopBuf := c1.loopBuf.filter fun x => x.1 != c1.pc }
  match curTask s with
  | some t => { taskUpd s t.id (fun x => { x with saved := none, stopReq := none, gsize := 1, gpos := 0 }) with core := c2 }
  | none => { s with
      core := { c2 with task := some s.taskNext }, tasks := s.tasks ++ [bareTask s.taskNext c0.id], taskNext := s.taskNext + 1 }
/-- A bundle stored where the core in focus fetches next, in its home's memory. -/
def placeBundle (b : BundleBits) (s : State) : State :=
  let c := s.core
  let e := (kttFind c.ktt c.pc.toNat 64).getD bareEntry
  let a := kttKey e c.pc.toNat
  let key := lineKey a
  { s with
    home := Mem.putBytes s.home a (toBytes 64 b)
    lost := if leased key then s.lost.filter (fun x => agentPkg x.1 != homeAgent key) else s.lost
    modules := if leased key then s.modules.map fun m => { m with training := false, downAt := none } else s.modules
    ports := if leased key then BitVec.allOnes 32 else s.ports
    poison := s.poison.filter (· != key)
    dead := if leased key then s.dead.filter (· != homeAgent key) else s.dead
    l2 := s.l2.filter fun l => l.key != key
    dir := s.dir.filter fun d => d.key != key
    hostHeld := s.hostHeld.filter fun x => x.1 != key
    agenda := [], script := [] }

end Sys2Proof.Machine
end

