-- ==== Sys2Proof/Machine/Step.lean ====
section
/-! DEFINITION. One step: the work left over, else the next event of the script, else the model's next event. -/

namespace Sys2Proof.Machine

def step (s : State) : Host.Outcome State Fault Refusal := drain stepFuel (loadAgenda s)

/-- `s` with the instruction of bits `w` where the core in focus fetches next: stored as a bundle, on a core with a task
that may issue. -/
def State.withFetchWord (s : State) (nbits w : Nat) : State := placeBundle (bundleOfBits nbits w) (readyCore s)

end Sys2Proof.Machine
end

