-- ==== Sys2Proof/Safety.lean ====
section
/-! DEFINITION. The words the statements use: a core in plain execution, a result put in flight, the memories in canonical
form, an operation's own part of the state. -/

namespace Sys2Proof.Machine

/-! ## Memory -/

/-- Every byte memory of the package is in canonical form (log entry 5). -/
def MemOk (s : State) : Prop :=
  Mem.wf s.spad = true ∧ Mem.wf s.home = true ∧ ∀ d : Fin 4, Mem.wf (s.dies.get d).window = true

/-- The bytes of memory that two states share: the scratchpads, the homes and the launch windows. -/
def sameMem (s t : State) : Prop :=
  t.spad = s.spad ∧ t.home = s.home ∧ t.l2 = s.l2 ∧ t.core.lines = s.core.lines ∧ t.others = s.others ∧
    t.poison = s.poison

/-! ## Results -/

/-- The word in execution is the last of its slot's sequence (R460): every word is, but for a substitution's. -/
def plain (s : State) : Prop := s.core.chainLast = true

/-- `s` with one more result in flight, and nothing else changed. -/
def queued (f : Flight) (s : State) : State := s.mapCore fun c => { c with flights := c.flights ++ [f] }

/-- A result of the slot in execution. -/
def resultOf (s : State) (lat : Nat) (dst : FDest) (latch : Bool) (mask : BitVec 32) (x : Vec) (fl : BitVec 6) : Flight :=
  ⟨s.core.slot, dst, x, mask, fl, lat, latch, regionOpen s.core⟩

/-- The result a scalar destination receives (R207): a register with the latch, the latch alone, or neither. -/
def resultS (s : State) (lat : Nat) (d : Dst 64) (x : Word) : Flight :=
  match d with
  | .reg i => resultOf s lat (.s i) true (BitVec.allOnes 32) (x.setWidth 1024) 0
  | .latch => resultOf s lat .latchOnly true (BitVec.allOnes 32) (x.setWidth 1024) 0
  | _ => resultOf s lat .flagsOnly false (BitVec.allOnes 32) (x.setWidth 1024) 0

/-- The result a predicate destination receives; lanes that are off read 0 in the latch (R207). -/
def resultP (s : State) (lat : Nat) (d : Dst 16) (mask : BitVec 32) (x : Pred) (fl : BitVec 6) : Flight :=
  match d with
  | .reg i => resultOf s lat (.p (physP s.core.a.prb i)) true mask ((x &&& mask).setWidth 1024) fl
  | .latch => resultOf s lat .latchOnly true mask ((x &&& mask).setWidth 1024) fl
  | _ => resultOf s lat .flagsOnly false mask ((x &&& mask).setWidth 1024) fl

/-- The result a vector destination receives (R207); `s` is the state before a push takes its place. With every lane off nothing
is pushed (R64). -/
def resultV (s : State) (lat : Nat) (d : Dst 128) (mask : BitVec 32) (x : Vec) (fl : BitVec 6) : Flight :=
  match d with
  | .reg i => resultOf s lat (.v (physV s.core.a.vrb i)) true mask (x &&& laneMask mask) fl
  | .latch => resultOf s lat .latchOnly true mask (x &&& laneMask mask) fl
  | .stream k => if mask = 0 then resultOf s lat .latchOnly true mask (x &&& laneMask mask) fl
    else resultOf s lat (.stream k (pushPlace k s).1) true mask (x &&& laneMask mask) fl
  | .null => resultOf s lat .flagsOnly false mask (x &&& laneMask mask) fl

/-- The state once a vector destination's push, if a lane is on, has taken its place at issue (R64, R254). -/
def afterPush (d : Dst 128) (mask : BitVec 32) (s : State) : State :=
  match d with
  | .stream k => if mask = 0 then s else (pushPlace k s).2
  | _ => s

/-- The operation `i` gives `d` the vector `x`, `lat` steps from now, and does nothing else. -/
def givesV (i : Instr) (s s' : State) (lat : Nat) (d : Dst 128) (mask : BitVec 32) (x : Vec) (fl : BitVec 6) : Prop :=
  exec i s = .next (queued (resultV s' lat d mask x fl) (afterPush d mask s'))
def givesS (i : Instr) (s s' : State) (lat : Nat) (d : Dst 64) (x : Word) : Prop :=
  exec i s = .next (queued (resultS s' lat d x) s')
def givesP (i : Instr) (s s' : State) (lat : Nat) (d : Dst 16) (mask : BitVec 32) (x : Pred) (fl : BitVec 6) : Prop :=
  exec i s = .next (queued (resultP s' lat d mask x fl) s')

/-- The vector a source gives, and the state once it is read: a stream source takes one element (R254). -/
def src1 (s : State) (a : Src 128) : Vec := (readV s a).1
def after1 (s : State) (a : Src 128) : State := (readV s a).2
/-- Two sources are read in the order A, B. -/
def src2 (s : State) (a b : Src 128) : Vec := src1 (after1 s a) b
def after2 (s : State) (a b : Src 128) : State := after1 (after1 s a) b
/-- Three sources are read in the order A, B, C. -/
def src3 (s : State) (a b c : Src 128) : Vec := src1 (after2 s a b) c
def after3 (s : State) (a b c : Src 128) : State := after1 (after2 s a b) c

/-- The guard that governs the whole of an operation that changes nothing when it is off (R227, R252, R288). -/
def wholeGuard : Instr → Option Guard
  | .add x | .sub x | .and x | .or x | .xor x | .andn x | .orn x | .shl x | .shr x | .sra x | .rotl x | .rotr x
  | .min x | .max x | .minn x | .maxn x | .sel x _ | .lea x _ | .bfx x | .mul x | .mulh x | .mulhn x
  | .div x | .divn x | .rem x | .remn x => some x.g
  | .clz x | .ctz x | .popc x | .brev x | .sxt _ x | .zxt _ x | .mov x | .addi x _ => some x.g
  | .bfi x => some x.g
  | .movi g _ _ | .movhi g _ _ | .cmp _ g _ _ _ | .cmpImm _ g _ _ _ | .pfroms g _ _ | .ptos g _ _ => some g
  | .pand x | .por x | .pxor x | .pandn x => some x.g
  | .pnot x => some x.g
  | .srd g _ _ _ | .abort g | .vextr g _ _ _ _ | .mpush g _ _ | .macc g _ _ _ _ _ | .mshiftEdge g _ | .mshiftBank g _
  | .mclr g _ _ | .msel g _ _ _ | .pf g _ _ _ | .smap g _ _ _ | .sunmap g _ | .sdrop g _ | .sflush g _ _ _
  | .qbind g _ _ | .qunbind g _ | .qstat g _ _ | .qflush g _ => some g
  | .ld ⟨g, .s .., _, _⟩ | .ldG ⟨g, .s .., _, _⟩ | .st g (.s ..) _ _ => some g
  | .ldg ⟨g, .s .., _, _, _, _⟩ | .ldgG ⟨g, .s .., _, _, _, _⟩ | .ldc ⟨g, .s .., _, _, _, _⟩ => some g
  | .stg ⟨g, .s .., _, _, _, _⟩ | .stc ⟨g, .s .., _, _, _, _⟩ => some g
  | _ => none

/-- A line whose every written byte has reached its home: no L2 owns it, none marks a byte of it, and the core in focus
holds none of it dirty. -/
def calmKey (s : State) (key : Nat) : Prop :=
  dirOwner s key = none ∧ (∀ l ∈ s.l2, l.key = key → l.marks = 0) ∧ ∀ l ∈ s.core.lines, l.key = key → l.dirty = 0
/-- Filling lines may make a full level write its oldest line back (log entry 44), and no more: a line that was calm stays
so, its bytes at the home what they were. -/
def calm (s t : State) : Prop :=
  Mem.wf s.home = true → Mem.wf t.home = true ∧
    ∀ key, calmKey s key → calmKey t key ∧ ∀ a, lineKey a = key → Mem.get t.home a = Mem.get s.home a

/-- The same of the lines that `p` does not name. -/
def calmBut (p : Nat → Prop) (s t : State) : Prop :=
  Mem.wf s.home = true → Mem.wf t.home = true ∧
    ∀ key, ¬ p key → calmKey s key → calmKey t key ∧ ∀ a, lineKey a = key → Mem.get t.home a = Mem.get s.home a

/-- What reading sources may change: the streams' buffers, the lines filled on the way, what a full level writes back
for them, the requests sent for them, and the hotness counters. -/
def readsOnly (s t : State) : Prop :=
  (∃ lines streams hotB l2 dir home poison hostHeld dieRegions sentNums flitSent modules flows fresh, t = { s with
    core := { s.core with lines := lines, a := { s.core.a with streams := streams }, m := { s.core.m with hotB := hotB } }
    l2 := l2, dir := dir, home := home, poison := poison, hostHeld := hostHeld, dieRegions := dieRegions
    sentNums := sentNums, flitSent := flitSent, modules := modules, flows := flows, fresh := fresh }) ∧ calm s t

/-- The exact number a finite value stands for (R129). -/
def FVal.rat : FVal → ℚ
  | .fin n m e => (if n then -1 else 1) * (m : ℚ) * (2 : ℚ) ^ e
  | _ => 0
def FVal.finite : FVal → Bool
  | .fin .. => true
  | _ => false

/-- The sum of two values, rounded once: its bits and its flags (R133, R269). -/
def sumIs (F : Fmt) (rm : Rnd) (x y : FVal) (r : Nat) (f : BitVec 6) : Prop :=
  match x, y with
  | .fin .., .fin .. => ∃ v : FVal, v.finite = true ∧ v.rat = x.rat + y.rat ∧
      (v.rat = 0 → v.neg = if x.neg = y.neg then x.neg else decide (rm = .rdn)) ∧ (r, f) = roundF F rm v
  | .inf n, .inf m => if n = m then r = infBits F n ∧ f = 0 else r = nanBits F ∧ f = fNV
  | .inf n, .fin .. => r = infBits F n ∧ f = 0
  | .fin .., .inf n => r = infBits F n ∧ f = 0
  | _, _ => r = nanBits F ∧ f = if x.isSNan = true ∨ y.isSNan = true then fNV else 0
/-- An infinity times zero (R269). -/
def infTimesZero (x y : FVal) : Prop :=
  (x.isNan = false ∧ x.finite = false ∧ y.isZero = true) ∨ (y.isNan = false ∧ y.finite = false ∧ x.isZero = true)
/-- The exact product of two values that are no NaN and no infinity times zero. -/
def exactProduct (x y p : FVal) : Prop :=
  p.neg = (x.neg != y.neg) ∧ p.isNan = false ∧ (p.finite = true ↔ x.finite = true ∧ y.finite = true) ∧
    (p.finite = true → p.rat = x.rat * y.rat)
/-- The product of two values, rounded once. -/
def productIs (F : Fmt) (rm : Rnd) (x y : FVal) (r : Nat) (f : BitVec 6) : Prop :=
  (x.isNan = true ∨ y.isNan = true ∨ infTimesZero x y → r = nanBits F ∧
    (f = fNV ↔ x.isSNan = true ∨ y.isSNan = true ∨ infTimesZero x y) ∧ (f = fNV ∨ f = 0)) ∧
  (x.isNan = false → y.isNan = false → ¬ infTimesZero x y → ∃ p, exactProduct x y p ∧ (r, f) = roundF F rm p)
/-- A product plus a third value, rounded once. -/
def productSumIs (F : Fmt) (rm : Rnd) (x y z : FVal) (r : Nat) (f : BitVec 6) : Prop :=
  (x.isNan = true ∨ y.isNan = true ∨ z.isNan = true ∨ infTimesZero x y → r = nanBits F ∧
    (f = fNV ↔ x.isSNan = true ∨ y.isSNan = true ∨ z.isSNan = true ∨ infTimesZero x y) ∧ (f = fNV ∨ f = 0)) ∧
  (x.isNan = false → y.isNan = false → z.isNan = false → ¬ infTimesZero x y →
    ∃ p, exactProduct x y p ∧ sumIs F rm p z r f)
/-- The order of VFMIN and VFMAX on numbers, −0 below +0 (R270). -/
def numLe : FVal → FVal → Prop
  | .inf true, _ => True
  | _, .inf false => True
  | .fin n m e, .fin k l d =>
    let x := (FVal.fin n m e).rat
    let y := (FVal.fin k l d).rat
    x < y ∨ (x = y ∧ (n = true ∨ k = false ∨ m ≠ 0))
  | _, _ => False
/-- VFMIN and VFMAX of two bit patterns: the operand that `le` puts first, a lone NaN passed over (R270). -/
def extremeIs (F : Fmt) (le : FVal → FVal → Prop) (x y r : Nat) (f : BitVec 6) : Prop :=
  let a := decodeF F x
  let b := decodeF F y
  (a.isNan = true ∧ b.isNan = true → r = nanBits F) ∧ (a.isNan = true ∧ b.isNan = false → r = y) ∧
  (a.isNan = false ∧ b.isNan = true → r = x) ∧
  (a.isNan = false ∧ b.isNan = false → (r = x ∨ r = y) ∧ le (decodeF F r) a ∧ le (decodeF F r) b) ∧
  f = if a.isSNan = true ∨ b.isSNan = true then fNV else 0
/-- A magnitude that rounds beyond the largest finite value, the exponent unbounded (R133). -/
def roundsOver (F : Fmt) (rm : Rnd) (q : ℝ) : Prop :=
  let u : ℝ := (2 : ℝ) ^ maxE F
  let top : ℝ := maxM F * u
  match rm with
  | .rne | .rna => top + u / 2 ≤ |q|
  | .rtz => top + u ≤ |q|
  | .rdn => if q < 0 then top < |q| else top + u ≤ |q|
  | .rup => if q < 0 then top + u ≤ |q| else top < |q|
/-- A magnitude that rounds below the smallest normal value, the exponent unbounded (R134). -/
def roundsTiny (F : Fmt) (rm : Rnd) (q : ℝ) : Prop :=
  let z : ℝ := (2 : ℝ) ^ (1 - (F.bias : Int))
  let u : ℝ := (2 : ℝ) ^ (-(F.bias : Int) - F.mb)
  match rm with
  | .rne | .rna => |q| < z - u / 2
  | .rtz => |q| < z
  | .rdn => if q < 0 then |q| ≤ z - u else |q| < z
  | .rup => if q < 0 then |q| < z else |q| ≤ z - u
/-- `r` is the real number `q` correctly rounded: on the side its mode asks for, with no value of the format between them;
in a nearest mode none is nearer, and of two as near the even one stands, or the one away from zero; infinite only where `q`
rounds beyond every finite value, on a side the mode rounds to. `NX` tells whether it differs from `q`, `OF` whether it rounds
beyond the finite values, `UF` whether it is tiny and differs; no other flag is set (R132 to R134). -/
def roundsTo (F : Fmt) (rm : Rnd) (q : ℝ) (r : Nat) (f : BitVec 6) : Prop :=
  let w := decodeF F r
  let v : ℝ := (w.rat : ℝ)
  let value (y : ℝ) : Prop := ∃ b, b < 2 ^ F.width ∧ (decodeF F b).finite = true ∧ y = ((decodeF F b).rat : ℝ)
  r < 2 ^ F.width ∧
  (w.finite = true →
    (rm = .rdn → v ≤ q) ∧ (rm = .rup → q ≤ v) ∧ (rm = .rtz → |v| ≤ |q|) ∧
    (∀ y, value y → ¬ (v < y ∧ y < q) ∧ ¬ (q < y ∧ y < v)) ∧
    (rm = .rne → ∀ y, value y → |q - v| ≤ |q - y| ∧ (|q - v| = |q - y| → y = v ∨ r % 2 = 0)) ∧
    (rm = .rna → ∀ y, value y → |q - v| ≤ |q - y| ∧ (|q - v| = |q - y| → |y| ≤ |v|))) ∧
  (w.finite = false → w = .inf w.neg ∧ (w.neg = true ↔ q < 0) ∧ ∀ y, value y → |y| < |q|) ∧
  (w.finite = false ↔ roundsOver F rm q ∧ rm ≠ .rtz ∧ (rm = .rdn → q < 0) ∧ (rm = .rup → 0 < q)) ∧
  (f.getLsbD 0 = true ↔ w.finite = false ∨ v ≠ q) ∧ (f.getLsbD 1 = true ↔ w.finite = true ∧ v ≠ q ∧ roundsTiny F rm q) ∧
  (f.getLsbD 2 = true ↔ roundsOver F rm q) ∧ ∀ k, 3 ≤ k → f.getLsbD k = false
/-- `r` is the exact rational `q` rounded once in the nearest-even mode, and `nx` whether that is inexact (R133). -/
def rneOf (F : Fmt) (q : ℚ) (r : Nat) (nx : Bool) : Prop :=
  ∃ v : FVal, v.finite = true ∧ v.rat = q ∧ r = (roundF F .rne v).1 ∧ nx = (roundF F .rne v).2.getLsbD 0
/-- A polynomial by Horner steps: from `t`, each step is RNE_f32(t × g + c) for the next coefficient; `r` is the last, and
`nx` whether a step is inexact. -/
def hornerTo (g : ℚ) : Nat → List Nat → Nat → Bool → Prop
  | t, [], r, nx => r = t ∧ nx = false
  | t, c :: cs, r, nx => ∃ u x y, rneOf f32F ((decodeF f32F t).rat * g + (decodeF f32F c).rat) u x ∧ hornerTo g u cs r y ∧
      nx = (x || y)
/-- Exp2_f32 (R153). -/
def exp2Is (x : FVal) (r : Nat) (f : BitVec 6) : Prop :=
  (x.isNan = true → r = nanBits f32F ∧ f = if x.isSNan = true then fNV else 0) ∧
  (x = .inf false → r = infBits f32F false ∧ f = 0) ∧ (x = .inf true → r = 0 ∧ f = 0) ∧
  (x.finite = true → ∃ (n : Int) (j t q : Nat) (g : ℚ) (w : FVal) (nt nq : Bool), j < 8 ∧ x.rat = n + j / 8 + g ∧ 0 ≤ g ∧ g < 1 / 8 ∧
    hornerTo g expC5 expC t nt ∧ rneOf f32F ((decodeF f32F (expT.getD j 0)).rat * (decodeF f32F t).rat) q nq ∧
    w.finite = true ∧ w.rat = (decodeF f32F q).rat * (2 : ℚ) ^ n ∧ r = (roundF f32F .rne w).1 ∧
    (∀ k, 1 ≤ k → f.getLsbD k = (roundF f32F .rne w).2.getLsbD k) ∧
    f.getLsbD 0 = (nt || nq || (roundF f32F .rne w).2.getLsbD 0)) ∧
  (∀ n : Int, x.finite = true → x.rat = n → -149 ≤ n → n ≤ 127 →
    (decodeF f32F r).finite = true ∧ (decodeF f32F r).rat = (2 : ℚ) ^ n ∧ f = 0)
/-- PolyL (R155). -/
def polyLIs (g : ℚ) (r : Nat) (nx : Bool) : Prop :=
  ∃ t x y, hornerTo g logK6 logK t x ∧ rneOf f32F ((decodeF f32F t).rat * g) r y ∧ nx = (x || y)
/-- Log2_f32 (R155). -/
def log2Is (x : FVal) (r : Nat) (f : BitVec 6) : Prop :=
  (x.isNan = true → r = nanBits f32F ∧ f = if x.isSNan = true then fNV else 0) ∧
  (x = .inf false → r = infBits f32F false ∧ f = 0) ∧ (x = .inf true → r = nanBits f32F ∧ f = fNV) ∧
  (x.isZero = true → r = infBits f32F true ∧ f = fDZ) ∧
  (x.finite = true → x.rat < 0 → r = nanBits f32F ∧ f = fNV) ∧
  (x.finite = true → 0 < x.rat → f = 0 ∨ f = fNX) ∧
  (x.finite = true → 15 / 16 ≤ x.rat → x.rat < 1 → polyLIs (x.rat - 1) r (f.getLsbD 0)) ∧
  (x.finite = true → 0 < x.rat → ¬ (15 / 16 ≤ x.rat ∧ x.rat < 1) →
    ∃ (e : Int) (m : ℚ) (j g p s : Nat) (fg : BitVec 6) (np ns nr : Bool), x.rat = m * (2 : ℚ) ^ e ∧ 1 ≤ m ∧ m < 2 ∧
      (j : ℚ) / 16 ≤ m - 1 ∧ m - 1 < ((j : ℚ) + 1) / 16 ∧
      (let c : ℚ := 1 + j / 16; roundsTo f32F .rne (((m - c) / c : ℚ) : ℝ) g fg) ∧ polyLIs (decodeF f32F g).rat p np ∧
      rneOf f32F ((decodeF f32F (logL.getD j 0)).rat + (decodeF f32F p).rat) s ns ∧ rneOf f32F (e + (decodeF f32F s).rat) r nr ∧
      f.getLsbD 0 = (fg.getLsbD 0 || np || ns || nr)) ∧
  (∀ k : Int, x.finite = true → x.rat = (2 : ℚ) ^ k → -149 ≤ k → k ≤ 127 →
    (decodeF f32F r).finite = true ∧ (decodeF f32F r).rat = k ∧ f = 0)
/-- A function of FP32 on an element of any format: the narrower ones widen exactly and round its result once more (R156). -/
def throughF32 (ty : FTy) (P : FVal → Nat → BitVec 6 → Prop) (x : FVal) (r : Nat) (f : BitVec 6) : Prop :=
  if ty = .f32 then P x r f
  else ∃ r1 f1, P x r1 f1 ∧ r = (roundF (FTy.fmt ty) .rne (decodeF f32F r1)).1 ∧
    f = f1 ||| (roundF (FTy.fmt ty) .rne (decodeF f32F r1)).2

/-- The ordered relation of two numbers; −0 equals +0 (R272). -/
def numLt : FVal → FVal → Prop
  | .inf true, .inf false => True
  | .inf true, .fin .. => True
  | .fin .., .inf false => True
  | .fin n m e, .fin k l d => (FVal.fin n m e).rat < (FVal.fin k l d).rat
  | _, _ => False
/-- A floating condition (R272). -/
def fccIs (cc : FCC) (x y : FVal) : Prop :=
  let ordered := x.isNan = false ∧ y.isNan = false
  match cc with
  | .eq => ordered ∧ ¬ numLt x y ∧ ¬ numLt y x
  | .ne => ¬ (ordered ∧ ¬ numLt x y ∧ ¬ numLt y x)
  | .lt => ordered ∧ numLt x y
  | .le => ordered ∧ ¬ numLt y x
  | .gt => ordered ∧ numLt y x
  | .ge => ordered ∧ ¬ numLt x y
  | .un => ¬ ordered
  | .ord => ordered
/-- When a floating condition sets `NV`: for a signalling NaN, the four ordered ones for any. -/
def fccInvalid (cc : FCC) (x y : FVal) : Prop :=
  x.isSNan = true ∨ y.isSNan = true ∨ (cc ∈ [FCC.lt, .le, .gt, .ge] ∧ (x.isNan = true ∨ y.isNan = true))

/-- The pairwise tree of R151 over the leaves `x`, `n` levels deep: `op` joins two nodes that are present, and one that is
present alone goes on. -/
def treeIs {α : Type} (op : α → α → α → Prop) (x : Nat → Option α) (n : Nat) (r : Option α) : Prop :=
  ∃ node : Nat → Nat → Option α, (∀ i, node 0 i = x i) ∧ node n 0 = r ∧
    ∀ l i, match node l (2 * i), node l (2 * i + 1) with
      | some a, some b => ∃ c, node (l + 1) i = some c ∧ op a b c
      | some a, none => node (l + 1) i = some a
      | none, some b => node (l + 1) i = some b
      | none, none => node (l + 1) i = none
/-- One node of VFRED: a sum rounded once, or VFMIN or VFMAX of the two, with the flags so far (R151, R270, R274). -/
def fredIs (F : Fmt) (op : RedOp) (rm : Rnd) (a b c : Nat × BitVec 6) : Prop :=
  ∃ f, c.2 = a.2 ||| b.2 ||| f ∧ match op with
    | .min => extremeIs F numLe a.1 b.1 c.1 f
    | .max => extremeIs F (fun u v => numLe v u) a.1 b.1 c.1 f
    | _ => sumIs F rm (decodeF F a.1) (decodeF F b.1) c.1 f

/-- `q` is the rational `y` rounded to an integer in a mode (R132). -/
def intRounds (rm : Rnd) (y : ℚ) (q : Int) : Prop := match rm with
  | .rne => |y - q| ≤ 1 / 2 ∧ (|y - q| = 1 / 2 → q % 2 = 0)
  | .rna => |y - q| ≤ 1 / 2 ∧ (|y - q| = 1 / 2 → |y| < |(q : ℚ)|)
  | .rtz => |(q : ℚ)| ≤ |y| ∧ |y - q| < 1
  | .rdn => (q : ℚ) ≤ y ∧ y - q < 1
  | .rup => y ≤ q ∧ q - y < 1
/-- The value of a source pattern of a conversion type (R276, R277). -/
def xval (sty : XTy) (b : Nat) : FVal := match xFmt sty with
  | some F => decodeF F b
  | none =>
    let v : Int := if xSigned sty = true ∧ 2 ^ (sty.width - 1) ≤ b then (b : Int) - 2 ^ sty.width else b
    .fin (decide (v < 0)) v.natAbs 0
/-- Conv of R277 (R136 to R138): a value to a type; the 8-bit formats saturate, `.ieee` leaves E5M2 as R133 has it. -/
def convIs (tt : XTy) (rm : Rnd) (wrp iee : Bool) (v : FVal) (r : Nat) (f : BitVec 6) : Prop :=
  match xFmt tt with
  | some F =>
    if tt = .e4m3 ∨ (tt = .e5m2 ∧ iee = false) then
      (∀ n, v = .inf n → r = maxBits F n ∧ f = fOF ||| fNX) ∧
      (v.isNan = true → r = nanBits F ∧ f = if v.isSNan = true then fNV else 0) ∧
      (v.finite = true → if (roundF F rm v).2.getLsbD 2 = true then r = maxBits F v.neg ∧ f = fOF ||| fNX
        else (r, f) = roundF F rm v)
    else (r, f) = roundF F rm v
  | none =>
    let lo : Int := if xSigned tt = true then -2 ^ (tt.width - 1) else 0
    let hi : Int := if xSigned tt = true then 2 ^ (tt.width - 1) - 1 else 2 ^ tt.width - 1
    let bits (z : Int) : Prop := (r : Int) = z % 2 ^ tt.width
    (v.isNan = true → r = 0 ∧ f = fNV) ∧
    (∀ n, v = .inf n → f = fNV ∧ (wrp = true → r = 0) ∧ (wrp = false → bits (if n = true then lo else hi))) ∧
    (v.finite = true → ∃ q : Int, intRounds rm v.rat q ∧
      (lo ≤ q ∧ q ≤ hi → bits q ∧ f = if v.rat = q then 0 else fNX) ∧
      (q < lo ∨ hi < q → f = fNV ∧ (wrp = true → bits q) ∧ (wrp = false → bits (if q < lo then lo else hi))))
/-- The prescale exponent of a ring (R142, R144). -/
def prescaleIs (F : MXF) (g : Ring) (k : Int) : Prop :=
  let v (i : Fin 16) : FVal := decodeF f32F (g.entries.get i).toNat
  let filled (i : Fin 16) : Prop := i.val < g.fill ∧ (v i).isNan = false
  ((∀ i, filled i → (v i).isZero = true) → k = 0) ∧
  ((∃ i, filled i ∧ (v i).finite = false) → k = -127) ∧
  (∀ i, filled i → (v i).isZero = false → (∀ j, filled j → (v j).finite = true ∧ |(v j).rat| ≤ |(v i).rat|) →
    ∃ e : Int, (2 : ℚ) ^ e ≤ (MXF.maxCode F : ℚ) / 2 ^ MXF.f F / |(v i).rat| ∧
      (MXF.maxCode F : ℚ) / 2 ^ MXF.f F / |(v i).rat| < (2 : ℚ) ^ (e + 1) ∧ k = max (-127) (min 127 e))
/-- Quant_MX (R145): 32 values, prescaled by 2^k, as one scale and 32 codes. -/
def quantIs (F : MXF) (k : Int) (rm : Rnd) (x : Nat → FVal) (sc : Byte) (code : Nat → Int) (f : BitVec 6) : Prop :=
  ((∃ i, i < 32 ∧ (x i).finite = false) → sc = 0xFF ∧ f = fNV ∧ ∀ i, i < 32 → code i = 0) ∧
  ((∀ i, i < 32 → (x i).finite = true) → ∃ (X : Int) (q : Nat → Int),
    ((∀ i, i < 32 → (x i).rat = 0) → X = -127) ∧
    ((∃ i, i < 32 ∧ (x i).rat ≠ 0) → (∀ i, i < 32 → |(x i).rat| * (2 : ℚ) ^ k < (2 : ℚ) ^ (X + 1)) ∧
      ∃ i, i < 32 ∧ (2 : ℚ) ^ X ≤ |(x i).rat| * (2 : ℚ) ^ k) ∧
    (sc.toNat : Int) = min (max (X + 127) 0) 254 ∧
    let y (i : Nat) : ℚ := (x i).rat * (2 : ℚ) ^ k * (2 : ℚ) ^ ((MXF.f F : Int) - (sc.toNat - 127))
    let top : Int := MXF.maxCode F
    (∀ i, i < 32 → intRounds rm (y i) (q i) ∧ code i = max (-top) (min top (q i))) ∧
    (∀ b, f.getLsbD b = true ↔ (b = 0 ∧ ∃ i, i < 32 ∧ y i ≠ q i) ∨ (b = 5 ∧ ∃ i, i < 32 ∧ (q i < -top ∨ top < q i))))
/-- One cell's close (R149, R157): the scaled accumulator rounded once, added to the bank's value and rounded. -/
def closeIs (acc : BitVec 32) (sa sb : Byte) (e : Int) (bank : BitVec 32) (r : BitVec 32) (f : BitVec 6) : Prop :=
  (sa = 0xFF ∨ sb = 0xFF → r = 0x7FC00000#32 ∧ f = fNV) ∧
  (sa ≠ 0xFF → sb ≠ 0xFF → (decodeF f32F bank.toNat).isNan = true → r = 0x7FC00000#32 ∧ f = 0) ∧
  (sa ≠ 0xFF → sb ≠ 0xFF → (decodeF f32F bank.toNat).isNan = false → ∃ (v : FVal) (fs : BitVec 6),
    v.finite = true ∧ v.rat = acc.toInt * (2 : ℚ) ^ ((sa.toNat : Int) + sb.toNat - 254 + e) ∧ (acc = 0 → v.neg = false) ∧
    sumIs f32F .rne (decodeF f32F bank.toNat) (decodeF f32F (roundF f32F .rne v).1) r.toNat fs ∧
    f = (roundF f32F .rne v).2 ||| fs)

/-- `s` with another matrix state. -/
def withMat (m : Matrix) (s : State) : State := s.mapA fun a => { a with mat := m }

/-! ## Shapes of results -/

/-- A two-operand scalar operation: its result `r` on operands `a` and `b`. -/
def scalar2Gives (f : S2 → Instr) (lat : Nat) (P : Word → Word → Word → Prop) : Prop :=
  ∀ (s : State) (x : S2), plain s → guardOn s x.g = true →
    ∃ r, givesS (f x) s s lat x.d r ∧ P (readS s x.a) (readS s x.b) r
/-- A one-operand scalar operation. -/
def scalar1Gives (f : S1 → Instr) (lat : Nat) (P : Word → Word → Prop) : Prop :=
  ∀ (s : State) (x : S1), plain s → guardOn s x.g = true →
    ∃ r, givesS (f x) s s lat x.d r ∧ P (readS s x.a) r

/-- A two-operand vector integer operation: element by element, under its lane guard, with no flag. -/
def vector2Gives (f : V2 → Instr) (lat : Nat)
    (P : (ty : ITy) → BitVec ty.width → BitVec ty.width → BitVec ty.width → Prop) : Prop :=
  ∀ (s : State) (x : V2), plain s →
    ∃ r : Vec, givesV (f x) s (after2 s x.a x.b) lat x.d (guardBits s x.g) r 0 ∧
      ∀ e, e < nElems x.ty.width →
        P x.ty (elem x.ty.width (src1 s x.a) e) (elem x.ty.width (src2 s x.a x.b) e) (elem x.ty.width r e)
def vector1Gives (f : V1 → Instr) (lat : Nat) (P : (ty : ITy) → BitVec ty.width → BitVec ty.width → Prop) : Prop :=
  ∀ (s : State) (x : V1), plain s →
    ∃ r : Vec, givesV (f x) s (after1 s x.a) lat x.d (guardBits s x.g) r 0 ∧
      ∀ e, e < nElems x.ty.width → P x.ty (elem x.ty.width (src1 s x.a) e) (elem x.ty.width r e)
/-- A saturating one: `v` is the exact value, `fl` has `SAT` when an element of an enabled lane changed (R264). -/
def saturates (f : V2 → Instr) (v : Int → Int → Int) : Prop :=
  ∀ (s : State) (x : V2), plain s →
    ∃ (r : Vec) (fl : BitVec 6), givesV (f x) s (after2 s x.a x.b) 2 x.d (guardBits s x.g) r fl ∧
      let w := x.ty.width
      let lo : Int := if x.ty.signed then -2 ^ (w - 1) else 0
      let hi : Int := if x.ty.signed then 2 ^ (w - 1) - 1 else 2 ^ w - 1
      let exact (e : Nat) : Int := v (readI x.ty.signed (elem w (src1 s x.a) e)) (readI x.ty.signed (elem w (src2 s x.a x.b) e))
      (∀ e, e < nElems w → readI x.ty.signed (elem w r e) = max lo (min hi (exact e))) ∧
      (∀ i, fl.getLsbD i = true ↔ i = 5 ∧ ∃ e, e < nElems w ∧ (guardBits s x.g).getLsbD (laneOf w e) = true ∧
        (exact e < lo ∨ hi < exact e))

/-! ## Encodings -/

/-- The classes of operation, by the slots that accept them (R60, R105 to R115). -/
inductive Family where
  | control | scalar | memory | vector | matrix | event
deriving DecidableEq, Repr
def family : Instr → Family
  | .br .. | .call .. | .bri .. | .calli .. | .ret .. | .lsetup .. | .loop .. | .loopx .. | .ckpt .. | .commit | .check ..
  | .abort .. | .gclr .. | .trap .. | .bkpt .. | .halt .. | .srd .. | .swr .. | .tswait .. | .iflush .. | .iflushAll => .control
  | .add .. | .sub .. | .and .. | .or .. | .xor .. | .andn .. | .orn .. | .shl .. | .shr .. | .sra .. | .rotl .. | .rotr ..
  | .min .. | .max .. | .minn .. | .maxn .. | .clz .. | .ctz .. | .popc .. | .brev .. | .sxt .. | .zxt .. | .mov .. | .sel ..
  | .lea .. | .bfx .. | .bfi .. | .mul .. | .mulh .. | .mulhn .. | .div .. | .divn .. | .rem .. | .remn .. | .addi ..
  | .movi .. | .movhi .. | .cmp .. | .cmpImm .. | .pand .. | .por .. | .pxor .. | .pandn .. | .pnot .. | .pfroms ..
  | .ptos .. => .scalar
  | .vadd .. | .vsub .. | .vmul .. | .vmulh .. | .vmad .. | .vadds .. | .vsubs .. | .vmin .. | .vmax .. | .vabs .. | .vneg ..
  | .vand .. | .vor .. | .vxor .. | .vandn .. | .vshl .. | .vshr .. | .vsra .. | .vsel .. | .vcmp .. | .vbcast .. | .viota ..
  | .vextr .. | .vins .. | .vperm .. | .vslide .. | .vzip .. | .vunzip .. | .vred .. | .vscan .. | .vfadd .. | .vfsub ..
  | .vfmul .. | .vfma .. | .vfms .. | .vfnma .. | .vfmin .. | .vfmax .. | .vfabs .. | .vfneg .. | .vfclass .. | .vfcmp ..
  | .vfrcp .. | .vfrsq .. | .vfsqrt .. | .vexp2 .. | .vlog2 .. | .vfred .. | .vcvt .. | .vquant .. | .vquantF .. | .vdeq ..
  | .vamax .. | .vamaxC .. | .vpack .. | .vunpack .. => .vector
  | .ld .. | .ldG .. | .st .. | .lds .. | .sts .. | .ldx .. | .stx .. | .ldg .. | .ldgG .. | .stg .. | .ldc .. | .stc ..
  | .pf .. | .smap .. | .sunmap .. | .sdrop .. | .sflush .. | .qbind .. | .qunbind .. | .qstat .. | .qflush .. | .aadd ..
  | .amin .. | .amax .. | .aminn .. | .amaxn .. | .aand .. | .aor .. | .axor .. | .axchg .. | .acas .. | .afadd ..
  | .atomicOrd .. | .acq .. | .rel .. | .relf .. | .fence .. | .fencex .. | .cwaddAdd .. | .cwaddArrive .. | .cwaddRead ..
  | .waitcw .. | .sscan .. | .cpy .. | .cpyr .. | .mcast .. | .gath .. | .scat .. | .coll .. | .gnode .. => .memory
  | .mpush .. | .macc .. | .mshiftEdge .. | .mshiftBank .. | .mdrain .. | .mclr .. | .msel .. => .matrix
  | _ => .event
/-- The slots that accept a class. -/
def slotsOf : Family → List Nat
  | .control => [0]
  | .scalar => [1, 2]
  | .memory => [3, 4]
  | .vector => [5, 6]
  | .matrix => [7]
  | .event => []
/-- The three rows of CWADD have one encoding (R321). -/
def canon : Instr → Instr
  | .cwaddArrive x => .cwaddAdd x
  | .cwaddRead x => .cwaddAdd x
  | i => i
/-- LDC and STC have no lease field (R110, R298). -/
def noLeaseField : Instr → Bool
  | .ldc x => x.lease.isNone
  | .stc x => x.lease.isNone
  | _ => true
/-- Every well-formed instruction of a class has a word, and that word decodes to it in every slot of its class. -/
def roundTrips (c : Family) : Prop :=
  ∀ (i : Instr) (feat : BitVec 6), family i = c → i.wellFormed = true → featAllows feat i = true → noLeaseField i = true →
    ∃ w, encode i = some w ∧ ∀ k ∈ slotsOf c, decodeSlot feat k w = .ok (canon i)

/-! ## Control -/

/-- The operation `i` decides the next bundle `nx` (or leaves it), and puts in flight results that land at the end of its
own step, write no latch and raise no flag; `P` holds of the shadowed state they make. Nothing else changes. -/
def actsNextStep (i : Instr) (s : State) (nx : Option Word) (P : Arch → Prop) : Prop :=
  ∃ fs : List Flight,
    exec i s = .next (s.mapCore fun c => { c with flights := c.flights ++ fs, next := nx }) ∧
    (∀ f ∈ fs, f.left = 1 ∧ f.latch = false ∧ f.flags = 0 ∧ isRing f = false) ∧ P (landArch fs s.core.a)

/-- Results whose step ends at the next RESULT_LAND (R202). -/
def dueNow (s : State) : List Flight := s.core.flights.filter fun f => f.left - 1 == 0 && !isRing f

/-! ## Accesses -/

/-- What a load at issue may change beside its result: what a read may, and a rerun's load digest. -/
def loadsOnly (s t : State) : Prop :=
  ∃ u crc, readsOnly s u ∧ t = u.mapRgn fun r => { r with loadCrc := crc }

/-- An address in the scratchpad window, aligned, wholly inside (R283). -/
def spadOk (ea : Int) (n : Nat) : Prop := 0 ≤ ea ∧ ea % n = 0 ∧ ea + n ≤ 0x80000

/-- The byte a scratchpad load takes at an offset: the latest held store's, else the scratchpad's, or in a stash-mapped
range the core's dirty byte, its latest store first (R161, R290, R297, R380). A stash byte the core does not hold dirty comes
from below. -/
def loadedByte (s : State) (off : Nat) (b : Byte) : Prop :=
  let held := heldByte s.core.rgn.held (locOfOff s.core off)
  (∀ h, held = some h → b = h) ∧
  (held = none → mapOfOff s.core.maps off = none → b = Mem.get s.spad (spadAddr s.core.id off)) ∧
  (∀ m, held = none → mapOfOff s.core.maps off = some m →
    let a := m.key + (off - m.off)
    (∀ y, (s.core.young.filter fun y => y.2.1 == a).getLast? = some y → b = y.2.2) ∧
    ∀ l, (∀ y ∈ s.core.young, y.2.1 ≠ a) → (mapOfKey s.core.maps (lineKey a)).isSome = true →
      lineFind s.core (lineKey a) = some l → l.dirty.getLsbD (a % 64) = true → b = lineByte l.data (a % 64))

/-- A byte of a core's own lines: its value and whether it is dirty, when the core holds it. -/
def lineView (c : Core) (a : Nat) : Option (Byte × Bool) :=
  match lineFind c (lineKey a) with
  | some l => if l.valid.getLsbD (a % 64) then some (lineByte l.data (a % 64), l.dirty.getLsbD (a % 64)) else none
  | none => none

/-- The last byte a list of stores writes at a location. -/
def lastStore (l : List (Loc × Byte)) (x : Loc) : Option Byte := ((l.filter fun y => y.1 == x).getLast?).map (·.2)

/-- No operation of the core still to be performed touches the line: none of its atomics, no load that waits for it. -/
def lineQuiet (c : Core) (key : Nat) : Prop := ∀ p ∈ c.pend, atomKey p ≠ some key ∧ waitsFor key p = false
/-- So are the lines the stores `l` go to. -/
def quietFor (c : Core) (l : List (Loc × Byte)) : Prop := ∀ x ∈ l, ∀ a, x.1 = .glob a → lineQuiet c (lineKey a)
/-- The lines of the L1D, the stash's apart, leave room for `n` more (log entry 44). -/
def hasRoom (c : Core) (n : Nat) : Prop := (c.lines.filter fun l => (mapOfKey c.maps l.key).isNone).length + n ≤ l1dLines
/-- What every store does: the scratchpad bytes it names are written and no other, and of the core only %wsig changes, and
what the stores reach of its memory. -/
def storedLocal (s : State) (l : List (Loc × Byte)) (t : State) : Prop :=
  (∀ a, Mem.get t.spad a = (lastStore l (.spad a)).getD (Mem.get s.spad a)) ∧
  t.core.a = s.core.a ∧ t.core.sp = { s.core.sp with wsig := t.core.sp.wsig } ∧ t.core.flights = s.core.flights ∧
  t.core.pc = s.core.pc ∧ t.core.next = s.core.next ∧ t.core.rgn = s.core.rgn ∧ t.core.maps = s.core.maps
/-- `t` is `s` with the stores `l` done and no other byte of memory changed: a scratchpad byte where the scratchpad holds
it, a global byte dirty in the core's own line, when the L1D has room for the lines. Older operations of the same lines still
to be performed come first and are not told of here. A full L1D gives older lines up for them (`calm`). -/
def stored (s : State) (l : List (Loc × Byte)) (t : State) : Prop :=
  storedLocal s l t ∧
  (quietFor s.core l → hasRoom (l.foldl (fun u x => storeLoc x u) s).core 0 →
    (∀ a, lineView t.core a = match lastStore l (.glob a) with
      | some b => some (b, true)
      | none => lineView s.core a) ∧
    t.home = s.home ∧ t.l2 = s.l2 ∧ t.others.map (·.lines) = s.others.map (·.lines) ∧ t.poison = s.poison) ∧
  (quietFor s.core l → calmBut (fun key => ∃ x ∈ l, ∃ a, x.1 = .glob a ∧ lineKey a = key) s t)

/-- The bytes a vector store or a scalar one writes: those of the enabled lanes, at the locations `loc` gives. -/
def storeBytes (n : Nat) (on : Nat → Bool) (loc : Nat → Loc) (x : Vec) : List (Loc × Byte) :=
  (List.range n).filterMap fun i => if on i then some (loc i, x.extractLsb' (8 * i) 8) else none
/-- The value a store writes, and the state once its source is read. -/
def srcVal (s : State) : StSrc → Vec
  | .s _ a => (readS s a).setWidth 1024
  | .v a => src1 s a
def afterSrc (s : State) : StSrc → State
  | .s .. => s
  | .v a => after1 s a
/-- The bytes an access of a form enables: all of a scalar's, a vector's by its lanes. -/
def srcByteOn (s : State) (g : Guard) (a : StSrc) (i : Nat) : Bool := match a with
  | .s .. => true
  | .v _ => (guardBits s g).getLsbD (i / 4)
def dstByteOn (s : State) (g : Guard) (d : LdDst) (i : Nat) : Bool := match d with
  | .s .. => true
  | .v _ => (guardBits s g).getLsbD (i / 4)

/-- One more token operation in flight, in the state `u`; `hot` is what its completion counts (R287). -/
def pendedIn (u : State) (tok : Fin 8) (k : PKind) (ea : Int) (hot : Option (Fin 16 × Nat) := none) : List PendOp :=
  u.core.pend ++ [⟨u.core.seq, tok, k, BitVec.ofInt 64 ea, u.core.slot, u.core.pc, regionOpen u.core, hot⟩]

/-- The token operation `p`, the `k`-th pending of core `n`, completes: `u` is the machine with that core in focus. -/
def completesTo (s : State) (n k : Nat) (p : PendOp) (u : State) : Prop :=
  exec (.tokenComplete n k) s = .next (focus s.core.id u) ∧ u.core.pend = (focus n s).core.pend.filter fun q => q.seq != p.seq
/-- No release of the core is pending, so that lines written go into %wsig itself (R319). -/
def noRelease (c : Core) : Prop := ∀ q ∈ c.pend, ∀ f v sc a h, q.kind ≠ .rel f v sc a h
/-- The sync object at `a` as its home has it (R176). -/
def objAt (s : State) (a : Nat) : SyncObj :=
  objOf ((List.range 128).map fun i => lineByte (homeRead s (lineKey (a + i))) ((a + i) % 64))

/-! ## Engines -/

/-- Command `id` has started and moves bytes within the scratchpad of its core `k`, with no completion word to update. -/
def ownMove (s : State) (id k : Nat) (c : EngCmd) : Prop :=
  cmdFind s id = some c ∧ c.started = true ∧ c.failing = [] ∧ c.core = some k ∧ c.node = none ∧ (coreOf s k).maps = [] ∧
    dSspc c.desc = 1 ∧ dDspc c.desc = 1 ∧ dEcw c.desc = 0 ∧ hasRoom s.core 0 ∧ Mem.wf s.spad = true
/-- The item ends with no failure, and counts `n` bytes. -/
def itemDone (s : State) (id item n : Nat) (c : EngCmd) (t : State) : Prop :=
  exec (.engineItemComplete id item) s = .next t ∧ ∃ c', cmdFind t id = some c' ∧ c'.doneItems = item :: c.doneItems ∧
    c'.bytes = c.bytes + n ∧ c'.failCause = c.failCause
/-- `n` bytes of a core's scratchpad are copied from one offset to another, and no other scratchpad byte changes. -/
def spadCopied (s t : State) (k dst src n : Nat) : Prop :=
  ∀ a, Mem.get t.spad a = if spadAddr k dst ≤ a ∧ a < spadAddr k dst + n then
    Mem.get s.spad (spadAddr k src + (a - spadAddr k dst)) else Mem.get s.spad a
/-- The node of a collective's tree (R370): add wraps, or rounds once; min and max compare as signed, or are those of R270. -/
def collOpIs (d : List Byte) (a b c : Nat) : Prop :=
  let op : RedOp := if collOp d = 0 then .add else if collOp d = 1 then .min else .max
  if collType d = 2 then
    let x := (BitVec.ofNat 32 a).toInt
    let y := (BitVec.ofNat 32 b).toInt
    c < 2 ^ 32 ∧ (op = .add → c = (a + b) % 2 ^ 32) ∧ (op = .min → (BitVec.ofNat 32 c).toInt = min x y) ∧
      (op = .max → (BitVec.ofNat 32 c).toInt = max x y)
  else ∃ f, fredIs (if collType d = 8 then f32F else bf16F) op .rne (a, 0) (b, 0) (c, f)

/-! ## Scans -/

/-- The exact product of two values, a NaN where they have none. -/
def mulIs (x y p : FVal) : Prop :=
  (x.isNan = true ∨ y.isNan = true ∨ infTimesZero x y → p.isNan = true) ∧
  (x.isNan = false → y.isNan = false → ¬ infTimesZero x y → exactProduct x y p)
/-- RNE_f32 of a sum, and of a product. -/
def rneSum (x y : FVal) (r : Nat) : Prop := ∃ f, sumIs f32F .rne x y r f
def rneMul (x y : FVal) (r : Nat) : Prop := ∃ f, productIs f32F .rne x y r f
/-- A running sum from `u`: each product of the list is added exactly and the sum rounded. -/
def runIs : Nat → List (FVal × FVal) → Nat → Prop
  | u, [], r => r = u
  | u, x :: l, r => ∃ p v, mulIs x.1 x.2 p ∧ rneSum (f32v u) p v ∧ runIs v l r
/-- The skip term (R350). -/
def skipIs (d : Option (List FVal)) (v j : Nat) (st : SStep) (r : Nat) : Prop := match d with
  | none => r = v
  | some dv => runIs v [(vecAt dv j, vecAt st.x j)] r

/-! ## Events -/

/-- The bytes a held store writes. -/
def storesOf : Held → List (Loc × Byte)
  | .store b _ _ => b
  | _ => []
/-- A region event brings the region of a core alone to the state `st`. -/
def regionTo (i : Instr) (s : State) (v : State) (st : RState) : Prop :=
  ∃ u, exec i s = .next (focus s.core.id u) ∧ u.core.rgn.st = st ∧ u.core.a = v.core.a ∧ u.core.sp = v.core.sp ∧ u.core.pc = v.core.pc ∧
    sameMem v u

end Sys2Proof.Machine
end

