-- ==== Sys2Proof/Certificates/Slice0/Obligations.lean ====
section
/-! DEFINITION. The statements for the provers. Each docstring names the rules of the manual it formalises. -/

open Sys2Proof Sys2Proof.Machine

/-! ## Results of scalar and predicate operations -/

/-- R257: the result of every scalar integer operation on its operands' 64-bit values, its latency (R203), its
destination (R207), and that it changes nothing else.
R259: signed division truncates toward zero, the remainder takes the dividend's sign, and neither corner traps. -/
def Obligations.ScalarIntegerResults : Prop :=
  (scalar2Gives .add 1 (fun a b r => r.toNat = (a.toNat + b.toNat) % 2 ^ 64) ∧
   scalar2Gives .sub 1 (fun a b r => (r.toNat : Int) = ((a.toNat : Int) - b.toNat) % 2 ^ 64) ∧
   scalar2Gives .and 1 (fun a b r => ∀ i : Fin 64, r.getLsbD i = (a.getLsbD i && b.getLsbD i)) ∧
   scalar2Gives .or 1 (fun a b r => ∀ i : Fin 64, r.getLsbD i = (a.getLsbD i || b.getLsbD i)) ∧
   scalar2Gives .xor 1 (fun a b r => ∀ i : Fin 64, r.getLsbD i = (a.getLsbD i ^^ b.getLsbD i)) ∧
   scalar2Gives .andn 1 (fun a b r => ∀ i : Fin 64, r.getLsbD i = (a.getLsbD i && !b.getLsbD i)) ∧
   scalar2Gives .orn 1 (fun a b r => ∀ i : Fin 64, r.getLsbD i = (a.getLsbD i || !b.getLsbD i)) ∧
   scalar2Gives .shl 1 (fun a b r => r.toNat = a.toNat * 2 ^ (b.toNat % 64) % 2 ^ 64) ∧
   scalar2Gives .shr 1 (fun a b r => r.toNat = a.toNat / 2 ^ (b.toNat % 64)) ∧
   scalar2Gives .sra 1 (fun a b r => r.toInt = a.toInt / 2 ^ (b.toNat % 64)) ∧
   scalar2Gives .rotl 1 (fun a b r => ∀ i : Fin 64, r.getLsbD ((i + b.toNat % 64) % 64) = a.getLsbD i) ∧
   scalar2Gives .rotr 1 (fun a b r => ∀ i : Fin 64, r.getLsbD i = a.getLsbD ((i + b.toNat % 64) % 64)) ∧
   scalar2Gives .min 1 (fun a b r => r.toInt = min a.toInt b.toInt) ∧
   scalar2Gives .max 1 (fun a b r => r.toInt = max a.toInt b.toInt) ∧
   scalar2Gives .minn 1 (fun a b r => r.toNat = min a.toNat b.toNat) ∧
   scalar2Gives .maxn 1 (fun a b r => r.toNat = max a.toNat b.toNat) ∧
   scalar1Gives .clz 1 (fun a r => (a = 0 → r = 64) ∧
     (a ≠ 0 → ∃ n : Fin 64, r.toNat = n ∧ a.getLsbD (63 - n) = true ∧ ∀ i : Fin 64, 63 - n.val < i.val → a.getLsbD i = false)) ∧
   scalar1Gives .ctz 1 (fun a r => (a = 0 → r = 64) ∧
     (a ≠ 0 → ∃ n : Fin 64, r.toNat = n ∧ a.getLsbD n = true ∧ ∀ i : Fin 64, i.val < n.val → a.getLsbD i = false)) ∧
   scalar1Gives .popc 1 (fun a r => r.toNat = ((List.range 64).filter fun i => a.getLsbD i).length) ∧
   scalar1Gives .brev 1 (fun a r => ∀ i : Fin 64, r.getLsbD i = a.getLsbD (63 - i)) ∧
   scalar1Gives (.sxt .b) 1 (fun a r => r.toInt = (a.setWidth 8).toInt) ∧
   scalar1Gives (.sxt .h) 1 (fun a r => r.toInt = (a.setWidth 16).toInt) ∧
   scalar1Gives (.sxt .w) 1 (fun a r => r.toInt = (a.setWidth 32).toInt) ∧
   scalar1Gives (.zxt .b) 1 (fun a r => r.toNat = a.toNat % 2 ^ 8) ∧
   scalar1Gives (.zxt .h) 1 (fun a r => r.toNat = a.toNat % 2 ^ 16) ∧
   scalar1Gives (.zxt .w) 1 (fun a r => r.toNat = a.toNat % 2 ^ 32) ∧
   scalar1Gives .mov 1 (fun a r => r = a) ∧
   (∀ (s : State) (x : S2) (c : Src 16), plain s → guardOn s x.g = true →
     givesS (.sel x c) s s 1 x.d (if (readP s c).getLsbD 0 = true then readS s x.a else readS s x.b)) ∧
   (∀ sh : Fin 8, scalar2Gives (fun x => .lea x sh) 1 (fun a b r => r.toNat = (a.toNat + b.toNat * 2 ^ sh.val) % 2 ^ 64)) ∧
   scalar2Gives .mul 3 (fun a b r => r.toNat = a.toNat * b.toNat % 2 ^ 64) ∧
   scalar2Gives .mulh 3 (fun a b r => r.toInt = a.toInt * b.toInt / 2 ^ 64) ∧
   scalar2Gives .mulhn 3 (fun a b r => r.toNat = a.toNat * b.toNat / 2 ^ 64) ∧
   (∀ imm : BitVec 23, scalar1Gives (fun x => .addi x imm) 1 (fun a r => (r.toNat : Int) = (a.toNat + imm.toInt) % 2 ^ 64))) ∧
  (scalar2Gives .div 18 (fun a b r =>
     (b = 0 → r = 0xFFFFFFFFFFFFFFFF#64) ∧
     (a.toInt = -2 ^ 63 ∧ b.toInt = -1 → r.toInt = -2 ^ 63) ∧
     (b ≠ 0 → ¬ (a.toInt = -2 ^ 63 ∧ b.toInt = -1) → r.toInt = a.toInt.tdiv b.toInt)) ∧
   scalar2Gives .rem 18 (fun a b r =>
     (b = 0 → r = a) ∧
     (a.toInt = -2 ^ 63 ∧ b.toInt = -1 → r = 0) ∧
     (b ≠ 0 → r.toInt = a.toInt.tmod b.toInt ∧ (r.toInt = 0 ∨ (r.toInt < 0 ↔ a.toInt < 0)))) ∧
   scalar2Gives .divn 18 (fun a b r => (b = 0 → r = 0xFFFFFFFFFFFFFFFF#64) ∧ (b ≠ 0 → r.toNat = a.toNat / b.toNat)) ∧
   scalar2Gives .remn 18 (fun a b r => (b = 0 → r = a) ∧ (b ≠ 0 → r.toNat = a.toNat % b.toNat)))

/-- R258: BFX and BFI take position and length from the control value, a length above 64 counting as 64.
R260, R116: MOVI writes its constant sign-extended, MOVHI replaces the upper half of its register, and in a paired
constant both slots carry the combined value, the register taking it from slot 2. -/
def Obligations.BitFieldAndConstantResults : Prop :=
  (scalar2Gives .bfx 1 (fun a b r =>
     let pos := b.toNat % 64
     let len := min (b.toNat / 2 ^ 8 % 2 ^ 7) 64
     r.toNat = a.toNat / 2 ^ pos % 2 ^ len ∧ (len = 0 → r = 0)) ∧
   (∀ (s : State) (x : S3), plain s → guardOn s x.g = true → ∃ r, givesS (.bfi x) s s 1 x.d r ∧
     let a := readS s x.a
     let b := readS s x.b
     let c := readS s x.c
     let pos := c.toNat % 64
     let len := min (c.toNat / 2 ^ 8 % 2 ^ 7) 64
     (∀ i : Fin 64, r.getLsbD i = if pos ≤ i.val ∧ i.val < pos + len then b.getLsbD (i - pos) else a.getLsbD i) ∧
     (len = 0 → r = a))) ∧
  (∀ (s : State) (g : Guard) (imm : BitVec 32), plain s → guardOn s g = true →
     (∀ d : Dst 64, s.core.pair = none → givesS (.movi g d imm) s s 1 d (imm.signExtend 64)) ∧
     (∀ d : Fin 64, s.core.pair = none → ∃ r, givesS (.movhi g d imm) s s 1 (.reg d) r ∧
       r.toNat = imm.toNat * 2 ^ 32 + (s.core.a.s.get d).toNat % 2 ^ 32) ∧
     (∀ (d : Fin 64) (x : Word), s.core.pair = some x → s.core.slot = 2 →
       givesS (.movi g (.reg d) imm) s s 1 (.reg d) x ∧ givesS (.movhi g d imm) s s 1 (.reg d) x) ∧
     (∀ (d : Fin 64) (x : Word), s.core.pair = some x → s.core.slot = 1 →
       givesS (.movi g (.reg d) imm) s s 1 .latch x ∧ givesS (.movhi g d imm) s s 1 .latch x)) ∧
  (∀ (s : State) (l : List SlotOps),
    let alone (k : Fin 8) (i : Instr) : Prop := ∃ w o, l.find? (fun y => y.slot == k) = some o ∧ o.ops = [(w, i)]
    let two (g g' : Guard) (d d' : Fin 64) (lo hi : BitVec 32) : Prop :=
      (alone 1 (.movi g (.reg d) lo) ∧ alone 2 (.movhi g' d' hi)) ∨ (alone 1 (.movhi g' d' hi) ∧ alone 2 (.movi g (.reg d) lo))
    (∀ g g' d lo hi, two g g' d d lo hi → guardOn s g = true → guardOn s g' = true →
      ∃ x, (startBundle l s).core.pair = some x ∧ x.toNat = hi.toNat * 2 ^ 32 + lo.toNat) ∧
    ((∀ g g' d d' lo hi, two g g' d d' lo hi → d ≠ d' ∨ guardOn s g = false ∨ guardOn s g' = false) →
      (startBundle l s).core.pair = none))

/-- The relation a condition code names (R107), on the two operands as signed and as unsigned numbers.
R262, with the encoding of each minor and p0 read as all ones. -/
def Obligations.CompareAndPredicateResults : Prop :=
  (let rel (cc : CC) (a b : Word) : Prop := match cc with
     | .eq => a = b
     | .ne => a ≠ b
     | .lt => a.toInt < b.toInt
     | .le => a.toInt ≤ b.toInt
     | .gt => a.toInt > b.toInt
     | .ge => a.toInt ≥ b.toInt
     | .ltn => a.toNat < b.toNat
     | .len => a.toNat ≤ b.toNat
     | .gtn => a.toNat > b.toNat
     | .gen => a.toNat ≥ b.toNat
   ∀ (s : State) (cc : CC) (g : Guard) (d : Dst 16) (a : Src 64), plain s → guardOn s g = true →
     (∀ b : Src 64, ∃ r : Pred, givesP (.cmp cc g d a b) s s 1 d (BitVec.allOnes 32) r 0 ∧
       (rel cc (readS s a) (readS s b) → r = BitVec.allOnes 32) ∧ (¬ rel cc (readS s a) (readS s b) → r = 0)) ∧
     (∀ imm : BitVec 23, ∃ r : Pred, givesP (.cmpImm cc g d a imm) s s 1 d (BitVec.allOnes 32) r 0 ∧
       (rel cc (readS s a) (imm.signExtend 64) → r = BitVec.allOnes 32) ∧
       (¬ rel cc (readS s a) (imm.signExtend 64) → r = 0))) ∧
  ((∀ (s : State) (x : P2), plain s → guardOn s x.g = true →
     let a := readP s x.a
     let b := readP s x.b
     givesP (.pand x) s s 1 x.d (BitVec.allOnes 32) (a &&& b) 0 ∧
     givesP (.por x) s s 1 x.d (BitVec.allOnes 32) (a ||| b) 0 ∧
     givesP (.pxor x) s s 1 x.d (BitVec.allOnes 32) (a ^^^ b) 0 ∧
     givesP (.pandn x) s s 1 x.d (BitVec.allOnes 32) (a &&& ~~~b) 0) ∧
   (∀ (s : State) (x : P1), plain s → guardOn s x.g = true →
     givesP (.pnot x) s s 1 x.d (BitVec.allOnes 32) (~~~(readP s x.a)) 0) ∧
   (∀ (s : State) (g : Guard) (d : Dst 16) (a : Src 64), plain s → guardOn s g = true →
     givesP (.pfroms g d a) s s 1 d (BitVec.allOnes 32) ((readS s a).setWidth 32) 0) ∧
   (∀ (s : State) (g : Guard) (d : Dst 64) (a : Src 16), plain s → guardOn s g = true →
     givesS (.ptos g d a) s s 1 d ((readP s a).setWidth 64)) ∧
   (∀ s : State, readP s (.reg 0) = BitVec.allOnes 32))

/-- R207, R227, R252: an operation whose whole-operation guard is off produces no result and leaves its latch: the state
does not change. -/
def Obligations.DisabledOperationDoesNothing : Prop :=
  ∀ (s : State) (i : Instr) (g : Guard), wholeGuard i = some g → guardOn s g = false → exec i s = .next s

/-! ## Results of vector operations -/

/-- R264: each vector integer instruction, element by element, with its latency (R203); the lanes its guard turns off
keep the register (R207, in `resultV`'s mask). -/
def Obligations.VectorIntegerResults : Prop :=
  vector2Gives .vadd 2 (fun ty x y r => r = BitVec.ofInt ty.width (readI ty.signed x + readI ty.signed y)) ∧
  vector2Gives .vsub 2 (fun ty x y r => r = BitVec.ofInt ty.width (readI ty.signed x - readI ty.signed y)) ∧
  vector2Gives .vmul 3 (fun ty x y r => r = BitVec.ofInt ty.width (readI ty.signed x * readI ty.signed y)) ∧
  vector2Gives .vmulh 3 (fun ty x y r => readI ty.signed r = readI ty.signed x * readI ty.signed y / 2 ^ ty.width) ∧
  (∀ (s : State) (x : V3), plain s →
    ∃ r : Vec, givesV (.vmad x) s (after3 s x.a x.b x.c) 3 x.d (guardBits s x.g) r 0 ∧
      ∀ e, e < nElems x.ty.width →
        let w := x.ty.width
        elem w r e = BitVec.ofInt w (readI x.ty.signed (elem w (src1 s x.a) e) * readI x.ty.signed (elem w (src2 s x.a x.b) e)
          + readI x.ty.signed (elem w (src3 s x.a x.b x.c) e))) ∧
  saturates .vadds (fun x y => x + y) ∧
  saturates .vsubs (fun x y => x - y) ∧
  vector2Gives .vmin 2 (fun ty x y r => readI ty.signed r = min (readI ty.signed x) (readI ty.signed y)) ∧
  vector2Gives .vmax 2 (fun ty x y r => readI ty.signed r = max (readI ty.signed x) (readI ty.signed y)) ∧
  vector1Gives .vabs 2 (fun ty x r => r = BitVec.ofInt ty.width (if readI ty.signed x < 0 then -readI ty.signed x else readI ty.signed x)) ∧
  vector1Gives .vneg 2 (fun ty x r => r = BitVec.ofInt ty.width (-readI ty.signed x)) ∧
  vector2Gives .vand 2 (fun ty x y r => ∀ i, i < ty.width → r.getLsbD i = (x.getLsbD i && y.getLsbD i)) ∧
  vector2Gives .vor 2 (fun ty x y r => ∀ i, i < ty.width → r.getLsbD i = (x.getLsbD i || y.getLsbD i)) ∧
  vector2Gives .vxor 2 (fun ty x y r => ∀ i, i < ty.width → r.getLsbD i = (x.getLsbD i ^^ y.getLsbD i)) ∧
  vector2Gives .vandn 2 (fun ty x y r => ∀ i, i < ty.width → r.getLsbD i = (x.getLsbD i && !y.getLsbD i)) ∧
  vector2Gives .vshl 2 (fun ty x y r => r.toNat = x.toNat * 2 ^ (y.toNat % ty.width) % 2 ^ ty.width) ∧
  vector2Gives .vshr 2 (fun ty x y r => readI ty.signed r = readI ty.signed x / 2 ^ (y.toNat % ty.width)) ∧
  vector2Gives .vsra 2 (fun ty x y r => r.toInt = x.toInt / 2 ^ (y.toNat % ty.width)) ∧
  (∀ (s : State) (x : V2) (c : Src 16), plain s →
    ∃ r : Vec, givesV (.vsel x c) s (after2 s x.a x.b) 2 x.d (guardBits s x.g) r 0 ∧
      ∀ e, e < nElems x.ty.width → elem x.ty.width r e =
        if (readP s c).getLsbD (laneOf x.ty.width e) = true then elem x.ty.width (src1 s x.a) e
        else elem x.ty.width (src2 s x.a x.b) e)

/-- R265: a lane's bit is 1 when every element of the lane satisfies the condition, read with the condition's and the
type's signedness; lanes that are off stay out of the result's mask. -/
def Obligations.VectorCompareResults : Prop :=
  let rel (cc : CC) (sg : Bool) {w : Nat} (a b : BitVec w) : Prop := match cc with
    | .eq => a = b
    | .ne => a ≠ b
    | .lt => readI sg a < readI sg b
    | .le => readI sg a ≤ readI sg b
    | .gt => readI sg a > readI sg b
    | .ge => readI sg a ≥ readI sg b
    | .ltn => a.toNat < b.toNat
    | .len => a.toNat ≤ b.toNat
    | .gtn => a.toNat > b.toNat
    | .gen => a.toNat ≥ b.toNat
  ∀ (s : State) (cc : CC) (g : Guard) (ty : ITy) (d : Dst 16) (a b : Src 128), plain s →
    ∃ r : Pred, givesP (.vcmp cc g ty d a b) s (after2 s a b) 2 d (guardBits s g) r 0 ∧
      ∀ i : Fin 32, r.getLsbD i = true ↔
        ∀ e, e < nElems ty.width → laneOf ty.width e = i.val →
          rel cc ty.signed (elem ty.width (src1 s a) e) (elem ty.width (src2 s a b) e)

/-- R266: the permutes, with every index taken modulo the element count. -/
def Obligations.PermuteResults : Prop :=
  (∀ (s : State) (x : VS), plain s →
    let w := x.ty.width
    (∃ r : Vec, givesV (.vbcast x) s s 2 x.d (guardBits s x.g) r 0 ∧
      ∀ e, e < nElems w → elem w r e = (readS s x.a).setWidth w) ∧
    (∃ r : Vec, givesV (.viota x) s s 2 x.d (guardBits s x.g) r 0 ∧
      ∀ e, e < nElems w → (elem w r e).toNat = ((readS s x.a).toNat + e) % 2 ^ w)) ∧
  (∀ (s : State) (g : Guard) (ty : ITy) (d : Dst 64) (a : Src 128) (b : Src 64), plain s → guardOn s g = true →
    ∃ r, givesS (.vextr g ty d a b) s (after1 s a) 4 d r ∧
      let x := elem ty.width (src1 s a) ((readS s b).toNat % nElems ty.width)
      (ty.signed = true → r.toInt = x.toInt) ∧ (ty.signed = false → r.toNat = x.toNat)) ∧
  (∀ (s : State) (g : Guard) (ty : ITy) (d : Dst 128) (a : Src 128) (b c : Src 64), plain s →
    ∃ r : Vec, givesV (.vins g ty d a b c) s (after1 s a) 4 d (guardBits s g) r 0 ∧
      ∀ e, e < nElems ty.width → elem ty.width r e =
        if e = (readS s c).toNat % nElems ty.width then (readS s b).setWidth ty.width
        else elem ty.width (src1 s a) e) ∧
  (∀ (s : State) (x : V2), plain s →
    let w := x.ty.width
    let n := nElems w
    let a := src1 s x.a
    let b := src2 s x.a x.b
    (∃ r : Vec, givesV (.vperm x) s (after2 s x.a x.b) 4 x.d (guardBits s x.g) r 0 ∧
      ∀ e, e < n → elem w r e = elem w a ((elem w b e).toNat % n)) ∧
    (∀ c : Src 64, ∃ r : Vec, givesV (.vslide x c) s (after2 s x.a x.b) 4 x.d (guardBits s x.g) r 0 ∧
      ∀ e, e < n → let k := (readS s c).toNat % n
        elem w r e = if e + k < n then elem w a (e + k) else elem w b (e + k - n)) ∧
    (∃ r : Vec, givesV (.vzip x) s (after2 s x.a x.b) 4 x.d (guardBits s x.g) r 0 ∧
      ∀ i, i < n / 2 → elem w r (2 * i) = elem w a i ∧ elem w r (2 * i + 1) = elem w b i) ∧
    (∃ r : Vec, givesV (.vunzip x) s (after2 s x.a x.b) 4 x.d (guardBits s x.g) r 0 ∧
      ∀ i, i < n / 2 → elem w r i = elem w a (2 * i) ∧ elem w r (n / 2 + i) = elem w b (2 * i)))

/-- R267 with the identities of R151: VRED gives one value from the active elements alone, VSCAN the running value at
each active element. The fold from the identity in element order is the tree's value, since both wrap modulo 2^w. -/
def Obligations.ReductionResults : Prop :=
  let op2 (op : RedOp) (ty : ITy) (a b : BitVec ty.width) : BitVec ty.width := match op with
    | .add => a + b
    | .min => BitVec.ofInt ty.width (min (readI ty.signed a) (readI ty.signed b))
    | .max => BitVec.ofInt ty.width (max (readI ty.signed a) (readI ty.signed b))
    | .and => a &&& b
    | .or => a ||| b
    | .xor => a ^^^ b
  let unit (op : RedOp) (ty : ITy) : BitVec ty.width := match op with
    | .add | .or | .xor => 0
    | .and => BitVec.allOnes ty.width
    | .min => BitVec.ofInt ty.width (if ty.signed then 2 ^ (ty.width - 1) - 1 else 2 ^ ty.width - 1)
    | .max => BitVec.ofInt ty.width (if ty.signed then -2 ^ (ty.width - 1) else 0)
  let upTo (op : RedOp) (ty : ITy) (mask : Pred) (v : Vec) (n : Nat) : BitVec ty.width :=
    (((List.range n).filter fun e => mask.getLsbD (laneOf ty.width e)).map fun e => elem ty.width v e).foldl
      (op2 op ty) (unit op ty)
  (∀ (s : State) (op : RedOp) (g : Guard) (ty : ITy) (d : Dst 64) (a : Src 128), plain s →
    ∃ r, givesS (.vred op g ty d a) s (after1 s a) 5 d r ∧
      let v := upTo op ty (guardBits s g) (src1 s a) (nElems ty.width)
      (ty.signed = true → r.toInt = v.toInt) ∧ (ty.signed = false → r.toNat = v.toNat)) ∧
  (∀ (s : State) (op : RedOp) (x : V1), plain s →
    ∃ r : Vec, givesV (.vscan op x) s (after1 s x.a) 5 x.d (guardBits s x.g) r 0 ∧
      ∀ e, e < nElems x.ty.width → (guardBits s x.g).getLsbD (laneOf x.ty.width e) = true →
        elem x.ty.width r e = upTo op x.ty (guardBits s x.g) (src1 s x.a) (e + 1))

/-- R269 to R271, R273, R255, R203, element by element: VFADD, VFSUB, VFMUL and the fused three give their exact value
rounded once, VFMIN and VFMAX one of their operands, VFRCP, VFRSQ and VFSQRT the correctly rounded 1/x, 1/√x and √x with
their special values, VEXP2 and VLOG2 Exp2_f32 and Log2_f32 (R153 to R156). The flags are those of the elements of enabled
lanes, and nothing else changes but what reading the sources changes. -/
def Obligations.FloatArithmeticResults : Prop :=
  let elems (ty : FTy) (mask : BitVec 32) (r : Vec) (fl : BitVec 6) (P : Nat → Nat → BitVec 6 → Prop) : Prop :=
    ∃ ef : Nat → BitVec 6, (∀ e, e < nElems (fwidth ty) → P e (felem ty r e) (ef e)) ∧
      ∀ k, fl.getLsbD k = true ↔ ∃ e, e < nElems (fwidth ty) ∧
        mask.getLsbD (laneOf (fwidth ty) e) = true ∧ (ef e).getLsbD k = true
  (∀ (s : State) (x : F2), plain s →
    let F := FTy.fmt x.ty
    let m := guardBits s x.g
    let a := fval x.ty (src1 s x.a)
    let b := fval x.ty (src2 s x.a x.b)
    let t := after2 s x.a x.b
    let out (r : Vec) (fl : BitVec 6) : State := queued (resultV t 4 x.d m r fl) (afterPush x.d m t)
    (∃ r fl, exec (.vfadd x) s = .next (out r fl) ∧ elems x.ty m r fl fun e => sumIs F x.rm (a e) (b e)) ∧
    (∃ r fl, exec (.vfsub x) s = .next (out r fl) ∧ elems x.ty m r fl fun e => sumIs F x.rm (a e) (b e).negate) ∧
    (∃ r fl, exec (.vfmul x) s = .next (out r fl) ∧ elems x.ty m r fl fun e => productIs F x.rm (a e) (b e)) ∧
    (∃ r fl, exec (.vfmin x) s = .next (out r fl) ∧ elems x.ty m r fl fun e =>
      extremeIs F numLe (felem x.ty (src1 s x.a) e) (felem x.ty (src2 s x.a x.b) e)) ∧
    (∃ r fl, exec (.vfmax x) s = .next (out r fl) ∧ elems x.ty m r fl fun e =>
      extremeIs F (fun u v => numLe v u) (felem x.ty (src1 s x.a) e) (felem x.ty (src2 s x.a x.b) e))) ∧
  (∀ (s : State) (x : F3), plain s →
    let F := FTy.fmt x.ty
    let m := guardBits s x.g
    let a := fval x.ty (src1 s x.a)
    let b := fval x.ty (src2 s x.a x.b)
    let c := fval x.ty (src3 s x.a x.b x.c)
    let t := after3 s x.a x.b x.c
    let out (r : Vec) (fl : BitVec 6) : State := queued (resultV t 4 x.d m r fl) (afterPush x.d m t)
    (∃ r fl, exec (.vfma x) s = .next (out r fl) ∧ elems x.ty m r fl fun e => productSumIs F x.rm (a e) (b e) (c e)) ∧
    (∃ r fl, exec (.vfms x) s = .next (out r fl) ∧ elems x.ty m r fl fun e => productSumIs F x.rm (a e) (b e) (c e).negate) ∧
    (∃ r fl, exec (.vfnma x) s = .next (out r fl) ∧ elems x.ty m r fl fun e => productSumIs F x.rm (a e).negate (b e) (c e))) ∧
  (∀ (s : State) (x : F1), plain s →
    let F := FTy.fmt x.ty
    let m := guardBits s x.g
    let a := fval x.ty (src1 s x.a)
    let t := after1 s x.a
    let out (r : Vec) (fl : BitVec 6) : State := queued (resultV t 6 x.d m r fl) (afterPush x.d m t)
    let nan (v : FVal) (r : Nat) (f : BitVec 6) : Prop :=
      v.isNan = true → r = nanBits F ∧ f = if v.isSNan = true then fNV else 0
    let negative (v : FVal) (r : Nat) (f : BitVec 6) : Prop :=
      v = .inf true ∨ (v.finite = true ∧ v.rat < 0) → r = nanBits F ∧ f = fNV
    (∃ r fl, exec (.vfrcp x) s = .next (out r fl) ∧ elems x.ty m r fl fun e r f => let v := a e
      nan v r f ∧ (v.isZero = true → r = infBits F v.neg ∧ f = fDZ) ∧ (∀ n, v = .inf n → r = zeroBits F n ∧ f = 0) ∧
      (v.finite = true → v.isZero = false → roundsTo F x.rm (1 / (v.rat : ℝ)) r f ∧ (decodeF F r).neg = v.neg)) ∧
    (∃ r fl, exec (.vfrsq x) s = .next (out r fl) ∧ elems x.ty m r fl fun e r f => let v := a e
      nan v r f ∧ negative v r f ∧ (v.isZero = true → r = infBits F v.neg ∧ f = fDZ) ∧
      (v = .inf false → r = zeroBits F false ∧ f = 0) ∧
      (v.finite = true → 0 < v.rat → roundsTo F x.rm (1 / Real.sqrt v.rat) r f)) ∧
    (∃ r fl, exec (.vfsqrt x) s = .next (out r fl) ∧ elems x.ty m r fl fun e r f => let v := a e
      nan v r f ∧ negative v r f ∧ (v.isZero = true → r = zeroBits F v.neg ∧ f = 0) ∧
      (v = .inf false → r = infBits F false ∧ f = 0) ∧
      (v.finite = true → 0 < v.rat → roundsTo F x.rm (Real.sqrt v.rat) r f)) ∧
    (∃ r fl, exec (.vexp2 x) s = .next (out r fl) ∧ elems x.ty m r fl fun e => throughF32 x.ty exp2Is (a e)) ∧
    (∃ r fl, exec (.vlog2 x) s = .next (out r fl) ∧ elems x.ty m r fl fun e => throughF32 x.ty log2Is (a e)))

/-- R271, R272, R274: the floating-point operations that do not round: sign, class, compare and reduction. -/
def Obligations.FloatSignClassCompareResults : Prop :=
  (∀ (s : State) (x : F1), plain s →
    let F := FTy.fmt x.ty
    let w := fwidth x.ty
    let bits := felem x.ty (src1 s x.a)
    let val := fval x.ty (src1 s x.a)
    let signOf (b : Nat) : Bool := b / 2 ^ (w - 1) % 2 == 1
    let invalid (fl : BitVec 6) : Prop := ∀ k, fl.getLsbD k = true ↔ k = 4 ∧ ∃ e, e < nElems w ∧
      (guardBits s x.g).getLsbD (laneOf w e) = true ∧ (val e).isSNan = true
    (∃ (r : Vec) (fl : BitVec 6), givesV (.vfabs x) s (after1 s x.a) 2 x.d (guardBits s x.g) r fl ∧
      (∀ e, e < nElems w → felem x.ty r e =
        if (val e).isNan = true then nanBits F else bits e % 2 ^ (w - 1)) ∧ invalid fl) ∧
    (∃ (r : Vec) (fl : BitVec 6), givesV (.vfneg x) s (after1 s x.a) 2 x.d (guardBits s x.g) r fl ∧
      (∀ e, e < nElems w → felem x.ty r e =
        if (val e).isNan = true then nanBits F
        else if signOf (bits e) = true then bits e % 2 ^ (w - 1) else bits e % 2 ^ (w - 1) + 2 ^ (w - 1)) ∧ invalid fl) ∧
    (∃ r : Vec, givesV (.vfclass x) s (after1 s x.a) 2 x.d (guardBits s x.g) r 0 ∧
      ∀ e, e < nElems w → ∃ k, k < 10 ∧ felem x.ty r e = 2 ^ k ∧
        match val e with
        | .nan true => k = 8
        | .nan false => k = 9
        | .inf n => k = if n then 0 else 7
        | .fin n m _ => if m = 0 then k = (if n then 3 else 4)
            else if m < 2 ^ F.mb then k = (if n then 2 else 5) else k = (if n then 1 else 6))) ∧
  (∀ (s : State) (cc : FCC) (g : Guard) (ty : FTy) (d : Dst 16) (a b : Src 128), plain s →
    ∃ (r : Pred) (fl : BitVec 6), givesP (.vfcmp cc g ty d a b) s (after2 s a b) 2 d (guardBits s g) r fl ∧
      (∀ i : Fin 32, r.getLsbD i = true ↔ ∀ e, e < nElems (fwidth ty) → laneOf (fwidth ty) e = i.val →
        fccIs cc (fval ty (src1 s a) e) (fval ty (src2 s a b) e)) ∧
      (∀ k, fl.getLsbD k = true ↔ k = 4 ∧ ∃ e, e < nElems (fwidth ty) ∧
        (guardBits s g).getLsbD (laneOf (fwidth ty) e) = true ∧
        fccInvalid cc (fval ty (src1 s a) e) (fval ty (src2 s a b) e))) ∧
  (∀ (s : State) (op : RedOp) (g : Guard) (ty : FTy) (rm : Rnd) (d : Dst 64) (a : Src 128), plain s →
    let F := FTy.fmt ty
    let on (e : Nat) : Bool := decide (e < nElems (fwidth ty)) && (guardBits s g).getLsbD (laneOf (fwidth ty) e)
    let leaf (e : Nat) : Option (Nat × BitVec 6) := if on e = true then some (felem ty (src1 s a) e, 0) else none
    ∃ (r : Nat) (fl : BitVec 6) (root : Option (Nat × BitVec 6)), r < 2 ^ fwidth ty ∧
      exec (.vfred op g ty rm d a) s = .next (queued
        { resultS (after1 s a) 5 d (BitVec.ofNat 64 r) with flags := fl } (after1 s a)) ∧
      treeIs (fredIs F op rm) leaf (if fwidth ty = 32 then 5 else 6) root ∧
      (root = none → fl = 0 ∧ r = match op with
        | .min => infBits F false
        | .max => infBits F true
        | _ => 0) ∧
      (∀ v, root = some v → (r = if (decodeF F v.1).isNan = true then nanBits F else v.1) ∧
        ∀ k, fl.getLsbD k = true ↔ v.2.getLsbD k = true ∨
          (k = 4 ∧ ∃ e, on e = true ∧ (fval ty (src1 s a) e).isSNan = true)))

/-- R132, R133: Round_F of a finite value, where it gives a finite value, is on the side the mode asks for, and in the
nearest-even mode no representable value is nearer; a value of the format rounds to itself with no flag. -/
def Obligations.RoundingIsCorrect : Prop :=
  ∀ (ty : FTy) (n : Bool) (m : Nat) (e : Int),
    let F := FTy.fmt ty
    let x := FVal.fin n m e
    (∀ rm : Rnd, (decodeF F (roundF F rm x).1).finite = true →
      let r := FVal.rat (decodeF F (roundF F rm x).1)
      (rm = .rdn → r ≤ FVal.rat x) ∧
      (rm = .rup → FVal.rat x ≤ r) ∧
      (rm = .rtz → |r| ≤ |FVal.rat x|) ∧
      (rm = .rne → ∀ y, y < 2 ^ fwidth ty → (decodeF F y).finite = true → |FVal.rat x - r| ≤ |FVal.rat x - FVal.rat (decodeF F y)|) ∧
      ((roundF F rm x).2.getLsbD 0 = true ↔ r ≠ FVal.rat x)) ∧
    (∀ rm : Rnd, ∀ y, y < 2 ^ fwidth ty → (decodeF F y).finite = true → roundF F rm (decodeF F y) = (y, 0))

/-- R277, R278, R136 to R138: what VCVT, VPACK and VUNPACK write into each element, and the flags of enabled lanes. -/
def Obligations.ConversionResults : Prop :=
  (∀ (s : State) (x : CV), plain s →
    let ws := x.sty.width
    let wt := x.tt.width
    let lo := x.part.val * (1024 / ws)
    let hi := (x.part.val + 1) * (1024 / ws)
    ∃ (r : Vec) (fl : BitVec 6) (ef : Nat → BitVec 6), givesV (.vcvt x) s (after1 s x.a) 3 x.d (guardBits s x.g) r fl ∧
      (∀ e, e < nElems wt →
        let conv (k : Nat) : Prop := convIs x.tt x.crm x.wrp x.iee (xval x.sty (elem ws (src1 s x.a) k).toNat)
          (elem wt r e).toNat (ef e)
        (ws ≤ wt → conv (x.part.val * (1024 / wt) + e)) ∧
        (wt < ws → lo ≤ e ∧ e < hi → conv (e - lo)) ∧
        (wt < ws → e < lo ∨ hi ≤ e → elem wt r e = 0 ∧ ef e = 0)) ∧
      ∀ k, fl.getLsbD k = true ↔ ∃ e, e < nElems wt ∧ (guardBits s x.g).getLsbD (laneOf wt e) = true ∧
        (ef e).getLsbD k = true) ∧
  (∀ (s : State) (x : V2) (wrp : Bool), plain s →
    let ws := x.ty.width
    let h := ws / 2
    let sg := x.ty.signed
    let lo : Int := if sg = true then -2 ^ (h - 1) else 0
    let hi : Int := if sg = true then 2 ^ (h - 1) - 1 else 2 ^ h - 1
    let v (e : Nat) : Int := readI sg (if e < 1024 / ws then elem ws (src1 s x.a) e else elem ws (src2 s x.a x.b) (e - 1024 / ws))
    ∃ (r : Vec) (fl : BitVec 6), givesV (.vpack x wrp) s (after2 s x.a x.b) 3 x.d (guardBits s x.g) r fl ∧
      (∀ e, e < nElems h → elem h r e = BitVec.ofInt h (if wrp = true then v e else max lo (min hi (v e)))) ∧
      ∀ k, fl.getLsbD k = true ↔ k = 5 ∧ wrp = false ∧ ∃ e, e < nElems h ∧
        (guardBits s x.g).getLsbD (laneOf h e) = true ∧ (v e < lo ∨ hi < v e)) ∧
  (∀ (s : State) (x : V1) (part : Bool), plain s →
    let ws := x.ty.width
    ∃ r : Vec, givesV (.vunpack x part) s (after1 s x.a) 3 x.d (guardBits s x.g) r 0 ∧
      ∀ e, e < nElems (2 * ws) → elem (2 * ws) r e =
        BitVec.ofInt (2 * ws) (readI x.ty.signed (elem ws (src1 s x.a) ((if part = true then 512 / ws else 0) + e))))

/-- R279, R280, R281: the block a VQUANT lays out (codes, scale, prescale exponent and zeros), what VDEQ makes of one, and
the ring operations, which land on the fifth step and write no latch. -/
def Obligations.BlockFormatResults : Prop :=
  let laysOut (F : MXF) (nr : Bool) (g : Ring) (crm : Rnd) (v r : Vec) (fl : BitVec 6) : Prop :=
    ∃ (k : Int) (code : Nat → Int), (if nr = true then k = 0 else prescaleIs F g k) ∧
    quantIs F k crm (fval .f32 v) (elem 8 r 120) code fl ∧
    (∀ i, i < 32 → r.extractLsb' (MXF.b F * i) (MXF.b F) = BitVec.ofInt (MXF.b F) (code i)) ∧
    elem 8 r 121 = BitVec.ofInt 8 k ∧
    (∀ j, 4 * MXF.b F ≤ j → j < 128 → j ≠ 120 → j ≠ 121 → elem 8 r j = 0)
  (∀ (s : State) (d : Dst 128) (a : Src 128) (F : MXF) (nr : Bool) (ring : Fin 16) (crm : Rnd), plain s →
    ∃ r fl, givesV (.vquant d a F nr ring crm) s (after1 s a) 5 d (BitVec.allOnes 32) r fl ∧
      laysOut F nr (s.core.a.rings.get ring) crm (src1 s a) r fl) ∧
  (∀ (s : State) (d : Dst 128) (a : Src 128) (side : Bool) (k : Fin 4) (crm : Rnd) (e : FmtEntry), plain s →
    fmttEntry s.feat s.core.sp.fmtt (s.core.a.lc.get k) = some e →
    let F := if side = true then e.bf else e.af
    let nr := if side = true then e.bnr else e.anr
    let ring := if side = true then e.bring else e.aring
    ∃ r fl, givesV (.vquantF d a side k crm) s (after1 s a) 5 d (BitVec.allOnes 32) r fl ∧
      laysOut F nr (s.core.a.rings.get ring) crm (src1 s a) r fl) ∧
  (∀ (s : State) (d : Dst 128) (a : Src 128) (side : Bool) (k : Fin 4) (crm : Rnd),
    fmttEntry s.feat s.core.sp.fmtt (s.core.a.lc.get k) = none → ∃ w : SlotWord,
      encode (.vquantF d a side k crm) = some w ∧
      exec (.vquantF d a side k crm) s = .next (trapHere 0x01 (w.setWidth 64) s)) ∧
  (∀ (s : State) (g : Guard) (d : Dst 128) (a : Src 128) (F : MXF) (crm : Rnd), plain s →
    ∃ r fl, givesV (.vdeq g d a F crm) s (after1 s a) 3 d (guardBits s g) r fl ∧
      let sc := (elem 8 (src1 s a) 120).toNat
      let k := (elem 8 (src1 s a) 121).toInt
      let q (e : Nat) : Int := codeVal F ((src1 s a).extractLsb' (MXF.b F * e) (MXF.b F)).toNat
      let x (e : Nat) : Nat × BitVec 6 :=
        roundF f32F crm (.fin (decide (q e < 0)) (q e).natAbs ((sc : Int) - 127 - MXF.f F - k))
      (sc = 0xFF → (∀ e, e < 32 → elem 32 r e = 0x7FC00000#32) ∧ fl = if guardBits s g = 0 then 0 else fNV) ∧
      (sc ≠ 0xFF → (∀ e, e < 32 → elem 32 r e = BitVec.ofNat 32 (x e).1) ∧
        ∀ b, fl.getLsbD b = true ↔ ∃ e, e < 32 ∧ (guardBits s g).getLsbD e = true ∧ (x e).2.getLsbD b = true)) ∧
  (∀ (s : State) (g : Guard) (ty : FTy) (a : Src 128) (ring : Fin 16), plain s →
    let on (e : Nat) : Prop := e < nElems (fwidth ty) ∧ (guardBits s g).getLsbD (laneOf (fwidth ty) e) = true ∧
      (fval ty (src1 s a) e).isNan = false
    ∃ m : Nat, exec (.vamax g ty a ring) s = .next (queued
        (resultOf (after1 s a) 5 (.ringPush ring) false 0 (BitVec.ofNat 1024 m) 0) (after1 s a)) ∧
      ((∀ e, ¬ on e) → m = 0) ∧
      ((∃ e, on e ∧ (fval ty (src1 s a) e).finite = false) → m = infBits f32F false) ∧
      ((∀ e, on e → (fval ty (src1 s a) e).finite = true) → (∃ e, on e) →
        (∀ e, on e → |(fval ty (src1 s a) e).rat| ≤ (decodeF f32F m).rat) ∧
        ∃ e, on e ∧ |(fval ty (src1 s a) e).rat| = (decodeF f32F m).rat)) ∧
  (∀ (s : State) (g : Guard) (ring : Fin 16), plain s →
    (guardBits s g ≠ 0 → exec (.vamaxC g ring) s = .next (queued (resultOf s 5 (.ringClear ring) false 0 0 0) s)) ∧
    (guardBits s g = 0 → exec (.vamaxC g ring) s = .next s))

/-- R328, R330, R331, R332: the matrix operations but MACC. They act in the step they issue; MDRAIN alone is guarded per
lane and lands after four steps. -/
def Obligations.MatrixStateResults : Prop :=
  (∀ (s : State) (g : Guard) (pt : Fin 8) (a : Src 128), guardOn s g = true →
    let m0 := s.core.a.mat
    let x := src1 s a
    ∃ m : Matrix, exec (.mpush g pt a) s = .next (withMat m (after1 s a)) ∧
      (m.acc = m0.acc ∧ m.banks = m0.banks ∧ m.beat = m0.beat ∧ m.opn = m0.opn) ∧
      (∀ i : Fin 16, m.aEdge.get i = if i.val / 4 = pt.val then x.extractLsb' (256 * (i.val % 4)) 256 else m0.aEdge.get i) ∧
      (∀ i : Fin 16, m.sa.get i = if pt.val = 4 ∨ pt.val = 5 then elem 8 x i.val else m0.sa.get i) ∧
      (∀ j : Fin 32, m.sb.get j = if pt.val = 4 ∨ pt.val = 6 then elem 8 x (16 + j.val) else m0.sb.get j) ∧
      (m.bEdge = if pt.val = 7 then x else m0.bEdge)) ∧
  (∀ (s : State) (g : Guard) (a : Src 128), guardOn s g = true →
    let m0 := s.core.a.mat
    let x := src1 s a
    ∃ m : Matrix, exec (.mshiftEdge g a) s = .next (withMat m (after1 s a)) ∧
      m = { m0 with aEdge := m.aEdge, sa := m.sa } ∧
      (∀ i : Fin 15, m.aEdge.get i.succ = m0.aEdge.get i.castSucc ∧ m.sa.get i.succ = m0.sa.get i.castSucc) ∧
      m.aEdge.get 0 = x.extractLsb' 0 256 ∧ m.sa.get 0 = elem 8 x 32) ∧
  (∀ (s : State) (g : Guard) (bank : Fin 4), guardOn s g = true →
    let m0 := s.core.a.mat
    ∃ m : Matrix, exec (.mshiftBank g bank) s = .next (withMat m s) ∧
      m = { m0 with banks := m.banks } ∧
      (∀ b : Fin 4, b ≠ bank → m.banks.get b = m0.banks.get b) ∧
      (∀ i : Fin 15, (m.banks.get bank).get i.castSucc = (m0.banks.get bank).get i.succ) ∧
      (∀ j : Fin 32, ((m.banks.get bank).get 15).get j = 0)) ∧
  (∀ (s : State) (g : Guard) (d : Dst 128) (bank : Fin 4) (ty : FTy) (rm : Rnd) (row : Fin 16), plain s →
    let v (j : Fin 32) : BitVec 32 := ((s.core.a.mat.banks.get bank).get row).get j
    ∃ r fl, givesV (.mdrain g d bank ty rm row) s s 4 d (guardBits s g) r fl ∧
      (ty = .f32 → fl = 0 ∧ ∀ j : Fin 32, elem 32 r j = v j) ∧
      (ty ≠ .f32 → (∀ j : Fin 32, elem 16 r j = BitVec.ofNat 16 (roundF (FTy.fmt ty) rm (decodeF f32F (v j).toNat)).1) ∧
        (∀ j, 32 ≤ j → j < 64 → elem 16 r j = 0) ∧
        (∀ b, fl.getLsbD b = true ↔ ∃ j : Fin 32, (guardBits s g).getLsbD (laneOf 16 j) = true ∧
          (roundF (FTy.fmt ty) rm (decodeF f32F (v j).toNat)).2.getLsbD b = true))) ∧
  (∀ (s : State) (g : Guard) (bank : Fin 4) (ca : Bool), guardOn s g = true →
    let m0 := s.core.a.mat
    ∃ m : Matrix, exec (.mclr g bank ca) s = .next (withMat m s) ∧
      m = { m0 with banks := m.banks, acc := m.acc, beat := m.beat, opn := m.opn } ∧
      (∀ b : Fin 4, b ≠ bank → m.banks.get b = m0.banks.get b) ∧
      (∀ (i : Fin 16) (j : Fin 32), ((m.banks.get bank).get i).get j = 0) ∧
      (ca = true → m.beat = 0 ∧ m.opn = false ∧ ∀ (i : Fin 16) (j : Fin 32), (m.acc.get i).get j = 0) ∧
      (ca = false → m.beat = m0.beat ∧ m.opn = m0.opn ∧ m.acc = m0.acc)) ∧
  (∀ (s : State) (g : Guard) (md ms : Fin 4) (xch : Bool), guardOn s g = true →
    let m0 := s.core.a.mat
    ∃ m : Matrix, exec (.msel g md ms xch) s = .next (withMat m s) ∧
      m = { m0 with banks := m.banks } ∧
      m.banks.get md = m0.banks.get ms ∧
      (md ≠ ms → m.banks.get ms = if xch = true then m0.banks.get md else m0.banks.get ms) ∧
      (∀ b : Fin 4, b ≠ md → b ≠ ms → m.banks.get b = m0.banks.get b))

/-- R329, R148, R149: one beat adds to every cell the exact sum over its depth, modulo 2^32; a closing beat puts every cell
into its bank and starts a block; the flags are ORed in the beat's own step. -/
def Obligations.MatrixBeatResults : Prop :=
  ∀ (s : State) (g : Guard) (bank : Fin 4) (cls : Bool) (f : MFmt) (a b : Option (Src 128)) (fa fb : MXF),
    plain s → guardOn s g = true → maccPair s f = some (fa, fb) →
    let m0 := s.core.a.mat
    let d := pairDepth fa fb
    let c0 := m0.beat.val % (32 / d) * d
    let s1 := match a with
      | some x => after1 s x
      | none => s
    let s2 := match b with
      | some y => after1 s1 y
      | none => s1
    let slab : Vec := match b with
      | some y => src1 s1 y
      | none => m0.bEdge
    let code (F : MXF) {w : Nat} (v : BitVec w) (i : Nat) : Int := codeVal F (v.extractLsb' (MXF.b F * i) (MXF.b F)).toNat
    let elemA (i : Fin 16) (k : Nat) : Int := match a with
      | some x => code fa (src1 s x) (d * i.val + k)
      | none => code fa (m0.aEdge.get i) (c0 + k)
    let acc (i : Fin 16) (j : Fin 32) : BitVec 32 :=
      BitVec.ofInt 32 (((m0.acc.get i).get j).toInt + ((List.range d).map fun k => elemA i k * code fb slab (32 * k + j.val)).sum)
    ∃ (m : Matrix) (fl : BitVec 6),
      exec (.macc g bank cls f a b) s =
        .next (countEvt 4 1 (queued (resultOf s2 1 .flagsOnly false 0 0 fl) (withMat m s2))) ∧
      m = { m0 with acc := m.acc, beat := m.beat, opn := m.opn, banks := m.banks } ∧
      (cls = false → fl = 0 ∧ m.banks = m0.banks ∧ m.opn = true ∧ m.beat.val = (m0.beat.val + 1) % 16 ∧
        ∀ i j, (m.acc.get i).get j = acc i j) ∧
      (cls = true → m.opn = false ∧ m.beat = 0 ∧ (∀ i j, (m.acc.get i).get j = 0) ∧
        (∀ k : Fin 4, k ≠ bank → m.banks.get k = m0.banks.get k) ∧
        ∃ cf : Fin 16 → Fin 32 → BitVec 6,
          (∀ i j, closeIs (acc i j) (m0.sa.get i) (m0.sb.get j) (pairExp fa fb) (((m0.banks.get bank).get i).get j)
            (((m.banks.get bank).get i).get j) (cf i j)) ∧
          ∀ b, fl.getLsbD b = true ↔ ∃ i j, (cf i j).getLsbD b = true)

/-! ## Encodings, bundles and the step -/

/-- Words written out from the manual's encodings, one or more for each slot class, and what each stands for. -/
def Obligations.DecodesWrittenWords : Prop :=
  decodeTableWord 0 0x000000FFFFFFFF = some (.br .always 0xFFFFFFFF#32) ∧
  decodeTableWord 0 0x044000FFFFFFFE = some (.loop 0 0xFFFFFFFE#32) ∧
  decodeTableWord 0 0x08000000000003 = some (.ckpt 3) ∧
  decodeTableWord 0 0x10400002800210 = some (.swr .always (.reg 5) 0x21 0) ∧
  decodeTableWord 0 0x20000A04804000 = some (.add ⟨.always, .reg 10, .reg 9, .reg 1⟩) ∧
  decodeTableWord 0 0x2C000502FFFFFF = some (.addi ⟨.always, .reg 5, .reg 5⟩ 0x7FFFFF#23) ∧
  decodeTableWord 0 0x300007456789AB = some (.movi .always (.reg 7) 0x456789AB#32) ∧
  decodeTableWord 0 0x38400102800000 = some (.cmpImm .ne .always (.reg 1) (.reg 5) 0) ∧
  decodeTableWord 0 0x61104010000000 = some (.ld ⟨⟨false, 8⟩, .v (.reg 64), ⟨4, 0⟩, 0⟩) ∧
  decodeTableWord 0 0x65000910000400 = some (.st .always (.v (.reg 9)) ⟨4, 1⟩ 0) ∧
  decodeTableWord 0 0x73000913FFF8B5 = some (.ldg ⟨.always, .v (.reg 9), ⟨4, 0xFFFE#16⟩, 1, some 3, 5⟩) ∧
  decodeTableWord 0 0x88000510000980 = some (.aadd ⟨.always, .w, 5, ⟨4, 2⟩, 3⟩) ∧
  decodeTableWord 0 0x98018010000100 = some (.acq .always none ⟨4, 0⟩ 2) ∧
  decodeTableWord 0 0x9C800018000980 = some (.cpyr ⟨.always, ⟨6, 2⟩, 3⟩) ∧
  decodeTableWord 0 0xA1144321008068 = some (.vmad ⟨⟨false, 10⟩, .i32, .reg 67, .reg 66, .reg 2, .reg 3⟩) ∧
  decodeTableWord 0 0xB8C00A00808060 = some (.vfma ⟨.always, .f32, .rne, .reg 10, .reg 1, .reg 2, .reg 3⟩) ∧
  decodeTableWord 0 0xC4060600800000 = some (.vfred .add ⟨false, 3⟩ .f32 .rne (.reg 6) (.reg 1)) ∧
  decodeTableWord 0 0xF0408000E00800 = some (.macc .always 1 true (.xf .mx8) none (some (.reg 7)))

/-- R100 to R117: encoding and decoding agree on the control and the matrix class.
R100 to R117: encoding and decoding agree on the scalar class. -/
def Obligations.ControlScalarMatrixRoundTrip : Prop :=
  (roundTrips .control ∧ roundTrips .matrix) ∧
  (roundTrips .scalar)

/-- R100 to R117: encoding and decoding agree on the vector class.
R100 to R117: encoding and decoding agree on the memory class. -/
def Obligations.VectorMemoryRoundTrip : Prop :=
  (roundTrips .vector) ∧
  (roundTrips .memory)

/-- A slot accepts a word only as a well-formed instruction of its own class, which the features allow (R442), and the
word is that instruction's one encoding: no bit of it is ignored. -/
def Obligations.AcceptedWordsAreCanonical : Prop :=
  ∀ (feat : BitVec 6) (k : Nat) (w : SlotWord) (i : Instr), k < 8 → decodeSlot feat k w = .ok i →
    i.wellFormed = true ∧ featAllows feat i = true ∧ k ∈ slotsOf (family i) ∧ encode i = some w

/-- R117, checks 1 to 6: the header's faults come before any slot's, in their order, and a word where `OCC` is 0 is
cause 0x02. -/
def Obligations.HeaderFaultsComeFirst : Prop :=
  ∀ (s : State) (b : BundleBits),
    let h := headerOf b
    let bad : Nat → Prop := fun
      | 1 => hClass h ≠ 0 ∧ hClass h ≠ 1
      | 2 => 4 < (hScope h).toNat
      | 3 => hRun h ≠ 0 ∧ hClass h = 0
      | 4 => ∃ p, p < 6 ∧ (hPort h p).getLsbD 4 = true ∧ 10 ≤ ((hPort h p).extractLsb' 0 4).toNat
      | 5 => ∃ p, p < 6 ∧ (hPort h p).getLsbD 4 = false ∧ hPort h p ≠ 0
      | _ => False
    let cause : Nat → Byte := fun n => if n = 3 ∨ n = 5 then 0x02 else 0x01
    (∀ n, 1 ≤ n → n ≤ 5 → bad n → (∀ m, m < n → ¬ bad m) → checks s b = .error ⟨8, cause n, h⟩) ∧
    ((∀ n, ¬ bad n) → ∀ k : Fin 8, (∀ j : Fin 8, j < k → (hOcc h).getLsbD j.val = false ∧ slotOf b j.val = 0) →
      (hOcc h).getLsbD k.val = false → slotOf b k.val ≠ 0 →
      checks s b = .error ⟨k.val, 0x02, (slotOf b k.val).setWidth 64⟩) ∧
    ((∀ n, ¬ bad n) → (∀ k : Fin 8, (hOcc h).getLsbD k.val = false ∧ slotOf b k.val = 0) → portCodes h = [] →
      checks s b = .ok [])

/-- A step runs the decoded instruction: where the bundle at the pc holds the one word of instruction `i` and nothing
holds or stops it, the step is `exec` of `i` in its slot, then the rest of the bundle's work (its end and what follows). -/
def Obligations.StepRunsDecodedInstruction : Prop :=
  ∀ (s s1 s4 : State) (b : BundleBits) (k : Fin 8) (w : SlotWord) (i : Instr),
    s.agenda = [] → s.script = [] → runnable s s.core = true → s.core.slice % 64 ≠ 0 → overrun s.core = false →
    regionOpen s.core = false → s.core.feed = [] → fetchWaits s = false → fetch s = (.ok b, s1) →
    let s2 := s1.mapCore fun c => { c with bundle := b, chain := none }
    let l : List SlotOps := [⟨k, [(w, i)], false⟩]
    awaited s2 b = [] → renamed s2 b = [] → checks s2 b = .ok l → afterChecks b l s2 = startBundle l s4 → s4.agenda = [] →
    s4.core.sp.done.getLsbD k.val = false → ((coresOf s4).all fun c => !traceOn c.m) = true →
    ∃ rest, (startBundle l s4).agenda = .run k 0 true (asIssued s4 i) :: rest ∧
      let u := { startBundle l s4 with agenda := rest }
      let v := u.mapCore fun c => { c with slot := k, chain := none, chainLast := true }
      step s = match exec (asIssued s4 i) v with
        | .next t => drain 4094 (traced (BitVec.ofNat 4 k.val) u (spread v t))
        | .fault f => .fault f
        | .refused r => .refused r

/-! ## Landing and registers -/

/-- R202, R205, R207, R135: at the end of a step the results whose count is spent land together. A register no such
result names keeps its value; of several that name one, the higher slot's (in one slot, the later) stands, lane by lane;
the flags are ORed in after a write of %fflags; the others stay in flight with their count less one. -/
def Obligations.ResultsLandAtTheirStep : Prop :=
  ∀ (s : State) (n : Nat), (focus n s).core.landDue = true →
    let v := focus n s
    let due := dueNow v
    ∃ u, exec (.resultLand n) s = .next (focus s.core.id u) ∧ u.core.landDue = false ∧
      -- what no such result names
      u.core.a.mat = v.core.a.mat ∧ u.core.a.rings = v.core.a.rings ∧ u.core.pc = v.core.pc ∧ u.core.next = v.core.next ∧
      u.core.pend = v.core.pend ∧
      (∀ k : Fin 4, (∀ f ∈ due, ∀ p, f.dest ≠ .sreg (0x30 + k.val) p) → u.core.a.lc.get k = v.core.a.lc.get k) ∧
      (∀ k, (∀ f ∈ due, f.dest ≠ .lec k ∧ ∀ p, f.dest ≠ .sreg 0x12 p) → u.core.a.lec.get k = v.core.a.lec.get k) ∧
      (∀ k, (∀ f ∈ due, f.dest ≠ .lrange k) →
        u.core.a.lstart.get k = v.core.a.lstart.get k ∧ u.core.a.lend.get k = v.core.a.lend.get k) ∧
      ((∀ f ∈ due, ∀ k, f.dest ≠ .lrange k) → u.core.a.lorder = v.core.a.lorder) ∧
      ((∀ f ∈ due, ∀ p, f.dest ≠ .sreg 0x10 p) → u.core.a.vrb = v.core.a.vrb) ∧
      ((∀ f ∈ due, ∀ p, f.dest ≠ .sreg 0x11 p) → u.core.a.prb = v.core.a.prb) ∧
      (∀ k, (∀ f ∈ due, (∀ i, f.dest ≠ .stream k i) ∧ (∀ d, f.dest ≠ .qact (.bind k d)) ∧ f.dest ≠ .qact (.unbind k)) →
        u.core.a.streams.get k = v.core.a.streams.get k) ∧
      ((∀ f ∈ due, ∀ o, f.dest ≠ .stash o) → sameMem v u ∧ u.core.maps = v.core.maps ∧
        u.core.sp = { v.core.sp with fmtt := u.core.sp.fmtt, ssthr := u.core.sp.ssthr }) ∧
      ((∀ f ∈ due, ∀ p, f.dest ≠ .sreg 0x20 p) → u.core.sp.fmtt = v.core.sp.fmtt) ∧
      ((∀ f ∈ due, ∀ p, f.dest ≠ .sreg 0x21 p) → u.core.sp.ssthr = v.core.sp.ssthr) ∧
      -- what they name
      ((∀ f ∈ due, ∀ k, f.dest ≠ .qact (.unbind k)) → u.core.flights = (v.core.flights.filter fun f => !(f.left - 1 == 0 && !isRing f)).map (fun f => { f with left := f.left - 1 })) ∧
      (∀ i, (∀ f ∈ due, f.dest ≠ .s i) → getS u.core.a i = getS v.core.a i) ∧
      (∀ i, (∀ f ∈ due, f.dest ≠ .v i) → getV u.core.a i = getV v.core.a i) ∧
      (∀ i, (∀ f ∈ due, f.dest ≠ .p i) → getP u.core.a i = getP v.core.a i) ∧
      getP u.core.a 0 = BitVec.allOnes 32 ∧
      (∀ k, (∀ f ∈ due, f.latch = true → f.slot ≠ k) → u.core.a.y.get k = v.core.a.y.get k) ∧
      (∀ pre f post, due = pre ++ f :: post →
        let last (p : Flight → Bool) : Prop :=
          (∀ g ∈ pre, p g = true → g.slot ≤ f.slot) ∧ (∀ g ∈ post, p g = true → g.slot < f.slot)
        (∀ i, f.dest = .s i → last (fun g => g.dest == .s i) → getS u.core.a i = f.val.setWidth 64) ∧
        (∀ i j, f.dest = .v i → j < 32 → f.mask.getLsbD j = true → last (fun g => g.dest == .v i && g.mask.getLsbD j) →
          elem 32 (getV u.core.a i) j = elem 32 f.val j) ∧
        (∀ i j, f.dest = .p i → i ≠ 0 → j < 32 → f.mask.getLsbD j = true →
          last (fun g => g.dest == .p i && g.mask.getLsbD j) → (getP u.core.a i).getLsbD j = f.val.getLsbD j) ∧
        (f.latch = true → f.dest ≠ .sreg 0x14 0 → (∀ g ∈ post, g.latch = true → g.slot ≠ f.slot) → u.core.a.y.get f.slot = f.val)) ∧
      ((∀ f ∈ due, ∀ p, f.dest ≠ .sreg 0x14 p) →
        ∀ j, u.core.a.fflags.getLsbD j = (v.core.a.fflags.getLsbD j || due.any fun f => f.flags.getLsbD j)) ∧
      (∀ f, due = [f] → f.dest = .sreg 0x14 0 → u.core.a.fflags = f.val.setWidth 6 ||| f.flags)

/-- R206, R100: names 64 to 127 and p8 to p15 go through the rotation registers, read at issue; one rotation moves each
register to the next name; p0 reads all ones. -/
def Obligations.RotatingNames : Prop :=
  (∀ (s : State) (i : Fin 128), readV s (.reg i) = (s.core.a.v.get (physV s.core.a.vrb i), s)) ∧
  (∀ (s : State) (i : Fin 16), readP s (.reg i) = if i = 0 then BitVec.allOnes 32 else s.core.a.p.get (physP s.core.a.prb i)) ∧
  (∀ (r : BitVec 6) (i : Fin 128), (physV r i).val = if i.val < 64 then i.val else 64 + (i.val - 64 + r.toNat) % 64) ∧
  (∀ (r : BitVec 3) (i : Fin 16), (physP r i).val = if i.val < 8 then i.val else 8 + (i.val - 8 + r.toNat) % 8) ∧
  (∀ (r : BitVec 6) (i j : Fin 128), physV r i = physV r j → i = j) ∧
  (∀ (r : BitVec 3) (i j : Fin 16), physP r i = physP r j → i = j) ∧
  (∀ (r : BitVec 6) (i j : Fin 128), 64 ≤ i.val → j.val = i.val + 1 → physV (r - 1) j = physV r i) ∧
  (∀ (r : BitVec 3) (i j : Fin 16), 8 ≤ i.val → j.val = i.val + 1 → physP (r - 1) j = physP r i)

/-! ## Control -/

/-- R231, R227: BR and CALL go to P + 64 × SignExt(OFFB), CALL with its link; out of range they trap 0x09 with %fval 0; a
guard that is off leaves the fall-through. `noteOutcome` adds the outcome to the trace's (R479), and nothing else.
R232: BRI, CALLI and RET go to their operand's value; one that is no multiple of 64 traps 0x08, one of 2^56 or above
0x09, with %fval the value. -/
def Obligations.TransferResults : Prop :=
  (∀ (s : State) (g : Guard) (off : BitVec 32), plain s →
     let t : Int := (s.core.pc.toNat : Int) + 64 * off.toInt
     (guardOn s g = true → 0 ≤ t ∧ t < 2 ^ 56 →
       exec (.br g off) s = .next (noteOutcome g true (goTo (BitVec.ofInt 64 t) s)) ∧
       ∀ d, exec (.call g d off) s =
         .next (noteOutcome g true (goTo (BitVec.ofInt 64 t) (queued (resultS s 1 d (s.core.pc + 64)) s)))) ∧
     (guardOn s g = true → t < 0 ∨ 2 ^ 56 ≤ t →
       exec (.br g off) s = .next (noteOutcome g true (trapHere 0x09 0 s)) ∧
       ∀ d, exec (.call g d off) s = .next (noteOutcome g true (trapHere 0x09 0 s))) ∧
     (guardOn s g = false →
       exec (.br g off) s = .next (noteOutcome g false s) ∧ ∀ d, exec (.call g d off) s = .next (noteOutcome g false s)) ∧
     (∀ (b : Bool) (u : State), ∃ l, noteOutcome g b u = u.mapM fun m => { m with outcomes := l })) ∧
  (∀ (s : State) (g : Guard) (a : Src 64), plain s →
     let t := readS s a
     (guardOn s g = true → t.toNat % 64 = 0 → t.toNat < 2 ^ 56 →
       exec (.bri g a) s = .next (noteOutcome g true (goTo t s)) ∧
       exec (.ret g a) s = .next (noteOutcome g true (goTo t s)) ∧
       ∀ d, exec (.calli g d a) s = .next (noteOutcome g true (goTo t (queued (resultS s 1 d (s.core.pc + 64)) s)))) ∧
     (guardOn s g = true → t.toNat % 64 ≠ 0 ∨ 2 ^ 56 ≤ t.toNat →
       let c : Byte := if t.toNat % 64 ≠ 0 then 0x08 else 0x09
       exec (.bri g a) s = .next (noteOutcome g true (trapHere c t s)) ∧
       exec (.ret g a) s = .next (noteOutcome g true (trapHere c t s)) ∧
       ∀ d, exec (.calli g d a) s = .next (noteOutcome g true (trapHere c t s))) ∧
     (guardOn s g = false →
       exec (.bri g a) s = .next (noteOutcome g false s) ∧ exec (.ret g a) s = .next (noteOutcome g false s) ∧
       ∀ d, exec (.calli g d a) s = .next (noteOutcome g false s)))

/-- R233: LSETUP sets the counter, the epilogue count, the range of its bundles and the stage predicates.
R234: LOOP counts its iterations, then its epilogue, rotating the files at each branch back and giving p8 its value
under the new rotation; LOOPX counts and does not rotate. A target out of range traps 0x09. -/
def Obligations.LoopResults : Prop :=
  (∀ (s : State) (k : Fin 4) (n : Fin 64) (off : BitVec 32), plain s →
     actsNextStep (.lsetup k n off) s s.core.next fun a' =>
       let a := s.core.a
       a' = { a with lc := a'.lc, lec := a'.lec, lstart := a'.lstart, lend := a'.lend, lorder := a'.lorder, p := a'.p } ∧
       (a'.lc.get k).toNat = (getS a n).toNat % 2 ^ 32 ∧ (a'.lec.get k).toNat = (getS a n).toNat / 2 ^ 32 % 2 ^ 16 ∧
       a'.lstart.get k = s.core.pc + 64 ∧ a'.lend.get k = s.core.pc + 64 * off.setWidth 64 ∧ a'.lorder.head? = some k ∧
       (∀ j, j ≠ k → a'.lc.get j = a.lc.get j ∧ a'.lec.get j = a.lec.get j ∧ a'.lstart.get j = a.lstart.get j ∧
         a'.lend.get j = a.lend.get j) ∧
       (∀ i : Fin 16, i.val < 8 → a'.p.get i = a.p.get i) ∧
       a'.p.get (physP a.prb 8) = BitVec.allOnes 32 ∧ (∀ i : Fin 16, 8 < i.val → a'.p.get (physP a.prb i) = 0)) ∧
  (∀ (s : State) (k : Fin 4) (off : BitVec 32), plain s →
     let a := s.core.a
     let t : Int := (s.core.pc.toNat : Int) + 64 * off.toInt
     let ok := 0 ≤ t ∧ t < 2 ^ 56
     let nx := some (BitVec.ofInt 64 t)
     let rotated (a' : Arch) (p8 : Pred) : Prop :=
       a'.vrb = a.vrb - 1 ∧ a'.prb = a.prb - 1 ∧ a'.p.get (physP a'.prb 8) = p8 ∧
       ∀ i : Fin 16, i ≠ physP a'.prb 8 → a'.p.get i = a.p.get i
     (a.lc.get k ≠ 0 → ok → actsNextStep (.loop k off) s nx fun a' =>
       a' = { a with lc := a'.lc, vrb := a'.vrb, prb := a'.prb, p := a'.p } ∧ rotated a' (BitVec.allOnes 32) ∧
       a'.lc.get k = a.lc.get k - 1 ∧ ∀ j, j ≠ k → a'.lc.get j = a.lc.get j) ∧
     (a.lc.get k = 0 → a.lec.get k ≠ 0 → ok → actsNextStep (.loop k off) s nx fun a' =>
       a' = { a with lec := a'.lec, vrb := a'.vrb, prb := a'.prb, p := a'.p } ∧ rotated a' 0 ∧
       a'.lec.get k = a.lec.get k - 1 ∧ ∀ j, j ≠ k → a'.lec.get j = a.lec.get j) ∧
     (a.lc.get k = 0 → a.lec.get k = 0 → actsNextStep (.loop k off) s (some (s.core.pc + 64)) fun a' => a' = a) ∧
     (a.lc.get k ≠ 0 → ok → actsNextStep (.loopx k off) s nx fun a' =>
       a' = { a with lc := a'.lc } ∧ a'.lc.get k = a.lc.get k - 1 ∧ ∀ j, j ≠ k → a'.lc.get j = a.lc.get j) ∧
     (a.lc.get k = 0 → actsNextStep (.loopx k off) s (some (s.core.pc + 64)) fun a' => a' = a) ∧
     (¬ ok → (a.lc.get k ≠ 0 → exec (.loop k off) s = .next (trapHere 0x09 0 s) ∧
         exec (.loopx k off) s = .next (trapHere 0x09 0 s)) ∧
       (a.lc.get k = 0 → a.lec.get k ≠ 0 → exec (.loop k off) s = .next (trapHere 0x09 0 s))))

/-- R236, R240, R241, R242: CKPT opens a region on the state as it stands; COMMIT, CHECK and ABORT end it or leave it; with
no region open COMMIT and GCLR do nothing, and a false CHECK and an ABORT trap 0x15. -/
def Obligations.RegionControlResults : Prop :=
  (∀ (s : State) (off : BitVec 32), s.core.rgn.st = .closed →
    ∃ r : Region, exec (.ckpt off) s = .next (s.mapRgn fun _ => r) ∧ r.st = .opened ∧ r.shadow = some s.core.a ∧
      r.recovery = (s.core.pc.toNat : Int) + 64 * off.toInt ∧ r.ckpt = s.core.pc ∧ r.steps = 0 ∧ r.held = [] ∧
      ∀ g, r.guards.get g = none) ∧
  (∀ (s : State) (off : BitVec 32), s.core.rgn.st = .opened → exec (.ckpt off) s = .next (startRollback 4 s)) ∧
  (∀ (s : State) (off : BitVec 32), s.core.rgn.st = .rerunA ∨ s.core.rgn.st = .rerunB → s.core.rgn.steps = 0 →
    s.core.rgn.ckpt = s.core.pc → exec (.ckpt off) s = .next s) ∧
  (∀ s : State, exec .commit s =
    .next (if regionOpen s.core = true then s.mapCore fun c => { c with commitDue := true } else s)) ∧
  (∀ (s : State) (p : Fin 16),
    let on := (readP s (.reg p)).getLsbD 0
    (on = true → exec (.check p) s = .next s) ∧
    (on = false → regionOpen s.core = true → exec (.check p) s = .next (startRollback 1 s)) ∧
    (on = false → regionOpen s.core = false → exec (.check p) s = .next (trapHere 0x15 0 s))) ∧
  (∀ (s : State) (g : Guard), guardOn s g = true →
    (regionOpen s.core = true → exec (.abort g) s = .next (startRollback 3 s)) ∧
    (regionOpen s.core = false → exec (.abort g) s = .next (trapHere 0x15 0 s))) ∧
  (∀ (s : State) (a : Src 64), plain s →
    (regionOpen s.core = false → exec (.gclr a) s = .next s) ∧
    (regionOpen s.core = true → ∃ f : Flight, exec (.gclr a) s = .next (queued f s) ∧ f.left = 1 ∧ f.latch = false ∧
      ∀ i : Fin 16, ((landAct s f).core.rgn.guards.get i) =
        if (readS s a).getLsbD i.val = true then none else s.core.rgn.guards.get i))

/-- R243, R244, R247, R248, R96: TRAP and BKPT commit slot 0 and stop before slot 1, with the saved registers of the trap;
HALT marks the end of its bundle's task, which comes once no result and no token is outstanding; TSWAIT lets issue go on
from its step, and before it stops issue at its slot, the slots below committed; IFLUSH drops copies of instructions; an
empty bundle does nothing. -/
def Obligations.StopAndWaitResults : Prop :=
  (∀ (s : State) (g : Guard) (code : BitVec 23) (i : Instr) (cause : Byte),
    (i = .trap g code ∧ cause = 0x15) ∨ (i = .bkpt g code ∧ cause = 0x0E) → regionOpen s.core = false →
    (guardOn s g = false → exec i s = .next s) ∧
    (guardOn s g = true → ∃ t, exec i s = .next t ∧
      t.core.sp = { s.core.sp with cause := cause, fpc := s.core.pc, fslot := 0, fval := code.setWidth 64,
                                   done := 1 ||| s.core.sp.done } ∧
      t.core.a = s.core.a ∧ t.core.pc = s.core.pc ∧ t.core.next = some (s.core.pc + 64) ∧
      t.core.flights = s.core.flights ∧ sameMem s t ∧ t.agenda = [])) ∧
  (∀ (s : State) (g : Guard), regionOpen s.core = false →
    (guardOn s g = true ∨ s.core.sp.done = 0xFE →
      exec (.halt g) s = .next (s.mapCore fun c => { c with halting := true })) ∧
    (guardOn s g = false → s.core.sp.done ≠ 0xFE → exec (.halt g) s = .next s)) ∧
  (∀ (s : State) (a : Src 64), regionOpen s.core = false →
    let now := stepOf s (dieOf s.core.id)
    let late := s.core.tsLate.getD (decide ((readS s a).toNat < now)) && detMode s
    let open' (u : State) : State := u.mapCore fun c => { c with wait := none }
    ((readS s a).toNat ≤ now → late = false → exec (.tswait a) s = .next (open' s)) ∧
    ((readS s a).toNat ≤ now → late = true → exec (.tswait a) s =
      .next (open' (record (dieOf s.core.id) (srcNum s.core.id) 0x83 (s.core.sp.gpos ++ 0#4) (readS s a) (BitVec.ofNat 64 now) s))) ∧
    (now < (readS s a).toNat → exec (.tswait a) s = .next { s.mapCore (fun c => { c with
      wait := some (.step (readS s a)), landDue := false, tsLate := some false
      sp := { c.sp with done := BitVec.ofNat 8 (2 ^ c.slot.val - 1) ||| c.sp.done } }) with agenda := [] })) ∧
  (∀ (s : State) (a : Src 64), exec (.iflush a) s =
    .next (s.mapCore fun c =>
      let other (x : Word × BundleBits) : Bool := decide (x.1.toNat / 64 ≠ (readS s a).toNat / 64)
      { c with icopies := c.icopies.filter other, loopBuf := c.loopBuf.filter other })) ∧
  (∀ s : State, exec .iflushAll s = .next (s.mapCore fun c => { c with icopies := [], loopBuf := [] })) ∧
  (∀ s : State, exec .nop s = .next s) ∧
  -- HALT's end, once no bundle is in progress
  (∀ (s : State) (n : Nat), let v := focus n s
    v.core.landDue = false → v.core.halting = true → v.core.sp.done = 0 → v.core.flights = [] →
    (v.core.pend ≠ [] → exec (.resultLand n) s = .next (focus s.core.id v)) ∧
    (∀ e ∈ v.core.errs, v.core.pend = [] → (∀ x ∈ v.core.errs, x ≠ e → e.seq < x.seq) →
      exec (.resultLand n) s = .next (focus s.core.id (takeTrap 0 e.cause e.ea 0xFE (dropErr e v)))) ∧
    (v.core.pend = [] → v.core.errs = [] → pushesReach (haltTidy v) = false →
      exec (.resultLand n) s = .next (focus s.core.id v)) ∧
    (∀ t, v.core.pend = [] → v.core.errs = [] → pushesReach (haltTidy v) = true → curTask v = some t →
      ∃ u t', exec (.resultLand n) s = .next (focus s.core.id u) ∧ u.core.task = none ∧ u.core.maps = [] ∧ u.core.flights = [] ∧
        (∀ q, (u.core.a.streams.get q).bound = false) ∧ (∀ l ∈ u.core.lines, l.dirty = 0) ∧
        taskFind u t.id = some t' ∧ t'.st = .ended ∧ t'.core = none ∧ t'.saved = none))

/-- R219 to R225, R246: SRD reads each special register; SWR writes the writable ones at the end of its step, and on any
other traps 0x10 with %fval its number. -/
def Obligations.SpecialRegisterResults : Prop :=
  (∀ (s : State) (g : Guard) (d : Dst 64) (n : BitVec 8) (p : BitVec 4), plain s → guardOn s g = true →
    let c := s.core
    ∃ x, givesS (.srd g d n p) s s 1 d x ∧
      (n = 0x00 → x = BitVec.ofNat 64 (cidOf c.id)) ∧ (n = 0x01 → x.toNat = clusterOf c.id % 8) ∧
      (n = 0x02 → x = BitVec.ofNat 64 (dieOf c.id)) ∧ (n = 0x09 → x = BitVec.ofNat 64 (stepOf s (dieOf c.id))) ∧ (n = 0x03 → x = c.sp.tile) ∧ (n = 0x04 → x = c.sp.gpos.setWidth 64) ∧
      (n = 0x08 → x = BitVec.ofNat 64 s.tick) ∧ (n = 0x10 → x = c.a.vrb.setWidth 64) ∧ (n = 0x11 → x = c.a.prb.setWidth 64) ∧
      (n = 0x12 → ∀ k : Fin 4, x.extractLsb' (16 * k.val) 16 = c.a.lec.get k) ∧ (n = 0x13 → x = c.sp.done.setWidth 64) ∧
      (n = 0x14 → x = c.a.fflags.setWidth 64) ∧ (n = 0x15 → x = c.sp.rbcause.setWidth 64) ∧
      (n = 0x16 → x = c.sp.latcls.setWidth 64) ∧ (n = 0x18 → x = c.sp.cause.setWidth 64) ∧ (n = 0x19 → x = c.sp.fpc) ∧
      (n = 0x1A → x = c.sp.fslot.setWidth 64) ∧ (n = 0x1B → x = c.sp.fval) ∧
      (n = 0x20 → x = elem 64 c.sp.fmtt p.toNat) ∧ (n = 0x21 → x = c.sp.ssthr.setWidth 64) ∧ (n = 0x22 → x = c.lct) ∧
      (n = 0x23 → x = s.feat.setWidth 64) ∧ (n = 0x24 → x = (dieGet s (dieOf c.id)).mrhash) ∧
      (n = 0x28 → x.extractLsb' 0 6 = c.semMap ∧ x.extractLsb' 8 6 = c.semDis) ∧ (n = 0x29 → x = c.kttReg) ∧
      (n = 0x2A → x = c.sp.wsig.extractLsb' (64 * p.toNat) 64) ∧
      ∀ k : Fin 4, n.toNat = 0x30 + k.val → x = (c.a.lc.get k).setWidth 64) ∧
  (∀ (s : State) (g : Guard) (a : Src 64) (n : BitVec 8) (p : BitVec 4), plain s → guardOn s g = true →
    regionOpen s.core = false →
    let x := readS s a
    (sregRW n.toNat = true → ∃ f : Flight, exec (.swr g a n p) s = .next (queued f s) ∧ f.left = 1 ∧ f.latch = false ∧
      let a' := landArch [f] s.core.a
      let sp' := landSpecial s.core.sp f
      (n = 0x10 → a' = { s.core.a with vrb := x.setWidth 6 }) ∧ (n = 0x11 → a' = { s.core.a with prb := x.setWidth 3 }) ∧
      (n = 0x12 → a' = { s.core.a with lec := a'.lec } ∧ ∀ k : Fin 4, a'.lec.get k = x.extractLsb' (16 * k.val) 16) ∧
      (n = 0x14 → a' = { s.core.a with fflags := x.setWidth 6 }) ∧
      (∀ k : Fin 4, n.toNat = 0x30 + k.val → a' = { s.core.a with lc := a'.lc } ∧ a'.lc.get k = x.setWidth 32 ∧
        ∀ j, j ≠ k → a'.lc.get j = s.core.a.lc.get j) ∧
      (n = 0x20 → a' = s.core.a ∧ sp' = { s.core.sp with fmtt := sp'.fmtt } ∧
        ∀ j, j < 16 → elem 64 sp'.fmtt j = if j = p.toNat then x else elem 64 s.core.sp.fmtt j) ∧
      (n = 0x21 → a' = s.core.a ∧ sp' = { s.core.sp with ssthr := if 2 ≤ x.toNat % 16 ∧ x.toNat % 16 ≤ 8 then x.setWidth 4
        else s.core.sp.ssthr })) ∧
    (sregRW n.toNat = false → exec (.swr g a n p) s = .next (trapHere 0x10 (n.setWidth 64) s)) ∧
    (sregRW n.toNat = true ↔ n.toNat ∈ [0x10, 0x11, 0x12, 0x14, 0x20, 0x21, 0x30, 0x31, 0x32, 0x33]))

/-- R118, R215, R428, R431, R46: with no region open a trap sets %cause, %fpc, %fslot, %fval and %done, leaves the
registers, the memories and the pc, writes its record, and stops the task's fault domain; a debug stop stops no domain,
but every member of the task's gang. -/
def Obligations.TrapEntry : Prop :=
  ∀ (s : State) (slot : Nat) (cause : Byte) (val : Word) (done : BitVec 8),
    slot ≤ 8 → regionOpen s.core = false → cause ≠ 0x06 →
    let t := takeTrap slot cause val done s
    t.core.sp = { s.core.sp with cause := cause, fpc := s.core.pc, fslot := BitVec.ofNat 4 slot, fval := val, done := done } ∧
    t.core.a = s.core.a ∧ t.core.pc = s.core.pc ∧ t.core.next = s.core.next ∧ t.core.flights = s.core.flights ∧
    t.core.halting = (s.core.halting && done.getLsbD 0) ∧ t.core.landDue = false ∧ sameMem s t ∧ t.agenda = [] ∧
    (dieOf s.core.id < 4 → ∃ r ∈ (dieGet t (dieOf s.core.id)).gecko, r.cause = cause ∧ r.pc = s.core.pc ∧ r.val = val ∧
      r.tick = BitVec.ofNat 64 s.tick ∧ r.src = srcNum s.core.id ∧ r.slot.setWidth 4 = BitVec.ofNat 4 slot) ∧
    (∀ x, curTask s = some x → ¬ ((x.stepping = true ∨ x.stopReq = some .debug) ∧ (cause = 0x0E ∨ cause = 0x0F)) →
      domStopped t (taskDom s x).1 (taskDom s x).2 = true ∧
      (∀ y ∈ t.tasks, taskDom t y = taskDom s x → y.st = .running → ∃ w, y.stopReq = some w ∧ stopRank .domain ≤ stopRank w)) ∧
    (∀ x, curTask s = some x → (x.stepping = true ∨ x.stopReq = some .debug) → (cause = 0x0E ∨ cause = 0x0F) →
      (∀ y ∈ t.tasks, y.gang = x.gang → ∃ w, y.stopReq = some w ∧ stopRank .debug ≤ stopRank w) ∧
      (∀ d n, domStopped t d n = domStopped s d n))

/-- R238: a closing operation met in an open region rolls it back with cause 4, whatever its guard.
R237, R390: a trigger in an open region stops the bundle, drops the region's results, held items and guards, and starts
the undoing; once its tokens are complete the shadowed state is back, %rbcause has the cause and issue goes on at the
recovery address. -/
def Obligations.RollbackRestores : Prop :=
  (∀ (s : State) (i : Instr), closing i = true → regionOpen s.core = true → exec i s = .next (startRollback 4 s)) ∧
  ((∀ (s : State) (c : Nat), s.core.rgn.st = .opened →
     let t := startRollback c s
     t.core.rgn.st = .unwinding c ∧ t.core.rgn.shadow = s.core.rgn.shadow ∧ t.core.rgn.held = [] ∧
     (∀ g, t.core.rgn.guards.get g = none) ∧ t.core.flights = s.core.flights.filter (fun f => !f.rgn) ∧
     t.core.rgn.recovery = s.core.rgn.recovery ∧ t.core.a = s.core.a ∧ sameMem s t ∧ t.core.landDue = true ∧
     t.agenda = [.event (.resultLand s.core.id), .event (.ringPushEffect s.core.id)]) ∧
   (∀ (s : State) (slot : Nat) (cause : Byte) (val : Word) (done : BitVec 8), s.core.rgn.st = .opened → cause ≠ 0x06 →
     takeTrap slot cause val done s = startRollback 4 s) ∧
   (∀ (s : State) (n c : Nat), let v := focus n s
     v.core.rgn.st = .unwinding c → c ≤ 8 → v.core.landDue = false → (v.core.pend.any fun p => p.rgn) = false →
     0 ≤ v.core.rgn.recovery → v.core.rgn.recovery < 2 ^ 56 →
     ∃ u, exec (.rollbackComplete n) s = .next (focus s.core.id u) ∧ u.core.rgn.st = .closed ∧ u.core.a = v.core.rgn.shadow.getD v.core.a ∧
       (u.core.pc.toNat : Int) = v.core.rgn.recovery ∧ u.core.sp.rbcause = BitVec.ofNat 4 c ∧ u.core.stall = none ∧
       u.core.wait = none ∧ (∀ e ∈ u.core.errs, e.rgn = false) ∧ sameMem v u))

/-! ## Local memory -/

/-- R283, R284: the checks of an access in their order (window, alignment, translation or range, permission, absence),
and that a memory operation whose check fails traps precisely with that cause and its address. -/
def Obligations.AddressChecks : Prop :=
  (∀ (s : State) (ea : Int) (n : Nat), 0 < n →
    let t (c : Byte) : Option TrapInfo := some ⟨c, BitVec.ofInt 64 ea, false⟩
    spadTrap s ea n n false = if ea < 0 ∨ 2 ^ 64 < ea + n then t 0x09 else if ea % n ≠ 0 then t 0x08
      else if 0x80000 < ea + n then t 0x05 else none) ∧
  (∀ (s : State) (ea : Int) (n : Nat) (acc : Acc), 0 < n →
    let t (c : Byte) : Option TrapInfo := some ⟨c, BitVec.ofInt 64 ea, false⟩
    globTrap s ea n acc = if ea < 0 ∨ 2 ^ 56 < ea + n then t 0x09 else if ea % n ≠ 0 then t 0x08
      else match s.core.ktt.find? fun e => decide (e.vbase ≤ ea.toNat ∧ ea.toNat + n ≤ e.vbase + 2 ^ e.lsz) with
        | none => t 0x05
        | some e => if ¬ ((acc = .wr ∨ e.rd = true) ∧ (acc = .rd ∨ e.w = true)) then t 0x07
            else if e.absent = true then t 0x06 else none) ∧
  (∀ (s : State) (x : LD) (t : TrapInfo), dstOn s x.g x.d = true →
    spadTrap s (eaM s x.m (LdDst.bytes x.d)) (LdDst.bytes x.d) (LdDst.bytes x.d) false = some t →
    exec (.ld x) s = .next (trapHere t.cause t.val s) ∧ exec (.ldG x) s = .next (trapHere t.cause t.val s)) ∧
  (∀ (s : State) (g : Guard) (a : StSrc) (m : MAddr) (buf : Fin 16) (t : TrapInfo), srcOn s g a = true →
    spadTrap s (eaM s m (StSrc.bytes a)) (StSrc.bytes a) (StSrc.bytes a) true = some t →
    exec (.st g a m buf) s = .next (trapHere t.cause t.val s)) ∧
  (∀ (s : State) (x : LG) (t : TrapInfo), dstOn s x.g x.d = true →
    globTrap s (eaM s x.m (LdDst.bytes x.d)) (LdDst.bytes x.d) .rd = some t →
    exec (.ldg x) s = .next (trapHere t.cause t.val s) ∧ exec (.ldgG x) s = .next (trapHere t.cause t.val s)) ∧
  (∀ (s : State) (x : SG) (t : TrapInfo), srcOn s x.g x.a = true →
    globTrap s (eaM s x.m (StSrc.bytes x.a)) (StSrc.bytes x.a) .wr = some t →
    exec (.stg x) s = .next (trapHere t.cause t.val s)) ∧
  -- the lowest enabled element whose check fails
  (∀ (s : State) (g : Guard) (z : ESz) (d : Dst 128) (a : Src 64) (c : Src 128),
    let n := eszBytes z
    let stops (i : Instr) (wr : Bool) (f : Nat → Int) : Prop :=
      ∀ e t, e < 128 / n → elemOn (guardBits s g) n e = true → spadTrap s (f e) n n wr = some t →
        (∀ k, k < e → elemOn (guardBits s g) n k = true → spadTrap s (f k) n n wr = none) →
        exec i s = .next (trapHere t.cause t.val s)
    (∀ b : Src 64, let f (e : Nat) : Int := ((readS s a).toNat : Int) + e * (readS s b).toInt
      stops (.lds g z d a b) false f ∧ stops (.sts g z a b c) true f) ∧
    (∀ b : Src 128,
      let f (e : Nat) : Int := ((readS s a).toNat : Int) + n * ((src1 s b).extractLsb' (8 * n * e) (8 * n)).toNat
      stops (.ldx g z d a b) false f ∧ stops (.stx g z a b c) true f)) ∧
  -- the cluster window
  (∀ (s : State) (m : MAddr) (n : Nat), 0 < n →
    let ea := eaM s m n
    let maps := (coreOf s (clusterOf s.core.id * 64 + ea.toNat / 0x80000)).maps
    let cause : Option Byte := if ea < 0 ∨ 2 ^ 64 < ea + n then some 0x09 else if ea % n ≠ 0 then some 0x08
      else if 48 ≤ ea.toNat / 0x80000 ∨ ∃ i, i < n ∧ (mapOfOff maps (ea.toNat % 0x80000 + i)).isSome = true then some 0x05
      else none
    ∀ c, cause = some c →
      (∀ x : LG, x.m = m → LdDst.bytes x.d = n → dstOn s x.g x.d = true →
        exec (.ldc x) s = .next (trapHere c (BitVec.ofInt 64 ea) s)) ∧
      (∀ x : SG, x.m = m → StSrc.bytes x.a = n → srcOn s x.g x.a = true →
        exec (.stc x) s = .next (trapHere c (BitVec.ofInt 64 ea) s))) ∧
  -- atomics and synchronisation
  (∀ (s : State) (i : Instr) (g : Guard) (m : MAddr) (n : Nat) (acc : Acc) (t : TrapInfo),
    (∃ (op : AOp) (x : AT), x.g = g ∧ x.m = m ∧ aszBytes x.z = n ∧ acc = .rw ∧ ((op, i) ∈ [(AOp.add, Instr.aadd x), (.min, .amin x), (.max, .amax x),
      (.minn, .aminn x), (.maxn, .amaxn x), (.and, .aand x), (.or, .aor x), (.xor, .axor x), (.xchg, .axchg x), (.cas, .acas x),
      (.fadd, .afadd x)] ∨ i = .atomicOrd op x)) ∨
    (∃ d tok, i = .acq g d m tok ∧ n = 128 ∧ acc = .rw) ∨
    (∃ b tok, (i = .rel ⟨g, b, m, tok⟩ ∨ i = .relf ⟨g, b, m, tok⟩) ∧ n = 128 ∧ acc = .rw) ∨
    (∃ r tok, (i = .cwaddAdd ⟨g, r, m, tok⟩ ∨ i = .cwaddArrive ⟨g, r, m, tok⟩ ∨ i = .cwaddRead ⟨g, r, m, tok⟩) ∧ n = 8 ∧ acc = .rw) ∨
    (∃ r, i = .waitcw g r m ∧ n = 8 ∧ acc = .rd) →
    regionOpen s.core = false → guardOn s g = true → globTrap s (eaM s m n) n acc = some t →
    exec i s = .next (trapHere t.cause t.val s)) ∧
  -- stream elements: their checks, the pops in the order A, B, C, then the push; one that fails stops the bundle at its slot
  (∀ (s : State) (k : Fin 8), let q := getQ s k
    let none' : Option TrapInfo := some ⟨0x0A, BitVec.ofNat 64 k.val, false⟩
    (q.bound = false ∨ qOut q.desc = true ∨ qCount q.desc ≤ q.pos → popTrap s k = none') ∧
    (q.bound = true → qOut q.desc = false → q.pos < qCount q.desc →
      (∀ e r, q.inq = e :: r → e.idx = q.pos → popTrap s k = e.flt.map fun f => ⟨f.1, f.2, false⟩)) ∧
    (q.bound = false ∨ qOut q.desc = false ∨ qCount q.desc ≤ q.pos → pushTrap s k = none') ∧
    (q.bound = true → qOut q.desc = true → q.pos < qCount q.desc → pushTrap s k = none)) ∧
  (∀ (s : State) (b : BundleBits) (k : Fin 8) (w : SlotWord) (i : Instr) (t : TrapInfo), let l : List SlotOps := [⟨k, [(w, i)], false⟩]
    regionOpen s.core = false → s.core.sp.done.getLsbD k.val = false → errMet s b l = none → hazard s b l = none → s.core.slot = k →
    s.core.chain = none → disabled s i = false → isCkpt i = false → ownTrap s i = none → (∀ x r, (vsStreams (opnds i) = x :: r ∧ popTrap s x = some t) ∨
      (vsStreams (opnds i) = [] ∧ pushStreams s i = x :: r ∧ pushTrap s x = some t) →
    afterChecks b l s = startStop ⟨k.val, t.cause, t.val⟩ [] (below k.val ||| s.core.sp.done) s))

/-- R288, R290 to R292, R451: LD reads its bytes at issue and gives them, zero-extended, six steps later (four in class
4); LD.g arms a guard besides, in an open region. Nothing else changes but buffers of reads and the hotness count.
R291, R294: LDS and LDX gather their enabled elements, element e at its own address, into one vector. -/
def Obligations.LocalLoadResults : Prop :=
  (∀ (s : State) (x : LD) (arm : Bool), plain s → dstOn s x.g x.d = true →
     let n := LdDst.bytes x.d
     let ea := eaM s x.m n
     let m := dstLanes s x.g x.d
     spadOk ea n → stashErr s (spanOffs ea.toNat n m (m == BitVec.allOnes 32)) = none →
     let s0 := if arm = true then armGuard (locsOf s.core ea.toNat n) s else s
     let lat := if s.core.sp.latcls = 4 then 4 else 6
     ∃ (s1 : State) (v : Vec), loadsOnly s0 s1 ∧
       exec (if arm = true then .ldG x else .ld x) s =
         .next (hotBytes x.buf ((List.range n).filter (dstByteOn s x.g x.d)).length (match x.d with
           | .s _ d => queued (resultS s1 lat d (v.setWidth 64)) s1
           | .v d => queued (resultV s1 lat d m v 0) (afterPush d m s1))) ∧
       (∀ i, i < n → dstByteOn s x.g x.d i = true → loadedByte s (ea.toNat + i) (v.extractLsb' (8 * i) 8)) ∧
       (∀ i, n ≤ i → i < 128 → v.extractLsb' (8 * i) 8 = 0)) ∧
  (∀ (s : State) (g : Guard) (z : ESz) (d : Dst 128) (a : Src 64), plain s →
     let n := eszBytes z
     let m := guardBits s g
     let lat := if s.core.sp.latcls = 4 then 4 else 6
     let gives (i : Instr) (s0 : State) (f : Nat → Int) : Prop :=
       (∀ e, e < 128 / n → elemOn m n e = true → spadOk (f e) n) → stashErr s0 (elemOffs m n f) = none →
       ∃ (s1 : State) (v : Vec), loadsOnly s0 s1 ∧
         exec i s = .next (hotBytes 0 (n * (elemAddrs m n f).length)
           (queued (resultV s1 lat d (elemLanes m n) v 0) (afterPush d (elemLanes m n) s1))) ∧
         ∀ e, e < 128 / n → elemOn m n e = true → ∀ i, i < n →
           loadedByte s0 ((f e).toNat + i) (v.extractLsb' (8 * (n * e + i)) 8)
     (∀ b : Src 64, gives (.lds g z d a b) s fun e => ((readS s a).toNat : Int) + e * (readS s b).toInt) ∧
     (∀ b : Src 128, gives (.ldx g z d a b) (after1 s b) fun e =>
       ((readS s a).toNat : Int) + n * ((src1 s b).extractLsb' (8 * n * e) (8 * n)).toNat))

/-- R288, R290, R294, R378: ST, STS and STX write exactly the enabled bytes of their source, at the addresses their form
computes, and no other byte of memory; in an open region the store is held instead. -/
def Obligations.LocalStoreResults : Prop :=
  (∀ (s : State) (g : Guard) (a : StSrc) (m : MAddr) (buf : Fin 16), srcOn s g a = true →
    let n := StSrc.bytes a
    let ea := eaM s m n
    spadTrap s ea n n true = none → Mem.wf s.spad = true →
    let s1 := afterSrc s a
    let l := storeBytes n (srcByteOn s g a) (fun i => locOfOff s.core (ea.toNat + i)) (srcVal s a)
    (regionOpen s.core = false → ∃ t, exec (.st g a m buf) s = .next (hotBytes buf l.length t) ∧
      stored s1 l t) ∧
    (regionOpen s.core = true → exec (.st g a m buf) s = .next (hotBytes buf l.length (hold (.store l false none) s1)))) ∧
  (∀ (s : State) (g : Guard) (z : ESz) (a : Src 64) (c : Src 128),
    let n := eszBytes z
    let m := guardBits s g
    let writes (i : Instr) (s0 : State) (f : Nat → Int) : Prop :=
      let s1 := after1 s0 c
      let x := src1 s0 c
      let es := (List.range (128 / n)).filter (elemOn m n)
      let el (e : Nat) : List (Loc × Byte) :=
        (List.range n).map fun i => (locOfOff s.core ((f e).toNat + i), x.extractLsb' (8 * (n * e + i)) 8)
      (∀ e ∈ es, spadTrap s (f e) n n true = none) → Mem.wf s.spad = true →
      (regionOpen s.core = false →
        ∃ t, exec i s = .next (hotBytes 0 (n * es.length) t) ∧ stored s1 (es.flatMap el) t) ∧
      (regionOpen s.core = true → exec i s = .next (hotBytes 0 (n * es.length)
        (es.foldl (fun u e => hold (.store (el e) false none) u) s1)))
    (∀ b : Src 64, writes (.sts g z a b c) s fun e => ((readS s a).toNat : Int) + e * (readS s b).toInt) ∧
    (∀ b : Src 128, writes (.stx g z a b c) (after1 s b) fun e =>
      ((readS s a).toNat : Int) + n * ((src1 s b).extractLsb' (8 * n * e) (8 * n)).toNat))

/-! ## Global memory -/

/-- R210, R296: LDG makes its token pending with the bytes it has: a held store's or the core's own; the lines of the
others are being filled. LDG.g arms a guard besides, in an open region. No register and no byte of memory changes.
R298, R299: LDC and STC name bytes of a scratchpad of the cluster and make their tokens pending; STC's bytes are written
by its completion. PF fills a line and changes no register; where it could trap it does nothing. -/
def Obligations.TokenLoadIssue : Prop :=
  ∀ s : State,
  let hot (x : LG) (n : Nat) : Option (Fin 16 × Nat) := some (x.buf, ((List.range n).filter (dstByteOn s x.g x.d)).length)
  (∀ (x : LG) (arm : Bool) (e : KEntry), dstOn s x.g x.d = true →
     let n := LdDst.bytes x.d
     let ea := eaM s x.m n
     checkGlob s.core.ktt ea n n .rd = .ok e →
     let a := kttKey e ea.toNat
     let cls := classOf e x.lease
     let s0 := if arm = true then armGuard (globLocs a n) s else s
     ∃ (t : State) (got : List (Option Byte)), exec (if arm = true then .ldgG x else .ldg x) s = .next t ∧
       t.core.pend = pendedIn s0 x.tok (.load (tokDst s x.d) (dstLanes s x.g x.d) got (globLocs a n) cls) ea (hot x n) ∧
       got.length = n ∧
       (∀ i, i < n → got[i]? = some (if dstByteOn s x.g x.d i = true then
         (match heldByte s.core.rgn.held (.glob (a + i)) with
           | some b => some b
           | none => ownByte s.core s.tick cls (a + i)) else some 0)) ∧
       (∀ i, i < n → got[i]? = some none → ∃ f ∈ t.core.fills, f.key = lineKey (a + i) ∧ f.cls = cls) ∧
       t.core.a = s.core.a ∧ t.core.sp = s.core.sp ∧ t.core.flights = s.core.flights ∧ t.core.rgn = s0.core.rgn ∧
       sameMem s t) ∧
  ((∀ x : LG, dstOn s x.g x.d = true →
     let n := LdDst.bytes x.d
     let ea := eaM s x.m n
     checkCluster s ea n = none →
     ∃ t got, exec (.ldc x) s = .next t ∧ t.core.pend = pendedIn s x.tok (.ldc (tokDst s x.d) (dstLanes s x.g x.d) got
         ((List.range n).map fun i => .spad (spadAddr (clusterOf s.core.id * 64 + ea.toNat / 0x80000) (ea.toNat % 0x80000 + i)))) ea (hot x n) ∧
       t.core.a = s.core.a ∧ t.core.flights = s.core.flights ∧ sameMem s t) ∧
   (∀ x : SG, srcOn s x.g x.a = true →
     let n := StSrc.bytes x.a
     let ea := eaM s x.m n
     checkCluster s ea n = none →
     let s1 := afterSrc s x.a
     let l := storeBytes n (srcByteOn s x.g x.a) (fun i =>
       .spad (spadAddr (clusterOf s.core.id * 64 + ea.toNat / 0x80000) (ea.toNat % 0x80000 + i))) (srcVal s x.a)
     let count := some (x.buf, l.length)
     (regionOpen s.core = false →
       exec (.stc x) s = .next (addPendHot count x.tok (.stc l) (BitVec.ofInt 64 ea) s1)) ∧
     (regionOpen s.core = true → exec (.stc x) s =
       .next (addPendHot count x.tok .held (BitVec.ofInt 64 ea) (hold (.store l false (some x.tok.val)) s1)))) ∧
   (∀ (g : Guard) (m : MAddr) (lease : Option (Fin 8)) (buf : Fin 16), guardOn s g = true →
     let ea := eaM s m 64 / 64 * 64
     (∀ c, checkGlob s.core.ktt ea 64 64 .rd = .error c → exec (.pf g m lease buf) s = .next s) ∧
     (∀ e, checkGlob s.core.ktt ea 64 64 .rd = .ok e →
       let a := kttKey e ea.toNat
       let cls := classOf e lease
       ∃ t, exec (.pf g m lease buf) s = .next t ∧ t.core.a = s.core.a ∧ sameMem s t ∧ t.core.pend = s.core.pend ∧
         ((∀ i, i < 64 → (ownByte s.core s.tick cls (a + i)).isSome = true) → t = s) ∧
         ((∃ i, i < 64 ∧ ownByte s.core s.tick cls (a + i) = none) → s.core.fills.length < 2048 → ∃ f ∈ t.core.fills, f.key = lineKey a ∧ f.cls = cls))))

/-- R296, R160, R175, R381: STG writes the enabled bytes of its source into the core's own lines, dirty, and no other byte
of memory, and makes its token pending; in an open region the store is held. -/
def Obligations.GlobalStoreResults : Prop :=
  ∀ (s : State) (x : SG) (e : KEntry), srcOn s x.g x.a = true →
    let n := StSrc.bytes x.a
    let ea := eaM s x.m n
    checkGlob s.core.ktt ea n n .wr = .ok e →
    let a := kttKey e ea.toNat
    let s1 := afterSrc s x.a
    let l := storeBytes n (srcByteOn s x.g x.a) (fun i => .glob (a + i)) (srcVal s x.a)
    (regionOpen s.core = false → ∃ t u, exec (.stg x) s = .next (hotBytes x.buf l.length t) ∧
      stored s1 l u ∧ t = addPend x.tok .stg (BitVec.ofInt 64 ea) u) ∧
    (regionOpen s.core = true → exec (.stg x) s = .next (hotBytes x.buf l.length
      (addPend x.tok .held (BitVec.ofInt 64 ea) (hold (.store l true (some x.tok.val)) s1))))

/-- R214, R213: a load's completion writes its register's enabled lanes with its bytes, over any older result still in
flight to it, and frees its token; no other register changes.
R298, R320, R199: the completion of an STG changes nothing more, that of an STC writes its bytes and no others; a FENCE
completes once every older token but an engine's is complete, and FENCEX leaves no dirty byte in the core. -/
def Obligations.LoadCompletionWrites : Prop :=
  (∀ (s : State) (n k : Nat) (p : PendOp) (d : RDst) (mask : BitVec 32) (got : List (Option Byte)) (locs : List Loc) (cls : Option (Fin 8)),
    let v := focus n s
    v.core.pend[k]? = some p → p.kind = .load d mask got locs cls → (∀ g ∈ got, g.isSome = true) → got.length = locs.length →
    waitsFlight v p = false → (∀ c, v.core.rgn.st = .unwinding c → p.rgn = false) →
    ∃ u, exec (.tokenComplete n k) s = .next (focus s.core.id u) ∧
      u.core.pend = v.core.pend.filter (fun q => q.seq != p.seq) ∧
      let x : Vec := ofBytes 1024 (got.map fun g => g.getD 0)
      (∀ i, getS u.core.a i = if d = .s i then x.setWidth 64 else getS v.core.a i) ∧
      (∀ i j, j < 32 → elem 32 (getV u.core.a i) j =
        if d = .v i ∧ mask.getLsbD j = true then elem 32 x j else elem 32 (getV v.core.a i) j) ∧
      u.core.a.p = v.core.a.p ∧ u.core.a.y = v.core.a.y ∧ sameMem v u ∧
      (∀ f ∈ u.core.flights, ∀ i, d = .s i → f.dest ≠ .s i)) ∧
  -- stores and fences
  (∀ (s : State) (n k : Nat) (p : PendOp), let v := focus n s
    v.core.pend[k]? = some p →
    (p.kind = .stg → ∃ u, completesTo s n k p u ∧ u.core.a = v.core.a ∧ u.core.flights = v.core.flights ∧ sameMem v u) ∧
    (∀ b, p.kind = .stc b → (∀ x ∈ b, ∃ a, x.1 = .spad a ∧ v.dead.contains (locCore x.1) = false) → hasRoom v.core 0 →
      Mem.wf v.spad = true → (∀ q ∈ v.core.pend, q.seq < p.seq → stcLocs q = none ∧ ldcLocs q = none) →
      ∃ u, completesTo s n k p u ∧ u.core.a = v.core.a ∧ u.home = v.home ∧ u.l2 = v.l2 ∧
        ∀ a, Mem.get u.spad a = (lastStore b (.spad a)).getD (Mem.get v.spad a)) ∧
    (∀ sc, p.kind = .fence sc →
      ((∀ q ∈ v.core.pend, q.seq < p.seq → isEngine q = true) →
        ∃ u, completesTo s n k p u ∧ u.core.a = v.core.a ∧ u.core.flights = v.core.flights ∧ sameMem v u) ∧
      ((∃ q ∈ v.core.pend, q.seq < p.seq ∧ isEngine q = false) → exec (.tokenComplete n k) s = .next (focus s.core.id v))) ∧
    (p.kind = .fencex → v.core.young = [] →
      ∃ u, completesTo s n k p u ∧ u.core.a = v.core.a ∧ u.spad = v.spad ∧ ∀ l ∈ u.core.lines, l.dirty = 0) ∧
    (p.kind = .fencex → v.core.young ≠ [] → exec (.tokenComplete n k) s = .next (focus s.core.id v)))

/-! ## Stash and streams -/

/-- R300, R301, R378: SMAP, SUNMAP, SDROP and SFLUSH take effect by the next step (SMAP appends its mapping then, SUNMAP
removes it, SDROP drops the range's lines); in an open region they are held. SMAP's checks trap, in their order, and so do
SFLUSH's. Which mappings the checks of an SMAP see of the stash operations of its own bundle is the model's choice (log entry
54). -/
def Obligations.StashOperationResults : Prop :=
  ∀ (s : State) (g : Guard) (a b : Src 64), plain s → guardOn s g = true →
    let off := (readS s a).toNat
    let inFlight (o : StashOp) (t : State) : Prop := ∃ f : Flight, t = queued f s ∧ f.dest = .stash o ∧ f.left = 1 ∧
      f.latch = false ∧ f.flags = 0
    let issues (i : Instr) (o : StashOp) : Prop :=
      (regionOpen s.core = false → ∃ t, exec i s = .next t ∧ inFlight o t) ∧
      (regionOpen s.core = true → exec i s = .next (hold (.stash o none) s))
    (∀ size : Fin 7, let lsz := 12 + size.val
      let va := (readS s b).toNat
      let z := 2 ^ lsz
      let entry := s.core.ktt.find? fun e => decide (e.vbase ≤ va ∧ va + z ≤ e.vbase + 2 ^ e.lsz)
      let clash (e : KEntry) : Prop := 8 ≤ (mapsAfter s).length ∨ ∃ m ∈ mapsAfter s,
        (m.off < off + z ∧ off < m.off + 2 ^ m.lsz) ∨ (m.key < kttKey e va + z ∧ kttKey e va < m.key + 2 ^ m.lsz)
      let stops (c : Byte) (x : Word) : Prop := exec (.smap g a b size) s = .next (trapHere c x s)
      let aligned := off % z = 0 ∧ va % z = 0
      (off % z ≠ 0 → stops 0x08 (readS s a)) ∧ (off % z = 0 → va % z ≠ 0 → stops 0x08 (readS s b)) ∧
      (aligned → 2 ^ 56 < va + z → stops 0x09 (readS s b)) ∧
      (aligned → va + z ≤ 2 ^ 56 → entry = none → stops 0x05 (readS s b)) ∧
      (∀ e, aligned → va + z ≤ 2 ^ 56 → entry = some e →
        (e.rd = false → stops 0x07 (readS s b)) ∧
        (e.rd = true → 0x80000 < off + z → stops 0x05 (readS s a)) ∧
        (e.rd = true → off + z ≤ 0x80000 → clash e → stops 0x11 (readS s a)) ∧
        (e.rd = true → off + z ≤ 0x80000 → ¬ clash e → issues (.smap g a b size) (.smap off va lsz)))) ∧
    ((∀ h ∈ s.core.rgn.held, ∀ o t, h ≠ .stash o t) → (∀ f ∈ s.core.flights, ∀ o, f.dest ≠ .stash o) → mapsAfter s = s.core.maps) ∧
    issues (.sunmap g a) (.sunmap off) ∧ issues (.sdrop g a) (.sdrop off) ∧
    (∀ (m : MAddr) (tok : Fin 8) (buf : Fin 16) (t : TrapInfo), spadTrap s (eaM s m 64) 64 64 false = some t →
      exec (.sflush g m tok buf) s = .next (trapHere t.cause t.val s)) ∧
    (∀ (m : MAddr) (tok : Fin 8) (buf : Fin 16), let ea := eaM s m 64
      spadOk ea 64 →
      (mapOfOff (mapsAfter s) ea.toNat = none → exec (.sflush g m tok buf) s =
        .next (if regionOpen s.core = true then hold (.stash (.sflush ea.toNat buf) none) s else s)) ∧
      (∀ mp, mapOfOff (mapsAfter s) ea.toNat = some mp → regionOpen s.core = false →
        ∃ t, exec (.sflush g m tok buf) s = .next t ∧
          t.core.pend = pendedIn s tok (.sflush (some (lineKey (mp.key + (ea.toNat - mp.off)))) buf) ea ∧
          t.core.a = s.core.a ∧ sameMem s t) ∧
      (∀ mp, mapOfOff (mapsAfter s) ea.toNat = some mp → regionOpen s.core = true → exec (.sflush g m tok buf) s =
        .next (addPend tok .held (BitVec.ofInt 64 ea) (hold (.stash (.sflush ea.toNat buf) (some tok.val)) s)))) ∧
    (∀ (va lsz : Nat) (e : KEntry), kttFind s.core.ktt va (2 ^ lsz) = some e →
      let t := stashDo (.smap off va lsz) s
      t.core.maps = s.core.maps ++ [⟨off, va, kttKey e va, lsz, e.w, classOf e none⟩] ∧ t.core.a = s.core.a ∧
      ∀ l ∈ t.core.lines, ¬ (kttKey e va ≤ 64 * l.key ∧ 64 * l.key < kttKey e va + 2 ^ lsz)) ∧
    (∀ m, mapOfOff s.core.maps off = some m →
      (let t := stashDo (.sunmap off) s;
        t.core.maps = s.core.maps.filter (fun x => x.off != m.off) ∧ t.core.a = s.core.a) ∧
      (let t := stashDo (.sdrop off) s;
        t = { s with core := { s.core with lines := t.core.lines, young := t.core.young } } ∧
        (∀ y ∈ t.core.young, ¬ (m.key ≤ 64 * lineKey y.2.1 ∧ 64 * lineKey y.2.1 < m.key + 2 ^ m.lsz)) ∧
        ∀ l ∈ t.core.lines, ¬ (m.key ≤ 64 * l.key ∧ 64 * l.key < m.key + 2 ^ m.lsz))) ∧
    -- SFLUSH's completion writes its line back, and keeps it clean
    (∀ (n k : Nat) (p : PendOp) (key : Nat) (buf : Fin 16) (l : Line), let v := focus n s
      v.core.pend[k]? = some p → p.kind = .sflush (some key) buf → (∀ q ∈ v.core.pend, ordOpen q = true → atomKey q ≠ some key) →
      lineFind v.core key = some l → ∃ u, completesTo s n k p u ∧ u.core.a = v.core.a ∧ u.spad = v.spad ∧ calm v u ∧
        lineFind u.core key = some { l with dirty := 0 } ∧ (∀ j, j ≠ key → lineFind u.core j = lineFind v.core j) ∧
        ((v.l2.filter fun x => x.cluster == clusterOf v.core.id).length < l2Lines →
          ∀ i, i < 64 → l.dirty.getLsbD i = true → ∃ x, l2Find u (clusterOf v.core.id) key = some x ∧
            x.marks.getLsbD i = true ∧ lineByte x.data i = lineByte l.data i))

/-- R303 to R305, R308, R309: QBIND reads its descriptor and binds by the next step, at element 0; QUNBIND unbinds; QSTAT
gives the status word; QFLUSH writes out what was pushed. On an unbound stream the last three do nothing, or give 0. -/
def Obligations.StreamOperationResults : Prop :=
  (∀ (s : State) (g : Guard) (q : Fin 8) (m : MAddr), plain s → guardOn s g = true →
    let ea := eaM s m 64
    let d := qbindDesc s m
    (∀ c, spadOk ea 64 → spadErr s ea.toNat 64 = some c → ∃ t f d', exec (.qbind g q m) s = .next (queued f t) ∧
      f.dest = .qact (.bind q d') ∧ f.left = 1 ∧ f.latch = false ∧ t.core.a = s.core.a ∧ sameMem s t ∧
      ∃ e ∈ t.core.errs, e.cause = c ∧ e.ea = BitVec.ofInt 64 ea) ∧
    (spadOk ea 64 → spadErr s ea.toNat 64 = none → qbindBad s q d = false → ∃ (s1 : State) (f : Flight), readsOnly s s1 ∧
      exec (.qbind g q m) s = .next (queued f s1) ∧ f.left = 1 ∧ f.latch = false ∧
      (landAct s1 f).core.a = { s1.core.a with streams := s1.core.a.streams.set q.val ⟨true, d, 0, [], []⟩ q.isLt }) ∧
    (spadOk ea 64 → spadErr s ea.toNat 64 = none → qbindBad s q d = true →
      exec (.qbind g q m) s = .next (trapHere 0x0A (BitVec.ofInt 64 ea) s)) ∧
    ((∀ x ∈ s.core.maps, x.off % 4096 = 0 ∧ 12 ≤ x.lsz) →
      let c := d.ctl.toNat
      let lvl := c / 2 ^ 3 % 4
      let n := 32 * 2 ^ (c % 4)
      let cnt := (d.ext.get 0).toNat * (d.ext.get 1).toNat * (d.ext.get 2).toNat * (d.ext.get 3).toNat
      (qbindBad s q d = true ↔ (getQ s q).bound = true ∨ c / 2 ^ 16 ≠ 0 ∨ c / 2 ^ 5 % 8 ≠ 0 ∨
        (c.testBit 15 = false ∧ c / 2 ^ 12 % 8 ≠ 0) ∨ lvl = 3 ∨ c % 4 = 3 ∨ (∃ i, d.ext.get i = 0) ∨ 2 ^ 32 ≤ cnt ∨
        (lvl = 2 ∧ c.testBit 2 = true) ∨
        (lvl ≤ 1 ∧ ∃ j, j < cnt ∧ (qAddr d j < 0 ∨ 0x80000 < qAddr d j + n ∨ qAddr d j % n ≠ 0)) ∨
        (lvl = 1 ∧ ∃ j i, j < cnt ∧ i < n ∧ mapOfOff s.core.maps (qAddr d j + i).toNat = none) ∨
        (lvl = 2 ∧ (d.base.toNat % n ≠ 0 ∨ ∃ i, (d.stride.get i).toInt % n ≠ 0)))) ∧
    ((∀ o, o < 64 → mapOfOff s.core.maps (ea.toNat + o) = none) → d.base.toNat =
      natOfBytes ((List.range 8).map fun i => Mem.get s.spad (spadAddr s.core.id (ea.toNat + i))))) ∧
  (∀ (s : State) (g : Guard) (q : Fin 8), plain s → guardOn s g = true →
    ((getQ s q).bound = false → exec (.qunbind g q) s = .next s ∧ exec (.qflush g q) s = .next s) ∧
    ((getQ s q).bound = true → qOut (getQ s q).desc = false →
      exec (.qflush g q) s = .next s ∧ ∃ f : Flight, exec (.qunbind g q) s = .next (queued f s) ∧ f.left = 1 ∧ f.latch = false ∧
        (landAct s f).core.a = { s.core.a with streams := s.core.a.streams.set q.val QState.reset q.isLt }) ∧
    ((getQ s q).bound = true → qOut (getQ s q).desc = true → (∀ e ∈ (getQ s q).outq, e.data.isSome = true) →
      ∃ t, exec (.qflush g q) s = .next t ∧ (getQ t q).outq = [] ∧ (getQ t q).pos = (getQ s q).pos ∧ t.core.a.s = s.core.a.s ∧
        t.core.a.v = s.core.a.v ∧
        let n := qElemBytes (getQ s q).desc
        ((∀ f ∈ s.core.flights, ∀ i, f.dest ≠ .stream q i) → Mem.wf s.spad = true →
          (∀ e ∈ (getQ s q).outq, ∀ i, i < n → mapOfOff s.core.maps (e.addr + i) = none) → t.home = s.home ∧ t.l2 = s.l2 ∧
          ∀ a, Mem.get t.spad a = (lastStore ((getQ s q).outq.flatMap fun e => (List.range n).map fun i =>
            (.spad (spadAddr s.core.id (e.addr + i)), (e.data.getD 0).extractLsb' (8 * i) 8)) (.spad a)).getD (Mem.get s.spad a))) ∧
    ((getQ s q).bound = true → qOut (getQ s q).desc = true → ∃ t f, exec (.qflush g q) s = .next t ∧
      exec (.qunbind g q) s = .next (queued f t) ∧ f.dest = .qact (.unbind q) ∧ f.left = 1 ∧ f.latch = false)) ∧
  (∀ (s : State) (g : Guard) (d : Dst 64) (k : Fin 8), plain s → guardOn s g = true →
    let q := getQ s k
    ∃ w, givesS (.qstat g d k) s s 1 d w ∧ (q.bound = false → w = 0) ∧
      (q.bound = true → w.toNat % 2 ^ 32 = (qCount q.desc - q.pos) % 2 ^ 32 ∧ w.getLsbD 40 = true ∧
        w.getLsbD 41 = qOut q.desc ∧ w.getLsbD 42 = q.inq.any (fun e => e.flt.isSome) ∧
        (qOut q.desc = false → w.toNat / 2 ^ 32 % 2 ^ 8 = q.inq.length % 2 ^ 8) ∧
        (qOut q.desc = true → w.toNat / 2 ^ 32 % 2 ^ 8 = (q.outq.length + heldPushes s k) % 2 ^ 8)))

/-! ## Atomics and completion words -/

/-- R313: the word each atomic leaves, on its old word and its operands, in the size of its form.
R178, R179, R321, R322: CWADD's effect on a completion word by the operand's `CWOP`, an engine's update of one, and
when WAITCW is satisfied. -/
def Obligations.WordUpdateValues : Prop :=
  (∀ (z : ASz) (old x x2 : Word),
     let w := 8 * aszBytes z
     let O := old.setWidth w
     let X := x.setWidth w
     let r (op : AOp) := (atomNew op z old x x2).setWidth w
     (∀ op, op ≠ .fadd → (atomNew op z old x x2).toNat < 2 ^ w) ∧
     r .add = O + X ∧ (r .min).toInt = min O.toInt X.toInt ∧ (r .max).toInt = max O.toInt X.toInt ∧
     (r .minn).toNat = min O.toNat X.toNat ∧ (r .maxn).toNat = max O.toNat X.toNat ∧
     r .and = O &&& X ∧ r .or = O ||| X ∧ r .xor = O ^^^ X ∧ r .xchg = X ∧
     r .cas = (if O = X then x2.setWidth w else O) ∧
     (z = .w → (atomNew .fadd z old x x2).toNat % 2 ^ 32 =
       (addF f32F .rne (decodeF f32F O.toNat) (decodeF f32F X.toNat)).1 % 2 ^ 32)) ∧
  (∀ (w v : Word) (f : Byte) (target : BitVec 32),
     let D := (cwDone w).toNat
     let F := (cwFailed w).toNat
     let op := v.toNat / 2 ^ 62
     let addF := v.toNat / 2 ^ 32 % 2 ^ 16
     (op = 0 → (cwDone (cwaddNew w v)).toNat = (D + v.toNat % 2 ^ 32) % 2 ^ 32 ∧
       (cwFailed (cwaddNew w v)).toNat = min (F + addF) 0xFFFF ∧
       (addF = 0 → cwStatus (cwaddNew w v) = cwStatus w) ∧
       (addF ≠ 0 → (cwStatus (cwaddNew w v)).toNat = v.toNat / 2 ^ 48 % 2 ^ 14)) ∧
     (op = 1 → let n := v.toNat % 2 ^ 16
       (cwDone (cwaddNew w v)).toNat = (D + 1) % 2 ^ 32 ∧ cwFailed (cwaddNew w v) = cwFailed w ∧
       cwStatus (cwaddNew w v) = if n ≠ 0 ∧ (D + 1) % 2 ^ 32 % n = 0 then cwStatus w + 1 else cwStatus w) ∧
     (2 ≤ op → cwaddNew w v = w) ∧
     (∀ barrier, (cwDone (cwItem barrier none w)).toNat = (D + 1) % 2 ^ 32 ∧ cwFailed (cwItem barrier none w) = cwFailed w ∧
       cwDone (cwItem barrier (some f) w) = cwDone w ∧ (cwFailed (cwItem barrier (some f) w)).toNat = min (F + 1) 0xFFFF) ∧
     cwStatus (cwItem false (some f) w) = f.setWidth 16 ∧ cwStatus (cwItem true (some f) w) = cwStatus w ∧
     (cwSatisfied target w = true ↔ target.toNat ≤ D ∨ F ≠ 0))

/-- R312, R314, R315, R188, R189: outside a region an atomic, plain or ordered, adds its line to the write signature and
makes its token pending; it changes no register and no scratchpad byte at issue. At core scope it is performed at once,
in the core's own line; at a wider scope the line leaves the L1D and the atomic is performed by its completion. Home
bytes are the same but where lines that are written back on the way are still dirty. -/
def Obligations.AtomicIssue : Prop :=
  ∀ (s : State) (op : AOp) (x : AT) (e : KEntry) (i : Instr),
    (op, i) ∈ [(AOp.add, Instr.aadd x), (.min, .amin x), (.max, .amax x), (.minn, .aminn x), (.maxn, .amaxn x), (.and, .aand x),
      (.or, .aor x), (.xor, .axor x), (.xchg, .axchg x), (.cas, .acas x), (.fadd, .afadd x)] ∨ i = .atomicOrd op x →
    regionOpen s.core = false → guardOn s x.g = true →
    let n := aszBytes x.z
    let ea := eaM s x.m n
    checkGlob s.core.ktt ea n n .rw = .ok e →
    let a := kttKey e ea.toNat
    let key := lineKey a
    let sc := curScope s
    let v := getS s.core.a x.r
    let v2 := getS s.core.a (x.r + 1)
    let u := addLineSig key s
    ∃ t, exec i s = .next t ∧ t.core.a = s.core.a ∧ t.core.flights = s.core.flights ∧
      t.core.sp = { s.core.sp with wsig := t.core.sp.wsig } ∧ t.spad = s.spad ∧
      (∃ p ∈ t.core.pend, p.seq = s.core.seq ∧ p.tok = x.tok ∧ p.ea = BitVec.ofInt 64 ea) ∧
      (lineQuiet s.core key →
        calmBut (fun k => sc = .core ∧ ∃ j, j < n ∧ k = lineKey (a + j)) s t ∧
        (sc = .core → placeErr .core a n s = none → placeReach .core a n s = true → hasRoom s.core 2 → ∃ old,
          t.core.pend = pendedIn u x.tok (.atomic op x.z x.r v v2 sc a (some old)) ea ∧
          (∀ k b, k < n → (∀ y ∈ s.core.young, y.2.1 ≠ a + k) → lineView s.core (a + k) = some (b, true) →
            old.extractLsb' (8 * k) 8 = b) ∧
          (∀ k, k < n → lineView t.core (a + k) = some ((atomNew op x.z old v v2).extractLsb' (8 * k) 8, true)) ∧
          (∀ c b, c < a ∨ a + n ≤ c → lineView s.core c = some (b, true) → lineView t.core c = some (b, true))) ∧
        (sc ≠ .core → mapOfKey s.core.maps key = none → lineFind t.core key = none) ∧
        (sc ≠ .core → i ≠ .atomicOrd op x →
          t.core.pend = pendedIn u x.tok (.atomic op x.z x.r v v2 sc a none) ea) ∧
        (sc ≠ .core → i = .atomicOrd op x →
          t.core.pend = pendedIn u x.tok (.ordAtomic op x.z x.r v v2 sc a none) ea ∧
          ∃ req, t.ordSent = s.ordSent ++ [⟨sliceFor s sc a, req⟩] ∧ req.core = s.core.id ∧ req.pseq = s.core.seq ∧
            req.step = BitVec.ofNat 64 (stepOf s (dieOf s.core.id)) ∧ req.far = none))

/-- R188, R213, R214, R313: at die scope or wider an atomic's completion replaces the word at its home and gives the old
word, zero-extended, to its register, for a line the core no longer holds and a home that can be reached; no scratchpad byte
changes, nor any other byte at home of a line that no level holds written. One performed before gives what it then read.
R321: so does a CWADD, whose word its operand's `CWOP` decides; a barrier word is one that an arrival last updated (log entry
20). -/
def Obligations.AtomicCompletion : Prop :=
  (∀ (s : State) (n k : Nat) (p : PendOp) (op : AOp) (z : ASz) (r : Fin 64) (x x2 : Word) (sc : Scope) (a : Nat)
    (o : Option Word),
    let v := focus n s
    let w := 8 * aszBytes z
    v.core.pend[k]? = some p → (∀ q ∈ v.core.pend, q.seq = p.seq → q = p) → p.kind = .atomic op z r x x2 sc a o →
    waitsFlight v p = false → (∀ c, v.core.rgn.st = .unwinding c → p.rgn = false) →
    (∀ old, o = some old → ∃ u, exec (.tokenComplete n k) s = .next (focus s.core.id u) ∧
      u.core.a = setS v.core.a r ((old.setWidth w).setWidth 64) ∧ sameMem v u ∧
      u.core.pend = v.core.pend.filter fun q => q.seq != p.seq) ∧
    (o = none → sc ≠ .core → sc ≠ .cluster → a % aszBytes z = 0 → homeErr v (lineKey a) = none →
      reach v (dieOf v.core.id) (lineKey a) = true → lineFind v.core (lineKey a) = none → Mem.wf v.home = true →
      (∀ q ∈ v.core.pend, ordOpen q = true → atomKey q ≠ some (lineKey a)) → flowBehind v p = false →
      lineBehind v (lineKey a) p = false → v.core.young = [] →
      ∃ u old, exec (.tokenComplete n k) s = .next (focus s.core.id u) ∧ u.core.a = setS v.core.a r ((old.setWidth w).setWidth 64) ∧
        (∀ i, i < aszBytes z → old.extractLsb' (8 * i) 8 = lineByte (homeRead v (lineKey a)) ((a + i) % 64)) ∧
        (∀ i, i < aszBytes z → Mem.get u.home (a + i) = (atomNew op z old x x2).extractLsb' (8 * i) 8) ∧
        (∀ c, c < a ∨ a + aszBytes z ≤ c → calmKey v (lineKey c) → Mem.get u.home c = Mem.get v.home c) ∧
        u.spad = v.spad ∧ u.core.pend = v.core.pend.filter fun q => q.seq != p.seq)) ∧
  (∀ (s : State) (n k : Nat) (p : PendOp) (r : Fin 64) (x : Word) (sc : Scope) (a : Nat) (o : Option Word), let v := focus n s
    v.core.pend[k]? = some p → (∀ q ∈ v.core.pend, q.seq = p.seq → q = p) → p.kind = .cwadd r x sc a o →
    waitsFlight v p = false → (∀ c, v.core.rgn.st = .unwinding c → p.rgn = false) →
    (∀ old, o = some old → ∃ u, completesTo s n k p u ∧ u.core.a = setS v.core.a r old ∧ sameMem v u) ∧
    (o = none → sc ≠ .core → sc ≠ .cluster → a % 8 = 0 → homeErr v (lineKey a) = none →
      reach v (dieOf v.core.id) (lineKey a) = true → lineFind v.core (lineKey a) = none → Mem.wf v.home = true →
      (∀ q ∈ v.core.pend, ordOpen q = true → atomKey q ≠ some (lineKey a)) → flowBehind v p = false →
      lineBehind v (lineKey a) p = false → v.core.young = [] →
      ∃ u old, completesTo s n k p u ∧ u.core.a = setS v.core.a r old ∧ u.spad = v.spad ∧
        (∀ i, i < 8 → old.extractLsb' (8 * i) 8 = lineByte (homeRead v (lineKey a)) ((a + i) % 64)) ∧
        (∀ i, i < 8 → Mem.get u.home (a + i) = (cwaddNew old x).extractLsb' (8 * i) 8) ∧
        (∀ c, c < a ∨ a + 8 ≤ c → calmKey v (lineKey c) → Mem.get u.home c = Mem.get v.home c) ∧
        (x.toNat / 2 ^ 62 = 1 → a ∈ u.barriers) ∧ (x.toNat / 2 ^ 62 = 0 → a ∉ u.barriers)))

/-! ## Synchronisation and engines -/

/-- R316 to R323: outside a region ACQ, REL, RELF, FENCE and FENCEX put their token in flight with what they read at issue;
CWADD (its three rows) is performed at once at core scope and by its completion at a wider one; WAITCW gives the word by the
end of its step when it is satisfied, and stops issue at its slot when not. That the word's kind is kept in `barriers` is the
model's choice (log entry 20), and so is WAITCW's check of read permission alone (log entry 16). -/
def Obligations.SynchronisationIssue : Prop :=
  ∀ (s : State) (g : Guard) (m : MAddr) (tok : Fin 8), regionOpen s.core = false → guardOn s g = true →
    let sc := curScope s
    (∀ e, checkGlob s.core.ktt (eaM s m 128) 128 128 .rw = .ok e →
      let a := kttKey e (eaM s m 128).toNat
      let ea := BitVec.ofInt 64 (eaM s m 128)
      (∀ d, exec (.acq g d m tok) s = .next (addPend tok (.acq d sc a) ea s)) ∧
      (∀ b, exec (.rel ⟨g, b, m, tok⟩) s = .next (addPend tok (.rel false (readS s b) sc a 0) ea s) ∧
        exec (.relf ⟨g, b, m, tok⟩) s = .next (addPend tok (.rel true (readS s b) sc a 0) ea s))) ∧
    exec (.fence g tok) s = .next (addPend tok (.fence sc) 0 s) ∧
    exec (.fencex g tok) s = .next (addPend tok .fencex 0 s) ∧
    (∀ e, checkGlob s.core.ktt (eaM s m 8) 8 8 .rw = .ok e → ∀ r : Fin 64,
      let a := kttKey e (eaM s m 8).toNat
      let v := getS s.core.a r
      let u := addLineSig (lineKey a) s
      ∀ i, i = .cwaddAdd ⟨g, r, m, tok⟩ ∨ i = .cwaddArrive ⟨g, r, m, tok⟩ ∨ i = .cwaddRead ⟨g, r, m, tok⟩ →
        ∃ t, exec i s = .next t ∧ t.core.a = s.core.a ∧ t.core.flights = s.core.flights ∧ t.spad = s.spad ∧
          (∃ p ∈ t.core.pend, p.seq = s.core.seq ∧ p.tok = tok ∧ p.ea = BitVec.ofInt 64 (eaM s m 8)) ∧
          (lineQuiet s.core (lineKey a) →
            (sc ≠ .core → calm s t ∧ t.core.pend = pendedIn u tok (.cwadd r v sc a none) (eaM s m 8)) ∧
            (sc = .core → placeErr .core a 8 s = none → placeReach .core a 8 s = true → hasRoom s.core 2 → ∃ old,
              t.core.pend = pendedIn u tok (.cwadd r v sc a (some old)) (eaM s m 8) ∧
              (v.toNat / 2 ^ 62 = 1 → a ∈ t.barriers) ∧ (v.toNat / 2 ^ 62 = 0 → a ∉ t.barriers) ∧
              ∀ k, k < 8 → lineView t.core (a + k) = some ((cwaddNew old v).extractLsb' (8 * k) 8, true)))) ∧
    (∀ e, checkGlob s.core.ktt (eaM s m 8) 8 8 .rd = .ok e → plain s → ∀ r : Fin 64,
      let a := kttKey e (eaM s m 8).toNat
      let target := (getS s.core.a r).setWidth 32
      let w := waitWord sc a s
      placeErr sc a 8 s = none →
      (cwSatisfied target w.1 = true → waitReads sc a s = true → exec (.waitcw g r m) s =
        .next ((queued (resultS w.2 1 (.reg r) w.1) w.2).mapCore fun c => { c with wait := none })) ∧
      (cwSatisfied target w.1 = false ∨ waitReads sc a s = false → exec (.waitcw g r m) s =
        .next { s.mapCore (fun c => { c with
          wait := some (.cw a target sc), landDue := false, tsLate := some false
          sp := { c.sp with done := BitVec.ofNat 8 (2 ^ c.slot.val - 1) ||| c.sp.done } }) with agenda := [] }))

/-- R174: a line's signature has the bits its three hashes name, so a set to which a line was added always holds it;
the manual's two worked lines.
R176, R180 to R182: a release adds the write signature into the object, or marks it FULLINV when 256 bits or more would
be set, replaces its value and counts its generation, RELF on an emptied signature; an acquire leaves no line of the
signature in the core, and after a FULLINV object only bytes not yet written back.
R184, R316 to R319: what the completion of an ACQ, a REL or RELF and an engine command's token does with its object, the
core's lines and %wsig. -/
def Obligations.SignaturesAndReleases : Prop :=
  ((∀ (key i : Nat), i < 512 → ((sigLine key).getLsbD i = true ↔ ∃ j, j < 3 ∧ sigHash (BitVec.ofNat 50 key) j = i)) ∧
   (∀ (sg x : Sig) (key : Nat), inSig sg key = true → inSig (sg ||| x) key = true) ∧
   (∀ (sg : Sig) (key : Nat), inSig (sg ||| sigLine key) key = true) ∧
   (∀ i, i < 3 → sigHash (BitVec.ofNat 50 (0x40 / 64)) i ∈ [1, 128, 256]) ∧
   (∀ i, i < 3 → sigHash (BitVec.ofNat 50 (0x10000040 / 64)) i ∈ [17, 264, 192])) ∧
  ((∀ (full : Bool) (v : Word) (w : Sig) (o : SyncObj),
     let n := releaseNew full v w o
     let sg := if full = true then 0 else o.sg
     let fl := if full = true then false else o.flags.getLsbD 0
     n.value = v ∧ n.gen = o.gen + 1 ∧
     (popcount (sg ||| w) < 256 → n.sg = sg ||| w ∧ n.flags.getLsbD 0 = fl) ∧
     (256 ≤ popcount (sg ||| w) → n.sg = sg ∧ n.flags.getLsbD 0 = true) ∧
     ∀ i, 1 ≤ i → n.flags.getLsbD i = o.flags.getLsbD i) ∧
   (∀ (s : State) (sg : Sig) (sc : Scope),
     (∀ l ∈ (acquireSig sg false sc s).core.lines, inSig sg l.key = false) ∧
     (∀ l ∈ (acquireSig sg true sc s).core.lines, l.dirty ≠ 0 ∧ l.valid = l.dirty) ∧
     (acquireSig sg false sc s).core.a = s.core.a ∧ (acquireSig sg false sc s).spad = s.spad)) ∧
  (∀ (s : State) (n k : Nat) (p : PendOp), let v := focus n s
    v.core.pend[k]? = some p → waitsFlight v p = false → (∀ c, v.core.rgn.st = .unwinding c → p.rgn = false) →
    -- an acquire at die scope or wider
    (∀ d sc a, p.kind = .acq d sc a → sc ≠ .core → sc ≠ .cluster → reach v (dieOf v.core.id) (lineKey a) = true →
      objErr v a = none → lineFind v.core (lineKey a) = none → lineFind v.core (lineKey (a + 64)) = none →
      let o := objAt v a
      ∃ u, completesTo s n k p u ∧ u.spad = v.spad ∧
        (∀ j, getS u.core.a j = if d = some j then o.gen else getS v.core.a j) ∧ u.core.a.v = v.core.a.v ∧ u.core.a.p = v.core.a.p ∧
        (noRelease v.core → u.core.sp.wsig = v.core.sp.wsig ||| o.sg) ∧
        (o.flags.getLsbD 0 = false → ∀ l ∈ u.core.lines, inSig o.sg l.key = false) ∧
        (o.flags.getLsbD 0 = true → ∀ l ∈ u.core.lines, l.dirty ≠ 0 ∧ l.valid = l.dirty)) ∧
    -- a release at die scope or wider: step 1 over, every home it pushes to in reach
    (∀ full val sc a after, p.kind = .rel full val sc a after → sc ≠ .core → sc ≠ .cluster → v.core.young = [] →
      (∀ q ∈ v.core.pend, q.seq < p.seq → isEngine q = true) → reach v (dieOf v.core.id) (lineKey a) = true →
      pushesReach v = true → pushErr v = none → objErr v a = none →
      lineFind v.core (lineKey a) = none → lineFind v.core (lineKey (a + 64)) = none →
      ∃ u, completesTo s n k p u ∧ u.core.a = v.core.a ∧ u.spad = v.spad ∧ u.core.sp.wsig = after ∧
        (∀ l ∈ u.core.lines, l.dirty = 0) ∧
        (calmKey v (lineKey a) → calmKey v (lineKey (a + 64)) → a % 128 = 0 → Mem.wf v.home = true →
          objAt u a = releaseNew full val v.core.sp.wsig (objAt v a))) ∧
    (∀ full val sc a after, p.kind = .rel full val sc a after →
      (∃ q ∈ v.core.pend, q.seq < p.seq ∧ ∃ f x c b h, q.kind = .rel f x c b h) →
      exec (.tokenComplete n k) s = .next (focus s.core.id v)) ∧
    -- the join of an engine command
    (∀ id c, p.kind = .engine id → cmdFind v id = some c → stopping v = false →
      (cmdDone c = false → exec (.tokenComplete n k) s = .next (focus s.core.id v)) ∧
      (cmdDone c = true → (∀ t lx, c.task.bind (taskFind v) = some t → launchFind v t.launch = some lx →
          ∀ q ∈ lx.rcbs, q.steps = none ∧ q.bytes = none) →
        ∃ u, completesTo s n k p u ∧ u.core.a = { v.core.a with fflags := v.core.a.fflags ||| c.flags } ∧ cmdFind u id = none ∧
          (noRelease v.core → u.core.sp.wsig = v.core.sp.wsig ||| c.sig) ∧ (∀ l ∈ u.core.lines, inSig c.sig l.key = false) ∧
          (∀ e, c.failCause = some e → cmdCw c.kind c.desc = 0 → c.kind ≠ .gnode →
            ∃ x ∈ u.core.errs, x.cause = e ∧ x.ea = c.ea ∧ x.tok = some p.tok) ∧
          (c.failCause = none ∨ cmdCw c.kind c.desc ≠ 0 → u.core.errs = v.core.errs))))

/-- R333 to R335, R381: an engine instruction copies its descriptor from the scratchpad, makes its token pending, and puts
in flight one command, not yet started, held when a region is open; it writes no register and no byte of memory. -/
def Obligations.EngineIssue : Prop :=
  ∀ (s : State) (x : EC) (k : EKind) (i : Instr),
    (k, i) ∈ [(EKind.sscan, Instr.sscan x), (.cpy, .cpy x), (.cpyr, .cpyr x), (.mcast, .mcast x), (.gath, .gath x),
      (.scat, .scat x), (.coll, .coll x), (.gnode, .gnode x)] → guardOn s x.g = true →
    let ea := eaM s x.m 64
    (engTrap k x s = none → spadErr s ea.toNat (descSize k) = none → ∃ t c, exec i s = .next t ∧ t.cmds = s.cmds ++ [c] ∧ c.id = s.cmdNext ∧ t.cmdNext = s.cmdNext + 1 ∧
      c.kind = k ∧ c.core = some s.core.id ∧ c.task = s.core.task ∧ c.started = false ∧ c.doneItems = [] ∧
      c.held = regionOpen s.core ∧ c.kexp = none ∧ c.ssu = (if k = .sscan then some s.core.id else none) ∧ c.ssthr = s.core.sp.ssthr.toNat ∧ c.desc.length = descSize k ∧
      (∀ o, o < descSize k → mapOfOff s.core.maps (ea.toNat + o) = none →
        c.desc[o]? = some (Mem.get s.spad (spadAddr s.core.id (ea.toNat + o)))) ∧
      t.core.pend = pendedIn s x.tok (.engine s.cmdNext) ea ∧ t.core.a.s = s.core.a.s ∧ t.core.a.v = s.core.a.v ∧
      t.core.sp = s.core.sp ∧ t.core.flights = s.core.flights ∧ t.spad = s.spad ∧ calm s t) ∧
    (∀ e, engTrap k x s = none → spadErr s ea.toNat (descSize k) = some e → ∃ t, exec i s = .next t ∧ t.cmds = s.cmds ∧
      t.core.pend = pendedIn s x.tok .stg ea ∧ t.core.a = s.core.a ∧ sameMem s t ∧
      ∃ d ∈ t.core.errs, d.cause = e ∧ d.tok = some x.tok ∧ d.ea = BitVec.ofInt 64 ea) ∧
    (∀ t, engTrap k x s = some t → exec i s = .next (trapHere t.cause t.val s))

/-! ## Events of a core -/

/-- R486, R249, R283, R117: with no bundle in progress and nothing that holds the core, BUNDLE_ISSUE fetches at the pc; a
fetch that fails, or a check, traps with nothing of the bundle committed now; else the bundle's work begins, and the bundle's
step is to end. A fetch that no path serves, and an awaited token, hold the bundle, and no register, flight or byte of memory
changes.
R44, R45, R46, R230: in a gang a member behind the lead issues the bundles broadcast to it, each once the skew has passed, and
none while another member is away; it reads the latches its neighbour held, and follows the lead's next bundle with a record
when its own would differ (how a skew is counted in steps is log 28's reading). -/
def Obligations.BundleIssueResults : Prop :=
  ∀ (s : State) (n : Nat), let v := focus n s
    midBundle s = false →
    let held (u t : State) : Prop := t.core.a = u.core.a ∧ t.core.sp = u.core.sp ∧ t.core.flights = u.core.flights ∧
      t.core.pend = u.core.pend ∧ t.core.pc = u.core.pc ∧ t.core.lines = u.core.lines ∧ t.spad = u.spad ∧ t.home = u.home ∧
      t.l2 = u.l2 ∧ t.core.stall ≠ none
    let goes (b : BundleBits) (s1 : State) : Prop :=
      let s2 := s1.mapCore fun c => { c with bundle := b, chain := none }
      (awaited s2 b ≠ [] → ∃ t, exec (.bundleIssue n) s = .next t ∧ held s2 t) ∧
      (awaited s2 b = [] → renamed s2 b = [] →
        (∀ t, checks s2 b = .error t →
          exec (.bundleIssue n) s = .next (stopAt t s2)) ∧
        (∀ l s4, checks s2 b = .ok l → afterChecks b l s2 = startBundle l s4 →
          ∃ t, exec (.bundleIssue n) s = .next t ∧ t = startBundle l s4 ∧ t.core.landDue = true ∧ t.core.a = s4.core.a ∧
            t.core.y0 = s4.core.a.y ∧ t.core.pc = s4.core.pc ∧ t.core.flights = s4.core.flights ∧ t.spad = s4.spad ∧
            t.home = s4.home))
    (issueBlocked v = false → overrun v.core = false → regionOpen v.core = false → v.core.feed = [] →
      (fetchWaits v = true → ∃ t, exec (.bundleIssue n) s = .next t ∧ held v t) ∧
      (∀ c, fetchCheck v v.core.pc = .error c → exec (.bundleIssue n) s = .next (stopAt ⟨8, c, v.core.pc⟩ v)) ∧
      (∀ b s1, fetchWaits v = false → fetch v = (.ok b, s1) → goes b s1)) ∧
    (∀ x, curTask v = some x →
      -- a member behind the lead issues the bundle broadcast to it, and reads the latches it came with
      (∀ g r, x.gpos ≠ 0 → v.core.feed = g :: r → issueBlocked v = false → regionOpen v.core = false →
        goes g.bits (v.mapCore fun c => { c with pc := g.pc, ny := g.y })) ∧
      -- its step is due once the member before it is more than the skew ahead
      (x.gpos ≠ 0 → (v.core.feed = [] ∨ v.core.feed.length ≤ skewOf v x ∧ gangDrains v x = false) →
        exec (.bundleIssue n) s = .next v) ∧
      -- no member runs further ahead of the next than the skew, and none while another is away from its core
      (∀ y k, 1 < x.gsize → gangNext v x = some y → y.core = some k → skewOf v x < (coreOf v k).feed.length →
        exec (.bundleIssue n) s = .next v) ∧
      (∀ y ∈ v.tasks, 1 < x.gsize → y.gang = x.gang → y.id ≠ x.id → y.st ≠ .ended → (y.core = none ∨ y.saved ≠ none) →
        exec (.bundleIssue n) s = .next v)) ∧
    -- the member behind gets each bundle with this one's latches, and goes where the lead goes
    (∀ x y k g, curTask v = some x → gangNext v x = some y → y.core = some k →
      (coreOf (feedNext g v) k).feed = (coreOf v k).feed ++ [g] ∧ (∀ j, j ≠ k → coreOf (feedNext g v) j = coreOf v j)) ∧
    (∀ own, (v.core.feed = [] → followLead own v = (own, v)) ∧
      ∀ g r, v.core.feed = g :: r → (followLead own v).1 = g.next ∧
        (g.next = own → (followLead own v).2 = v) ∧
        (g.next ≠ own → dieOf v.core.id < 4 → ∃ e ∈ (dieGet (followLead own v).2 (dieOf v.core.id)).gecko,
          e.cause = 0x81 ∧ e.pc = g.next ∧ e.val = own ∧ e.src = srcNum v.core.id))

/-- R143, R160, R161, R169, R300, R301, R306, R374, R467: the events by which a core's rings, streams, fills and write-backs
go on. Each leaves the registers but what it names; `calm` allows for what full levels give up (log entry 44). -/
def Obligations.CoreEventResults : Prop :=
  ∀ (s : State) (n : Nat), let v := focus n s
    -- ring pushes and clears whose fifth step has ended
    (∃ u, exec (.ringPushEffect n) s = .next (focus s.core.id u) ∧ u.core.a = { v.core.a with rings := u.core.a.rings } ∧
      u.core.flights = v.core.flights.filter (fun f => !(f.left == 0 && isRing f)) ∧ sameMem v u ∧
      (∀ r, (∀ f ∈ v.core.flights, f.left = 0 → f.dest ≠ .ringPush r ∧ f.dest ≠ .ringClear r) →
        u.core.a.rings.get r = v.core.a.rings.get r) ∧
      ∀ f r, v.core.flights.filter (fun f => f.left == 0 && isRing f) = [f] →
        let g := v.core.a.rings.get r
        let h := u.core.a.rings.get r
        (f.dest = .ringPush r → h.entries.get g.next = f.val.setWidth 32 ∧
          (∀ k, k ≠ g.next → h.entries.get k = g.entries.get k) ∧ h.fill = min 16 (g.fill + 1) ∧ h.next = g.next + 1) ∧
        (f.dest = .ringClear r → h.entries = g.entries ∧ h.fill = 0 ∧ h.next = 0)) ∧
    -- the transfer unit
    (∀ q : Fin 8,
      (canFetch v q = true → ∃ u e, exec (.streamFetch n q) s = .next (focus s.core.id u) ∧ readsOnly v u ∧
        getQ u q = { getQ v q with inq := (getQ v q).inq ++ [e] } ∧ e.idx = (getQ v q).pos + (getQ v q).inq.length ∧
        (∀ j, j ≠ q → getQ u j = getQ v j) ∧
        (let a := (qAddr (getQ v q).desc e.idx).toNat;
          qLevel (getQ v q).desc = 0 → (∀ i, i < qElemBytes (getQ v q).desc → mapOfOff v.core.maps (a + i) = none) →
          e.flt = none ∧ ∀ i, i < 128 → i < qElemBytes (getQ v q).desc →
            e.data.extractLsb' (8 * i) 8 = Mem.get v.spad (spadAddr v.core.id (a + i)))) ∧
      (canFetch v q = false → exec (.streamFetch n q) s = .next (focus s.core.id v)) ∧
      (∀ i a x r, (getQ v q).outq = ⟨i, a, some x⟩ :: r → ∃ u, exec (.streamWrite n q) s = .next (focus s.core.id u) ∧
        getQ u q = { getQ v q with outq := r } ∧ (∀ j, j ≠ q → getQ u j = getQ v j) ∧ u.home = v.home ∧ u.l2 = v.l2 ∧
        (Mem.wf v.spad = true → (∀ k, k < qElemBytes (getQ v q).desc → mapOfOff v.core.maps (a + k) = none) →
          u.core.lines = v.core.lines ∧
          ∀ c, Mem.get u.spad c = if spadAddr v.core.id a ≤ c ∧ c < spadAddr v.core.id a + qElemBytes (getQ v q).desc then
            x.extractLsb' (8 * (c - spadAddr v.core.id a)) 8 else Mem.get v.spad c)) ∧
      ((∀ e, (getQ v q).outq.head? = some e → e.data = none) → exec (.streamWrite n q) s = .next (focus s.core.id v))) ∧
    -- fills
    (∀ key f, v.core.fills.find? (fun f => f.key == key && f.err.isNone) = some f → unperformed v.core key = false →
      reach v (dieOf n) key = true → homeErr v key = none →
      ∃ u, exec (.lineFillComplete n key) s = .next (focus s.core.id u) ∧ (∀ p ∈ u.core.pend, loadCls p = f.cls → waitsFor key p = false) ∧
        u.core.a = v.core.a ∧ u.spad = v.spad ∧ calm v u ∧ f ∉ u.core.fills ∧
        (f.dropped = false → leased key = false → hasRoom v.core 1 → ∃ l, lineFind u.core key = some l ∧
          l.valid = BitVec.allOnes 64 ∧ ∀ l0, lineFind v.core key = some l0 → l.dirty = l0.dirty)) ∧
    (v.core.stall = some .stashMiss →
      (∃ f ∈ v.core.fills, (mapOfKey v.core.maps f.key).isSome = true ∧ unperformed v.core f.key = false ∧
        reach v (dieOf n) f.key = true) ∨ (∀ f ∈ v.core.fills, mapOfKey v.core.maps f.key = none) →
      ∃ u, exec (.stashFillComplete n) s = .next (focus s.core.id u) ∧ u.core.stall = none ∧
        u.core.a = v.core.a ∧ u.spad = v.spad ∧ calm v u ∧
        ∀ f ∈ u.core.fills, (mapOfKey v.core.maps f.key).isSome = true →
          unperformed v.core f.key = true ∨ reach v (dieOf n) f.key = false ∨ f.err.isSome = true) ∧
    -- write-backs
    (∀ key l evict, lineFind v.core key = some l → unperformed v.core key = false →
      ∃ u, exec (.coreWriteback n key evict) s = .next (focus s.core.id u) ∧ u.core.a = v.core.a ∧ u.spad = v.spad ∧
        calm v u ∧ (evict = true → mapOfKey v.core.maps key = none → lineFind u.core key = none) ∧
        (evict = false ∨ mapOfKey v.core.maps key ≠ none → lineFind u.core key = some { l with dirty := 0 }) ∧
        (∀ k, k ≠ key → lineFind u.core k = lineFind v.core k) ∧
        ((v.l2.filter fun x => x.cluster == clusterOf v.core.id).length < l2Lines →
          ∀ i, i < 64 → l.dirty.getLsbD i = true → ∃ x, l2Find u (clusterOf v.core.id) key = some x ∧
            x.marks.getLsbD i = true ∧ lineByte x.data i = lineByte l.data i)) ∧
    (∃ u, exec (.stashWritebackAcknowledged n) s = .next (focus s.core.id u) ∧ u.core.a = v.core.a ∧
      u.core.flights = v.core.flights ∧ u.core.maps = v.core.maps ∧ u.spad = v.spad ∧ calm v u ∧
      ∀ f ∈ v.core.flights, ∀ off m, f.dest = .stash (.sunmap off) → mapOfOff v.core.maps off = some m →
        ∀ l ∈ u.core.lines, m.key ≤ 64 * l.key → 64 * l.key < m.key + 2 ^ m.lsz → l.dirty = 0)

/-! ## Events of a region -/

/-- R225, R230, R237, R239, R240, R381, R386, R393 to R397: the events of a region. ROLLBACK with
a cause of R225, the step limit, a detected error and a rerun's outcome undo it and say what follows; the drain of a commit
writes the held stores in their order and closes it. The table of R395 is the model's reading of it, row by row. In a gang a
rollback undoes every member, and the reruns' outcome is that of the first row that any member falls under. -/
def Obligations.RegionEventResults : Prop :=
  (∀ (s : State) (n : Nat) (c : Fin 16), let v := focus n s
    1 ≤ c.val → c.val ≤ 8 → (gangCores v).Nodup →
    ∃ u, exec (.rollback n c) s = .next (focus s.core.id u) ∧ u.spad = v.spad ∧ u.home = v.home ∧ u.l2 = v.l2 ∧
      (∀ k ∈ gangCores v, (coreOf v k).rgn.st = .opened →
        (coreOf u k).rgn.st = .unwinding c.val ∧ (coreOf u k).a = (coreOf v k).a ∧ (coreOf u k).pc = (coreOf v k).pc ∧
        (coreOf u k).feed = []) ∧
      (∀ k, k ∉ gangCores v → (coreOf u k).rgn = (coreOf v k).rgn ∧ (coreOf u k).a = (coreOf v k).a)) ∧
  (∀ (s : State) (n : Nat), let v := focus n s
    (gangCores v).Nodup → gangCores v ≠ [] → v.core.rgn.st = .rerunB →
    (∀ k ∈ gangCores v, (coreOf v k).rgn.st = .rerunB ∧ (coreOf v k).rgn.outA ≠ none ∧ (coreOf v k).rgn.outB ≠ none) →
    let row (k : Nat) : Row := outcomeRow (coreOf v k).rgn.outA (coreOf v k).rgn.outB
    ∃ u, exec (.rerunOutcome n) s = .next (focus s.core.id u) ∧ u.spad = v.spad ∧ u.home = v.home ∧
      ∃ k ∈ gangCores v, (∀ j ∈ gangCores v, rowRank (row k) ≤ rowRank (row j)) ∧
        ∀ j ∈ gangCores v, (coreOf u j).rgn.st = match row k with
          | .poison => .unwinding (if row j = .poison then thenPoison else 8)
          | .retire => .unwinding (if row j = .retire then thenRetire else thenAgain)
          | .roll c => .unwinding c
          | .commit => .draining
          | .none => .unwinding 8) ∧
  ∀ (s : State) (n : Nat), let v := focus n s
    gangCores v = [v.core.id] →
    (∀ c : Fin 16, 1 ≤ c.val → c.val ≤ 8 →
      (v.core.rgn.st = .opened → regionTo (.rollback n c) s v (.unwinding c.val)) ∧
      (v.core.rgn.st = .closed → exec (.rollback n c) s = .next (focus s.core.id v))) ∧
    (2048 ≤ v.core.rgn.steps → v.core.rgn.st = .opened → regionTo (.regionStepLimit n) s v (.unwinding 6)) ∧
    (v.core.rgn.steps < 2048 ∨ v.core.rgn.st = .closed → exec (.regionStepLimit n) s = .next (focus s.core.id v)) ∧
    -- the drain of a commit
    (v.core.rgn.st = .draining → (∀ t, curTask v = some t → t.stepping = false) → hClass (headerOf v.core.bundle) ≠ 1 →
      Mem.wf v.spad = true → (∀ h ∈ v.core.rgn.held, ∃ b g tok, h = .store b g tok ∧ ∀ z ∈ b, ∃ a, z.1 = .spad a) →
      ∃ u, exec (.commitDrainComplete n) s = .next (focus s.core.id u) ∧ u.core.rgn.st = .closed ∧ u.core.rgn.held = [] ∧
        u.core.rgn.shadow = none ∧ (∀ g, u.core.rgn.guards.get g = none) ∧ (∀ f ∈ u.core.flights, f.rgn = false) ∧
        (∀ p ∈ u.core.pend, p.rgn = false ∧ p.kind ≠ .held) ∧ u.core.a.s = v.core.a.s ∧ u.core.a.v = v.core.a.v ∧
        u.core.pc = v.core.pc ∧ calm v u ∧ (∀ c ∈ u.cmds, c.core = some v.core.id → c.held = false) ∧
        ∀ a, Mem.get u.spad a = (lastStore (v.core.rgn.held.flatMap storesOf) (.spad a)).getD (Mem.get v.spad a)) ∧
    -- a detected error
    (∀ site slot,
      (v.core.rgn.st = .opened → ∃ u, exec (.uncorrectableError n site slot) s = .next (focus s.core.id u) ∧
        u.core.rgn.st = .unwinding thenRerunA ∧ u.core.rgn.errSlot = slot.val ∧
        u.core.rgn.errPc = ((v.core.errs.find? fun e =>
          e.rgn && e.cause == 0x0B && site == some e.ea && e.slot.val == slot.val).map (·.pc)).getD v.core.pc ∧
        u.core.rgn.outA = none ∧ u.core.rgn.outB = none ∧ u.core.rgn.shadow = v.core.rgn.shadow ∧ sameMem v u) ∧
      (v.core.rgn.st = .closed → exec (.uncorrectableError n site slot) s = .next (focus s.core.id v)) ∧
      (v.core.rgn.st = .rerunA → v.core.rgn.outA = none → ∃ u, exec (.uncorrectableError n site slot) s = .next (focus s.core.id u) ∧
        u.core.rgn.outA = some (.error v.core.rgn.steps site) ∧ u.core.a = v.core.a ∧ sameMem v u) ∧
      (v.core.rgn.st = .rerunB → v.core.rgn.outB = none → ∃ u, exec (.uncorrectableError n site slot) s = .next (focus s.core.id u) ∧
        u.core.rgn.outB = some (.error v.core.rgn.steps site) ∧ u.core.a = v.core.a ∧ sameMem v u)) ∧
    -- the undoing ends: a rerun, or another member's retirement, goes on at the CKPT bundle with the shadowed state
    (∀ c a, v.core.rgn.st = .unwinding c → v.core.rgn.shadow = some a → v.core.landDue = false →
      (v.core.pend.any fun p => p.rgn) = false →
      (c = thenRerunA ∨ c = thenRerunB → ∃ u, exec (.rollbackComplete n) s = .next (focus s.core.id u) ∧ u.core.a = a ∧
        u.core.pc = v.core.rgn.ckpt ∧ u.core.rgn.st = (if c = thenRerunA then .rerunA else .rerunB) ∧
        u.core.rgn.shadow = some a ∧ u.core.rgn.steps = 0 ∧ sameMem v u) ∧
      (c = thenPoison → ∃ u, exec (.rollbackComplete n) s = .next (focus s.core.id u) ∧ u.core.a = a ∧ u.core.rgn.st = .closed ∧
        u.core.sp.rbcause = 8 ∧ u.core.sp.cause = 0x0B ∧ u.core.sp.fpc = v.core.rgn.errPc ∧
        u.core.pc = BitVec.ofInt 64 v.core.rgn.recovery ∧ sameMem v u) ∧
      (c = thenAgain → ∃ u, exec (.rollbackComplete n) s = .next (focus s.core.id u) ∧ u.core.a = a ∧ u.core.rgn.st = .closed ∧
        u.core.pc = v.core.rgn.ckpt ∧ u.core.sp.rbcause = v.core.sp.rbcause ∧ sameMem v u)) ∧
    -- the outcomes of the reruns
    (∀ x, v.core.rgn.st = .rerunA → v.core.rgn.outA = some x → regionTo (.rerunOutcome n) s v (.unwinding thenRerunB)) ∧
    (∀ x y, v.core.rgn.st = .rerunB → v.core.rgn.outA = some x → v.core.rgn.outB = some y →
      let goes := regionTo (.rerunOutcome n) s v
      (∀ k sg l, x = .ended true 0 k sg l → y = x → goes .draining) ∧
      (∀ c k sg l, x = .ended false c k sg l → y = x → goes (.unwinding c)) ∧
      (∀ k a, x = .error k (some a) → y = x → goes (.unwinding thenPoison)) ∧
      (∀ e c k sg l e' c' k' sg' l', x = .ended e c k sg l → y = .ended e' c' k' sg' l' →
        (l ≠ l' → goes (.unwinding 8)) ∧
        (l = l' → (e, c, k, sg) ≠ (e', c', k', sg') → goes (.unwinding thenRetire))) ∧
      (∀ k a k' a', x = .error k a → y = .error k' a' → (k ≠ k' ∨ a ≠ a' ∨ a = none) → goes (.unwinding thenRetire)) ∧
      (∀ k a e c m sg l, (x = .error k a ∧ y = .ended e c m sg l ∨ x = .ended e c m sg l ∧ y = .error k a) →
        goes (.unwinding thenRetire)))

/-! ## Slices and engines -/

/-- R194 to R196: while its slice's step has not ended, an ordered atomic that arrives is buffered when the slice admits
it, else refused; a refused one is sent again once the slice has made progress, behind the earlier ones of its source.
At the end of a step the slice applies, of the atomics next in their flow and issued before, the first by step and
source, and moves that flow's number on. -/
def Obligations.OrderedAtomicResults : Prop :=
  ∀ (s : State) (k n : Nat), let x := sliceGet s k
    let now := stepOf s (sliceDie k)
    (∀ q, now ≤ x.ended → (s.ordSent.filter fun y => y.slice == k)[n]? = some q →
      ∃ t, exec (.orderedAtomicArrival k n) s = .next t ∧ t.core = s.core ∧ sameMem s t ∧
        t.ordSent = s.ordSent.filter (fun y => y != q) ∧
        (admits x q.req = true → (sliceGet t k).buf = x.buf ++ [q.req] ∧
          (sliceGet t k).refused = x.refused.filter (fun y => y != q.req)) ∧
        (admits x q.req = false → (sliceGet t k).refused = x.refused ++ [q.req] ∧
          (sliceGet t k).tried = x.tried ++ [q.req] ∧ (sliceGet t k).buf = x.buf)) ∧
    (∀ r, now ≤ x.ended → x.refused[n]? = some r →
      (r ∈ x.tried ∨ (∃ y ∈ x.refused.take n, y.core = r.core ∧ y ∉ x.tried) → exec (.orderedAtomicRetry k n) s = .next s) ∧
      (r ∉ x.tried → (∀ y ∈ x.refused.take n, y.core = r.core → y ∈ x.tried) →
        ∃ t, exec (.orderedAtomicRetry k n) s = .next t ∧ t.core = s.core ∧ sameMem s t ∧
          (admits x r = true → (sliceGet t k).buf = x.buf ++ [r] ∧
            (sliceGet t k).refused = x.refused.filter (fun y => y != r)) ∧
          (admits x r = false → (sliceGet t k).refused = x.refused ∧ (sliceGet t k).tried = x.tried ++ [r] ∧
            (sliceGet t k).buf = x.buf))) ∧
    (now ≤ x.ended → exec (.orderedAtomicApply k) s = .next s) ∧
    (x.ended < now → pickOrd s x (now - 1) = none → ∃ t, exec (.orderedAtomicApply k) s = .next t ∧
      (sliceGet t k) = { x with ended := now } ∧ t.core = s.core ∧ sameMem s t) ∧
    (∀ (r : OrdReq) (m : Nat), isNext x r = true → r.step.toNat + 1 ≤ m → ordWaits s r = false →
      (x.buf = [r] → pickOrd s x m = some r) ∧
      (∀ q, x.buf = [r, q] → isNext x q = true → q.step.toNat + 1 ≤ m → ordWaits s q = false →
        (ordBefore q r = false → pickOrd s x m = some r) ∧ (ordBefore q r = true → pickOrd s x m = some q))) ∧
    (∀ r p op z d a b sc loc, x.buf = [r] → isNext x r = true → x.ended < now → r.step.toNat + 1 ≤ now - 1 →
      r.far = none → ordWaits s r = false →
      let c := coreOf s r.core
      let key := lineKey loc
      c.pend.find? (fun p => p.seq == r.pseq) = some p → p.kind = .ordAtomic op z d a b sc loc none →
      (∀ q ∈ c.pend, q.seq ≠ p.seq → atomKey q ≠ some key ∧ waitsFor key q = false) →
      (∀ y ∈ c.young, lineKey y.2.1 ≠ key) → hasRoom c 0 →
      sc ≠ .core → sc ≠ .cluster → loc % aszBytes z = 0 → lineFind c key = none → homeErr s key = none → Mem.wf s.home = true →
      ∃ t, exec (.orderedAtomicApply k) s = .next t ∧ (sliceGet t k).buf = [] ∧
        nextOf (sliceGet t k) r.core = r.num + 1 ∧ (sliceGet t k).ended = now ∧
        ∃ old : Word,
          (∀ i, i < aszBytes z → old.extractLsb' (8 * i) 8 = lineByte (homeRead s key) ((loc + i) % 64)) ∧
          (∀ i, i < aszBytes z → Mem.get t.home (loc + i) = (atomNew op z old a b).extractLsb' (8 * i) 8) ∧
          ∃ p', (coreOf t r.core).pend.find? (fun p => p.seq == r.pseq) = some p' ∧
            p'.kind = .ordAtomic op z d a b sc loc (some old))

/-- R16, R144, R199, R335 to R339, R357, R361, R371, R372: a command that nothing holds starts; a GNODE's start adds its
node to the launch; a command of a task that has ended fails instead in every item (the model's choice, log entries 21
and 48).
R342, R357, R360, R362, R365, R367: items of CPY, of a CPYR that exchanges the roles of its axes, of GATH, SCAT and
MCAST move the bytes their formulas name and no others, and count; a CPYR's arrival release. -/
def Obligations.EngineCommandResults : Prop :=
  ∀ (s : State) (id : Nat) (c : EngCmd), cmdFind s id = some c →
    (c.started = true → exec (.engineCommandStart id) s = .next s) ∧
    (c.started = false → cmdOrphan s c = true → c.node = none → cwAbsent c = none → flagCheck c ≠ some 0x06 →
      ∃ t c', exec (.engineCommandStart id) s = .next t ∧ cmdFind t id = some c' ∧ c'.started = true ∧
        c'.items = (failList c).length ∧ (∀ i ∈ failList c, i ∈ c'.doneItems) ∧
        c'.failCause = some (c.failCause.getD (orphanCause s c)) ∧ t.core.a = s.core.a) ∧
    (c.started = false → cmdOrphan s c = false →
      c.held = true ∨ cmdStopped s c = true ∨ cmdParked s c = true ∨ cmdFenced s c = true ∨ cmdFirst s c = false ∨
        placeFree s c = false → exec (.engineCommandStart id) s = .next s) ∧
    (c.started = false → cmdOrphan s c = false → c.held = false → cmdStopped s c = false → cmdParked s c = false →
      cmdFenced s c = false → cmdFirst s c = true → placeFree s c = true →
      (c.kind ≠ .gnode → c.node = none → flagCheck c = none → ∃ t, exec (.engineCommandStart id) s = .next t ∧
        cmdFind t id = some { c with started := true, kexp := some (c.kexp.getD (startExp s c)) } ∧
        t.core.a = s.core.a ∧ t.home = s.home ∧ t.spad = s.spad ∧ t.l2 = s.l2) ∧
      (∀ tk lx tn, c.kind = .gnode → c.node = none → c.task.bind (taskFind s) = some tk → launchFind s tk.launch = some lx →
        taskNode s tk = some tn → openGnodes lx < 256 → ∃ t lx' n, exec (.engineCommandStart id) s = .next t ∧
          launchFind t tk.launch = some lx' ∧ lx'.total = lx.total + 1 ∧ lx'.nodes.take lx.nodes.length = lx.nodes ∧
          lx'.nodes[lx.nodes.length]? = some n ∧ n.gnode = some id ∧ n.kind = nKind c.desc ∧ n.acq = taskSig s tk ∧
          n.st ≠ .blocked ∧ t.core.a = s.core.a ∧ t.spad = s.spad)) ∧
    -- items within a core's own scratchpad
    (∀ k, ownMove s id k c → let d := c.desc
      (∀ n, c.kind = .cpy → c.doneItems = [] → dSty d = 0 → dTt d = 0 → cExt d 0 = n → cExt d 1 = 1 → cExt d 2 = 1 →
        cExt d 3 = 1 → cSrc d + n ≤ 0x80000 → cDst d + n ≤ 0x80000 → (cSrc d + n ≤ cDst d ∨ cDst d + n ≤ cSrc d) →
        ∃ t, itemDone s id 0 n c t ∧ t.home = s.home ∧ spadCopied s t k (cDst d) (cSrc d) n) ∧
      (∀ n m : Nat, c.kind = .cpyr → c.doneItems = [] → dSty d = 0 → dTt d = 0 → xTr d = true → xPlist d = 0 → cExt d 0 = n →
        cExt d 1 = 1 → cExt d 2 = 1 → cExt d 3 = 1 → cDS d 1 = (m : Int) → 0 < m → cSrc d + n ≤ 0x80000 →
        cDst d + n * m ≤ 0x80000 → (cSrc d + n ≤ cDst d ∨ cDst d + n * m ≤ cSrc d) → ∃ t, itemDone s id 0 n c t ∧
          (∀ i, i < n → Mem.get t.spad (spadAddr k (cDst d + i * m)) = Mem.get s.spad (spadAddr k (cSrc d + i))) ∧
          (∀ a, (∀ i, i < n → a ≠ spadAddr k (cDst d + i * m)) → Mem.get t.spad a = Mem.get s.spad a) ∧
          (xAflag d = 0 → t.home = s.home) ∧
          (∀ e, xAflag d ≠ 0 → checkGlob c.ktt (xAflag d : Int) 128 128 .wr = .ok e → let o := kttKey e (xAflag d)
            o % 128 = 0 → calmKey s (lineKey o) → calmKey s (lineKey (o + 64)) → Mem.wf s.home = true →
            objAt t o = releaseNew false (xAval d) 0 (objAt s o))) ∧
      (∀ g, c.kind = .gath ∨ c.kind = .scat → g < dW d 24 % 2 ^ 32 → g ∉ c.doneItems → scatWaits s c g = false →
        let z := 2 ^ dW d 32
        let at_ := dW d 16 + 4 * g
        let b := dW d 0 + natOfBytes ((List.range 4).map fun i => Mem.get s.spad (spadAddr k (at_ + i))) * z
        let l := dW d 8 + g * z
        at_ % 4 = 0 → at_ + 4 ≤ 0x80000 → b % z = 0 → b + z ≤ 0x80000 → l % z = 0 → l + z ≤ 0x80000 →
        ∃ t, itemDone s id g z c t ∧ t.home = s.home ∧
          (c.kind = .gath → spadCopied s t k l b z) ∧ (c.kind = .scat → spadCopied s t k b l z))) ∧
    -- an item of an MCAST: every item delivers the bytes that the first has read, and updates its core's barrier word
    (∀ i b, let d := c.desc
      let k := c.cluster * 64 + i
      let p := spadAddr k (dW d 8)
      let w := spadAddr k (8 * dRbar d)
      c.kind = .mcast → c.started = true → c.failing = [] → c.node = none → dEcw d = 0 → i < 48 → (dW d 24).testBit i = true →
      i ∉ c.doneItems → coreExists s k = true → (coreOf s k).maps = [] → dW d 8 + b.length ≤ 0x80000 → 8 * dRbar d + 8 ≤ 0x80000 →
      (w + 8 ≤ p ∨ p + b.length ≤ w) → hasRoom s.core 0 → Mem.wf s.spad = true →
      (64 < d.length ∧ b = d.drop 64) ∨ (d.length = 64 ∧ dW d 16 = 64 ∧ c.cluster < 32 ∧ s.l2 = [] ∧ s.dir = [] ∧ s.dieRegions = [] ∧
        ∃ e, checkGlob c.ktt (dW d 0 : Int) 64 64 .rd = .ok e ∧ let a := kttKey e (dW d 0)
          a % 64 = 0 ∧ leased (lineKey a) = false ∧ s.poison.contains (lineKey a) = false ∧ b = homeBytesGet s a 64) →
      ∃ t, itemDone s id i b.length c t ∧ t.home = s.home ∧
        (∃ c', cmdFind t id = some c' ∧ c'.desc = d.take 64 ++ b) ∧
        (∀ j, j < b.length → Mem.get t.spad (p + j) = b.getD j 0) ∧
        ofBytes 64 (Mem.getBytes t.spad w 8) = cwItem false none (ofBytes 64 (Mem.getBytes s.spad w 8)) ∧
        ∀ a, ¬ (p ≤ a ∧ a < p + b.length) → ¬ (w ≤ a ∧ a < w + 8) → Mem.get t.spad a = Mem.get s.spad a) ∧
    -- an item that has failed reports it, and a CPYR's arrival release is made with all ones
    (∀ e en, c.kind = .cpyr → c.started = true → c.failing = [(0, e)] → c.doneItems = [] → c.node = none → dEcw c.desc = 0 →
      bulkSpace (dDspc c.desc) = false → xAflag c.desc ≠ 0 → checkGlob c.ktt (xAflag c.desc : Int) 128 128 .wr = .ok en →
      let o := kttKey en (xAflag c.desc)
      o % 128 = 0 → calmKey s (lineKey o) → calmKey s (lineKey (o + 64)) → Mem.wf s.home = true →
      ∃ t c', exec (.engineItemComplete id 0) s = .next t ∧ cmdFind t id = some c' ∧ c'.doneItems = [0] ∧
        c'.failCause = some (c.failCause.getD e) ∧ objAt t o = releaseNew false (BitVec.allOnes 64) 0 (objAt s o)) ∧
    (∀ item, c.started = false ∨ isItem c.kind c.desc item = false ∨ item ∈ c.doneItems ∨ scatWaits s c item = true →
      exec (.engineItemComplete id item) s = .next s)

/-- R348 to R351, R354, R368 to R370: a scan's item, when its turn has come, writes what the scan gives and counts, and
writes no byte of its core's scratchpad outside its two results; its sequence is cut into chunks, and each value of the
recurrent and of the chunked form is rounded as R350 writes it. A collective of one participant gives it what it sent;
all-gather puts each rank's elements in rank order, all-reduce and reduce-scatter join them by the tree of R151 in rank
order. -/
def Obligations.ScanAndCollectiveResults : Prop :=
  (∀ (s : State) (id : Nat) (c : EngCmd), cmdFind s id = some c → c.kind = .sscan → c.started = true → c.doneItems = [] → c.failing = [] →
    scanTurn s c = true → sScw c.desc = 0 → itemRefused s c = false → c.node = none →
    let j := scanJob c (Job.on s)
    let d := c.desc
    j.waits = none → j.held = none → ∃ t, exec (.sscanComplete id) s = .next t ∧ t.spad = j.s.spad ∧ t.home = j.s.home ∧
      t.l2 = j.s.l2 ∧
      (∀ c0, cmdFind j.s id = some c0 → c0.node = none → ∃ c', cmdFind t id = some c' ∧ c'.doneItems = 0 :: c0.doneItems ∧
        c'.flags = c0.flags ∧ c'.bytes = c0.bytes + j.bytes ∧ c'.failCause = c0.failCause.or j.fails) ∧
      ∀ k, c.core = some k → sGv d = false → (coreOf s k).maps = [] → Mem.wf s.spad = true → t.home = s.home ∧
        ∀ a, ¬ (spadAddr k (sOff d 5) ≤ a ∧ a < spadAddr k (sOff d 5) + 4 * (sN d * sP d)) →
          ¬ (spadAddr k (sOff d 6) ≤ a ∧ a < spadAddr k (sOff d 6) + (if sYf d = true then 4 else 2) * (sL d * sP d)) →
          Mem.get t.spad a = Mem.get s.spad a) ∧
  -- the recurrent form, step by step
  (∀ (n p : Nat) (d : Option (List FVal)) (h : Mat) (st : SStep), let r := chunkRec n p d h [st]
    (∀ i j, i < n → j < p → ∃ x y, mulIs st.a (f32v (matAt h i j)) x ∧ mulIs (vecAt st.b i) (vecAt st.x j) y ∧
      rneSum x y (matAt r.1 i j)) ∧
    ∀ j, j < p → ∃ u, runIs 0 ((List.range n).map fun i => (f32v (matAt r.1 i j), vecAt st.c i)) u ∧
      skipIs d u j st (matAt r.2.1 0 j)) ∧
  (∀ (n p : Nat) (d : Option (List FVal)) (h : Mat) (a b : List SStep),
    let r := chunkRec n p d h a
    let t := chunkRec n p d r.1 b
    chunkRec n p d h (a ++ b) = (t.1, r.2.1 ++ t.2.1, r.2.2 ||| t.2.2)) ∧
  -- the chunked form: the decay table, the y rows, the state
  (∀ (n p : Nat) (d : Option (List FVal)) (h : Mat) (sts : List SStep), let r := chunkPar n p d h sts
    let l := sts.length
    ∃ A : Nat → Nat → Nat, (∀ t, t ≤ l → A t t = 0x3F800000) ∧
      (∀ m t st, m ≤ t → sts[t]? = some st → rneMul (f32v (A t m)) st.a (A (t + 1) m)) ∧
      (∀ t st j, sts[t]? = some st → j < p → ∃ (u : Nat → Nat) (w z v : Nat), u 0 = 0 ∧
        (∀ m q, m ≤ t → sts[m]? = some q → ∃ g y, runIs 0 ((List.range n).map fun i => (vecAt st.c i, vecAt q.b i)) g ∧
          rneMul (f32v (A (t + 1) (m + 1))) (f32v g) y ∧ runIs (u m) [(f32v y, vecAt q.x j)] (u (m + 1))) ∧
        runIs 0 ((List.range n).map fun i => (vecAt st.c i, f32v (matAt h i j))) w ∧ rneMul (f32v (A (t + 1) 0)) (f32v w) z ∧
        rneSum (f32v (u (t + 1))) (f32v z) v ∧ skipIs d v j st (matAt r.2.1 t j)) ∧
      ∀ i j, i < n → j < p → ∃ v : Nat → Nat, rneMul (f32v (A l 0)) (f32v (matAt h i j)) (v 0) ∧ matAt r.1 i j = v l ∧
        ∀ m q, sts[m]? = some q → ∃ x y, mulIs (f32v (A l (m + 1))) (vecAt q.b i) x ∧ mulIs x (vecAt q.x j) y ∧
          rneSum (f32v (v m)) y (v (m + 1))) ∧
  -- the cut into chunks, and the form of each
  (∀ (n p frc thr q : Nat) (d : Option (List FVal)) (h : Mat) (sts : List SStep), 0 < q →
    let scan (h : Mat) (l : List SStep) := scanChunks n p frc thr q d l.length h l
    (sts = [] → scan h sts = (h, [], 0)) ∧
    (sts ≠ [] → let c := sts.take q
      let r := if frc = 1 ∨ (frc = 0 ∧ 2 ^ thr ≤ c.length) then chunkPar n p d h c else chunkRec n p d h c
      let t := scan r.1 (sts.drop q)
      scan h sts = (t.1, r.2.1 ++ t.2.1, r.2.2 ||| t.2.2))) ∧
  -- collectives
  (∀ (d : List Byte) (sends : List (List Nat)) (rank e : Nat), sends ≠ [] → sends.length ≤ 1024 → e < collCount d → collKind d ≠ 1 →
    let col := if collKind d = 0 then e else rank * collCount d + e
    let F := if collType d = 8 then f32F else bf16F
    ∃ x, treeIs (collOpIs d) (fun r => (sends[r]?).map fun l => l.getD col 0) 10 (some x) ∧
      (collRecv d sends rank)[e]? = some (if collType d ≠ 2 ∧ (decodeF F x).isNan = true then nanBits F else x)) ∧
  (∀ (d : List Byte) (sends : List (List Nat)) (rank : Nat), collKind d = 1 → (∀ l ∈ sends, l.length = collCount d) →
    ∀ r e, e < collCount d → (collRecv d sends rank)[r * collCount d + e]? = (sends[r]?).bind (fun l => l[e]?)) ∧
  (∀ (s : State) (id : Nat) (c : EngCmd) (es ed : KEntry), cmdFind s id = some c →
    c.kind = .coll → c.started = true → c.doneItems = [] → c.failing = [] → s.oldColls = [] → c.node = none → c.cluster < 32 →
    dEcw c.desc = 0 → collKind c.desc = 1 →
    collType c.desc = 2 → collCount c.desc = 1 → collArray s c = .ok [collId s c] → (∀ x ∈ s.cmds, x.kind = .coll → x.id = id) →
    checkGlob c.ktt (dW c.desc 0 : Nat) 4 4 .rd = .ok es → checkGlob c.ktt (dW c.desc 8 : Nat) 4 4 .wr = .ok ed →
    kttKey es (dW c.desc 0) % 4 = 0 → kttKey ed (dW c.desc 8) % 4 = 0 →
    reach s (c.cluster / 8) (lineKey (kttKey es (dW c.desc 0))) = true →
    reach s (c.cluster / 8) (lineKey (kttKey ed (dW c.desc 8))) = true →
    homeErr s (lineKey (kttKey es (dW c.desc 0))) = none → s.l2 = [] → s.dir = [] → Mem.wf s.home = true →
    ∃ t c', exec (.collComplete ⟨id, []⟩) s = .next t ∧ cmdFind t id = some c' ∧ c'.doneItems = [0] ∧
      c'.bytes = c.bytes + 4 ∧ t.spad = s.spad ∧
      ∀ a, Mem.get t.home a = if kttKey ed (dW c.desc 8) ≤ a ∧ a < kttKey ed (dW c.desc 8) + 4 then
        Mem.get s.home (kttKey es (dW c.desc 0) + (a - kttKey ed (dW c.desc 8))) else Mem.get s.home a)

/-! ## Launches, graphs and tasks -/

/-- R20 to R23, R36, R37, R48: the dispatcher takes a fired line, accepts its launch, refuses it, or records a wrong number;
a node that completes counts in its launch and readies its successors; a node that fails carries its cause; a wait node
completes when what it watches is there. The last node to end retires its launch. -/
def Obligations.LaunchAndGraphResults : Prop :=
  (∀ (s : State) (die : Fin 4),
    let d := dieGet s die.val
    (nextQueue d = none → exec (.launchDispatch die) s = .next s) ∧
    (∀ q, nextQueue d = some q →
      let x := d.queues.get (Fin.ofNat 64 q)
      let b := Mem.getBytes d.window (lineAt q x.head) 64
      let y (t : State) : LQueue := (dieGet t die.val).queues.get (Fin.ofNat 64 q)
      (vseqOf d q % 128 ≠ x.expected → ∃ t r, exec (.launchDispatch die) s = .next t ∧ t.launches = s.launches ∧
        (y t).head = x.head ∧ (y t).expected = x.expected ∧ (dieGet t die.val).gecko.head? = some r ∧ r.cause = 0x80 ∧
        r.src = dispSrc die.val ∧ r.pc = BitVec.ofNat 64 q ∧ r.val = BitVec.ofNat 64 x.head ∧ t.home = s.home) ∧
      (vseqOf d q % 128 = x.expected →
        ∃ dies t, let s1 : State := { s with dies := dies }
          exec (.launchDispatch die) s = .next t ∧
          (y t).head = (x.head + 1) % 64 ∧ (y t).expected = (x.expected + 1) % 128 ∧
          (∀ l, readLaunch s1 die.val b = some l → ∃ l', t.launches[s.launches.length]? = some l' ∧ l'.id = s.launchNext ∧
            l'.total = l.total ∧ l'.cw = l.cw ∧ t.launchNext = s.launchNext + 1 ∧ (l.total = 0 → l'.retired = true)) ∧
          (readLaunch s1 die.val b = none → t.launches = s.launches ∧
            (cwBad b = false → Mem.wf s.home = true → ∃ w, homeWord t (dW b 0x10) = w ∧ cwStatus w = 0x8011 ∧
              (cwFailed w).toNat = min ((cwFailed (homeWord s (dW b 0x10))).toNat + 1) 0xFFFF ∧
              cwDone w = cwDone (homeWord s (dW b 0x10))) ∧
            (cwBad b = true → ∃ r, (dieGet t die.val).gecko.head? = some r ∧ r.cause = 0x87 ∧ r.src = dispSrc die.val ∧
              r.pc = BitVec.ofNat 64 q ∧ r.val = BitVec.ofNat 64 x.head ∧ t.home = s.home))))) ∧
  (∀ (s : State) (l i : Nat) (lx : Launch) (n : Node), launchFind s l = some lx → lx.nodes[i]? = some n → nodeOver n = false →
    let completes (e : Instr) : Prop := ∃ t lx' n', exec e s = .next t ∧ launchFind t l = some lx' ∧
      lx'.nodes[i]? = some n' ∧ n'.st = .complete ∧ lx'.done = lx.done + 1 ∧ lx'.fails = lx.fails ∧
      (lx.done + 1 + lx.fails = lx.total → lx'.retired = true) ∧
      (∀ j m, n.succ = [j] → j ≠ i → lx.nodes[j]? = some m → m.st = .blocked → m.work = 1 →
        ∃ m', lx'.nodes[j]? = some m' ∧ m'.st ≠ .blocked ∧ m'.work = 0 ∧ m'.acq = m.acq ||| n.acq ||| n.sig)
    let fails (e : Instr) (c : Byte) : Prop := ∃ t lx' n', exec e s = .next t ∧ launchFind t l = some lx' ∧
      lx'.nodes[i]? = some n' ∧ n'.st = .failed ∧ n'.status = c ∧ (n.succ = [] → lx'.fails = lx.fails + 1 ∧ lx'.done = lx.done)
    let unlimited : Prop := n.bytes = 0 ∨ ∀ q ∈ lx.rcbs, q.steps = none ∧ q.bytes = none
    (nodeDone s l i n = true → unlimited → completes (.nodeComplete l i)) ∧
    (nodeDone s l i n = false → exec (.nodeComplete l i) s = .next s) ∧
    (∀ c, n.faulted = some c → nodeQuiet s l i n = true → unlimited → fails (.nodeFail l i c) c) ∧
    (∀ c, n.faulted ≠ some c ∨ nodeQuiet s l i n = false → exec (.nodeFail l i c) s = .next s) ∧
    (n.st = .ready → n.heldReady = false → (n.kind = 5 ∨ n.kind = 6) →
      let w := waitSees s (kttLoad s (nodeKtt lx n)) n
      (w = .yes → completes (.waitNodeSatisfied l i)) ∧ (∀ c, w = .fails c → fails (.waitNodeSatisfied l i) c) ∧
      (w = .absent → ∃ m, exec (.waitNodeSatisfied l i) s = .next { s with migrs := m }) ∧
      (w = .no → exec (.waitNodeSatisfied l i) s = .next s)))

/-- R38 to R40, R408 to R421, R426, R439: a free core binds its first candidate and starts the task of a range as R40 says;
a save takes the task off its core with its registers and what it has in flight; a restore gives them back; a command that
ends meanwhile is joined later; a task whose wait holds is Ready; a pre-emption, or a core past its claim by 1,024 steps,
asks the task to leave. -/
def Obligations.TaskEventResults : Prop :=
  (∀ (s : State) (k : Nat),
    ((coreOf s k).promise = none → coreFree s k = false ∨ candOfFree s k = none → exec (.taskBind k) s = .next s) ∧
    (∀ c l n, coreFree s k = true → candOfFree s k = some (c, [k]) → c.members = [] → c.size = 1 →
      launchFind s c.launch = some l → l.nodes[c.node]? = some n →
      (imageRefused s n = true → ∃ t lx n', exec (.taskBind k) s = .next t ∧ t.tasks = s.tasks ∧
        launchFind t l.id = some lx ∧ lx.nodes[c.node]? = some n' ∧ n'.faulted = some 0x11) ∧
      (imageRefused s n = false → ∃ t, exec (.taskBind k) s = .next t ∧ t.taskNext = s.taskNext + 1 ∧
        let u := coreOf t k
        u.task = some s.taskNext ∧ u.pc = n.k.get 0 ∧ u.sp.tile = tileOf n c.j ∧
        getS u.a 1 = (if n.k.get 3 = 0 then l.args else n.k.get 3) ∧
        getS u.a 2 = BitVec.ofNat 64 (nodeVirt u.ktt n) ∧ (∀ i, u.a.lc.get i = 0) ∧ u.a.vrb = 0 ∧ u.a.prb = 0 ∧
        u.a.fflags = 0 ∧ (∀ q, (u.a.streams.get q).bound = false) ∧ u.sp.wsig = n.acq ∧ u.sp.done = 0 ∧ u.maps = [] ∧
        u.flights = [] ∧ u.pend = [] ∧ u.rgn.st = .closed ∧ u.claim = 65536 ∧
        (nodeKtt l n < 2 ^ 56 → nodeKtt l n % 4096 = 0 → kttBase u.kttReg = nodeKtt l n)))) ∧
  (∀ (s : State) (n : Nat) (why : SaveWhy) (t : Task), let v := focus n s
    curTask v = some t → t.stopReq = some why → canSave v = true → t.saved = none →
    (why = .yield → gangLevel v t = true) → ∃ u t', exec (.taskSave n why) s = .next (focus s.core.id u) ∧
      u.core.task = none ∧ u.core.flights = [] ∧ u.core.pend = [] ∧ u.core.maps = [] ∧
      taskFind u t.id = some t' ∧ t'.core = none ∧ (why = .budget ∨ t.cancel ≠ none → t'.st = .ended ∧ t'.saved = none) ∧
      ((∀ c ∈ s.cmds, c.task = some t.id → cmdDone c = false) → why ≠ .budget → t.cancel = none →
        (t.domStop = true → t'.st = .stopped) ∧
        (t.domStop = false → why ≠ .page → t'.st = saveState why) ∧ ∃ sv, t'.saved = some sv ∧ sv.a = v.core.a ∧
        sv.sp = v.core.sp ∧ sv.flights = v.core.flights ∧ sv.pend = v.core.pend ∧ sv.errs = v.core.errs ∧
        sv.maps = v.core.maps ∧ sv.vol = voluntary why ∧ sv.core = v.core.id)) ∧
  (∀ (s : State) (n : Nat) (t : Task) (sv : Saved), let v := focus n s
    taskFind v t.id = some t → t.saved = some sv → v.core.task = some t.id → t.core = some n → sv.joins = [] →
    (∀ c ∈ s.cmds, c.task = some t.id → cmdDone c = false) →
    ∃ u, exec (.taskRestore n t.id) s = .next (focus s.core.id u) ∧
      u.core.a = { sv.a with y := u.core.a.y, streams := u.core.a.streams } ∧ (sv.vol = false → u.core.a.y = sv.a.y) ∧
      (∀ q, u.core.a.streams.get q = refetch (sv.a.streams.get q)) ∧ u.core.flights = sv.flights ∧
      u.core.pend = sv.pend ∧ u.core.errs = sv.errs ∧ u.core.maps = sv.maps ∧ u.core.sp = { sv.sp with done := u.core.sp.done } ∧
      u.core.rgn.st = .closed ∧
      (∀ k, t.slot = some k → u.core.pc = homeWord v (slotAddr v (taskDom v t).1 k)) ∧
      ∃ t', taskFind u t.id = some t' ∧ t'.saved = none) ∧
  (∀ (s : State) (id : Nat) (c : EngCmd) (t : Task) (v : Saved), cmdFind s id = some c → c.task.bind (taskFind s) = some t →
    t.saved = some v → t.core = none → t.st ≠ .ended → cmdDone c = true → (v.pend.any fun p => p.kind == .engine id) = true →
    (∀ lx, launchFind s t.launch = some lx → ∀ q ∈ lx.rcbs, q.steps = none ∧ q.bytes = none) →
    ∃ u t' v', exec (.savedCommandComplete id) s = .next u ∧ cmdFind u id = none ∧ taskFind u t.id = some t' ∧
      t'.saved = some v' ∧ v'.pend = v.pend.filter (fun p => p.kind != .engine id) ∧ v'.joins = v.joins ++ [(c.sig, c.flags)] ∧
      v'.a = v.a ∧ u.core.a = s.core.a) ∧
  (∀ (s : State) (t : Task) (w : WaitOn), taskFind s t.id = some t → t.st = .waiting → t.wait = some w →
    ((∀ x ∈ s.tasks, x.gang = t.gang → x.st = .waiting → ∀ w, x.wait = some w → waitSeen s x w = true) →
      ∃ u t', exec (.waitingTaskReady t.id) s = .next u ∧ taskFind u t.id = some t' ∧ t'.st = .ready ∧
        t'.readyTick = s.tick ∧ u.core.a = s.core.a) ∧
    (waitSeen s t w = false → exec (.waitingTaskReady t.id) s = .next s)) ∧
  (∀ (s : State) (x k : Nat) (c : Cand) (l : Launch) (n : Node) (t : Task),
    (if s.taskNext ≤ x then (fresh15 s)[x - s.taskNext]?
      else (savedCands s).find? fun c => c.rank == 15 && c.members.contains x) = some c →
    launchFind s c.launch = some l → l.nodes[c.node]? = some n → preemptCores s l c = some [k] →
    roomFor s l n.rcb c.size (occupants s [k]) = true →
    (c.members ≠ [] ∨ (dieGet s l.die.val).slots.length + c.size ≤ slotCount s l.die.val) →
    (coreOf s k).task.bind (taskFind s) = some t → t.stopReq = none →
    ∃ u t', exec (.priority15Preempt x) s = .next u ∧ taskFind u t.id = some t' ∧ t'.stopReq = some .preempt ∧
      (coreOf u k).promise = some ⟨c.launch, c.node, c.j, c.members, [k]⟩) ∧
  (∀ (s : State) (n : Nat) (t : Task), n < 2048 → let v := focus n s
    curTask v = some t → t.gpos = 0 → t.stopReq = none → regionOpen v.core = false → gangCores v = [n] →
    (overrun v.core = true → ∃ u t' r, exec (.yieldOverrun n) s = .next (focus s.core.id u) ∧ taskFind u t.id = some t' ∧
      t'.stopReq = some .overrun ∧ u.core.claim = 65536 ∧ u.core.sinceYield = 0 ∧ u.core.a = v.core.a ∧
      (dieGet u (dieOf n)).gecko.head? = some r ∧ r.cause = 0x0D ∧ r.src = srcNum n ∧ r.pc = v.core.pc ∧
      r.val = BitVec.ofNat 64 v.core.claim) ∧
    (overrun v.core = false → exec (.yieldOverrun n) s = .next (focus s.core.id v)))

/-! ## Firmware's registers, measurement and migration -/

/-- R404 to R407, R428, R457, R458, R481: what firmware does to a die's dispatcher. A resumed domain's stopped tasks are
Ready, a cancelled one's have ended; a debug stop asks a running task to leave, a step or a resume makes a stopped one Ready;
DCFG's fields and the match-and-replace table take effect when no launch of the die runs. -/
def Obligations.FirmwareControlResults : Prop :=
  ∀ (s : State) (die : Fin 4),
    let only (x : Task) : Prop := x ∈ s.tasks ∧ ∀ y ∈ s.tasks, y.id = x.id → y = x
    let budgetOver (x : Task) : Bool := ((taskRcb s x).map (·.stopped)).getD false
    (∀ dom : BitVec 12, ∃ t, exec (.dfcmdQuery die dom) s = .next t ∧ t = { s with dies := t.dies } ∧
      (dfcmdRead t die.val).getLsbD 63 = domStopped s die.val dom.toNat ∧
      (dfcmdRead t die.val).extractLsb' 0 12 = dom) ∧
    (∀ dom : BitVec 12, domStopped s die.val dom.toNat = true →
      (∃ t, exec (.dfcmdResume die dom) s = .next t ∧ domStopped t die.val dom.toNat = false ∧ t.core.a = s.core.a ∧
        ∀ x, only x → taskDom s x = (die.val, dom.toNat) → x.st = .stopped →
          (budgetOver x = true → ∃ x', taskFind t x.id = some x' ∧ x'.st = .ended) ∧
          ((∀ y ∈ s.tasks, budgetOver y = false) →
            ∃ x', taskFind t x.id = some x' ∧ x'.st = .ready ∧ x'.readyTick = s.tick)) ∧
      (∃ t, exec (.dfcmdCancel die dom) s = .next t ∧ domStopped t die.val dom.toNat = false ∧
        ∀ x, only x → taskDom s x = (die.val, dom.toNat) → x.st = .stopped → ∃ x', taskFind t x.id = some x' ∧
          (x.core = none → x'.st = .ended) ∧ (∀ k, x.core = some k → ∃ c, x'.cancel = some c))) ∧
    (∀ dom : BitVec 12, domStopped s die.val dom.toNat = false →
      (∃ d, exec (.dfcmdResume die dom) s = .next { s with dies := d }) ∧
      (∃ d, exec (.dfcmdCancel die dom) s = .next { s with dies := d })) ∧
    (∀ (slot : BitVec 12) (x : Task), slotTask s die slot = some x → only x →
      (x.st = .running → x.stopReq = none → ∃ t x', exec (.ddbgStop die slot) s = .next t ∧ taskFind t x.id = some x' ∧
        x'.stopReq = some .debug) ∧
      (x.st = .stopped → domStopped s (taskDom s x).1 (taskDom s x).2 = false → (∀ y ∈ s.tasks, budgetOver y = false) →
        (∃ t x', exec (.ddbgStep die slot) s = .next t ∧ taskFind t x.id = some x' ∧ x'.st = .ready ∧ x'.stepping = true) ∧
        (∃ t x', exec (.ddbgResume die slot) s = .next t ∧ taskFind t x.id = some x' ∧ x'.st = .ready ∧
          x'.stepping = false))) ∧
    (∀ v : Word, ∃ t, exec (.dcfgWrite die v) s = .next t ∧ (dieGet t die.val).dcfgHeld = some v ∧
      (dieGet t die.val).dcfg = (dieGet s die.val).dcfg ∧ t = { s with dies := t.dies }) ∧
    (∀ v : Word, (dieGet s die.val).dcfgHeld = some v →
      (dieIdle s die = true → ∃ t, exec (.dcfgApply die) s = .next t ∧ (dieGet t die.val).dcfgHeld = none ∧
        let old := (dieGet s die.val).dcfg
        let new := (dieGet t die.val).dcfg
        let takes (lo least most : Nat) : Prop := new.extractLsb' lo 8 =
          if least ≤ (v.extractLsb' lo 8).toNat ∧ (v.extractLsb' lo 8).toNat ≤ most then v.extractLsb' lo 8
          else old.extractLsb' lo 8
        takes 8 8 40 ∧ takes 16 10 24 ∧ takes 32 4 30 ∧
        ∀ i, i < 8 ∨ (24 ≤ i ∧ i < 32) ∨ 40 ≤ i → new.getLsbD i = old.getLsbD i) ∧
      (dieIdle s die = false → exec (.dcfgApply die) s = .next s)) ∧
    (∀ v : Word, ∃ t, exec (.dmrtWrite die v) s = .next t ∧ t = { s with dies := t.dies } ∧
      (dieGet t die.val).dmrtHeld = some (v &&& 0x00FFFFFFFFFFFFC0) ∧ (dieGet t die.val).mr = (dieGet s die.val).mr) ∧
    (∀ w : Word, (dieGet s die.val).dmrtHeld = some w →
      let h := homeBytesGet s w.toNat 64
      let n := (h.headD 0).toNat
      let b := homeBytesGet s w.toNat (64 + 96 * n)
      (dieIdle s die = false → exec (.dmrtApply die) s = .next s) ∧
      (dieIdle s die = true → n ≤ 64 → dZero h 1 63 = true → (∀ e, e < n → mrBad (mrEntBytes b e) = false) →
        ∃ t, exec (.dmrtApply die) s = .next t ∧ (dieGet t die.val).dmrtHeld = none ∧
          (dieGet t die.val).mr = (List.range n).map (fun e => mrEnt (mrEntBytes b e)) ∧
          (dieGet t die.val).mrhash = (if n = 0 then 0 else sha256First64 b)) ∧
      (dieIdle s die = true → 64 < n ∨ dZero h 1 63 = false → ∃ t r, exec (.dmrtApply die) s = .next t ∧
        (dieGet t die.val).mr = (dieGet s die.val).mr ∧ (dieGet t die.val).gecko.head? = some r ∧ r.cause = 0x8A ∧
        r.pc = w)) ∧
    (∀ v : Word, (dieGet s die.val).ddome.getLsbD 63 = false → v.getLsbD 62 = true →
      ∃ t, exec (.domeReadingStart die v) s = .next t ∧ t = { s with dies := t.dies } ∧
        (dieGet t die.val).ddome.getLsbD 63 = true ∧ (dieGet t die.val).ddome.extractLsb' 0 4 = v.extractLsb' 0 4 ∧
        (dieGet t die.val).domeAt = some (s.tick + 16)) ∧
    (∀ at_ : Nat, (dieGet s die.val).domeAt = some at_ → at_ ≤ s.tick →
      ∃ t, exec (.domeReading die) s = .next t ∧ t = { s with dies := t.dies } ∧
        let d := dieGet t die.val
        let cnt (k : Nat) : Word := ((coreOf s k).m.ctrs.get ((dieGet s die.val).ddome.extractLsb' 0 4).toFin).count
        d.ddome.getLsbD 63 = false ∧ d.domeAt = none ∧
        d.domeSum = (dieCores s die.val).foldl (fun a k => a + cnt k) 0 ∧
        ∀ k ∈ dieCores s die.val, d.domeMin.toNat ≤ (cnt k).toNat ∧ (cnt k).toNat ≤ d.domeMax.toNat)

/-- R6, R121, R192, R403, R405, R426, R427, R441, R473 to R479, R483, R484: writes of device registers, the measurement
block's events and the migration of a page. The model's choices in it: an RPER outside 8 to 32 leaves MROT's field as it was,
CCTL's must-be-zero bits read zero, TBASE is aligned down, and what TEN's edge and a ring of no size do (log 36); how a
launch window is opened (log 4). -/
def Obligations.RegisterAndMeasureResults : Prop :=
  (∀ (s : State) (v : Word),
    (∀ die : Fin 4, ∃ t, exec (.registerWrite (.dsave die) v) s = .next t ∧ t = { s with dies := t.dies } ∧
      (dieGet t die.val).dsave = v &&& 0x00FFFFFFFFF00FFF) ∧
    ((s.launches.all fun l => l.retired) = true →
      exec (.registerWrite .feat v) s = .next { s with feat := v.setWidth 6 }) ∧
    ((s.launches.all fun l => l.retired) = false → exec (.registerWrite .feat v) s = .next s) ∧
    (∀ die : Fin 4, ∃ t, exec (.registerWrite (.launchWindow die) v) s = .next t ∧ t = { s with dies := t.dies } ∧
      (v.getLsbD 0 = true → (dieGet t die.val).opened = true ∧ ∀ q, (dieGet t die.val).queues.get q = LQueue.reset) ∧
      (v.getLsbD 0 = false → dieGet t die.val = dieGet s die.val)) ∧
    -- the dispatcher's registers at their offsets
    (∀ die : Fin 4, let at_ (off : Nat) := exec (.registerWrite (.disp die off) v) s
      let slot : BitVec 12 := v.setWidth 12
      at_ 0x000 = exec (.dcfgWrite die v) s ∧ at_ 0x008 = exec (.registerWrite (.dsave die) v) s ∧
      (v.extractLsb' 58 2 = 0 → at_ 0x010 = exec (.dfcmdQuery die slot) s) ∧
      (v.extractLsb' 58 2 = 1 → at_ 0x010 = exec (.dfcmdResume die slot) s) ∧
      (v.extractLsb' 58 2 = 2 → at_ 0x010 = exec (.dfcmdCancel die slot) s) ∧
      (v.extractLsb' 62 2 = 1 → at_ 0x018 = exec (.ddbgStop die slot) s) ∧
      (v.extractLsb' 62 2 = 2 → at_ 0x018 = exec (.ddbgStep die slot) s) ∧
      (v.extractLsb' 62 2 = 3 → at_ 0x018 = exec (.ddbgResume die slot) s) ∧
      at_ 0x020 = exec (.dmrtWrite die v) s ∧ at_ 0x028 = exec (.domeReadingStart die v) s)) ∧
  (∀ (s : State) (n : Nat) (v : Word), let c := focus n s
    (∃ u, exec (.registerWrite (.sem n) v) s = .next (focus s.core.id u) ∧ u = { c with core := { c.core with semMap := u.core.semMap } } ∧
      ∀ i, i < 6 → let want := v.getLsbD i
        u.core.semMap.getLsbD i = if c.core.semDis.getLsbD (2 * (i / 2) + (if want then 1 else 0)) then
          c.core.semMap.getLsbD i else want) ∧
    (∃ u, exec (.registerWrite (.lct n) v) s = .next (focus s.core.id u) ∧ u = { c with core := { c.core with lct := u.core.lct } } ∧
      ∀ k, k < 8 → u.core.lct.extractLsb' (8 * k) 8 =
        if (v.extractLsb' (8 * k) 8).toNat < 64 then v.extractLsb' (8 * k) 8 else c.core.lct.extractLsb' (8 * k) 8) ∧
    (∃ u, exec (.registerWrite (.ktt n) v) s = .next (focus s.core.id u) ∧ u.core.a = c.core.a ∧
      u.core.kttReg = v &&& 0x00FFFFFFFFFFF1FF ∧ (v.getLsbD 8 = false → u.core.ktt = [])) ∧
    (∀ i : Fin 16, ∃ t, exec (.registerWrite (.cctl n i) v) s = .next t ∧ t.tick = (s.tick + 1) % 2 ^ 64 ∧
      ((coreOf t n).m.ctrs.get i).cctl = v &&& 0x80FC00000003FFFF ∧ (coreOf t n).a = c.core.a) ∧
    (∀ i : Fin 16,
      (∃ u, exec (.registerWrite (.count n i) v) s = .next (focus s.core.id u) ∧ u.core.a = c.core.a ∧
        u.core.m.ctrs.get i = { c.core.m.ctrs.get i with count := v } ∧
        ∀ j, j ≠ i → u.core.m.ctrs.get j = c.core.m.ctrs.get j) ∧
      (∃ u, exec (.registerWrite (.tena n i) v) s = .next (focus s.core.id u) ∧ u.core.m.ctrs.get i = { c.core.m.ctrs.get i with tena := v }) ∧
      (∃ u, exec (.registerWrite (.trun n i) v) s = .next (focus s.core.id u) ∧ u.core.m.ctrs.get i = { c.core.m.ctrs.get i with trun := v })) ∧
    (∃ t, exec (.registerWrite (.mrot n) v) s = .next t ∧ t.tick = (s.tick + 1) % 2 ^ 64 ∧
      (coreOf t n).m.mrot.extractLsb' 8 2 = v.extractLsb' 8 2 ∧
      (coreOf t n).m.mrot.extractLsb' 0 8 =
        if 8 ≤ (v.extractLsb' 0 8).toNat ∧ (v.extractLsb' 0 8).toNat ≤ 32 then v.extractLsb' 0 8
        else c.core.m.mrot.extractLsb' 0 8) ∧
    (∃ u, exec (.registerWrite (.tbase n) v) s = .next (focus s.core.id u) ∧ u.core.m.tbase = v &&& ~~~0xFFF ∧ u.core.a = c.core.a) ∧
    (∃ u, exec (.registerWrite (.tctl n) v) s = .next (focus s.core.id u) ∧ u.core.a = c.core.a ∧
      (c.core.m.twait = [] ∨ traceOn c.core.m = false ∧ v.getLsbD 63 = true → u.core.m.tctl.getLsbD 63 = v.getLsbD 63 ∧
        u.core.m.tctl.getLsbD 62 = v.getLsbD 62 ∧ u.core.m.tctl.extractLsb' 0 20 = v.extractLsb' 0 20 ∧
        u.core.m.twait = [] ∧
        (traceOn c.core.m = false → v.getLsbD 63 = true → u.core.m.tpos = 0 ∧ u.core.m.tstep = 0 ∧
          (u.core.m.tctl.getLsbD 61 = true ↔ v.extractLsb' 0 20 = 0)) ∧
        (traceOn c.core.m = true ∨ v.getLsbD 63 = false → u.core.m.tpos = c.core.m.tpos ∧
          (u.core.m.tctl.getLsbD 61 = true ↔ 256 * (v.extractLsb' 0 20).toNat ≤ c.core.m.tpos ∧
            (v.getLsbD 63 = true ∨ c.core.m.tctl.getLsbD 61 = true))))) ∧
    (∃ t, exec (.measurementClear n) s = .next t ∧ t.tick = (s.tick + 1) % 2 ^ 64 ∧ (coreOf t n).a = c.core.a ∧
      (∀ i, ((coreOf t n).m.ctrs.get i).count = 0) ∧ (∀ i, (coreOf t n).m.hotB.get i = 0 ∧ (coreOf t n).m.hotS.get i = 0) ∧
      ∀ k, (coreOf t n).m.lacc.get k = LAcc.reset) ∧
    (let p := rotPeriod c.core.m
      ∃ t, exec (.rotationPeriodBoundary n) s = .next t ∧ t.tick % p = 0 ∧
        t.tick = (s.tick + (p - s.tick % p)) % 2 ^ 64 ∧ (coreOf t n).a = c.core.a) ∧
    -- the block's words as the window shows them
    (∀ (die : Fin 4) (off : Nat), windowCore die off = n → validCore n = true → off < 512 * 4096 → off % 8 = 0 →
      let i := off % 4096 / 8
      (i = 228 → v.getLsbD 0 = true → exec (.registerWrite (.window die off) v) s = exec (.measurementClear n) s) ∧
      (∀ k : Fin 16, i = 128 + 4 * k.val →
        exec (.registerWrite (.window die off) v) s = exec (.registerWrite (.cctl n k) v) s) ∧
      (i = 224 → exec (.registerWrite (.window die off) v) s = exec (.registerWrite (.mrot n) v) s) ∧
      (i < 128 ∨ (192 ≤ i ∧ i < 224) ∨ i = 227 ∨ 228 < i → exec (.registerWrite (.window die off) v) s = .next s)) ∧
    -- a trace record at the next place of the ring
    (let m := c.core.m
      let writes (i : Instr) (kind : Byte) (x : BitVec 56) : Prop := ∃ u, exec i s = .next (focus s.core.id u) ∧ u.core.a = c.core.a ∧
        u.core.m.tpos = m.tpos + 1 ∧ homeBytesGet u (m.tbase.toNat + 16 * m.tpos) 16 =
          toBytes 8 (BitVec.ofNat 64 m.tstep) ++ [kind] ++ toBytes 7 x
      traceOn m = true → m.outcomes = [] → m.tpos + 1 < traceCap m → m.tbase.toNat % 64 = 0 → Mem.wf s.home = true →
        (∀ (k : BitVec 48) (w : Fin 8), writes (.traceRecord n (.stall k w)) 1 ((BitVec.ofNat 8 w.val) ++ k)) ∧
        (∀ x, writes (.traceRecord n (.flagWait x)) 3 x) ∧ (∀ x, writes (.traceRecord n (.switch x)) 5 x) ∧
        (∀ (i : Fin 16) (slot : BitVec 4), ctrOn (m.ctrs.get i) = true → (m.ctrs.get i).cctl.extractLsb' 50 6 ≠ 0 →
          writes (.counterSample n i slot) 6 ((slot.setWidth 6) ++ c.core.pc.extractLsb' 6 50))) ∧
    (traceOn c.core.m = false → (∀ k, exec (.traceRecord n k) s = .next (focus s.core.id c)) ∧
      ∀ i slot, exec (.counterSample n i slot) s = .next (focus s.core.id c))) ∧
  -- migration
  (∀ (s : State) (ktt vbase tick pkg src : Nat), ∃ t, exec (.migrationRequest ktt vbase tick pkg src) s = .next t ∧
    t = { s with migrs := t.migrs } ∧ ∃ m ∈ t.migrs, m.key = ktt ∧ m.vbase = vbase ∧ ∃ r ∈ m.reqs, r.pkg = pkg ∧ r.src = src) ∧
  (∀ (s : State) (ktt vbase : Nat) (m : Migr) (e : KEntry),
    s.migrs.find? (fun m => m.key == ktt && m.vbase == vbase) = some m →
    (kttLoad s ktt).find? (fun e => e.vbase == vbase) = some e → m.reqs ≠ [] →
    ∃ t m', exec (.migrationReply ktt vbase) s = .next t ∧
      t.migrs.find? (fun m => m.key == ktt && m.vbase == vbase) = some m' ∧ m'.res.isSome = true ∧
      m'.reqs = [] ∧ ∀ x, taskFind s x.id = some x → x.st = .migrating → x.mig = some vbase → (taskRcb s x).map (·.ktt) = some ktt →
        ∃ x', taskFind t x.id = some x' ∧ x'.st = .ready)

/-! ## Homes, host, link, fabric -/

/-- R171 to R173, R190, R191, R193, R197: a fill brings a whole line to a cluster, an ownership request takes the other
copies away; a push writes exactly the marked bytes at the home; an eviction and an invalidation drop what is not marked; two
ownership requests leave the later one the owner; two halves of a region merge again. -/
def Obligations.CoherenceResults : Prop :=
  ∀ (s : State) (c key : Nat), leased key = false →
    let room (c : Nat) : Prop := (s.l2.filter fun l => l.cluster == c).length < l2Lines
    (∀ own, c < 32 → s.poison.contains key = false → l2Find s c key = none → room c → ∃ t l, exec (.homeRequest c key own) s = .next t ∧
      l2Find t c key = some l ∧ l.valid = BitVec.allOnes 64 ∧ l.marks = 0 ∧ t.core.a = s.core.a ∧ t.spad = s.spad ∧
      (own = false → s.dieRegions = [] → l.data = homeRead s key ∧ t.home = s.home) ∧
      (own = true → dirOwner t key = some c ∧ ∀ x ∈ t.l2, x.key = key → x.cluster ≠ c → x.marks ≠ 0 ∧ x.valid = x.marks)) ∧
    (32 ≤ c → (∃ t, exec (.homeRequest c key true) s = .next t ∧ (key, true) ∈ t.hostHeld ∧ t.dir.all (fun x => x.key != key)) ∧
      ∃ t, exec (.homeRequest c key false) s = .next t ∧ (key, false) ∈ t.hostHeld ∧ t.home = s.home ∧ t.l2 = s.l2) ∧
    (∀ a b : SnoopReq, a.kind = .own → b.kind = .own → a.cluster < 32 → b.cluster < 32 → a.cluster ≠ b.cluster →
      s.poison.contains key = false → (s.launches.any fun l => l.det && !l.retired) = true →
      l2Find s a.cluster key = none → l2Find s b.cluster key = none → room a.cluster → room b.cluster →
      ∃ t, exec (.snoopConflict a b key) s = .next t ∧ t.core.a = s.core.a ∧
        let k (x : SnoopReq) : ℕ ×ₗ ℕ ×ₗ ℕ := toLex (x.tick.toNat, toLex (x.cluster / 8, x.src))
        dirOwner t key = some (if k b < k a then a.cluster else b.cluster)) ∧
    (∀ l, l2Find s c key = some l → l.marks ≠ 0 → l.marks ≠ BitVec.allOnes 64 → Mem.wf s.home = true → dirOwner s key = none →
      (∀ r ∈ s.dieRegions, inRegion r.base r.lsz key = true → ∀ d ∈ r.owners, d = c / 8) →
      ∃ t l', exec (.homeMaskedWrite c key) s = .next t ∧ l2Find t c key = some l' ∧ l'.marks = 0 ∧ l'.data = l.data ∧
        t.core.a = s.core.a ∧ t.spad = s.spad ∧
        ∀ a, Mem.get t.home a = if lineKey a = key ∧ l.marks.getLsbD (a % 64) = true then lineByte l.data (a % 64)
          else Mem.get s.home a) ∧
    (pinnedLine s c key = false → dirOwner s key = none → ∃ t, exec (.l2Eviction c key) s = .next t ∧
      l2Find t c key = none ∧ t.core.a = s.core.a ∧ t.spad = s.spad ∧
      (∀ l, l2Find s c key = some l → l.marks = 0 → t.home = s.home)) ∧
    (pinnedLine s c key = true → exec (.l2Eviction c key) s = .next s) ∧
    (l2Find s c key = none → exec (.l2Invalidate c key) s = .next s) ∧
    (∀ l, l2Find s c key = some l → ∃ t, exec (.l2Invalidate c key) s = .next t ∧ t.core.a = s.core.a ∧ t.spad = s.spad ∧
      (l.marks = 0 → l2Find t c key = none) ∧ (l.marks ≠ 0 → l2Find t c key = some { l with valid := l.marks })) ∧
    (∀ (x y : DieRegion) (rest : List DieRegion), s.dieRegions = x :: y :: rest → y.base = x.base + 2 ^ x.lsz → y.lsz = x.lsz →
      x.lsz < 16 → x.base % 2 ^ (x.lsz + 1) = 0 → x.tick + 2 ^ 20 ≤ s.tick → y.tick + 2 ^ 20 ≤ s.tick →
      ∃ t r, exec (.regionMerge x.base) s = .next t ∧ t = { s with dieRegions := t.dieRegions } ∧ r ∈ t.dieRegions ∧
        r.base = x.base ∧ r.lsz = x.lsz + 1 ∧ r.owners = (x.owners ++ y.owners).eraseDups ∧
        r.holders = (x.holders ++ y.holders).eraseDups ∧ r.tick = max x.tick y.tick ∧ ∀ z ∈ t.dieRegions, z ∈ rest ∨ z = r)

/-- R17, R20, R429 to R430, R465 to R471: the host reads and writes device memory and the launch windows through a module
that is up; a flit or a packet is executed once and in order, and answered; links replay, repair and retrain; a port fails; an
agent is declared dead. The model's choices in it: how a launch window is opened (log 4), which operations a dead agent or a
lost module fails (log 33), replay to the last acknowledged number (log 42), the dead agent's record number (log 51), and the
full replay buffer, a flit's size and the packages a failed port loses (log 52). -/
def Obligations.LinkAndFabricResults : Prop :=
  (∀ (s : State) (die : Fin 4), moduleUp (s.modules.get die) = true →
    (∀ addr (data : List Byte), addr + data.length ≤ deviceBytes → addr % 64 + data.length ≤ 64 → data ≠ [] →
      Mem.wf s.home = true → ∃ t, exec (.hostMemWrite die false addr data) s = .next t ∧
        homeBytesGet t addr data.length = data ∧ t.core.a = s.core.a ∧ t.spad = s.spad) ∧
    (∀ addr (data : List Byte), (dieGet s die.val).opened = false → exec (.hostMemWrite die true addr data) s = .next s) ∧
    (∀ addr (data : List Byte), (dieGet s die.val).opened = true → addr + data.length ≤ 0x40000 →
      Mem.wf (dieGet s die.val).window = true → ∃ t, exec (.hostMemWrite die true addr data) s = .next t ∧ t = { s with dies := t.dies } ∧
        ∀ a, Mem.get (dieGet t die.val).window a =
          if addr ≤ a ∧ a < addr + data.length then data.getD (a - addr) 0 else Mem.get (dieGet s die.val).window a) ∧
    (∀ addr n, addr + n ≤ deviceBytes → ∃ t, exec (.hostMemRead die false addr n) s = .next t ∧ t.home = s.home ∧
      t.spad = s.spad ∧ t.l2 = s.l2 ∧ t.core = s.core ∧ ∀ i, i < n → (lineKey (addr + i), false) ∈ t.hostHeld)) ∧
  (∀ (s : State) (die : Fin 4), moduleUp (s.modules.get die) = false → ∀ window addr,
    (∀ data, exec (.hostMemWrite die window addr data) s = .next s) ∧ ∀ n, exec (.hostMemRead die window addr n) s = .next s) ∧
  (∀ (s : State) (m : Fin 4) (seq : Nat), moduleUp (s.modules.get m) = true →
    let x := s.modules.get m
    (x.expected = seq → ∀ (a : Nat) (b : List Byte) (ack : Nat), a + b.length ≤ deviceBytes → a % 64 + b.length ≤ 64 → b ≠ [] →
      Mem.wf s.home = true → (x.out.filter fun o => ack ≤ o.1).length < 128 →
      ∃ t, exec (.flitReceive m seq true ⟨some (.write a b), ack⟩) s = .next t ∧
        homeBytesGet t a b.length = b ∧ (t.modules.get m).expected = seq + 1 ∧ (t.modules.get m).replay = false ∧
        (t.modules.get m).out = (x.out.filter fun o => ack ≤ o.1) ++ [(s.flitSent.get m, [])]) ∧
    (∀ flit, flitFits flit.req = false → exec (.flitReceive m seq true flit) s = .next s) ∧
    (∀ flit, x.expected = seq → flitFits flit.req = true → answers flit.req = true →
      128 ≤ (x.out.filter fun o => flit.ack ≤ o.1).length → ∃ t, exec (.flitReceive m seq true flit) s = .next t ∧
        t = { s with modules := t.modules } ∧ (t.modules.get m).expected = x.expected ∧ (t.modules.get m).replay = true) ∧
    (x.expected = seq → ∀ a n ack : Nat, n ≤ 256 → a + n ≤ deviceBytes → (x.out.filter fun o => ack ≤ o.1).length < 128 →
      ∃ t, exec (.flitReceive m seq true ⟨some (.read a n), ack⟩) s = .next t ∧ t.home = s.home ∧
        (t.modules.get m).expected = seq + 1 ∧ t.flitSent.get m = s.flitSent.get m + 1 ∧
        (t.modules.get m).out = (x.out.filter fun o => ack ≤ o.1) ++ [(s.flitSent.get m, homeBytesGet s a n)]) ∧
    (∀ flit, seq < x.expected → ∃ t, exec (.flitReceive m seq true flit) s = .next t ∧ t = { s with modules := t.modules } ∧
      (t.modules.get m).expected = x.expected ∧ (t.modules.get m).replay = x.replay) ∧
    (∀ flit, flitFits flit.req = true → x.expected < seq → ∃ t, exec (.flitReceive m seq true flit) s = .next t ∧ t = { s with modules := t.modules } ∧
      (t.modules.get m).replay = true ∧ (t.modules.get m).expected = x.expected) ∧
    (∀ flit, flitFits flit.req = true → ∃ t, exec (.flitReceive m seq false flit) s = .next t ∧ t = { s with modules := t.modules } ∧
      (t.modules.get m).replay = true ∧ (t.modules.get m).expected = x.expected) ∧
    (∃ t, exec (.linkReplay m) s = .next t ∧ t = { s with modules := t.modules } ∧ (t.modules.get m).replay = false ∧
      (t.modules.get m).expected = x.acked)) ∧
  (∀ (s : State) (m : Fin 4),
    let x := s.modules.get m
    (∃ t, exec (.laneFail m) s = .next t ∧ t = { s with modules := t.modules } ∧
      (x.spareLanes = 0 → (t.modules.get m).training = true) ∧
      (x.spareLanes ≠ 0 → (t.modules.get m).spareLanes = x.spareLanes - 1 ∧ (t.modules.get m).repaired = true ∧
        (t.modules.get m).training = x.training)) ∧
    (x.training = true →
      (∃ t, exec (.moduleRetrainEnd m true) s = .next t ∧ t = { s with modules := t.modules } ∧
        (t.modules.get m).training = false ∧ (t.modules.get m).width = 32) ∧
      (∃ t, exec (.moduleRetrainEnd m false) s = .next t ∧ (t.modules.get m).training = false ∧
        (t.modules.get m).downAt = some s.tick ∧
        ((∀ c ∈ s.cmds, c.started = false) → (∀ c ∈ coresOf s, c.young = []) → t.home = s.home ∧
          ∀ p ∈ t.core.pend, ∃ q ∈ s.core.pend, q.seq = p.seq ∧
            ¬ (dieOf s.core.id = m.val ∧ toward agentHost s q = true))))) ∧
  (∀ (s : State) (f : PortFlow) (num : BitVec 16) (inc : Byte) (req : FarReq),
    let e : Instr := .packetReceive f num inc req
    let ahead := (num - flowNext s f.flow).toNat
    let same (q : Pkt) : Bool := q.flow == f.flow && q.num == num
    (s.ports.getLsbD f.port.val = false → exec e s = .next s) ∧
    (s.ports.getLsbD f.port.val = true →
      (incarnOf s (agentPkg f.flow.1) ≠ inc → ∃ t r, exec e s = .next t ∧ t.flows = s.flows ∧ t.home = s.home ∧
        (dieGet t (f.port.val / 8)).gecko.head? = some r ∧ r.cause = 0x84 ∧ r.val = inc.setWidth 64) ∧
      (incarnOf s (agentPkg f.flow.1) = inc →
        (∀ (a : Nat) (b : List Byte), req = .write a b → ahead = 0 → (∀ q ∈ s.reorder, q.flow ≠ f.flow) →
          a + b.length ≤ deviceBytes → a % 64 + b.length ≤ 64 → b ≠ [] → Mem.wf s.home = true →
          ∃ t, exec e s = .next t ∧ homeBytesGet t a b.length = b ∧ flowNext t f.flow = num + 1 ∧ t.core.a = s.core.a) ∧
        (0x8000 ≤ ahead → exec e s = .next { s with refusedPkts := s.refusedPkts.filter fun q => !same q }) ∧
        (0 < ahead → ahead ≤ 256 → (s.reorder.filter fun q => q.port == f.port).length < 512 → s.reorder.any same = false →
          exec e s = .next { s with
            reorder := s.reorder ++ [⟨f.port, f.flow, num, req, false⟩]
            refusedPkts := s.refusedPkts.filter fun q => !same q }) ∧
        (256 < ahead → ahead < 0x8000 → s.reorder.any same = false → s.refusedPkts.any same = false →
          exec e s = .next { s with refusedPkts := s.refusedPkts ++ [⟨f.port, f.flow, num, req, true⟩] })))) ∧
  (∀ (s : State) (p : Pkt) (a : Nat) (b : List Byte), s.refusedPkts = [p] → s.reorder = [] → p.num = flowNext s p.flow →
    p.req = .write a b → a + b.length ≤ deviceBytes → a % 64 + b.length ≤ 64 → b ≠ [] → Mem.wf s.home = true →
    (p.waits = true → exec (.packetRetry ⟨p.port, p.flow⟩) s = .next s) ∧
    (p.waits = false → ∃ t, exec (.packetRetry ⟨p.port, p.flow⟩) s = .next t ∧ t.refusedPkts = [] ∧
      flowNext t p.flow = p.num + 1 ∧ homeBytesGet t a b.length = b)) ∧
  (∀ (s : State) (loss : PortLoss), ∃ t, exec (.portFail loss) s = .next t ∧
    t = { s with ports := t.ports, reorder := t.reorder, refusedPkts := t.refusedPkts, lost := t.lost } ∧
    (∀ i, i < 32 → t.ports.getLsbD i = (s.ports.getLsbD i && decide (i ≠ loss.port.val))) ∧
    (t.reorder.map fun p => (p.flow, p.num)) = (s.reorder.map fun p => (p.flow, p.num)) ∧
    ∀ p ∈ loss.lost, ∃ x ∈ t.lost, x.1 = p) ∧
  (∀ (s : State) (agent : Nat),
    (mayDie s agent = true → ∃ t r, exec (.agentDeclaredDead agent) s = .next t ∧ agent ∈ t.dead ∧
      (dieGet t (if agent < 2048 then dieOf agent else 0)).gecko.head? = some r ∧ r.cause = 0x85 ∧
      r.pc = BitVec.ofNat 64 (agentRec agent) ∧
      ((∀ c ∈ s.cmds, c.started = false) → (∀ c ∈ coresOf s, c.young = []) → t.home = s.home ∧ t.spad = s.spad ∧
        ∀ p ∈ t.core.pend, ∃ q ∈ s.core.pend, q.seq = p.seq ∧ toward agent s q = false)) ∧
    (mayDie s agent = false → exec (.agentDeclaredDead agent) s = .next s))

/-! ## Power, repair, resets and time -/

/-- R13, R14, R121, R204, R396, R472, R482, R483: a disabled instance hands both slots of its class to the other; with
none left, or for the control or matrix unit, a spare takes the core's place with instances all enabled, or with no
spare left the core is disabled. A throttle stall passes time, and nothing lands; it undoes a region that is to be left.
A cold reset gives the reset state; a warm one keeps the memories, the time, and the Gecko recorder. The time source
sends a beacon every 4,096 ticks, another package counts the beacons it receives; a Belfry step ends at a multiple of
its length. The model's choices in it: what a warm reset keeps where the manual's lists differ (log 35), the map after a
disable and a spare's instances (log 40), and the one-tick correction with its skew and the count that is forwarded (log
41). -/
def Obligations.PowerResetAndTimeResults : Prop :=
  (∀ (s : State) (n : Nat), let v := focus n s
    (∀ unit : Fin 8, unit ≠ 0 → unit ≠ 7 →
      let i := unit.val - 1
      let other := if i % 2 = 0 then i + 1 else i - 1
      v.core.semDis.getLsbD other = false → ∃ u, exec (.instanceDisabled n unit) s = .next (focus s.core.id u) ∧
        u = { v with core := { v.core with semDis := u.core.semDis, semMap := u.core.semMap } } ∧
        (∀ j, u.core.semDis.getLsbD j = (v.core.semDis.getLsbD j || decide (j = i))) ∧
        (∀ j, j < 6 → u.core.semMap.getLsbD j = if j / 2 = i / 2 then decide (i % 2 = 0) else v.core.semMap.getLsbD j)) ∧
    (∀ unit : Fin 8, regionOpen v.core = false →
      (unit = 0 ∨ unit = 7 ∨ v.core.semDis.getLsbD (if (unit.val - 1) % 2 = 0 then unit.val else unit.val - 2) = true) →
      let k := Fin.ofNat 8 (clusterOf v.core.id % 8)
      let left := (dieGet v (dieOf v.core.id)).spares.get k
      ∃ u, exec (.instanceDisabled n unit) s = .next (focus s.core.id u) ∧
        (left ≠ 0 → u.core.semDis = 0 ∧ u.core.semMap = 0b101010 ∧ u.core.disabled = v.core.disabled) ∧
        (left = 0 → u.core.disabled = true)) ∧
    (∀ cycles, ∃ t, exec (.throttleStall n cycles) s = .next t ∧ t.tick = (s.tick + cycles / 4) % 2 ^ 64 ∧
      (regionOpen v.core = false ∨ leaving v = false → (coreOf t n).a = v.core.a ∧ (coreOf t n).flights = v.core.flights ∧
        (coreOf t n).pc = v.core.pc ∧ t.home = s.home ∧ t.spad = s.spad) ∧
      (v.core.rgn.st = .opened → leaving v = true → 0 < cycles → gangCores v = [n] →
        (coreOf t n).rgn.st = .unwinding 6 ∧ (coreOf t n).a = v.core.a ∧ t.home = s.home))) ∧
  (∀ s : State,
    (∃ t, exec .coldReset s = .next t ∧ t = { State.reset with package := s.package, script := t.script, fresh := t.fresh }) ∧
    (∃ t, exec .warmReset s = .next t ∧ t.core = { Core.reset s.core.id with disabled := s.core.disabled } ∧
      (∀ c ∈ s.others, c.disabled = true → { Core.reset c.id with disabled := true } ∈ t.others) ∧
      (∀ c ∈ t.others, c = { Core.reset c.id with disabled := true }) ∧ t.tasks = [] ∧ t.launches = [] ∧ t.cmds = [] ∧
      t.home = s.home ∧ t.spad = s.spad ∧ t.tick = s.tick ∧ t.trapSeqs = s.trapSeqs ∧ t.feat = 0x3F ∧
      ∀ d : Fin 4, (t.dies.get d).gecko = (s.dies.get d).gecko ∧ (t.dies.get d).gcount = (s.dies.get d).gcount ∧
        (t.dies.get d).spares = (s.dies.get d).spares ∧ (t.dies.get d).dcfg = dcfgReset ∧ (t.modules.get d).width = (s.modules.get d).width) ∧
    (timeSource s = true → (∀ b, s.lastBeacon = some b → b + 4096 ≤ s.tick) →
      exec .belfryBeaconSend s = .next { s with
        lastBeacon := some s.tick, beacons := s.beacons + 1, beaconOut := some (s.package, BitVec.ofNat 64 s.tick) }) ∧
    (timeSource s = false ∨ (∃ b, s.lastBeacon = some b ∧ s.tick < b + 4096) → exec .belfryBeaconSend s = .next s) ∧
    (∀ (port : Fin 32) (pkg : Nat) (v : Word),
      let lowest : Prop := pkg < s.package ∧ pkgReached s pkg = true ∧ ∀ p, p < pkg → pkgReached s p = false
      let now := v + BitVec.ofNat 64 (Config.pathDelay port.val)
      (s.ports.getLsbD port.val = false ∨ ¬ lowest → exec (.belfryBeaconReceive port pkg v) s = .next s) ∧
      (s.ports.getLsbD port.val = true → lowest → ∃ t, exec (.belfryBeaconReceive port pkg v) s = .next t ∧
        t.beacons = s.beacons + 1 ∧ t.lastBeacon = some s.tick ∧ t.core = s.core ∧ t.beaconOut = some (pkg, now) ∧
        (t.tick = s.tick ∨ t.tick = (s.tick + 1) % 2 ^ 64) ∧
        (s.tick + 1 < 2 ^ 64 → (t.tick : Int) + t.skew ∈ [(now.toNat : Int), (now.toNat : Int) + 1]))) ∧
    (let p := 2 ^ bseOf (dieGet s (dieOf s.core.id));
      s.skew = 0 → ∃ t, exec .belfryStepAdvance s = .next t ∧ t.tick % p = 0 ∧ t.tick = (s.tick + (p - s.tick % p)) % 2 ^ 64 ∧
        t.core.a = s.core.a ∧ t.home = s.home ∧ t.spad = s.spad))

/-! ## Reset, and what every step keeps -/

/-- R20, R40, R121, R192, R324, R347, R399, R404, R433, R441, R457, R477: what the machine holds after reset where the manual
says so: queue numbers 0, the registers of the register tables, no table in force, no region open, nothing in the recorder;
and its memories are in canonical form. The reset core is core 0 and idle; what the manual leaves open is not stated. -/
def Obligations.ResetState : Prop :=
  let s := State.reset
  MemOk s ∧
  (∀ (d : Fin 4) (q : Fin 64), ((s.dies.get d).queues.get q).head = 0 ∧ ((s.dies.get d).queues.get q).expected = 0) ∧
  (∀ d : Fin 4, (s.dies.get d).dcfg.extractLsb' 32 8 = 10 ∧ (s.dies.get d).dcfg.extractLsb' 16 8 = 16 ∧
    (s.dies.get d).dcfg.extractLsb' 8 8 = 20 ∧ (s.dies.get d).mr = [] ∧ (s.dies.get d).mrhash = 0 ∧
    (s.dies.get d).gecko = [] ∧ (s.dies.get d).gcount = 0) ∧
  s.feat = 0x3F ∧
  (∀ n, let c := coreOf s n
    c.id = n ∧ c.task = none ∧ c.lct = 0x3F1A16120E0A0600 ∧ c.semMap = 0b101010 ∧ c.sp.ssthr = 4 ∧
      c.m.mrot.extractLsb' 0 8 = 16 ∧ c.rgn.st = .closed ∧ c.a.mat.beat = 0 ∧ c.a.mat.opn = false ∧
      (∀ k, c.a.lc.get k = 0) ∧ c.a.vrb = 0 ∧ c.a.prb = 0 ∧ c.a.fflags = 0 ∧ (∀ k, c.a.lec.get k = 0) ∧
      (∀ q, (c.a.streams.get q).bound = false) ∧ c.maps = [] ∧ c.flights = [] ∧ c.pend = [])

/-- An invariant: the scratchpads, the home memories and the launch windows keep their canonical form in every step from
every state that has it, whatever the work, the script and the free values are. -/
def Obligations.StepKeepsMemory : Prop :=
  ∀ s t : State, MemOk s → step s = .next t → MemOk t

/-- No instruction and no event is refused or faults, and every step answers a next state: what the manual makes a trap, a
rollback, a stall or an error is a next state. -/
def Obligations.StepAlwaysNext : Prop :=
  (∀ (i : Instr) (s : State), ∃ t, exec i s = .next t) ∧ (∀ s : State, ∃ t, step s = .next t)
end

