-- ==== Sys2Proof/Laws/Bits.lean ====
section
/-! SUPPORT. Elements, lanes and bytes: what a bit of each is. -/

namespace Sys2Proof.Machine

theorem getLsbD_elem (w : Nat) (x : Vec) (e i : Nat) :
    (elem w x e).getLsbD i = (decide (i < w) && x.getLsbD (w * e + i)) := by
  simp [elem]

/-- A bit of a vector made of elements. -/
theorem getLsbD_ofElems {w : Nat} (hw : 0 < w) (l : List (BitVec w)) (i : Nat) :
    (ofElems l).getLsbD i = (decide (i < 1024) && (l.getD (i / w) 0).getLsbD (i % w)) := by
  induction l generalizing i with
  | nil => simp [ofElems]
  | cons x r ih =>
    have hcons : ofElems (x :: r) = (ofElems r <<< w) ||| x.setWidth 1024 := rfl
    rw [hcons, BitVec.getLsbD_or, BitVec.getLsbD_shiftLeft, BitVec.getLsbD_setWidth, ih (i - w)]
    by_cases hi : i < 1024
    · by_cases hlt : i < w
      · have h0 : i / w = 0 := Nat.div_eq_of_lt hlt
        have h1 : i % w = i := Nat.mod_eq_of_lt hlt
        simp [hi, hlt, h0, h1]
      · have hge : w ≤ i := Nat.le_of_not_lt hlt
        have h0 : i / w = (i - w) / w + 1 := by
          rw [Nat.div_eq i w, if_pos ⟨hw, hge⟩]
        have h1 : i % w = (i - w) % w := Nat.mod_eq_sub_mod hge
        have h2 : i - w < 1024 := by omega
        have h3 : x.getLsbD i = false := BitVec.getLsbD_of_ge x i hge
        simp [hi, hlt, h0, h1, h2, h3]
    · have h3 : ¬ i < 1024 := hi
      simp [h3]

/-- An element of a vector made of elements. -/
theorem elem_ofElems {w : Nat} (hw : 0 < w) (l : List (BitVec w)) (e : Nat) (he : w * (e + 1) ≤ 1024) :
    elem w (ofElems l) e = l.getD e 0 := by
  apply BitVec.eq_of_getLsbD_eq
  intro i hi
  have h1 : w * e + i < 1024 := by
    have : w * (e + 1) = w * e + w := by ring
    omega
  have h2 : (w * e + i) / w = e := by
    rw [Nat.mul_add_div hw, Nat.div_eq_of_lt hi, Nat.add_zero]
  have h3 : (w * e + i) % w = i := by
    rw [Nat.mul_add_mod, Nat.mod_eq_of_lt hi]
  rw [getLsbD_elem, getLsbD_ofElems hw, h2, h3]
  simp [hi, h1]

theorem nElems_le {w e : Nat} (he : e < nElems w) : w * (e + 1) ≤ 1024 := by
  have h : e + 1 ≤ 1024 / w := he
  calc w * (e + 1) ≤ w * (1024 / w) := Nat.mul_le_mul_left w h
    _ ≤ 1024 := Nat.mul_div_le 1024 w

theorem elem_mapElems {w : Nat} (hw : 0 < w) (f : Nat → BitVec w) (e : Nat) (he : e < nElems w) :
    elem w (mapElems w f) e = f e := by
  rw [mapElems, elem_ofElems hw _ _ (nElems_le he)]
  simp [List.getD, he]

theorem elem_mapElemsF {w : Nat} (hw : 0 < w) (mask : BitVec 32) (f : Nat → BitVec w × BitVec 6) (e : Nat)
    (he : e < nElems w) : elem w (mapElemsF w mask f).1 e = (f e).1 := by
  rw [mapElemsF, elem_ofElems hw _ _ (nElems_le he)]
  simp [List.getD, he]

/-- A flag of a vector operation is raised by some element of an enabled lane, and by no other (R255). -/
theorem flag_mapElemsF {w : Nat} (mask : BitVec 32) (f : Nat → BitVec w × BitVec 6) (i : Nat) :
    (mapElemsF w mask f).2.getLsbD i = true ↔
      ∃ e, e < nElems w ∧ mask.getLsbD (laneOf w e) = true ∧ (f e).2.getLsbD i = true := by
  have key : ∀ (l : List (Nat × (BitVec w × BitVec 6))) (a : BitVec 6),
      (l.foldl (fun acc r => if mask.getLsbD (laneOf w r.1) then acc ||| r.2.2 else acc) a).getLsbD i = true ↔
        a.getLsbD i = true ∨ ∃ r ∈ l, mask.getLsbD (laneOf w r.1) = true ∧ r.2.2.getLsbD i = true := by
    intro l
    induction l with
    | nil => intro a; simp
    | cons x r ih =>
      intro a
      rw [List.foldl_cons, ih]
      by_cases hm : mask.getLsbD (laneOf w x.1) = true
      · simp [hm, or_assoc]
      · simp [hm]
  rw [mapElemsF, key]
  simp

/-! ## Lanes -/

theorem getLsbD_laneMask (mask : BitVec 32) (i : Nat) :
    (laneMask mask).getLsbD i = (decide (i < 1024) && mask.getLsbD (i / 32)) := by
  rw [laneMask, getLsbD_ofElems (by decide)]
  by_cases hi : i < 1024
  · have h1 : i / 32 < 32 := by omega
    have h2 : i % 32 < 32 := by omega
    have h3 : (((List.range 32).map fun i => if mask.getLsbD i then BitVec.allOnes 32 else 0).getD (i / 32) 0) =
        if mask.getLsbD (i / 32) then BitVec.allOnes 32 else 0 := by
      simp only [List.getD_eq_getElem?_getD, List.getElem?_map, List.getElem?_range h1, Option.map_some, Option.getD_some]
    rw [h3]
    split
    · next hm => simp only [hm, BitVec.getLsbD_allOnes, h2, hi, decide_true, Bool.and_self]
    · next hm => simp only [hm, BitVec.ofNat_eq_ofNat, BitVec.getLsbD_zero, Bool.and_false]
  · simp only [hi, decide_false, Bool.false_and]

theorem getLsbD_blend {w : Nat} (mask new old : BitVec w) (i : Nat) :
    (blend mask new old).getLsbD i = (if mask.getLsbD i then new.getLsbD i else old.getLsbD i) := by
  by_cases hi : i < w
  · simp only [blend, BitVec.getLsbD_or, BitVec.getLsbD_and, BitVec.getLsbD_not, hi, decide_true, Bool.true_and]
    cases mask.getLsbD i <;> simp
  · have h : ∀ x : BitVec w, x.getLsbD i = false := fun x => BitVec.getLsbD_of_ge x i (Nat.le_of_not_lt hi)
    simp only [h, if_false, Bool.false_eq_true]

@[simp] theorem laneMask_allOnes : laneMask (BitVec.allOnes 32) = BitVec.allOnes 1024 := by
  apply BitVec.eq_of_getLsbD_eq
  intro i hi
  have h : i / 32 < 32 := by omega
  simp only [getLsbD_laneMask, BitVec.getLsbD_allOnes, h, hi, decide_true, Bool.and_self]

@[simp] theorem blend_allOnes {w : Nat} (new old : BitVec w) : blend (BitVec.allOnes w) new old = new := by
  apply BitVec.eq_of_getLsbD_eq
  intro i hi
  simp only [getLsbD_blend, BitVec.getLsbD_allOnes, hi, decide_true, if_true]

theorem getLsbD_bits32 (f : Nat → Bool) (i : Nat) : (bits32 f).getLsbD i = (decide (i < 32) && f i) := by
  have key : ∀ (n k i : Nat), n + k = 32 → BitVec.getLsbD ((List.range' k n).foldr (fun j (acc : BitVec 32) =>
      (acc <<< 1) ||| BitVec.setWidth 32 (BitVec.ofBool (f j))) 0) i = (decide (i < n) && f (k + i)) := by
    intro n
    induction n with
    | zero => intro k i _; simp
    | succ n ih =>
      intro k i hk
      rw [List.range'_succ, List.foldr_cons, BitVec.getLsbD_or, BitVec.getLsbD_shiftLeft,
        ih (k + 1) (i - 1) (by omega), BitVec.getLsbD_setWidth, BitVec.getLsbD_ofBool]
      cases i with
      | zero => simp
      | succ i =>
        have h2 : k + 1 + (i + 1 - 1) = k + (i + 1) := by omega
        rw [h2]
        by_cases hi : i < n
        · have h1 : i + 1 < 32 := by omega
          simp [h1, hi]
        · simp [hi]
  have := key 32 0 i (by omega)
  rw [← List.range_eq_range'] at this
  rw [bits32, this, Nat.zero_add]

/-! ## Bytes -/

@[simp] theorem length_toBytes (n : Nat) {w : Nat} (x : BitVec w) : (toBytes n x).length = n := by simp [toBytes]

theorem getLsbD_ofBytes (w : Nat) (l : List Byte) (i : Nat) :
    (ofBytes w l).getLsbD i = (decide (i < w) && (l.getD (i / 8) 0).getLsbD (i % 8)) := by
  induction l generalizing i with
  | nil => simp [ofBytes]
  | cons b r ih =>
    have hcons : ofBytes w (b :: r) = (ofBytes w r <<< 8) ||| b.setWidth w := rfl
    rw [hcons, BitVec.getLsbD_or, BitVec.getLsbD_shiftLeft, BitVec.getLsbD_setWidth, ih (i - 8)]
    by_cases hi : i < w
    · by_cases hlt : i < 8
      · have h0 : i / 8 = 0 := by omega
        have h1 : i % 8 = i := by omega
        simp [hi, hlt, h0, h1]
      · have h0 : i / 8 = (i - 8) / 8 + 1 := by omega
        have h1 : i % 8 = (i - 8) % 8 := by omega
        have h2 : i - 8 < w := by omega
        have h3 : b.getLsbD i = false := BitVec.getLsbD_of_ge b i (by omega)
        simp [hi, hlt, h0, h1, h2, h3]
    · simp [hi]

/-- Bytes taken from a value and put together again. -/
theorem ofBytes_toBytes (n w : Nat) {v : Nat} (x : BitVec v) (h : w ≤ 8 * n) :
    ofBytes w (toBytes n x) = x.setWidth w := by
  apply BitVec.eq_of_getLsbD_eq
  intro i hi
  rw [getLsbD_ofBytes, BitVec.getLsbD_setWidth]
  have h1 : i / 8 < n := by omega
  have h2 : i % 8 < 8 := by omega
  have h3 : 8 * (i / 8) + i % 8 = i := by omega
  simp [toBytes, List.getD, h1, hi, h2, h3]

@[simp] theorem get_vecOf {α : Type} (n : Nat) (f : Fin n → α) (i : Fin n) : (vecOf n f).get i = f i := by
  simp only [vecOf, Vector.get, List.getElem_toArray, List.getElem_ofFn]
  rfl

theorem get_set {α : Type} {n : Nat} (v : Vector α n) (i : Nat) (hi : i < n) (x : α) (k : Fin n) :
    (v.set i x hi).get k = if i = k.val then x else v.get k := by
  show (v.set i x hi)[k.val] = _
  rw [Vector.getElem_set]
  rfl

end Sys2Proof.Machine
end

