-- ==== Sys2Proof/Laws/Exec.lean ====
section
/-! SUPPORT. The meaning `exec` gives each instruction. -/

namespace Sys2Proof.Machine

theorem exec_bundleIssue (core : Nat) (s : State) : exec (.bundleIssue core) s = execBundleIssue core s := rfl
theorem exec_resultLand (core : Nat) (s : State) : exec (.resultLand core) s = execResultLand core s := rfl
theorem exec_ringPushEffect (core : Nat) (s : State) : exec (.ringPushEffect core) s = execRingPushEffect core s := rfl
theorem exec_tokenComplete (core n : Nat) (s : State) : exec (.tokenComplete core n) s = execTokenComplete core n s := rfl
theorem exec_br (g : Guard) (off : BitVec 32) (s : State) : exec (.br g off) s = execBr g off s := rfl
theorem exec_call (g : Guard) (lnk : Dst 64) (off : BitVec 32) (s : State) : exec (.call g lnk off) s = execCall g lnk off s := rfl
theorem exec_bri (g : Guard) (a : Src 64) (s : State) : exec (.bri g a) s = execBri g a s := rfl
theorem exec_calli (g : Guard) (d : Dst 64) (a : Src 64) (s : State) : exec (.calli g d a) s = execCalli g d a s := rfl
theorem exec_ret (g : Guard) (a : Src 64) (s : State) : exec (.ret g a) s = execRet g a s := rfl
theorem exec_lsetup (k : Fin 4) (n : Fin 64) (off : BitVec 32) (s : State) : exec (.lsetup k n off) s = execLsetup k n off s := rfl
theorem exec_loop (k : Fin 4) (off : BitVec 32) (s : State) : exec (.loop k off) s = execLoop k off s := rfl
theorem exec_loopx (k : Fin 4) (off : BitVec 32) (s : State) : exec (.loopx k off) s = execLoopx k off s := rfl
theorem exec_ckpt (off : BitVec 32) (s : State) : exec (.ckpt off) s = execCkpt off s := rfl
theorem exec_check (p : Fin 16) (s : State) : exec (.check p) s = execCheck p s := rfl
theorem exec_abort (g : Guard) (s : State) : exec (.abort g) s = execAbort g s := rfl
theorem exec_gclr (a : Src 64) (s : State) : exec (.gclr a) s = execGclr a s := rfl
theorem exec_trap (g : Guard) (code : BitVec 23) (s : State) : exec (.trap g code) s = execTrap g code s := rfl
theorem exec_bkpt (g : Guard) (code : BitVec 23) (s : State) : exec (.bkpt g code) s = execBkpt g code s := rfl
theorem exec_halt (g : Guard) (s : State) : exec (.halt g) s = execHalt g s := rfl
theorem exec_srd (g : Guard) (d : Dst 64) (reg : BitVec 8) (piece : BitVec 4) (s : State) : exec (.srd g d reg piece) s = execSrd g d reg piece s := rfl
theorem exec_swr (g : Guard) (a : Src 64) (reg : BitVec 8) (piece : BitVec 4) (s : State) : exec (.swr g a reg piece) s = execSwr g a reg piece s := rfl
theorem exec_tswait (a : Src 64) (s : State) : exec (.tswait a) s = execTswait a s := rfl
theorem exec_iflush (a : Src 64) (s : State) : exec (.iflush a) s = execIflush a s := rfl
theorem exec_add (x : S2) (s : State) : exec (.add x) s = execAdd x s := rfl
theorem exec_sub (x : S2) (s : State) : exec (.sub x) s = execSub x s := rfl
theorem exec_and (x : S2) (s : State) : exec (.and x) s = execAnd x s := rfl
theorem exec_or (x : S2) (s : State) : exec (.or x) s = execOr x s := rfl
theorem exec_xor (x : S2) (s : State) : exec (.xor x) s = execXor x s := rfl
theorem exec_andn (x : S2) (s : State) : exec (.andn x) s = execAndn x s := rfl
theorem exec_orn (x : S2) (s : State) : exec (.orn x) s = execOrn x s := rfl
theorem exec_shl (x : S2) (s : State) : exec (.shl x) s = execShl x s := rfl
theorem exec_shr (x : S2) (s : State) : exec (.shr x) s = execShr x s := rfl
theorem exec_sra (x : S2) (s : State) : exec (.sra x) s = execSra x s := rfl
theorem exec_rotl (x : S2) (s : State) : exec (.rotl x) s = execRotl x s := rfl
theorem exec_rotr (x : S2) (s : State) : exec (.rotr x) s = execRotr x s := rfl
theorem exec_min (x : S2) (s : State) : exec (.min x) s = execMin x s := rfl
theorem exec_max (x : S2) (s : State) : exec (.max x) s = execMax x s := rfl
theorem exec_minn (x : S2) (s : State) : exec (.minn x) s = execMinn x s := rfl
theorem exec_maxn (x : S2) (s : State) : exec (.maxn x) s = execMaxn x s := rfl
theorem exec_clz (x : S1) (s : State) : exec (.clz x) s = execClz x s := rfl
theorem exec_ctz (x : S1) (s : State) : exec (.ctz x) s = execCtz x s := rfl
theorem exec_popc (x : S1) (s : State) : exec (.popc x) s = execPopc x s := rfl
theorem exec_brev (x : S1) (s : State) : exec (.brev x) s = execBrev x s := rfl
theorem exec_sxt (z : XSz) (x : S1) (s : State) : exec (.sxt z x) s = execSxt z x s := rfl
theorem exec_zxt (z : XSz) (x : S1) (s : State) : exec (.zxt z x) s = execZxt z x s := rfl
theorem exec_mov (x : S1) (s : State) : exec (.mov x) s = execMov x s := rfl
theorem exec_sel (x : S2) (c : Src 16) (s : State) : exec (.sel x c) s = execSel x c s := rfl
theorem exec_lea (x : S2) (sh : Fin 8) (s : State) : exec (.lea x sh) s = execLea x sh s := rfl
theorem exec_bfx (x : S2) (s : State) : exec (.bfx x) s = execBfx x s := rfl
theorem exec_bfi (x : S3) (s : State) : exec (.bfi x) s = execBfi x s := rfl
theorem exec_mul (x : S2) (s : State) : exec (.mul x) s = execMul x s := rfl
theorem exec_mulh (x : S2) (s : State) : exec (.mulh x) s = execMulh x s := rfl
theorem exec_mulhn (x : S2) (s : State) : exec (.mulhn x) s = execMulhn x s := rfl
theorem exec_div (x : S2) (s : State) : exec (.div x) s = execDiv x s := rfl
theorem exec_divn (x : S2) (s : State) : exec (.divn x) s = execDivn x s := rfl
theorem exec_rem (x : S2) (s : State) : exec (.rem x) s = execRem x s := rfl
theorem exec_remn (x : S2) (s : State) : exec (.remn x) s = execRemn x s := rfl
theorem exec_addi (x : S1) (imm : BitVec 23) (s : State) : exec (.addi x imm) s = execAddi x imm s := rfl
theorem exec_movi (g : Guard) (d : Dst 64) (imm : BitVec 32) (s : State) : exec (.movi g d imm) s = execMovi g d imm s := rfl
theorem exec_movhi (g : Guard) (d : Fin 64) (imm : BitVec 32) (s : State) : exec (.movhi g d imm) s = execMovhi g d imm s := rfl
theorem exec_cmp (cc : CC) (g : Guard) (d : Dst 16) (a b : Src 64) (s : State) : exec (.cmp cc g d a b) s = execCmp cc g d a b s := rfl
theorem exec_cmpImm (cc : CC) (g : Guard) (d : Dst 16) (a : Src 64) (imm : BitVec 23) (s : State) : exec (.cmpImm cc g d a imm) s = execCmpImm cc g d a imm s := rfl
theorem exec_pand (x : P2) (s : State) : exec (.pand x) s = execPand x s := rfl
theorem exec_por (x : P2) (s : State) : exec (.por x) s = execPor x s := rfl
theorem exec_pxor (x : P2) (s : State) : exec (.pxor x) s = execPxor x s := rfl
theorem exec_pandn (x : P2) (s : State) : exec (.pandn x) s = execPandn x s := rfl
theorem exec_pnot (x : P1) (s : State) : exec (.pnot x) s = execPnot x s := rfl
theorem exec_pfroms (g : Guard) (d : Dst 16) (a : Src 64) (s : State) : exec (.pfroms g d a) s = execPfroms g d a s := rfl
theorem exec_ptos (g : Guard) (d : Dst 64) (a : Src 16) (s : State) : exec (.ptos g d a) s = execPtos g d a s := rfl
theorem exec_vadd (x : V2) (s : State) : exec (.vadd x) s = execVadd x s := rfl
theorem exec_vsub (x : V2) (s : State) : exec (.vsub x) s = execVsub x s := rfl
theorem exec_vmul (x : V2) (s : State) : exec (.vmul x) s = execVmul x s := rfl
theorem exec_vmulh (x : V2) (s : State) : exec (.vmulh x) s = execVmulh x s := rfl
theorem exec_vmad (x : V3) (s : State) : exec (.vmad x) s = execVmad x s := rfl
theorem exec_vadds (x : V2) (s : State) : exec (.vadds x) s = execVadds x s := rfl
theorem exec_vsubs (x : V2) (s : State) : exec (.vsubs x) s = execVsubs x s := rfl
theorem exec_vmin (x : V2) (s : State) : exec (.vmin x) s = execVmin x s := rfl
theorem exec_vmax (x : V2) (s : State) : exec (.vmax x) s = execVmax x s := rfl
theorem exec_vabs (x : V1) (s : State) : exec (.vabs x) s = execVabs x s := rfl
theorem exec_vneg (x : V1) (s : State) : exec (.vneg x) s = execVneg x s := rfl
theorem exec_vand (x : V2) (s : State) : exec (.vand x) s = execVand x s := rfl
theorem exec_vor (x : V2) (s : State) : exec (.vor x) s = execVor x s := rfl
theorem exec_vxor (x : V2) (s : State) : exec (.vxor x) s = execVxor x s := rfl
theorem exec_vandn (x : V2) (s : State) : exec (.vandn x) s = execVandn x s := rfl
theorem exec_vshl (x : V2) (s : State) : exec (.vshl x) s = execVshl x s := rfl
theorem exec_vshr (x : V2) (s : State) : exec (.vshr x) s = execVshr x s := rfl
theorem exec_vsra (x : V2) (s : State) : exec (.vsra x) s = execVsra x s := rfl
theorem exec_vsel (x : V2) (c : Src 16) (s : State) : exec (.vsel x c) s = execVsel x c s := rfl
theorem exec_vcmp (cc : CC) (g : Guard) (ty : ITy) (d : Dst 16) (a b : Src 128) (s : State) : exec (.vcmp cc g ty d a b) s = execVcmp cc g ty d a b s := rfl
theorem exec_vbcast (x : VS) (s : State) : exec (.vbcast x) s = execVbcast x s := rfl
theorem exec_viota (x : VS) (s : State) : exec (.viota x) s = execViota x s := rfl
theorem exec_vextr (g : Guard) (ty : ITy) (d : Dst 64) (a : Src 128) (b : Src 64) (s : State) : exec (.vextr g ty d a b) s = execVextr g ty d a b s := rfl
theorem exec_vins (g : Guard) (ty : ITy) (d : Dst 128) (a : Src 128) (b c : Src 64) (s : State) : exec (.vins g ty d a b c) s = execVins g ty d a b c s := rfl
theorem exec_vperm (x : V2) (s : State) : exec (.vperm x) s = execVperm x s := rfl
theorem exec_vslide (x : V2) (c : Src 64) (s : State) : exec (.vslide x c) s = execVslide x c s := rfl
theorem exec_vzip (x : V2) (s : State) : exec (.vzip x) s = execVzip x s := rfl
theorem exec_vunzip (x : V2) (s : State) : exec (.vunzip x) s = execVunzip x s := rfl
theorem exec_vred (op : RedOp) (g : Guard) (ty : ITy) (d : Dst 64) (a : Src 128) (s : State) : exec (.vred op g ty d a) s = execVred op g ty d a s := rfl
theorem exec_vscan (op : RedOp) (x : V1) (s : State) : exec (.vscan op x) s = execVscan op x s := rfl
theorem exec_vfadd (x : F2) (s : State) : exec (.vfadd x) s = execVfadd x s := rfl
theorem exec_vfsub (x : F2) (s : State) : exec (.vfsub x) s = execVfsub x s := rfl
theorem exec_vfmul (x : F2) (s : State) : exec (.vfmul x) s = execVfmul x s := rfl
theorem exec_vfma (x : F3) (s : State) : exec (.vfma x) s = execVfma x s := rfl
theorem exec_vfms (x : F3) (s : State) : exec (.vfms x) s = execVfms x s := rfl
theorem exec_vfnma (x : F3) (s : State) : exec (.vfnma x) s = execVfnma x s := rfl
theorem exec_vfmin (x : F2) (s : State) : exec (.vfmin x) s = execVfmin x s := rfl
theorem exec_vfmax (x : F2) (s : State) : exec (.vfmax x) s = execVfmax x s := rfl
theorem exec_vfabs (x : F1) (s : State) : exec (.vfabs x) s = execVfabs x s := rfl
theorem exec_vfneg (x : F1) (s : State) : exec (.vfneg x) s = execVfneg x s := rfl
theorem exec_vfclass (x : F1) (s : State) : exec (.vfclass x) s = execVfclass x s := rfl
theorem exec_vfcmp (cc : FCC) (g : Guard) (ty : FTy) (d : Dst 16) (a b : Src 128) (s : State) : exec (.vfcmp cc g ty d a b) s = execVfcmp cc g ty d a b s := rfl
theorem exec_vfrcp (x : F1) (s : State) : exec (.vfrcp x) s = execVfrcp x s := rfl
theorem exec_vfrsq (x : F1) (s : State) : exec (.vfrsq x) s = execVfrsq x s := rfl
theorem exec_vfsqrt (x : F1) (s : State) : exec (.vfsqrt x) s = execVfsqrt x s := rfl
theorem exec_vexp2 (x : F1) (s : State) : exec (.vexp2 x) s = execVexp2 x s := rfl
theorem exec_vlog2 (x : F1) (s : State) : exec (.vlog2 x) s = execVlog2 x s := rfl
theorem exec_vfred (op : RedOp) (g : Guard) (ty : FTy) (rm : Rnd) (d : Dst 64) (a : Src 128) (s : State) : exec (.vfred op g ty rm d a) s = execVfred op g ty rm d a s := rfl
theorem exec_vcvt (x : CV) (s : State) : exec (.vcvt x) s = execVcvt x s := rfl
theorem exec_vquant (d : Dst 128) (a : Src 128) (f : MXF) (nr : Bool) (ring : Fin 16) (crm : Rnd) (s : State) : exec (.vquant d a f nr ring crm) s = execVquant d a f nr ring crm s := rfl
theorem exec_vquantF (d : Dst 128) (a : Src 128) (side : Bool) (k : Fin 4) (crm : Rnd) (s : State) : exec (.vquantF d a side k crm) s = execVquantF d a side k crm s := rfl
theorem exec_vdeq (g : Guard) (d : Dst 128) (a : Src 128) (f : MXF) (crm : Rnd) (s : State) : exec (.vdeq g d a f crm) s = execVdeq g d a f crm s := rfl
theorem exec_vamax (g : Guard) (ty : FTy) (a : Src 128) (ring : Fin 16) (s : State) : exec (.vamax g ty a ring) s = execVamax g ty a ring s := rfl
theorem exec_vamaxC (g : Guard) (ring : Fin 16) (s : State) : exec (.vamaxC g ring) s = execVamaxC g ring s := rfl
theorem exec_vpack (x : V2) (wrp : Bool) (s : State) : exec (.vpack x wrp) s = execVpack x wrp s := rfl
theorem exec_vunpack (x : V1) (part : Bool) (s : State) : exec (.vunpack x part) s = execVunpack x part s := rfl
theorem exec_ld (x : LD) (s : State) : exec (.ld x) s = execLd x s := rfl
theorem exec_ldG (x : LD) (s : State) : exec (.ldG x) s = execLdG x s := rfl
theorem exec_st (g : Guard) (a : StSrc) (m : MAddr) (buf : Fin 16) (s : State) : exec (.st g a m buf) s = execSt g a m buf s := rfl
theorem exec_lds (g : Guard) (z : ESz) (d : Dst 128) (a b : Src 64) (s : State) : exec (.lds g z d a b) s = execLds g z d a b s := rfl
theorem exec_sts (g : Guard) (z : ESz) (a b : Src 64) (c : Src 128) (s : State) : exec (.sts g z a b c) s = execSts g z a b c s := rfl
theorem exec_ldx (g : Guard) (z : ESz) (d : Dst 128) (a : Src 64) (b : Src 128) (s : State) : exec (.ldx g z d a b) s = execLdx g z d a b s := rfl
theorem exec_stx (g : Guard) (z : ESz) (a : Src 64) (b c : Src 128) (s : State) : exec (.stx g z a b c) s = execStx g z a b c s := rfl
theorem exec_ldg (x : LG) (s : State) : exec (.ldg x) s = execLdg x s := rfl
theorem exec_ldgG (x : LG) (s : State) : exec (.ldgG x) s = execLdgG x s := rfl
theorem exec_stg (x : SG) (s : State) : exec (.stg x) s = execStg x s := rfl
theorem exec_ldc (x : LG) (s : State) : exec (.ldc x) s = execLdc x s := rfl
theorem exec_stc (x : SG) (s : State) : exec (.stc x) s = execStc x s := rfl
theorem exec_pf (g : Guard) (m : MAddr) (lease : Option (Fin 8)) (buf : Fin 16) (s : State) : exec (.pf g m lease buf) s = execPf g m lease buf s := rfl
theorem exec_smap (g : Guard) (a b : Src 64) (size : Fin 7) (s : State) : exec (.smap g a b size) s = execSmap g a b size s := rfl
theorem exec_sunmap (g : Guard) (a : Src 64) (s : State) : exec (.sunmap g a) s = execSunmap g a s := rfl
theorem exec_sdrop (g : Guard) (a : Src 64) (s : State) : exec (.sdrop g a) s = execSdrop g a s := rfl
theorem exec_sflush (g : Guard) (m : MAddr) (tok : Fin 8) (buf : Fin 16) (s : State) : exec (.sflush g m tok buf) s = execSflush g m tok buf s := rfl
theorem exec_qbind (g : Guard) (q : Fin 8) (m : MAddr) (s : State) : exec (.qbind g q m) s = execQbind g q m s := rfl
theorem exec_qunbind (g : Guard) (q : Fin 8) (s : State) : exec (.qunbind g q) s = execQunbind g q s := rfl
theorem exec_qstat (g : Guard) (d : Dst 64) (q : Fin 8) (s : State) : exec (.qstat g d q) s = execQstat g d q s := rfl
theorem exec_qflush (g : Guard) (q : Fin 8) (s : State) : exec (.qflush g q) s = execQflush g q s := rfl
theorem exec_streamFetch (core : Nat) (q : Fin 8) (s : State) : exec (.streamFetch core q) s = execStreamFetch core q s := rfl
theorem exec_streamWrite (core : Nat) (q : Fin 8) (s : State) : exec (.streamWrite core q) s = execStreamWrite core q s := rfl
theorem exec_aadd (x : AT) (s : State) : exec (.aadd x) s = execAadd x s := rfl
theorem exec_amin (x : AT) (s : State) : exec (.amin x) s = execAmin x s := rfl
theorem exec_amax (x : AT) (s : State) : exec (.amax x) s = execAmax x s := rfl
theorem exec_aminn (x : AT) (s : State) : exec (.aminn x) s = execAminn x s := rfl
theorem exec_amaxn (x : AT) (s : State) : exec (.amaxn x) s = execAmaxn x s := rfl
theorem exec_aand (x : AT) (s : State) : exec (.aand x) s = execAand x s := rfl
theorem exec_aor (x : AT) (s : State) : exec (.aor x) s = execAor x s := rfl
theorem exec_axor (x : AT) (s : State) : exec (.axor x) s = execAxor x s := rfl
theorem exec_axchg (x : AT) (s : State) : exec (.axchg x) s = execAxchg x s := rfl
theorem exec_acas (x : AT) (s : State) : exec (.acas x) s = execAcas x s := rfl
theorem exec_afadd (x : AT) (s : State) : exec (.afadd x) s = execAfadd x s := rfl
theorem exec_atomicOrd (op : AOp) (x : AT) (s : State) : exec (.atomicOrd op x) s = execAtomicOrd op x s := rfl
theorem exec_orderedAtomicApply (slice : Nat) (s : State) : exec (.orderedAtomicApply slice) s = execOrderedAtomicApply slice s := rfl
theorem exec_orderedAtomicArrival (slice n : Nat) (s : State) : exec (.orderedAtomicArrival slice n) s = execOrderedAtomicArrival slice n s := rfl
theorem exec_orderedAtomicRetry (slice n : Nat) (s : State) : exec (.orderedAtomicRetry slice n) s = execOrderedAtomicRetry slice n s := rfl
theorem exec_acq (g : Guard) (d : Option (Fin 64)) (m : MAddr) (tok : Fin 8) (s : State) : exec (.acq g d m tok) s = execAcq g d m tok s := rfl
theorem exec_rel (x : RL) (s : State) : exec (.rel x) s = execRel x s := rfl
theorem exec_relf (x : RL) (s : State) : exec (.relf x) s = execRelf x s := rfl
theorem exec_fence (g : Guard) (tok : Fin 8) (s : State) : exec (.fence g tok) s = execFence g tok s := rfl
theorem exec_fencex (g : Guard) (tok : Fin 8) (s : State) : exec (.fencex g tok) s = execFencex g tok s := rfl
theorem exec_cwaddAdd (x : CW) (s : State) : exec (.cwaddAdd x) s = execCwaddAdd x s := rfl
theorem exec_cwaddArrive (x : CW) (s : State) : exec (.cwaddArrive x) s = execCwaddArrive x s := rfl
theorem exec_cwaddRead (x : CW) (s : State) : exec (.cwaddRead x) s = execCwaddRead x s := rfl
theorem exec_waitcw (g : Guard) (r : Fin 64) (m : MAddr) (s : State) : exec (.waitcw g r m) s = execWaitcw g r m s := rfl
theorem exec_sscan (x : EC) (s : State) : exec (.sscan x) s = execSscan x s := rfl
theorem exec_cpy (x : EC) (s : State) : exec (.cpy x) s = execCpy x s := rfl
theorem exec_cpyr (x : EC) (s : State) : exec (.cpyr x) s = execCpyr x s := rfl
theorem exec_mcast (x : EC) (s : State) : exec (.mcast x) s = execMcast x s := rfl
theorem exec_gath (x : EC) (s : State) : exec (.gath x) s = execGath x s := rfl
theorem exec_scat (x : EC) (s : State) : exec (.scat x) s = execScat x s := rfl
theorem exec_coll (x : EC) (s : State) : exec (.coll x) s = execColl x s := rfl
theorem exec_gnode (x : EC) (s : State) : exec (.gnode x) s = execGnode x s := rfl
theorem exec_engineCommandStart (id : Nat) (s : State) : exec (.engineCommandStart id) s = execEngineCommandStart id s := rfl
theorem exec_engineItemComplete (id item : Nat) (s : State) : exec (.engineItemComplete id item) s = execEngineItemComplete id item s := rfl
theorem exec_sscanComplete (id : Nat) (s : State) : exec (.sscanComplete id) s = execSscanComplete id s := rfl
theorem exec_collComplete (run : CollRun) (s : State) : exec (.collComplete run) s = execCollComplete run s := rfl
theorem exec_mpush (g : Guard) (pt : Fin 8) (a : Src 128) (s : State) : exec (.mpush g pt a) s = execMpush g pt a s := rfl
theorem exec_macc (g : Guard) (bank : Fin 4) (cls : Bool) (f : MFmt) (a b : Option (Src 128)) (s : State) : exec (.macc g bank cls f a b) s = execMacc g bank cls f a b s := rfl
theorem exec_mshiftEdge (g : Guard) (a : Src 128) (s : State) : exec (.mshiftEdge g a) s = execMshiftEdge g a s := rfl
theorem exec_mshiftBank (g : Guard) (bank : Fin 4) (s : State) : exec (.mshiftBank g bank) s = execMshiftBank g bank s := rfl
theorem exec_mdrain (g : Guard) (d : Dst 128) (bank : Fin 4) (ty : FTy) (rm : Rnd) (row : Fin 16) (s : State) : exec (.mdrain g d bank ty rm row) s = execMdrain g d bank ty rm row s := rfl
theorem exec_mclr (g : Guard) (bank : Fin 4) (ca : Bool) (s : State) : exec (.mclr g bank ca) s = execMclr g bank ca s := rfl
theorem exec_msel (g : Guard) (md ms : Fin 4) (xch : Bool) (s : State) : exec (.msel g md ms xch) s = execMsel g md ms xch s := rfl
theorem exec_rollback (core : Nat) (cause : Fin 16) (s : State) : exec (.rollback core cause) s = execRollback core cause s := rfl
theorem exec_rollbackComplete (core : Nat) (s : State) : exec (.rollbackComplete core) s = execRollbackComplete core s := rfl
theorem exec_regionStepLimit (core : Nat) (s : State) : exec (.regionStepLimit core) s = execRegionStepLimit core s := rfl
theorem exec_commitDrainComplete (core : Nat) (s : State) : exec (.commitDrainComplete core) s = execCommitDrainComplete core s := rfl
theorem exec_uncorrectableError (core : Nat) (site : ErrSite) (slot : Fin 8) (s : State) : exec (.uncorrectableError core site slot) s = execUncorrectableError core site slot s := rfl
theorem exec_rerunOutcome (core : Nat) (s : State) : exec (.rerunOutcome core) s = execRerunOutcome core s := rfl
theorem exec_launchDispatch (die : Fin 4) (s : State) : exec (.launchDispatch die) s = execLaunchDispatch die s := rfl
theorem exec_taskBind (core : Nat) (s : State) : exec (.taskBind core) s = execTaskBind core s := rfl
theorem exec_nodeComplete (launch node : Nat) (s : State) : exec (.nodeComplete launch node) s = execNodeComplete launch node s := rfl
theorem exec_nodeFail (launch node : Nat) (cause : BitVec 8) (s : State) : exec (.nodeFail launch node cause) s = execNodeFail launch node cause s := rfl
theorem exec_waitNodeSatisfied (launch node : Nat) (s : State) : exec (.waitNodeSatisfied launch node) s = execWaitNodeSatisfied launch node s := rfl
theorem exec_waitingTaskReady (task : Nat) (s : State) : exec (.waitingTaskReady task) s = execWaitingTaskReady task s := rfl
theorem exec_priority15Preempt (task : Nat) (s : State) : exec (.priority15Preempt task) s = execPriority15Preempt task s := rfl
theorem exec_yieldOverrun (core : Nat) (s : State) : exec (.yieldOverrun core) s = execYieldOverrun core s := rfl
theorem exec_taskSave (core : Nat) (why : SaveWhy) (s : State) : exec (.taskSave core why) s = execTaskSave core why s := rfl
theorem exec_taskRestore (core task : Nat) (s : State) : exec (.taskRestore core task) s = execTaskRestore core task s := rfl
theorem exec_savedCommandComplete (id : Nat) (s : State) : exec (.savedCommandComplete id) s = execSavedCommandComplete id s := rfl
theorem exec_migrationRequest (ktt vbase : Nat) (tick pkg src : Nat) (s : State) : exec (.migrationRequest ktt vbase tick pkg src) s = execMigrationRequest ktt vbase tick pkg src s := rfl
theorem exec_migrationReply (ktt vbase : Nat) (s : State) : exec (.migrationReply ktt vbase) s = execMigrationReply ktt vbase s := rfl
theorem exec_dfcmdQuery (die : Fin 4) (dom : BitVec 12) (s : State) : exec (.dfcmdQuery die dom) s = execDfcmdQuery die dom s := rfl
theorem exec_dfcmdResume (die : Fin 4) (dom : BitVec 12) (s : State) : exec (.dfcmdResume die dom) s = execDfcmdResume die dom s := rfl
theorem exec_dfcmdCancel (die : Fin 4) (dom : BitVec 12) (s : State) : exec (.dfcmdCancel die dom) s = execDfcmdCancel die dom s := rfl
theorem exec_ddbgStop (die : Fin 4) (slot : BitVec 12) (s : State) : exec (.ddbgStop die slot) s = execDdbgStop die slot s := rfl
theorem exec_ddbgStep (die : Fin 4) (slot : BitVec 12) (s : State) : exec (.ddbgStep die slot) s = execDdbgStep die slot s := rfl
theorem exec_ddbgResume (die : Fin 4) (slot : BitVec 12) (s : State) : exec (.ddbgResume die slot) s = execDdbgResume die slot s := rfl
theorem exec_dcfgWrite (die : Fin 4) (v : Word) (s : State) : exec (.dcfgWrite die v) s = execDcfgWrite die v s := rfl
theorem exec_dcfgApply (die : Fin 4) (s : State) : exec (.dcfgApply die) s = execDcfgApply die s := rfl
theorem exec_dmrtWrite (die : Fin 4) (v : Word) (s : State) : exec (.dmrtWrite die v) s = execDmrtWrite die v s := rfl
theorem exec_dmrtApply (die : Fin 4) (s : State) : exec (.dmrtApply die) s = execDmrtApply die s := rfl
theorem exec_domeReadingStart (die : Fin 4) (v : Word) (s : State) : exec (.domeReadingStart die v) s = execDomeReadingStart die v s := rfl
theorem exec_domeReading (die : Fin 4) (s : State) : exec (.domeReading die) s = execDomeReading die s := rfl
theorem exec_measurementClear (core : Nat) (s : State) : exec (.measurementClear core) s = execMeasurementClear core s := rfl
theorem exec_registerWrite (r : DevReg) (v : Word) (s : State) : exec (.registerWrite r v) s = execRegisterWrite r v s := rfl
theorem exec_rotationPeriodBoundary (core : Nat) (s : State) : exec (.rotationPeriodBoundary core) s = execRotationPeriodBoundary core s := rfl
theorem exec_counterSample (core : Nat) (n : Fin 16) (slot : BitVec 4) (s : State) : exec (.counterSample core n slot) s = execCounterSample core n slot s := rfl
theorem exec_traceRecord (core : Nat) (k : TraceKind) (s : State) : exec (.traceRecord core k) s = execTraceRecord core k s := rfl
theorem exec_belfryBeaconReceive (port : Fin 32) (pkg : Nat) (v : Word) (s : State) : exec (.belfryBeaconReceive port pkg v) s = execBelfryBeaconReceive port pkg v s := rfl
theorem exec_regionMerge (base : Nat) (s : State) : exec (.regionMerge base) s = execRegionMerge base s := rfl
theorem exec_homeRequest (cluster : Nat) (key : Nat) (own : Bool) (s : State) : exec (.homeRequest cluster key own) s = execHomeRequest cluster key own s := rfl
theorem exec_snoopConflict (first second : SnoopReq) (key : Nat) (s : State) : exec (.snoopConflict first second key) s = execSnoopConflict first second key s := rfl
theorem exec_homeMaskedWrite (cluster : Nat) (key : Nat) (s : State) : exec (.homeMaskedWrite cluster key) s = execHomeMaskedWrite cluster key s := rfl
theorem exec_l2Eviction (cluster : Nat) (key : Nat) (s : State) : exec (.l2Eviction cluster key) s = execL2Eviction cluster key s := rfl
theorem exec_l2Invalidate (cluster : Nat) (key : Nat) (s : State) : exec (.l2Invalidate cluster key) s = execL2Invalidate cluster key s := rfl
theorem exec_coreWriteback (core : Nat) (key : Nat) (evict : Bool) (s : State) : exec (.coreWriteback core key evict) s = execCoreWriteback core key evict s := rfl
theorem exec_lineFillComplete (core : Nat) (key : Nat) (s : State) : exec (.lineFillComplete core key) s = execLineFillComplete core key s := rfl
theorem exec_stashFillComplete (core : Nat) (s : State) : exec (.stashFillComplete core) s = execStashFillComplete core s := rfl
theorem exec_instanceDisabled (core : Nat) (unit : Fin 8) (s : State) : exec (.instanceDisabled core unit) s = execInstanceDisabled core unit s := rfl
theorem exec_stashWritebackAcknowledged (core : Nat) (s : State) : exec (.stashWritebackAcknowledged core) s = execStashWritebackAcknowledged core s := rfl
theorem exec_hostMemWrite (die : Fin 4) (window : Bool) (addr : Nat) (data : List Byte) (s : State) : exec (.hostMemWrite die window addr data) s = execHostMemWrite die window addr data s := rfl
theorem exec_hostMemRead (die : Fin 4) (window : Bool) (addr n : Nat) (s : State) : exec (.hostMemRead die window addr n) s = execHostMemRead die window addr n s := rfl
theorem exec_flitReceive (module : Fin 4) (seq : Nat) (crcGood : Bool) (flit : Flit) (s : State) : exec (.flitReceive module seq crcGood flit) s = execFlitReceive module seq crcGood flit s := rfl
theorem exec_linkReplay (module : Fin 4) (s : State) : exec (.linkReplay module) s = execLinkReplay module s := rfl
theorem exec_laneFail (module : Fin 4) (s : State) : exec (.laneFail module) s = execLaneFail module s := rfl
theorem exec_moduleRetrainEnd (module : Fin 4) (ok : Bool) (s : State) : exec (.moduleRetrainEnd module ok) s = execModuleRetrainEnd module ok s := rfl
theorem exec_packetReceive (flow : PortFlow) (seq : BitVec 16) (incarnation : Byte) (req : FarReq) (s : State) : exec (.packetReceive flow seq incarnation req) s = execPacketReceive flow seq incarnation req s := rfl
theorem exec_packetRetry (flow : PortFlow) (s : State) : exec (.packetRetry flow) s = execPacketRetry flow s := rfl
theorem exec_portFail (loss : PortLoss) (s : State) : exec (.portFail loss) s = execPortFail loss s := rfl
theorem exec_agentDeclaredDead (agent : Nat) (s : State) : exec (.agentDeclaredDead agent) s = execAgentDeclaredDead agent s := rfl
theorem exec_throttleStall (core cycles : Nat) (s : State) : exec (.throttleStall core cycles) s = execThrottleStall core cycles s := rfl
theorem exec_nop (s : State) : exec (.nop) s = execNop s := rfl
theorem exec_commit (s : State) : exec (.commit) s = execCommit s := rfl
theorem exec_iflushAll (s : State) : exec (.iflushAll) s = execIflushAll s := rfl
theorem exec_belfryBeaconSend (s : State) : exec (.belfryBeaconSend) s = execBelfryBeaconSend s := rfl
theorem exec_coldReset (s : State) : exec (.coldReset) s = execColdReset s := rfl
theorem exec_warmReset (s : State) : exec (.warmReset) s = execWarmReset s := rfl
theorem exec_belfryStepAdvance (s : State) : exec (.belfryStepAdvance) s = execBelfryStepAdvance s := rfl

end Sys2Proof.Machine
end

