-- ==== Sys2Proof/Laws/Mem.lean ====
section
/-! SUPPORT. Byte memory: every operation keeps the canonical form, what a read gives after each, and equal contents are
equal data (log entry 5). -/

namespace Sys2Proof.Machine

open Host

/-! ## The canonical form -/

theorem Mem.wfFrom_mono {lo lo' : Nat} {m : List Cell} (h : Mem.wfFrom lo m = true) (hl : lo' ≤ lo) :
    Mem.wfFrom lo' m = true := by
  cases m with
  | nil => rfl
  | cons c r =>
    simp only [Mem.wfFrom, Bool.and_eq_true, decide_eq_true_eq] at h ⊢
    exact ⟨⟨by omega, h.1.2⟩, h.2⟩

theorem Mem.wfFrom_put {lo : Nat} {m : List Cell} (a : Nat) (x : Byte) (h : Mem.wfFrom lo m = true) (ha : lo ≤ a) :
    Mem.wfFrom lo (Mem.put m a x) = true := by
  induction m generalizing lo with
  | nil => by_cases hx : x = 0#8 <;> simp_all [Mem.put, Mem.wfFrom]
  | cons c r ih =>
    obtain ⟨k, b⟩ := c
    simp only [Mem.wfFrom, Bool.and_eq_true, decide_eq_true_eq] at h
    obtain ⟨⟨hk, hb⟩, hr⟩ := h
    unfold Mem.put
    split
    · split
      · exact Mem.wfFrom_mono hr (by omega)
      · simp_all [Mem.wfFrom]
    · split
      · split
        · simp_all [Mem.wfFrom]
        · simp_all [Mem.wfFrom] <;> omega
      · simp only [Mem.wfFrom, Bool.and_eq_true, decide_eq_true_eq]
        exact ⟨⟨hk, hb⟩, ih hr (by omega)⟩

theorem Mem.wf_put {m : List Cell} (a : Nat) (x : Byte) (h : Mem.wf m = true) : Mem.wf (Mem.put m a x) = true :=
  Mem.wfFrom_put a x h (Nat.zero_le a)

theorem Mem.wf_putBytes {m : List Cell} (a : Nat) (l : List Byte) (h : Mem.wf m = true) :
    Mem.wf (Mem.putBytes m a l) = true := by
  induction l generalizing m a with
  | nil => exact h
  | cons b r ih => exact ih (a + 1) (Mem.wf_put a b h)

theorem Mem.wf_paste {m : List Cell} (a : Nat) (l : List Cell) (h : Mem.wf m = true) :
    Mem.wf (Mem.paste m a l) = true := by
  induction l generalizing m with
  | nil => exact h
  | cons c r ih => exact ih (Mem.wf_put _ _ h)

theorem Mem.wfFrom_filter {lo : Nat} {m : List Cell} (p : Cell → Bool) (h : Mem.wfFrom lo m = true) :
    Mem.wfFrom lo (m.filter p) = true := by
  induction m generalizing lo with
  | nil => rfl
  | cons c r ih =>
    simp only [Mem.wfFrom, Bool.and_eq_true, decide_eq_true_eq] at h
    by_cases hp : p c = true
    · rw [List.filter_cons_of_pos hp]
      simp only [Mem.wfFrom, Bool.and_eq_true, decide_eq_true_eq]
      exact ⟨h.1, ih h.2⟩
    · rw [List.filter_cons_of_neg hp]
      exact Mem.wfFrom_mono (ih h.2) (by omega)

theorem Mem.wf_drop {m : List Cell} (a n : Nat) (h : Mem.wf m = true) : Mem.wf (Mem.drop m a n) = true :=
  Mem.wfFrom_filter _ h

theorem Mem.wf_foldl_put {α : Type} (f : List Cell → α → List Cell) (l : List α)
    (hf : ∀ m x, Mem.wf m = true → Mem.wf (f m x) = true) {m : List Cell} (h : Mem.wf m = true) :
    Mem.wf (l.foldl f m) = true := by
  induction l generalizing m with
  | nil => exact h
  | cons x r ih => exact ih (hf m x h)

/-! ## Splitting a memory at an address -/

theorem Mem.below_append_skip (m : List Cell) (a : Nat) : Mem.below m a ++ Mem.skip m a = m := by
  induction m with
  | nil => rfl
  | cons c r ih =>
    obtain ⟨k, b⟩ := c
    by_cases h : k < a <;> simp [Mem.below, Mem.skip, h, ih]

theorem Mem.wfFrom_skip {lo : Nat} {m : List Cell} (a : Nat) (h : Mem.wfFrom lo m = true) :
    Mem.wfFrom a (Mem.skip m a) = true := by
  induction m generalizing lo with
  | nil => rfl
  | cons c r ih =>
    obtain ⟨k, b⟩ := c
    simp only [Mem.wfFrom, Bool.and_eq_true, decide_eq_true_eq] at h
    by_cases hk : k < a
    · simp only [Mem.skip, hk, if_true]
      exact ih h.2
    · simp only [Mem.skip, hk, if_false, Mem.wfFrom, Bool.and_eq_true, decide_eq_true_eq]
      exact ⟨⟨by omega, h.1.2⟩, h.2⟩

theorem Mem.wfFrom_below_append {lo : Nat} {m h : List Cell} (a : Nat) (hm : Mem.wfFrom lo m = true)
    (hh : Mem.wfFrom a h = true) (ha : lo ≤ a) : Mem.wfFrom lo (Mem.below m a ++ h) = true := by
  induction m generalizing lo with
  | nil => exact Mem.wfFrom_mono hh ha
  | cons c r ih =>
    obtain ⟨k, b⟩ := c
    simp only [Mem.wfFrom, Bool.and_eq_true, decide_eq_true_eq] at hm
    by_cases hk : k < a
    · simp only [Mem.below, hk, if_true, List.cons_append, Mem.wfFrom, Bool.and_eq_true, decide_eq_true_eq]
      exact ⟨hm.1, ih hm.2 (by omega)⟩
    · simp only [Mem.below, hk, if_false, List.nil_append]
      exact Mem.wfFrom_mono hh ha

/-- The bytes `putSome` writes, from a tail that starts at its address. -/
theorem Mem.wfFrom_fill {a : Nat} {h : List Cell} (f : Nat → Option Byte) (l : List Nat) (hh : Mem.wfFrom a h = true) :
    Mem.wfFrom a (l.foldl (fun h i => Mem.putOpt h (a + i) (f i)) h) = true := by
  induction l generalizing h with
  | nil => exact hh
  | cons i r ih =>
    refine ih ?_
    show Mem.wfFrom a (Mem.putOpt h (a + i) (f i)) = true
    cases f i with
    | none => exact hh
    | some b => exact Mem.wfFrom_put _ _ hh (Nat.le_add_right a i)

theorem Mem.wf_putSome {m : List Cell} (a n : Nat) (f : Nat → Option Byte) (h : Mem.wf m = true) :
    Mem.wf (Mem.putSome m a n f) = true :=
  Mem.wfFrom_below_append a h (Mem.wfFrom_fill f _ (Mem.wfFrom_skip a h)) (Nat.zero_le a)

/-! ## Reads -/

theorem Mem.get_of_lt {lo a : Nat} {m : List Cell} (h : Mem.wfFrom lo m = true) (ha : a < lo) : Mem.get m a = 0 := by
  cases m with
  | nil => rfl
  | cons c r =>
    obtain ⟨k, b⟩ := c
    simp only [Mem.wfFrom, Bool.and_eq_true, decide_eq_true_eq] at h
    have h1 : ¬ a = k := by omega
    have h2 : a < k := by omega
    simp [Mem.get, h1, h2]

/-- A read after a write. -/
theorem Mem.get_put {lo : Nat} {m : List Cell} (a c : Nat) (x : Byte) (h : Mem.wfFrom lo m = true) :
    Mem.get (Mem.put m a x) c = if c = a then x else Mem.get m c := by
  induction m generalizing lo with
  | nil =>
    by_cases hx : x = 0#8 <;> by_cases hc : c = a <;> by_cases hlt : c < a <;> simp [Mem.put, Mem.get, hx, hc, hlt]
  | cons d r ih =>
    obtain ⟨k, b⟩ := d
    simp only [Mem.wfFrom, Bool.and_eq_true, decide_eq_true_eq] at h
    obtain ⟨⟨hk, hb⟩, hr⟩ := h
    have hlow : ∀ e, e ≤ k → Mem.get r e = 0 := fun e he => Mem.get_of_lt hr (by omega)
    have ih' := ih hr
    unfold Mem.put
    by_cases hak : a = k
    · subst hak
      by_cases hx : x = 0#8
      · by_cases hc : c = a
        · simp [hx, hc, hlow a (Nat.le_refl a)]
        · by_cases hlt : c < a
          · simp [hx, hc, Mem.get, hlt, hlow c (by omega)]
          · simp [hx, hc, Mem.get, hlt]
      · by_cases hc : c = a <;> by_cases hlt : c < a <;> simp [hx, hc, Mem.get, hlt]
    · by_cases hlt : a < k
      · by_cases hx : x = 0#8
        · by_cases hc : c = a
          · subst hc; simp [hx, hak, hlt, Mem.get]
          · simp [hx, hak, hlt, hc]
        · by_cases hc : c = a
          · subst hc; simp [hx, hak, hlt, Mem.get]
          · by_cases hc2 : c < a
            · have h3 : ¬ c = k := by omega
              have h4 : c < k := by omega
              simp [hx, hak, hlt, hc, Mem.get, hc2, h3, h4]
            · simp [hx, hak, hlt, hc, Mem.get, hc2]
      · by_cases hc : c = a
        · subst hc
          simp [hak, hlt, Mem.get, ih']
        · by_cases hck : c = k
          · subst hck; simp [hak, hlt, Mem.get, hc]
          · simp [hak, hlt, Mem.get, hc, hck, ih']

theorem Mem.get_putBytes {m : List Cell} (a c : Nat) (l : List Byte) (h : Mem.wf m = true) :
    Mem.get (Mem.putBytes m a l) c = if a ≤ c ∧ c < a + l.length then l.getD (c - a) 0 else Mem.get m c := by
  induction l generalizing m a with
  | nil => rw [if_neg (by simp only [List.length_nil]; omega)]; rfl
  | cons b r ih =>
    rw [Mem.putBytes, ih (a + 1) (Mem.wf_put a b h), Mem.get_put a c b h, List.length_cons]
    by_cases h1 : c = a
    · subst h1
      have h2 : ¬ (c + 1 ≤ c ∧ c < c + 1 + r.length) := by omega
      simp [h2]
    · by_cases h2 : a + 1 ≤ c ∧ c < a + 1 + r.length
      · have h3 : a ≤ c ∧ c < a + (r.length + 1) := by omega
        have h4 : c - a = (c - (a + 1)) + 1 := by omega
        simp [h2, h3, h4]
      · have h3 : ¬ (a ≤ c ∧ c < a + (r.length + 1)) := by omega
        rw [if_neg h2, if_neg h1, if_neg h3]

theorem Mem.get_skip {lo : Nat} {m : List Cell} (a c : Nat) (h : Mem.wfFrom lo m = true) (hc : a ≤ c) :
    Mem.get (Mem.skip m a) c = Mem.get m c := by
  induction m generalizing lo with
  | nil => rfl
  | cons d r ih =>
    obtain ⟨k, b⟩ := d
    simp only [Mem.wfFrom, Bool.and_eq_true, decide_eq_true_eq] at h
    by_cases hk : k < a
    · have h1 : ¬ c = k := by omega
      have h2 : ¬ c < k := by omega
      simp [Mem.skip, hk, Mem.get, h1, h2, ih h.2]
    · simp [Mem.skip, hk]

/-- A range read at once is its bytes read one by one. -/
theorem Mem.getBytes_eq {lo : Nat} {m : List Cell} (a n : Nat) (h : Mem.wfFrom lo m = true) :
    Mem.getBytes m a n = (List.range n).map fun i => Mem.get m (a + i) := by
  induction n generalizing m a lo with
  | zero => rfl
  | succ n ih =>
    have hs := Mem.wfFrom_skip a h
    rw [Mem.getBytes, ih (a + 1) hs, List.range_succ_eq_map, List.map_cons, List.map_map, Nat.add_zero,
      Mem.get_skip a a h (Nat.le_refl a)]
    congr 1
    apply List.map_congr_left
    intro i _
    rw [Mem.get_skip a (a + 1 + i) h (by omega)]
    simp only [Function.comp_apply]
    congr 1
    omega

theorem Mem.get_below_append {lo : Nat} {m h : List Cell} (a c : Nat) (hm : Mem.wfFrom lo m = true)
    (hh : Mem.wfFrom a h = true) :
    Mem.get (Mem.below m a ++ h) c = if a ≤ c then Mem.get h c else Mem.get m c := by
  induction m generalizing lo with
  | nil =>
    by_cases hc : a ≤ c
    · simp [Mem.below, hc]
    · simp [Mem.below, hc, Mem.get, Mem.get_of_lt hh (show c < a by omega)]
  | cons d r ih =>
    obtain ⟨k, b⟩ := d
    simp only [Mem.wfFrom, Bool.and_eq_true, decide_eq_true_eq] at hm
    by_cases hk : k < a
    · simp only [Mem.below, hk, if_true, List.cons_append, Mem.get]
      by_cases hc : a ≤ c
      · have h1 : ¬ c = k := by omega
        have h2 : ¬ c < k := by omega
        simp [h1, h2, ih hm.2, hc]
      · simp only [ih hm.2, hc, if_false]
    · simp only [Mem.below, hk, if_false, List.nil_append]
      by_cases hc : a ≤ c
      · simp [hc]
      · have h1 : ¬ c = k := by omega
        have h2 : c < k := by omega
        simp [hc, Mem.get, h1, h2, Mem.get_of_lt hh (show c < a by omega)]

theorem Mem.get_putOpt {lo : Nat} {m : List Cell} (a c : Nat) (o : Option Byte) (h : Mem.wfFrom lo m = true) :
    Mem.get (Mem.putOpt m a o) c = if c = a then o.getD (Mem.get m c) else Mem.get m c := by
  cases o with
  | none => simp [Mem.putOpt]
  | some b => rw [Mem.putOpt, Mem.get_put a c b h]; rfl

theorem Mem.get_fill {a : Nat} {h : List Cell} (f : Nat → Option Byte) (n c : Nat) (hh : Mem.wfFrom a h = true) :
    Mem.get ((List.range n).foldl (fun h i => Mem.putOpt h (a + i) (f i)) h) c =
      if a ≤ c ∧ c < a + n then (f (c - a)).getD (Mem.get h c) else Mem.get h c := by
  induction n with
  | zero => rw [if_neg (by omega)]; rfl
  | succ n ih =>
    rw [List.range_succ, List.foldl_append, List.foldl_cons, List.foldl_nil,
      Mem.get_putOpt _ _ _ (Mem.wfFrom_fill (a := a) f (List.range n) hh), ih]
    by_cases hn : c = a + n
    · have h2 : ¬ (a ≤ c ∧ c < a + n) := by omega
      have h3 : c - a = n := by omega
      rw [if_pos hn, if_neg h2, if_pos (by omega), h3]
    · rw [if_neg hn]
      have h4 : (a ≤ c ∧ c < a + (n + 1)) ↔ (a ≤ c ∧ c < a + n) := by omega
      simp only [h4]

theorem Mem.get_putSome {m : List Cell} (a n c : Nat) (f : Nat → Option Byte) (h : Mem.wf m = true) :
    Mem.get (Mem.putSome m a n f) c =
      if a ≤ c ∧ c < a + n then (f (c - a)).getD (Mem.get m c) else Mem.get m c := by
  have hs := Mem.wfFrom_skip a h
  rw [Mem.putSome, Mem.get_below_append a c h (Mem.wfFrom_fill f _ hs), Mem.get_fill f n c hs]
  by_cases hc : a ≤ c
  · by_cases hd : a ≤ c ∧ c < a + n
    · simp [hc, Mem.get_skip a c h hc]
    · simp [hd, Mem.get_skip a c h hc]
  · have hd : ¬ (a ≤ c ∧ c < a + n) := by omega
    simp [hc]

theorem Mem.get_drop {lo : Nat} {m : List Cell} (a n c : Nat) (h : Mem.wfFrom lo m = true) :
    Mem.get (Mem.drop m a n) c = if a ≤ c ∧ c < a + n then 0 else Mem.get m c := by
  induction m generalizing lo with
  | nil => simp [Mem.drop, Mem.get]
  | cons d r ih =>
    obtain ⟨k, b⟩ := d
    simp only [Mem.wfFrom, Bool.and_eq_true, decide_eq_true_eq] at h
    have ih' := ih h.2
    have hz : c < k + 1 → Mem.get r c = 0 := fun hc => Mem.get_of_lt h.2 hc
    unfold Mem.drop at ih' ⊢
    by_cases hk : k < a ∨ a + n ≤ k
    · rw [List.filter_cons_of_pos (by simpa using hk)]
      by_cases h1 : c = k
      · have h2 : ¬ (a ≤ c ∧ c < a + n) := by omega
        simp [Mem.get, h1, h1 ▸ h2]
      · by_cases h2 : c < k
        · simp [Mem.get, h1, h2]
        · simp [Mem.get, h1, h2, ih']
    · rw [List.filter_cons_of_neg (by simpa using hk), ih']
      by_cases h1 : a ≤ c ∧ c < a + n
      · simp [h1]
      · have h2 : ¬ c = k := by omega
        by_cases h3 : c < k
        · simp [h1, h2, h3, Mem.get, hz (by omega)]
        · simp [h1, h2, h3, Mem.get]

/-! ## Equal contents are equal data -/

theorem Mem.ext {lo : Nat} {m n : List Cell} (hm : Mem.wfFrom lo m = true) (hn : Mem.wfFrom lo n = true)
    (h : ∀ a, Mem.get m a = Mem.get n a) : m = n := by
  induction m generalizing lo n with
  | nil =>
    cases n with
    | nil => rfl
    | cons d r =>
      obtain ⟨k, b⟩ := d
      simp only [Mem.wfFrom, Bool.and_eq_true, decide_eq_true_eq] at hn
      have := h k
      simp [Mem.get] at this
      exact absurd this.symm hn.1.2
  | cons c r ih =>
    obtain ⟨k, b⟩ := c
    simp only [Mem.wfFrom, Bool.and_eq_true, decide_eq_true_eq] at hm
    cases n with
    | nil =>
      have := h k
      simp [Mem.get] at this
      exact absurd this hm.1.2
    | cons d q =>
      obtain ⟨j, e⟩ := d
      simp only [Mem.wfFrom, Bool.and_eq_true, decide_eq_true_eq] at hn
      have hkj : k = j := by
        rcases Nat.lt_trichotomy k j with hlt | heq | hgt
        · have h1 := h k
          have h2 : ¬ k = j := by omega
          simp [Mem.get, h2, hlt] at h1
          exact absurd h1 hm.1.2
        · exact heq
        · have h1 := h j
          have h2 : ¬ j = k := by omega
          simp [Mem.get, h2, hgt] at h1
          exact absurd h1.symm hn.1.2
      subst hkj
      have hb : b = e := by simpa [Mem.get] using h k
      subst hb
      refine congrArg _ (ih hm.2 hn.2 fun a => ?_)
      by_cases h1 : a < k + 1
      · rw [Mem.get_of_lt hm.2 h1, Mem.get_of_lt hn.2 h1]
      · have h2 : ¬ a = k := by omega
        have h3 : ¬ a < k := by omega
        simpa [Mem.get, h2, h3] using h a

end Sys2Proof.Machine
end

