-- ==== Sys2Proof/Laws/Keeps.lean ====
section
/-! SUPPORT. Every operation over the state keeps the byte memories in canonical form: `f_mem` says it of `f`. -/

namespace Sys2Proof.Machine

/-- What only the memories of two states have in common is enough. -/
theorem memOk_of {s t : State} (h : MemOk s) (h1 : t.spad = s.spad) (h2 : t.home = s.home) (h3 : t.dies = s.dies) :
    MemOk t := by
  obtain ⟨a, b, c⟩ := h
  exact ⟨h1 ▸ a, h2 ▸ b, h3 ▸ c⟩
theorem memOk_foldl {α : Type} {f : State → α → State} (hf : ∀ s x, MemOk s → MemOk (f s x)) (l : List α) {s : State}
   (h : MemOk s) : MemOk (l.foldl f s) := by
  induction l generalizing s with
  | nil => exact h
  | cons a l ih => exact ih (hf s a h)
theorem memOk_ite {c : Prop} [Decidable c] {s t : State} (hs : MemOk s) (ht : MemOk t) : MemOk (if c then s else t)
    := by
  split <;> assumption
theorem memOk_mk (core : Core) (others : List Core) (spad : List Host.Cell) (home : List Host.Cell) (poison : List
    Nat) (barriers : List Nat) (l2 : List L2Line) (dir : List DirEnt) (hostHeld : List (Nat × Bool)) (dieRegions :
    List DieRegion) (ords : List OrdSlice) (ordSent : List OrdSent) (ordNums : List (Nat × Nat × BitVec 16)) (cmds :
    List EngCmd) (cmdNext : Nat) (oldColls : List OldColl) (launches : List Launch) (launchNext : Nat) (tasks : List
    Task) (taskNext : Nat) (tick : Nat) (lastBeacon : Option Nat) (lastCorr : Option Nat) (beacons : Nat) (skew :
    Int) (dies : Vector Die 4) (stopped : List StopDom) (feat : BitVec 6) (trapSeqs : List (Nat × BitVec 32)) (migrs
    : List Migr) (ncwWait : List (Nat × Nat × Option Byte)) (incarn : List (Nat × Byte)) (dead : List Nat) (modules
    : Vector Module 4) (flitSent : Vector Nat 4) (ports : BitVec 32) (lost : List (Nat × Nat)) (sentNums : List (Nat
    × Nat × BitVec 16)) (beaconOut : Option (Nat × Word)) (flows : List Flow) (reorder : List Pkt) (refusedPkts :
    List Pkt) (package : Nat) (images : List Image) (agenda : List Work) (script : List Instr) (fresh : Nat) :
MemOk (State.mk core others spad home poison barriers l2 dir hostHeld dieRegions ords ordSent ordNums cmds cmdNext
        oldColls launches launchNext tasks taskNext tick lastBeacon lastCorr beacons skew dies stopped feat trapSeqs
        migrs ncwWait incarn dead modules flitSent ports lost sentNums beaconOut flows reorder refusedPkts package
        images agenda script fresh) = (Mem.wf spad = true ∧ Mem.wf home = true ∧ ∀ d : Fin 4, Mem.wf (dies.get
        d).window = true) := rfl
theorem memParts_spad {X : State} (a n : Nat) (l : List Host.Cell) (h : MemOk X) :
    (Mem.wf (Mem.paste (Mem.drop X.spad a n) a l) = true ∧ Mem.wf X.home = true ∧ ∀ d : Fin 4, Mem.wf (X.dies.get
        d).window = true) := ⟨Mem.wf_paste _ _ (Mem.wf_drop _ _ h.1), h.2⟩
theorem memParts_home {X : State} (a n b m c : Nat) (l : List Host.Cell) (h : MemOk X) :
    (Mem.wf X.spad = true ∧ Mem.wf (Mem.paste (Mem.drop (Mem.drop X.home a n) b m) c l) = true ∧ ∀ d : Fin 4, Mem.wf
        (X.dies.get d).window = true) :=
  ⟨h.1, Mem.wf_paste _ _ (Mem.wf_drop _ _ (Mem.wf_drop _ _ h.2.1)), h.2.2⟩
theorem memParts_of {X : State} (h : MemOk X) : (Mem.wf X.spad = true ∧ Mem.wf X.home = true ∧ ∀ d : Fin 4, Mem.wf
    (X.dies.get d).window = true) := h

/-! ## Cache -/

theorem sendFlit_mem (x1 : Fin 4) (x2 : List Byte) {s : State} (h : MemOk s) : MemOk (sendFlit x1 x2 s) := by
  unfold sendFlit
  try dsimp only
  repeat' (first
    | with_reducible assumption | intro _ | with_reducible apply memParts_of | dsimp only [memOk_mk])
theorem sendNum_mem (x1 : Nat) (x2 : Nat) {s : State} (h : MemOk s) : MemOk (sendNum x1 x2 s) := by
  unfold sendNum
  try dsimp only
  repeat' (first
    | with_reducible assumption | intro _ | with_reducible apply memParts_of | dsimp only [memOk_mk])
theorem takeAnswer_mem (x1 : Nat × Nat × Nat) {s : State} (h : MemOk s) : MemOk (takeAnswer x1 s) := by
  unfold takeAnswer
  try dsimp only
  repeat' (first
    | with_reducible assumption | intro _ | with_reducible apply memParts_of | dsimp only [memOk_mk])
theorem sendPktOf_mem (x1 : Nat) (x2 : Nat) (x3 : Nat) {s : State} (h : MemOk s) : MemOk (sendPktOf x1 x2 x3 s) :=
    by
  unfold sendPktOf
  try dsimp only
  repeat' (first
    | with_reducible assumption | intro _ | with_reducible apply sendFlit_mem
    | with_reducible apply takeAnswer_mem | with_reducible apply sendNum_mem | with_reducible apply memParts_of
    | dsimp only [memOk_mk] | with_reducible apply memOk_foldl | with_reducible apply memOk_ite)
theorem sendPkt_mem (x1 : Nat) (x2 : Nat) {s : State} (h : MemOk s) : MemOk (sendPkt x1 x2 s) := by
  unfold sendPkt
  try dsimp only
  repeat' (first
    | with_reducible assumption | intro _ | with_reducible apply sendPktOf_mem)
theorem homePut_mem {s : State} (key : Nat) (d : BitVec 512) (m : BitVec 64) (h : MemOk s) : MemOk (homePut s key d
    m) :=
  ⟨h.1, Mem.wf_putSome _ _ _ h.2.1, h.2.2⟩
theorem l2Set_mem {s : State} (x2 : L2Line) (h : MemOk s) : MemOk (l2Set s x2) := h
theorem l2Drop_mem {s : State} (x2 : Nat) (x3 : Nat) (h : MemOk s) : MemOk (l2Drop s x2 x3) := h
theorem dirSet_mem {s : State} (x2 : Nat) (x3 : Nat) (x4 : Moesi) (h : MemOk s) : MemOk (dirSet s x2 x3 x4) := h
theorem flushOwner_mem {s : State} (x2 : Nat) (h : MemOk s) : MemOk (flushOwner s x2) := by
  unfold flushOwner
  try dsimp only
  repeat' (first
    | with_reducible assumption | intro _ | with_reducible apply dirSet_mem | with_reducible apply homePut_mem
    | with_reducible apply memParts_of | dsimp only [memOk_mk] | with_reducible apply memOk_foldl
    | with_reducible apply memOk_ite | split)
theorem l2Inval_mem {s : State} (x2 : Option Nat) (x3 : Nat) (h : MemOk s) : MemOk (l2Inval s x2 x3) := by
  unfold l2Inval
  try dsimp only
  repeat' (first
    | with_reducible assumption | intro _ | with_reducible apply memParts_of | dsimp only [memOk_mk]
    | with_reducible apply memOk_foldl | with_reducible apply memOk_ite)
theorem homeWrite_mem {s : State} (x2 : Option Nat) (x3 : Nat) (x4 : BitVec 512) (x5 : BitVec 64) (h : MemOk s) :
    MemOk (homeWrite s x2 x3 x4 x5) := by
  unfold homeWrite
  try dsimp only
  repeat' (first
    | with_reducible assumption | intro _ | with_reducible apply homePut_mem | with_reducible apply l2Inval_mem
    | with_reducible apply flushOwner_mem)
theorem l2Forget_mem (x1 : Nat) (x2 : Nat) {s : State} (h : MemOk s) : MemOk (l2Forget x1 x2 s) := by
  unfold l2Forget
  try dsimp only
  repeat' (first
    | with_reducible assumption | intro _ | with_reducible apply flushOwner_mem
    | with_reducible apply l2Drop_mem | with_reducible apply l2Set_mem | with_reducible apply memParts_of
    | dsimp only [memOk_mk] | with_reducible apply memOk_foldl | with_reducible apply memOk_ite | split)
theorem recallOthers_mem (x1 : Nat) (x2 : Nat) (x3 : Nat) {s : State} (h : MemOk s) : MemOk (recallOthers x1 x2 x3
    s) := by
  unfold recallOthers
  try dsimp only
  repeat' (first
    | with_reducible assumption | intro _ | with_reducible apply l2Forget_mem | with_reducible apply memParts_of
    | dsimp only [memOk_mk] | with_reducible apply memOk_foldl)
theorem trackRegion_mem (x1 : Nat) (x2 : Nat) (x3 : Bool) {s : State} (h : MemOk s) : MemOk (trackRegion x1 x2 x3 s)
    := by
  unfold trackRegion
  try dsimp only
  repeat' (first
    | with_reducible assumption | intro _ | with_reducible apply recallOthers_mem
    | with_reducible apply memParts_of | dsimp only [memOk_mk] | with_reducible apply memOk_foldl
    | with_reducible apply memOk_ite | split)
theorem l2Push_mem {s : State} (x2 : Nat) (x3 : Nat) (h : MemOk s) : MemOk (l2Push s x2 x3) := by
  unfold l2Push
  try dsimp only
  repeat' (first
    | with_reducible assumption | intro _ | with_reducible apply sendPkt_mem | with_reducible apply l2Inval_mem
    | with_reducible apply trackRegion_mem | with_reducible apply dirSet_mem | with_reducible apply l2Set_mem
    | with_reducible apply homeWrite_mem | with_reducible apply memParts_of | dsimp only [memOk_mk]
    | with_reducible apply memOk_foldl | with_reducible apply memOk_ite | split)
theorem l2Evict_mem (x1 : Nat) {s : State} (h : MemOk s) : MemOk (l2Evict x1 s) := by
  unfold l2Evict
  try dsimp only
  repeat' (first
    | with_reducible assumption | intro _ | with_reducible apply l2Forget_mem | with_reducible apply l2Push_mem
    | with_reducible apply memParts_of | dsimp only [memOk_mk] | with_reducible apply memOk_foldl
    | with_reducible apply memOk_ite | split)
theorem l2FillOf_mem (x1 : Nat) {s : State} (x3 : Word) (x4 : Nat) (x5 : Nat) (x6 : Option (Fin 8)) (h : MemOk s) :
    MemOk (l2FillOf x1 s x3 x4 x5 x6) := by
  unfold l2FillOf
  try dsimp only
  repeat' (first
    | with_reducible assumption | intro _ | with_reducible apply sendPktOf_mem
    | with_reducible apply trackRegion_mem | with_reducible apply l2Set_mem | with_reducible apply dirSet_mem
    | with_reducible apply l2Evict_mem | with_reducible apply memParts_of | dsimp only [memOk_mk]
    | with_reducible apply memOk_foldl | with_reducible apply memOk_ite | split)
theorem l2Fill_mem {s : State} (x2 : Word) (x3 : Nat) (x4 : Nat) (x5 : Option (Fin 8)) (h : MemOk s) : MemOk (l2Fill
    s x2 x3 x4 x5) := by
  unfold l2Fill
  try dsimp only
  repeat' (first
    | with_reducible assumption | intro _ | with_reducible apply l2FillOf_mem)
theorem l2Mark_mem {s : State} (x2 : Nat) (x3 : Nat) (x4 : BitVec 512) (x5 : BitVec 64) (x6 : Bool) (h : MemOk s) :
    MemOk (l2Mark s x2 x3 x4 x5 x6) := by
  unfold l2Mark
  try dsimp only
  repeat' (first
    | with_reducible assumption | intro _ | with_reducible apply flushOwner_mem
    | with_reducible apply l2Evict_mem | with_reducible apply l2Set_mem | with_reducible apply memParts_of
    | dsimp only [memOk_mk] | with_reducible apply memOk_foldl | with_reducible apply memOk_ite | split)
theorem writeBack_mem {s : State} (x2 : Nat) (h : MemOk s) : MemOk (writeBack s x2) := by
  unfold writeBack
  try dsimp only
  repeat' (first
    | with_reducible assumption | intro _ | with_reducible apply l2Mark_mem | with_reducible apply memParts_of
    | dsimp only [memOk_mk] | with_reducible apply memOk_foldl | with_reducible apply memOk_ite | split)
theorem writeBackAll_mem {s : State} (h : MemOk s) : MemOk (writeBackAll s) := by
  unfold writeBackAll
  try dsimp only
  repeat' (first
    | with_reducible assumption | intro _ | with_reducible apply writeBack_mem
    | with_reducible apply memParts_of | dsimp only [memOk_mk] | with_reducible apply memOk_foldl)
theorem l1dGive_mem {s : State} (h : MemOk s) : MemOk (l1dGive s) := by
  unfold l1dGive
  try dsimp only
  repeat' (first
    | with_reducible assumption | intro _ | with_reducible apply writeBack_mem
    | with_reducible apply memParts_of | dsimp only [memOk_mk] | with_reducible apply memOk_foldl
    | with_reducible apply memOk_ite | split)
theorem l1dEvict_mem {s : State} (h : MemOk s) : MemOk (l1dEvict s) := by
  unfold l1dEvict
  try dsimp only
  repeat' (first
    | with_reducible assumption | intro _ | with_reducible apply l1dGive_mem)
theorem fillLine_mem {s : State} (x2 : Nat) (x3 : Option (Fin 8)) (h : MemOk s) : MemOk (fillLine s x2 x3) := by
  unfold fillLine
  try dsimp only
  repeat' (first
    | with_reducible assumption | intro _ | with_reducible apply l2Fill_mem | with_reducible apply l1dEvict_mem
    | with_reducible apply memParts_of | dsimp only [memOk_mk] | with_reducible apply memOk_foldl
    | with_reducible apply memOk_ite)
theorem invalLines_mem {s : State} (x2 : Nat → Bool) (x3 : Bool) (h : MemOk s) : MemOk (invalLines s x2 x3) := by
  unfold invalLines
  try dsimp only
  repeat' (first
    | with_reducible assumption | intro _ | with_reducible apply writeBack_mem
    | with_reducible apply memParts_of | dsimp only [memOk_mk] | with_reducible apply memOk_foldl
    | with_reducible apply memOk_ite)

/-! ## Ops -/

theorem State.mapCore_mem {s : State} (x2 : Core → Core) (h : MemOk s) : MemOk (State.mapCore s x2) := h
theorem State.mapA_mem {s : State} (x2 : Arch → Arch) (h : MemOk s) : MemOk (State.mapA s x2) := h
theorem State.mapSp_mem {s : State} (x2 : Special → Special) (h : MemOk s) : MemOk (State.mapSp s x2) := h
theorem State.mapRgn_mem {s : State} (x2 : Region → Region) (h : MemOk s) : MemOk (State.mapRgn s x2) := h
theorem State.mapM_mem {s : State} (x2 : Meas → Meas) (h : MemOk s) : MemOk (State.mapM s x2) := h
theorem focus_mem_ok {s : State} (n : Nat) (h : MemOk s) : MemOk (focus n s) := by
  unfold focus
  split <;> exact h
theorem onCore_mem (n : Nat) (f : State → State) {s : State} (h : MemOk s) (hf : ∀ s, MemOk s → MemOk (f s)) :
    MemOk (onCore n f s) := focus_mem_ok _ (hf _ (focus_mem_ok _ h))
theorem State.bump_mem {s : State} (h : MemOk s) : MemOk (State.bump s) := h
theorem taskSet_mem {s : State} (x2 : Task) (h : MemOk s) : MemOk (taskSet s x2) := h
theorem taskUpd_mem {s : State} (x2 : Nat) (x3 : Task → Task) (h : MemOk s) : MemOk (taskUpd s x2 x3) := h
theorem launchUpd_mem {s : State} (x2 : Nat) (x3 : Launch → Launch) (h : MemOk s) : MemOk (launchUpd s x2 x3) := h
theorem nodeUpd_mem {s : State} (x2 : Nat) (x3 : Nat) (x4 : Node → Node) (h : MemOk s) : MemOk (nodeUpd s x2 x3 x4)
    := h
theorem vecOf_get {α : Type} (n : Nat) (f : Fin n → α) (i : Fin n) : (vecOf n f).get i = f i := by
  simp [vecOf, Vector.get]; rfl
theorem dieUpd_mem {s : State} (d : Nat) (f : Die → Die) (h : MemOk s)
    (hf : ∀ x : Die, Mem.wf x.window = true → Mem.wf (f x).window = true) : MemOk (dieUpd s d f) := by
  refine ⟨h.1, h.2.1, fun k => ?_⟩
  have := h.2.2 k
  rw [dieUpd]; dsimp only; rw [vecOf_get]
  split
  · exact hf _ this
  · exact this
theorem record_mem (x1 : Nat) (x2 : Nat) (x3 : Byte) (x4 : Byte) (x5 : Word) (x6 : Word) {s : State} (h : MemOk s) :
    MemOk (record x1 x2 x3 x4 x5 x6 s) := by
  unfold record
  try dsimp only
  repeat' (first
    | with_reducible assumption | intro _ | with_reducible apply dieUpd_mem | with_reducible apply memParts_of
    | dsimp only [memOk_mk])
theorem countEvt_mem (x1 : Nat) (x2 : Nat) {s : State} (h : MemOk s) : MemOk (countEvt x1 x2 s) := h
theorem tickOn_mem (x1 : Nat) {s : State} (h : MemOk s) : MemOk (tickOn x1 s) := by
  unfold tickOn
  try dsimp only
  repeat' (first
    | with_reducible assumption | intro _ | with_reducible apply memParts_of | dsimp only [memOk_mk])
theorem passTicks_mem (x1 : Nat) {s : State} (h : MemOk s) : MemOk (passTicks x1 s) := by
  unfold passTicks
  try dsimp only
  split
  · refine ⟨h.1, h.2.1, fun d => ?_⟩
    simp only [vecOf_get]
    split <;> exact h.2.2 d
  · exact h
theorem addStall_mem (x1 : Stall) (x2 : Nat) {s : State} (h : MemOk s) : MemOk (addStall x1 x2 s) := by
  unfold addStall
  try dsimp only
  repeat' (first
    | with_reducible assumption | intro _ | with_reducible apply countEvt_mem
    | with_reducible apply State.mapM_mem | with_reducible apply memParts_of | dsimp only [memOk_mk]
    | with_reducible apply memOk_foldl | with_reducible apply memOk_ite | split)
theorem dropStall_mem {s : State} (h : MemOk s) : MemOk (dropStall s) := by
  unfold dropStall
  try dsimp only
  repeat' (first
    | with_reducible assumption | intro _ | with_reducible apply State.mapCore_mem
    | with_reducible apply memParts_of | dsimp only [memOk_mk])
theorem chargeStall_mem (x1 : Stall) (x2 : Nat) {s : State} (h : MemOk s) : MemOk (chargeStall x1 x2 s) := by
  unfold chargeStall
  try dsimp only
  repeat' (first
    | with_reducible assumption | intro _ | with_reducible apply addStall_mem | with_reducible apply memParts_of
    | dsimp only [memOk_mk])
theorem frozen_mem {s : State} (h : MemOk s) : MemOk (frozen s) := by
  unfold frozen
  try dsimp only
  repeat' (first
    | with_reducible assumption | intro _ | with_reducible apply passTicks_mem
    | with_reducible apply chargeStall_mem | with_reducible apply memParts_of | dsimp only [memOk_mk])
theorem hotBytes_mem (x1 : Fin 16) (x2 : Nat) {s : State} (h : MemOk s) : MemOk (hotBytes x1 x2 s) := h
theorem hotStall_mem (x1 : Fin 16) (x2 : Word) {s : State} (h : MemOk s) : MemOk (hotStall x1 x2 s) := h
theorem orSigOf_mem (x1 : Option Nat) (x2 : Sig) {s : State} (h : MemOk s) : MemOk (orSigOf x1 x2 s) := by
  unfold orSigOf
  try dsimp only
  repeat' (first
    | with_reducible assumption | intro _ | with_reducible apply State.mapSp_mem
    | with_reducible apply State.mapCore_mem | with_reducible apply memParts_of | dsimp only [memOk_mk]
    | with_reducible apply memOk_foldl | with_reducible apply memOk_ite | split)
theorem orSig_mem (x1 : Sig) {s : State} (h : MemOk s) : MemOk (orSig x1 s) := by
  unfold orSig
  try dsimp only
  repeat' (first
    | with_reducible assumption | intro _ | with_reducible apply orSigOf_mem)
theorem addLineSig_mem (x1 : Nat) {s : State} (h : MemOk s) : MemOk (addLineSig x1 s) := by
  unfold addLineSig
  try dsimp only
  repeat' (first
    | with_reducible assumption | intro _ | with_reducible apply orSig_mem)
theorem flushLine_mem (x1 : Fin 16) (x2 : Nat) {s : State} (h : MemOk s) : MemOk (flushLine x1 x2 s) := by
  unfold flushLine
  try dsimp only
  repeat' (first
    | with_reducible assumption | intro _ | with_reducible apply writeBack_mem
    | with_reducible apply hotBytes_mem)
theorem stashDo_mem (o : StashOp) {s : State} (h : MemOk s) : MemOk (stashDo o s) := by
  have wb (l : List Nat) : MemOk (l.foldl writeBack s) := memOk_foldl (fun _ _ h => writeBack_mem _ h) l h
  unfold stashDo
  cases o with
  | smap off va lsz =>
    dsimp only
    split
    · exact h
    · exact ⟨Mem.wf_drop _ _ (wb _).1, (wb _).2.1, (wb _).2.2⟩
  | sunmap off =>
    dsimp only
    split
    · exact h
    · exact ⟨Mem.wf_foldl_put _ _ (fun _ _ => Mem.wf_put _ _) (wb _).1, (wb _).2.1, (wb _).2.2⟩
  | sdrop off => dsimp only; split <;> exact h
  | sflush off =>
    dsimp only
    split
    · exact h
    · exact writeBack_mem _ h
theorem oldPushes_mem (x1 : Fin 8) {s : State} (h : MemOk s) : MemOk (oldPushes x1 s) := h
theorem landAct_mem {s : State} (x2 : Flight) (h : MemOk s) : MemOk (landAct s x2) := by
  unfold landAct
  try dsimp only
  repeat' (first
    | with_reducible assumption | intro _ | with_reducible apply stashDo_mem
    | with_reducible apply State.mapRgn_mem | with_reducible apply oldPushes_mem
    | with_reducible apply State.mapA_mem | with_reducible apply memParts_of | dsimp only [memOk_mk]
    | with_reducible apply memOk_foldl | with_reducible apply memOk_ite | split)
theorem landStep_mem {s : State} (h : MemOk s) : MemOk (landStep s) := by
  unfold landStep
  try dsimp only
  repeat' (first
    | with_reducible assumption | intro _ | with_reducible apply landAct_mem | with_reducible apply memParts_of
    | dsimp only [memOk_mk] | with_reducible apply memOk_foldl)
theorem ringStep_mem {s : State} (h : MemOk s) : MemOk (ringStep s) := h
theorem schedule_mem (x1 : Flight) {s : State} (h : MemOk s) : MemOk (schedule x1 s) := by
  unfold schedule
  try dsimp only
  repeat' (first
    | with_reducible assumption | intro _ | with_reducible apply State.mapCore_mem
    | with_reducible apply memParts_of | dsimp only [memOk_mk] | with_reducible apply memOk_foldl
    | with_reducible apply memOk_ite)
theorem cancelRegion_mem {s : State} (h : MemOk s) : MemOk (cancelRegion s) := h
theorem rerunEnd_mem (x1 : Outcome1) {s : State} (h : MemOk s) : MemOk (rerunEnd x1 s) := h
theorem rerunEnded_mem (x1 : Bool) (x2 : Nat) {s : State} (h : MemOk s) : MemOk (rerunEnded x1 x2 s) := h
theorem startRollback_mem (x1 : Nat) {s : State} (h : MemOk s) : MemOk (startRollback x1 s) := by
  unfold startRollback
  try dsimp only
  repeat' (first
    | with_reducible assumption | intro _ | with_reducible apply countEvt_mem
    | with_reducible apply cancelRegion_mem | with_reducible apply State.mapCore_mem
    | with_reducible apply rerunEnded_mem | with_reducible apply memParts_of | dsimp only [memOk_mk]
    | with_reducible apply memOk_foldl | with_reducible apply memOk_ite | split)
theorem stopTask_mem (x1 : Nat) (x2 : SaveWhy) {s : State} (h : MemOk s) : MemOk (stopTask x1 x2 s) := h
theorem stopDomain_mem (x1 : Nat) (x2 : Nat) (x3 : Byte) {s : State} (h : MemOk s) : MemOk (stopDomain x1 x2 x3 s)
    := by
  unfold stopDomain
  try dsimp only
  repeat' (first
    | with_reducible assumption | intro _ | with_reducible apply record_mem | with_reducible apply memParts_of
    | dsimp only [memOk_mk] | with_reducible apply memOk_foldl | with_reducible apply memOk_ite)
theorem addMigr_mem (x1 : Nat) (x2 : Nat) (x3 : Nat) (x4 : Nat) (x5 : Nat) {s : State} (h : MemOk s) : MemOk
    (addMigr x1 x2 x3 x4 x5 s) := h
theorem pageStop_mem (x1 : Nat) (x2 : BitVec 8) (x3 : Word) {s : State} (h : MemOk s) : MemOk (pageStop x1 x2 x3 s)
    := by
  unfold pageStop
  try dsimp only
  repeat' (first
    | with_reducible assumption | intro _ | with_reducible apply State.mapSp_mem
    | with_reducible apply taskUpd_mem | with_reducible apply stopTask_mem | with_reducible apply addMigr_mem
    | with_reducible apply memParts_of | dsimp only [memOk_mk] | with_reducible apply memOk_foldl
    | with_reducible apply memOk_ite | split)
theorem takeTrap_mem (x1 : Nat) (x2 : Byte) (x3 : Word) (x4 : BitVec 8) {s : State} (h : MemOk s) : MemOk (takeTrap
    x1 x2 x3 x4 s) := by
  unfold takeTrap
  try dsimp only
  repeat' (first
    | with_reducible assumption | intro _ | with_reducible apply startRollback_mem
    | with_reducible apply pageStop_mem | with_reducible apply State.mapSp_mem | with_reducible apply record_mem
    | with_reducible apply State.mapCore_mem | with_reducible apply stopTask_mem
    | with_reducible apply stopDomain_mem | with_reducible apply memParts_of | dsimp only [memOk_mk]
    | with_reducible apply memOk_foldl | with_reducible apply memOk_ite | split)
theorem trapHere_mem (x1 : Byte) (x2 : Word) {s : State} (h : MemOk s) : MemOk (trapHere x1 x2 s) := by
  unfold trapHere
  try dsimp only
  repeat' (first
    | with_reducible assumption | intro _ | with_reducible apply takeTrap_mem)

/-! ## Operands -/

theorem spadReadAs_mem (x1 : Option (Fin 8)) {s : State} (x3 : Nat) (h : MemOk s) : MemOk (spadReadAs x1 s x3).2 :=
    by
  unfold spadReadAs
  try dsimp only
  repeat' (first
    | with_reducible assumption | intro _ | with_reducible apply fillLine_mem | with_reducible apply memParts_of
    | dsimp only [memOk_mk] | with_reducible apply memOk_foldl | with_reducible apply memOk_ite | split)
theorem spadRead_mem {s : State} (x2 : Nat) (h : MemOk s) : MemOk (spadRead s x2).2 := by
  unfold spadRead
  try dsimp only
  repeat' (first
    | with_reducible assumption | intro _ | with_reducible apply spadReadAs_mem)
theorem spadReadAsN_mem (x1 : Option (Fin 8)) {s : State} (x3 : Nat) (x4 : Nat) (h : MemOk s) : MemOk (spadReadAsN
    x1 s x3 x4).2 := by
  induction x4 generalizing s x3 with
  | zero => exact h
  | succ n ih => exact ih _ (spadReadAs_mem _ _ h)
theorem spadReadN_mem {s : State} (off n : Nat) (h : MemOk s) : MemOk (spadReadN s off n).2 :=
  spadReadAsN_mem _ _ _ h
theorem spadWrite_mem {s : State} (off : Nat) (b : Byte) (h : MemOk s) : MemOk (spadWrite s off b) := by
  unfold spadWrite
  split
  · exact ⟨Mem.wf_put _ _ h.1, h.2.1, h.2.2⟩
  · exact addLineSig_mem _ (State.mapCore_mem _ h)
theorem spadWriteN_mem {s : State} (off : Nat) (l : List Byte) (h : MemOk s) : MemOk (spadWriteN s off l) := by
  induction l generalizing s off with
  | nil => exact h
  | cons b r ih => exact ih _ (spadWrite_mem _ _ h)
theorem fetchElem_mem {s : State} (x2 : QDesc) (x3 : Nat) (h : MemOk s) : MemOk (fetchElem s x2 x3).2 := by
  unfold fetchElem
  try dsimp only
  repeat' (first
    | with_reducible assumption | intro _ | with_reducible apply l2Fill_mem
    | with_reducible apply spadReadAsN_mem | with_reducible apply memParts_of | dsimp only [memOk_mk]
    | with_reducible apply memOk_foldl | with_reducible apply memOk_ite | split)
theorem setQ_mem (x1 : Fin 8) (x2 : QState) {s : State} (h : MemOk s) : MemOk (setQ x1 x2 s) := h
theorem streamFill_mem (x1 : Fin 8) {s : State} (h : MemOk s) : MemOk (streamFill x1 s) := by
  unfold streamFill
  try dsimp only
  repeat' (first
    | with_reducible assumption | intro _ | with_reducible apply fetchElem_mem
    | with_reducible apply hotBytes_mem | with_reducible apply setQ_mem)
theorem popStream_mem (x1 : Fin 8) {s : State} (h : MemOk s) : MemOk (popStream x1 s).2 := by
  unfold popStream
  try dsimp only
  repeat' (first
    | with_reducible assumption | intro _ | with_reducible apply streamFill_mem | with_reducible apply setQ_mem
    | with_reducible apply memParts_of | dsimp only [memOk_mk] | with_reducible apply memOk_foldl
    | with_reducible apply memOk_ite | split)
theorem pushPlace_mem (x1 : Fin 8) {s : State} (h : MemOk s) : MemOk (pushPlace x1 s).2 := by
  unfold pushPlace
  try dsimp only
  repeat' (first
    | with_reducible assumption | intro _ | with_reducible apply setQ_mem
    | with_reducible apply State.mapRgn_mem | with_reducible apply memParts_of | dsimp only [memOk_mk]
    | with_reducible apply memOk_foldl | with_reducible apply memOk_ite | split)
theorem streamWriteHead_mem (x1 : Fin 8) {s : State} (h : MemOk s) : MemOk (streamWriteHead x1 s) := by
  unfold streamWriteHead
  try dsimp only
  repeat' (first
    | with_reducible assumption | intro _ | with_reducible apply spadWriteN_mem | with_reducible apply setQ_mem
    | with_reducible apply hotBytes_mem | with_reducible apply State.mapRgn_mem
    | with_reducible apply memParts_of | dsimp only [memOk_mk] | with_reducible apply memOk_foldl
    | with_reducible apply memOk_ite | split)
theorem readV_mem {s : State} (x2 : Src 128) (h : MemOk s) : MemOk (readV s x2).2 := by
  unfold readV
  try dsimp only
  repeat' (first
    | with_reducible assumption | intro _ | with_reducible apply popStream_mem
    | with_reducible apply memParts_of | dsimp only [memOk_mk] | with_reducible apply memOk_foldl
    | with_reducible apply memOk_ite | split)
theorem emitS_mem (x1 : Nat) (x2 : Dst 64) (x3 : Word) (x4 : BitVec 6) {s : State} (h : MemOk s) : MemOk (emitS x1
    x2 x3 x4 s) := by
  unfold emitS
  try dsimp only
  repeat' (first
    | with_reducible assumption | intro _ | with_reducible apply schedule_mem | with_reducible apply memParts_of
    | dsimp only [memOk_mk] | with_reducible apply memOk_foldl | with_reducible apply memOk_ite | split)
theorem emitP_mem (x1 : Nat) (x2 : Dst 16) (x3 : BitVec 32) (x4 : Pred) (x5 : BitVec 6) {s : State} (h : MemOk s) :
    MemOk (emitP x1 x2 x3 x4 x5 s) := by
  unfold emitP
  try dsimp only
  repeat' (first
    | with_reducible assumption | intro _ | with_reducible apply schedule_mem | with_reducible apply memParts_of
    | dsimp only [memOk_mk] | with_reducible apply memOk_foldl | with_reducible apply memOk_ite | split)
theorem emitV_mem (x1 : Nat) (x2 : Dst 128) (x3 : BitVec 32) (x4 : Vec) (x5 : BitVec 6) {s : State} (h : MemOk s) :
    MemOk (emitV x1 x2 x3 x4 x5 s) := by
  unfold emitV
  try dsimp only
  repeat' (first
    | with_reducible assumption | intro _ | with_reducible apply schedule_mem
    | with_reducible apply pushPlace_mem | with_reducible apply memParts_of | dsimp only [memOk_mk]
    | with_reducible apply memOk_foldl | with_reducible apply memOk_ite | split)
theorem emitX_mem (x1 : FDest) (x2 : Vec) {s : State} (h : MemOk s) : MemOk (emitX x1 x2 s) := by
  unfold emitX
  try dsimp only
  repeat' (first
    | with_reducible assumption | intro _ | with_reducible apply schedule_mem)

/-! ## Convert -/

theorem quantTo_mem (x1 : MXF) (x2 : Int) (x3 : Rnd) (x4 : Dst 128) (x5 : Src 128) {s : State} (h : MemOk s) : MemOk
    (quantTo x1 x2 x3 x4 x5 s) := by
  unfold quantTo
  try dsimp only
  repeat' (first
    | with_reducible assumption | intro _ | with_reducible apply readV_mem | with_reducible apply emitV_mem)

/-! ## Matrix -/

theorem mapMat_mem (x1 : Matrix → Matrix) {s : State} (h : MemOk s) : MemOk (mapMat x1 s) := h

/-! ## Access -/

theorem stepQ_mem {s : State} (x2 : Fin 8) (h : MemOk s) : MemOk (stepQ s x2) := h

/-! ## Control -/

theorem goTo_mem (x1 : Word) {s : State} (h : MemOk s) : MemOk (goTo x1 s) := h
theorem noteOutcome_mem (x1 : Guard) (x2 : Bool) {s : State} (h : MemOk s) : MemOk (noteOutcome x1 x2 s) := by
  unfold noteOutcome
  try dsimp only
  repeat' (first
    | with_reducible assumption | intro _ | with_reducible apply State.mapM_mem
    | with_reducible apply memParts_of | dsimp only [memOk_mk] | with_reducible apply memOk_foldl
    | with_reducible apply memOk_ite)
theorem relGo_mem (x1 : BitVec 32) (x2 : Option (Dst 64)) {s : State} (h : MemOk s) : MemOk (relGo x1 x2 s) := by
  unfold relGo
  try dsimp only
  repeat' (first
    | with_reducible assumption | intro _ | with_reducible apply trapHere_mem | with_reducible apply emitS_mem
    | with_reducible apply goTo_mem | with_reducible apply memParts_of | dsimp only [memOk_mk]
    | with_reducible apply memOk_foldl | with_reducible apply memOk_ite | split)
theorem absGo_mem (x1 : Src 64) (x2 : Option (Dst 64)) {s : State} (h : MemOk s) : MemOk (absGo x1 x2 s) := by
  unfold absGo
  try dsimp only
  repeat' (first
    | with_reducible assumption | intro _ | with_reducible apply trapHere_mem | with_reducible apply emitS_mem
    | with_reducible apply goTo_mem | with_reducible apply memParts_of | dsimp only [memOk_mk]
    | with_reducible apply memOk_foldl | with_reducible apply memOk_ite | split)
theorem emitPred_mem (x1 : Fin 16) (x2 : Pred) {s : State} (h : MemOk s) : MemOk (emitPred x1 x2 s) := by
  unfold emitPred
  try dsimp only
  repeat' (first
    | with_reducible assumption | intro _ | with_reducible apply emitX_mem)
theorem rotate_mem (x1 : Pred) {s : State} (h : MemOk s) : MemOk (rotate x1 s) := by
  unfold rotate
  try dsimp only
  repeat' (first
    | with_reducible assumption | intro _ | with_reducible apply emitX_mem | with_reducible apply emitPred_mem)
theorem openRegion_mem (x1 : BitVec 32) {s : State} (h : MemOk s) : MemOk (openRegion x1 s) := h
theorem stopAfter0_mem (x1 : Byte) (x2 : BitVec 23) {s : State} (h : MemOk s) : MemOk (stopAfter0 x1 x2 s) := by
  unfold stopAfter0
  try dsimp only
  repeat' (first
    | with_reducible assumption | intro _ | with_reducible apply takeTrap_mem | with_reducible apply goTo_mem)
theorem stopToWait_mem (x1 : WaitOn) {s : State} (h : MemOk s) : MemOk (stopToWait x1 s) := h

/-! ## Place -/

theorem placeRead_mem (x1 : Scope) (x2 : Nat) (x3 : Nat) {s : State} (h : MemOk s) : MemOk (placeRead x1 x2 x3 s).2
    := by
  unfold placeRead
  try dsimp only
  repeat' (first
    | with_reducible assumption | intro _ | with_reducible apply fillLine_mem | with_reducible apply l2Fill_mem
    | with_reducible apply memParts_of | dsimp only [memOk_mk] | with_reducible apply memOk_foldl
    | with_reducible apply memOk_ite | split)
theorem sendKeys_mem (x1 : Nat) (x2 : Nat) (x3 : List Nat) {s : State} (h : MemOk s) : MemOk (sendKeys x1 x2 x3 s)
    := by
  unfold sendKeys
  try dsimp only
  repeat' (first
    | with_reducible assumption | intro _ | with_reducible apply sendPktOf_mem
    | with_reducible apply memParts_of | dsimp only [memOk_mk] | with_reducible apply memOk_foldl)
theorem placeFetch_mem (x1 : Scope) (x2 : Nat) (x3 : Nat) {s : State} (h : MemOk s) : MemOk (placeFetch x1 x2 x3
    s).2 := by
  unfold placeFetch
  try dsimp only
  repeat' (first
    | with_reducible assumption | intro _ | with_reducible apply placeRead_mem
    | with_reducible apply sendKeys_mem | with_reducible apply memParts_of | dsimp only [memOk_mk]
    | with_reducible apply memOk_foldl | with_reducible apply memOk_ite)
theorem dropLeaseCopy_mem (x1 : Nat) (x2 : Nat) {s : State} (h : MemOk s) : MemOk (dropLeaseCopy x1 x2 s) := by
  unfold dropLeaseCopy
  try dsimp only
  repeat' (first
    | with_reducible assumption | intro _ | with_reducible apply l2Drop_mem | with_reducible apply l2Set_mem
    | with_reducible apply memParts_of | dsimp only [memOk_mk] | with_reducible apply memOk_foldl
    | with_reducible apply memOk_ite | split)
theorem homeStore_mem (x1 : Option Nat) (x2 : List (Nat × Byte)) {s : State} (h : MemOk s) : MemOk (homeStore x1 x2
    s) := by
  unfold homeStore
  try dsimp only
  repeat' (first
    | with_reducible assumption | intro _ | with_reducible apply trackRegion_mem
    | with_reducible apply homeWrite_mem | with_reducible apply memParts_of | dsimp only [memOk_mk]
    | with_reducible apply memOk_foldl | with_reducible apply memOk_ite | split)
theorem placeWrite_mem (x1 : Scope) (x2 : List (Nat × Byte)) {s : State} (h : MemOk s) : MemOk (placeWrite x1 x2 s)
    := by
  unfold placeWrite
  try dsimp only
  repeat' (first
    | with_reducible assumption | intro _ | with_reducible apply l1dEvict_mem
    | with_reducible apply State.mapCore_mem | with_reducible apply l2Mark_mem
    | with_reducible apply dropLeaseCopy_mem | with_reducible apply homeStore_mem
    | with_reducible apply memParts_of | dsimp only [memOk_mk] | with_reducible apply memOk_foldl
    | with_reducible apply memOk_ite | split)
theorem beforeAtomic_mem (x1 : Nat) (x2 : Nat) {s : State} (h : MemOk s) : MemOk (beforeAtomic x1 x2 s) := by
  unfold beforeAtomic
  try dsimp only
  repeat' (first
    | with_reducible assumption | intro _ | with_reducible apply writeBack_mem
    | with_reducible apply memParts_of | dsimp only [memOk_mk] | with_reducible apply memOk_foldl
    | with_reducible apply memOk_ite | split)
theorem rmw_mem (x1 : Scope) (x2 : Nat) (x3 : Nat) (x4 : Word → Word) {s : State} (h : MemOk s) : MemOk (rmw x1 x2
    x3 x4 s).2 := by
  unfold rmw
  try dsimp only
  repeat' (first
    | with_reducible assumption | intro _ | with_reducible apply beforeAtomic_mem
    | with_reducible apply placeRead_mem | with_reducible apply placeWrite_mem
    | with_reducible apply memParts_of | dsimp only [memOk_mk] | with_reducible apply memOk_foldl
    | with_reducible apply memOk_ite)
theorem pendSet_mem (x1 : Nat) (x2 : PKind) {s : State} (h : MemOk s) : MemOk (pendSet x1 x2 s) := h
theorem noteBarrier_mem (x1 : Nat) (x2 : Word) {s : State} (h : MemOk s) : MemOk (noteBarrier x1 x2 s) := by
  unfold noteBarrier
  try dsimp only
  repeat' (first
    | with_reducible assumption | intro _ | with_reducible apply memParts_of | dsimp only [memOk_mk]
    | with_reducible apply memOk_foldl | with_reducible apply memOk_ite)
theorem performOp_mem (x1 : PendOp) {s : State} (h : MemOk s) : MemOk (performOp x1 s) := by
  unfold performOp
  try dsimp only
  repeat' (first
    | with_reducible assumption | intro _ | with_reducible apply rmw_mem | with_reducible apply pendSet_mem
    | with_reducible apply noteBarrier_mem | with_reducible apply memParts_of | dsimp only [memOk_mk]
    | with_reducible apply memOk_foldl | with_reducible apply memOk_ite | split)
theorem serveLoads_mem (x1 : Nat) (x2 : Option (Fin 8)) (x3 : BitVec 512) {s : State} (h : MemOk s) : MemOk
    (serveLoads x1 x2 x3 s) := h
theorem lineNow_mem (x1 : Nat) (x2 : Option (Fin 8)) {s : State} (h : MemOk s) : MemOk (lineNow x1 x2 s).2 := by
  unfold lineNow
  try dsimp only
  repeat' (first
    | with_reducible assumption | intro _ | with_reducible apply l2Fill_mem)
theorem serveOne_mem (x1 : Nat) (x2 : PendOp) {s : State} (h : MemOk s) : MemOk (serveOne x1 x2 s) := by
  unfold serveOne
  try dsimp only
  repeat' (first
    | with_reducible assumption | intro _ | with_reducible apply lineNow_mem
    | with_reducible apply State.mapCore_mem | with_reducible apply memParts_of | dsimp only [memOk_mk]
    | with_reducible apply memOk_foldl | with_reducible apply memOk_ite)
theorem settleOne_mem (x1 : Nat) (x2 : PendOp) {s : State} (h : MemOk s) : MemOk (settleOne x1 x2 s) := by
  unfold settleOne
  try dsimp only
  repeat' (first
    | with_reducible assumption | intro _ | with_reducible apply performOp_mem
    | with_reducible apply serveOne_mem | with_reducible apply memParts_of | dsimp only [memOk_mk]
    | with_reducible apply memOk_foldl | with_reducible apply memOk_ite)
theorem settle_mem (x1 : Nat) {s : State} (h : MemOk s) : MemOk (settle x1 s) := by
  unfold settle
  try dsimp only
  repeat' (first
    | with_reducible assumption | intro _ | with_reducible apply settleOne_mem
    | with_reducible apply memParts_of | dsimp only [memOk_mk] | with_reducible apply memOk_foldl
    | with_reducible apply memOk_ite)
theorem foldl_fst_mem {α β : Type} {f : State × β → α → State × β} (hf : ∀ p x, MemOk p.1 → MemOk (f p x).1) (l :
    List α)
    {p : State × β} (h : MemOk p.1) : MemOk (l.foldl f p).1 := by
  induction l generalizing p with
  | nil => exact h
  | cons a l ih => exact ih (hf p a h)
theorem replay_mem (x1 : Nat) {s : State} (h : MemOk s) : MemOk (replay x1 s) := by
  unfold replay
  refine State.mapCore_mem _ (l1dEvict_mem (memOk_foldl (fun _ _ h => State.mapCore_mem _ h) _ (foldl_fst_mem ?_ _ (State.mapCore_mem _ h))))
  intro p x hp
  exact settleOne_mem _ _ (memOk_foldl (fun _ _ h => State.mapCore_mem _ h) _ hp)
theorem performLine_mem (x1 : PendOp) {s : State} (h : MemOk s) : MemOk (performLine x1 s) := by
  unfold performLine
  try dsimp only
  repeat' (first
    | with_reducible assumption | intro _ | with_reducible apply performOp_mem | with_reducible apply replay_mem
    | with_reducible apply memParts_of | dsimp only [memOk_mk] | with_reducible apply memOk_foldl
    | with_reducible apply memOk_ite | split)
theorem hold_mem (x1 : Held) {s : State} (h : MemOk s) : MemOk (hold x1 s) := h
theorem storeLoc_mem (x : Loc × Byte) {s : State} (h : MemOk s) : MemOk (storeLoc x s) := by
  unfold storeLoc
  split
  · exact addLineSig_mem _ (State.mapCore_mem _ (settle_mem _ h))
  · exact ⟨Mem.wf_put _ _ h.1, h.2.1, h.2.2⟩
theorem storeLocs_mem (x1 : List (Loc × Byte)) {s : State} (h : MemOk s) : MemOk (storeLocs x1 s) := by
  unfold storeLocs
  try dsimp only
  repeat' (first
    | with_reducible assumption | intro _ | with_reducible apply l1dEvict_mem
    | with_reducible apply storeLoc_mem | with_reducible apply memParts_of | dsimp only [memOk_mk]
    | with_reducible apply memOk_foldl)
theorem addPendHot_mem (x1 : Option (Fin 16 × Nat)) (x2 : Fin 8) (x3 : PKind) (x4 : Word) {s : State} (h : MemOk s)
    : MemOk (addPendHot x1 x2 x3 x4 s) := by
  unfold addPendHot
  try dsimp only
  repeat' (first
    | with_reducible assumption | intro _ | with_reducible apply State.mapCore_mem)
theorem addPend_mem (x1 : Fin 8) (x2 : PKind) (x3 : Word) {s : State} (h : MemOk s) : MemOk (addPend x1 x2 x3 s) :=
    h
theorem armGuard_mem (x1 : List Loc) {s : State} (h : MemOk s) : MemOk (armGuard x1 s) := by
  unfold armGuard
  try dsimp only
  repeat' (first
    | with_reducible assumption | intro _ | with_reducible apply State.mapRgn_mem
    | with_reducible apply memParts_of | dsimp only [memOk_mk] | with_reducible apply memOk_foldl
    | with_reducible apply memOk_ite | split)
theorem digestLoad_mem (x1 : Word) (x2 : List Byte) (x3 : List Byte) {s : State} (h : MemOk s) : MemOk (digestLoad
    x1 x2 x3 s) := by
  unfold digestLoad
  try dsimp only
  repeat' (first
    | with_reducible assumption | intro _ | with_reducible apply State.mapRgn_mem
    | with_reducible apply memParts_of | dsimp only [memOk_mk] | with_reducible apply memOk_foldl
    | with_reducible apply memOk_ite)
theorem addErr_mem (x1 : Nat) (x2 : Option (Fin 8)) (x3 : Byte) (x4 : Word) (x5 : Option RDst) {s : State} (h :
    MemOk s) : MemOk (addErr x1 x2 x3 x4 x5 s) := h
theorem freeVal_mem (x1 : Nat) {s : State} (h : MemOk s) : MemOk (freeVal x1 s).2 := h

/-! ## MemOps -/

theorem orTrap_mem (x1 : Option TrapInfo) (x2 : State → State) {s : State} (h2 : ∀ s, MemOk s → MemOk (x2 s)) (h :
    MemOk s) : MemOk (orTrap x1 x2 s) := by
  unfold orTrap
  split
  · exact trapHere_mem _ _ h
  · exact h2 _ h
theorem loadByte_mem (x1 : Nat) {s : State} (h : MemOk s) : MemOk (loadByte x1 s).2 := by
  unfold loadByte
  try dsimp only
  repeat' (first
    | with_reducible assumption | intro _ | with_reducible apply spadRead_mem | with_reducible apply memParts_of
    | dsimp only [memOk_mk] | with_reducible apply memOk_foldl | with_reducible apply memOk_ite | split)
theorem loadOffs_mem {s : State} (l : List (Nat × Bool)) (h : MemOk s) : MemOk (loadOffs s l).2 := by
  induction l generalizing s with
  | nil => exact h
  | cons x r ih =>
    refine ih ?_
    split
    · exact loadByte_mem _ h
    · exact h
theorem loadNow_mem (x1 : LdDst) (x2 : BitVec 32) (x3 : Word) (x4 : List (Nat × Bool)) (x5 : Fin 16) (x6 : Nat) {s :
    State} (h : MemOk s) : MemOk (loadNow x1 x2 x3 x4 x5 x6 s) := by
  unfold loadNow
  try dsimp only
  repeat' (first
    | with_reducible assumption | intro _ | with_reducible apply emitS_mem | with_reducible apply emitV_mem
    | with_reducible apply freeVal_mem | with_reducible apply addErr_mem | with_reducible apply loadOffs_mem
    | with_reducible apply hotBytes_mem | with_reducible apply digestLoad_mem | with_reducible apply memParts_of
    | dsimp only [memOk_mk] | with_reducible apply memOk_foldl | with_reducible apply memOk_ite | split)
theorem ldGo_mem (x1 : LD) (x2 : Bool) {s : State} (h : MemOk s) : MemOk (ldGo x1 x2 s) := by
  unfold ldGo
  try dsimp only
  repeat' (first
    | with_reducible assumption | intro _ | with_reducible apply orTrap_mem | with_reducible apply armGuard_mem
    | with_reducible apply loadNow_mem | with_reducible apply memParts_of | dsimp only [memOk_mk]
    | with_reducible apply memOk_foldl | with_reducible apply memOk_ite)
theorem gatherGo_mem (x1 : Guard) (x2 : ESz) (x3 : Dst 128) (x4 : Nat → Int) {s : State} (h : MemOk s) : MemOk
    (gatherGo x1 x2 x3 x4 s) := by
  unfold gatherGo
  try dsimp only
  repeat' (first
    | with_reducible assumption | intro _ | with_reducible apply orTrap_mem | with_reducible apply loadNow_mem)
theorem srcBytes_mem {s : State} (x2 : StSrc) (h : MemOk s) : MemOk (srcBytes s x2).2 := by
  unfold srcBytes
  try dsimp only
  repeat' (first
    | with_reducible assumption | intro _ | with_reducible apply readV_mem | with_reducible apply memParts_of
    | dsimp only [memOk_mk] | with_reducible apply memOk_foldl | with_reducible apply memOk_ite | split)
theorem storeOrHold_mem (x1 : List (Loc × Byte)) {s : State} (h : MemOk s) : MemOk (storeOrHold x1 s) := by
  unfold storeOrHold
  try dsimp only
  repeat' (first
    | with_reducible assumption | intro _ | with_reducible apply hold_mem | with_reducible apply storeLocs_mem
    | with_reducible apply memParts_of | dsimp only [memOk_mk] | with_reducible apply memOk_foldl
    | with_reducible apply memOk_ite)
theorem scatterGo_mem (x1 : BitVec 32) (x2 : Nat) (x3 : Nat → Int) (x4 : Vec) {s : State} (h : MemOk s) : MemOk
    (scatterGo x1 x2 x3 x4 s) := by
  unfold scatterGo
  try dsimp only
  repeat' (first
    | with_reducible assumption | intro _ | with_reducible apply hotBytes_mem
    | with_reducible apply storeOrHold_mem | with_reducible apply memParts_of | dsimp only [memOk_mk]
    | with_reducible apply memOk_foldl)
theorem addFill_mem (x1 : Nat) (x2 : Option (Fin 8)) (x3 : Bool) {s : State} (h : MemOk s) : MemOk (addFill x1 x2 x3
    s) := by
  unfold addFill
  try dsimp only
  repeat' (first
    | with_reducible assumption | intro _ | with_reducible apply State.mapCore_mem
    | with_reducible apply memParts_of | dsimp only [memOk_mk] | with_reducible apply memOk_foldl
    | with_reducible apply memOk_ite)
theorem ldgGo_mem (x1 : LG) (x2 : Bool) {s : State} (h : MemOk s) : MemOk (ldgGo x1 x2 s) := by
  unfold ldgGo
  try dsimp only
  repeat' (first
    | with_reducible assumption | intro _ | with_reducible apply trapHere_mem
    | with_reducible apply armGuard_mem | with_reducible apply countEvt_mem | with_reducible apply addFill_mem
    | with_reducible apply addPendHot_mem | with_reducible apply memParts_of | dsimp only [memOk_mk]
    | with_reducible apply memOk_foldl | with_reducible apply memOk_ite | split)
theorem stashOp_mem (x1 : StashOp) {s : State} (h : MemOk s) : MemOk (stashOp x1 s) := by
  unfold stashOp
  try dsimp only
  repeat' (first
    | with_reducible assumption | intro _ | with_reducible apply hold_mem | with_reducible apply emitX_mem
    | with_reducible apply memParts_of | dsimp only [memOk_mk] | with_reducible apply memOk_foldl
    | with_reducible apply memOk_ite)

/-! ## Streams -/

theorem takePushes_mem (x1 : Fin 8) {s : State} (h : MemOk s) : MemOk (takePushes x1 s) := h
theorem drainOut_mem (x1 : Fin 8) {s : State} (h : MemOk s) : MemOk (drainOut x1 s) := by
  unfold drainOut
  try dsimp only
  repeat' (first
    | with_reducible assumption | intro _ | with_reducible apply takePushes_mem
    | with_reducible apply streamWriteHead_mem | with_reducible apply memParts_of | dsimp only [memOk_mk]
    | with_reducible apply memOk_foldl)
theorem failFetch_mem (x1 : Nat) (x2 : Byte) (x3 : Fin 8) {s : State} (h : MemOk s) : MemOk (failFetch x1 x2 x3 s)
    := by
  unfold failFetch
  try dsimp only
  repeat' (first
    | with_reducible assumption | intro _ | with_reducible apply setQ_mem | with_reducible apply memParts_of
    | dsimp only [memOk_mk] | with_reducible apply memOk_foldl | with_reducible apply memOk_ite)

/-! ## Atomics -/

theorem takeNum_mem (x1 : Nat) (x2 : Nat) {s : State} (h : MemOk s) : MemOk (takeNum x1 x2 s).2 := h
theorem sliceSet_mem (x1 : OrdSlice) {s : State} (h : MemOk s) : MemOk (sliceSet x1 s) := h
theorem enterOrd_mem (x1 : OrdSlice) (x2 : OrdReq) {s : State} (h : MemOk s) : MemOk (enterOrd x1 x2 s) := by
  unfold enterOrd
  try dsimp only
  repeat' (first
    | with_reducible assumption | intro _ | with_reducible apply sliceSet_mem | with_reducible apply record_mem
    | with_reducible apply memParts_of | dsimp only [memOk_mk] | with_reducible apply memOk_foldl
    | with_reducible apply memOk_ite)
theorem homeAtomic_mem (x1 : AOp) (x2 : ASz) (x3 : Nat) (x4 : Word) (x5 : Word) {s : State} (h : MemOk s) : MemOk
    (homeAtomic x1 x2 x3 x4 x5 s) := by
  unfold homeAtomic
  try dsimp only
  repeat' (first
    | with_reducible assumption | intro _ | with_reducible apply homeStore_mem
    | with_reducible apply memParts_of | dsimp only [memOk_mk] | with_reducible apply memOk_foldl
    | with_reducible apply memOk_ite)
theorem answerOrd_mem (x1 : OrdReq) (x2 : Nat) (x3 : List Byte) {s : State} (h : MemOk s) : MemOk (answerOrd x1 x2
    x3 s) := by
  unfold answerOrd
  try dsimp only
  repeat' (first
    | with_reducible assumption | intro _ | with_reducible apply sendFlit_mem | with_reducible apply sendNum_mem
    | with_reducible apply memParts_of | dsimp only [memOk_mk] | with_reducible apply memOk_foldl
    | with_reducible apply memOk_ite)
theorem performOrd_mem (x1 : OrdReq) {s : State} (h : MemOk s) : MemOk (performOrd x1 s) := by
  unfold performOrd
  try dsimp only
  repeat' (first
    | with_reducible assumption | intro _ | with_reducible apply answerOrd_mem
    | with_reducible apply homeAtomic_mem | with_reducible apply onCore_mem | with_reducible apply performOp_mem
    | with_reducible apply rmw_mem | with_reducible apply replay_mem | with_reducible apply pendSet_mem
    | with_reducible apply memParts_of | dsimp only [memOk_mk] | with_reducible apply memOk_foldl
    | with_reducible apply memOk_ite | split)
theorem applyOrd_mem (k last n : Nat) {s : State} (h : MemOk s) : MemOk (applyOrd k last n s) := by
  induction n generalizing s with
  | zero => exact h
  | succ n ih =>
    unfold applyOrd
    dsimp only
    split
    · exact h
    · exact ih (sliceSet_mem _ (performOrd_mem _ h))
theorem stepEnds_mem (x1 : Nat) {s : State} (h : MemOk s) : MemOk (stepEnds x1 s) := by
  unfold stepEnds
  try dsimp only
  repeat' (first
    | with_reducible assumption | intro _ | with_reducible apply applyOrd_mem
    | with_reducible apply sliceSet_mem | with_reducible apply memParts_of | dsimp only [memOk_mk]
    | with_reducible apply memOk_foldl | with_reducible apply memOk_ite)
theorem sendAtom_mem (x1 : Scope) (x2 : Nat) {s : State} (h : MemOk s) : MemOk (sendAtom x1 x2 s) := by
  unfold sendAtom
  try dsimp only
  repeat' (first
    | with_reducible assumption | intro _ | with_reducible apply sendPkt_mem | with_reducible apply memParts_of
    | dsimp only [memOk_mk] | with_reducible apply memOk_foldl | with_reducible apply memOk_ite)
theorem atomGo_mem (x1 : AOp) (x2 : Bool) (x3 : AT) {s : State} (h : MemOk s) : MemOk (atomGo x1 x2 x3 s) := by
  unfold atomGo
  try dsimp only
  repeat' (first
    | with_reducible assumption | intro _ | with_reducible apply trapHere_mem
    | with_reducible apply addLineSig_mem | with_reducible apply settle_mem | with_reducible apply rmw_mem
    | with_reducible apply addPend_mem | with_reducible apply sendAtom_mem
    | with_reducible apply beforeAtomic_mem | with_reducible apply takeNum_mem
    | with_reducible apply memParts_of | dsimp only [memOk_mk] | with_reducible apply memOk_foldl
    | with_reducible apply memOk_ite | split)

/-! ## Release -/

theorem acquireSig_mem (x1 : Sig) (x2 : Bool) (x3 : Scope) {s : State} (h : MemOk s) : MemOk (acquireSig x1 x2 x3 s)
    := by
  unfold acquireSig
  try dsimp only
  repeat' (first
    | with_reducible assumption | intro _ | with_reducible apply invalLines_mem
    | with_reducible apply State.mapCore_mem | with_reducible apply l2Forget_mem
    | with_reducible apply countEvt_mem | with_reducible apply orSig_mem | with_reducible apply memParts_of
    | dsimp only [memOk_mk] | with_reducible apply memOk_foldl | with_reducible apply memOk_ite)
theorem beforeObj_mem (x1 : Nat) {s : State} (h : MemOk s) : MemOk (beforeObj x1 s) := by
  unfold beforeObj
  try dsimp only
  repeat' (first
    | with_reducible assumption | intro _ | with_reducible apply beforeAtomic_mem)
theorem acquireObj_mem (x1 : Scope) (x2 : Nat) {s : State} (h : MemOk s) : MemOk (acquireObj x1 x2 s).2 := by
  unfold acquireObj
  try dsimp only
  repeat' (first
    | with_reducible assumption | intro _ | with_reducible apply placeFetch_mem
    | with_reducible apply beforeObj_mem | with_reducible apply acquireSig_mem)
theorem pushMarks_mem {s : State} (h : MemOk s) : MemOk (pushMarks s) := by
  unfold pushMarks
  try dsimp only
  repeat' (first
    | with_reducible assumption | intro _ | with_reducible apply l2Push_mem | with_reducible apply memParts_of
    | dsimp only [memOk_mk] | with_reducible apply memOk_foldl)
theorem releaseWrites_mem (x1 : Scope) {s : State} (h : MemOk s) : MemOk (releaseWrites x1 s) := by
  unfold releaseWrites
  try dsimp only
  repeat' (first
    | with_reducible assumption | intro _ | with_reducible apply writeBackAll_mem
    | with_reducible apply pushMarks_mem | with_reducible apply memParts_of | dsimp only [memOk_mk]
    | with_reducible apply memOk_foldl | with_reducible apply memOk_ite | split)
theorem objUpdate_mem (x1 : Scope) (x2 : Nat) (x3 : SyncObj → SyncObj) {s : State} (h : MemOk s) : MemOk (objUpdate
    x1 x2 x3 s) := by
  unfold objUpdate
  try dsimp only
  repeat' (first
    | with_reducible assumption | intro _ | with_reducible apply placeFetch_mem
    | with_reducible apply beforeObj_mem | with_reducible apply placeWrite_mem
    | with_reducible apply memParts_of | dsimp only [memOk_mk] | with_reducible apply memOk_foldl
    | with_reducible apply memOk_ite)
theorem clearWsig_mem (x1 : Sig) {s : State} (h : MemOk s) : MemOk (clearWsig x1 s) := h
theorem releaseObj_mem (x1 : Bool) (x2 : Word) (x3 : Scope) (x4 : Nat) (x5 : Sig) {s : State} (h : MemOk s) : MemOk
    (releaseObj x1 x2 x3 x4 x5 s) := by
  unfold releaseObj
  try dsimp only
  repeat' (first
    | with_reducible assumption | intro _ | with_reducible apply clearWsig_mem
    | with_reducible apply objUpdate_mem | with_reducible apply releaseWrites_mem)
theorem joinSig_mem (x1 : Sig) {s : State} (h : MemOk s) : MemOk (joinSig x1 s) := by
  unfold joinSig
  try dsimp only
  repeat' (first
    | with_reducible assumption | intro _ | with_reducible apply invalLines_mem | with_reducible apply orSig_mem)
theorem orFlags_mem (x1 : BitVec 6) (x2 : Bool) {s : State} (h : MemOk s) : MemOk (orFlags x1 x2 s) := h

/-! ## Graph -/

theorem homeBytesPut_mem (x1 : Nat) (x2 : List Byte) {s : State} (h : MemOk s) : MemOk (homeBytesPut x1 x2 s) := by
  unfold homeBytesPut
  try dsimp only
  repeat' (first
    | with_reducible assumption | intro _ | with_reducible apply homeStore_mem
    | with_reducible apply memParts_of | dsimp only [memOk_mk] | with_reducible apply memOk_foldl)
theorem homeWordPut_mem (x1 : Nat) (x2 : Word) {s : State} (h : MemOk s) : MemOk (homeWordPut x1 x2 s) := by
  unfold homeWordPut
  try dsimp only
  repeat' (first
    | with_reducible assumption | intro _ | with_reducible apply homeBytesPut_mem)
theorem askMigr_mem (x1 : Nat) (x2 : List KEntry) (x3 : Nat) (x4 : Nat) {s : State} (h : MemOk s) : MemOk (askMigr
    x1 x2 x3 x4 s) := by
  unfold askMigr
  try dsimp only
  repeat' (first
    | with_reducible assumption | intro _ | with_reducible apply addMigr_mem | with_reducible apply memParts_of
    | dsimp only [memOk_mk] | with_reducible apply memOk_foldl | with_reducible apply memOk_ite | split)
theorem cwVirt_mem (x1 : List KEntry) (x2 : Nat) (x3 : Option Byte) {s : State} (h : MemOk s) : MemOk (cwVirt x1 x2
    x3 s).2 := by
  unfold cwVirt
  try dsimp only
  repeat' (first
    | with_reducible assumption | intro _ | with_reducible apply homeWordPut_mem
    | with_reducible apply memParts_of | dsimp only [memOk_mk] | with_reducible apply memOk_foldl
    | with_reducible apply memOk_ite | split)
theorem ncwUpdate_mem (x1 : Nat) (x2 : Node) (x3 : Option Byte) {s : State} (h : MemOk s) : MemOk (ncwUpdate x1 x2
    x3 s) := by
  unfold ncwUpdate
  try dsimp only
  repeat' (first
    | with_reducible assumption | intro _ | with_reducible apply cwVirt_mem | with_reducible apply askMigr_mem
    | with_reducible apply record_mem | with_reducible apply memParts_of | dsimp only [memOk_mk]
    | with_reducible apply memOk_foldl | with_reducible apply memOk_ite | split)
theorem writeUsage_mem (x1 : Launch) {s : State} (h : MemOk s) : MemOk (writeUsage x1 s) := by
  unfold writeUsage
  try dsimp only
  repeat' (first
    | with_reducible assumption | intro _ | with_reducible apply homeWordPut_mem
    | with_reducible apply memParts_of | dsimp only [memOk_mk] | with_reducible apply memOk_foldl)
theorem pushAll_mem {s : State} (h : MemOk s) : MemOk (pushAll s) := by
  unfold pushAll
  try dsimp only
  repeat' (first
    | with_reducible assumption | intro _ | with_reducible apply l2Push_mem | with_reducible apply memParts_of
    | dsimp only [memOk_mk] | with_reducible apply memOk_foldl)
theorem launchCount_mem (x1 : Nat) (x2 : Option Byte) {s : State} (h : MemOk s) : MemOk (launchCount x1 x2 s) := by
  unfold launchCount
  try dsimp only
  repeat' (first
    | with_reducible assumption | intro _ | with_reducible apply launchUpd_mem
    | with_reducible apply writeUsage_mem | with_reducible apply pushAll_mem
    | with_reducible apply homeWordPut_mem | with_reducible apply memParts_of | dsimp only [memOk_mk]
    | with_reducible apply memOk_foldl | with_reducible apply memOk_ite | split)
theorem gnodeDone_mem (x1 : Node) {s : State} (h : MemOk s) : MemOk (gnodeDone x1 s) := by
  unfold gnodeDone
  try dsimp only
  repeat' (first
    | with_reducible assumption | intro _ | with_reducible apply memParts_of | dsimp only [memOk_mk]
    | with_reducible apply memOk_foldl | with_reducible apply memOk_ite | split)
theorem nodeCmd_mem (x1 : Launch) (x2 : Nat) (x3 : Node) (x4 : EKind) (x5 : Nat) (x6 : Nat) {s : State} (h : MemOk
    s) : MemOk (nodeCmd x1 x2 x3 x4 x5 x6 s) := h
theorem launchNode_mem (x1 : Nat) (x2 : Nat) {s : State} (h : MemOk s) : MemOk (launchNode x1 x2 s) := by
  unfold launchNode
  try dsimp only
  repeat' (first
    | with_reducible assumption | intro _ | with_reducible apply nodeCmd_mem | with_reducible apply nodeUpd_mem
    | with_reducible apply memParts_of | dsimp only [memOk_mk] | with_reducible apply memOk_foldl
    | with_reducible apply memOk_ite | split)
theorem readyNode_mem (x1 : Nat) (x2 : Nat) {s : State} (h : MemOk s) : MemOk (readyNode x1 x2 s) := by
  unfold readyNode
  try dsimp only
  repeat' (first
    | with_reducible assumption | intro _ | with_reducible apply nodeUpd_mem
    | with_reducible apply launchNode_mem | with_reducible apply memParts_of | dsimp only [memOk_mk]
    | with_reducible apply memOk_foldl | with_reducible apply memOk_ite | split)
theorem failOne_mem (x1 : Nat) (x2 : Nat) (x3 : NState) (x4 : Byte) {s : State} (h : MemOk s) : MemOk (failOne x1 x2
    x3 x4 s) := by
  unfold failOne
  try dsimp only
  repeat' (first
    | with_reducible assumption | intro _ | with_reducible apply launchCount_mem
    | with_reducible apply ncwUpdate_mem | with_reducible apply gnodeDone_mem | with_reducible apply nodeUpd_mem
    | with_reducible apply memParts_of | dsimp only [memOk_mk] | with_reducible apply memOk_foldl
    | with_reducible apply memOk_ite | split)
theorem failNode_mem (x1 : Nat) (x2 : Nat) (x3 : NState) (x4 : Byte) {s : State} (h : MemOk s) : MemOk (failNode x1
    x2 x3 x4 s) := by
  unfold failNode
  try dsimp only
  repeat' (first
    | with_reducible assumption | intro _ | with_reducible apply failOne_mem | with_reducible apply memParts_of
    | dsimp only [memOk_mk] | with_reducible apply memOk_foldl | with_reducible apply memOk_ite | split)
theorem finishNode_mem (x1 : Nat) (x2 : Nat) {s : State} (h : MemOk s) : MemOk (finishNode x1 x2 s) := by
  unfold finishNode
  try dsimp only
  repeat' (first
    | with_reducible assumption | intro _ | with_reducible apply ncwUpdate_mem
    | with_reducible apply gnodeDone_mem | with_reducible apply nodeUpd_mem | with_reducible apply readyNode_mem
    | with_reducible apply launchCount_mem | with_reducible apply memParts_of | dsimp only [memOk_mk]
    | with_reducible apply memOk_foldl | with_reducible apply memOk_ite | split)
theorem freeSlot_mem (x1 : Task) {s : State} (h : MemOk s) : MemOk (freeSlot x1 s) := by
  unfold freeSlot
  try dsimp only
  repeat' (first
    | with_reducible assumption | intro _ | with_reducible apply dieUpd_mem | with_reducible apply memParts_of
    | dsimp only [memOk_mk] | with_reducible apply memOk_foldl | with_reducible apply memOk_ite | split)
theorem endTask_mem (x1 : Nat) (x2 : Option Byte) (x3 : Sig) {s : State} (h : MemOk s) : MemOk (endTask x1 x2 x3 s)
    := by
  unfold endTask
  try dsimp only
  repeat' (first
    | with_reducible assumption | intro _ | with_reducible apply freeSlot_mem | with_reducible apply taskUpd_mem
    | with_reducible apply nodeUpd_mem | with_reducible apply memParts_of | dsimp only [memOk_mk]
    | with_reducible apply memOk_foldl | with_reducible apply memOk_ite | split)
theorem addUse_mem (x1 : Nat) (x2 : Nat) (x3 : Nat) (x4 : Nat) {s : State} (h : MemOk s) : MemOk (addUse x1 x2 x3 x4
    s) := by
  unfold addUse
  try dsimp only
  repeat' (first
    | with_reducible assumption | intro _ | with_reducible apply launchUpd_mem)
theorem useNode_mem (x1 : Nat) (x2 : Nat) {s : State} (h : MemOk s) : MemOk (useNode x1 x2 s) := by
  unfold useNode
  try dsimp only
  repeat' (first
    | with_reducible assumption | intro _ | with_reducible apply addUse_mem | with_reducible apply nodeUpd_mem
    | with_reducible apply memParts_of | dsimp only [memOk_mk] | with_reducible apply memOk_foldl
    | with_reducible apply memOk_ite | split)
theorem useSaved_mem (x1 : Task) {s : State} (h : MemOk s) : MemOk (useSaved x1 s) := by
  unfold useSaved
  try dsimp only
  repeat' (first
    | with_reducible assumption | intro _ | with_reducible apply addUse_mem | with_reducible apply memParts_of
    | dsimp only [memOk_mk] | with_reducible apply memOk_foldl | with_reducible apply memOk_ite | split)
theorem budgetFault_mem (x1 : Nat) (x2 : Nat) (x3 : Nat) {s : State} (h : MemOk s) : MemOk (budgetFault x1 x2 x3 s)
    := by
  unfold budgetFault
  try dsimp only
  repeat' (first
    | with_reducible assumption | intro _ | with_reducible apply record_mem | with_reducible apply launchUpd_mem
    | with_reducible apply taskUpd_mem | with_reducible apply endTask_mem | with_reducible apply useSaved_mem
    | with_reducible apply finishNode_mem | with_reducible apply useNode_mem | with_reducible apply failNode_mem
    | with_reducible apply nodeUpd_mem | with_reducible apply memParts_of | dsimp only [memOk_mk]
    | with_reducible apply memOk_foldl | with_reducible apply memOk_ite | split)
theorem chargeRcb_mem (x1 : Nat) (x2 : Nat) (x3 : Nat) (x4 : Nat) {s : State} (h : MemOk s) : MemOk (chargeRcb x1 x2
    x3 x4 s) := by
  unfold chargeRcb
  try dsimp only
  repeat' (first
    | with_reducible assumption | intro _ | with_reducible apply budgetFault_mem
    | with_reducible apply addUse_mem | with_reducible apply memParts_of | dsimp only [memOk_mk]
    | with_reducible apply memOk_foldl | with_reducible apply memOk_ite | split)
theorem chargeTask_mem (x1 : Nat) (x2 : Nat) (x3 : Nat) {s : State} (h : MemOk s) : MemOk (chargeTask x1 x2 x3 s) :=
    by
  unfold chargeTask
  try dsimp only
  repeat' (first
    | with_reducible assumption | intro _ | with_reducible apply chargeRcb_mem
    | with_reducible apply memParts_of | dsimp only [memOk_mk] | with_reducible apply memOk_foldl
    | with_reducible apply memOk_ite | split)
theorem chargeNode_mem (x1 : Nat) (x2 : Nat) (x3 : Node) {s : State} (h : MemOk s) : MemOk (chargeNode x1 x2 x3 s)
    := by
  unfold chargeNode
  try dsimp only
  repeat' (first
    | with_reducible assumption | intro _ | with_reducible apply chargeRcb_mem
    | with_reducible apply nodeUpd_mem | with_reducible apply memParts_of | dsimp only [memOk_mk]
    | with_reducible apply memOk_foldl | with_reducible apply memOk_ite)

/-! ## Engine -/

theorem cmdUpd_mem (x1 : Nat) (x2 : EngCmd → EngCmd) {s : State} (h : MemOk s) : MemOk (cmdUpd x1 x2 s) := h
theorem engByte_mem (x1 : EngCmd) (x2 : Nat → Option (Fin 8)) (x3 : Loc) {s : State} (h : MemOk s) : MemOk (engByte
    x1 x2 x3 s).2 := by
  unfold engByte
  try dsimp only
  repeat' (first
    | with_reducible assumption | intro _ | with_reducible apply l2FillOf_mem | with_reducible apply memParts_of
    | dsimp only [memOk_mk] | with_reducible apply memOk_foldl | with_reducible apply memOk_ite | split)
theorem memOk_foldlPair {α β : Type} {f : β × State → α → β × State} (hf : ∀ p x, MemOk p.2 → MemOk (f p x).2) (l :
    List α)
    {p : β × State} (h : MemOk p.2) : MemOk (l.foldl f p).2 := by
  induction l generalizing p with
  | nil => exact h
  | cons a l ih => exact ih (hf p a h)
theorem engBytes_mem (c : EngCmd) (x : Loc) (n : Nat) {s : State} (h : MemOk s) : MemOk (engBytes c x n s).2 := by
  unfold engBytes
  refine memOk_foldlPair (fun p i h => ?_) _ h
  exact engByte_mem c (engCls c) (locAdd x i) h
theorem jobGo_mem {j : Job} {f : Job → Job} (h : MemOk j.s) (hf : ∀ j, MemOk j.s → MemOk (f j).s) : MemOk (j.go f).s
    := by
  unfold Job.go
  split
  · exact h
  · exact hf j h
theorem jobPlace_mem {j : Job} (p : EPlace) {f : Loc → Job → Job} (h : MemOk j.s)
    (hf : ∀ l j, MemOk j.s → MemOk (f l j).s) : MemOk (j.place p f).s := by
  refine jobGo_mem h fun j h => ?_
  split
  · exact hf _ j h
  · exact h
  · exact h
  · exact h
theorem jobIte_mem {c : Prop} [Decidable c] {a b : Job} (ha : MemOk a.s) (hb : MemOk b.s) : MemOk (if c then a else
    b).s := by
  split <;> assumption
theorem jobRead_mem {j : Job} (c : EngCmd) (sp : Nat) (a : Int) (n : Nat) {f : List Byte → Job → Job} (h : MemOk j.s)
    (hf : ∀ b j, MemOk j.s → MemOk (f b j).s) : MemOk (j.read c sp a n f).s := by
  refine jobPlace_mem _ h fun l j h => ?_
  dsimp only
  split
  · exact h
  · exact hf _ _ (engBytes_mem _ _ _ h)
theorem jobPut_mem {j : Job} (c : EngCmd) (l : Loc) (b : List Byte) (h : MemOk j.s) : MemOk (j.put c l b).s := by
  cases l with
  | glob a => unfold Job.put; dsimp only; exact homeStore_mem _ _ (sendKeys_mem _ _ _ h)
  | spad a => unfold Job.put; dsimp only; exact storeLocs_mem _ h
theorem jobWrite_mem {j : Job} (c : EngCmd) (t : Option Nat) (sp : Nat) (a : Int) (b : List Byte) (h : MemOk j.s) :
    MemOk (j.write c t sp a b).s := by
  refine jobPlace_mem _ h fun l j h => ?_
  split
  · exact jobPut_mem _ _ _ h
  · exact h
theorem jobFoldl_mem {α : Type} {f : Job → α → Job} (hf : ∀ j x, MemOk j.s → MemOk (f j x).s) (l : List α) {j : Job}
    (h : MemOk j.s) : MemOk (l.foldl f j).s := by
  induction l generalizing j with
  | nil => exact h
  | cons a l ih => exact ih (hf j a h)
theorem jobWriteCodes_mem {j : Job} (c : EngCmd) (t : Option Nat) (sp : Nat) (base : Int) (n : Nat)
    (codes : List (Nat × Nat)) (h : MemOk j.s) : MemOk (j.writeCodes c t sp base n codes).s := by
  refine jobFoldl_mem (fun j a h => jobPlace_mem _ h fun l j h => ?_) _ h
  split
  · exact h
  · exact jobPut_mem _ _ _ h
theorem jobBase_mem {j : Job} (c : EngCmd) (i1 : Nat) {f : Int → Nat → Job → Job} (h : MemOk j.s)
    (hf : ∀ a n j, MemOk j.s → MemOk (f a n j).s) : MemOk (j.base c i1 f).s := by
  unfold Job.base
  dsimp only
  split
  · exact jobRead_mem _ _ _ _ h fun b j h => hf _ _ j h
  · exact hf _ _ j h
theorem copyElem_mem (c : EngCmd) (t : Option Nat) (x : Nat × Nat × Nat × Nat) {j : Job} (h : MemOk j.s) :
    MemOk (copyElem c t x j).s :=
  jobRead_mem _ _ _ _ h fun _ _ h => jobBase_mem _ _ h fun _ _ _ h => jobWrite_mem _ _ _ _ _ h
theorem readAll_mem (c : EngCmd) (sp n : Nat) {f : List (List Byte) → Job → Job} (hf : ∀ b j, MemOk j.s → MemOk (f b
    j).s)
    (l : List Int) (acc : List (List Byte)) {j : Job} (h : MemOk j.s) : MemOk (readAll c sp n f l acc j).s := by
  induction l generalizing acc j with
  | nil => exact hf _ j h
  | cons a r ih => exact jobRead_mem _ _ _ _ h fun b j h => ih _ h
theorem copyBlock_mem (c : EngCmd) (t : Option Nat) (f : MXF) (blk i1 i2 i3 : Nat) {j : Job} (h : MemOk j.s) :
    MemOk (copyBlock c t f blk i1 i2 i3 j).s := by
  refine readAll_mem _ _ _ (fun bs j h => jobBase_mem _ _ h fun _ _ j h => jobWrite_mem _ _ _ _ _ ?_) _ _ h
  exact jobIte_mem (jobPlace_mem _ h fun _ _ h => h) (jobWriteCodes_mem _ _ _ _ _ _ h)
theorem jobTarget_mem {j : Job} (c : EngCmd) {f : Option Nat → Job → Job} (h : MemOk j.s)
    (hf : ∀ t j, MemOk j.s → MemOk (f t j).s) : MemOk (j.target c f).s := by
  unfold Job.target
  split
  · refine jobBase_mem _ _ h fun _ _ j h => ?_
    split
    · exact hf _ j h
    · exact h
  · exact hf _ j h
theorem copyJob_mem (c : EngCmd) {j : Job} (h : MemOk j.s) : MemOk (copyJob c j).s := by
  refine jobTarget_mem _ h fun t j h => jobPlace_mem _ h fun _ j h => ?_
  dsimp only
  split
  · exact jobFoldl_mem (fun _ _ h => copyElem_mem _ _ _ h) _ h
  · split
    · exact jobFoldl_mem (fun _ _ h => copyBlock_mem _ _ _ _ _ _ _ h) _ h
    · exact jobWrite_mem _ _ _ _ _ (jobFoldl_mem (fun _ _ h => copyBlock_mem _ _ _ _ _ _ _ h) _ h)
theorem mcastSource_mem (c : EngCmd) {f : List Byte → Job → Job} (hf : ∀ b j, MemOk j.s → MemOk (f b j).s) {j : Job}
    (h : MemOk j.s) : MemOk (mcastSource c f j).s := by
  unfold mcastSource
  dsimp only
  split
  · refine readAll_mem _ _ _ (fun bs j h => ?_) _ _ h
    exact hf _ _ (cmdUpd_mem _ _ h)
  · exact hf _ _ h
theorem mcastJob_mem (c : EngCmd) (i : Nat) {j : Job} (h : MemOk j.s) : MemOk (mcastJob c i j).s :=
  jobPlace_mem _ h fun _ _ h => mcastSource_mem _ (fun _ _ h => jobPlace_mem _ h fun _ _ h => jobPut_mem _ _ _ h) h
theorem gathJob_mem (c : EngCmd) (g : Nat) {j : Job} (h : MemOk j.s) : MemOk (gathJob c g j).s := by
  refine jobRead_mem _ _ _ _ h fun _ j h => ?_
  dsimp only
  split
  · exact jobRead_mem _ _ _ _ h fun _ _ h => jobWrite_mem _ _ _ _ _ h
  · exact jobRead_mem _ _ _ _ h fun _ _ h => jobWrite_mem _ _ _ _ _ h
theorem barrierUpdate_mem (x1 : EngCmd) (x2 : Nat) (x3 : Option Byte) {s : State} (h : MemOk s) : MemOk
    (barrierUpdate x1 x2 x3 s) := by
  unfold barrierUpdate
  try dsimp only
  repeat' (first
    | with_reducible assumption | intro _ | with_reducible apply storeLocs_mem
    | with_reducible apply memParts_of | dsimp only [memOk_mk] | with_reducible apply memOk_foldl
    | with_reducible apply memOk_ite | split)
theorem ecwUpdate_mem (x1 : EngCmd) (x2 : Option Byte) {s : State} (h : MemOk s) : MemOk (ecwUpdate x1 x2 s) := by
  unfold ecwUpdate
  try dsimp only
  repeat' (first
    | with_reducible assumption | intro _ | with_reducible apply cwVirt_mem | with_reducible apply memParts_of
    | dsimp only [memOk_mk] | with_reducible apply memOk_foldl | with_reducible apply memOk_ite)
theorem arrivalRelease_mem (x1 : EngCmd) (x2 : Sig) (x3 : Option Byte) {s : State} (h : MemOk s) : MemOk
    (arrivalRelease x1 x2 x3 s) := by
  unfold arrivalRelease
  try dsimp only
  repeat' (first
    | with_reducible assumption | intro _ | with_reducible apply homeBytesPut_mem
    | with_reducible apply memParts_of | dsimp only [memOk_mk] | with_reducible apply memOk_foldl
    | with_reducible apply memOk_ite | split)
theorem nodeCmdEnd_mem (x1 : EngCmd) {s : State} (h : MemOk s) : MemOk (nodeCmdEnd x1 s) := by
  unfold nodeCmdEnd
  try dsimp only
  repeat' (first
    | with_reducible assumption | intro _ | with_reducible apply nodeUpd_mem | with_reducible apply memParts_of
    | dsimp only [memOk_mk] | with_reducible apply memOk_foldl | with_reducible apply memOk_ite | split)
theorem cmdLast_mem (x1 : Nat) {s : State} (h : MemOk s) : MemOk (cmdLast x1 s) := by
  unfold cmdLast
  try dsimp only
  repeat' (first
    | with_reducible assumption | intro _ | with_reducible apply memParts_of | dsimp only [memOk_mk])
theorem itemOver_mem (x1 : Nat) (x2 : Nat) (x3 : Option Byte) (x4 : Sig) (x5 : Nat) (x6 : BitVec 6) {s : State} (h :
    MemOk s) : MemOk (itemOver x1 x2 x3 x4 x5 x6 s) := by
  unfold itemOver
  try dsimp only
  repeat' (first
    | with_reducible assumption | intro _ | with_reducible apply cmdUpd_mem
    | with_reducible apply nodeCmdEnd_mem | with_reducible apply cmdLast_mem | with_reducible apply memParts_of
    | dsimp only [memOk_mk] | with_reducible apply memOk_foldl | with_reducible apply memOk_ite | split)
theorem itemWaits_mem (x1 : EngCmd) (x2 : Nat) {s : State} (h : MemOk s) : MemOk (itemWaits x1 x2 s) := by
  unfold itemWaits
  try dsimp only
  repeat' (first
    | with_reducible assumption | intro _ | with_reducible apply askMigr_mem)
theorem finishItem_mem (c : EngCmd) (i : Nat) {s : State} (j : Job) (hs : MemOk s) (h : MemOk j.s) : MemOk
    (finishItem c i s j) := by
  unfold finishItem
  try dsimp only
  repeat' (first
    | with_reducible exact h | with_reducible assumption | with_reducible apply itemWaits_mem
    | with_reducible apply arrivalRelease_mem | with_reducible apply barrierUpdate_mem
    | with_reducible apply onCore_mem | with_reducible apply hotBytes_mem | with_reducible apply itemOver_mem
    | with_reducible apply ecwUpdate_mem | with_reducible apply memParts_of | dsimp only [memOk_mk]
    | with_reducible apply memOk_foldl | with_reducible apply memOk_ite | intro _ | split)
theorem failItem_mem (c : EngCmd) (item : Nat) (cause : Byte) (j : Job) {s : State} (h : MemOk s) (hj : MemOk j.s) : MemOk (failItem c item cause j s) := by
  unfold failItem
  dsimp only
  split
  · exact itemWaits_mem _ _ (cmdUpd_mem _ _ h)
  · exact itemWaits_mem _ _ (cmdUpd_mem _ _ h)
  · exact finishItem_mem _ _ _ h hj
theorem itemJob_mem (c : EngCmd) (i : Nat) {s : State} (h : MemOk s) : MemOk (itemJob c i s).s := by
  have h0 : MemOk (Job.on s).s := h
  unfold itemJob
  dsimp only
  split
  · exact jobGo_mem h0 fun _ h => copyJob_mem _ h
  · exact jobGo_mem h0 fun _ h => copyJob_mem _ h
  · exact mcastJob_mem _ _ h0
  · exact jobGo_mem h0 fun _ h => gathJob_mem _ _ h
  · exact jobGo_mem h0 fun _ h => gathJob_mem _ _ h
  · exact h0
theorem failStart_mem (x1 : EngCmd) (x2 : Byte) {s : State} (h : MemOk s) : MemOk (failStart x1 x2 s) :=
  memOk_foldl (fun _ _ h => failItem_mem _ _ _ _ h h) _ (cmdUpd_mem _ _ h)
theorem publishTask_mem (x1 : Task) {s : State} (h : MemOk s) : MemOk (publishTask x1 s) := by
  unfold publishTask
  try dsimp only
  repeat' (first
    | with_reducible assumption | intro _ | with_reducible apply onCore_mem
    | with_reducible apply releaseWrites_mem | with_reducible apply l2Push_mem
    | with_reducible apply memParts_of | dsimp only [memOk_mk] | with_reducible apply memOk_foldl
    | with_reducible apply memOk_ite | split)
theorem startGnode_mem (x1 : EngCmd) {s : State} (h : MemOk s) : MemOk (startGnode x1 s) := by
  unfold startGnode
  try dsimp only
  repeat' (first
    | with_reducible assumption | intro _ | with_reducible apply cmdUpd_mem | with_reducible apply launchUpd_mem
    | with_reducible apply readyNode_mem | with_reducible apply publishTask_mem
    | with_reducible apply memParts_of | dsimp only [memOk_mk] | with_reducible apply memOk_foldl
    | with_reducible apply memOk_ite | split)
theorem begin1_mem (x1 : EngCmd) {s : State} (h : MemOk s) : MemOk (begin1 x1 s) := h
theorem startFlag_mem (x1 : EngCmd) {s : State} (h : MemOk s) : MemOk (startFlag x1 s) := by
  unfold startFlag
  try dsimp only
  repeat' (first
    | with_reducible assumption | intro _ | with_reducible apply itemWaits_mem
    | with_reducible apply failStart_mem | with_reducible apply begin1_mem | with_reducible apply memParts_of
    | dsimp only [memOk_mk] | with_reducible apply memOk_foldl | with_reducible apply memOk_ite | split)
theorem nodeAcquire_mem (x1 : EngCmd) {s : State} (h : MemOk s) : MemOk (nodeAcquire x1 s) := by
  unfold nodeAcquire
  try dsimp only
  repeat' (first
    | with_reducible assumption | intro _ | with_reducible apply l2Forget_mem | with_reducible apply memParts_of
    | dsimp only [memOk_mk] | with_reducible apply memOk_foldl)
theorem nodeStart_mem (x1 : EngCmd) {s : State} (h : MemOk s) : MemOk (nodeStart x1 s) := by
  unfold nodeStart
  try dsimp only
  repeat' (first
    | with_reducible assumption | intro _ | with_reducible apply nodeAcquire_mem
    | with_reducible apply itemWaits_mem | with_reducible apply failStart_mem | with_reducible apply cmdUpd_mem
    | with_reducible apply startFlag_mem | with_reducible apply memParts_of | dsimp only [memOk_mk]
    | with_reducible apply memOk_foldl | with_reducible apply memOk_ite | split)
theorem startCmd_mem (x1 : EngCmd) {s : State} (h : MemOk s) : MemOk (startCmd x1 s) := by
  unfold startCmd
  try dsimp only
  repeat' (first
    | with_reducible assumption | intro _ | with_reducible apply nodeStart_mem
    | with_reducible apply startGnode_mem | with_reducible apply startFlag_mem
    | with_reducible apply memParts_of | dsimp only [memOk_mk] | with_reducible apply memOk_foldl
    | with_reducible apply memOk_ite)
theorem countStart_mem (x1 : EngCmd) {s : State} (h : MemOk s) : MemOk (countStart x1 s) := by
  unfold countStart
  try dsimp only
  repeat' (first
    | with_reducible assumption | intro _ | with_reducible apply onCore_mem | with_reducible apply countEvt_mem
    | with_reducible apply memParts_of | dsimp only [memOk_mk] | with_reducible apply memOk_foldl
    | with_reducible apply memOk_ite | split)
theorem scanReadGo_mem (c : EngCmd) (off z : Nat) {f : List Nat → Job → Job} (hf : ∀ b j, MemOk j.s → MemOk (f b j).s)
    (l acc : List Nat) {j : Job} (h : MemOk j.s) : MemOk (scanRead.go c off z f l acc j).s := by
  induction l generalizing acc j with
  | nil => exact hf _ j h
  | cons i r ih =>
    refine jobPlace_mem _ h fun l j h => ?_
    split
    · split
      · exact h
      · exact ih _ (engBytes_mem _ _ _ h)
    · exact h
theorem scanRead_mem (c : EngCmd) (off cnt z : Nat) {f : List Nat → Job → Job} (hf : ∀ b j, MemOk j.s → MemOk (f b j).s)
    {j : Job} (h : MemOk j.s) : MemOk (scanRead c off cnt z f j).s := by
  unfold scanRead
  split
  · exact scanReadGo_mem _ _ _ hf _ _ h
  · dsimp only
    split
    · exact jobGo_mem h fun _ h => h
    · exact hf _ _ (focus_mem_ok _ (spadReadN_mem _ _ (focus_mem_ok _ h)))
theorem scanWrite_mem (c : EngCmd) (i off z : Nat) (l : List Nat) {j : Job} (h : MemOk j.s) :
    MemOk (scanWrite c i off z l j).s := by
  unfold scanWrite
  dsimp only
  split
  · exact jobFoldl_mem (fun _ _ h => jobPlace_mem _ h fun _ _ h => jobPut_mem _ _ _ h) _ h
  · exact jobGo_mem h fun _ h => onCore_mem _ _ h fun _ h => spadWriteN_mem _ _ h
theorem scanJob_mem (c : EngCmd) {j : Job} (h : MemOk j.s) : MemOk (scanJob c j).s := by
  refine scanRead_mem _ _ _ _ (fun _ _ h => scanRead_mem _ _ _ _ (fun _ _ h => scanRead_mem _ _ _ _ (fun _ _ h =>
    scanRead_mem _ _ _ _ (fun _ _ h => scanRead_mem _ _ _ _ (fun _ _ h => scanRead_mem _ _ _ _ (fun _ _ h => ?_) h)
        h) h) h) h) h
  exact cmdUpd_mem _ _ (scanWrite_mem _ _ _ _ _ (scanWrite_mem _ _ _ _ _ h))
theorem collFail_mem (x1 : Byte) {s : State} (x3 : EngCmd) (h : MemOk s) : MemOk (collFail x1 s x3) :=
  failItem_mem _ _ _ _ h h
theorem collFailAll_mem (x1 : List (EngCmd × List Nat)) {s : State} (h : MemOk s) : MemOk (collFailAll x1 s) := by
  unfold collFailAll
  try dsimp only
  repeat' (first
    | with_reducible assumption | intro _ | with_reducible apply collFail_mem | with_reducible apply memParts_of
    | dsimp only [memOk_mk] | with_reducible apply memOk_foldl)
theorem failMoves_mem (x1 : EngCmd → Bool) (x2 : Nat) (x3 : Byte) {s : State} (h : MemOk s) : MemOk (failMoves x1 x2
    x3 s) := by
  unfold failMoves
  refine memOk_foldl (fun s c h => memOk_foldl (fun s i h => ?_) _ h) _ h
  dsimp only
  refine memOk_ite (failItem_mem _ _ _ _ h ?_) h
  split
  · exact jobGo_mem (j := Job.on s) h fun _ h => scanJob_mem _ h
  · exact itemJob_mem _ _ h
theorem failColls_mem (x1 : EngCmd → Bool) (x2 : Nat) (x3 : Byte) {s : State} (h : MemOk s) : MemOk (failColls x1 x2
    x3 s) := by
  unfold failColls
  try dsimp only
  repeat' (first
    | with_reducible assumption | intro _ | with_reducible apply collFail_mem | with_reducible apply memParts_of
    | dsimp only [memOk_mk] | with_reducible apply memOk_foldl | with_reducible apply memOk_ite | split)
theorem failItems_mem (x1 : EngCmd → Bool) (x2 : Nat) (x3 : Byte) {s : State} (h : MemOk s) : MemOk (failItems x1 x2
    x3 s) := by
  unfold failItems
  try dsimp only
  repeat' (first
    | with_reducible assumption | intro _ | with_reducible apply failColls_mem
    | with_reducible apply failMoves_mem)

/-! ## Sync -/

theorem waitWord_mem (x1 : Scope) (x2 : Nat) {s : State} (h : MemOk s) : MemOk (waitWord x1 x2 s).2 := by
  unfold waitWord
  try dsimp only
  repeat' (first
    | with_reducible assumption | intro _ | with_reducible apply placeFetch_mem)
theorem tokWrite_mem (x1 : PendOp) (x2 : RDst) (x3 : BitVec 32) (x4 : Vec) {s : State} (h : MemOk s) : MemOk
    (tokWrite x1 x2 x3 x4 s) := by
  unfold tokWrite
  try dsimp only
  repeat' (first
    | with_reducible assumption | intro _ | with_reducible apply State.mapCore_mem
    | with_reducible apply memParts_of | dsimp only [memOk_mk] | with_reducible apply memOk_foldl
    | with_reducible apply memOk_ite)
theorem dropPend_mem (x1 : PendOp) {s : State} (h : MemOk s) : MemOk (dropPend x1 s) := by
  unfold dropPend
  try dsimp only
  repeat' (first
    | with_reducible assumption | intro _ | with_reducible apply State.mapCore_mem
    | with_reducible apply replay_mem | with_reducible apply memParts_of | dsimp only [memOk_mk]
    | with_reducible apply memOk_foldl | with_reducible apply memOk_ite | split)
theorem tokError_mem (x1 : PendOp) (x2 : Byte) {s : State} (h : MemOk s) : MemOk (tokError x1 x2 s) := by
  unfold tokError
  try dsimp only
  repeat' (first
    | with_reducible assumption | intro _ | with_reducible apply addErr_mem | with_reducible apply freeVal_mem
    | with_reducible apply tokWrite_mem | with_reducible apply memParts_of | dsimp only [memOk_mk]
    | with_reducible apply memOk_foldl | with_reducible apply memOk_ite | split)
theorem countHot_mem (x1 : PendOp) {s : State} (h : MemOk s) : MemOk (countHot x1 s) := by
  unfold countHot
  try dsimp only
  repeat' (first
    | with_reducible assumption | intro _ | with_reducible apply hotBytes_mem | with_reducible apply memParts_of
    | dsimp only [memOk_mk] | with_reducible apply memOk_foldl | with_reducible apply memOk_ite | split)
theorem noteSpin_mem (x1 : Word) (x2 : Nat) (x3 : Word) {s : State} (h : MemOk s) : MemOk (noteSpin x1 x2 x3 s) :=
    by
  unfold noteSpin
  try dsimp only
  repeat' (first
    | with_reducible assumption | intro _ | with_reducible apply State.mapCore_mem
    | with_reducible apply memParts_of | dsimp only [memOk_mk] | with_reducible apply memOk_foldl
    | with_reducible apply memOk_ite | split)
theorem completeOp_mem (x1 : PendOp) {s : State} (h : MemOk s) : MemOk (completeOp x1 s) := by
  unfold completeOp
  try dsimp only
  repeat' (first
    | with_reducible assumption | intro _ | with_reducible apply tokError_mem
    | with_reducible apply countHot_mem | with_reducible apply tokWrite_mem
    | with_reducible apply digestLoad_mem | with_reducible apply storeLocs_mem
    | with_reducible apply performLine_mem | with_reducible apply acquireObj_mem
    | with_reducible apply noteSpin_mem | with_reducible apply clearWsig_mem
    | with_reducible apply releaseWrites_mem | with_reducible apply releaseObj_mem
    | with_reducible apply writeBackAll_mem | with_reducible apply flushLine_mem
    | with_reducible apply orFlags_mem | with_reducible apply joinSig_mem | with_reducible apply addErr_mem
    | with_reducible apply chargeTask_mem | with_reducible apply memParts_of | dsimp only [memOk_mk]
    | with_reducible apply memOk_foldl | with_reducible apply memOk_ite | split)
theorem takeFill_mem (x1 : Nat) (x2 : Option (Fin 8)) (x3 : Bool) {s : State} (h : MemOk s) : MemOk (takeFill x1 x2
    x3 s) := by
  unfold takeFill
  try dsimp only
  repeat' (first
    | with_reducible assumption | intro _ | with_reducible apply l2Fill_mem
    | with_reducible apply serveLoads_mem | with_reducible apply fillLine_mem | with_reducible apply memParts_of
    | dsimp only [memOk_mk] | with_reducible apply memOk_foldl | with_reducible apply memOk_ite)

/-! ## Region -/

theorem onGang_mem (x1 : State → State) {s : State} (h1 : ∀ s, MemOk s → MemOk (x1 s)) (h : MemOk s) : MemOk (onGang
    x1 s) := memOk_foldl (fun _ _ h => onCore_mem _ _ h h1) _ h
theorem unwindTo_mem (x1 : Nat) {s : State} (h : MemOk s) : MemOk (unwindTo x1 s) := h
theorem rollNow_mem (x1 : Nat) {s : State} (h : MemOk s) : MemOk (rollNow x1 s) := by
  unfold rollNow
  try dsimp only
  repeat' (first
    | with_reducible assumption | intro _ | with_reducible apply countEvt_mem
    | with_reducible apply unwindTo_mem | with_reducible apply rerunEnded_mem | with_reducible apply memParts_of
    | dsimp only [memOk_mk] | with_reducible apply memOk_foldl | with_reducible apply memOk_ite | split)
theorem behindCkpt_mem (x1 : Nat) (x2 : Region) {s : State} (h : MemOk s) : MemOk (behindCkpt x1 x2 s) := by
  unfold behindCkpt
  try dsimp only
  repeat' (first
    | with_reducible assumption | intro _ | with_reducible apply State.mapRgn_mem
    | with_reducible apply memParts_of | dsimp only [memOk_mk] | with_reducible apply memOk_foldl
    | with_reducible apply memOk_ite)
theorem rollMember_mem (x1 : Nat) (x2 : Nat) (x3 : Region) {s : State} (h : MemOk s) : MemOk (rollMember x1 x2 x3 s)
    := by
  unfold rollMember
  try dsimp only
  repeat' (first
    | with_reducible assumption | intro _ | with_reducible apply behindCkpt_mem
    | with_reducible apply countEvt_mem | with_reducible apply unwindTo_mem | with_reducible apply rollNow_mem
    | with_reducible apply ringStep_mem | with_reducible apply landStep_mem | with_reducible apply memParts_of
    | dsimp only [memOk_mk] | with_reducible apply memOk_foldl | with_reducible apply memOk_ite | split)
theorem rollOthers_mem (x1 : Nat) {s : State} (h : MemOk s) : MemOk (rollOthers x1 s) := by
  unfold rollOthers
  try dsimp only
  repeat' (first
    | with_reducible assumption | intro _ | with_reducible apply onCore_mem
    | with_reducible apply rollMember_mem | with_reducible apply memParts_of | dsimp only [memOk_mk]
    | with_reducible apply memOk_foldl)
theorem rollGang_mem (x1 : Nat) {s : State} (h : MemOk s) : MemOk (rollGang x1 s) := by
  unfold rollGang
  try dsimp only
  repeat' (first
    | with_reducible assumption | intro _ | with_reducible apply rollOthers_mem
    | with_reducible apply rollNow_mem)
theorem stepStop_mem {s : State} (h : MemOk s) : MemOk (stepStop s) := by
  unfold stepStop
  try dsimp only
  repeat' (first
    | with_reducible assumption | intro _ | with_reducible apply takeTrap_mem | with_reducible apply memParts_of
    | dsimp only [memOk_mk] | with_reducible apply memOk_foldl | with_reducible apply memOk_ite | split)
theorem restoreShadow_mem {s : State} (h : MemOk s) : MemOk (restoreShadow s) := h
theorem closeRegion_mem {s : State} (h : MemOk s) : MemOk (closeRegion s) := h
theorem beginRerun_mem (x1 : RState) {s : State} (h : MemOk s) : MemOk (beginRerun x1 s) := h
theorem toRecovery_mem {s : State} (h : MemOk s) : MemOk (toRecovery s) := by
  unfold toRecovery
  try dsimp only
  repeat' (first
    | with_reducible assumption | intro _ | with_reducible apply State.mapCore_mem
    | with_reducible apply takeTrap_mem | with_reducible apply memParts_of | dsimp only [memOk_mk]
    | with_reducible apply memOk_foldl | with_reducible apply memOk_ite)
theorem setRbcause_mem (x1 : Nat) {s : State} (h : MemOk s) : MemOk (setRbcause x1 s) := h
theorem freeApart_mem (x1 : PendOp) {s : State} (h : MemOk s) : MemOk (freeApart x1 s) := by
  unfold freeApart
  try dsimp only
  repeat' (first
    | with_reducible assumption | intro _ | with_reducible apply orSigOf_mem | with_reducible apply memParts_of
    | dsimp only [memOk_mk] | with_reducible apply memOk_foldl | with_reducible apply memOk_ite | split)
theorem failOps_mem (x1 : State → PendOp → Bool) (x2 : Byte) {s : State} (h : MemOk s) : MemOk (failOps x1 x2 s) :=
    by
  unfold failOps
  try dsimp only
  repeat' (first
    | with_reducible assumption | intro _ | with_reducible apply onCore_mem | with_reducible apply dropPend_mem
    | with_reducible apply tokError_mem | with_reducible apply freeApart_mem | with_reducible apply memParts_of
    | dsimp only [memOk_mk] | with_reducible apply memOk_foldl)
theorem failFill_mem (x1 : Nat) (x2 : Byte) {s : State} (h : MemOk s) : MemOk (failFill x1 x2 s) := by
  unfold failFill
  try dsimp only
  repeat' (first
    | with_reducible assumption | intro _ | with_reducible apply failFetch_mem
    | with_reducible apply State.mapCore_mem | with_reducible apply memParts_of | dsimp only [memOk_mk]
    | with_reducible apply memOk_foldl)
theorem failFills_mem (x1 : Nat → Bool) (x2 : Nat) (x3 : Byte) {s : State} (h : MemOk s) : MemOk (failFills x1 x2 x3
    s) := by
  unfold failFills
  try dsimp only
  repeat' (first
    | with_reducible assumption | intro _ | with_reducible apply onCore_mem | with_reducible apply failFill_mem
    | with_reducible apply memParts_of | dsimp only [memOk_mk] | with_reducible apply memOk_foldl)
theorem scrub_mem (x1 : Nat) {s : State} (h : MemOk s) : MemOk (scrub x1 s) := by
  unfold scrub
  try dsimp only
  repeat' (first
    | with_reducible assumption | intro _ | with_reducible apply memParts_of | dsimp only [memOk_mk]
    | with_reducible apply memOk_foldl | with_reducible apply memOk_ite)
theorem declareDead_mem (x1 : Nat) (x2 : Byte) {s : State} (h : MemOk s) : MemOk (declareDead x1 x2 s) := by
  unfold declareDead
  try dsimp only
  repeat' (first
    | with_reducible assumption | intro _ | with_reducible apply record_mem | with_reducible apply failOps_mem
    | with_reducible apply scrub_mem | with_reducible apply memParts_of | dsimp only [memOk_mk])
theorem restartAgent_mem (x1 : Nat) {s : State} (h : MemOk s) : MemOk (restartAgent x1 s) := h
theorem takeSpare_mem (x1 : Nat) {s : State} (h : MemOk s) : MemOk (takeSpare x1 s).2 := by
  unfold takeSpare
  try dsimp only
  repeat' (first
    | with_reducible assumption | intro _ | with_reducible apply dieUpd_mem | with_reducible apply memParts_of
    | dsimp only [memOk_mk] | with_reducible apply memOk_foldl | with_reducible apply memOk_ite | split)
theorem retireRecord_mem (x1 : Nat) (x2 : Word) (x3 : Option Nat) {s : State} (h : MemOk s) : MemOk (retireRecord x1
    x2 x3 s) := by
  unfold retireRecord
  try dsimp only
  repeat' (first
    | with_reducible assumption | intro _ | with_reducible apply record_mem)
theorem retestRanges_mem {s : State} (h : MemOk s) : MemOk (retestRanges s) := by
  unfold retestRanges
  try dsimp only
  repeat' (first
    | with_reducible assumption | intro _ | with_reducible apply nodeUpd_mem | with_reducible apply memParts_of
    | dsimp only [memOk_mk] | with_reducible apply memOk_foldl | with_reducible apply memOk_ite | split)
theorem retireCore_mem {s : State} (h : MemOk s) : MemOk (retireCore s) := by
  unfold retireCore
  try dsimp only
  repeat' (first
    | with_reducible assumption | intro _ | with_reducible apply takeSpare_mem
    | with_reducible apply declareDead_mem | with_reducible apply retireRecord_mem
    | with_reducible apply restartAgent_mem | with_reducible apply State.mapCore_mem
    | with_reducible apply retestRanges_mem | with_reducible apply stopTask_mem
    | with_reducible apply memParts_of | dsimp only [memOk_mk] | with_reducible apply memOk_foldl
    | with_reducible apply memOk_ite | split)
theorem afterUndo_mem (x1 : Nat) {s : State} (h : MemOk s) : MemOk (afterUndo x1 s) := by
  unfold afterUndo
  try dsimp only
  repeat' (first
    | with_reducible assumption | intro _ | with_reducible apply beginRerun_mem
    | with_reducible apply setRbcause_mem | with_reducible apply closeRegion_mem
    | with_reducible apply takeTrap_mem | with_reducible apply State.mapCore_mem
    | with_reducible apply retireCore_mem | with_reducible apply toRecovery_mem
    | with_reducible apply memParts_of | dsimp only [memOk_mk] | with_reducible apply memOk_foldl
    | with_reducible apply memOk_ite)
theorem undone_mem (x1 : Nat) {s : State} (h : MemOk s) : MemOk (undone x1 s) := by
  unfold undone
  try dsimp only
  repeat' (first
    | with_reducible assumption | intro _ | with_reducible apply afterUndo_mem
    | with_reducible apply stepStop_mem | with_reducible apply memParts_of | dsimp only [memOk_mk]
    | with_reducible apply memOk_foldl | with_reducible apply memOk_ite)
theorem drainStore_mem (x1 : Held) {s : State} (h : MemOk s) : MemOk (drainStore x1 s) := by
  unfold drainStore
  try dsimp only
  repeat' (first
    | with_reducible assumption | intro _ | with_reducible apply storeLocs_mem
    | with_reducible apply hotBytes_mem | with_reducible apply spadWriteN_mem
    | with_reducible apply drainOut_mem | with_reducible apply memParts_of | dsimp only [memOk_mk]
    | with_reducible apply memOk_foldl | with_reducible apply memOk_ite | split)
theorem drainStash_mem (x1 : Held) {s : State} (h : MemOk s) : MemOk (drainStash x1 s) := by
  unfold drainStash
  try dsimp only
  repeat' (first
    | with_reducible assumption | intro _ | with_reducible apply stashDo_mem | with_reducible apply memParts_of
    | dsimp only [memOk_mk] | with_reducible apply memOk_foldl | with_reducible apply memOk_ite | split)
theorem releaseCmds_mem {s : State} (h : MemOk s) : MemOk (releaseCmds s) := h
theorem ofNoRegion_mem {s : State} (h : MemOk s) : MemOk (ofNoRegion s) := h
theorem noteErr_mem (x1 : ErrSite) (x2 : Nat) {s : State} (h : MemOk s) : MemOk (noteErr x1 x2 s) := by
  unfold noteErr
  try dsimp only
  repeat' (first
    | with_reducible assumption | intro _ | with_reducible apply State.mapCore_mem
    | with_reducible apply State.mapRgn_mem | with_reducible apply memParts_of | dsimp only [memOk_mk]
    | with_reducible apply memOk_foldl | with_reducible apply memOk_ite | split)
theorem joinRerun_mem (x1 : Nat) (x2 : Region) {s : State} (h : MemOk s) : MemOk (joinRerun x1 x2 s) := by
  unfold joinRerun
  try dsimp only
  repeat' (first
    | with_reducible assumption | intro _ | with_reducible apply behindCkpt_mem
    | with_reducible apply unwindTo_mem | with_reducible apply State.mapRgn_mem
    | with_reducible apply memParts_of | dsimp only [memOk_mk] | with_reducible apply memOk_foldl
    | with_reducible apply memOk_ite | split)
theorem applyRow_mem (x1 : Row) {s : State} (h : MemOk s) : MemOk (applyRow x1 s) := by
  unfold applyRow
  try dsimp only
  repeat' (first
    | with_reducible assumption | intro _ | with_reducible apply unwindTo_mem
    | with_reducible apply State.mapRgn_mem | with_reducible apply memParts_of | dsimp only [memOk_mk]
    | with_reducible apply memOk_foldl | with_reducible apply memOk_ite | split)

/-! ## Launch -/

theorem acceptTests_mem (x1 : Launch) {s : State} (h : MemOk s) : MemOk (acceptTests x1 s) := by
  unfold acceptTests
  try dsimp only
  repeat' (first
    | with_reducible assumption | intro _ | with_reducible apply nodeUpd_mem | with_reducible apply memParts_of
    | dsimp only [memOk_mk] | with_reducible apply memOk_foldl | with_reducible apply memOk_ite | split)
theorem acceptLaunch_mem (x1 : Launch) {s : State} (h : MemOk s) : MemOk (acceptLaunch x1 s) := by
  unfold acceptLaunch
  try dsimp only
  repeat' (first
    | with_reducible assumption | intro _ | with_reducible apply writeUsage_mem
    | with_reducible apply launchUpd_mem | with_reducible apply homeWordPut_mem
    | with_reducible apply readyNode_mem | with_reducible apply acceptTests_mem
    | with_reducible apply memParts_of | dsimp only [memOk_mk] | with_reducible apply memOk_foldl
    | with_reducible apply memOk_ite | split)
theorem refuseLaunch_mem (x1 : Nat) (x2 : Nat) (x3 : Nat) (x4 : List Byte) {s : State} (h : MemOk s) : MemOk
    (refuseLaunch x1 x2 x3 x4 s) := by
  unfold refuseLaunch
  try dsimp only
  repeat' (first
    | with_reducible assumption | intro _ | with_reducible apply record_mem
    | with_reducible apply homeWordPut_mem | with_reducible apply memParts_of | dsimp only [memOk_mk]
    | with_reducible apply memOk_foldl | with_reducible apply memOk_ite)

/-! ## Slot -/

theorem slotWrite_mem (x1 : Nat) (x2 : List (Nat × List Byte)) {s : State} (h : MemOk s) : MemOk (slotWrite x1 x2 s)
    := by
  unfold slotWrite
  try dsimp only
  repeat' (first
    | with_reducible assumption | intro _ | with_reducible apply homeBytesPut_mem
    | with_reducible apply memParts_of | dsimp only [memOk_mk] | with_reducible apply memOk_foldl)
theorem syncSlots_mem {s : State} (h : MemOk s) : MemOk (syncSlots s) := by
  unfold syncSlots
  try dsimp only
  repeat' (first
    | with_reducible assumption | intro _ | with_reducible apply homeWordPut_mem
    | with_reducible apply memParts_of | dsimp only [memOk_mk] | with_reducible apply memOk_foldl
    | with_reducible apply memOk_ite | split)
theorem freeSpad_mem (id lo : Nat) {s : State} (h : MemOk s) : MemOk (freeSpad id lo s) :=
  ⟨Mem.wf_paste _ _ (Mem.wf_drop _ _ h.1), h.2.1, h.2.2⟩

/-! ## Sched -/

theorem promiseTo_mem (x1 : Cand) (x2 : List Nat) {s : State} (h : MemOk s) : MemOk (promiseTo x1 x2 s) := by
  unfold promiseTo
  try dsimp only
  repeat' (first
    | with_reducible assumption | intro _ | with_reducible apply onCore_mem
    | with_reducible apply State.mapCore_mem | with_reducible apply memParts_of | dsimp only [memOk_mk]
    | with_reducible apply memOk_foldl)
theorem switchFor_mem (x1 : Task) (x2 : SaveWhy) (x3 : Cand) (x4 : List Nat) {s : State} (h : MemOk s) : MemOk
    (switchFor x1 x2 x3 x4 s) := by
  unfold switchFor
  try dsimp only
  repeat' (first
    | with_reducible assumption | intro _ | with_reducible apply stopTask_mem
    | with_reducible apply promiseTo_mem | with_reducible apply memParts_of | dsimp only [memOk_mk]
    | with_reducible apply memOk_foldl)
theorem yieldPoint_mem (x1 : SaveWhy) (x2 : Nat) {s : State} (h : MemOk s) : MemOk (yieldPoint x1 x2 s) := by
  unfold yieldPoint
  try dsimp only
  repeat' (first
    | with_reducible assumption | intro _ | with_reducible apply switchFor_mem
    | with_reducible apply State.mapCore_mem | with_reducible apply memParts_of | dsimp only [memOk_mk]
    | with_reducible apply memOk_foldl | with_reducible apply memOk_ite | split)
theorem chargeNow_mem {s : State} (h : MemOk s) : MemOk (chargeNow s) := by
  unfold chargeNow
  try dsimp only
  repeat' (first
    | with_reducible assumption | intro _ | with_reducible apply chargeTask_mem
    | with_reducible apply State.mapCore_mem | with_reducible apply memParts_of | dsimp only [memOk_mk]
    | with_reducible apply memOk_foldl | with_reducible apply memOk_ite | split)
theorem loadKtt_mem (x1 : Nat) {s : State} (h : MemOk s) : MemOk (loadKtt x1 s) := by
  unfold loadKtt
  try dsimp only
  repeat' (first
    | with_reducible assumption | intro _ | with_reducible apply State.mapCore_mem
    | with_reducible apply memParts_of | dsimp only [memOk_mk] | with_reducible apply memOk_foldl
    | with_reducible apply memOk_ite)
theorem startTask_mem (x1 : Task) (x2 : Launch) (x3 : Node) {s : State} (h : MemOk s) : MemOk (startTask x1 x2 x3 s)
    := by
  unfold startTask
  try dsimp only
  repeat' (first
    | with_reducible assumption | intro _ | with_reducible apply loadKtt_mem | with_reducible apply freeSpad_mem
    | with_reducible apply State.mapCore_mem | with_reducible apply acquireSig_mem
    | with_reducible apply State.mapSp_mem | with_reducible apply memParts_of | dsimp only [memOk_mk])
theorem takeSlots_mem (die k : Nat) {s : State} (h : MemOk s) : MemOk (takeSlots die k s).2 := by
  induction k generalizing s with
  | zero => exact h
  | succ k ih =>
    unfold takeSlots
    dsimp only
    split
    · exact h
    · exact ih (dieUpd_mem _ _ h fun _ hw => hw)
theorem bindFresh_mem (x1 : Cand) (x2 : Launch) (x3 : Node) (x4 : List Nat) {s : State} (h : MemOk s) : MemOk
    (bindFresh x1 x2 x3 x4 s) := by
  unfold bindFresh
  try dsimp only
  repeat' (first
    | with_reducible assumption | intro _ | with_reducible apply takeSlots_mem
    | with_reducible apply nodeUpd_mem | with_reducible apply onCore_mem | with_reducible apply startTask_mem
    | with_reducible apply memParts_of | dsimp only [memOk_mk] | with_reducible apply memOk_foldl
    | with_reducible apply memOk_ite | split)
theorem bindSaved_mem (x1 : Cand) (x2 : List Nat) {s : State} (h : MemOk s) : MemOk (bindSaved x1 x2 s) := by
  unfold bindSaved
  try dsimp only
  repeat' (first
    | with_reducible assumption | intro _ | with_reducible apply taskUpd_mem | with_reducible apply onCore_mem
    | with_reducible apply State.mapCore_mem | with_reducible apply memParts_of | dsimp only [memOk_mk]
    | with_reducible apply memOk_foldl)
theorem bindCand_mem (x1 : Cand) (x2 : List Nat) {s : State} (h : MemOk s) : MemOk (bindCand x1 x2 s) := by
  unfold bindCand
  try dsimp only
  repeat' (first
    | with_reducible assumption | intro _ | with_reducible apply syncSlots_mem
    | with_reducible apply bindSaved_mem | with_reducible apply nodeUpd_mem | with_reducible apply bindFresh_mem
    | with_reducible apply memParts_of | dsimp only [memOk_mk] | with_reducible apply memOk_foldl
    | with_reducible apply memOk_ite | split)
theorem dropPromise_mem (x1 : Promise) {s : State} (h : MemOk s) : MemOk (dropPromise x1 s) := by
  unfold dropPromise
  try dsimp only
  repeat' (first
    | with_reducible assumption | intro _ | with_reducible apply onCore_mem
    | with_reducible apply State.mapCore_mem | with_reducible apply memParts_of | dsimp only [memOk_mk]
    | with_reducible apply memOk_foldl)
theorem clearCore_mem {s : State} (h : MemOk s) : MemOk (clearCore s) := h
theorem settleCmd_mem (x1 : Nat) (x2 : Task) (x3 : Saved) (x4 : EngCmd) {s : State} (h : MemOk s) : MemOk (settleCmd
    x1 x2 x3 x4 s) := by
  unfold settleCmd
  try dsimp only
  repeat' (first
    | with_reducible assumption | intro _ | with_reducible apply chargeTask_mem
    | with_reducible apply taskUpd_mem | with_reducible apply homeWordPut_mem | with_reducible apply memParts_of
    | dsimp only [memOk_mk] | with_reducible apply memOk_foldl | with_reducible apply memOk_ite | split)
theorem settleTask_mem (x1 : Nat) {s : State} (h : MemOk s) : MemOk (settleTask x1 s) := by
  unfold settleTask
  try dsimp only
  repeat' (first
    | with_reducible assumption | intro _ | with_reducible apply settleCmd_mem
    | with_reducible apply memParts_of | dsimp only [memOk_mk] | with_reducible apply memOk_foldl
    | with_reducible apply memOk_ite | split)
theorem saveTask_mem (x1 : Task) (x2 : SaveWhy) {s : State} (h : MemOk s) : MemOk (saveTask x1 x2 s) := by
  unfold saveTask
  try dsimp only
  repeat' (first
    | with_reducible assumption | intro _ | with_reducible apply writeBackAll_mem
    | with_reducible apply dropStall_mem | with_reducible apply syncSlots_mem
    | with_reducible apply chargeTask_mem | with_reducible apply endTask_mem
    | with_reducible apply clearCore_mem | with_reducible apply taskSet_mem | with_reducible apply slotWrite_mem
    | with_reducible apply homeBytesPut_mem | with_reducible apply settleTask_mem
    | with_reducible apply memParts_of | dsimp only [memOk_mk] | with_reducible apply memOk_foldl
    | with_reducible apply memOk_ite | split)
theorem applyJoin_mem {s : State} (x2 : Sig × BitVec 6) (h : MemOk s) : MemOk (applyJoin s x2) := by
  unfold applyJoin
  try dsimp only
  repeat' (first
    | with_reducible assumption | intro _ | with_reducible apply orFlags_mem | with_reducible apply joinSig_mem)
theorem restoreSaved_mem (x1 : Task) (x2 : Saved) {s : State} (h : MemOk s) : MemOk (restoreSaved x1 x2 s) := by
  unfold restoreSaved
  try dsimp only
  repeat' (first
    | with_reducible assumption | intro _ | with_reducible apply memParts_spad
    | with_reducible apply loadKtt_mem | with_reducible apply freeSpad_mem
    | with_reducible apply State.mapCore_mem | with_reducible apply writeBack_mem
    | with_reducible apply invalLines_mem | with_reducible apply applyJoin_mem
    | with_reducible apply taskUpd_mem | with_reducible apply memParts_of | dsimp only [memOk_mk]
    | with_reducible apply memOk_foldl | with_reducible apply memOk_ite | split)
theorem restoreTask_mem (x1 : Task) {s : State} (h : MemOk s) : MemOk (restoreTask x1 s) := by
  unfold restoreTask
  try dsimp only
  repeat' (first
    | with_reducible assumption | intro _ | with_reducible apply settleTask_mem
    | with_reducible apply restoreSaved_mem | with_reducible apply memParts_of | dsimp only [memOk_mk]
    | with_reducible apply memOk_foldl | with_reducible apply memOk_ite | split)
theorem preemptTask_mem (x1 : Task) (x2 : SaveWhy) {s : State} (h : MemOk s) : MemOk (preemptTask x1 x2 s) := by
  unfold preemptTask
  try dsimp only
  repeat' (first
    | with_reducible assumption | intro _ | with_reducible apply stopTask_mem | with_reducible apply onCore_mem
    | with_reducible apply onGang_mem | with_reducible apply rollNow_mem | with_reducible apply memParts_of
    | dsimp only [memOk_mk] | with_reducible apply memOk_foldl | with_reducible apply memOk_ite | split)

/-! ## Firm -/

theorem recallRange_mem (x1 : Nat) (x2 : Nat) {s : State} (h : MemOk s) : MemOk (recallRange x1 x2 s) := by
  unfold recallRange
  try dsimp only
  repeat' (first
    | with_reducible assumption | intro _ | with_reducible apply onCore_mem | with_reducible apply writeBack_mem
    | with_reducible apply l2Forget_mem | with_reducible apply l2Push_mem | with_reducible apply memParts_of
    | dsimp only [memOk_mk] | with_reducible apply memOk_foldl)
theorem moveBytes_mem (x1 : Nat) (x2 : Nat) (x3 : Nat) {s : State} (h : MemOk s) : MemOk (moveBytes x1 x2 x3 s) :=
    by
  unfold moveBytes
  try dsimp only
  repeat' (first
    | with_reducible assumption | intro _ | with_reducible apply memParts_home
    | with_reducible apply recallRange_mem | with_reducible apply memParts_of | dsimp only [memOk_mk])
theorem setEntry_mem (x1 : Nat) (x2 : Nat) (x3 : Nat) (x4 : Nat) (x5 : Nat) {s : State} (h : MemOk s) : MemOk
    (setEntry x1 x2 x3 x4 x5 s) := h
theorem flushNcw_mem (x1 : Nat) (x2 : Nat) (x3 : Nat) {s : State} (h : MemOk s) : MemOk (flushNcw x1 x2 x3 s) := by
  unfold flushNcw
  try dsimp only
  repeat' (first
    | with_reducible assumption | intro _ | with_reducible apply cwVirt_mem | with_reducible apply memParts_of
    | dsimp only [memOk_mk] | with_reducible apply memOk_foldl)
theorem setDfcmd_mem (x1 : Fin 4) (x2 : Nat) (x3 : BitVec 12) {s : State} (h : MemOk s) : MemOk (setDfcmd x1 x2 x3
    s) := by
  unfold setDfcmd
  try dsimp only
  repeat' (first
    | with_reducible assumption | intro _ | with_reducible apply dieUpd_mem)
theorem unstop_mem (x1 : Fin 4) (x2 : Nat) {s : State} (h : MemOk s) : MemOk (unstop x1 x2 s) := h
theorem goOn_mem (x1 : Task) {s : State} (h : MemOk s) : MemOk (goOn x1 s) := by
  unfold goOn
  try dsimp only
  repeat' (first
    | with_reducible assumption | intro _ | with_reducible apply taskUpd_mem
    | with_reducible apply chargeTask_mem | with_reducible apply endTask_mem | with_reducible apply memParts_of
    | dsimp only [memOk_mk] | with_reducible apply memOk_foldl | with_reducible apply memOk_ite)
theorem cancelTask_mem (x1 : Byte) {s : State} (x3 : Task) (h : MemOk s) : MemOk (cancelTask x1 s x3) := by
  unfold cancelTask
  try dsimp only
  repeat' (first
    | with_reducible assumption | intro _ | with_reducible apply taskUpd_mem
    | with_reducible apply chargeTask_mem | with_reducible apply endTask_mem | with_reducible apply memParts_of
    | dsimp only [memOk_mk] | with_reducible apply memOk_foldl | with_reducible apply memOk_ite)
theorem setDdbg_mem (x1 : Fin 4) (x2 : Nat) (x3 : BitVec 12) {s : State} (h : MemOk s) : MemOk (setDdbg x1 x2 x3 s)
    := by
  unfold setDdbg
  try dsimp only
  repeat' (first
    | with_reducible assumption | intro _ | with_reducible apply dieUpd_mem)
theorem debugGo_mem (x1 : Bool) (x2 : Task) {s : State} (h : MemOk s) : MemOk (debugGo x1 x2 s) := by
  unfold debugGo
  try dsimp only
  repeat' (first
    | with_reducible assumption | intro _ | with_reducible apply syncSlots_mem | with_reducible apply goOn_mem
    | with_reducible apply taskUpd_mem | with_reducible apply memParts_of | dsimp only [memOk_mk]
    | with_reducible apply memOk_foldl)

/-! ## Measure -/

theorem chargeStep_mem (x1 : BitVec 8) {s : State} (h : MemOk s) : MemOk (chargeStep x1 s) := by
  unfold chargeStep
  try dsimp only
  repeat' (first
    | with_reducible assumption | intro _ | with_reducible apply countEvt_mem
    | with_reducible apply State.mapM_mem | with_reducible apply memParts_of | dsimp only [memOk_mk]
    | with_reducible apply memOk_foldl | with_reducible apply memOk_ite | split)
theorem traceSlot_mem (x1 : Nat) (x2 : BitVec 56) (x3 : Nat) {s : State} (h : MemOk s) : MemOk (traceSlot x1 x2 x3
    s) := by
  unfold traceSlot
  try dsimp only
  repeat' (first
    | with_reducible assumption | intro _ | with_reducible apply homeBytesPut_mem
    | with_reducible apply State.mapM_mem)
theorem tracePutAt_mem (x1 : Nat) (x2 : BitVec 56) (x3 : Nat) {s : State} (h : MemOk s) : MemOk (tracePutAt x1 x2 x3
    s) := by
  unfold tracePutAt
  try dsimp only
  repeat' (first
    | with_reducible assumption | intro _ | with_reducible apply traceSlot_mem
    | with_reducible apply State.mapM_mem | with_reducible apply memParts_of | dsimp only [memOk_mk]
    | with_reducible apply memOk_foldl | with_reducible apply memOk_ite)
theorem tracePut_mem (x1 : Nat) (x2 : BitVec 56) {s : State} (h : MemOk s) : MemOk (tracePut x1 x2 s) := by
  unfold tracePut
  try dsimp only
  repeat' (first
    | with_reducible assumption | intro _ | with_reducible apply tracePutAt_mem)
theorem traceDrain_mem {s : State} (h : MemOk s) : MemOk (traceDrain s) := by
  unfold traceDrain
  try dsimp only
  repeat' (first
    | with_reducible assumption | intro _ | with_reducible apply tracePutAt_mem
    | with_reducible apply State.mapM_mem | with_reducible apply memParts_of | dsimp only [memOk_mk]
    | with_reducible apply memOk_foldl)
theorem traceFlush_mem {s : State} (h : MemOk s) : MemOk (traceFlush s) := by
  unfold traceFlush
  try dsimp only
  repeat' (first
    | with_reducible assumption | intro _ | with_reducible apply tracePut_mem
    | with_reducible apply State.mapM_mem | with_reducible apply memParts_of | dsimp only [memOk_mk]
    | with_reducible apply memOk_foldl | with_reducible apply memOk_ite)
theorem traceRec_mem (x1 : Nat) (x2 : BitVec 56) {s : State} (h : MemOk s) : MemOk (traceRec x1 x2 s) := by
  unfold traceRec
  try dsimp only
  repeat' (first
    | with_reducible assumption | intro _ | with_reducible apply tracePut_mem
    | with_reducible apply traceFlush_mem)
theorem traced_mem (k : BitVec 4) (a : State) {s : State} (h : MemOk s) : MemOk (traced k a s) := by
  unfold traced
  split <;> exact h
theorem clearMeas_mem {s : State} (h : MemOk s) : MemOk (clearMeas s) := h
theorem coreReg_mem (x1 : DevReg) (x2 : Word) {s : State} (h : MemOk s) : MemOk (coreReg x1 x2 s) := by
  unfold coreReg
  try dsimp only
  repeat' (first
    | with_reducible assumption | intro _ | with_reducible apply dieUpd_mem | with_reducible apply onCore_mem
    | with_reducible apply State.mapCore_mem | with_reducible apply passTicks_mem
    | with_reducible apply State.mapM_mem | with_reducible apply traceDrain_mem
    | with_reducible apply memParts_of | dsimp only [memOk_mk] | with_reducible apply memOk_foldl
    | with_reducible apply memOk_ite | split)
theorem windowWrite_mem (x1 : Fin 4) (x2 : Nat) (x3 : Word) {s : State} (h : MemOk s) : MemOk (windowWrite x1 x2 x3
    s) := by
  unfold windowWrite
  try dsimp only
  repeat' (first
    | with_reducible assumption | intro _ | with_reducible apply onCore_mem | with_reducible apply clearMeas_mem
    | with_reducible apply passTicks_mem | with_reducible apply coreReg_mem | with_reducible apply memParts_of
    | dsimp only [memOk_mk] | with_reducible apply memOk_foldl | with_reducible apply memOk_ite | split)

/-! ## Fabric -/

theorem correctTick_mem {s : State} (h : MemOk s) : MemOk (correctTick s) := by
  unfold correctTick
  try dsimp only
  repeat' (first
    | with_reducible assumption | intro _ | with_reducible apply memParts_of | dsimp only [memOk_mk]
    | with_reducible apply memOk_foldl | with_reducible apply memOk_ite)
theorem hostTake_mem (x1 : Nat) (x2 : Bool) {s : State} (h : MemOk s) : MemOk (hostTake x1 x2 s) := by
  unfold hostTake
  try dsimp only
  repeat' (first
    | with_reducible assumption | intro _ | with_reducible apply l2Inval_mem
    | with_reducible apply flushOwner_mem | with_reducible apply memParts_of | dsimp only [memOk_mk]
    | with_reducible apply memOk_foldl | with_reducible apply memOk_ite)
theorem homeReq_mem (x1 : Nat) (x2 : Nat) (x3 : Bool) {s : State} (h : MemOk s) : MemOk (homeReq x1 x2 x3 s) := by
  unfold homeReq
  try dsimp only
  repeat' (first
    | with_reducible assumption | intro _ | with_reducible apply hostTake_mem | with_reducible apply l2Fill_mem
    | with_reducible apply trackRegion_mem | with_reducible apply dirSet_mem | with_reducible apply l2Inval_mem
    | with_reducible apply flushOwner_mem | with_reducible apply memParts_of | dsimp only [memOk_mk]
    | with_reducible apply memOk_foldl | with_reducible apply memOk_ite)
theorem serveSnoop_mem (x1 : Nat) (x2 : SnoopReq) {s : State} (h : MemOk s) : MemOk (serveSnoop x1 x2 s) := by
  unfold serveSnoop
  try dsimp only
  repeat' (first
    | with_reducible assumption | intro _ | with_reducible apply homeReq_mem | with_reducible apply l2Push_mem
    | with_reducible apply onCore_mem | with_reducible apply performLine_mem | with_reducible apply memParts_of
    | dsimp only [memOk_mk] | with_reducible apply memOk_foldl | with_reducible apply memOk_ite | split)
theorem stashAck_mem (x1 : Flight) {s : State} (h : MemOk s) : MemOk (stashAck x1 s) := by
  unfold stashAck
  try dsimp only
  repeat' (first
    | with_reducible assumption | intro _ | with_reducible apply writeBack_mem
    | with_reducible apply memParts_of | dsimp only [memOk_mk] | with_reducible apply memOk_foldl
    | with_reducible apply memOk_ite | split)
theorem modUpd_mem (x1 : Fin 4) (x2 : Module → Module) {s : State} (h : MemOk s) : MemOk (modUpd x1 x2 s) := h
theorem homeCwadd_mem (x1 : Nat) (x2 : Word) {s : State} (h : MemOk s) : MemOk (homeCwadd x1 x2 s) := by
  unfold homeCwadd
  try dsimp only
  repeat' (first
    | with_reducible assumption | intro _ | with_reducible apply noteBarrier_mem
    | with_reducible apply homeWordPut_mem | with_reducible apply memParts_of | dsimp only [memOk_mk]
    | with_reducible apply memOk_foldl | with_reducible apply memOk_ite)
theorem homeRelease_mem (x1 : Bool) (x2 : Nat) (x3 : Word) (x4 : Sig) {s : State} (h : MemOk s) : MemOk (homeRelease
    x1 x2 x3 x4 s) := by
  unfold homeRelease
  try dsimp only
  repeat' (first
    | with_reducible assumption | intro _ | with_reducible apply homeBytesPut_mem
    | with_reducible apply memParts_of | dsimp only [memOk_mk] | with_reducible apply memOk_foldl
    | with_reducible apply memOk_ite)
theorem farDo_mem (x1 : Bool) (x2 : Nat) (x3 : Nat) (x4 : FarReq) {s : State} (h : MemOk s) : MemOk (farDo x1 x2 x3
    x4 s).2 := by
  unfold farDo
  try dsimp only
  repeat' (first
    | with_reducible assumption | intro _ | with_reducible apply hostTake_mem
    | with_reducible apply homeBytesPut_mem | with_reducible apply homeAtomic_mem
    | with_reducible apply homeCwadd_mem | with_reducible apply homeRelease_mem
    | with_reducible apply memParts_of | dsimp only [memOk_mk] | with_reducible apply memOk_foldl
    | with_reducible apply memOk_ite | split)
theorem portProgress_mem (x1 : Fin 32) {s : State} (h : MemOk s) : MemOk (portProgress x1 s) := h
theorem applyPkt_mem (x1 : Pkt) {s : State} (h : MemOk s) : MemOk (applyPkt x1 s) := by
  unfold applyPkt
  try dsimp only
  repeat' (first
    | with_reducible assumption | intro _ | with_reducible apply farDo_mem
    | with_reducible apply portProgress_mem | with_reducible apply sendNum_mem
    | with_reducible apply memParts_of | dsimp only [memOk_mk] | with_reducible apply memOk_foldl
    | with_reducible apply memOk_ite)
theorem drainFlow_mem (fl : Nat × Nat × Nat) (n : Nat) {s : State} (h : MemOk s) : MemOk (drainFlow fl n s) := by
  induction n generalizing s with
  | zero => exact h
  | succ n ih =>
    unfold drainFlow
    try dsimp only
    split
    · exact ih (applyPkt_mem _ h)
    · exact h
theorem admitPkt_mem (x1 : Pkt) {s : State} (h : MemOk s) : MemOk (admitPkt x1 s) := by
  unfold admitPkt
  try dsimp only
  repeat' (first
    | with_reducible assumption | intro _ | with_reducible apply drainFlow_mem
    | with_reducible apply applyPkt_mem | with_reducible apply memParts_of | dsimp only [memOk_mk]
    | with_reducible apply memOk_foldl | with_reducible apply memOk_ite)
theorem retireNow_mem {s : State} (h : MemOk s) : MemOk (retireNow s) := by
  unfold retireNow
  try dsimp only
  repeat' (first
    | with_reducible assumption | intro _ | with_reducible apply unwindTo_mem
    | with_reducible apply retireCore_mem | with_reducible apply memParts_of | dsimp only [memOk_mk]
    | with_reducible apply memOk_foldl | with_reducible apply memOk_ite)

/-! ## Issue -/

theorem keepLoop_mem (x1 : Word) (x2 : BundleBits) {s : State} (h : MemOk s) : MemOk (keepLoop x1 x2 s) := by
  unfold keepLoop
  try dsimp only
  repeat' (first
    | with_reducible assumption | intro _ | with_reducible apply State.mapCore_mem
    | with_reducible apply memParts_of | dsimp only [memOk_mk] | with_reducible apply memOk_foldl
    | with_reducible apply memOk_ite)
theorem mateStall_mem (x1 : Bool) (x2 : Nat) {s : State} (h : MemOk s) : MemOk (mateStall x1 x2 s) := by
  unfold mateStall
  try dsimp only
  repeat' (first
    | with_reducible assumption | intro _ | with_reducible apply onCore_mem
    | with_reducible apply chargeStall_mem | with_reducible apply memParts_of | dsimp only [memOk_mk]
    | with_reducible apply memOk_foldl | with_reducible apply memOk_ite | split)
theorem fetchBelow_mem (x1 : KEntry) (x2 : Word) {s : State} (h : MemOk s) : MemOk (fetchBelow x1 x2 s).2 := by
  unfold fetchBelow
  try dsimp only
  repeat' (first
    | with_reducible assumption | intro _ | with_reducible apply l2Fill_mem | with_reducible apply mateStall_mem
    | with_reducible apply frozen_mem | with_reducible apply keepLoop_mem
    | with_reducible apply State.mapCore_mem | with_reducible apply memParts_of | dsimp only [memOk_mk]
    | with_reducible apply memOk_foldl | with_reducible apply memOk_ite | split)
theorem fetch_mem {s : State} (h : MemOk s) : MemOk (fetch s).2 := by
  unfold fetch
  try dsimp only
  repeat' (first
    | with_reducible assumption | intro _ | with_reducible apply fetchBelow_mem
    | with_reducible apply keepLoop_mem | with_reducible apply State.bump_mem | with_reducible apply memParts_of
    | dsimp only [memOk_mk] | with_reducible apply memOk_foldl | with_reducible apply memOk_ite | split)
theorem dropErr_mem (x1 : Deferred) {s : State} (h : MemOk s) : MemOk (dropErr x1 s) := h
theorem afterOp_mem {s : State} (x2 : Instr) (h : MemOk s) : MemOk (afterOp s x2) := by
  unfold afterOp
  try dsimp only
  repeat' (first
    | with_reducible assumption | intro _ | with_reducible apply stepQ_mem
    | with_reducible apply State.mapCore_mem | with_reducible apply memParts_of | dsimp only [memOk_mk]
    | with_reducible apply memOk_foldl | with_reducible apply memOk_ite | split)
theorem atWord_mem {s : State} (x2 : Fin 8) (h : MemOk s) : MemOk (atWord s x2) := by
  unfold atWord
  try dsimp only
  repeat' (first
    | with_reducible assumption | intro _ | with_reducible apply State.mapCore_mem
    | with_reducible apply memParts_of | dsimp only [memOk_mk] | with_reducible apply memOk_foldl
    | with_reducible apply memOk_ite)
theorem feedChain_mem {s : State} (x2 : Instr) (h : MemOk s) : MemOk (feedChain s x2) := by
  unfold feedChain
  try dsimp only
  repeat' (first
    | with_reducible assumption | intro _ | with_reducible apply State.mapCore_mem
    | with_reducible apply memParts_of | dsimp only [memOk_mk] | with_reducible apply memOk_foldl
    | with_reducible apply memOk_ite | split)
theorem waitsOn_mem (l : List Instr) {s : State} (h : MemOk s) : MemOk (waitsOn s l).2 := by
  have w (c : Prop) [Decidable c] (a : Nat) {s : State} (h : MemOk s) :
      MemOk (if c then waitWord (curScope s) a s else ((0 : Word), s)).2 := by
    split
    · exact waitWord_mem _ _ h
    · exact h
  fun_induction waitsOn s l
  all_goals first
    | exact h
    | exact w _ _ h
    | (rename_i ih; exact ih h)
    | (rename_i ih; exact ih (w _ _ h))
theorem stallOn_mem (x1 : Stall) {s : State} (h : MemOk s) : MemOk (stallOn x1 s) := by
  unfold stallOn
  try dsimp only
  repeat' (first
    | with_reducible assumption | intro _ | with_reducible apply passTicks_mem
    | with_reducible apply addStall_mem | with_reducible apply State.mapCore_mem
    | with_reducible apply rollNow_mem | with_reducible apply memParts_of | dsimp only [memOk_mk]
    | with_reducible apply memOk_foldl | with_reducible apply memOk_ite)
theorem stallHot_mem (x1 : Fin 16) {s : State} (h : MemOk s) : MemOk (stallHot x1 s) := h
theorem holdStill_mem {s : State} (h : MemOk s) : MemOk (holdStill s) := h
theorem stallWith_mem {s : State} (h : MemOk s) : MemOk (stallWith s) := by
  unfold stallWith
  try dsimp only
  repeat' (first
    | with_reducible assumption | intro _ | with_reducible apply stallOn_mem
    | with_reducible apply State.mapCore_mem)
theorem feedNext_mem (x1 : GStep) {s : State} (h : MemOk s) : MemOk (feedNext x1 s) := by
  unfold feedNext
  try dsimp only
  repeat' (first
    | with_reducible assumption | intro _ | with_reducible apply onCore_mem
    | with_reducible apply State.mapCore_mem | with_reducible apply memParts_of | dsimp only [memOk_mk]
    | with_reducible apply memOk_foldl | with_reducible apply memOk_ite | split)
theorem followLead_mem (x1 : Word) {s : State} (h : MemOk s) : MemOk (followLead x1 s).2 := by
  unfold followLead
  try dsimp only
  repeat' (first
    | with_reducible assumption | intro _ | with_reducible apply record_mem | with_reducible apply memParts_of
    | dsimp only [memOk_mk] | with_reducible apply memOk_foldl | with_reducible apply memOk_ite | split)
theorem stopAt_mem (x1 : Stop) {s : State} (h : MemOk s) : MemOk (stopAt x1 s) := by
  unfold stopAt
  try dsimp only
  repeat' (first
    | with_reducible assumption | intro _ | with_reducible apply takeTrap_mem | with_reducible apply memParts_of
    | dsimp only [memOk_mk])
theorem rollAt_mem (x1 : Nat) {s : State} (h : MemOk s) : MemOk (rollAt x1 s) := by
  unfold rollAt
  try dsimp only
  repeat' (first
    | with_reducible assumption | intro _ | with_reducible apply startRollback_mem
    | with_reducible apply memParts_of | dsimp only [memOk_mk])
theorem endStall_mem {s : State} (h : MemOk s) : MemOk (endStall s) := h
theorem moreCycles_mem (x1 : Stall) (x2 : Nat) {s : State} (h : MemOk s) : MemOk (moreCycles x1 x2 s) := by
  unfold moreCycles
  try dsimp only
  repeat' (first
    | with_reducible assumption | intro _ | with_reducible apply mateStall_mem
    | with_reducible apply chargeStall_mem)
theorem noteStreamErr_mem (x1 : List SlotOps) {s : State} (h : MemOk s) : MemOk (noteStreamErr x1 s) := by
  unfold noteStreamErr
  try dsimp only
  repeat' (first
    | with_reducible assumption | intro _ | with_reducible apply State.mapCore_mem
    | with_reducible apply memParts_of | dsimp only [memOk_mk] | with_reducible apply memOk_foldl
    | with_reducible apply memOk_ite | split)
theorem startBundle_mem (x1 : List SlotOps) {s : State} (h : MemOk s) : MemOk (startBundle x1 s) := by
  unfold startBundle
  try dsimp only
  repeat' (first
    | with_reducible assumption | intro _ | with_reducible apply noteStreamErr_mem
    | with_reducible apply endStall_mem | with_reducible apply State.mapCore_mem
    | with_reducible apply moreCycles_mem | with_reducible apply memParts_of | dsimp only [memOk_mk])
theorem startStop_mem (x1 : Stop) (x2 : List SlotOps) (x3 : BitVec 8) {s : State} (h : MemOk s) : MemOk (startStop
    x1 x2 x3 s) := h
theorem waitDecision_mem (x1 : Bool) (x2 : Nat) {s : State} (h : MemOk s) : MemOk (waitDecision x1 x2 s) := by
  unfold waitDecision
  try dsimp only
  repeat' (first
    | with_reducible assumption | intro _ | with_reducible apply State.mapCore_mem
    | with_reducible apply yieldPoint_mem | with_reducible apply memParts_of | dsimp only [memOk_mk]
    | with_reducible apply memOk_foldl | with_reducible apply memOk_ite)
theorem leaveWaiting_mem {s : State} (h : MemOk s) : MemOk (leaveWaiting s) := by
  unfold leaveWaiting
  try dsimp only
  repeat' (first
    | with_reducible assumption | intro _ | with_reducible apply taskUpd_mem | with_reducible apply memParts_of
    | dsimp only [memOk_mk] | with_reducible apply memOk_foldl | with_reducible apply memOk_ite | split)
theorem waitHere_mem (x1 : WaitOn) {s : State} (h : MemOk s) : MemOk (waitHere x1 s) := by
  unfold waitHere
  try dsimp only
  repeat' (first
    | with_reducible assumption | intro _ | with_reducible apply leaveWaiting_mem
    | with_reducible apply State.mapCore_mem | with_reducible apply waitDecision_mem
    | with_reducible apply passTicks_mem | with_reducible apply State.bump_mem | with_reducible apply onCore_mem
    | with_reducible apply memParts_of | dsimp only [memOk_mk] | with_reducible apply memOk_foldl
    | with_reducible apply memOk_ite | split)
theorem judgeLate_mem (x1 : List Instr) (x2 : WaitOn) {s : State} (h : MemOk s) : MemOk (judgeLate x1 x2 s) := h
theorem missHere_mem (x1 : List (Fin 8 × Instr)) {s : State} (h : MemOk s) : MemOk (missHere x1 s) := by
  unfold missHere
  try dsimp only
  repeat' (first
    | with_reducible assumption | intro _ | with_reducible apply stallOn_mem | with_reducible apply stallHot_mem
    | with_reducible apply countEvt_mem | with_reducible apply addFill_mem | with_reducible apply memParts_of
    | dsimp only [memOk_mk] | with_reducible apply memOk_foldl)
theorem stallFor_mem (x1 : List SlotOps) {s : State} (h : MemOk s) : MemOk (stallFor x1 s).1 := by
  unfold stallFor
  try dsimp only
  repeat' (first
    | with_reducible assumption | intro _ | with_reducible apply stallOn_mem | with_reducible apply stallHot_mem
    | with_reducible apply missHere_mem | with_reducible apply stallWith_mem | with_reducible apply waitsOn_mem
    | with_reducible apply waitHere_mem | with_reducible apply judgeLate_mem | with_reducible apply memParts_of
    | dsimp only [memOk_mk] | with_reducible apply memOk_foldl | with_reducible apply memOk_ite | split)
theorem stallOrGo_mem (x1 : List SlotOps) {s : State} (h : MemOk s) : MemOk (stallOrGo x1 s) := by
  unfold stallOrGo
  try dsimp only
  repeat' (first
    | with_reducible assumption | intro _ | with_reducible apply stallFor_mem | with_reducible apply rollNow_mem
    | with_reducible apply startBundle_mem | with_reducible apply memParts_of | dsimp only [memOk_mk]
    | with_reducible apply memOk_foldl | with_reducible apply memOk_ite)
theorem stallOrStop_mem (x1 : Stop) (x2 : List SlotOps) {s : State} (h : MemOk s) : MemOk (stallOrStop x1 x2 s) :=
    by
  unfold stallOrStop
  try dsimp only
  repeat' (first
    | with_reducible assumption | intro _ | with_reducible apply startStop_mem
    | with_reducible apply stallFor_mem | with_reducible apply memParts_of | dsimp only [memOk_mk]
    | with_reducible apply memOk_foldl | with_reducible apply memOk_ite)
theorem afterChecks_mem (x1 : BundleBits) (x2 : List SlotOps) {s : State} (h : MemOk s) : MemOk (afterChecks x1 x2
    s) := by
  unfold afterChecks
  try dsimp only
  repeat' (first
    | with_reducible assumption | intro _ | with_reducible apply rollAt_mem | with_reducible apply stopAt_mem
    | with_reducible apply dropErr_mem | with_reducible apply stallOrStop_mem
    | with_reducible apply stallOrGo_mem | with_reducible apply holdStill_mem
    | with_reducible apply openRegion_mem | with_reducible apply memParts_of | dsimp only [memOk_mk]
    | with_reducible apply memOk_foldl | with_reducible apply memOk_ite | split)
theorem issueBundle_mem (x1 : BundleBits) {s : State} (h : MemOk s) : MemOk (issueBundle x1 s) := by
  unfold issueBundle
  try dsimp only
  repeat' (first
    | with_reducible assumption | intro _ | with_reducible apply State.mapCore_mem
    | with_reducible apply rollAt_mem | with_reducible apply stallOn_mem | with_reducible apply stopAt_mem
    | with_reducible apply afterChecks_mem | with_reducible apply memParts_of | dsimp only [memOk_mk]
    | with_reducible apply memOk_foldl | with_reducible apply memOk_ite | split)
theorem issueHere_mem {s : State} (h : MemOk s) : MemOk (issueHere s) := by
  unfold issueHere
  try dsimp only
  repeat' (first
    | with_reducible assumption | intro _ | with_reducible apply rollAt_mem
    | with_reducible apply issueBundle_mem | with_reducible apply State.mapCore_mem
    | with_reducible apply rollNow_mem | with_reducible apply stallOn_mem | with_reducible apply fetch_mem
    | with_reducible apply stopAt_mem | with_reducible apply memParts_of | dsimp only [memOk_mk]
    | with_reducible apply memOk_foldl | with_reducible apply memOk_ite | split)
theorem spread_mem (a : State) {s : State} (h : MemOk s) : MemOk (spread a s) := by
  unfold spread
  repeat' (first | with_reducible assumption | with_reducible apply rollOthers_mem | split)
theorem issue_mem {s : State} (h : MemOk s) : MemOk (issue s) := by
  unfold issue
  try dsimp only
  repeat' (first
    | with_reducible assumption | intro _ | with_reducible apply spread_mem | with_reducible apply rollNow_mem
    | with_reducible apply issueHere_mem | with_reducible apply memParts_of | dsimp only [memOk_mk]
    | with_reducible apply memOk_foldl | with_reducible apply memOk_ite)
theorem haltTidy_mem {s : State} (h : MemOk s) : MemOk (haltTidy s) := by
  unfold haltTidy
  try dsimp only
  repeat' (first
    | with_reducible assumption | intro _ | with_reducible apply setQ_mem | with_reducible apply drainOut_mem
    | with_reducible apply stashDo_mem | with_reducible apply memParts_of | dsimp only [memOk_mk]
    | with_reducible apply memOk_foldl | with_reducible apply memOk_ite)
theorem endHalt_mem {s : State} (h : MemOk s) : MemOk (endHalt s) := by
  unfold endHalt
  try dsimp only
  repeat' (first
    | with_reducible assumption | intro _ | with_reducible apply haltTidy_mem
    | with_reducible apply releaseWrites_mem | with_reducible apply clearCore_mem
    | with_reducible apply syncSlots_mem | with_reducible apply chargeTask_mem
    | with_reducible apply endTask_mem | with_reducible apply memParts_of | dsimp only [memOk_mk]
    | with_reducible apply memOk_foldl | with_reducible apply memOk_ite | split)
theorem haltStep_mem {s : State} (h : MemOk s) : MemOk (haltStep s) := by
  unfold haltStep
  try dsimp only
  repeat' (first
    | with_reducible assumption | intro _ | with_reducible apply ringStep_mem
    | with_reducible apply landStep_mem | with_reducible apply takeTrap_mem | with_reducible apply dropErr_mem
    | with_reducible apply endHalt_mem | with_reducible apply memParts_of | dsimp only [memOk_mk]
    | with_reducible apply memOk_foldl | with_reducible apply memOk_ite | split)
theorem yieldHere_mem (x1 : Word) {s : State} (h : MemOk s) : MemOk (yieldHere x1 s) := by
  unfold yieldHere
  try dsimp only
  repeat' (first
    | with_reducible assumption | intro _ | with_reducible apply yieldPoint_mem
    | with_reducible apply chargeNow_mem | with_reducible apply State.mapCore_mem
    | with_reducible apply memParts_of | dsimp only [memOk_mk] | with_reducible apply memOk_foldl
    | with_reducible apply memOk_ite)
theorem stretch_mem (x1 : Nat) {s : State} (h : MemOk s) : MemOk (stretch x1 s) := by
  unfold stretch
  try dsimp only
  repeat' (first
    | with_reducible assumption | intro _ | with_reducible apply rollGang_mem
    | with_reducible apply moreCycles_mem | with_reducible apply memParts_of | dsimp only [memOk_mk]
    | with_reducible apply memOk_foldl | with_reducible apply memOk_ite | split)
theorem finish_mem {s : State} (h : MemOk s) : MemOk (finish s) := by
  unfold finish
  try dsimp only
  repeat' (first
    | with_reducible assumption | intro _ | with_reducible apply followLead_mem
    | with_reducible apply feedNext_mem | with_reducible apply chargeStep_mem
    | with_reducible apply State.mapCore_mem | with_reducible apply passTicks_mem
    | with_reducible apply State.bump_mem | with_reducible apply stretch_mem
    | with_reducible apply State.mapRgn_mem | with_reducible apply rerunEnded_mem
    | with_reducible apply stepStop_mem | with_reducible apply yieldHere_mem | with_reducible apply memParts_of
    | dsimp only [memOk_mk] | with_reducible apply memOk_foldl | with_reducible apply memOk_ite | split)

/-! ## Next -/

theorem loadAgenda_mem {s : State} (h : MemOk s) : MemOk (loadAgenda s) := by
  unfold loadAgenda
  try dsimp only
  repeat' (first
    | with_reducible assumption | intro _ | with_reducible apply memParts_of | dsimp only [memOk_mk]
    | with_reducible apply memOk_foldl | with_reducible apply memOk_ite | split)
theorem readyCore_mem {s : State} (h : MemOk s) : MemOk (readyCore s) := by
  unfold readyCore
  try dsimp only
  repeat' (first
    | with_reducible assumption | intro _ | with_reducible apply taskUpd_mem | with_reducible apply memParts_of
    | dsimp only [memOk_mk] | with_reducible apply memOk_foldl | with_reducible apply memOk_ite | split)
theorem placeBundle_mem (b : BundleBits) {s : State} (h : MemOk s) : MemOk (placeBundle b s) := by
  unfold placeBundle
  dsimp only [memOk_mk]
  exact ⟨h.1, Mem.wf_putBytes _ _ h.2.1, h.2.2⟩

/-! ## Step -/

theorem State.withFetchWord_mem {s : State} (x2 : Nat) (x3 : Nat) (h : MemOk s) : MemOk (State.withFetchWord s x2
    x3) := by
  unfold State.withFetchWord
  try dsimp only
  repeat' (first
    | with_reducible assumption | intro _ | with_reducible apply placeBundle_mem
    | with_reducible apply readyCore_mem)

/-! ## Safety -/

theorem queued_mem (x1 : Flight) {s : State} (h : MemOk s) : MemOk (queued x1 s) := h
theorem afterPush_mem (x1 : Dst 128) (x2 : BitVec 32) {s : State} (h : MemOk s) : MemOk (afterPush x1 x2 s) := by
  unfold afterPush
  try dsimp only
  repeat' (first
    | with_reducible assumption | intro _ | with_reducible apply pushPlace_mem
    | with_reducible apply memParts_of | dsimp only [memOk_mk] | with_reducible apply memOk_foldl
    | with_reducible apply memOk_ite | split)
theorem after1_mem {s : State} (x2 : Src 128) (h : MemOk s) : MemOk (after1 s x2) := by
  unfold after1
  try dsimp only
  repeat' (first
    | with_reducible assumption | intro _ | with_reducible apply readV_mem)
theorem after2_mem {s : State} (x2 : Src 128) (x3 : Src 128) (h : MemOk s) : MemOk (after2 s x2 x3) := by
  unfold after2
  try dsimp only
  repeat' (first
    | with_reducible assumption | intro _ | with_reducible apply after1_mem)
theorem after3_mem {s : State} (x2 : Src 128) (x3 : Src 128) (x4 : Src 128) (h : MemOk s) : MemOk (after3 s x2 x3
    x4) := by
  unfold after3
  try dsimp only
  repeat' (first
    | with_reducible assumption | intro _ | with_reducible apply after1_mem | with_reducible apply after2_mem)
theorem withMat_mem (x1 : Matrix) {s : State} (h : MemOk s) : MemOk (withMat x1 s) := h
theorem afterSrc_mem {s : State} (x2 : StSrc) (h : MemOk s) : MemOk (afterSrc s x2) := by
  unfold afterSrc
  try dsimp only
  repeat' (first
    | with_reducible assumption | intro _ | with_reducible apply after1_mem | with_reducible apply memParts_of
    | dsimp only [memOk_mk] | with_reducible apply memOk_foldl | with_reducible apply memOk_ite | split)

end Sys2Proof.Machine
end

