-- ==== Sys2Proof/Laws/State.lean ====
section
/-! SUPPORT. One lemma for each field and each update of the state: what the update gives there. -/

namespace Sys2Proof.Machine

section Updates

variable (s : State) (f : Core → Core) (g : Task → Task) (h : Launch → Launch) (d : Die → Die) (n k : Nat)

/-! ## `mapCore` -/

@[simp] theorem State.mapCore_core : (s.mapCore f).core = f s.core := rfl
@[simp] theorem State.mapCore_others : (s.mapCore f).others = s.others := rfl
@[simp] theorem State.mapCore_spad : (s.mapCore f).spad = s.spad := rfl
@[simp] theorem State.mapCore_home : (s.mapCore f).home = s.home := rfl
@[simp] theorem State.mapCore_poison : (s.mapCore f).poison = s.poison := rfl
@[simp] theorem State.mapCore_barriers : (s.mapCore f).barriers = s.barriers := rfl
@[simp] theorem State.mapCore_l2 : (s.mapCore f).l2 = s.l2 := rfl
@[simp] theorem State.mapCore_dir : (s.mapCore f).dir = s.dir := rfl
@[simp] theorem State.mapCore_hostHeld : (s.mapCore f).hostHeld = s.hostHeld := rfl
@[simp] theorem State.mapCore_dieRegions : (s.mapCore f).dieRegions = s.dieRegions := rfl
@[simp] theorem State.mapCore_ords : (s.mapCore f).ords = s.ords := rfl
@[simp] theorem State.mapCore_ordSent : (s.mapCore f).ordSent = s.ordSent := rfl
@[simp] theorem State.mapCore_ordNums : (s.mapCore f).ordNums = s.ordNums := rfl
@[simp] theorem State.mapCore_cmds : (s.mapCore f).cmds = s.cmds := rfl
@[simp] theorem State.mapCore_cmdNext : (s.mapCore f).cmdNext = s.cmdNext := rfl
@[simp] theorem State.mapCore_oldColls : (s.mapCore f).oldColls = s.oldColls := rfl
@[simp] theorem State.mapCore_launches : (s.mapCore f).launches = s.launches := rfl
@[simp] theorem State.mapCore_launchNext : (s.mapCore f).launchNext = s.launchNext := rfl
@[simp] theorem State.mapCore_tasks : (s.mapCore f).tasks = s.tasks := rfl
@[simp] theorem State.mapCore_taskNext : (s.mapCore f).taskNext = s.taskNext := rfl
@[simp] theorem State.mapCore_tick : (s.mapCore f).tick = s.tick := rfl
@[simp] theorem State.mapCore_lastBeacon : (s.mapCore f).lastBeacon = s.lastBeacon := rfl
@[simp] theorem State.mapCore_lastCorr : (s.mapCore f).lastCorr = s.lastCorr := rfl
@[simp] theorem State.mapCore_beacons : (s.mapCore f).beacons = s.beacons := rfl
@[simp] theorem State.mapCore_skew : (s.mapCore f).skew = s.skew := rfl
@[simp] theorem State.mapCore_dies : (s.mapCore f).dies = s.dies := rfl
@[simp] theorem State.mapCore_stopped : (s.mapCore f).stopped = s.stopped := rfl
@[simp] theorem State.mapCore_feat : (s.mapCore f).feat = s.feat := rfl
@[simp] theorem State.mapCore_trapSeqs : (s.mapCore f).trapSeqs = s.trapSeqs := rfl
@[simp] theorem State.mapCore_migrs : (s.mapCore f).migrs = s.migrs := rfl
@[simp] theorem State.mapCore_ncwWait : (s.mapCore f).ncwWait = s.ncwWait := rfl
@[simp] theorem State.mapCore_incarn : (s.mapCore f).incarn = s.incarn := rfl
@[simp] theorem State.mapCore_dead : (s.mapCore f).dead = s.dead := rfl
@[simp] theorem State.mapCore_modules : (s.mapCore f).modules = s.modules := rfl
@[simp] theorem State.mapCore_flitSent : (s.mapCore f).flitSent = s.flitSent := rfl
@[simp] theorem State.mapCore_ports : (s.mapCore f).ports = s.ports := rfl
@[simp] theorem State.mapCore_lost : (s.mapCore f).lost = s.lost := rfl
@[simp] theorem State.mapCore_sentNums : (s.mapCore f).sentNums = s.sentNums := rfl
@[simp] theorem State.mapCore_beaconOut : (s.mapCore f).beaconOut = s.beaconOut := rfl
@[simp] theorem State.mapCore_flows : (s.mapCore f).flows = s.flows := rfl
@[simp] theorem State.mapCore_reorder : (s.mapCore f).reorder = s.reorder := rfl
@[simp] theorem State.mapCore_refusedPkts : (s.mapCore f).refusedPkts = s.refusedPkts := rfl
@[simp] theorem State.mapCore_package : (s.mapCore f).package = s.package := rfl
@[simp] theorem State.mapCore_images : (s.mapCore f).images = s.images := rfl
@[simp] theorem State.mapCore_agenda : (s.mapCore f).agenda = s.agenda := rfl
@[simp] theorem State.mapCore_script : (s.mapCore f).script = s.script := rfl
@[simp] theorem State.mapCore_fresh : (s.mapCore f).fresh = s.fresh := rfl

/-! ## `bump` -/

@[simp] theorem State.bump_core : s.bump.core = s.core := rfl
@[simp] theorem State.bump_others : s.bump.others = s.others := rfl
@[simp] theorem State.bump_spad : s.bump.spad = s.spad := rfl
@[simp] theorem State.bump_home : s.bump.home = s.home := rfl
@[simp] theorem State.bump_poison : s.bump.poison = s.poison := rfl
@[simp] theorem State.bump_barriers : s.bump.barriers = s.barriers := rfl
@[simp] theorem State.bump_l2 : s.bump.l2 = s.l2 := rfl
@[simp] theorem State.bump_dir : s.bump.dir = s.dir := rfl
@[simp] theorem State.bump_hostHeld : s.bump.hostHeld = s.hostHeld := rfl
@[simp] theorem State.bump_dieRegions : s.bump.dieRegions = s.dieRegions := rfl
@[simp] theorem State.bump_ords : s.bump.ords = s.ords := rfl
@[simp] theorem State.bump_ordSent : s.bump.ordSent = s.ordSent := rfl
@[simp] theorem State.bump_ordNums : s.bump.ordNums = s.ordNums := rfl
@[simp] theorem State.bump_cmds : s.bump.cmds = s.cmds := rfl
@[simp] theorem State.bump_cmdNext : s.bump.cmdNext = s.cmdNext := rfl
@[simp] theorem State.bump_oldColls : s.bump.oldColls = s.oldColls := rfl
@[simp] theorem State.bump_launches : s.bump.launches = s.launches := rfl
@[simp] theorem State.bump_launchNext : s.bump.launchNext = s.launchNext := rfl
@[simp] theorem State.bump_tasks : s.bump.tasks = s.tasks := rfl
@[simp] theorem State.bump_taskNext : s.bump.taskNext = s.taskNext := rfl
@[simp] theorem State.bump_tick : s.bump.tick = s.tick := rfl
@[simp] theorem State.bump_lastBeacon : s.bump.lastBeacon = s.lastBeacon := rfl
@[simp] theorem State.bump_lastCorr : s.bump.lastCorr = s.lastCorr := rfl
@[simp] theorem State.bump_beacons : s.bump.beacons = s.beacons := rfl
@[simp] theorem State.bump_skew : s.bump.skew = s.skew := rfl
@[simp] theorem State.bump_dies : s.bump.dies = s.dies := rfl
@[simp] theorem State.bump_stopped : s.bump.stopped = s.stopped := rfl
@[simp] theorem State.bump_feat : s.bump.feat = s.feat := rfl
@[simp] theorem State.bump_trapSeqs : s.bump.trapSeqs = s.trapSeqs := rfl
@[simp] theorem State.bump_migrs : s.bump.migrs = s.migrs := rfl
@[simp] theorem State.bump_ncwWait : s.bump.ncwWait = s.ncwWait := rfl
@[simp] theorem State.bump_incarn : s.bump.incarn = s.incarn := rfl
@[simp] theorem State.bump_dead : s.bump.dead = s.dead := rfl
@[simp] theorem State.bump_modules : s.bump.modules = s.modules := rfl
@[simp] theorem State.bump_flitSent : s.bump.flitSent = s.flitSent := rfl
@[simp] theorem State.bump_ports : s.bump.ports = s.ports := rfl
@[simp] theorem State.bump_lost : s.bump.lost = s.lost := rfl
@[simp] theorem State.bump_sentNums : s.bump.sentNums = s.sentNums := rfl
@[simp] theorem State.bump_beaconOut : s.bump.beaconOut = s.beaconOut := rfl
@[simp] theorem State.bump_flows : s.bump.flows = s.flows := rfl
@[simp] theorem State.bump_reorder : s.bump.reorder = s.reorder := rfl
@[simp] theorem State.bump_refusedPkts : s.bump.refusedPkts = s.refusedPkts := rfl
@[simp] theorem State.bump_package : s.bump.package = s.package := rfl
@[simp] theorem State.bump_images : s.bump.images = s.images := rfl
@[simp] theorem State.bump_agenda : s.bump.agenda = s.agenda := rfl
@[simp] theorem State.bump_script : s.bump.script = s.script := rfl
@[simp] theorem State.bump_fresh : s.bump.fresh = s.fresh + 1 := rfl

/-! ## `taskUpd` -/

@[simp] theorem taskUpd_core : (taskUpd s n g).core = s.core := rfl
@[simp] theorem taskUpd_others : (taskUpd s n g).others = s.others := rfl
@[simp] theorem taskUpd_spad : (taskUpd s n g).spad = s.spad := rfl
@[simp] theorem taskUpd_home : (taskUpd s n g).home = s.home := rfl
@[simp] theorem taskUpd_poison : (taskUpd s n g).poison = s.poison := rfl
@[simp] theorem taskUpd_barriers : (taskUpd s n g).barriers = s.barriers := rfl
@[simp] theorem taskUpd_l2 : (taskUpd s n g).l2 = s.l2 := rfl
@[simp] theorem taskUpd_dir : (taskUpd s n g).dir = s.dir := rfl
@[simp] theorem taskUpd_hostHeld : (taskUpd s n g).hostHeld = s.hostHeld := rfl
@[simp] theorem taskUpd_dieRegions : (taskUpd s n g).dieRegions = s.dieRegions := rfl
@[simp] theorem taskUpd_ords : (taskUpd s n g).ords = s.ords := rfl
@[simp] theorem taskUpd_ordSent : (taskUpd s n g).ordSent = s.ordSent := rfl
@[simp] theorem taskUpd_ordNums : (taskUpd s n g).ordNums = s.ordNums := rfl
@[simp] theorem taskUpd_cmds : (taskUpd s n g).cmds = s.cmds := rfl
@[simp] theorem taskUpd_cmdNext : (taskUpd s n g).cmdNext = s.cmdNext := rfl
@[simp] theorem taskUpd_oldColls : (taskUpd s n g).oldColls = s.oldColls := rfl
@[simp] theorem taskUpd_launches : (taskUpd s n g).launches = s.launches := rfl
@[simp] theorem taskUpd_launchNext : (taskUpd s n g).launchNext = s.launchNext := rfl
@[simp] theorem taskUpd_tasks : (taskUpd s n g).tasks = s.tasks.map fun x => if x.id == n then g x else x := rfl
@[simp] theorem taskUpd_taskNext : (taskUpd s n g).taskNext = s.taskNext := rfl
@[simp] theorem taskUpd_tick : (taskUpd s n g).tick = s.tick := rfl
@[simp] theorem taskUpd_lastBeacon : (taskUpd s n g).lastBeacon = s.lastBeacon := rfl
@[simp] theorem taskUpd_lastCorr : (taskUpd s n g).lastCorr = s.lastCorr := rfl
@[simp] theorem taskUpd_beacons : (taskUpd s n g).beacons = s.beacons := rfl
@[simp] theorem taskUpd_skew : (taskUpd s n g).skew = s.skew := rfl
@[simp] theorem taskUpd_dies : (taskUpd s n g).dies = s.dies := rfl
@[simp] theorem taskUpd_stopped : (taskUpd s n g).stopped = s.stopped := rfl
@[simp] theorem taskUpd_feat : (taskUpd s n g).feat = s.feat := rfl
@[simp] theorem taskUpd_trapSeqs : (taskUpd s n g).trapSeqs = s.trapSeqs := rfl
@[simp] theorem taskUpd_migrs : (taskUpd s n g).migrs = s.migrs := rfl
@[simp] theorem taskUpd_ncwWait : (taskUpd s n g).ncwWait = s.ncwWait := rfl
@[simp] theorem taskUpd_incarn : (taskUpd s n g).incarn = s.incarn := rfl
@[simp] theorem taskUpd_dead : (taskUpd s n g).dead = s.dead := rfl
@[simp] theorem taskUpd_modules : (taskUpd s n g).modules = s.modules := rfl
@[simp] theorem taskUpd_flitSent : (taskUpd s n g).flitSent = s.flitSent := rfl
@[simp] theorem taskUpd_ports : (taskUpd s n g).ports = s.ports := rfl
@[simp] theorem taskUpd_lost : (taskUpd s n g).lost = s.lost := rfl
@[simp] theorem taskUpd_sentNums : (taskUpd s n g).sentNums = s.sentNums := rfl
@[simp] theorem taskUpd_beaconOut : (taskUpd s n g).beaconOut = s.beaconOut := rfl
@[simp] theorem taskUpd_flows : (taskUpd s n g).flows = s.flows := rfl
@[simp] theorem taskUpd_reorder : (taskUpd s n g).reorder = s.reorder := rfl
@[simp] theorem taskUpd_refusedPkts : (taskUpd s n g).refusedPkts = s.refusedPkts := rfl
@[simp] theorem taskUpd_package : (taskUpd s n g).package = s.package := rfl
@[simp] theorem taskUpd_images : (taskUpd s n g).images = s.images := rfl
@[simp] theorem taskUpd_agenda : (taskUpd s n g).agenda = s.agenda := rfl
@[simp] theorem taskUpd_script : (taskUpd s n g).script = s.script := rfl
@[simp] theorem taskUpd_fresh : (taskUpd s n g).fresh = s.fresh := rfl

/-! ## `launchUpd` -/

@[simp] theorem launchUpd_core : (launchUpd s n h).core = s.core := rfl
@[simp] theorem launchUpd_others : (launchUpd s n h).others = s.others := rfl
@[simp] theorem launchUpd_spad : (launchUpd s n h).spad = s.spad := rfl
@[simp] theorem launchUpd_home : (launchUpd s n h).home = s.home := rfl
@[simp] theorem launchUpd_poison : (launchUpd s n h).poison = s.poison := rfl
@[simp] theorem launchUpd_barriers : (launchUpd s n h).barriers = s.barriers := rfl
@[simp] theorem launchUpd_l2 : (launchUpd s n h).l2 = s.l2 := rfl
@[simp] theorem launchUpd_dir : (launchUpd s n h).dir = s.dir := rfl
@[simp] theorem launchUpd_hostHeld : (launchUpd s n h).hostHeld = s.hostHeld := rfl
@[simp] theorem launchUpd_dieRegions : (launchUpd s n h).dieRegions = s.dieRegions := rfl
@[simp] theorem launchUpd_ords : (launchUpd s n h).ords = s.ords := rfl
@[simp] theorem launchUpd_ordSent : (launchUpd s n h).ordSent = s.ordSent := rfl
@[simp] theorem launchUpd_ordNums : (launchUpd s n h).ordNums = s.ordNums := rfl
@[simp] theorem launchUpd_cmds : (launchUpd s n h).cmds = s.cmds := rfl
@[simp] theorem launchUpd_cmdNext : (launchUpd s n h).cmdNext = s.cmdNext := rfl
@[simp] theorem launchUpd_oldColls : (launchUpd s n h).oldColls = s.oldColls := rfl
@[simp] theorem launchUpd_launches : (launchUpd s n h).launches = s.launches.map fun x => if x.id == n then h x else x := rfl
@[simp] theorem launchUpd_launchNext : (launchUpd s n h).launchNext = s.launchNext := rfl
@[simp] theorem launchUpd_tasks : (launchUpd s n h).tasks = s.tasks := rfl
@[simp] theorem launchUpd_taskNext : (launchUpd s n h).taskNext = s.taskNext := rfl
@[simp] theorem launchUpd_tick : (launchUpd s n h).tick = s.tick := rfl
@[simp] theorem launchUpd_lastBeacon : (launchUpd s n h).lastBeacon = s.lastBeacon := rfl
@[simp] theorem launchUpd_lastCorr : (launchUpd s n h).lastCorr = s.lastCorr := rfl
@[simp] theorem launchUpd_beacons : (launchUpd s n h).beacons = s.beacons := rfl
@[simp] theorem launchUpd_skew : (launchUpd s n h).skew = s.skew := rfl
@[simp] theorem launchUpd_dies : (launchUpd s n h).dies = s.dies := rfl
@[simp] theorem launchUpd_stopped : (launchUpd s n h).stopped = s.stopped := rfl
@[simp] theorem launchUpd_feat : (launchUpd s n h).feat = s.feat := rfl
@[simp] theorem launchUpd_trapSeqs : (launchUpd s n h).trapSeqs = s.trapSeqs := rfl
@[simp] theorem launchUpd_migrs : (launchUpd s n h).migrs = s.migrs := rfl
@[simp] theorem launchUpd_ncwWait : (launchUpd s n h).ncwWait = s.ncwWait := rfl
@[simp] theorem launchUpd_incarn : (launchUpd s n h).incarn = s.incarn := rfl
@[simp] theorem launchUpd_dead : (launchUpd s n h).dead = s.dead := rfl
@[simp] theorem launchUpd_modules : (launchUpd s n h).modules = s.modules := rfl
@[simp] theorem launchUpd_flitSent : (launchUpd s n h).flitSent = s.flitSent := rfl
@[simp] theorem launchUpd_ports : (launchUpd s n h).ports = s.ports := rfl
@[simp] theorem launchUpd_lost : (launchUpd s n h).lost = s.lost := rfl
@[simp] theorem launchUpd_sentNums : (launchUpd s n h).sentNums = s.sentNums := rfl
@[simp] theorem launchUpd_beaconOut : (launchUpd s n h).beaconOut = s.beaconOut := rfl
@[simp] theorem launchUpd_flows : (launchUpd s n h).flows = s.flows := rfl
@[simp] theorem launchUpd_reorder : (launchUpd s n h).reorder = s.reorder := rfl
@[simp] theorem launchUpd_refusedPkts : (launchUpd s n h).refusedPkts = s.refusedPkts := rfl
@[simp] theorem launchUpd_package : (launchUpd s n h).package = s.package := rfl
@[simp] theorem launchUpd_images : (launchUpd s n h).images = s.images := rfl
@[simp] theorem launchUpd_agenda : (launchUpd s n h).agenda = s.agenda := rfl
@[simp] theorem launchUpd_script : (launchUpd s n h).script = s.script := rfl
@[simp] theorem launchUpd_fresh : (launchUpd s n h).fresh = s.fresh := rfl

/-! ## `dieUpd` -/

@[simp] theorem dieUpd_core : (dieUpd s n d).core = s.core := rfl
@[simp] theorem dieUpd_others : (dieUpd s n d).others = s.others := rfl
@[simp] theorem dieUpd_spad : (dieUpd s n d).spad = s.spad := rfl
@[simp] theorem dieUpd_home : (dieUpd s n d).home = s.home := rfl
@[simp] theorem dieUpd_poison : (dieUpd s n d).poison = s.poison := rfl
@[simp] theorem dieUpd_barriers : (dieUpd s n d).barriers = s.barriers := rfl
@[simp] theorem dieUpd_l2 : (dieUpd s n d).l2 = s.l2 := rfl
@[simp] theorem dieUpd_dir : (dieUpd s n d).dir = s.dir := rfl
@[simp] theorem dieUpd_hostHeld : (dieUpd s n d).hostHeld = s.hostHeld := rfl
@[simp] theorem dieUpd_dieRegions : (dieUpd s n d).dieRegions = s.dieRegions := rfl
@[simp] theorem dieUpd_ords : (dieUpd s n d).ords = s.ords := rfl
@[simp] theorem dieUpd_ordSent : (dieUpd s n d).ordSent = s.ordSent := rfl
@[simp] theorem dieUpd_ordNums : (dieUpd s n d).ordNums = s.ordNums := rfl
@[simp] theorem dieUpd_cmds : (dieUpd s n d).cmds = s.cmds := rfl
@[simp] theorem dieUpd_cmdNext : (dieUpd s n d).cmdNext = s.cmdNext := rfl
@[simp] theorem dieUpd_oldColls : (dieUpd s n d).oldColls = s.oldColls := rfl
@[simp] theorem dieUpd_launches : (dieUpd s n d).launches = s.launches := rfl
@[simp] theorem dieUpd_launchNext : (dieUpd s n d).launchNext = s.launchNext := rfl
@[simp] theorem dieUpd_tasks : (dieUpd s n d).tasks = s.tasks := rfl
@[simp] theorem dieUpd_taskNext : (dieUpd s n d).taskNext = s.taskNext := rfl
@[simp] theorem dieUpd_tick : (dieUpd s n d).tick = s.tick := rfl
@[simp] theorem dieUpd_lastBeacon : (dieUpd s n d).lastBeacon = s.lastBeacon := rfl
@[simp] theorem dieUpd_lastCorr : (dieUpd s n d).lastCorr = s.lastCorr := rfl
@[simp] theorem dieUpd_beacons : (dieUpd s n d).beacons = s.beacons := rfl
@[simp] theorem dieUpd_skew : (dieUpd s n d).skew = s.skew := rfl
@[simp] theorem dieUpd_dies : (dieUpd s n d).dies = vecOf 4 fun i => if i.val = n then d (s.dies.get i) else s.dies.get i := rfl
@[simp] theorem dieUpd_stopped : (dieUpd s n d).stopped = s.stopped := rfl
@[simp] theorem dieUpd_feat : (dieUpd s n d).feat = s.feat := rfl
@[simp] theorem dieUpd_trapSeqs : (dieUpd s n d).trapSeqs = s.trapSeqs := rfl
@[simp] theorem dieUpd_migrs : (dieUpd s n d).migrs = s.migrs := rfl
@[simp] theorem dieUpd_ncwWait : (dieUpd s n d).ncwWait = s.ncwWait := rfl
@[simp] theorem dieUpd_incarn : (dieUpd s n d).incarn = s.incarn := rfl
@[simp] theorem dieUpd_dead : (dieUpd s n d).dead = s.dead := rfl
@[simp] theorem dieUpd_modules : (dieUpd s n d).modules = s.modules := rfl
@[simp] theorem dieUpd_flitSent : (dieUpd s n d).flitSent = s.flitSent := rfl
@[simp] theorem dieUpd_ports : (dieUpd s n d).ports = s.ports := rfl
@[simp] theorem dieUpd_lost : (dieUpd s n d).lost = s.lost := rfl
@[simp] theorem dieUpd_sentNums : (dieUpd s n d).sentNums = s.sentNums := rfl
@[simp] theorem dieUpd_beaconOut : (dieUpd s n d).beaconOut = s.beaconOut := rfl
@[simp] theorem dieUpd_flows : (dieUpd s n d).flows = s.flows := rfl
@[simp] theorem dieUpd_reorder : (dieUpd s n d).reorder = s.reorder := rfl
@[simp] theorem dieUpd_refusedPkts : (dieUpd s n d).refusedPkts = s.refusedPkts := rfl
@[simp] theorem dieUpd_package : (dieUpd s n d).package = s.package := rfl
@[simp] theorem dieUpd_images : (dieUpd s n d).images = s.images := rfl
@[simp] theorem dieUpd_agenda : (dieUpd s n d).agenda = s.agenda := rfl
@[simp] theorem dieUpd_script : (dieUpd s n d).script = s.script := rfl
@[simp] theorem dieUpd_fresh : (dieUpd s n d).fresh = s.fresh := rfl

end Updates

section Parts

variable (s : State) (fa : Arch → Arch) (fs : Special → Special) (fr : Region → Region) (fm : Meas → Meas)

/-! ## The parts of a core -/

@[simp] theorem State.mapA_core : (s.mapA fa).core = { s.core with a := fa s.core.a } := rfl
@[simp] theorem State.mapA_others : (s.mapA fa).others = s.others := rfl
@[simp] theorem State.mapA_spad : (s.mapA fa).spad = s.spad := rfl
@[simp] theorem State.mapA_home : (s.mapA fa).home = s.home := rfl
@[simp] theorem State.mapA_poison : (s.mapA fa).poison = s.poison := rfl
@[simp] theorem State.mapA_barriers : (s.mapA fa).barriers = s.barriers := rfl
@[simp] theorem State.mapA_l2 : (s.mapA fa).l2 = s.l2 := rfl
@[simp] theorem State.mapA_dir : (s.mapA fa).dir = s.dir := rfl
@[simp] theorem State.mapA_hostHeld : (s.mapA fa).hostHeld = s.hostHeld := rfl
@[simp] theorem State.mapA_dieRegions : (s.mapA fa).dieRegions = s.dieRegions := rfl
@[simp] theorem State.mapA_ords : (s.mapA fa).ords = s.ords := rfl
@[simp] theorem State.mapA_ordSent : (s.mapA fa).ordSent = s.ordSent := rfl
@[simp] theorem State.mapA_ordNums : (s.mapA fa).ordNums = s.ordNums := rfl
@[simp] theorem State.mapA_cmds : (s.mapA fa).cmds = s.cmds := rfl
@[simp] theorem State.mapA_cmdNext : (s.mapA fa).cmdNext = s.cmdNext := rfl
@[simp] theorem State.mapA_oldColls : (s.mapA fa).oldColls = s.oldColls := rfl
@[simp] theorem State.mapA_launches : (s.mapA fa).launches = s.launches := rfl
@[simp] theorem State.mapA_launchNext : (s.mapA fa).launchNext = s.launchNext := rfl
@[simp] theorem State.mapA_tasks : (s.mapA fa).tasks = s.tasks := rfl
@[simp] theorem State.mapA_taskNext : (s.mapA fa).taskNext = s.taskNext := rfl
@[simp] theorem State.mapA_tick : (s.mapA fa).tick = s.tick := rfl
@[simp] theorem State.mapA_lastBeacon : (s.mapA fa).lastBeacon = s.lastBeacon := rfl
@[simp] theorem State.mapA_lastCorr : (s.mapA fa).lastCorr = s.lastCorr := rfl
@[simp] theorem State.mapA_beacons : (s.mapA fa).beacons = s.beacons := rfl
@[simp] theorem State.mapA_skew : (s.mapA fa).skew = s.skew := rfl
@[simp] theorem State.mapA_dies : (s.mapA fa).dies = s.dies := rfl
@[simp] theorem State.mapA_stopped : (s.mapA fa).stopped = s.stopped := rfl
@[simp] theorem State.mapA_feat : (s.mapA fa).feat = s.feat := rfl
@[simp] theorem State.mapA_trapSeqs : (s.mapA fa).trapSeqs = s.trapSeqs := rfl
@[simp] theorem State.mapA_migrs : (s.mapA fa).migrs = s.migrs := rfl
@[simp] theorem State.mapA_ncwWait : (s.mapA fa).ncwWait = s.ncwWait := rfl
@[simp] theorem State.mapA_incarn : (s.mapA fa).incarn = s.incarn := rfl
@[simp] theorem State.mapA_dead : (s.mapA fa).dead = s.dead := rfl
@[simp] theorem State.mapA_modules : (s.mapA fa).modules = s.modules := rfl
@[simp] theorem State.mapA_flitSent : (s.mapA fa).flitSent = s.flitSent := rfl
@[simp] theorem State.mapA_ports : (s.mapA fa).ports = s.ports := rfl
@[simp] theorem State.mapA_lost : (s.mapA fa).lost = s.lost := rfl
@[simp] theorem State.mapA_sentNums : (s.mapA fa).sentNums = s.sentNums := rfl
@[simp] theorem State.mapA_beaconOut : (s.mapA fa).beaconOut = s.beaconOut := rfl
@[simp] theorem State.mapA_flows : (s.mapA fa).flows = s.flows := rfl
@[simp] theorem State.mapA_reorder : (s.mapA fa).reorder = s.reorder := rfl
@[simp] theorem State.mapA_refusedPkts : (s.mapA fa).refusedPkts = s.refusedPkts := rfl
@[simp] theorem State.mapA_package : (s.mapA fa).package = s.package := rfl
@[simp] theorem State.mapA_images : (s.mapA fa).images = s.images := rfl
@[simp] theorem State.mapA_agenda : (s.mapA fa).agenda = s.agenda := rfl
@[simp] theorem State.mapA_script : (s.mapA fa).script = s.script := rfl
@[simp] theorem State.mapA_fresh : (s.mapA fa).fresh = s.fresh := rfl
@[simp] theorem State.mapSp_core : (s.mapSp fs).core = { s.core with sp := fs s.core.sp } := rfl
@[simp] theorem State.mapSp_others : (s.mapSp fs).others = s.others := rfl
@[simp] theorem State.mapSp_spad : (s.mapSp fs).spad = s.spad := rfl
@[simp] theorem State.mapSp_home : (s.mapSp fs).home = s.home := rfl
@[simp] theorem State.mapSp_poison : (s.mapSp fs).poison = s.poison := rfl
@[simp] theorem State.mapSp_barriers : (s.mapSp fs).barriers = s.barriers := rfl
@[simp] theorem State.mapSp_l2 : (s.mapSp fs).l2 = s.l2 := rfl
@[simp] theorem State.mapSp_dir : (s.mapSp fs).dir = s.dir := rfl
@[simp] theorem State.mapSp_hostHeld : (s.mapSp fs).hostHeld = s.hostHeld := rfl
@[simp] theorem State.mapSp_dieRegions : (s.mapSp fs).dieRegions = s.dieRegions := rfl
@[simp] theorem State.mapSp_ords : (s.mapSp fs).ords = s.ords := rfl
@[simp] theorem State.mapSp_ordSent : (s.mapSp fs).ordSent = s.ordSent := rfl
@[simp] theorem State.mapSp_ordNums : (s.mapSp fs).ordNums = s.ordNums := rfl
@[simp] theorem State.mapSp_cmds : (s.mapSp fs).cmds = s.cmds := rfl
@[simp] theorem State.mapSp_cmdNext : (s.mapSp fs).cmdNext = s.cmdNext := rfl
@[simp] theorem State.mapSp_oldColls : (s.mapSp fs).oldColls = s.oldColls := rfl
@[simp] theorem State.mapSp_launches : (s.mapSp fs).launches = s.launches := rfl
@[simp] theorem State.mapSp_launchNext : (s.mapSp fs).launchNext = s.launchNext := rfl
@[simp] theorem State.mapSp_tasks : (s.mapSp fs).tasks = s.tasks := rfl
@[simp] theorem State.mapSp_taskNext : (s.mapSp fs).taskNext = s.taskNext := rfl
@[simp] theorem State.mapSp_tick : (s.mapSp fs).tick = s.tick := rfl
@[simp] theorem State.mapSp_lastBeacon : (s.mapSp fs).lastBeacon = s.lastBeacon := rfl
@[simp] theorem State.mapSp_lastCorr : (s.mapSp fs).lastCorr = s.lastCorr := rfl
@[simp] theorem State.mapSp_beacons : (s.mapSp fs).beacons = s.beacons := rfl
@[simp] theorem State.mapSp_skew : (s.mapSp fs).skew = s.skew := rfl
@[simp] theorem State.mapSp_dies : (s.mapSp fs).dies = s.dies := rfl
@[simp] theorem State.mapSp_stopped : (s.mapSp fs).stopped = s.stopped := rfl
@[simp] theorem State.mapSp_feat : (s.mapSp fs).feat = s.feat := rfl
@[simp] theorem State.mapSp_trapSeqs : (s.mapSp fs).trapSeqs = s.trapSeqs := rfl
@[simp] theorem State.mapSp_migrs : (s.mapSp fs).migrs = s.migrs := rfl
@[simp] theorem State.mapSp_ncwWait : (s.mapSp fs).ncwWait = s.ncwWait := rfl
@[simp] theorem State.mapSp_incarn : (s.mapSp fs).incarn = s.incarn := rfl
@[simp] theorem State.mapSp_dead : (s.mapSp fs).dead = s.dead := rfl
@[simp] theorem State.mapSp_modules : (s.mapSp fs).modules = s.modules := rfl
@[simp] theorem State.mapSp_flitSent : (s.mapSp fs).flitSent = s.flitSent := rfl
@[simp] theorem State.mapSp_ports : (s.mapSp fs).ports = s.ports := rfl
@[simp] theorem State.mapSp_lost : (s.mapSp fs).lost = s.lost := rfl
@[simp] theorem State.mapSp_sentNums : (s.mapSp fs).sentNums = s.sentNums := rfl
@[simp] theorem State.mapSp_beaconOut : (s.mapSp fs).beaconOut = s.beaconOut := rfl
@[simp] theorem State.mapSp_flows : (s.mapSp fs).flows = s.flows := rfl
@[simp] theorem State.mapSp_reorder : (s.mapSp fs).reorder = s.reorder := rfl
@[simp] theorem State.mapSp_refusedPkts : (s.mapSp fs).refusedPkts = s.refusedPkts := rfl
@[simp] theorem State.mapSp_package : (s.mapSp fs).package = s.package := rfl
@[simp] theorem State.mapSp_images : (s.mapSp fs).images = s.images := rfl
@[simp] theorem State.mapSp_agenda : (s.mapSp fs).agenda = s.agenda := rfl
@[simp] theorem State.mapSp_script : (s.mapSp fs).script = s.script := rfl
@[simp] theorem State.mapSp_fresh : (s.mapSp fs).fresh = s.fresh := rfl
@[simp] theorem State.mapRgn_core : (s.mapRgn fr).core = { s.core with rgn := fr s.core.rgn } := rfl
@[simp] theorem State.mapRgn_others : (s.mapRgn fr).others = s.others := rfl
@[simp] theorem State.mapRgn_spad : (s.mapRgn fr).spad = s.spad := rfl
@[simp] theorem State.mapRgn_home : (s.mapRgn fr).home = s.home := rfl
@[simp] theorem State.mapRgn_poison : (s.mapRgn fr).poison = s.poison := rfl
@[simp] theorem State.mapRgn_barriers : (s.mapRgn fr).barriers = s.barriers := rfl
@[simp] theorem State.mapRgn_l2 : (s.mapRgn fr).l2 = s.l2 := rfl
@[simp] theorem State.mapRgn_dir : (s.mapRgn fr).dir = s.dir := rfl
@[simp] theorem State.mapRgn_hostHeld : (s.mapRgn fr).hostHeld = s.hostHeld := rfl
@[simp] theorem State.mapRgn_dieRegions : (s.mapRgn fr).dieRegions = s.dieRegions := rfl
@[simp] theorem State.mapRgn_ords : (s.mapRgn fr).ords = s.ords := rfl
@[simp] theorem State.mapRgn_ordSent : (s.mapRgn fr).ordSent = s.ordSent := rfl
@[simp] theorem State.mapRgn_ordNums : (s.mapRgn fr).ordNums = s.ordNums := rfl
@[simp] theorem State.mapRgn_cmds : (s.mapRgn fr).cmds = s.cmds := rfl
@[simp] theorem State.mapRgn_cmdNext : (s.mapRgn fr).cmdNext = s.cmdNext := rfl
@[simp] theorem State.mapRgn_oldColls : (s.mapRgn fr).oldColls = s.oldColls := rfl
@[simp] theorem State.mapRgn_launches : (s.mapRgn fr).launches = s.launches := rfl
@[simp] theorem State.mapRgn_launchNext : (s.mapRgn fr).launchNext = s.launchNext := rfl
@[simp] theorem State.mapRgn_tasks : (s.mapRgn fr).tasks = s.tasks := rfl
@[simp] theorem State.mapRgn_taskNext : (s.mapRgn fr).taskNext = s.taskNext := rfl
@[simp] theorem State.mapRgn_tick : (s.mapRgn fr).tick = s.tick := rfl
@[simp] theorem State.mapRgn_lastBeacon : (s.mapRgn fr).lastBeacon = s.lastBeacon := rfl
@[simp] theorem State.mapRgn_lastCorr : (s.mapRgn fr).lastCorr = s.lastCorr := rfl
@[simp] theorem State.mapRgn_beacons : (s.mapRgn fr).beacons = s.beacons := rfl
@[simp] theorem State.mapRgn_skew : (s.mapRgn fr).skew = s.skew := rfl
@[simp] theorem State.mapRgn_dies : (s.mapRgn fr).dies = s.dies := rfl
@[simp] theorem State.mapRgn_stopped : (s.mapRgn fr).stopped = s.stopped := rfl
@[simp] theorem State.mapRgn_feat : (s.mapRgn fr).feat = s.feat := rfl
@[simp] theorem State.mapRgn_trapSeqs : (s.mapRgn fr).trapSeqs = s.trapSeqs := rfl
@[simp] theorem State.mapRgn_migrs : (s.mapRgn fr).migrs = s.migrs := rfl
@[simp] theorem State.mapRgn_ncwWait : (s.mapRgn fr).ncwWait = s.ncwWait := rfl
@[simp] theorem State.mapRgn_incarn : (s.mapRgn fr).incarn = s.incarn := rfl
@[simp] theorem State.mapRgn_dead : (s.mapRgn fr).dead = s.dead := rfl
@[simp] theorem State.mapRgn_modules : (s.mapRgn fr).modules = s.modules := rfl
@[simp] theorem State.mapRgn_flitSent : (s.mapRgn fr).flitSent = s.flitSent := rfl
@[simp] theorem State.mapRgn_ports : (s.mapRgn fr).ports = s.ports := rfl
@[simp] theorem State.mapRgn_lost : (s.mapRgn fr).lost = s.lost := rfl
@[simp] theorem State.mapRgn_sentNums : (s.mapRgn fr).sentNums = s.sentNums := rfl
@[simp] theorem State.mapRgn_beaconOut : (s.mapRgn fr).beaconOut = s.beaconOut := rfl
@[simp] theorem State.mapRgn_flows : (s.mapRgn fr).flows = s.flows := rfl
@[simp] theorem State.mapRgn_reorder : (s.mapRgn fr).reorder = s.reorder := rfl
@[simp] theorem State.mapRgn_refusedPkts : (s.mapRgn fr).refusedPkts = s.refusedPkts := rfl
@[simp] theorem State.mapRgn_package : (s.mapRgn fr).package = s.package := rfl
@[simp] theorem State.mapRgn_images : (s.mapRgn fr).images = s.images := rfl
@[simp] theorem State.mapRgn_agenda : (s.mapRgn fr).agenda = s.agenda := rfl
@[simp] theorem State.mapRgn_script : (s.mapRgn fr).script = s.script := rfl
@[simp] theorem State.mapRgn_fresh : (s.mapRgn fr).fresh = s.fresh := rfl
@[simp] theorem State.mapM_core : (s.mapM fm).core = { s.core with m := fm s.core.m } := rfl
@[simp] theorem State.mapM_others : (s.mapM fm).others = s.others := rfl
@[simp] theorem State.mapM_spad : (s.mapM fm).spad = s.spad := rfl
@[simp] theorem State.mapM_home : (s.mapM fm).home = s.home := rfl
@[simp] theorem State.mapM_poison : (s.mapM fm).poison = s.poison := rfl
@[simp] theorem State.mapM_barriers : (s.mapM fm).barriers = s.barriers := rfl
@[simp] theorem State.mapM_l2 : (s.mapM fm).l2 = s.l2 := rfl
@[simp] theorem State.mapM_dir : (s.mapM fm).dir = s.dir := rfl
@[simp] theorem State.mapM_hostHeld : (s.mapM fm).hostHeld = s.hostHeld := rfl
@[simp] theorem State.mapM_dieRegions : (s.mapM fm).dieRegions = s.dieRegions := rfl
@[simp] theorem State.mapM_ords : (s.mapM fm).ords = s.ords := rfl
@[simp] theorem State.mapM_ordSent : (s.mapM fm).ordSent = s.ordSent := rfl
@[simp] theorem State.mapM_ordNums : (s.mapM fm).ordNums = s.ordNums := rfl
@[simp] theorem State.mapM_cmds : (s.mapM fm).cmds = s.cmds := rfl
@[simp] theorem State.mapM_cmdNext : (s.mapM fm).cmdNext = s.cmdNext := rfl
@[simp] theorem State.mapM_oldColls : (s.mapM fm).oldColls = s.oldColls := rfl
@[simp] theorem State.mapM_launches : (s.mapM fm).launches = s.launches := rfl
@[simp] theorem State.mapM_launchNext : (s.mapM fm).launchNext = s.launchNext := rfl
@[simp] theorem State.mapM_tasks : (s.mapM fm).tasks = s.tasks := rfl
@[simp] theorem State.mapM_taskNext : (s.mapM fm).taskNext = s.taskNext := rfl
@[simp] theorem State.mapM_tick : (s.mapM fm).tick = s.tick := rfl
@[simp] theorem State.mapM_lastBeacon : (s.mapM fm).lastBeacon = s.lastBeacon := rfl
@[simp] theorem State.mapM_lastCorr : (s.mapM fm).lastCorr = s.lastCorr := rfl
@[simp] theorem State.mapM_beacons : (s.mapM fm).beacons = s.beacons := rfl
@[simp] theorem State.mapM_skew : (s.mapM fm).skew = s.skew := rfl
@[simp] theorem State.mapM_dies : (s.mapM fm).dies = s.dies := rfl
@[simp] theorem State.mapM_stopped : (s.mapM fm).stopped = s.stopped := rfl
@[simp] theorem State.mapM_feat : (s.mapM fm).feat = s.feat := rfl
@[simp] theorem State.mapM_trapSeqs : (s.mapM fm).trapSeqs = s.trapSeqs := rfl
@[simp] theorem State.mapM_migrs : (s.mapM fm).migrs = s.migrs := rfl
@[simp] theorem State.mapM_ncwWait : (s.mapM fm).ncwWait = s.ncwWait := rfl
@[simp] theorem State.mapM_incarn : (s.mapM fm).incarn = s.incarn := rfl
@[simp] theorem State.mapM_dead : (s.mapM fm).dead = s.dead := rfl
@[simp] theorem State.mapM_modules : (s.mapM fm).modules = s.modules := rfl
@[simp] theorem State.mapM_flitSent : (s.mapM fm).flitSent = s.flitSent := rfl
@[simp] theorem State.mapM_ports : (s.mapM fm).ports = s.ports := rfl
@[simp] theorem State.mapM_lost : (s.mapM fm).lost = s.lost := rfl
@[simp] theorem State.mapM_sentNums : (s.mapM fm).sentNums = s.sentNums := rfl
@[simp] theorem State.mapM_beaconOut : (s.mapM fm).beaconOut = s.beaconOut := rfl
@[simp] theorem State.mapM_flows : (s.mapM fm).flows = s.flows := rfl
@[simp] theorem State.mapM_reorder : (s.mapM fm).reorder = s.reorder := rfl
@[simp] theorem State.mapM_refusedPkts : (s.mapM fm).refusedPkts = s.refusedPkts := rfl
@[simp] theorem State.mapM_package : (s.mapM fm).package = s.package := rfl
@[simp] theorem State.mapM_images : (s.mapM fm).images = s.images := rfl
@[simp] theorem State.mapM_agenda : (s.mapM fm).agenda = s.agenda := rfl
@[simp] theorem State.mapM_script : (s.mapM fm).script = s.script := rfl
@[simp] theorem State.mapM_fresh : (s.mapM fm).fresh = s.fresh := rfl

end Parts

section Registers

variable (a : Arch) (i : Fin 64) (j : Fin 128) (x : Word) (y : Vec)

/-! ## Registers -/

@[simp] theorem setS_s : (setS a i x).s = a.s.set i.val x i.isLt := rfl
@[simp] theorem setS_v : (setS a i x).v = a.v := rfl
@[simp] theorem setS_p : (setS a i x).p = a.p := rfl
@[simp] theorem setS_lc : (setS a i x).lc = a.lc := rfl
@[simp] theorem setS_lstart : (setS a i x).lstart = a.lstart := rfl
@[simp] theorem setS_lend : (setS a i x).lend = a.lend := rfl
@[simp] theorem setS_lorder : (setS a i x).lorder = a.lorder := rfl
@[simp] theorem setS_vrb : (setS a i x).vrb = a.vrb := rfl
@[simp] theorem setS_prb : (setS a i x).prb = a.prb := rfl
@[simp] theorem setS_lec : (setS a i x).lec = a.lec := rfl
@[simp] theorem setS_y : (setS a i x).y = a.y := rfl
@[simp] theorem setS_mat : (setS a i x).mat = a.mat := rfl
@[simp] theorem setS_rings : (setS a i x).rings = a.rings := rfl
@[simp] theorem setS_fflags : (setS a i x).fflags = a.fflags := rfl
@[simp] theorem setS_streams : (setS a i x).streams = a.streams := rfl
@[simp] theorem setV_s : (setV a j y).s = a.s := rfl
@[simp] theorem setV_v : (setV a j y).v = a.v.set j.val y j.isLt := rfl
@[simp] theorem setV_p : (setV a j y).p = a.p := rfl
@[simp] theorem setV_lc : (setV a j y).lc = a.lc := rfl
@[simp] theorem setV_lstart : (setV a j y).lstart = a.lstart := rfl
@[simp] theorem setV_lend : (setV a j y).lend = a.lend := rfl
@[simp] theorem setV_lorder : (setV a j y).lorder = a.lorder := rfl
@[simp] theorem setV_vrb : (setV a j y).vrb = a.vrb := rfl
@[simp] theorem setV_prb : (setV a j y).prb = a.prb := rfl
@[simp] theorem setV_lec : (setV a j y).lec = a.lec := rfl
@[simp] theorem setV_y : (setV a j y).y = a.y := rfl
@[simp] theorem setV_mat : (setV a j y).mat = a.mat := rfl
@[simp] theorem setV_rings : (setV a j y).rings = a.rings := rfl
@[simp] theorem setV_fflags : (setV a j y).fflags = a.fflags := rfl
@[simp] theorem setV_streams : (setV a j y).streams = a.streams := rfl

@[simp] theorem setP_zero (p : Pred) : setP a 0 p = a := rfl
@[simp] theorem setP_s (k : Fin 16) (p : Pred) : (setP a k p).s = a.s := by unfold setP; split <;> rfl
@[simp] theorem setP_v (k : Fin 16) (p : Pred) : (setP a k p).v = a.v := by unfold setP; split <;> rfl
@[simp] theorem setP_lc (k : Fin 16) (p : Pred) : (setP a k p).lc = a.lc := by unfold setP; split <;> rfl
@[simp] theorem setP_lstart (k : Fin 16) (p : Pred) : (setP a k p).lstart = a.lstart := by unfold setP; split <;> rfl
@[simp] theorem setP_lend (k : Fin 16) (p : Pred) : (setP a k p).lend = a.lend := by unfold setP; split <;> rfl
@[simp] theorem setP_lorder (k : Fin 16) (p : Pred) : (setP a k p).lorder = a.lorder := by unfold setP; split <;> rfl
@[simp] theorem setP_vrb (k : Fin 16) (p : Pred) : (setP a k p).vrb = a.vrb := by unfold setP; split <;> rfl
@[simp] theorem setP_prb (k : Fin 16) (p : Pred) : (setP a k p).prb = a.prb := by unfold setP; split <;> rfl
@[simp] theorem setP_lec (k : Fin 16) (p : Pred) : (setP a k p).lec = a.lec := by unfold setP; split <;> rfl
@[simp] theorem setP_y (k : Fin 16) (p : Pred) : (setP a k p).y = a.y := by unfold setP; split <;> rfl
@[simp] theorem setP_mat (k : Fin 16) (p : Pred) : (setP a k p).mat = a.mat := by unfold setP; split <;> rfl
@[simp] theorem setP_rings (k : Fin 16) (p : Pred) : (setP a k p).rings = a.rings := by unfold setP; split <;> rfl
@[simp] theorem setP_fflags (k : Fin 16) (p : Pred) : (setP a k p).fflags = a.fflags := by unfold setP; split <;> rfl
@[simp] theorem setP_streams (k : Fin 16) (p : Pred) : (setP a k p).streams = a.streams := by unfold setP; split <;> rfl

/-- A read after a write of a scalar register. -/
theorem getS_setS (k : Fin 64) : getS (setS a i x) k = if k = i then x else getS a k := by
  simp only [getS, setS_s, get_set, ← Fin.ext_iff, eq_comm]

/-- A read after a write of a vector register. -/
theorem getV_setV (k : Fin 128) : getV (setV a j y) k = if k = j then y else getV a k := by
  simp only [getV, setV_v, get_set, ← Fin.ext_iff, eq_comm]

@[simp] theorem getS_setV (k : Fin 64) : getS (setV a j y) k = getS a k := rfl
@[simp] theorem getV_setS (k : Fin 128) : getV (setS a i x) k = getV a k := rfl

/-- p0 reads all ones, whatever was written (R250). -/
@[simp] theorem getP_zero : getP a 0 = BitVec.allOnes 32 := rfl

/-- A read after a write of a predicate register. -/
theorem getP_setP (k l : Fin 16) (p : Pred) :
    getP (setP a k p) l = if l = 0 then BitVec.allOnes 32 else if l = k then p else getP a l := by
  unfold getP setP
  by_cases h0 : l = 0
  · simp only [h0, if_true]
  · by_cases hk : k = 0
    · have h3 : ¬ l = k := fun e => h0 (e.trans hk)
      simp only [h0, hk, if_false, if_true]
    · simp only [h0, hk, if_false, get_set, ← Fin.ext_iff, eq_comm]

end Registers

/-- A die after an update of one. -/
@[simp] theorem dieGet_dieUpd (s : State) (n k : Nat) (d : Die → Die) (hk : k < 4) :
    dieGet (dieUpd s n d) k = if k = n then d (dieGet s k) else dieGet s k := by
  have h1 : (Fin.ofNat 4 k).val = k := Nat.mod_eq_of_lt hk
  simp only [dieGet, dieUpd_dies, get_vecOf, h1]

end Sys2Proof.Machine
end

