-- ==== Sys2Proof/Laws/Ops.lean ====
section
/-! SUPPORT. What each shared operation can do: the focus, results put in flight and landing, records, traps. -/

namespace Sys2Proof.Machine

/-! ## The focus -/

@[simp] theorem focus_self (s : State) : focus s.core.id s = s := by simp [focus]

/-- On the core in focus an operation needs no change of focus. -/
theorem onCore_self (s : State) (f : State → State) (h : (f s).core.id = s.core.id) :
    onCore s.core.id f s = f s := by
  rw [onCore, focus_self]
  simp [focus, h]

@[simp] theorem coreOf_self (s : State) : coreOf s s.core.id = s.core := by simp [coreOf]

/-- Bringing a core into focus moves no memory. -/
theorem focus_mem (n : Nat) (s : State) :
    (focus n s).spad = s.spad ∧ (focus n s).home = s.home ∧ (focus n s).dies = s.dies := by
  unfold focus
  split <;> exact ⟨rfl, rfl, rfl⟩

/-! ## Results in flight -/

theorem schedule_plain {s : State} (f : Flight) (h : plain s) : schedule f s = queued f s := by
  have h' : s.core.chainLast = true := h
  simp only [schedule, h', if_true, queued]

theorem regionOpen_queued (f : Flight) (s : State) : regionOpen (queued f s).core = regionOpen s.core := rfl

theorem plain_queued {f : Flight} {s : State} (h : plain s) : plain (queued f s) := h

/-- What a scalar result does (R207). -/
theorem emitS_plain {s : State} (h : plain s) (lat : Nat) (d : Dst 64) (x : Word) :
    emitS lat d x 0 s = queued (resultS s lat d x) s := by
  cases d <;> exact schedule_plain _ h

/-- What a predicate result does (R207). -/
theorem emitP_plain {s : State} (h : plain s) (lat : Nat) (d : Dst 16) (mask : BitVec 32) (x : Pred) (fl : BitVec 6) :
    emitP lat d mask x fl s = queued (resultP s lat d mask x fl) s := by
  cases d <;> exact schedule_plain _ h

/-- Taking a push's place leaves the word in execution as it is. -/
theorem plain_pushPlace {s : State} (k : Fin 8) (h : plain s) : plain (pushPlace k s).2 := by
  unfold pushPlace
  simp only
  split <;> exact h

theorem pushPlace_core (s : State) (k : Fin 8) :
    (pushPlace k s).2.core.slot = s.core.slot ∧ (pushPlace k s).2.core.rgn.st = s.core.rgn.st ∧
      (pushPlace k s).2.core.a.vrb = s.core.a.vrb := by
  unfold pushPlace
  simp only
  split <;> exact ⟨rfl, rfl, rfl⟩

theorem regionOpen_congr {c d : Core} (h : c.rgn.st = d.rgn.st) : regionOpen c = regionOpen d := by
  simp only [regionOpen, h]

/-- What a vector result does (R207, R254). -/
theorem emitV_plain {s : State} (h : plain s) (lat : Nat) (d : Dst 128) (mask : BitVec 32) (x : Vec) (fl : BitVec 6) :
    emitV lat d mask x fl s = queued (resultV s lat d mask x fl) (afterPush d mask s) := by
  cases d with
  | reg i => exact schedule_plain _ h
  | latch => exact schedule_plain _ h
  | null => exact schedule_plain _ h
  | stream k =>
    have hc := pushPlace_core s k
    by_cases hm : mask = 0
    · simp only [emitV, hm, beq_self_eq_true, if_true, resultV, resultOf, afterPush]
      exact schedule_plain _ h
    · have hm' : (mask == 0) = false := beq_eq_false_iff_ne.2 hm
      simp only [emitV, hm', Bool.false_eq_true, if_false, resultV, resultOf, afterPush, if_neg hm]
      rw [schedule_plain _ (plain_pushPlace k h), hc.1, regionOpen_congr hc.2.1]

theorem whenOn_on {g : Guard} {s : State} (f : State → State) (h : guardOn s g = true) :
    whenOn g f s = .next (f s) := by simp [whenOn, h]
theorem whenOn_off {g : Guard} {s : State} (f : State → State) (h : guardOn s g = false) :
    whenOn g f s = .next s := by simp [whenOn, h]

/-- A guard that names p0 is on. -/
@[simp] theorem guardOn_always (s : State) : guardOn s Guard.always = true := by
  simp [guardOn, guardBits, Guard.always, getP, physP]
@[simp] theorem guardBits_always (s : State) : guardBits s Guard.always = BitVec.allOnes 32 := by
  simp [guardBits, Guard.always, getP, physP]

/-! ## Reading sources -/

theorem readV_notStream {s : State} {a : Src 128} (h : ∀ k, a ≠ .stream k) : after1 s a = s := by
  cases a with
  | stream k => exact absurd rfl (h k)
  | _ => rfl

end Sys2Proof.Machine
end

