-- ==== Sys2Proof/Laws/Reads.lean ====
section
/-! SUPPORT. Reading a source changes the streams' buffers, cached lines, what a full level writes back, and hotness
counters, and nothing else (R254, R306). -/

namespace Sys2Proof.Machine

/-! ## The fields a read may change -/

/-- The part of `readsOnly` that names the fields. -/
def cacheOnly (s t : State) : Prop :=
  ∃ lines streams hotB l2 dir home poison hostHeld dieRegions sentNums flitSent modules flows fresh, t = { s with
    core := { s.core with lines := lines, a := { s.core.a with streams := streams }, m := { s.core.m with hotB := hotB } }
    l2 := l2, dir := dir, home := home, poison := poison, hostHeld := hostHeld, dieRegions := dieRegions
    sentNums := sentNums, flitSent := flitSent, modules := modules, flows := flows, fresh := fresh }

theorem cacheOnly.refl (s : State) : cacheOnly s s := ⟨_, _, _, _, _, _, _, _, _, _, _, _, _, _, rfl⟩
theorem cacheOnly.trans {s t u : State} (h : cacheOnly s t) (k : cacheOnly t u) : cacheOnly s u := by
  obtain ⟨_, _, _, _, _, _, _, _, _, _, _, _, _, _, rfl⟩ := h
  obtain ⟨_, _, _, _, _, _, _, _, _, _, _, _, _, _, rfl⟩ := k
  exact ⟨_, _, _, _, _, _, _, _, _, _, _, _, _, _, rfl⟩
theorem cacheOnly.foldl {α : Type} {f : State → α → State} (hf : ∀ s x, cacheOnly s (f s x)) (l : List α) (s : State) :
    cacheOnly s (l.foldl f s) := by
  induction l generalizing s with
  | nil => exact .refl s
  | cons a l ih => exact (hf s a).trans (ih _)

/-- One line's part of `calm`. -/
def calmAt (key : Nat) (s t : State) : Prop :=
  Mem.wf s.home = true → Mem.wf t.home = true ∧
    (calmKey s key → calmKey t key ∧ ∀ a, lineKey a = key → Mem.get t.home a = Mem.get s.home a)

theorem calmAt.refl (key : Nat) (s : State) : calmAt key s s := fun h => ⟨h, fun c => ⟨c, fun _ _ => rfl⟩⟩
theorem calmAt.trans {key : Nat} {s t u : State} (h : calmAt key s t) (k : calmAt key t u) : calmAt key s u := fun w =>
  let h1 := h w
  let k1 := k h1.1
  ⟨k1.1, fun c => let h2 := h1.2 c
    let k2 := k1.2 h2.1
    ⟨k2.1, fun a e => (k2.2 a e).trans (h2.2 a e)⟩⟩
theorem calm_iff {s t : State} : calm s t ↔ ∀ key, calmAt key s t :=
  ⟨fun h key w => ⟨(h w).1, (h w).2 key⟩, fun h w => ⟨(h 0 w).1, fun key => (h key w).2⟩⟩
theorem calmAt.foldl {α : Type} {key : Nat} {f : State → α → State} (hf : ∀ s x, calmAt key s (f s x)) (l : List α)
    (s : State) : calmAt key s (l.foldl f s) := by
  induction l generalizing s with
  | nil => exact .refl _ s
  | cons a l ih => exact (hf s a).trans (ih _)
/-- A step that leaves the homes alone and keeps the line calm. -/
theorem calmAt.of {key : Nat} {s t : State} (hh : t.home = s.home) (hc : calmKey s key → calmKey t key) : calmAt key s t :=
  fun w => ⟨hh ▸ w, fun c => ⟨hc c, fun _ _ => by rw [hh]⟩⟩
/-- Nothing that makes a line calm or not changed. -/
theorem calmAt.same {key : Nat} {s t : State} (hh : t.home = s.home) (hd : t.dir = s.dir) (hl : t.l2 = s.l2)
    (hc : t.core.lines = s.core.lines) : calmAt key s t :=
  .of hh fun c => by simpa only [calmKey, dirOwner, hd, hl, hc] using c
theorem calmAt.absurd {key : Nat} {s t : State} (hw : Mem.wf s.home = true → Mem.wf t.home = true) (h : ¬ calmKey s key) :
    calmAt key s t := fun w => ⟨hw w, fun c => (h c).elim⟩

/-! ## The directory and the L2s -/

theorem dirOwner_none {s : State} {key : Nat} :
    dirOwner s key = none ↔ ∀ x ∈ s.dir, x.key = key → x.st ≠ .M ∧ x.st ≠ .O := by
  simp only [dirOwner, Option.map_eq_none_iff, List.find?_eq_none, Bool.and_eq_true, Bool.or_eq_true, beq_iff_eq, not_and, not_or]

/-- A line stays calm where the directory, the L2s and the core's lines only lose what would disturb it. -/
theorem calmKey.mono {s t : State} {key : Nat} (h : calmKey s key)
    (hd : ∀ x ∈ t.dir, x.key = key → x.st = .M ∨ x.st = .O → x ∈ s.dir)
    (hl : ∀ l ∈ t.l2, l.key = key → l.marks ≠ 0 → ∃ m ∈ s.l2, m.key = key ∧ m.marks = l.marks)
    (hc : ∀ l ∈ t.core.lines, l.key = key → l.dirty ≠ 0 → ∃ m ∈ s.core.lines, m.key = key ∧ m.dirty = l.dirty) :
    calmKey t key := by
  refine ⟨dirOwner_none.2 fun x hx hk => ?_, fun l hx hk => ?_, fun l hx hk => ?_⟩
  · have := dirOwner_none.1 h.1 x
    by_cases hM : x.st = .M ∨ x.st = .O
    · exact this (hd x hx hk hM) hk
    · exact not_or.1 hM
  · by_contra hn
    obtain ⟨m, hm, hmk, he⟩ := hl l hx hk hn
    exact hn (he ▸ h.2.1 m hm hmk)
  · by_contra hn
    obtain ⟨m, hm, hmk, he⟩ := hc l hx hk hn
    exact hn (he ▸ h.2.2 m hm hmk)

theorem l2Find_some {s : State} {c key : Nat} {l : L2Line} (h : l2Find s c key = some l) :
    l ∈ s.l2 ∧ l.cluster = c ∧ l.key = key := by
  refine ⟨List.mem_of_find?_eq_some h, ?_⟩
  have := List.find?_some h
  simpa only [Bool.and_eq_true, beq_iff_eq] using this
theorem lineFind_some {c : Core} {key : Nat} {l : Line} (h : lineFind c key = some l) : l ∈ c.lines ∧ l.key = key :=
  ⟨List.mem_of_find?_eq_some h, by simpa only [beq_iff_eq] using List.find?_some h⟩

theorem homePut_cache (s : State) (key : Nat) (d : BitVec 512) (m : BitVec 64) : cacheOnly s (homePut s key d m) :=
  ⟨_, _, _, _, _, _, _, _, _, _, _, _, _, _, rfl⟩
/-- A masked write at the home changes its own line alone. -/
theorem homePut_calm {s : State} {key k : Nat} (d : BitVec 512) (m : BitVec 64) (h : key ≠ k) : calmAt k s (homePut s key d m) := by
  intro w
  refine ⟨Mem.wf_putSome _ _ _ w, fun c => ⟨c, fun a ha => ?_⟩⟩
  show Mem.get (Mem.putSome s.home (64 * key) 64 _) a = _
  rw [Mem.get_putSome _ _ _ _ w]
  have : ¬ (64 * key ≤ a ∧ a < 64 * key + 64) := by simp only [lineKey] at ha; omega
  simp only [this, if_false]

theorem l2Set_cache (s : State) (l : L2Line) : cacheOnly s (l2Set s l) := ⟨_, _, _, _, _, _, _, _, _, _, _, _, _, _, rfl⟩
/-- A line set in an L2 leaves a line calm when it is another's, or carries no more marks than a copy already there. -/
theorem l2Set_calm {s : State} {k : Nat} (l : L2Line) (h : l.key = k → l.marks ≠ 0 → ∃ m ∈ s.l2, m.key = k ∧ m.marks = l.marks) :
    calmAt k s (l2Set s l) := by
  refine .of rfl fun c => c.mono (fun x hx _ _ => hx) (fun y hy hk hm => ?_) fun y hy hk _ => ⟨y, hy, hk, rfl⟩
  rcases List.mem_cons.1 hy with rfl | hy
  · exact h hk hm
  · exact ⟨y, (List.mem_filter.1 hy).1, hk, rfl⟩
theorem l2Drop_cache (s : State) (c key : Nat) : cacheOnly s (l2Drop s c key) := ⟨_, _, _, _, _, _, _, _, _, _, _, _, _, _, rfl⟩
theorem l2Drop_calm (s : State) (c key k : Nat) : calmAt k s (l2Drop s c key) :=
  .of rfl fun h => h.mono (fun _ hx _ _ => (List.mem_filter.1 hx).1) (fun y hy hk _ => ⟨y, (List.mem_filter.1 hy).1, hk, rfl⟩)
    fun y hy hk _ => ⟨y, hy, hk, rfl⟩
theorem dirSet_cache (s : State) (c key : Nat) (st : Moesi) : cacheOnly s (dirSet s c key st) :=
  ⟨_, _, _, _, _, _, _, _, _, _, _, _, _, _, rfl⟩
theorem dirSet_calm {s : State} {k : Nat} (c key : Nat) (st : Moesi) (h : key = k → st ≠ .M ∧ st ≠ .O) :
    calmAt k s (dirSet s c key st) := by
  refine .of rfl fun h' => h'.mono (fun x hx hk hst => ?_) (fun y hy hk _ => ⟨y, hy, hk, rfl⟩) fun y hy hk _ => ⟨y, hy, hk, rfl⟩
  rcases List.mem_cons.1 hx with rfl | hx
  · exact absurd hst (not_or.2 (h hk))
  · exact (List.mem_filter.1 hx).1

/-- Leaving the directory fewer entries. -/
theorem dirFilter_calm (s : State) (p : DirEnt → Bool) (k : Nat) : calmAt k s { s with dir := s.dir.filter p } :=
  .of rfl fun h => h.mono (fun _ hx _ _ => (List.mem_filter.1 hx).1) (fun y hy hk _ => ⟨y, hy, hk, rfl⟩)
    fun y hy hk _ => ⟨y, hy, hk, rfl⟩

theorem flushOwner_cache (s : State) (key : Nat) : cacheOnly s (flushOwner s key) := by
  unfold flushOwner
  split
  · exact .refl s
  · split
    · exact ⟨_, _, _, _, _, _, _, _, _, _, _, _, _, _, rfl⟩
    · exact (homePut_cache _ _ _ _).trans (dirSet_cache _ _ _ _)
theorem flushOwner_calm (s : State) (key k : Nat) : calmAt k s (flushOwner s key) := by
  unfold flushOwner
  split
  · exact .refl k s
  · rename_i c ho
    have hne : calmKey s k → key ≠ k := by rintro h rfl; exact absurd h.1 (by simp [ho])
    by_cases hk : key = k
    · refine .absurd (fun w => ?_) fun c => hne c hk
      split
      · exact w
      · exact Mem.wf_putSome _ _ _ w
    · split
      · exact dirFilter_calm _ _ _
      · exact (homePut_calm _ _ hk).trans (dirSet_calm _ _ _ fun h => absurd h hk)

theorem l2Inval_cache (s : State) (keep : Option Nat) (key : Nat) : cacheOnly s (l2Inval s keep key) := by
  unfold l2Inval
  split
  · exact .refl s
  · exact ⟨_, _, _, _, _, _, _, _, _, _, _, _, _, _, rfl⟩
theorem l2Inval_calm (s : State) (keep : Option Nat) (key k : Nat) : calmAt k s (l2Inval s keep key) := by
  unfold l2Inval
  split
  · exact .refl k s
  · refine .of rfl fun h => h.mono (fun _ hx _ _ => (List.mem_filter.1 hx).1) (fun y hy hk _ => ?_) fun y hy hk _ => ⟨y, hy, hk, rfl⟩
    obtain ⟨l, hl, he⟩ := List.mem_filterMap.1 hy
    split at he
    · split at he
      · cases he
      · cases he; exact ⟨l, hl, hk, rfl⟩
    · cases he; exact ⟨_, hl, hk, rfl⟩

theorem homeWrite_cache (s : State) (f : Option Nat) (key : Nat) (d : BitVec 512) (m : BitVec 64) :
    cacheOnly s (homeWrite s f key d m) :=
  ((flushOwner_cache _ _).trans (l2Inval_cache _ _ _)).trans (homePut_cache _ _ _ _)
theorem homeWrite_calm {s : State} {key k : Nat} (f : Option Nat) (d : BitVec 512) (m : BitVec 64) (h : key ≠ k) :
    calmAt k s (homeWrite s f key d m) :=
  ((flushOwner_calm _ _ _).trans (l2Inval_calm _ _ _ _)).trans (homePut_calm _ _ h)

theorem l2Forget_cache (cl key : Nat) (s : State) : cacheOnly s (l2Forget cl key s) := by
  unfold l2Forget
  split
  · exact .refl s
  · have h : cacheOnly s (if dirOwner s key == some cl then flushOwner s key else s) := by
      split
      · exact flushOwner_cache _ _
      · exact .refl s
    dsimp only
    split
    · exact h.trans (l2Drop_cache _ _ _)
    · exact h.trans ⟨_, _, _, _, _, _, _, _, _, _, _, _, _, _, rfl⟩
theorem flushOwner_l2 (s : State) (key : Nat) : (flushOwner s key).l2 = s.l2 := by
  unfold flushOwner
  split
  · rfl
  · split <;> rfl
theorem l2Forget_calm (cl key k : Nat) (s : State) : calmAt k s (l2Forget cl key s) := by
  unfold l2Forget
  split
  · exact .refl k s
  · rename_i l hl
    have h : calmAt k s (if dirOwner s key == some cl then flushOwner s key else s) := by
      split
      · exact flushOwner_calm _ _ _
      · exact .refl k s
    have hm : l ∈ (if dirOwner s key == some cl then flushOwner s key else s).l2 := by
      split
      · rw [flushOwner_l2]; exact (l2Find_some hl).1
      · exact (l2Find_some hl).1
    dsimp only
    split
    · exact h.trans (l2Drop_calm _ _ _ _)
    · refine h.trans ?_
      have a := l2Set_calm (k := k) ({ l with valid := l.marks } : L2Line) fun hk _ => ⟨l, hm, hk, rfl⟩
      exact a.trans (.of rfl fun h => h.mono (fun _ hx _ _ => (List.mem_filter.1 hx).1) (fun y hy hk _ => ⟨y, hy, hk, rfl⟩)
        fun y hy hk _ => ⟨y, hy, hk, rfl⟩)

theorem recallOthers_cache (die base lsz : Nat) (s : State) : cacheOnly s (recallOthers die base lsz s) :=
  .foldl (fun _ _ => l2Forget_cache _ _ _) _ s
theorem recallOthers_calm (die base lsz k : Nat) (s : State) : calmAt k s (recallOthers die base lsz s) :=
  .foldl (fun _ _ => l2Forget_calm _ _ _ _) _ s
theorem trackRegion_cache (die key : Nat) (own : Bool) (s : State) : cacheOnly s (trackRegion die key own s) := by
  unfold trackRegion
  dsimp only
  repeat' split
  all_goals first
    | exact .refl s
    | exact ⟨_, _, _, _, _, _, _, _, _, _, _, _, _, _, rfl⟩
    | (refine cacheOnly.trans ?_ (recallOthers_cache _ _ _ _); exact ⟨_, _, _, _, _, _, _, _, _, _, _, _, _, _, rfl⟩)
theorem trackRegion_calm (die key k : Nat) (own : Bool) (s : State) : calmAt k s (trackRegion die key own s) := by
  unfold trackRegion
  dsimp only
  repeat' split
  all_goals first
    | exact .refl k s
    | exact .same rfl rfl rfl rfl
    | (refine calmAt.trans ?_ (recallOthers_calm _ _ _ _ _); exact .same rfl rfl rfl rfl)
theorem sendPktOf_cache (src c key : Nat) (s : State) : cacheOnly s (sendPktOf src c key s) := by
  unfold sendPktOf
  split
  · exact .refl s
  · split <;> exact ⟨_, _, _, _, _, _, _, _, _, _, _, _, _, _, rfl⟩
theorem sendPktOf_calm (src c key k : Nat) (s : State) : calmAt k s (sendPktOf src c key s) := by
  unfold sendPktOf
  split
  · exact .refl k s
  · split <;> exact .same rfl rfl rfl rfl
theorem sendPkt_cache (c key : Nat) (s : State) : cacheOnly s (sendPkt c key s) := sendPktOf_cache _ _ _ _
theorem sendPkt_calm (c key k : Nat) (s : State) : calmAt k s (sendPkt c key s) := sendPktOf_calm _ _ _ _ _

theorem l2Push_cache (s : State) (c key : Nat) : cacheOnly s (l2Push s c key) := by
  unfold l2Push
  split
  · exact .refl s
  · rename_i l _
    split
    · exact .refl s
    · dsimp only
      split
      · refine (((sendPkt_cache c key s).trans (trackRegion_cache (c / 8) key true _)).trans (l2Inval_cache _ (some c) key)).trans ?_
        exact ⟨_, _, _, _, _, _, _, _, _, _, _, _, _, _, rfl⟩
      · refine (((sendPkt_cache c key s).trans (trackRegion_cache (c / 8) key false _)).trans (homeWrite_cache _ (some c) key l.data l.marks)).trans ?_
        split <;> exact ⟨_, _, _, _, _, _, _, _, _, _, _, _, _, _, rfl⟩
theorem l2Push_calm (s : State) (c key k : Nat) : calmAt k s (l2Push s c key) := by
  by_cases hk : key = k
  · unfold l2Push
    split
    · exact .refl k s
    · rename_i l hl
      split
      · exact .refl k s
      · rename_i hm
        refine .absurd (fun w => ?_) fun c => hm (by simpa using c.2.1 l (l2Find_some hl).1 ((l2Find_some hl).2.2.trans hk))
        have h1 : Mem.wf (trackRegion (c / 8) key true (sendPkt c key s)).home = true :=
          (((sendPkt_calm c key 0 s).trans (trackRegion_calm (c / 8) key 0 true _)) w).1
        have h2 : Mem.wf (trackRegion (c / 8) key false (sendPkt c key s)).home = true :=
          (((sendPkt_calm c key 0 s).trans (trackRegion_calm (c / 8) key 0 false _)) w).1
        dsimp only
        split
        · exact (l2Inval_calm _ (some c) key 0 h1).1
        · split <;> exact Mem.wf_putSome _ _ _ ((l2Inval_calm _ (some c) key 0 (flushOwner_calm _ key 0 h2).1).1)
  · unfold l2Push
    split
    · exact .refl k s
    · rename_i l hl
      have hlk : l.key ≠ k := by rw [(l2Find_some hl).2.2]; exact hk
      split
      · exact .refl k s
      · dsimp only
        split
        · refine (((sendPkt_calm c key k s).trans (trackRegion_calm (c / 8) key k true _)).trans (l2Inval_calm _ (some c) key _)).trans ?_
          refine calmAt.trans ?_ (dirSet_calm _ _ _ fun h => absurd h hk)
          refine calmAt.trans ?_ (l2Set_calm _ fun h _ => absurd h hlk)
          exact .of rfl fun h => h.mono (fun _ hx _ _ => (List.mem_filter.1 hx).1) (fun y hy hk _ => ⟨y, hy, hk, rfl⟩)
            fun y hy hk _ => ⟨y, hy, hk, rfl⟩
        · refine (((sendPkt_calm c key k s).trans (trackRegion_calm (c / 8) key k false _)).trans (homeWrite_calm (some c) l.data l.marks hk)).trans ?_
          have h2 := fun u : State => (calmAt.same rfl rfl rfl rfl : calmAt k u { u with fresh := (sendPkt c key s).fresh + 1 }).trans
            (l2Set_calm ({ l with marks := 0, amarks := false, writers := [] } : L2Line) fun h _ => absurd h hlk)
          split
          · exact h2 _
          · exact (h2 _).trans (dirSet_calm _ _ _ fun h => absurd h hk)

theorem l2Evict_cache (c : Nat) (s : State) : cacheOnly s (l2Evict c s) := by
  unfold l2Evict
  dsimp only
  split
  · exact .refl s
  · split
    · exact (l2Push_cache _ _ _).trans (l2Forget_cache _ _ _)
    · exact .refl s
theorem l2Evict_calm (c k : Nat) (s : State) : calmAt k s (l2Evict c s) := by
  unfold l2Evict
  dsimp only
  split
  · exact .refl k s
  · split
    · exact (l2Push_calm _ _ _ _).trans (l2Forget_calm _ _ _ _)
    · exact .refl k s

/-! ## Filling -/

theorem l2Fill_cache (s : State) (lct : Word) (c key : Nat) (cls : Option (Fin 8)) : cacheOnly s (l2Fill s lct c key cls) := by
  unfold l2Fill l2FillOf
  extract_lets old0 hit s1 old marks od am wr d st s2 s3 s4
  have h1 : cacheOnly s s1 := (trackRegion_cache _ _ _ _).trans (sendPktOf_cache _ _ _ _)
  have h4 : cacheOnly s1 s4 := by
    simp only [s4]
    repeat' split
    all_goals exact ⟨_, _, _, _, _, _, _, _, _, _, _, _, _, _, rfl⟩
  split
  · exact .refl s
  · split
    · exact h1
    · exact (h1.trans h4).trans (l2Evict_cache _ _)

/-- An owner shared by a read stays out of a line that has none (R190). -/
theorem shareOut_calm (s : State) (key c k : Nat) : calmAt k s { s with dir := s.dir.map fun x =>
    if x.key == key && x.cluster != c then
      { x with st := match x.st with
        | .M => .O
        | .E => .S
        | y => y }
    else x } := by
  refine .of rfl fun h => ⟨dirOwner_none.2 fun y hy hk => ?_, h.2⟩
  obtain ⟨x, hx, rfl⟩ := List.mem_map.1 hy
  split at hk
  · have := dirOwner_none.1 h.1 x hx hk
    rename_i hc
    simp only [hc, if_true]
    revert this
    cases x.st <;> simp
  · have := dirOwner_none.1 h.1 x hx hk
    rename_i hc
    rw [if_neg hc]
    exact this

theorem l2Fill_calm (s : State) (lct : Word) (c key : Nat) (cls : Option (Fin 8)) (k : Nat) :
    calmAt k s (l2Fill s lct c key cls) := by
  unfold l2Fill l2FillOf
  extract_lets old0 hit s1 old marks od am wr d st s2 s3 s4
  have h1 : calmAt k s s1 := (trackRegion_calm _ _ _ _ _).trans (sendPktOf_calm _ _ _ _ _)
  have h2 : calmAt k s1 s2 := shareOut_calm s1 key c k
  have h3 : calmAt k s2 s3 := by
    refine l2Set_calm _ fun hk hm => ?_
    cases ho : old with
    | none => simp only [marks, ho] at hm; exact absurd rfl hm
    | some l =>
      have := l2Find_some ho
      exact ⟨l, this.1, this.2.2.trans hk, by simp only [marks, ho]⟩
  have hst : st ≠ .M ∧ st ≠ .O := by
    simp only [st]
    split <;> exact ⟨nofun, nofun⟩
  have h4 : calmAt k s3 s4 := by
    simp only [s4]
    split
    · exact .refl k _
    · split
      · exact .refl k _
      · exact dirSet_calm _ _ _ fun _ => hst
  split
  · exact .refl k s
  · split
    · exact h1
    · exact ((h1.trans h2).trans (h3.trans h4)).trans (l2Evict_calm _ _ _)

theorem l2Mark_cache (s : State) (c key : Nat) (d : BitVec 512) (m : BitVec 64) (atom : Bool) :
    cacheOnly s (l2Mark s c key d m atom) := by
  unfold l2Mark
  split
  · exact .refl s
  · have h : cacheOnly s (if dirOwner s key == some c then flushOwner s key else s) := by
      split
      · exact flushOwner_cache _ _
      · exact .refl s
    refine cacheOnly.trans ?_ (l2Evict_cache _ _)
    refine h.trans ?_
    generalize (if dirOwner s key == some c then flushOwner s key else s) = s0
    cases l2Find s0 c key <;> exact ⟨_, _, _, _, _, _, _, _, _, _, _, _, _, _, rfl⟩
/-- A write into the overlay disturbs its own line alone, and none when it carries no byte. -/
theorem l2Mark_calm {s : State} {k : Nat} (c key : Nat) (d : BitVec 512) (m : BitVec 64) (atom : Bool)
    (h : key = k → m ≠ 0 → ¬ calmKey s k) : calmAt k s (l2Mark s c key d m atom) := by
  unfold l2Mark
  split
  · exact .refl k s
  · rename_i hm
    have hm : m ≠ 0 := by simpa using hm
    have h0 : calmAt k s (if dirOwner s key == some c then flushOwner s key else s) := by
      split
      · exact flushOwner_calm _ _ _
      · exact .refl k s
    by_cases hk : key = k
    · refine .absurd (fun w => ?_) (h hk hm)
      refine (l2Evict_calm _ 0 _ ?_).1
      have := (h0 w).1
      revert this
      generalize (if dirOwner s key == some c then flushOwner s key else s) = s0
      cases l2Find s0 c key <;> exact id
    · refine calmAt.trans (h0.trans ?_) (l2Evict_calm _ _ _)
      generalize (if dirOwner s key == some c then flushOwner s key else s) = s0
      cases hl : l2Find s0 c key with
      | some l => exact l2Set_calm _ fun e _ => absurd ((l2Find_some hl).2.2.symm.trans e) hk
      | none => exact l2Set_calm _ fun e _ => absurd e hk

/-! ## A core's lines -/

theorem writeBack_cache (s : State) (key : Nat) : cacheOnly s (writeBack s key) := by
  unfold writeBack
  split
  · exact .refl s
  · exact (l2Mark_cache _ _ _ _ _ _).trans ⟨_, _, _, _, _, _, _, _, _, _, _, _, _, _, rfl⟩
theorem writeBack_calm (s : State) (key k : Nat) : calmAt k s (writeBack s key) := by
  unfold writeBack
  split
  · exact .refl k s
  · rename_i l hl
    have hl := lineFind_some hl
    refine (l2Mark_calm _ key _ _ _ fun e hm c => hm (c.2.2 l hl.1 (hl.2.trans e))).trans (.of rfl fun h => ?_)
    refine h.mono (fun _ hx _ _ => hx) (fun y hy hk _ => ⟨y, hy, hk, rfl⟩) fun y hy hk hd => ?_
    rcases List.mem_cons.1 hy with rfl | hy
    · exact absurd rfl hd
    · exact ⟨y, (List.mem_filter.1 hy).1, hk, rfl⟩
theorem l1dGive_cache (s : State) : cacheOnly s (l1dGive s) := by
  unfold l1dGive
  dsimp only
  split
  · exact .refl s
  · split
    · exact (writeBack_cache _ _).trans ⟨_, _, _, _, _, _, _, _, _, _, _, _, _, _, rfl⟩
    · exact .refl s
theorem l1dGive_calm (s : State) (k : Nat) : calmAt k s (l1dGive s) := by
  unfold l1dGive
  dsimp only
  split
  · exact .refl k s
  · split
    · refine (writeBack_calm _ _ _).trans (.of rfl fun h => h.mono (fun _ hx _ _ => hx) (fun y hy hk _ => ⟨y, hy, hk, rfl⟩)
        fun y hy hk _ => ⟨y, (List.mem_filter.1 hy).1, hk, rfl⟩)
    · exact .refl k s
theorem l1dEvict_cache (s : State) : cacheOnly s (l1dEvict s) :=
  (((l1dGive_cache _).trans (l1dGive_cache _)).trans (l1dGive_cache _)).trans (l1dGive_cache _)
theorem l1dEvict_calm (s : State) (k : Nat) : calmAt k s (l1dEvict s) :=
  (((l1dGive_calm _ _).trans (l1dGive_calm _ _)).trans (l1dGive_calm _ _)).trans (l1dGive_calm _ _)

/-! ## Reads -/

theorem readsOnly.of {s t : State} (h : cacheOnly s t) (c : ∀ k, calmAt k s t) : readsOnly s t := ⟨h, calm_iff.2 c⟩
theorem readsOnly.refl (s : State) : readsOnly s s := .of (.refl s) fun k => .refl k s
theorem readsOnly.trans {s t u : State} (h : readsOnly s t) (k : readsOnly t u) : readsOnly s u :=
  .of (cacheOnly.trans h.1 k.1) fun i => (calm_iff.1 h.2 i).trans (calm_iff.1 k.2 i)

theorem readsOnly.plain {s t : State} (h : readsOnly s t) (hs : plain s) : plain t := by
  obtain ⟨⟨_, _, _, _, _, _, _, _, _, _, _, _, _, _, rfl⟩, -⟩ := h
  exact hs

theorem l2Fill_reads (s : State) (lct : Word) (c key : Nat) (cls : Option (Fin 8)) : readsOnly s (l2Fill s lct c key cls) :=
  .of (l2Fill_cache _ _ _ _ _) fun k => l2Fill_calm _ _ _ _ _ k

theorem setLine_cache (s : State) (l : Line) : cacheOnly s { s with core := lineSet s.core l } :=
  ⟨_, _, _, _, _, _, _, _, _, _, _, _, _, _, rfl⟩
theorem setLine_calm {s : State} {k : Nat} (l : Line)
    (h : l.key = k → l.dirty ≠ 0 → ∃ m ∈ s.core.lines, m.key = k ∧ m.dirty = l.dirty) :
    calmAt k s { s with core := lineSet s.core l } := by
  refine .of rfl fun hc => hc.mono (fun _ hx _ _ => hx) (fun y hy hk _ => ⟨y, hy, hk, rfl⟩) fun y hy hk hd => ?_
  rcases List.mem_cons.1 hy with rfl | hy
  · exact h hk hd
  · exact ⟨y, (List.mem_filter.1 hy).1, hk, rfl⟩

theorem fillLine_reads (s : State) (key : Nat) (cls : Option (Fin 8)) : readsOnly s (fillLine s key cls) := by
  have h := l2Fill_reads s s.core.lct (clusterOf s.core.id) key cls
  unfold fillLine
  extract_lets cl s1 d
  split
  · exact h
  · refine h.trans (.of ((setLine_cache s1 _).trans (l1dEvict_cache _)) fun k => ?_)
    refine (setLine_calm _ fun hk hd => ?_).trans (l1dEvict_calm _ k)
    revert hd
    cases hf : lineFind s1.core key with
    | none => exact fun hd => absurd rfl hd
    | some l =>
      have := lineFind_some hf
      exact fun _ => ⟨l, this.1, this.2.trans hk, rfl⟩

theorem spadReadAs_reads (l : Option (Fin 8)) (s : State) (off : Nat) : readsOnly s (spadReadAs l s off).2 := by
  unfold spadReadAs
  split
  · exact .refl s
  · extract_lets a
    split
    · exact .refl s
    · exact fillLine_reads s _ _
theorem spadRead_reads (s : State) (off : Nat) : readsOnly s (spadRead s off).2 := spadReadAs_reads none s off

theorem spadReadAsN_reads (l : Option (Fin 8)) (s : State) (off n : Nat) : readsOnly s (spadReadAsN l s off n).2 := by
  induction n generalizing s off with
  | zero => exact .refl s
  | succ n ih => exact (spadReadAs_reads l s off).trans (ih _ _)
theorem spadReadN_reads (s : State) (off n : Nat) : readsOnly s (spadReadN s off n).2 := spadReadAsN_reads none s off n

theorem l2FillAll_reads (c : Nat) (cls : Option (Fin 8)) (l : List Nat) (s : State) :
    readsOnly s (l.foldl (fun s k => l2Fill s s.core.lct c k cls) s) := by
  induction l generalizing s with
  | nil => exact .refl s
  | cons k r ih => exact (l2Fill_reads s _ c k cls).trans (ih _)

theorem fetchElem_reads (s : State) (d : QDesc) (j : Nat) : readsOnly s (fetchElem s d j).2 := by
  unfold fetchElem
  dsimp only
  split
  · split
    · exact .refl s
    · split
      · exact .refl s
      · exact l2FillAll_reads _ _ _ s
  · split
    · exact .refl s
    · exact spadReadAsN_reads _ s _ _

theorem setQ_reads (k : Fin 8) (q : QState) (s : State) : readsOnly s (setQ k q s) :=
  .of ⟨_, _, _, _, _, _, _, _, _, _, _, _, _, _, rfl⟩ fun _ => .same rfl rfl rfl rfl
theorem hotBytes_reads (b : Fin 16) (n : Nat) (s : State) : readsOnly s (hotBytes b n s) :=
  .of ⟨_, _, _, _, _, _, _, _, _, _, _, _, _, _, rfl⟩ fun _ => .same rfl rfl rfl rfl

theorem streamFill_reads (k : Fin 8) (s : State) : readsOnly s (streamFill k s) :=
  ((fetchElem_reads s _ _).trans (setQ_reads _ _ _)).trans (hotBytes_reads _ _ _)

theorem popStream_reads (k : Fin 8) (s : State) : readsOnly s (popStream k s).2 := by
  have h : readsOnly s (if (getQ s k).inq.isEmpty then streamFill k s else s) := by
    split
    · exact streamFill_reads k s
    · exact .refl s
  unfold popStream
  simp only
  split
  · exact h
  · exact h.trans (setQ_reads _ _ _)

theorem readV_reads (s : State) (a : Src 128) : readsOnly s (readV s a).2 := by
  cases a with
  | stream k => exact popStream_reads k s
  | _ => exact .refl s

theorem after1_reads (s : State) (a : Src 128) : readsOnly s (after1 s a) := readV_reads s a
theorem after2_reads (s : State) (a b : Src 128) : readsOnly s (after2 s a b) := (after1_reads s a).trans (after1_reads _ b)
theorem after3_reads (s : State) (a b c : Src 128) : readsOnly s (after3 s a b c) := (after2_reads s a b).trans (after1_reads _ c)

theorem plain_after1 {s : State} (a : Src 128) (h : plain s) : plain (after1 s a) := (after1_reads s a).plain h
theorem plain_after2 {s : State} (a b : Src 128) (h : plain s) : plain (after2 s a b) := (after2_reads s a b).plain h
theorem plain_after3 {s : State} (a b c : Src 128) (h : plain s) : plain (after3 s a b c) := (after3_reads s a b c).plain h

/-! ## Vector operations -/

theorem vec1_gives {s : State} (h : plain s) (lat : Nat) (g : Guard) (d : Dst 128) (a : Src 128)
    (f : BitVec 32 → Vec → Vec × BitVec 6) :
    vec1 lat g d a f s = .next (queued
      (resultV (after1 s a) lat d (guardBits s g) (f (guardBits s g) (src1 s a)).1 (f (guardBits s g) (src1 s a)).2)
      (afterPush d (guardBits s g) (after1 s a))) := by
  exact congrArg Host.Outcome.next (emitV_plain (plain_after1 a h) lat d _ _ _)

theorem vec2_gives {s : State} (h : plain s) (lat : Nat) (g : Guard) (d : Dst 128) (a b : Src 128)
    (f : BitVec 32 → Vec → Vec → Vec × BitVec 6) :
    vec2 lat g d a b f s = .next (queued
      (resultV (after2 s a b) lat d (guardBits s g) (f (guardBits s g) (src1 s a) (src2 s a b)).1
        (f (guardBits s g) (src1 s a) (src2 s a b)).2)
      (afterPush d (guardBits s g) (after2 s a b))) := by
  exact congrArg Host.Outcome.next (emitV_plain (plain_after2 a b h) lat d _ _ _)

theorem vec3_gives {s : State} (h : plain s) (lat : Nat) (g : Guard) (d : Dst 128) (a b c : Src 128)
    (f : BitVec 32 → Vec → Vec → Vec → Vec × BitVec 6) :
    vec3 lat g d a b c f s = .next (queued
      (resultV (after3 s a b c) lat d (guardBits s g) (f (guardBits s g) (src1 s a) (src2 s a b) (src3 s a b c)).1
        (f (guardBits s g) (src1 s a) (src2 s a b) (src3 s a b c)).2)
      (afterPush d (guardBits s g) (after3 s a b c))) := by
  exact congrArg Host.Outcome.next (emitV_plain (plain_after3 a b c h) lat d _ _ _)

end Sys2Proof.Machine
end

