-- ==== Sys2Proof/Machine/Load.lean ====
section
/-! DEFINITION. What the loader ikld decides of a code object: its header and images, the image it chooses, and the fields it
patches (R123 to R125, R443 to R450). The loader is a program of the host: `step` runs none of this, and the image it hands
to the dispatcher stands in `State.images`. -/

namespace Sys2Proof.Machine

/-! ## The object (R443 to R446) -/

/-- An entry of the image table (R444). -/
structure ImageEnt where
  igen : Byte
  ilat : Byte
  ifeat : Word
  ioff : Nat
  ilen : Nat
deriving DecidableEq, Repr

def objImages (b : List Byte) : Nat := field b 4 4
/-- Image entry `i`, at 0x40 + 32i. -/
def imageEnt (b : List Byte) (i : Nat) : ImageEnt :=
  let o := 0x40 + 32 * i
  ⟨BitVec.ofNat 8 (field b o 1), BitVec.ofNat 8 (field b (o + 1) 1), BitVec.ofNat 64 (field b (o + 8) 8),
    field b (o + 0x10) 8, field b (o + 0x18) 8⟩
def imageEnts (b : List Byte) : List ImageEnt := (List.range (objImages b)).map (imageEnt b)
/-- An image is well formed only as generation 7 with latency class 4, or 9 with 6 (R444). -/
def imageFormed (e : ImageEnt) : Bool := (e.igen == 7 && e.ilat == 4) || (e.igen == 9 && e.ilat == 6)
/-- A field of the object that a refusal names: of the header, of an image's entry, or the WIF section (R445). -/
inductive ObjField where
  | over
  | nimg
  | headerReserved
  | entryReserved (i : Nat)
  | entryForm (i : Nat)
  | entryExtent (i : Nat)
  | wifExtent
deriving DecidableEq, Repr
/-- The first field of an image's entry that is wrong, in the order of the entry. -/
def entryField (b : List Byte) (i : Nat) : Option ObjField :=
  let e := imageEnt b i
  if !imageFormed e then some (.entryForm i)
  else if !dZero b (0x42 + 32 * i) 6 then some (.entryReserved i)
  else if b.length < e.ioff + e.ilen then some (.entryExtent i)
  else none
/-- The first field for which the object is refused, fields taken in the order of the object: its version, a WIF section that
reaches past the end, a reserved field, an image that is not well formed or reaches past the end (R443, R445). An object
without a WIF section (`WOFF` 0) has none to reach anywhere. -/
def objRefused (b : List Byte) : Option ObjField :=
  if field b 0 4 != 1 then some .over
  else if 255 < objImages b then some .nimg
  else if dW b 8 != 0 && b.length < dW b 8 + dW b 0x10 then some .wifExtent
  else if !dZero b 0x18 40 then some .headerReserved
  else (List.range (objImages b)).findSome? (entryField b)

/-- The features an image requires that %feat lacks. -/
def missingOf (feat : BitVec 6) (e : ImageEnt) : Word := e.ifeat &&& ~~~(feat.setWidth 64)
def eligible (feat : BitVec 6) (e : ImageEnt) : Bool := missingOf feat e == 0
/-- What the loader does with an object it accepts (R446). -/
inductive Choice where
  | image (i : Nat)
  | translateWif
  /-- every image, by its index, with its missing feature bits -/
  | refuse (missing : List (Nat × Word))
deriving DecidableEq, Repr

def onesOf (w : Word) : Nat := ((List.range 64).filter fun i => w.getLsbD i).length
/-- The eligible image with the most required features, of the lowest index among equals; images of generation 9 first. -/
def chooseImage (feat : BitVec 6) (woff : Nat) (es : List ImageEnt) : Choice :=
  let ok := (List.range es.length).filterMap fun i => (es[i]?).bind fun e => if eligible feat e then some (i, e) else none
  let e9 := ok.filter fun x => x.2.igen == 9
  let pool := if e9.isEmpty then ok else e9
  match pool with
  | [] => if woff != 0 then .translateWif
    else .refuse ((List.range es.length).filterMap fun i => (es[i]?).map fun e => (i, missingOf feat e))
  | x :: r => .image (r.foldl (fun m y => if onesOf m.2.ifeat < onesOf y.2.ifeat then y else m) x).1
/-- Objects linked into one task have one latency class; the two that differ, by their places, where some do (R450). -/
def classClash : List ImageEnt → Option (Nat × Nat)
  | [] => none
  | e :: r => ((List.range r.length).find? fun i => (r[i]?).any fun f => f.ilat != e.ilat).map fun i => (0, i + 1)

/-! ## Relocations (R123 to R125, R448, R449) -/

inductive RelT where
  | abs32
  | lo32
  | hi32
  | pair64
  | pcb32
  | imm23
  | off16
deriving DecidableEq, Repr

def relT : Nat → Option RelT
  | 1 => some .abs32
  | 2 => some .lo32
  | 3 => some .hi32
  | 4 => some .pair64
  | 5 => some .pcb32
  | 6 => some .imm23
  | 7 => some .off16
  | _ => none

/-- A relocation record of 24 bytes (R448). -/
structure RelRec where
  off : Nat
  sym : Nat
  typ : Nat
  slot : Nat
  sec : Nat
  add : Int
  /-- the reserved byte, which must be zero -/
  rsv : Nat
deriving DecidableEq, Repr
def relRec (b : List Byte) : RelRec :=
  ⟨field b 0 8, field b 8 4, field b 12 1, field b 13 1, field b 14 1, (BitVec.ofNat 64 (field b 16 8)).toInt, field b 15 1⟩
/-- The `n` records of an image, which follow its symbol table; `at_` is where that ends (R444). -/
def relRecs (b : List Byte) (at_ n : Nat) : List RelRec :=
  (List.range n).map fun i => relRec ((b.drop (at_ + 24 * i)).take 24)

/-- The form of an opcode's fields, for the minors that are assigned (R101, R105, R106, R109). -/
def minorOf (w : SlotWord) : Nat := ((fOpc w).extractLsb' 0 4).toNat
def isFormL (w : SlotWord) : Bool := opcMajor w == 0x0C && minorOf w < 2
def isFormB (w : SlotWord) : Bool :=
  (opcMajor w == 0 && minorOf w < 2) || (opcMajor w == 1 && minorOf w < 3) || (opcMajor w == 2 && minorOf w == 0)
def isFormI (w : SlotWord) : Bool :=
  (opcMajor w == 3 && minorOf w < 2) || (opcMajor w == 4 && minorOf w < 2) || (opcMajor w == 0x0B && minorOf w == 0)
    || (opcMajor w == 0x0E && (decCC (minorOf w)).isSome)
/-- TRAP and BKPT take `IMM23` unsigned (R243). -/
def imm23Unsigned (w : SlotWord) : Bool := opcMajor w == 3
/-- The byte scale of `OFF16` (R109). -/
def offScale (w : SlotWord) : Option Nat :=
  let n := minorOf w
  let size (k : Nat) : Option Nat := if k < 4 then some (2 ^ k) else if k = 4 then some 128 else none
  match opcMajor w with
  | 0x18 | 0x1C | 0x1D | 0x1E | 0x1F => size (n % 8)
  | 0x19 => size n
  | 0x20 => if n = 2 then some 64 else none
  | 0x21 => if n = 0 then some 64 else none
  | 0x22 | 0x24 => if n < 11 then some 4 else none
  | 0x23 | 0x25 => if n < 10 then some 8 else none
  | 0x26 => if n < 3 then some 128 else if n = 5 ∨ n = 6 then some 8 else if n = 7 ∨ n = 15 then some 64 else none
  | 0x27 => if n < 8 then some 64 else none
  | _ => none

def inRange (lo hi v : Int) : Bool := decide (lo ≤ v ∧ v ≤ hi)
/-- The field of a slot word that is `n` bits wide at bit `lo`, replaced. -/
def patchField (w : SlotWord) (lo n : Nat) (v : Int) : SlotWord :=
  let m : SlotWord := (BitVec.allOnes n).setWidth 56 <<< lo
  (w &&& ~~~m) ||| ((BitVec.ofInt n v).setWidth 56 <<< lo)
/-- One slot word patched, or none where the value is outside the accepted range, no multiple, or the slot has another form;
`v` is S + A, `p` the bundle's address. A PAIR64 record is two words' work (`patchPair`). -/
def patchSlot (t : RelT) (v p : Int) (w : SlotWord) : Option SlotWord :=
  match t with
  | .abs32 => if isFormL w && (if minorOf w = 0 then inRange (-2 ^ 31) (2 ^ 31 - 1) v else inRange 0 (2 ^ 32 - 1) v)
      then some (patchField w 0 32 v) else none
  | .lo32 => if isFormL w && inRange (-2 ^ 63) (2 ^ 64 - 1) v then some (patchField w 0 32 v) else none
  | .hi32 => if isFormL w && inRange (-2 ^ 63) (2 ^ 64 - 1) v then some (patchField w 0 32 (v / 2 ^ 32)) else none
  | .pcb32 => if isFormB w && (v - p) % 64 == 0 && inRange (-2 ^ 31) (2 ^ 31 - 1) ((v - p) / 64)
      then some (patchField w 0 32 ((v - p) / 64)) else none
  | .imm23 => if isFormI w && (if imm23Unsigned w then inRange 0 8388607 v else inRange (-4194304) 4194303 v)
      then some (patchField w 0 23 v) else none
  | .off16 => (offScale w).bind fun z => if v % z == 0 && inRange (-32768) 32767 (v / z)
      then some (patchField w 10 16 (v / z)) else none
  | .pair64 => none
/-- Both words of a paired constant: the MOVI of the slot named and a MOVHI of the same destination in the other (R125). -/
def patchPair (v : Int) (lo hi : SlotWord) : Option (SlotWord × SlotWord) :=
  if isFormL lo && minorOf lo == 0 && isFormL hi && minorOf hi == 1 && fDst lo == fDst hi && inRange (-2 ^ 63) (2 ^ 64 - 1) v
  then some (patchField lo 0 32 v, patchField hi 0 32 (v / 2 ^ 32)) else none
/-- The 32 bits a data word receives: it takes ABS32, LO32 or HI32 only (R125). -/
def patchWord (t : RelT) (v : Int) : Option (BitVec 32) :=
  match t with
  | .abs32 => if inRange (-2 ^ 31) (2 ^ 32 - 1) v then some (BitVec.ofInt 32 v) else none
  | .lo32 => if inRange (-2 ^ 63) (2 ^ 64 - 1) v then some (BitVec.ofInt 32 v) else none
  | .hi32 => if inRange (-2 ^ 63) (2 ^ 64 - 1) v then some (BitVec.ofInt 32 (v / 2 ^ 32)) else none
  | _ => none

/-- A section: its address and bytes. -/
structure Sect where
  addr : Nat
  bytes : List Byte
deriving DecidableEq, Repr
/-- A symbol: its name, whether it is global or external, and its value once it is resolved. -/
structure Sym where
  name : List Byte
  isGlobal : Bool
  value : Option Int
deriving DecidableEq, Repr
/-- An entry of the entry table: its start, and the address past its last bundle (R85). -/
structure TaskEntry where
  first : Word
  past : Word
deriving DecidableEq, Repr
/-- An address lies in an entry (R85). -/
def TaskEntry.covers (e : TaskEntry) (a : Word) : Bool := e.first.toNat ≤ a.toNat && a.toNat < e.past.toNat
/-- What an image holds (R90): its sections, its symbols, its relocations, its latency class and required features, its entry
table and its region table. -/
structure ImageBody where
  secs : Vector Sect 3
  syms : List Sym
  recs : List RelRec
  lat : Byte
  feat : Word
  entries : List TaskEntry
  regions : List (Word × Word)
deriving DecidableEq, Repr
/-- The fields a record patches, each with its place: a slot of a bundle, or a data word (slot 0xFF). A PAIR64 that names no
scalar slot patches none. -/
def relFields (r : RelRec) : List (Nat × Nat × Nat) :=
  if r.typ != 4 then [(r.sec, r.off, r.slot)]
  else if r.slot = 1 ∨ r.slot = 2 then [(r.sec, r.off, r.slot), (r.sec, r.off, 3 - r.slot)]
  else []
/-- Two records that patch one field are refused, and so is a LO32 or HI32 in a pair (R449). -/
def relClash (rs : List RelRec) (i : Nat) : Bool :=
  match rs[i]? with
  | none => false
  | some r => (List.range rs.length).any fun j => j != i && (match rs[j]? with
    | some q => (relFields r).any fun x => (relFields q).contains x
    | none => false)
def putBytes (l : List Byte) (o : Nat) (b : List Byte) : List Byte := l.take o ++ b ++ l.drop (o + b.length)
/-- Slot `k` of the bundle at offset `o` of a section, where there is one that is occupied. -/
def slotAt (c : Sect) (o k : Nat) : Option SlotWord :=
  if o % 64 == 0 && o + 64 ≤ c.bytes.length && k < 8 then
    let b : BundleBits := ofBytes 512 ((c.bytes.drop o).take 64)
    if (hOcc (headerOf b)).getLsbD k then some (slotOf b k) else none
  else none
/-- The section with one slot's word replaced: slot `k` is the 7 bytes at 8 + 7k of its bundle. -/
def setSlot (c : Sect) (o k : Nat) (w : SlotWord) : Sect := { c with bytes := putBytes c.bytes (o + 8 + 7 * k) (toBytes 7 w) }
/-- One record applied, or none where it is refused. -/
def relApply (c : Sect) (s : Option Int) (r : RelRec) : Option Sect :=
  (relT r.typ).bind fun t => s.bind fun s =>
    let v := s + r.add
    if r.slot = 0xFF then
      if r.off + 4 ≤ c.bytes.length then
        (patchWord t v).map fun w => { c with bytes := putBytes c.bytes r.off (toBytes 4 w) }
      else none
    else if t = .pair64 then
      if r.slot = 1 ∨ r.slot = 2 then
        (slotAt c r.off r.slot).bind fun lo => (slotAt c r.off (3 - r.slot)).bind fun hi =>
          (patchPair v lo hi).map fun x => setSlot (setSlot c r.off r.slot x.1) r.off (3 - r.slot) x.2
      else none
    else (slotAt c r.off r.slot).bind fun w =>
      (patchSlot t v ((c.addr + r.off : Nat) : Int) w).map (setSlot c r.off r.slot)
/-- A record that is refused: section, offset, slot, type and symbol stand in the record; the computed value is S + A, less P
for PCB32, before any division, and absent for a symbol that is not resolved (R123, R124). -/
structure RelRefusal where
  idx : Nat
  named : RelRec
  value : Option Int
deriving DecidableEq, Repr
/-- The value a record computes, exactly. -/
def relValue (c : Sect) (s : Option Int) (r : RelRec) : Option Int :=
  s.map fun s => if relT r.typ = some .pcb32 then s + r.add - (c.addr + r.off : Nat) else s + r.add
/-- The symbol a record names, when it is resolved. -/
def relSym (m : ImageBody) (r : RelRec) : Option Int := (m.syms[r.sym]?).bind (·.value)
def relBadRec (m : ImageBody) (i : Nat) (r : RelRec) : Bool :=
  r.rsv != 0 || 3 ≤ r.sec || relClash m.recs i || (relApply (m.secs.get (Fin.ofNat 3 r.sec)) (relSym m r) r).isNone
/-- The chosen image's records: every one that is refused, in order, and nothing loaded; or the image patched (R449). -/
def relocate (m : ImageBody) : Except (List RelRefusal) ImageBody :=
  let bad := (List.range m.recs.length).filterMap fun i => (m.recs[i]?).bind fun r =>
    if relBadRec m i r then some ⟨i, r, relValue (m.secs.get (Fin.ofNat 3 r.sec)) (relSym m r) r⟩ else none
  if bad.isEmpty then
    .ok { m with secs := m.recs.foldl (fun v r => match relApply (v.get (Fin.ofNat 3 r.sec)) (relSym m r) r with
      | some c => v.set (r.sec % 3) c (Nat.mod_lt _ (by decide))
      | none => v) m.secs }
  else .error bad

end Sys2Proof.Machine
end

