-- ==== Sys2Proof/Tests/Slice0.lean ====
section
/-! SUPPORT. Tests by evaluation: ill-formed terms, words of the manual's encodings, single steps on small states with expected
values from the manual's rules and examples, and for every statement states and operands that meet its hypotheses. -/

namespace Sys2Proof.Machine.Tests

open Sys2Proof Sys2Proof.Machine

set_option Elab.async false

/-! ## Helpers -/

/-- The reset state: one core, nothing in memory, no region. -/
def s0 : State := State.reset
def withS (l : List (Fin 64 × Word)) (s : State) : State := l.foldl (fun s x => s.mapA fun a => setS a x.1 x.2) s
def withV (l : List (Fin 128 × Vec)) (s : State) : State := l.foldl (fun s x => s.mapA fun a => { a with v := a.v.set x.1.val x.2 }) s
def withP (l : List (Fin 16 × Pred)) (s : State) : State := l.foldl (fun s x => s.mapA fun a => { a with p := a.p.set x.1.val x.2 }) s
/-- An open region. -/
def inRgn (s : State) : State := s.mapRgn fun r => { r with st := .opened, shadow := some s.core.a }
/-- All of the package's memory at its own address, with every permission. -/
def mapped (s : State) : State := s.mapCore fun c => { c with ktt := [bareEntry] }
def bytes (l : List (Nat × Byte)) (s : State) : State := { s with spad := l.foldl (fun m x => Mem.put m x.1 x.2) s.spad }
/-- A test of the next state. -/
def after (o : Host.Outcome State Fault Refusal) (p : State → Bool) : Bool := match o with
  | .next t => p t
  | _ => false
/-- The result an operation put in flight. -/
def flight (i : Instr) (s : State) : Option Flight := match exec i s with
  | .next t => t.core.flights.getLast?
  | _ => none
def value (i : Instr) (s : State) : Nat := ((flight i s).map (·.val.toNat)).getD 0
def flags (i : Instr) (s : State) : Nat := ((flight i s).map (·.flags.toNat)).getD 0
def sc2 (f : S2 → Instr) (a b : Word) : Nat := value (f ⟨.always, .reg 3, .reg 1, .reg 2⟩) (withS [(1, a), (2, b)] s0)
def sc1 (f : S1 → Instr) (a : Word) : Nat := value (f ⟨.always, .reg 3, .reg 1⟩) (withS [(1, a)] s0)
/-- A vector from its lowest elements of `w` bits. -/
def mk (w : Nat) (l : List Nat) : Vec := BitVec.ofNat 1024 (l.foldr (fun x acc => x + acc * 2 ^ w) 0)
def ve (w : Nat) (i : Instr) (s : State) (e : Nat) : Nat := (elem w (((flight i s).map (·.val)).getD 0) e).toNat
def vs2 (a b : Vec) : State := withV [(1, a), (2, b)] s0
def x2 (ty : ITy) : V2 := ⟨.always, ty, .reg 3, .reg 1, .reg 2⟩
def x1 (ty : ITy) : V1 := ⟨.always, ty, .reg 3, .reg 1⟩
def f2 (ty : FTy) (rm : Rnd) : F2 := ⟨.always, ty, rm, .reg 3, .reg 1, .reg 2⟩
def f1 (ty : FTy) : F1 := ⟨.always, ty, .rne, .reg 3, .reg 1⟩
def causeOf (i : Instr) (s : State) : Nat × Nat := match exec i s with
  | .next t => (t.core.sp.cause.toNat, t.core.sp.fval.toNat)
  | _ => (0, 0)

/-! ## Ill-formed terms -/

theorem test_illformed_links : (Instr.call .always (.stream 0) 0).wellFormed = false ∧
    (Instr.call .always .null 0).wellFormed = false ∧ (Instr.calli .always (.stream 1) (.reg 1)).wellFormed = false ∧
    (Instr.srd .always .null 0 0).wellFormed = false := by decide
theorem test_illformed_control_sources : (Instr.bri .always (.nbr 0)).wellFormed = false ∧
    (Instr.ret .always (.stream 0)).wellFormed = false ∧ (Instr.calli .always (.reg 1) (.nbr 1)).wellFormed = false ∧
    (Instr.gclr (.stream 0)).wellFormed = false ∧ (Instr.tswait (.nbr 2)).wellFormed = false ∧
    (Instr.iflush (.stream 0)).wellFormed = false := by decide
theorem test_illformed_lsetup : (Instr.lsetup 0 1 0).wellFormed = false ∧ (Instr.lsetup 0 1 256).wellFormed = false ∧
    (Instr.lsetup 0 1 1).wellFormed = true ∧ (Instr.lsetup 0 1 255).wellFormed = true := by decide
theorem test_illformed_special_registers : (Instr.srd .always (.reg 1) 0x05 0).wellFormed = false ∧
    (Instr.srd .always (.reg 1) 0x20 15).wellFormed = true ∧ (Instr.srd .always (.reg 1) 0x2A 8).wellFormed = false ∧
    (Instr.swr .always (.reg 1) 0x17 0).wellFormed = false ∧ (Instr.swr .always (.stream 0) 0x10 0).wellFormed = false := by decide
theorem test_illformed_scalar : (Instr.add ⟨.always, .stream 0, .reg 1, .reg 2⟩).wellFormed = false ∧
    (Instr.add ⟨.always, .reg 1, .stream 0, .reg 2⟩).wellFormed = false ∧
    (Instr.add ⟨.always, .reg 1, .reg 2, .stream 0⟩).wellFormed = false ∧
    (Instr.sel ⟨.always, .reg 1, .reg 2, .reg 3⟩ (.stream 0)).wellFormed = false ∧
    (Instr.bfi ⟨.always, .reg 1, .reg 2, .reg 3, .stream 0⟩).wellFormed = false ∧
    (Instr.mov ⟨.always, .reg 1, .stream 0⟩).wellFormed = false ∧ (Instr.movi .always (.stream 0) 0).wellFormed = false := by decide
theorem test_illformed_predicates : (Instr.cmp .eq .always (.stream 0) (.reg 1) (.reg 2)).wellFormed = false ∧
    (Instr.cmpImm .eq .always (.reg 1) (.stream 0) 0).wellFormed = false ∧
    (Instr.pand ⟨.always, .reg 1, .reg 2, .stream 0⟩).wellFormed = false ∧
    (Instr.pnot ⟨.always, .stream 0, .reg 2⟩).wellFormed = false ∧
    (Instr.pfroms .always (.reg 1) (.stream 0)).wellFormed = false ∧ (Instr.ptos .always (.reg 1) (.stream 0)).wellFormed = false := by
  decide
theorem test_illformed_vector : (Instr.vabs (x1 .n8)).wellFormed = false ∧ (Instr.vneg (x1 .n16)).wellFormed = false ∧
    (Instr.vsra (x2 .n32)).wellFormed = false ∧ (Instr.vsel (x2 .i8) (.stream 0)).wellFormed = false ∧
    (Instr.vcmp .eq .always .i8 (.stream 0) (.reg 1) (.reg 2)).wellFormed = false ∧
    (Instr.vbcast ⟨.always, .i8, .reg 1, .stream 0⟩).wellFormed = false ∧
    (Instr.vextr .always .i8 (.stream 0) (.reg 1) (.reg 2)).wellFormed = false ∧
    (Instr.vins .always .i8 (.reg 1) (.reg 2) (.reg 1) (.stream 0)).wellFormed = false ∧
    (Instr.vslide (x2 .i8) (.stream 0)).wellFormed = false ∧
    (Instr.vred .add .always .i8 (.stream 0) (.reg 1)).wellFormed = false ∧
    (Instr.vscan .xor (x1 .i8)).wellFormed = false := by decide
theorem test_illformed_float : (Instr.vfadd (f2 .f32 .rna)).wellFormed = false ∧ (Instr.vfmin (f2 .f32 .rtz)).wellFormed = false ∧
    (Instr.vfabs ⟨.always, .f32, .rup, .reg 1, .reg 2⟩).wellFormed = false ∧
    (Instr.vfcmp .un .always .f32 (.stream 0) (.reg 1) (.reg 2)).wellFormed = false ∧
    (Instr.vfred .and .always .f32 .rne (.reg 1) (.reg 2)).wellFormed = false ∧
    (Instr.vfred .max .always .f32 .rtz (.reg 1) (.reg 2)).wellFormed = false := by decide
theorem test_illformed_conversion : (Instr.vcvt ⟨.always, .reg 1, .reg 2, .i8, .i8, 0, .rne, false, false⟩).wellFormed = false ∧
    (Instr.vcvt ⟨.always, .reg 1, .reg 2, .i8, .i16, 2, .rne, false, false⟩).wellFormed = false ∧
    (Instr.vcvt ⟨.always, .reg 1, .reg 2, .f16, .i16, 0, .rne, true, false⟩).wellFormed = false ∧
    (Instr.vcvt ⟨.always, .reg 1, .reg 2, .e4m3, .f32, 0, .rne, false, true⟩).wellFormed = false ∧
    (Instr.vquant (.reg 1) (.reg 2) .mx8 true 1 .rne).wellFormed = false ∧ (Instr.vpack (x2 .i8) false).wellFormed = false ∧
    (Instr.vunpack (x1 .n32) false).wellFormed = false := by decide
theorem test_illformed_memory : (Instr.ld ⟨.always, .s .w (.stream 0), ⟨1, 0⟩, 0⟩).wellFormed = false ∧
    (Instr.st .always (.s .w (.stream 0)) ⟨1, 0⟩ 0).wellFormed = false ∧
    (Instr.lds .always .w (.reg 1) (.stream 0) (.reg 1)).wellFormed = false ∧
    (Instr.sts .always .w (.reg 1) (.stream 0) (.reg 1)).wellFormed = false ∧
    (Instr.ldx .always .w (.reg 1) (.stream 0) (.reg 1)).wellFormed = false ∧
    (Instr.stx .always .w (.reg 1) (.reg 1) (.reg 2)).wellFormed = false ∧
    (Instr.ldg ⟨.always, .v .latch, ⟨1, 0⟩, 0, none, 0⟩).wellFormed = false ∧
    (Instr.stg ⟨.always, .s .d (.stream 0), ⟨1, 0⟩, 0, none, 0⟩).wellFormed = false ∧
    (Instr.smap .always (.stream 0) (.reg 1) 0).wellFormed = false ∧ (Instr.sunmap .always (.stream 0)).wellFormed = false ∧
    (Instr.qstat .always (.stream 0) 1).wellFormed = false := by decide
theorem test_illformed_atomics : (Instr.acas ⟨.always, .d, 1, ⟨1, 0⟩, 0⟩).wellFormed = false ∧
    (Instr.afadd ⟨.always, .d, 1, ⟨1, 0⟩, 0⟩).wellFormed = false ∧
    (Instr.atomicOrd .fadd ⟨.always, .d, 1, ⟨1, 0⟩, 0⟩).wellFormed = false ∧
    (Instr.rel ⟨.always, .stream 0, ⟨1, 0⟩, 0⟩).wellFormed = false := by decide
theorem test_illformed_mdrain : (Instr.mdrain .always (.reg 1) 0 .f32 .rtz 0).wellFormed = false ∧
    (Instr.mdrain .always (.reg 1) 0 .bf16 .rna 0).wellFormed = false := by decide

/-! ## Words written out from the manual -/

/-- R231, R234, R233: control words. -/
theorem test_words_control : decodeTableWord 0 0x000000FFFFFFFF = some (.br .always 0xFFFFFFFF#32) ∧
    decodeTableWord 0 0x048000FFFFFFFD = some (.loopx 0 0xFFFFFFFD#32) ∧
    decodeTableWord 0 0x04000E00000003 = some (.lsetup 0 7 3#32) ∧
    decodeTableWord 0 0x08400000000000 = some .commit ∧ decodeTableWord 0 0x08800001000000 = some (.check 2) ∧
    decodeTableWord 0 0x08C00000000000 = some (.abort .always) ∧ decodeTableWord 0 0x09000003000000 = some (.gclr (.reg 6)) := by
  refine ⟨?_, ?_, ?_, ?_, ?_, ?_, ?_⟩ <;> decide +kernel
/-- R102, R106, R260: scalar words. -/
theorem test_words_scalar : decodeTableWord 0 0x2C100402000080 = some (.addi ⟨⟨false, 8⟩, .reg 4, .reg 4⟩ 0x80#23) ∧
    decodeTableWord 0 0x30400700000123 = some (.movhi .always 7 0x123#32) := by
  refine ⟨?_, ?_⟩ <;> decide +kernel
/-- R113, R268, R277: vector words. -/
theorem test_words_vector :
    decodeTableWord 0 0xB8124201A14009 = some (.vfadd ⟨⟨false, 9⟩, .bf16, .rtz, .reg 66, .reg 3, .latch 5⟩) ∧
    decodeTableWord 0 0xC8000801228020 = some (.vcvt ⟨.always, .reg 8, .reg 2, .f32, .bf16, 1, .rne, false, false⟩) := by
  refine ⟨?_, ?_⟩ <;> decide +kernel
/-- R289, R295, R318: memory words. -/
theorem test_words_memory :
    decodeTableWord 0 0x62800708001000 = some (.ldG ⟨.always, .s .w (.reg 7), ⟨2, 4⟩, 0⟩) ∧
    decodeTableWord 0 0x70C00910000100 = some (.ldg ⟨.always, .s .d (.reg 9), ⟨4, 0⟩, 2, none, 0⟩) ∧
    decodeTableWord 0 0x8E400A18000200 = some (.acas ⟨.always, .d, 10, ⟨6, 0⟩, 4⟩) ∧
    decodeTableWord 0 0x98400308000080 = some (.rel ⟨.always, .reg 3, ⟨2, 0⟩, 1⟩) ∧
    decodeTableWord 0 0x9C000018000100 = some (.sscan ⟨.always, ⟨6, 0⟩, 2⟩) := by
  refine ⟨?_, ?_, ?_, ?_, ?_⟩ <;> decide +kernel
/-- R326, R331: a matrix word. -/
theorem test_words_matrix : decodeTableWord 0 0xF0C08000014023 = some (.mdrain .always (.reg 20) 1 .bf16 .rne 3) := by
  decide +kernel
/-- R106, R109: unassigned majors and minors are refused. -/
theorem test_words_refused : decodeTableWord 0 0x18000000000000 = none ∧ decodeTableWord 0 0x40000000000000 = none ∧
    decodeTableWord 0 0x82C00000000000 = none ∧ decodeTableWord 0 0x04000000000000 = none ∧
    decodeTableWord 0 0x20000A04804001 = none := by
  refine ⟨?_, ?_, ?_, ?_, ?_⟩ <;> decide +kernel
/-- The encoder writes the manual's words. -/
theorem test_encode : encode (.vfma ⟨.always, .f32, .rne, .reg 10, .reg 1, .reg 2, .reg 3⟩) = some 0xB8C00A00808060#56 ∧
    encode (.macc .always 1 true (.xf .mx8) none (some (.reg 7))) = some 0xF0408000E00800#56 ∧
    encode (.swr .always (.reg 5) 0x21 0) = some 0x10400002800210#56 := by
  refine ⟨?_, ?_, ?_⟩ <;> decide +kernel

/-! ## Scalar operations -/

/-- R257: sums and differences wrap. -/
theorem test_add_sub_wrap : sc2 .add (-1) 2 = 1 ∧ sc2 .sub 0 1 = 0xFFFFFFFFFFFFFFFF := by decide +kernel
theorem test_logic : sc2 .and 0xC 0xA = 8 ∧ sc2 .or 0xC 0xA = 0xE ∧ sc2 .xor 0xC 0xA = 6 ∧ sc2 .andn 0xC 0xA = 4 ∧
    sc2 .orn 0 0 = 0xFFFFFFFFFFFFFFFF := by decide +kernel
/-- R257: amounts are taken modulo 64. -/
theorem test_shifts : sc2 .shl 3 65 = 6 ∧ sc2 .shr 0x8000000000000000 127 = 1 ∧ sc2 .sra 0x8000000000000000 127 = 0xFFFFFFFFFFFFFFFF ∧
    sc2 .rotl 0x8000000000000001 1 = 3 ∧ sc2 .rotr 3 1 = 0x8000000000000001 := by decide +kernel
theorem test_min_max : sc2 .min (-1) 1 = 0xFFFFFFFFFFFFFFFF ∧ sc2 .max (-1) 1 = 1 ∧ sc2 .minn (-1) 1 = 1 ∧
    sc2 .maxn (-1) 1 = 0xFFFFFFFFFFFFFFFF := by decide +kernel
theorem test_counts : sc1 .clz 1 = 63 ∧ sc1 .clz 0 = 64 ∧ sc1 .ctz 0 = 64 ∧ sc1 .ctz 8 = 3 ∧ sc1 .popc 0xFF01 = 9 ∧
    sc1 .brev 1 = 0x8000000000000000 := by decide +kernel
theorem test_extends : sc1 (.sxt .b) 0x180 = 0xFFFFFFFFFFFFFF80 ∧ sc1 (.sxt .h) 0x8000 = 0xFFFFFFFFFFFF8000 ∧
    sc1 (.sxt .w) 0x80000000 = 0xFFFFFFFF80000000 ∧ sc1 (.zxt .b) 0x180 = 0x80 ∧ sc1 (.zxt .h) 0x18000 = 0x8000 ∧
    sc1 (.zxt .w) 0x180000000 = 0x80000000 := by decide +kernel
theorem test_mov_sel_lea : sc1 .mov 7 = 7 ∧ sc2 (fun x => .sel x (.reg 0)) 5 6 = 5 ∧ sc2 (fun x => .sel x (.reg 1)) 5 6 = 6 ∧
    sc2 (fun x => .lea x 3) 1 2 = 17 := by decide +kernel
/-- R257: the upper halves of the 128-bit products, signed and unsigned. -/
theorem test_mul : sc2 .mul (-1) 3 = 0xFFFFFFFFFFFFFFFD ∧ sc2 .mulh (-1) 3 = 0xFFFFFFFFFFFFFFFF ∧ sc2 .mulhn (-1) 3 = 2 := by
  decide +kernel
/-- R259, with both corners. -/
theorem test_div : sc2 .div 7 0 = 0xFFFFFFFFFFFFFFFF ∧ sc2 .div 0x8000000000000000 (-1) = 0x8000000000000000 ∧
    sc2 .div (-7) 2 = 0xFFFFFFFFFFFFFFFD ∧ sc2 .divn (-1) 0 = 0xFFFFFFFFFFFFFFFF ∧ sc2 .divn (-1) 2 = 0x7FFFFFFFFFFFFFFF := by
  decide +kernel
theorem test_rem : sc2 .rem 7 0 = 7 ∧ sc2 .rem 0x8000000000000000 (-1) = 0 ∧ sc2 .rem (-7) 2 = 0xFFFFFFFFFFFFFFFF ∧
    sc2 .rem 7 (-2) = 1 ∧ sc2 .remn (-1) 0 = 0xFFFFFFFFFFFFFFFF ∧ sc2 .remn 7 4 = 3 := by decide +kernel
/-- R258: position 4, length 8; a length of 0; a length above 64. -/
theorem test_bit_fields : sc2 .bfx 0x12345 0x804 = 0x34 ∧ sc2 .bfx 0x12345 0x004 = 0 ∧ sc2 .bfx 0x12345 0x7F04 = 0x1234 ∧
    value (.bfi ⟨.always, .reg 4, .reg 1, .reg 2, .reg 3⟩) (withS [(1, 0xFFFF), (2, 0x5), (3, 0x404)] s0) = 0xFF5F ∧
    value (.bfi ⟨.always, .reg 4, .reg 1, .reg 2, .reg 3⟩) (withS [(1, 0xFFFF), (2, 0x5), (3, 0x004)] s0) = 0xFFFF := by
  decide +kernel
/-- R260, R116: alone and as a pair. -/
theorem test_constants : value (.movi .always (.reg 7) 0xFFFFFFFF#32) s0 = 0xFFFFFFFFFFFFFFFF ∧
    value (.movhi .always 7 0x123#32) (withS [(7, 0xAAAAAAAA456789AB)] s0) = 0x123456789AB ∧
    sc1 (fun x => .addi x (-1)) 5 = 4 := by decide +kernel
def paired (k : Fin 8) : State := s0.mapCore fun c => { c with slot := k, pair := some 0x123456789AB }
theorem test_pair : value (.movi .always (.reg 7) 0) (paired 2) = 0x123456789AB ∧
    (flight (.movi .always (.reg 7) 0) (paired 1)).map (·.dest) = some .latchOnly ∧
    (flight (.movhi .always 7 0) (paired 2)).map (·.dest) = some (.s 7) := by decide +kernel
/-- R107: conditions, signed and unsigned. -/
theorem test_compare :
    value (.cmp .lt .always (.reg 1) (.reg 1) (.reg 2)) (withS [(1, -1), (2, 1)] s0) = 0xFFFFFFFF ∧
    value (.cmp .ltn .always (.reg 1) (.reg 1) (.reg 2)) (withS [(1, -1), (2, 1)] s0) = 0 ∧
    value (.cmpImm .ne .always (.reg 1) (.reg 5) 0) s0 = 0 ∧
    value (.cmpImm .ge .always (.reg 1) (.reg 5) (-1)) s0 = 0xFFFFFFFF := by decide +kernel
def ps : State := withP [(1, 0xC), (2, 0xA)] s0
def p2x : P2 := ⟨.always, .reg 3, .reg 1, .reg 2⟩
theorem test_predicates : value (.pand p2x) ps = 8 ∧ value (.por p2x) ps = 0xE ∧ value (.pxor p2x) ps = 6 ∧
    value (.pandn p2x) ps = 4 ∧ value (.pnot ⟨.always, .reg 3, .reg 0⟩) ps = 0 ∧
    value (.pfroms .always (.reg 3) (.reg 1)) (withS [(1, 0x1F00000005)] s0) = 5 ∧
    value (.ptos .always (.reg 3) (.reg 0)) s0 = 0xFFFFFFFF := by decide +kernel
/-- R252: a guard that is off. -/
theorem test_guard_off : after (exec (.add ⟨⟨false, 1⟩, .reg 3, .reg 1, .reg 2⟩) s0) (· == s0) = true := by decide +kernel

/-! ## Vector integer operations -/

def va : State := vs2 (mk 8 [0x7F, 0x80, 1, 0xFF]) (mk 8 [1, 0xFF, 2, 9])
theorem test_vadd_vsub : ve 8 (.vadd (x2 .i8)) va 0 = 0x80 ∧ ve 8 (.vadd (x2 .i8)) va 3 = 8 ∧ ve 8 (.vsub (x2 .i8)) va 2 = 0xFF := by
  decide +kernel
theorem test_vmul : ve 8 (.vmul (x2 .i8)) va 1 = 0x80 ∧ ve 8 (.vmulh (x2 .i8)) va 1 = 0 ∧ ve 8 (.vmulh (x2 .n8)) va 1 = 0x7F := by
  decide +kernel
theorem test_vmad : ve 8 (.vmad ⟨.always, .i8, .reg 3, .reg 1, .reg 2, .reg 1⟩) va 0 = 0xFE := by decide +kernel
/-- R264: saturation sets SAT (bit 5). -/
theorem test_saturation : ve 8 (.vadds (x2 .i8)) va 0 = 0x7F ∧ flags (.vadds (x2 .i8)) va = 0x20 ∧
    ve 8 (.vadds (x2 .n8)) va 3 = 0xFF ∧ ve 8 (.vsubs (x2 .n8)) va 2 = 0 := by decide +kernel
theorem test_vmin_vmax : ve 8 (.vmin (x2 .i8)) va 3 = 0xFF ∧ ve 8 (.vmin (x2 .n8)) va 3 = 9 ∧ ve 8 (.vmax (x2 .i8)) va 1 = 0xFF ∧
    ve 8 (.vmax (x2 .n8)) va 1 = 0xFF := by decide +kernel
theorem test_vabs_vneg : ve 8 (.vabs (x1 .i8)) va 3 = 1 ∧ ve 8 (.vabs (x1 .i8)) va 1 = 0x80 ∧ ve 8 (.vneg (x1 .i8)) va 2 = 0xFF := by
  decide +kernel
theorem test_vlogic : ve 8 (.vand (x2 .n8)) va 3 = 9 ∧ ve 8 (.vor (x2 .n8)) va 2 = 3 ∧ ve 8 (.vxor (x2 .n8)) va 2 = 3 ∧
    ve 8 (.vandn (x2 .n8)) va 3 = 0xF6 := by decide +kernel
/-- R264: the amount modulo the width; VSHR follows the type. -/
theorem test_vshifts : ve 8 (.vshl (x2 .i8)) va 3 = 0xFE ∧ ve 8 (.vshr (x2 .n8)) va 3 = 0x7F ∧ ve 8 (.vshr (x2 .i8)) va 3 = 0xFF ∧
    ve 8 (.vsra (x2 .i8)) va 3 = 0xFF := by decide +kernel
theorem test_vsel : ve 8 (.vsel (x2 .i8) (.reg 0)) va 0 = 0x7F ∧ ve 8 (.vsel (x2 .i8) (.reg 1)) va 0 = 1 := by decide +kernel
/-- R265: lane 0 holds four 8-bit elements, and one that fails clears the bit; the zero elements above compare equal. -/
theorem test_vcmp : value (.vcmp .ge .always .n8 (.reg 1) (.reg 1) (.reg 2)) va = 0xFFFFFFFE ∧
    value (.vcmp .eq .always .i32 (.reg 1) (.reg 1) (.reg 1)) va = 0xFFFFFFFF := by decide +kernel
theorem test_vbcast_viota : ve 8 (.vbcast ⟨.always, .i8, .reg 3, .reg 1⟩) (withS [(1, 0x105)] s0) 127 = 5 ∧
    ve 8 (.viota ⟨.always, .i8, .reg 3, .reg 1⟩) (withS [(1, 0x1FF)] s0) 2 = 1 := by decide +kernel
theorem test_vextr : value (.vextr .always .i8 (.reg 3) (.reg 1) (.reg 1)) (withS [(1, 129)] va) = 0xFFFFFFFFFFFFFF80 ∧
    value (.vextr .always .n8 (.reg 3) (.reg 1) (.reg 1)) (withS [(1, 129)] va) = 0x80 := by decide +kernel
theorem test_vins : ve 8 (.vins .always .i8 (.reg 3) (.reg 1) (.reg 1) (.reg 2)) (withS [(1, 0x155), (2, 130)] va) 2 = 0x55 ∧
    ve 8 (.vins .always .i8 (.reg 3) (.reg 1) (.reg 1) (.reg 2)) (withS [(1, 0x155), (2, 130)] va) 0 = 0x7F := by decide +kernel
theorem test_vperm : ve 8 (.vperm (x2 .n8)) va 0 = 0x80 ∧ ve 8 (.vperm (x2 .n8)) va 1 = 0 := by decide +kernel
theorem test_vslide : ve 8 (.vslide (x2 .n8) (.reg 1)) (withS [(1, 129)] va) 0 = 0x80 ∧
    ve 8 (.vslide (x2 .n8) (.reg 1)) (withS [(1, 129)] va) 127 = 1 := by decide +kernel
theorem test_vzip_vunzip : ve 8 (.vzip (x2 .n8)) va 1 = 1 ∧ ve 8 (.vzip (x2 .n8)) va 2 = 0x80 ∧ ve 8 (.vunzip (x2 .n8)) va 1 = 1 ∧
    ve 8 (.vunzip (x2 .n8)) va 64 = 1 := by decide +kernel
theorem test_vred : value (.vred .add .always .i8 (.reg 3) (.reg 1)) va = 0xFFFFFFFFFFFFFFFF ∧
    value (.vred .min ⟨false, 1⟩ .i8 (.reg 3) (.reg 1)) va = 0x7F ∧
    value (.vred .max ⟨false, 1⟩ .i8 (.reg 3) (.reg 1)) va = 0xFFFFFFFFFFFFFF80 ∧
    value (.vred .and ⟨false, 1⟩ .n8 (.reg 3) (.reg 1)) va = 0xFF := by decide +kernel
theorem test_vscan : ve 8 (.vscan .add (x1 .n8)) va 3 = 0xFF ∧ ve 8 (.vscan .max (x1 .n8)) va 2 = 0x80 := by decide +kernel

/-! ## Floating point, conversions, blocks -/

def fv (a b : Nat) : State := vs2 (mk 32 [a]) (mk 32 [b])
/-- R269, R133: 1 + 2, the sum of opposite values, and the rounding of 1 + 2^-24 upward. -/
theorem test_vfadd_vfsub : ve 32 (.vfadd (f2 .f32 .rne)) (fv 0x3F800000 0x40000000) 0 = 0x40400000 ∧
    ve 32 (.vfadd (f2 .f32 .rdn)) (fv 0x3F800000 0xBF800000) 0 = 0x80000000 ∧
    ve 32 (.vfadd (f2 .f32 .rup)) (fv 0x3F800000 0x33800000) 0 = 0x3F800001 ∧
    ve 32 (.vfsub (f2 .f32 .rne)) (fv 0x3F800000 0x40000000) 0 = 0xBF800000 := by decide +kernel
/-- R269: 0 × ∞ is the canonical NaN and sets NV; overflow by mode. -/
theorem test_vfmul : ve 32 (.vfmul (f2 .f32 .rne)) (fv 0 0x7F800000) 0 = 0x7FC00000 ∧
    flags (.vfmul (f2 .f32 .rne)) (fv 0 0x7F800000) = fNV.toNat ∧
    ve 32 (.vfmul (f2 .f32 .rtz)) (fv 0x7F7FFFFF 0x40000000) 0 = 0x7F7FFFFF := by decide +kernel
def f3x : F3 := ⟨.always, .f32, .rne, .reg 3, .reg 1, .reg 2, .reg 1⟩
theorem test_vfma_vfms_vfnma : ve 32 (.vfma f3x) (fv 0x40000000 0x40400000) 0 = 0x41000000 ∧
    ve 32 (.vfms f3x) (fv 0x40000000 0x40400000) 0 = 0x40800000 ∧
    ve 32 (.vfnma f3x) (fv 0x40000000 0x40400000) 0 = 0xC0800000 := by decide +kernel
/-- R270: −0 below +0; a NaN with a number. -/
theorem test_vfmin_vfmax : ve 32 (.vfmin (f2 .f32 .rne)) (fv 0 0x80000000) 0 = 0x80000000 ∧
    ve 32 (.vfmax (f2 .f32 .rne)) (fv 0x7FC00000 0x3F800000) 0 = 0x3F800000 ∧
    flags (.vfmax (f2 .f32 .rne)) (fv 0x7F800001 0x3F800000) = fNV.toNat := by decide +kernel
theorem test_vfabs_vfneg : ve 32 (.vfabs (f1 .f32)) (fv 0xBF800000 0) 0 = 0x3F800000 ∧
    ve 32 (.vfneg (f1 .f32)) (fv 0x3F800000 0) 0 = 0xBF800000 ∧ ve 32 (.vfabs (f1 .f32)) (fv 0xFFC12345 0) 0 = 0x7FC00000 := by
  decide +kernel
/-- R271: −∞, −0, a subnormal, a quiet NaN. -/
theorem test_vfclass : ve 32 (.vfclass (f1 .f32)) (fv 0xFF800000 0) 0 = 1 ∧ ve 32 (.vfclass (f1 .f32)) (fv 0x80000000 0) 0 = 8 ∧
    ve 32 (.vfclass (f1 .f32)) (fv 1 0) 0 = 0x20 ∧ ve 32 (.vfclass (f1 .f32)) (fv 0x7FC00000 0) 0 = 0x200 := by decide +kernel
/-- R272: a quiet NaN is unordered, and an ordered condition on it sets NV. -/
theorem test_vfcmp : value (.vfcmp .eq .always .f32 (.reg 1) (.reg 1) (.reg 2)) (fv 0 0x80000000) = 0xFFFFFFFF ∧
    value (.vfcmp .un .always .f32 (.reg 1) (.reg 1) (.reg 2)) (fv 0x7FC00000 0) = 1 ∧
    value (.vfcmp .lt .always .f32 (.reg 1) (.reg 1) (.reg 2)) (fv 0x7FC00000 0) = 0 ∧
    flags (.vfcmp .lt .always .f32 (.reg 1) (.reg 1) (.reg 2)) (fv 0x7FC00000 0) = fNV.toNat := by decide +kernel
/-- R273: 1/4, 1/√4, √4, 1/−0 and √−1. -/
theorem test_vfrcp_vfrsq_vfsqrt : ve 32 (.vfrcp (f1 .f32)) (fv 0x40800000 0) 0 = 0x3E800000 ∧
    ve 32 (.vfrsq (f1 .f32)) (fv 0x40800000 0) 0 = 0x3F000000 ∧ ve 32 (.vfsqrt (f1 .f32)) (fv 0x40800000 0) 0 = 0x40000000 ∧
    ve 32 (.vfrcp (f1 .f32)) (fv 0x80000000 0) 0 = 0xFF800000 ∧ ve 32 (.vfsqrt (f1 .f32)) (fv 0xBF800000 0) 0 = 0x7FC00000 := by
  decide +kernel
/-- R156's worked values. -/
theorem test_vexp2_vlog2 : ve 32 (.vexp2 (f1 .f32)) (fv 0x3F000000 0) 0 = 0x3FB504F3 ∧
    ve 32 (.vexp2 (f1 .f32)) (fv 0xBF000000 0) 0 = 0x3F3504F3 ∧ ve 32 (.vlog2 (f1 .f32)) (fv 0x41000000 0) 0 = 0x40400000 := by
  decide +kernel
/-- R274: a tree sum of 32 ones, and the maximum of no element. -/
theorem test_vfred : value (.vfred .add .always .f32 .rne (.reg 3) (.reg 1)) (vs2 (mk 32 (List.replicate 32 0x3F800000)) 0) = 0x42000000 ∧
    value (.vfred .max ⟨false, 1⟩ .f32 .rne (.reg 3) (.reg 1)) s0 = 0xFF800000 := by decide +kernel

def cv (tt sty : XTy) (rm : Rnd) (wrp iee : Bool) (x : Nat) : Nat × Nat :=
  let i : Instr := .vcvt ⟨.always, .reg 3, .reg 1, tt, sty, 0, rm, wrp, iee⟩
  let s := vs2 (mk 32 [x]) 0
  (ve tt.width i s 0, flags i s)
/-- The table of R138. -/
theorem test_vcvt_fp8 : cv .e4m3 .f32 .rne false false 0x43E80000 = (0x7E, fNX.toNat) ∧
    cv .e4m3 .f32 .rne false false 0x43F00000 = (0x7E, (fOF ||| fNX).toNat) ∧
    cv .e4m3 .f32 .rne false false 0xFF800000 = (0xFE, (fOF ||| fNX).toNat) ∧
    cv .e4m3 .f32 .rne false false 0x3A800000 = (0, (fUF ||| fNX).toNat) ∧
    cv .e5m2 .f32 .rne false false 0x47700000 = (0x7B, (fOF ||| fNX).toNat) ∧
    cv .e5m2 .f32 .rne false true 0x47700000 = (0x7C, (fOF ||| fNX).toNat) := by decide +kernel
theorem test_vcvt_int : cv .bf16 .f32 .rne false false 0x7F7FFFFF = (0x7F80, (fOF ||| fNX).toNat) ∧
    cv .bf16 .f32 .rtz false false 0x7F7FFFFF = (0x7F7F, fNX.toNat) ∧
    cv .i32 .f32 .rne false false 0x4F32D05E = (0x7FFFFFFF, fNV.toNat) ∧ cv .n8 .f32 .rne false false 0xBF000000 = (0, fNX.toNat) ∧
    cv .n8 .f32 .rne false false 0xBF800000 = (0, fNV.toNat) ∧ cv .i8 .f32 .rne true false 0x43960000 = (0x2C, fNV.toNat) ∧
    cv .i16 .f32 .rne false false 0x7FC00000 = (0, fNV.toNat) := by decide +kernel
theorem test_vpack_vunpack : ve 8 (.vpack (x2 .i16) false) (vs2 (mk 16 [0x0100, 0xFF00]) (mk 16 [5])) 0 = 0x7F ∧
    ve 8 (.vpack (x2 .i16) true) (vs2 (mk 16 [0x0102]) (mk 16 [5])) 0 = 2 ∧
    ve 8 (.vpack (x2 .i16) false) (vs2 (mk 16 [0x0100]) (mk 16 [5])) 64 = 5 ∧
    ve 16 (.vunpack (x1 .i8) false) (vs2 (mk 8 [0x80]) 0) 0 = 0xFF80 ∧ ve 16 (.vunpack (x1 .n8) false) (vs2 (mk 8 [0x80]) 0) 0 = 0x80 := by
  decide +kernel
/-- R145, R280: 1.0 alone in a block gives scale 127 and code 64, which VDEQ reads back (R281). -/
theorem test_vquant : ve 8 (.vquant (.reg 3) (.reg 1) .mx8 true 0 .rne) (fv 0x3F800000 0) 0 = 64 ∧
    ve 8 (.vquant (.reg 3) (.reg 1) .mx8 true 0 .rne) (fv 0x3F800000 0) 120 = 127 ∧
    ve 8 (.vquant (.reg 3) (.reg 1) .mx8 true 0 .rne) (fv 0x7FC00000 0) 120 = 0xFF := by decide +kernel
theorem test_vdeq : ve 32 (.vdeq .always (.reg 3) (.reg 1) .mx8 .rne) (withV [(1, mk 8 ([64] ++ List.replicate 119 0 ++ [127]))] s0) 0
      = 0x3F800000 ∧
    ve 32 (.vdeq .always (.reg 3) (.reg 1) .mx8 .rne) (withV [(1, mk 8 ([64] ++ List.replicate 119 0 ++ [255]))] s0) 5 = 0x7FC00000 := by
  decide +kernel
/-- R147, R280: the format table's entry of loop counter 0, both sides MXINT8 without a ring. -/
def fmtS : State := (fv 0x3F800000 0).mapSp fun sp => { sp with fmtt := 0x40 }
/-- R279: the greatest magnitude, NaNs passed over. -/
theorem test_vamax : value (.vamax .always .f32 (.reg 1) 2) (vs2 (mk 32 [0xC0000000, 0x3F800000, 0x7FC00000]) 0) = 0x40000000 ∧
    (flight (.vamax .always .f32 (.reg 1) 2) s0).map (·.left) = some 5 ∧
    (flight (.vamaxC .always 2) s0).map (·.dest) = some (.ringClear 2) := by decide +kernel
/-- R457: the digest's first 64 bits, of the text abc. -/
theorem test_sha256 : sha256First64 [0x61, 0x62, 0x63] = 0xBA7816BF8F01CFEA := by decide +kernel

/-! ## Matrix operations -/

def mat (i : Instr) (s : State) : Matrix := match exec i s with
  | .next t => t.core.a.mat
  | _ => Matrix.reset
/-- R328: part 1 loads rows 4 to 7; part 4 the scales. -/
theorem test_mpush : (mat (.mpush .always 1 (.reg 1)) (vs2 (mk 8 [7]) 0)).aEdge.get 4 = 7 ∧
    (mat (.mpush .always 1 (.reg 1)) (vs2 (mk 8 [7]) 0)).aEdge.get 0 = 0 ∧
    (mat (.mpush .always 4 (.reg 1)) (vs2 (mk 8 [7]) 0)).sa.get 0 = 7 := by decide +kernel
def edge : State := { s0 with core := { s0.core with a := { s0.core.a with
  mat := { Matrix.reset with aEdge := Matrix.reset.aEdge.set 0 0x0203, sa := Vector.replicate 16 127, sb := Vector.replicate 32 127 } } } }
def eV : State := withV [(1, mk 8 ([2] ++ List.replicate 31 0 ++ [3]))] edge
/-- R148, R329: a beat of MXINT8 has depth 2: row 0 has codes 3 and 2, column 0 of B 2 and 3. -/
theorem test_macc : ((mat (.macc .always 0 false (.xf .mx8) none (some (.reg 1))) eV).acc.get 0).get 0 = 12 ∧
    (mat (.macc .always 0 false (.xf .mx8) none (some (.reg 1))) eV).beat = 1 ∧
    (mat (.macc .always 0 false (.xf .mx8) none (some (.reg 1))) eV).opn = true := by decide +kernel
/-- R149: the closing beat puts 12 × 2^-12 into the bank and clears the accumulators. -/
theorem test_macc_close : (((mat (.macc .always 2 true (.xf .mx8) none (some (.reg 1))) eV).banks.get 2).get 0).get 0 = 0x3B400000 ∧
    ((mat (.macc .always 2 true (.xf .mx8) none (some (.reg 1))) eV).acc.get 0).get 0 = 0 ∧
    (mat (.macc .always 2 true (.xf .mx8) none (some (.reg 1))) eV).opn = false := by decide +kernel
theorem test_mshift : (mat (.mshiftEdge .always (.reg 1)) eV).aEdge.get 1 = 0x0203 ∧ (mat (.mshiftEdge .always (.reg 1)) eV).aEdge.get 0 = 2 ∧
    (mat (.mshiftEdge .always (.reg 1)) eV).sa.get 0 = 3 := by decide +kernel
def banked : State := { s0 with core := { s0.core with a := { s0.core.a with
  mat := { Matrix.reset with banks := Matrix.reset.banks.set 1 (Vector.replicate 16 (Vector.replicate 32 0x3F800000)) } } } }
theorem test_mshift_bank : (((mat (.mshiftBank .always 1) banked).banks.get 1).get 14).get 0 = 0x3F800000 ∧
    (((mat (.mshiftBank .always 1) banked).banks.get 1).get 15).get 0 = 0 := by decide +kernel
theorem test_mdrain : ve 32 (.mdrain .always (.reg 3) 1 .f32 .rne 3) banked 31 = 0x3F800000 ∧
    ve 16 (.mdrain .always (.reg 3) 1 .bf16 .rne 3) banked 31 = 0x3F80 ∧ ve 16 (.mdrain .always (.reg 3) 1 .bf16 .rne 3) banked 32 = 0 := by
  decide +kernel
theorem test_mclr_msel : (((mat (.mclr .always 1 false) banked).banks.get 1).get 0).get 0 = 0 ∧
    (((mat (.msel .always 0 1 true) banked).banks.get 0).get 0).get 0 = 0x3F800000 ∧
    (((mat (.msel .always 0 1 true) banked).banks.get 1).get 0).get 0 = 0 ∧
    (((mat (.msel .always 0 1 false) banked).banks.get 1).get 0).get 0 = 0x3F800000 := by decide +kernel

/-! ## Control -/

def at_ (pc : Word) (s : State) : State := s.mapCore fun c => { c with pc := pc }
def nextOf? (i : Instr) (s : State) : Option Word := match exec i s with
  | .next t => t.core.next
  | _ => none
/-- R231: backward, out of range below 0, at 2^56. -/
theorem test_br : nextOf? (.br .always (-1)) (at_ 0x100 s0) = some 0xC0 ∧ causeOf (.br .always (-1)) s0 = (9, 0) ∧
    nextOf? (.br .always 0) (at_ 0xFFFFFFFFFFFFC0 s0) = some 0xFFFFFFFFFFFFC0 ∧
    causeOf (.br .always 1) (at_ 0xFFFFFFFFFFFFC0 s0) = (9, 0) := by decide +kernel
theorem test_call : value (.call .always (.reg 60) 2) (at_ 0x100 s0) = 0x140 ∧
    nextOf? (.call .always (.reg 60) 2) (at_ 0x100 s0) = some 0x180 := by decide +kernel
/-- R232: the checks in their order. -/
theorem test_bri_ret : nextOf? (.bri .always (.reg 1)) (withS [(1, 0x1C0)] s0) = some 0x1C0 ∧
    causeOf (.ret .always (.reg 1)) (withS [(1, 0x100000000000001)] s0) = (8, 0x100000000000001) ∧
    causeOf (.bri .always (.reg 1)) (withS [(1, 0x100000000000000)] s0) = (9, 0x100000000000000) ∧
    value (.calli .always (.reg 1) (.reg 1)) (withS [(1, 0x1C0)] (at_ 0x40 s0)) = 0x80 := by decide +kernel
def landed (i : Instr) (s : State) : Arch := match exec i s with
  | .next t => landArch (t.core.flights.filter fun f => f.left == 1) t.core.a
  | _ => s.core.a
/-- R233's worked loop: lc0 is 5 and LEC0 is 2. -/
theorem test_lsetup : (landed (.lsetup 0 7 3) (withS [(7, 0x0000000200000005)] (at_ 0x100 s0))).lc.get 0 = 5 ∧
    (landed (.lsetup 0 7 3) (withS [(7, 0x0000000200000005)] (at_ 0x100 s0))).lec.get 0 = 2 ∧
    (landed (.lsetup 0 7 3) (withS [(7, 0x0000000200000005)] (at_ 0x100 s0))).lend.get 0 = 0x1C0 ∧
    (landed (.lsetup 0 7 3) (withS [(7, 0x0000000200000005)] (at_ 0x100 s0))).p.get 8 = 0xFFFFFFFF := by decide +kernel
def loopS (lc : BitVec 32) (lec : BitVec 16) : State := at_ 0x1C0 (s0.mapA fun a => { a with
  lc := a.lc.set 0 lc, lec := a.lec.set 0 lec })
/-- R234: an iteration, the epilogue, the end. -/
theorem test_loop : nextOf? (.loop 0 (-2)) (loopS 5 2) = some 0x140 ∧ (landed (.loop 0 (-2)) (loopS 5 2)).vrb = 63 ∧
    (landed (.loop 0 (-2)) (loopS 5 2)).p.get 15 = 0xFFFFFFFF ∧ (landed (.loop 0 (-2)) (loopS 0 2)).lec.get 0 = 1 ∧
    nextOf? (.loop 0 (-2)) (loopS 0 0) = some 0x200 := by decide +kernel
theorem test_loopx : (landed (.loopx 0 (-2)) (loopS 5 2)).vrb = 0 ∧ (landed (.loopx 0 (-2)) (loopS 5 2)).lc.get 0 = 4 ∧
    nextOf? (.loopx 0 (-2)) (loopS 0 2) = some 0x200 := by decide +kernel
theorem test_ckpt : after (exec (.ckpt 3) (at_ 0x100 s0)) (fun t => t.core.rgn.st == .opened && t.core.rgn.recovery == 0x1C0) = true ∧
    after (exec (.ckpt 3) (inRgn s0)) (fun t => t.core.rgn.st == .unwinding 4) = true := by decide +kernel
theorem test_check_abort : causeOf (.check 1) s0 = (0x15, 0) ∧ after (exec (.check 0) s0) (· == s0) = true ∧
    after (exec (.check 1) (inRgn s0)) (fun t => t.core.rgn.st == .unwinding 1) = true ∧
    after (exec (.abort .always) (inRgn s0)) (fun t => t.core.rgn.st == .unwinding 3) = true ∧
    after (exec .commit s0) (· == s0) = true ∧ after (exec .commit (inRgn s0)) (fun t => t.core.commitDue) = true := by decide +kernel
theorem test_gclr : after (exec (.gclr (.reg 1)) s0) (· == s0) = true ∧
    (flight (.gclr (.reg 1)) (inRgn s0)).map (·.dest) = some .gclr := by decide +kernel
/-- R243. -/
theorem test_trap_bkpt : causeOf (.trap .always 0x123) s0 = (0x15, 0x123) ∧ causeOf (.bkpt .always 5) s0 = (0x0E, 5) ∧
    after (exec (.trap .always 1) s0) (fun t => t.core.sp.done == 1) = true := by decide +kernel
theorem test_halt_nop : after (exec (.halt .always) s0) (fun t => t.core.halting) = true ∧ after (exec .nop s0) (· == s0) = true := by
  decide +kernel
theorem test_srd : value (.srd .always (.reg 1) 0x22 0) s0 = 0x3F1A16120E0A0600 ∧ value (.srd .always (.reg 1) 0x28 0) s0 = 0x2A ∧
    value (.srd .always (.reg 1) 0x21 0) s0 = 4 := by decide +kernel
theorem test_swr : (landed (.swr .always (.reg 1) 0x10 0) (withS [(1, 0x41)] s0)).vrb = 1 ∧ causeOf (.swr .always (.reg 1) 0x22 0) s0 = (0x10, 0x22) := by
  decide +kernel
/-- R247: in the step itself, and before it. -/
theorem test_tswait : after (exec (.tswait (.reg 1)) s0) (fun t => t.core.wait.isNone) = true ∧
    after (exec (.tswait (.reg 1)) (withS [(1, 5)] s0)) (fun t => t.core.wait == some (.step 5)) = true := by decide +kernel
def copied : State := s0.mapCore fun c => { c with icopies := [(0x40, 1), (0x80, 2)] }
theorem test_iflush : after (exec (.iflush (.reg 1)) (withS [(1, 0x7F)] copied)) (fun t => t.core.icopies == [(0x80, 2)]) = true ∧
    after (exec .iflushAll copied) (fun t => t.core.icopies == []) = true := by decide +kernel

/-! ## Local memory and streams -/

def m0 : State := bytes ((List.range 8).map fun i => (0x10 + i, BitVec.ofNat 8 (0x80 + i))) (withS [(2, 0x10)] s0)
/-- R290: little-endian, zero-extended; class 4 lands two steps sooner (R451). -/
theorem test_ld : value (.ld ⟨.always, .s .w (.reg 1), ⟨2, 1⟩, 0⟩) m0 = 0x87868584 ∧
    (flight (.ld ⟨.always, .s .w (.reg 1), ⟨2, 1⟩, 0⟩) m0).map (·.left) = some 6 ∧
    (flight (.ld ⟨.always, .s .w (.reg 1), ⟨2, 1⟩, 0⟩) (m0.mapSp fun sp => { sp with latcls := 4 })).map (·.left) = some 4 := by
  decide +kernel
/-- R283: misaligned, beyond the window, negative. -/
theorem test_ld_traps : causeOf (.ld ⟨.always, .s .w (.reg 1), ⟨2, 0⟩, 0⟩) (withS [(2, 0x12)] s0) = (8, 0x12) ∧
    causeOf (.ld ⟨.always, .s .b (.reg 1), ⟨2, 0⟩, 0⟩) (withS [(2, 0x80000)] s0) = (5, 0x80000) ∧
    causeOf (.ld ⟨.always, .s .b (.reg 1), ⟨2, -1⟩, 0⟩) s0 = (9, 0xFFFFFFFFFFFFFFFF) := by decide +kernel
theorem test_ld_guard : after (exec (.ldG ⟨.always, .s .w (.reg 1), ⟨2, 1⟩, 0⟩) (inRgn m0))
    (fun t => t.core.rgn.guards.get 0 == some ((List.range 4).map fun i => Loc.spad (0x14 + i))) = true := by decide +kernel
theorem test_st : after (exec (.st .always (.s .h (.reg 1)) ⟨2, 0⟩ 0) (withS [(1, 0xAB12), (2, 0x20)] s0))
      (fun t => t.spad == [(0x20, 0x12), (0x21, 0xAB)]) = true ∧
    after (exec (.st .always (.s .h (.reg 1)) ⟨2, 0⟩ 0) (inRgn (withS [(1, 0xAB12), (2, 0x20)] s0)))
      (fun t => t.spad == [] && t.core.rgn.held.length == 1) = true := by decide +kernel
/-- R294: elements at a stride, and at indices. -/
theorem test_lds_ldx : ve 8 (.lds .always .b (.reg 1) (.reg 2) (.reg 3)) (withS [(3, 2)] m0) 1 = 0x82 ∧
    ve 8 (.ldx ⟨false, 1⟩ .b (.reg 1) (.reg 2) (.reg 4)) (withP [(1, 1)] (withV [(4, mk 8 [7, 0])] m0)) 0 = 0x87 := by decide +kernel
theorem test_sts_stx : after (exec (.sts ⟨false, 1⟩ .w (.reg 2) (.reg 3) (.reg 4))
      (withP [(1, 3)] (withV [(4, mk 32 [1, 2, 3])] (withS [(2, 0x20), (3, 8)] s0))))
      (fun t => t.spad == [(0x20, 1), (0x28, 2)]) = true ∧
    after (exec (.stx ⟨false, 1⟩ .w (.reg 2) (.latch 0) (.reg 4)) (withP [(1, 2)] (withV [(4, mk 32 [1, 2, 3])] (withS [(2, 0x20)] s0))))
      (fun t => t.spad == [(0x20, 2)]) = true := by decide +kernel
def qd : List (Nat × Byte) := [(9, 1), (12, 1), (16, 1), (20, 1)]
theorem test_qbind : causeOf (.qbind .always 0 ⟨2, 0⟩) s0 = (0x0A, 0) := by decide +kernel
theorem test_qstat : value (.qstat .always (.reg 1) 0) s0 = 0 ∧ after (exec (.qflush .always 0) s0) (· == s0) = true ∧
    after (exec (.qunbind .always 0) s0) (· == s0) = true := by decide +kernel
theorem test_smap : causeOf (.smap .always (.reg 1) (.reg 2) 1) (withS [(1, 1)] s0) = (8, 1) ∧
    causeOf (.smap .always (.reg 1) (.reg 2) 1) s0 = (5, 0) := by decide +kernel

/-! ## Global memory, stash, atomics, engines -/

def g0 : State := mapped (withS [(2, 0x1000)] s0)
def pendOf (i : Instr) (s : State) : Option PKind := match exec i s with
  | .next t => (t.core.pend.getLast?).map (·.kind)
  | _ => none
/-- R296: a store is in the core's own line, dirty, and a load then has it at issue. -/
def stored1 : State := match exec (.stg ⟨.always, .s .w (.reg 1), ⟨2, 1⟩, 1, none, 0⟩) (withS [(1, 0xAABBCCDD)] g0) with
  | .next t => t
  | _ => s0
theorem test_stg : lineView stored1.core 0x1004 = some (0xDD, true) ∧ lineView stored1.core 0x1008 = none ∧ stored1.home = [] ∧
    (stored1.core.pend.map (·.kind)) = [.stg] ∧ inSig stored1.core.sp.wsig 0x40 = true := by decide +kernel
theorem test_ldg : pendOf (.ldg ⟨.always, .s .b (.reg 1), ⟨2, 4⟩, 2, none, 0⟩) stored1 =
      some (.load (.s 1) (BitVec.allOnes 32) [some 0xDD] [.glob 0x1004] none) ∧
    pendOf (.ldg ⟨.always, .s .b (.reg 1), ⟨2, 0⟩, 2, none, 0⟩) stored1 =
      some (.load (.s 1) (BitVec.allOnes 32) [none] [.glob 0x1000] none) ∧
    after (exec (.ldg ⟨.always, .s .b (.reg 1), ⟨2, 0⟩, 2, none, 0⟩) g0) (fun t => t.core.fills.map (·.key) == [0x40]) = true := by
  decide +kernel
/-- R284, R423: unmapped, misaligned, beyond 2^56. -/
theorem test_global_traps : causeOf (.ldg ⟨.always, .s .w (.reg 1), ⟨2, 0⟩, 0, none, 0⟩) (withS [(2, 0x1000)] s0) = (5, 0x1000) ∧
    causeOf (.stg ⟨.always, .s .w (.reg 1), ⟨2, 0⟩, 0, none, 0⟩) (mapped (withS [(2, 2)] s0)) = (8, 2) ∧
    causeOf (.ldg ⟨.always, .s .b (.reg 1), ⟨2, 0⟩, 0, none, 0⟩) (mapped (withS [(2, 0x100000000000000)] s0)) = (9, 0x100000000000000) := by
  decide +kernel
theorem test_ldgG : after (exec (.ldgG ⟨.always, .s .b (.reg 1), ⟨2, 0⟩, 2, none, 0⟩) (inRgn g0))
    (fun t => t.core.rgn.guards.get 0 == some [.glob 0x1000]) = true := by decide +kernel
/-- R298: core 1's scratchpad begins at 0x80000 of the cluster window. -/
theorem test_ldc_stc : pendOf (.stc ⟨.always, .s .b (.reg 1), ⟨3, 0⟩, 2, none, 0⟩) (withS [(1, 0x77), (3, 0x80004)] s0) =
      some (.stc [(.spad 0x80004, 0x77)]) ∧
    pendOf (.ldc ⟨.always, .s .b (.reg 1), ⟨3, 0⟩, 2, none, 0⟩) (withS [(3, 0x80004)] (bytes [(0x80004, 0x55)] s0)) =
      some (.ldc (.s 1) (BitVec.allOnes 32) [none] [.spad 0x80004]) := by decide +kernel
theorem test_pf : after (exec (.pf .always ⟨2, 0⟩ none 0) g0) (fun t => t.core.fills.map (·.key) == [0x40]) = true ∧
    after (exec (.pf .always ⟨2, 0⟩ none 0) s0) (· == s0) = true := by decide +kernel
/-- R300: size 0 is 4,096 bytes. -/
theorem test_stash_ops : (flight (.smap .always (.reg 1) (.reg 2) 0) g0).map (·.dest) = some (.stash (.smap 0 0x1000 12)) := by
  decide +kernel
/-- R313 at core scope: performed at once in the core's own line. -/
def atx : AT := ⟨.always, .w, 5, ⟨2, 1⟩, 3⟩
def atS : State := withS [(5, 1), (6, 9)] stored1
def oldOf (k : Option PKind) : Option Word := match k with
  | some (.atomic _ _ _ _ _ _ _ o) => o
  | _ => none
theorem test_atomic_core_scope : oldOf (pendOf (.aadd atx) atS) = some 0xAABBCCDD ∧
    after (exec (.aadd atx) atS) (fun t => lineView t.core 0x1004 == some (0xDE, true)) = true ∧
    after (exec (.amin atx) atS) (fun t => lineView t.core 0x1007 == some (0xAA, true)) = true ∧
    after (exec (.axchg atx) atS) (fun t => lineView t.core 0x1007 == some (0, true)) = true := by decide +kernel
/-- R313: the values of the other operations. -/
theorem test_atomic_values : atomNew .max .w 0xFFFFFFFF 1 0 = 1 ∧ atomNew .maxn .w 0xFFFFFFFF 1 0 = 0xFFFFFFFF ∧
    atomNew .minn .d 0xFFFFFFFFFFFFFFFF 1 0 = 1 ∧ atomNew .and .w 0xC 0xA 0 = 8 ∧ atomNew .or .w 0xC 0xA 0 = 0xE ∧
    atomNew .xor .w 0xC 0xA 0 = 6 ∧ atomNew .cas .d 5 5 9 = 9 ∧ atomNew .cas .d 4 5 9 = 4 ∧
    atomNew .fadd .w 0x3F800000 0x40000000 0 = 0x40400000 := by decide +kernel
/-- R321, R322: add with a failure, arrive at the generation's end, read only. -/
theorem test_cwadd_values : cwaddNew 0 0x0005000200000003 = 0x0005000200000003 ∧ cwaddNew 0x0000000000000003 0x4000000000000004 = 0x0001000000000004 ∧
    cwaddNew 7 0x8000000000000004 = 7 ∧ cwItem false (some 5) 0xFFFF000000000000 = 0x0005000100000000 ∧
    cwItem true (some 5) 0xFFFF000000000000 = 0xFFFF000100000000 ∧ cwItem false none 3 = 4 := by decide +kernel
theorem test_sync_issue : pendOf (.acq .always none ⟨2, 0⟩ 2) g0 = some (.acq none .core 0x1000) ∧
    pendOf (.rel ⟨.always, .reg 3, ⟨2, 0⟩, 1⟩) g0 = some (.rel false 0 .core 0x1000 0) ∧
    pendOf (.relf ⟨.always, .reg 3, ⟨2, 0⟩, 1⟩) g0 = some (.rel true 0 .core 0x1000 0) ∧
    pendOf (.fence .always 1) s0 = some (.fence .core) ∧ pendOf (.fencex .always 1) s0 = some .fencex := by decide +kernel
/-- R174's worked lines. -/
theorem test_signature : (sigLine 1).getLsbD 1 = true ∧ (sigLine 1).getLsbD 128 = true ∧ (sigLine 1).getLsbD 256 = true ∧
    (sigLine (0x10000040 / 64)).getLsbD 17 = true ∧ (sigLine (0x10000040 / 64)).getLsbD 264 = true := by decide +kernel
/-- R334: a descriptor of zeros is refused with 0x11, and an address off by one with 0x08. -/
theorem test_engine_traps : causeOf (.cpy ⟨.always, ⟨3, 0⟩, 1⟩) (withS [(3, 1)] s0) = (8, 1) ∧
    (causeOf (.cpy ⟨.always, ⟨3, 0⟩, 1⟩) s0).1 = 0x11 := by decide +kernel

/-! ## Loader -/

/-- R447's object: three images. -/
def imgs : List ImageEnt := [⟨7, 4, 0, 0, 0⟩, ⟨9, 6, 6, 0, 0⟩, ⟨9, 6, 4, 0, 0⟩]
theorem test_choose_image : chooseImage 0x3F 0 imgs = .image 1 ∧ chooseImage 0x3D 0 imgs = .image 2 ∧
    chooseImage 0x3B 0 imgs = .image 0 ∧ chooseImage 0x3B 1 (imgs.drop 1) = .translateWif ∧
    chooseImage 0x3B 0 (imgs.drop 1) = .refuse [(0, 4), (1, 4)] := by decide +kernel
/-- R126: an address that fits neither range of ABS32 is refused; BR's offset; LD's scaled offset. -/
theorem test_relocations : patchSlot .abs32 0x4000001000 0x1C0 0x30000400000000#56 = none ∧
    patchSlot .abs32 0x1000 0 0x30000400000000#56 = some 0x30000400001000#56 ∧
    patchSlot .pcb32 0xC0 0x100 0#56 = some 0x000000FFFFFFFF#56 ∧ patchSlot .pcb32 0xC1 0x100 0#56 = none ∧
    patchSlot .off16 8 0 0x60800000000000#56 = some 0x60800000000800#56 := by decide +kernel

/-! ## States that meet the statements' hypotheses: operations -/

theorem witness_ScalarIntegerResults : plain s0 ∧ guardOn s0 .always = true ∧
    (readS (withS [(1, 7)] s0) (.reg 2) = 0) ∧
    ((readS (withS [(1, 0x8000000000000000), (2, -1)] s0) (.reg 1)).toInt = -2 ^ 63 ∧
      (readS (withS [(1, 0x8000000000000000), (2, -1)] s0) (.reg 2)).toInt = -1) ∧
    (readS (withS [(1, -7), (2, 2)] s0) (.reg 2) ≠ 0 ∧ ¬ ((readS (withS [(1, -7), (2, 2)] s0) (.reg 1)).toInt = -2 ^ 63)) :=
  ⟨rfl, by decide +kernel, by decide +kernel, by decide +kernel, by decide +kernel⟩
theorem witness_BitFieldAndConstantResults : plain s0 ∧ guardOn s0 .always = true ∧ s0.core.pair = none ∧
    plain (paired 2) ∧ guardOn (paired 2) .always = true ∧ (paired 2).core.pair = some 0x123456789AB ∧ (paired 2).core.slot = 2 ∧
    plain (paired 1) ∧ guardOn (paired 1) .always = true ∧ (paired 1).core.pair = some 0x123456789AB ∧ (paired 1).core.slot = 1 :=
  ⟨rfl, by decide +kernel, by decide +kernel, rfl, by decide +kernel, by decide +kernel, by decide +kernel, rfl, by decide +kernel,
    by decide +kernel, by decide +kernel⟩
theorem witness_CompareAndPredicateResults : plain s0 ∧ guardOn s0 .always = true ∧
    (readS (withS [(1, -1), (2, 1)] s0) (.reg 1)).toInt < (readS (withS [(1, -1), (2, 1)] s0) (.reg 2)).toInt ∧
    ¬ (readS (withS [(1, -1), (2, 1)] s0) (.reg 1)).toNat < (readS (withS [(1, -1), (2, 1)] s0) (.reg 2)).toNat :=
  ⟨rfl, by decide +kernel, by decide +kernel, by decide +kernel⟩
theorem witness_DisabledOperationDoesNothing :
    wholeGuard (.add ⟨⟨false, 1⟩, .reg 3, .reg 1, .reg 2⟩) = some ⟨false, 1⟩ ∧ guardOn s0 ⟨false, 1⟩ = false :=
  ⟨rfl, by decide +kernel⟩
theorem witness_VectorIntegerResults : plain va := rfl
theorem witness_VectorCompareResults : plain va := rfl
theorem witness_PermuteResults : plain va ∧ guardOn va .always = true := ⟨rfl, by decide +kernel⟩
theorem witness_ReductionResults : plain va ∧ (guardBits va .always).getLsbD (laneOf 8 127) = true := ⟨rfl, by decide +kernel⟩
theorem witness_FloatArithmeticResults : plain (fv 0x3F800000 0x40000000) := rfl
/-- A NaN; no lane on; lane 0 alone on with an FP32 number. -/
theorem witness_FloatSignClassCompareResults : plain (fv 0x7FC00000 0) ∧ (fval .f32 (src1 (fv 0x7FC00000 0) (.reg 1)) 0).isNan = true ∧
    (∀ e, e < nElems (fwidth .f32) → (guardBits s0 ⟨false, 1⟩).getLsbD (laneOf (fwidth .f32) e) = false) ∧
    (∀ e', e' < nElems (fwidth .f32) → ((guardBits (withP [(1, 1)] (fv 0x3F800000 0)) ⟨false, 1⟩).getLsbD (laneOf (fwidth .f32) e') = true ↔
      laneOf (fwidth .f32) e' = laneOf (fwidth .f32) 0)) ∧
    (fval .f32 (src1 (withP [(1, 1)] (fv 0x3F800000 0)) (.reg 1)) 0).isNan = false :=
  ⟨rfl, by decide +kernel, by decide +kernel, by decide +kernel, by decide +kernel⟩
theorem witness_RoundingIsCorrect : (decodeF (FTy.fmt .f32) (roundF (FTy.fmt .f32) .rup (.fin false 3 (-200))).1).finite = true ∧
    (decodeF (FTy.fmt .f32) 0x3F800000).finite = true := ⟨by decide +kernel, by decide +kernel⟩
theorem witness_ConversionResults : plain s0 ∧ XTy.isInt .i8 = true ∧ 0x80 < 2 ^ XTy.width .i8 ∧
    XTy.width .i8 ≤ XTy.width .i16 ∧ XTy.width .i16 < XTy.width .i32 := ⟨rfl, by decide, by decide, by decide, by decide⟩
/-- Scale 0xFF and another; an enabled number and an infinity for VAMAX. -/
theorem witness_BlockFormatResults : plain s0 ∧
    (elem 8 (src1 (withV [(1, mk 8 (List.replicate 120 0 ++ [255]))] s0) (.reg 1)) 120).toNat = 0xFF ∧
    (elem 8 (src1 s0 (.reg 1)) 120).toNat ≠ 0xFF ∧
    (fval .f32 (src1 (fv 0x3F800000 0) (.reg 1)) 0).isNan = false ∧ (guardBits s0 .always).getLsbD (laneOf 32 0) = true :=
  ⟨rfl, by decide +kernel, by decide +kernel, by decide +kernel, by decide +kernel⟩
theorem witness_BlockFormatResults_table : ∃ e, fmttEntry s0.feat s0.core.sp.fmtt (s0.core.a.lc.get 0) = some e :=
  ⟨(fmttEntry s0.feat s0.core.sp.fmtt (s0.core.a.lc.get 0)).get (by decide +kernel), (Option.some_get _).symm⟩
theorem witness_MatrixStateResults : guardOn edge .always = true ∧ plain edge := ⟨by decide +kernel, rfl⟩
theorem witness_MatrixBeatResults : plain eV ∧ guardOn eV .always = true ∧ maccPair eV (.xf .mx8) = some (.mx8, .mx8) :=
  ⟨rfl, by decide +kernel, by decide +kernel⟩
theorem witness_ControlScalarMatrixRoundTrip :
    (family (.lsetup 0 7 3) = .control ∧ (Instr.lsetup 0 7 3).wellFormed = true ∧ featAllows 0x3F (.lsetup 0 7 3) = true ∧
      noLeaseField (.lsetup 0 7 3) = true) ∧
    (family (.mclr .always 3 true) = .matrix ∧ featAllows 0x3F (.mclr .always 3 true) = true) ∧
    (family (.addi ⟨.always, .reg 63, .nbr 7⟩ (-1)) = .scalar ∧ (Instr.addi ⟨.always, .reg 63, .nbr 7⟩ (-1)).wellFormed = true ∧
      featAllows 0x3F (.addi ⟨.always, .reg 63, .nbr 7⟩ (-1)) = true) :=
  ⟨⟨rfl, by decide, by decide +kernel, rfl⟩, ⟨rfl, by decide +kernel⟩, ⟨rfl, by decide, by decide +kernel⟩⟩
theorem witness_VectorMemoryRoundTrip :
    (family (.vadd (x2 .i8)) = .vector ∧ (Instr.vadd (x2 .i8)).wellFormed = true ∧ featAllows 0x3F (.vadd (x2 .i8)) = true) ∧
    (family (.ldc ⟨.always, .v (.reg 1), ⟨2, 0⟩, 7, none, 15⟩) = .memory ∧
      (Instr.ldc ⟨.always, .v (.reg 1), ⟨2, 0⟩, 7, none, 15⟩).wellFormed = true ∧
      featAllows 0x3F (.ldc ⟨.always, .v (.reg 1), ⟨2, 0⟩, 7, none, 15⟩) = true ∧
      noLeaseField (.ldc ⟨.always, .v (.reg 1), ⟨2, 0⟩, 7, none, 15⟩) = true) :=
  ⟨⟨rfl, rfl, by decide +kernel⟩, ⟨rfl, rfl, by decide +kernel, rfl⟩⟩
theorem witness_AcceptedWordsAreCanonical :
    (match decodeSlot 0x3F 1 0x2C000502FFFFFF#56 with
      | .ok i => i == .addi ⟨.always, .reg 5, .reg 5⟩ 0x7FFFFF#23
      | .error _ => false) = true := by decide +kernel

/-- Headers that fail check 1, 2, 3, 4 and 5 alone, in this order; a word in a slot whose OCC is 0; an empty bundle. -/
theorem witness_HeaderFaultsComeFirst :
    (hClass (0x4000000000000000 : Word) ≠ 0 ∧ hClass (0x4000000000000000 : Word) ≠ 1) ∧ 4 < (hScope (0x1400000000000000 : Word)).toNat ∧
    (∃ h : Word, hRun h ≠ 0 ∧ hClass h = 0 ∧ hScope h = 0) ∧
    (∃ h : Word, (hPort h 0).getLsbD 4 = true ∧ 10 ≤ ((hPort h 0).extractLsb' 0 4).toNat ∧ hRun h = 0 ∧ hClass h = 0) ∧
    (∃ h : Word, (hPort h 0).getLsbD 4 = false ∧ hPort h 0 ≠ 0 ∧ hRun h = 0 ∧ hClass h = 0) ∧
    (∃ b : BundleBits, headerOf b = 0 ∧ slotOf b 0 ≠ 0) ∧ (∀ k : Fin 8, slotOf 0 k.val = 0) ∧ portCodes 0 = [] :=
  ⟨by decide +kernel, by decide +kernel, ⟨0x100, by decide +kernel⟩, ⟨0x1F00000, by decide +kernel⟩,
    ⟨0x0100000, by decide +kernel⟩, ⟨1 <<< 64, by decide +kernel⟩, by decide +kernel, by decide +kernel⟩

/-! ## A step from a placed instruction -/

/-- The machine with ADDI s5, s5, -1 where it fetches next. -/
def placed : State := State.reset.withFetchWord 0 0x2C000502FFFFFF
/-- R257, R260, R202: the step runs the ADDI, and its result lands. -/
theorem test_step_addi : after (step placed) (fun t => getS t.core.a 5 == 0xFFFFFFFFFFFFFFFF && t.core.pc == 0x40) = true := by
  decide +kernel
/-- R205: in one bundle SRD in slot 0 and ADD in slot 2 write s5; the higher slot's value stands. -/
theorem test_higher_slot_stands : getS (landArch
    [⟨0, .s 5, 7, BitVec.allOnes 32, 0, 1, true, false⟩, ⟨2, .s 5, 9, BitVec.allOnes 32, 0, 1, true, false⟩] s0.core.a) 5 = 9 := by
  decide +kernel
def fetched : BundleBits := match fetch placed with
  | (.ok b, _) => b
  | _ => 0
theorem witness_StepRunsDecodedInstruction : placed.agenda = [] ∧ placed.script = [] ∧ runnable placed placed.core = true ∧
    placed.core.slice % 64 ≠ 0 ∧ overrun placed.core = false ∧ regionOpen placed.core = false ∧
    placed.core.feed = [] ∧ fetchWaits placed = false ∧ (fetch placed).1 = .ok fetched ∧
    (let s2 := (fetch placed).2.mapCore fun c => { c with bundle := fetched, chain := none }
      let l : List SlotOps := [⟨1, [(0x2C000502FFFFFF#56, .addi ⟨.always, .reg 5, .reg 5⟩ 0x7FFFFF#23)], false⟩]
      awaited s2 fetched = [] ∧ renamed s2 fetched = [] ∧ checks s2 fetched = .ok l ∧ afterChecks fetched l s2 = startBundle l (stallFor l s2).1 ∧
      (stallFor l s2).1.agenda = [] ∧ (stallFor l s2).1.core.sp.done.getLsbD 1 = false ∧ ((coresOf (stallFor l s2).1).all fun c => !traceOn c.m) = true) := by
  refine ⟨?_, ?_, ?_, ?_, ?_, ?_, ?_, ?_, ?_, ?_, ?_, ?_, rfl, ?_, ?_, ?_⟩
  all_goals decide +kernel
/-! ## States that meet the statements' hypotheses: landing, control, regions, local memory -/

/-- Two results to s5, lanes to v7 and p3, a latch, and one step more for another. -/
def fl (k : Fin 8) (d : FDest) (x : Vec) (m : BitVec 32) (left : Nat) : Flight := ⟨k, d, x, m, 0, left, true, false⟩
def dueS (l : List Flight) : State := s0.mapCore fun c => { c with landDue := true, flights := l }
def dueL : List Flight := [fl 0 (.s 5) 7 0xFFFFFFFF 1, fl 2 (.s 5) 9 0xFFFFFFFF 1, fl 3 (.v 7) 1 0x80000001 1, fl 4 (.p 3) 5 1 1]
theorem witness_ResultsLandAtTheirStep : (focus 0 (dueS (fl 6 (.s 1) 3 0 2 :: dueL))).core.landDue = true ∧
    dueNow (focus 0 (dueS (fl 6 (.s 1) 3 0 2 :: dueL))) = dueL.take 1 ++ fl 2 (.s 5) 9 0xFFFFFFFF 1 :: dueL.drop 2 ∧
    ((∀ g ∈ dueL.take 1, (g.dest == .s 5) = true → g.slot ≤ 2) ∧ ∀ g ∈ dueL.drop 2, (g.dest == .s 5) = true → g.slot < 2) ∧
    (∀ g ∈ dueL.take 2 ++ dueL.drop 3, (g.dest == .v 7) = false ∧ (g.dest == .p 3 → g.slot ≤ 4)) ∧
    (fl 3 (.v 7) 1 0x80000001 1).mask.getLsbD 31 = true ∧ (fl 4 (.p 3) 5 1 1).mask.getLsbD 0 = true ∧
    (∀ f ∈ dueL, ∀ i : Fin 2, f.dest ≠ .sreg 0x14 i) ∧
    dueNow (focus 0 (dueS [fl 0 (.sreg 0x14 0) 9 0xFFFFFFFF 1])) = [fl 0 (.sreg 0x14 0) 9 0xFFFFFFFF 1] := by decide +kernel
theorem witness_RotatingNames : 64 ≤ (126 : Fin 128).val ∧ (127 : Fin 128).val = (126 : Fin 128).val + 1 ∧
    physV 63 127 = physV 62 64 ∧ 8 ≤ (14 : Fin 16).val ∧ (15 : Fin 16).val = (14 : Fin 16).val + 1 := by decide +kernel
/-- At 0, at the last bundle, beyond both ends; a value off by one bit at 2^56. -/
theorem witness_TransferResults : plain (at_ 0x40 s0) ∧ guardOn (at_ 0x40 s0) .always = true ∧
    ((at_ 0x40 s0).core.pc.toNat : Int) + 64 * (-1 : BitVec 32).toInt = 0 ∧
    ((at_ 0 s0).core.pc.toNat : Int) + 64 * (-1 : BitVec 32).toInt < 0 ∧
    2 ^ 56 ≤ ((at_ 0xFFFFFFFFFFFFC0 s0).core.pc.toNat : Int) + 64 * (1 : BitVec 32).toInt ∧ guardOn s0 ⟨false, 1⟩ = false ∧
    (readS (withS [(1, 0xFFFFFFFFFFFFC0)] s0) (.reg 1)).toNat % 64 = 0 ∧ (readS (withS [(1, 0xFFFFFFFFFFFFC0)] s0) (.reg 1)).toNat < 2 ^ 56 ∧
    (readS (withS [(1, 0x100000000000001)] s0) (.reg 1)).toNat % 64 ≠ 0 ∧ 2 ^ 56 ≤ (readS (withS [(1, 0x100000000000000)] s0) (.reg 1)).toNat :=
  ⟨rfl, by decide +kernel⟩
theorem witness_LoopResults : plain (loopS 5 2) ∧ (loopS 5 2).core.a.lc.get 0 ≠ 0 ∧
    (0 ≤ ((loopS 5 2).core.pc.toNat : Int) + 64 * (-7 : BitVec 32).toInt ∧ ((loopS 5 2).core.pc.toNat : Int) + 64 * (-7 : BitVec 32).toInt < 2 ^ 56) ∧
    ¬ 0 ≤ ((loopS 5 2).core.pc.toNat : Int) + 64 * (-8 : BitVec 32).toInt ∧
    (loopS 0 2).core.a.lc.get 0 = 0 ∧ (loopS 0 2).core.a.lec.get 0 ≠ 0 ∧ (loopS 0 0).core.a.lec.get 0 = 0 :=
  ⟨rfl, by decide +kernel⟩
theorem witness_RegionControlResults : s0.core.rgn.st = .closed ∧ (inRgn s0).core.rgn.st = .opened ∧ regionOpen (inRgn s0).core = true ∧
    regionOpen s0.core = false ∧ (readP s0 (.reg 0)).getLsbD 0 = true ∧ (readP s0 (.reg 1)).getLsbD 0 = false ∧
    guardOn s0 .always = true ∧ guardOn (inRgn s0) .always = true ∧ plain s0 ∧ plain (inRgn s0) :=
  ⟨rfl, rfl, by decide +kernel, by decide +kernel, by decide +kernel, by decide +kernel, by decide +kernel, by decide +kernel, rfl, rfl⟩
/-- The step now is 1: a step named earlier, now and later. -/
theorem witness_StopAndWaitResults : regionOpen s0.core = false ∧ guardOn s0 .always = true ∧ guardOn s0 ⟨false, 1⟩ = false ∧
    (let s : State := { withS [(1, 1), (2, 2)] s0 with tick := 1024 };
      stepOf s (dieOf s.core.id) = 1 ∧ (readS s (.reg 1)).toNat = stepOf s (dieOf s.core.id) ∧
      (readS s (.reg 0)).toNat < stepOf s (dieOf s.core.id) ∧ stepOf s (dieOf s.core.id) < (readS s (.reg 2)).toNat) := by decide +kernel
theorem witness_SpecialRegisterResults : plain s0 ∧ guardOn s0 .always = true ∧ regionOpen s0.core = false ∧
    sregRW 0x33 = true ∧ sregRW 0x34 = false ∧ sregRW 0x13 = false ∧ (0x33 : BitVec 8).toNat = 0x30 + (3 : Fin 4).val ∧
    (2 ≤ (0x12 : Word).toNat % 16 ∧ (0x12 : Word).toNat % 16 ≤ 8) ∧ ¬ 2 ≤ (0x11 : Word).toNat % 16 :=
  ⟨rfl, by decide +kernel⟩
/-- A core that runs a task, of which nothing else is in the state. -/
def task0 : Task where
  id := 0
  launch := 0
  node := 0
  j := 0
  st := .running
  core := some 0
  readyTick := 0
  slot := none
  saved := none
  wait := none
  gang := 0
  gsize := 1
  gpos := 0
  cause := 0
  domStop := false
  stepping := false
  mig := none
  stopReq := none
  args := 0
def tasked (s : State) : State := { s.mapCore (fun c => { c with task := some 0 }) with tasks := [task0], taskNext := 1 }
theorem witness_TrapEntry : 8 ≤ 8 ∧ regionOpen (tasked s0).core = false ∧ (0x15 : Byte) ≠ 0x06 ∧ dieOf (tasked s0).core.id < 4 ∧
    curTask (tasked s0) = some task0 ∧ ¬ (task0.stepping = true ∧ ((0x15 : Byte) = 0x0E ∨ (0x15 : Byte) = 0x0F)) := by decide +kernel
def unwound (c : Nat) : State := (inRgn s0).mapRgn fun r => { r with st := .unwinding c, recovery := 0xFFFFFFFFFFFFC0 }
theorem witness_RollbackRestores : closing (.halt ⟨false, 1⟩) = true ∧ regionOpen (inRgn s0).core = true ∧ (inRgn s0).core.rgn.st = .opened ∧
    (0x0C : Byte) ≠ 0x06 ∧ (focus 0 (unwound 8)).core.rgn.st = .unwinding 8 ∧ (focus 0 (unwound 8)).core.landDue = false ∧
    ((focus 0 (unwound 8)).core.pend.any fun p => p.rgn) = false ∧ 0 ≤ (focus 0 (unwound 8)).core.rgn.recovery ∧
    (focus 0 (unwound 8)).core.rgn.recovery < 2 ^ 56 := by decide +kernel
theorem witness_AddressChecks : 0 < 128 ∧ dstOn m0 .always (.s .w (.reg 1)) = true ∧
    spadTrap s0 (eaM s0 ⟨2, -1⟩ 1) 1 1 false = some ⟨9, -1, false⟩ ∧
    spadTrap (withS [(2, 0x80000)] s0) (eaM (withS [(2, 0x80000)] s0) ⟨2, 0⟩ 1) 1 1 true = some ⟨5, 0x80000, false⟩ ∧
    srcOn s0 .always (.s .b (.reg 1)) = true ∧ globTrap s0 (eaM s0 ⟨2, 0⟩ 4) 4 .rd = some ⟨5, 0, false⟩ ∧
    globTrap s0 (eaM s0 ⟨2, 0⟩ 4) 4 .wr = some ⟨5, 0, false⟩ := by decide +kernel
/-- The last aligned place of the window, with a vector; elements at index 0 and at the last address. -/
theorem witness_LocalLoadResults : plain m0 ∧ dstOn m0 .always (.v (.reg 1)) = true ∧
    (let s := withS [(2, 0x7FF80)] s0;
      spadOk (eaM s ⟨2, 0⟩ 128) 128 ∧ stashErr s (spanOffs (eaM s ⟨2, 0⟩ 128).toNat 128 (dstLanes s .always (.v (.reg 1)))
        (dstLanes s .always (.v (.reg 1)) == BitVec.allOnes 32)) = none) ∧
    (let s := withP [(1, 1)] (withS [(2, 0x7FFFC)] s0);
      let m := guardBits s ⟨false, 1⟩;
      (∀ e, e < 32 → elemOn m 4 e = true → spadOk (((readS s (.reg 2)).toNat : Int) + e * (readS s (.reg 3)).toInt) 4) ∧
      stashErr s (elemOffs m 4 fun e => ((readS s (.reg 2)).toNat : Int) + e * (readS s (.reg 3)).toInt) = none) :=
  ⟨rfl, by decide +kernel, by unfold spadOk; decide +kernel, by unfold spadOk; decide +kernel⟩
theorem witness_LocalStoreResults :
    (let s := withS [(2, 0x7FF80)] s0;
      srcOn s .always (.v (.reg 1)) = true ∧ spadTrap s (eaM s ⟨2, 0⟩ 128) 128 128 true = none ∧ Mem.wf s.spad = true ∧
      regionOpen s.core = false ∧ regionOpen (inRgn s).core = true ∧ s.core.pend = [] ∧
      spadTrap (inRgn s) (eaM (inRgn s) ⟨2, 0⟩ 128) 128 128 true = none) ∧
    (let s := withP [(1, 1)] (withS [(2, 0x7FFFC)] s0);
      let m := guardBits s ⟨false, 1⟩;
      (∀ e ∈ (List.range 32).filter (elemOn m 4),
        spadTrap s (((readS s (.reg 2)).toNat : Int) + e * (readS s (.reg 3)).toInt) 4 4 true = none) ∧
      (List.range 32).filter (elemOn m 4) = [0] ∧ regionOpen s.core = false) := by decide +kernel
theorem witness_quietFor (s : State) (h : s.core.pend = []) (l : List (Loc × Byte)) : quietFor s.core l := by
  intro x _ a _ p hp
  simp [h] at hp
/-! ## States that meet the statements' hypotheses: global memory, streams, atomics, engines -/

/-- At cluster scope, and at die scope. -/
def atScope (n : Nat) (s : State) : State := s.mapCore fun c => { c with bundle := BitVec.ofNat 512 (n * 2 ^ 58) }
def pendS (l : List PendOp) : State := s0.mapCore fun c => { c with pend := l }
/-- The last aligned place below 2^56; the last core of the window; a line the core holds and one it does not. -/
theorem witness_TokenLoadIssue :
    (let s := mapped (withS [(2, 0xFFFFFFFFFFFF80)] s0);
      dstOn s .always (.v (.reg 1)) = true ∧ checkGlob s.core.ktt (eaM s ⟨2, 0⟩ 128) 128 128 .rd = .ok bareEntry) ∧
    (let s := withS [(2, 0x17FFF80)] s0;
      checkCluster s (eaM s ⟨2, 0⟩ 128) 128 = none ∧ srcOn s .always (.v (.reg 1)) = true ∧ regionOpen s.core = false ∧
      regionOpen (inRgn s).core = true ∧ checkCluster (inRgn s) (eaM (inRgn s) ⟨2, 0⟩ 128) 128 = none) ∧
    checkGlob s0.core.ktt (eaM s0 ⟨2, 0⟩ 64 / 64 * 64) 64 64 .rd = .error 5 ∧
    checkGlob g0.core.ktt (eaM g0 ⟨2, 0⟩ 64 / 64 * 64) 64 64 .rd = .ok bareEntry ∧ guardOn g0 .always = true ∧
    ownByte g0.core g0.tick (classOf bareEntry none) (kttKey bareEntry 0x1000 + 0) = none := by decide +kernel
def full1 : State := g0.mapCore fun c => { c with lines := [⟨0x40, 0, BitVec.allOnes 64, 0, 0, none⟩] }
theorem witness_TokenLoadIssue_held : ∀ i, i < 64 → (ownByte full1.core full1.tick (classOf bareEntry none) (kttKey bareEntry 0x1000 + i)).isSome = true := by
  decide +kernel
theorem witness_GlobalStoreResults : srcOn g0 .always (.v (.reg 1)) = true ∧ regionOpen g0.core = false ∧ regionOpen (inRgn g0).core = true ∧
    checkGlob g0.core.ktt (eaM g0 ⟨2, 0⟩ 128) 128 128 .wr = .ok bareEntry ∧
    checkGlob (inRgn g0).core.ktt (eaM (inRgn g0) ⟨2, 0⟩ 128) 128 128 .wr = .ok bareEntry ∧ g0.core.pend = [] := by decide +kernel
def loadP : PendOp := ⟨0, 1, .load (.v 5) 1 [some 7] [.glob 0x1000] none, 0x1000, 3, 0, false, none⟩
theorem witness_LoadCompletionWrites : (focus 0 (pendS [loadP])).core.pend[0]? = some loadP ∧
    loadP.kind = .load (.v 5) 1 [some 7] [.glob 0x1000] none ∧ (∀ g ∈ [some (7 : Byte)], g.isSome = true) ∧
    waitsFlight (focus 0 (pendS [loadP])) loadP = false ∧ (focus 0 (pendS [loadP])).core.rgn.st = .closed := by decide +kernel
def mapS : State := g0.mapCore fun c => { c with maps := [⟨0x7F000, 0x5000, 0x5000, 12, true, none⟩] }
theorem witness_StashOperationResults : plain g0 ∧ guardOn g0 .always = true ∧ regionOpen g0.core = false ∧ regionOpen (inRgn g0).core = true ∧
    smapTrap g0 0x7F000 0x1000 12 = none ∧ smapTrap s0 0x7F000 0x1000 12 = some ⟨5, 0x1000, false⟩ ∧
    mapOfOff (mapsAfter g0) 0x1000 = none ∧ mapOfOff (mapsAfter mapS) 0x7FFC0 = some ⟨0x7F000, 0x5000, 0x5000, 12, true, none⟩ ∧
    kttFind g0.core.ktt 0x1000 (2 ^ 12) = some bareEntry ∧ mapOfOff mapS.core.maps 0x7FFFF = some ⟨0x7F000, 0x5000, 0x5000, 12, true, none⟩ :=
  ⟨rfl, by decide +kernel⟩
theorem witness_StashOperationResults_spadOk : spadOk (eaM (withS [(3, 0x7FFC0)] mapS) ⟨3, 0⟩ 64) 64 := by unfold spadOk; decide +kernel
/-- The descriptor of R306's worked case, at 0x2000: four elements of 128 bytes; as input, then as output. -/
def qdesc (out : Bool) : QDesc := ⟨0x2000, (Vector.replicate 4 1).set 0 4, (Vector.replicate 4 0).set 0 128, if out then 6 else 2⟩
def qS (q : QState) : State := s0.mapA fun a => { a with streams := a.streams.set 0 q }
def qdBytes : List Byte := [0, 0x20, 0, 0, 0, 0, 0, 0] ++ [4, 0, 0, 0] ++ [1, 0, 0, 0] ++ [1, 0, 0, 0] ++ [1, 0, 0, 0] ++ [128, 0, 0, 0, 0, 0, 0, 0] ++
  List.replicate 24 0 ++ [2, 0, 0, 0, 0, 0, 0, 0]
def bytesAt0 (a : Nat) (l : List Byte) (s : State) : State := { s with spad := Mem.putBytes s.spad a l }
theorem witness_StreamOperationResults : plain s0 ∧ guardOn s0 .always = true ∧
    qbindBad (bytesAt0 0 qdBytes s0) 0 (qbindDesc (bytesAt0 0 qdBytes s0) ⟨2, 0⟩) = false ∧ qbindBad s0 0 (qbindDesc s0 ⟨2, 0⟩) = true ∧
    (∀ o, o < 64 → mapOfOff s0.core.maps ((eaM s0 ⟨2, 0⟩ 64).toNat + o) = none) ∧ (getQ s0 0).bound = false ∧
    (getQ (qS ⟨true, qdesc false, 0, [], []⟩) 0).bound = true ∧ qOut (qdesc false) = false ∧ qOut (qdesc true) = true ∧
    (∀ e ∈ (getQ (qS ⟨true, qdesc true, 1, [], [⟨0, 0x2000, some 5⟩]⟩) 0).outq, e.data.isSome = true) :=
  ⟨rfl, by decide +kernel⟩
theorem witness_StreamOperationResults_spadOk : spadOk (eaM s0 ⟨2, 0⟩ 64) 64 := by unfold spadOk; decide +kernel
theorem test_qbind_binds : (landed (.qflush .always 0) (bytesAt0 0 qdBytes s0)).streams.get 0 = QState.reset ∧
    ((match exec (.qbind .always 0 ⟨2, 0⟩) (bytesAt0 0 qdBytes s0) with
      | .next t => t.core.flights.map (·.dest)
      | _ => []) = [.qact (.bind 0 (qdesc false))]) := by decide +kernel
/-- CWADD's three operands, at both ends of the failure count. -/
theorem witness_WordUpdateValues : (0x0005000200000003 : Word).toNat / 2 ^ 62 = 0 ∧ (0x0005000200000003 : Word).toNat / 2 ^ 32 % 2 ^ 16 ≠ 0 ∧
    (0x0005000000000003 : Word).toNat / 2 ^ 32 % 2 ^ 16 = 0 ∧ (0x4000000000000004 : Word).toNat / 2 ^ 62 = 1 ∧
    2 ≤ (0x8000000000000000 : Word).toNat / 2 ^ 62 ∧ AOp.add ≠ .fadd := by decide +kernel
theorem witness_AtomicIssue : (∀ n : Fin 3, let s := atScope n g0
    regionOpen s.core = false ∧ guardOn s .always = true ∧ checkGlob s.core.ktt (eaM s ⟨2, 1⟩ 8) 8 8 .rw = .ok bareEntry ∧
    (∀ p ∈ s.core.pend, atomKey p ≠ some 0x40 ∧ waitsFor 0x40 p = false) ∧ (curScope s = .core ↔ n = 0)) ∧
    mapOfKey g0.core.maps 0x40 = none ∧ placeErr .core 0x1008 8 g0 = none ∧ hasRoom g0.core 2 := by unfold hasRoom; decide +kernel
def atomP (o : Option Word) : PendOp := ⟨0, 1, .atomic .add .d 5 1 0 .die 0x1038 o, 0x1038, 3, 0, false, none⟩
theorem witness_AtomicCompletion (o : Option Word) : let v := focus 0 (pendS [atomP o])
    v.core.pend[0]? = some (atomP o) ∧ (∀ q ∈ v.core.pend, q.seq = (atomP o).seq → q = atomP o) ∧
    (atomP o).kind = .atomic .add .d 5 1 0 .die 0x1038 o ∧ waitsFlight v (atomP o) = false ∧ v.core.rgn.st = .closed ∧
    0x1038 % aszBytes .d = 0 ∧ homeErr v (lineKey 0x1038) = none ∧ reach v (dieOf v.core.id) (lineKey 0x1038) = true ∧
    lineFind v.core (lineKey 0x1038) = none ∧ Mem.wf v.home = true ∧ (∀ q ∈ v.core.pend, ordOpen q = false) :=
  ⟨rfl, fun _ h _ => List.mem_singleton.mp h, rfl, rfl, rfl, rfl, rfl, rfl, rfl, rfl,
    fun _ h => (List.mem_singleton.mp h) ▸ rfl⟩
/-- R188: the atomic's word at its home, its old value in the register. -/
theorem test_atomic_completion : after (exec (.tokenComplete 0 0) { pendS [atomP none] with home := [(0x1038, 0xFF)] })
    (fun t => t.home == [(0x1039, 1)] && getS t.core.a 5 == 0xFF && t.core.pend == []) = true := by decide +kernel
theorem witness_SynchronisationIssue : (∀ n : Fin 3, let s := atScope n g0
    regionOpen s.core = false ∧ guardOn s .always = true ∧ plain s ∧ checkGlob s.core.ktt (eaM s ⟨2, 0⟩ 128) 128 128 .rw = .ok bareEntry ∧
    checkGlob s.core.ktt (eaM s ⟨2, 0⟩ 8) 8 8 .rw = .ok bareEntry ∧ checkGlob s.core.ktt (eaM s ⟨2, 0⟩ 8) 8 8 .rd = .ok bareEntry ∧
    (∀ p ∈ s.core.pend, atomKey p ≠ some 0x40 ∧ waitsFor 0x40 p = false) ∧ (curScope s = .core ↔ n = 0) ∧
    cwSatisfied 0 (waitWord (curScope s) 0x1000 s).1 = true ∧ cwSatisfied 1 (waitWord (curScope s) 0x1000 s).1 = false ∧
    placeErr (curScope s) 0x1000 8 s = none ∧ hasRoom s.core 2) := by
  unfold plain hasRoom; decide +kernel
theorem witness_SignaturesAndReleases : (sigLine 1).getLsbD 128 = true ∧ inSig (sigLine 1) 1 = true ∧ popcount (BitVec.allOnes 255 |>.setWidth 512) < 256 ∧
    256 ≤ popcount (BitVec.allOnes 256 |>.setWidth 512) := by decide +kernel
/-- A descriptor from its 64-bit words. -/
def dsc (l : List Nat) : List Byte := l.flatMap fun x => toBytes 8 (BitVec.ofNat 64 x)
/-- A copy of 16 bytes from offset 0x100 to 0x200 of the core's own scratchpad. -/
def cpyD : List Byte := dsc [0x100, 0x200, 0x0001000100010010, 0, 0, 0, 0, 0x500000000]
def descOf : EKind → List Byte
  | .sscan => dsc [0x0000020000000100, 0x0000040000000300, 0x0000060000000500, 0x700, 0, 0, 0x0001020200000001, 0]
  | .cpy => cpyD
  | .cpyr => cpyD ++ dsc [0, 0, 0, 0, 0, 0, 0, 0]
  | .mcast => dsc [0x40, 0x80, 0x40, 0x800000000001, 0, 0, 0, 0]
  | .gath | .scat => dsc [0x100, 0x200, 0x300, 1, 0, 0, 0, 0]
  | .coll => dsc [0x1000, 0x2000, 1, 0, 0, 0x201, 0, 0]
  | .gnode => dsc [4, 0, 0, 0, 0, 0, 0, 0]
def engS (k : EKind) : State := bytesAt0 0x400 (descOf k) (withS [(3, 0x400)] s0)
theorem witness_EngineIssue : ∀ k ∈ [EKind.sscan, .cpy, .cpyr, .mcast, .gath, .scat, .coll, .gnode],
    guardOn (engS k) .always = true ∧ engTrap k ⟨.always, ⟨3, 0⟩, 1⟩ (engS k) = none ∧
    (∀ o, o < descSize k → mapOfOff (engS k).core.maps ((eaM (engS k) ⟨3, 0⟩ 64).toNat + o) = none) ∧
    engTrap k ⟨.always, ⟨3, 1⟩, 1⟩ (withS [(3, 0x401)] s0) = some ⟨8, 0x441, false⟩ := by decide +kernel
/-! ## States that meet the statements' hypotheses: events of a core, of a region, of slices and engines -/

/-- A core that may issue the bundle `b`, and has token 2 pending. -/
def withBundle (b : BundleBits) : State := (placeBundle b (readyCore s0)).mapCore fun c => { c with pend := [{ loadP with tok := 2 }] }
def fetchOf (s : State) : BundleBits := match fetch s with
  | (.ok b, _) => b
  | _ => 0
/-- A header that awaits token 2; a header of class 01 with scope 5; an empty bundle. -/
def headers : List BundleBits := [BitVec.ofNat 512 (4 <<< 50), BitVec.ofNat 512 0x5400000000000000, 0]
theorem witness_BundleIssueResults (b : BundleBits) : let v := focus 0 (withBundle b)
    midBundle v = false ∧ issueBlocked v = false ∧ overrun v.core = false ∧ regionOpen v.core = false ∧
    v.core.feed = [] := ⟨rfl, rfl, rfl, rfl, rfl⟩
theorem witness_BundleIssueResults_class1 : (fetch (withBundle (BitVec.ofNat 512 0x5400000000000000))).1 = .ok 0x5400000000000000#512 := by
  decide +kernel
theorem witness_BundleIssueResults_awaits : (fetch (withBundle (BitVec.ofNat 512 (4 <<< 50)))).1 = .ok (BitVec.ofNat 512 (4 <<< 50)) := by
  decide +kernel
theorem witness_BundleIssueResults_empty : (fetch (withBundle 0)).1 = .ok 0#512 := by decide +kernel
theorem witness_BundleIssueResults_then : awaited (withBundle 0) (BitVec.ofNat 512 (4 <<< 50)) = [2] ∧
    awaited (withBundle 0) (BitVec.ofNat 512 0x5400000000000000) = [] ∧ renamed (withBundle 0) (BitVec.ofNat 512 0x5400000000000000) = [] ∧
    checks (withBundle 0) (BitVec.ofNat 512 0x5400000000000000) = .error ⟨8, 1, 0x5400000000000000⟩ ∧
    fetchCheck (placed.mapCore fun c => { c with ktt := [] }) 0 = .error 5 ∧ (checks (withBundle 0) 0 = .ok [] ∧
    afterChecks 0 [] (withBundle 0) = startBundle [] (withBundle 0)) := by decide +kernel
/-- A bundle whose home is another package, with every port down. -/
def farS : State := { placed.mapCore fun c => { c with ktt := [{ bareEntry with hkind := 1, home := 7, x := true }] } with ports := 0 }
theorem witness_BundleIssueResults_waits : fetchWaits farS = true ∧ fetchWaits (withBundle 0) = false := by decide +kernel
def ringF (d : FDest) : Flight := ⟨5, d, 0x3F800000, BitVec.allOnes 32, 0, 0, false, false⟩
def qIn1 : State := bytesAt0 0x2000 [9] (qS ⟨true, qdesc false, 0, [], []⟩)
def qOut1 : State := qS ⟨true, qdesc true, 1, [], [⟨0, 0x2000, some 5⟩]⟩
def dirty1 : State := g0.mapCore fun c => { c with
    lines := [⟨0x40, 5, 3, 1, 0, none⟩]
    fills := [⟨0x40, none, false, false, none⟩]
    flights := [⟨3, .stash (.sunmap 0x7F000), 0, 0, 0, 1, false, false⟩]
    maps := [⟨0x7F000, 0x5000, 0x5000, 12, true, none⟩]
    stall := some .stashMiss }
theorem witness_CoreEventResults_rings : ∀ d ∈ [FDest.ringPush 3, .ringClear 3],
    (s0.mapCore fun c => { c with flights := [ringF d] }).core.flights.filter (fun f => f.left == 0 && isRing f) = [ringF d] := by decide +kernel
theorem witness_CoreEventResults_streams : canFetch (focus 0 qIn1) 0 = true ∧ canFetch (focus 0 qOut1) 0 = false ∧
    qLevel (getQ qIn1 0).desc = 0 ∧ (getQ (focus 0 qOut1) 0).outq = ⟨0, 0x2000, some 5⟩ :: [] ∧ Mem.wf qOut1.spad = true ∧
    (∀ k, k < qElemBytes (getQ qOut1 0).desc → mapOfOff qOut1.core.maps (0x2000 + k) = none) := by decide +kernel
theorem witness_CoreEventResults_lines : (focus 0 dirty1).core.fills.find? (fun f => f.key == 0x40) = some ⟨0x40, none, false, false, none⟩ ∧
    unperformed (focus 0 dirty1).core 0x40 = false ∧ homeErr (focus 0 dirty1) 0x40 = none ∧ leased 0x40 = false ∧
    (focus 0 dirty1).core.stall = some .stashMiss ∧ lineFind (focus 0 dirty1).core 0x40 = some ⟨0x40, 5, 3, 1, 0, none⟩ ∧
    reach (focus 0 dirty1) 0 0x40 = true ∧ hasRoom (focus 0 dirty1).core 1 ∧
    ((focus 0 dirty1).l2.filter fun x => x.cluster == 0).length < l2Lines ∧
    (∀ f ∈ (focus 0 dirty1).core.fills, mapOfKey dirty1.core.maps f.key = none) ∧
    mapOfKey dirty1.core.maps 0x40 = none ∧ mapOfKey dirty1.core.maps (0x5FC0 / 64) ≠ none ∧
    mapOfOff dirty1.core.maps 0x7F000 = some ⟨0x7F000, 0x5000, 0x5000, 12, true, none⟩ := by unfold hasRoom; decide +kernel
/-- R160, R143, R306: what the events do. -/
theorem test_core_events : after (exec (.ringPushEffect 0) (s0.mapCore fun c => { c with flights := [ringF (.ringPush 3)] }))
      (fun t => (t.core.a.rings.get 3).entries.get 0 == 0x3F800000 && (t.core.a.rings.get 3).fill == 1) = true ∧
    after (exec (.streamFetch 0 0) qIn1) (fun t => (getQ t 0).inq == [⟨0, 9, none, 0⟩]) = true ∧
    after (exec (.streamWrite 0 0) qOut1) (fun t => t.spad == [(0x2000, 5)] && (getQ t 0).outq == []) = true ∧
    after (exec (.lineFillComplete 0 0x40) { dirty1 with home := [(0x1002, 8)] })
      (fun t => lineView t.core 0x1000 == some (5, true) && lineView t.core 0x1002 == some (8, false) && t.core.fills == []) = true ∧
    after (exec (.coreWriteback 0 0x40 true) dirty1) (fun t => lineView t.core 0x1000 == none && t.l2.map (·.marks) == [1]) = true := by
  decide +kernel
/-! ## Regions -/

def rgnS (st : RState) (h : List Held) : State := (inRgn s0).mapRgn fun r => { r with st := st, held := h }
def heldS : List Held := [.store [(.spad 4, 1), (.spad 5, 2)] false none, .store [(.spad 4, 3)] false (some 2)]
def endedB (k : Nat) (l : BitVec 32) : Outcome1 := .ended true 0 k 7 l
theorem witness_RegionEventResults : gangCores (focus 0 (rgnS .opened [])) = [(focus 0 (rgnS .opened [])).core.id] ∧
    (∀ c ∈ [(1 : Fin 16), 8], 1 ≤ c.val ∧ c.val ≤ 8) ∧ (rgnS .opened []).core.rgn.st = .opened ∧ s0.core.rgn.st = .closed ∧
    2048 ≤ ((rgnS .opened []).mapRgn fun r => { r with steps := 2048 }).core.rgn.steps ∧ (rgnS .opened []).core.rgn.steps < 2048 ∧
    curTask (focus 0 (rgnS .draining heldS)) = none ∧ (focus 0 (rgnS .draining heldS)).core.rgn.st = .draining ∧
    (∀ h ∈ heldS, ∃ b g tok, h = .store b g tok ∧ ∀ z ∈ b, ∃ a, z.1 = .spad a) ∧
    (rgnS .rerunA []).core.rgn.outA = none ∧ (rgnS (.unwinding thenPoison) []).core.rgn.shadow = some s0.core.a ∧
    (rgnS (.unwinding thenRerunA) []).core.landDue = false ∧ ((rgnS (.unwinding thenRerunA) []).core.pend.any fun p => p.rgn) = false := by
  refine ⟨rfl, by decide, rfl, rfl, by decide +kernel, by decide +kernel, rfl, rfl, ?_, rfl, rfl, rfl, rfl⟩
  intro h hh
  rcases List.mem_cons.mp hh with rfl | hh
  · exact ⟨_, _, _, rfl, fun z hz => by simp only [List.mem_cons, List.not_mem_nil, or_false] at hz; rcases hz with rfl | rfl <;> exact ⟨_, rfl⟩⟩
  · rw [List.mem_singleton.mp hh]
    exact ⟨_, _, _, rfl, fun z hz => by rw [List.mem_singleton.mp hz]; exact ⟨_, rfl⟩⟩
theorem witness_RegionEventResults_drain : hClass (headerOf (focus 0 (rgnS .draining heldS)).core.bundle) ≠ 1 ∧
    Mem.wf (focus 0 (rgnS .draining heldS)).spad = true ∧ (rgnS .rerunB []).core.rgn.outB = none := by decide +kernel
/-- The rows of R395: equal ends by COMMIT and by rollback, equal errors, loads that differ, ends that differ, errors that
differ, an end and an error. -/
theorem witness_RegionEventResults_reruns : endedB 3 9 = .ended true 0 3 7 9 ∧ endedB 3 9 ≠ endedB 3 8 ∧ endedB 3 9 ≠ endedB 4 9 ∧
    Outcome1.error 3 (some 0x40) ≠ .error 4 (some 0x40) ∧ Outcome1.ended false 1 3 7 9 ≠ endedB 3 9 ∧ (9 : BitVec 32) ≠ 8 ∧
    (true, 0, 3, (7 : BitVec 32)) ≠ (true, 0, 4, (7 : BitVec 32)) := by decide +kernel
def rerunS (x y : Outcome1) : State := (rgnS .rerunB []).mapRgn fun r => { r with outA := some x, outB := some y }
def stOf (i : Instr) (s : State) : Option RState := match exec i s with
  | .next t => some t.core.rgn.st
  | _ => none
/-- R381 and R395. -/
theorem test_region_events : after (exec (.commitDrainComplete 0) (rgnS .draining heldS))
      (fun t => t.spad == [(4, 3), (5, 2)] && t.core.rgn.st == .closed) = true ∧
    stOf (.rerunOutcome 0) (rerunS (endedB 3 9) (endedB 3 9)) = some .draining ∧
    stOf (.rerunOutcome 0) (rerunS (endedB 3 9) (endedB 3 8)) = some (.unwinding 8) ∧
    stOf (.rerunOutcome 0) (rerunS (endedB 3 9) (endedB 4 9)) = some (.unwinding thenRetire) ∧
    stOf (.rerunOutcome 0) (rerunS (.error 3 (some 0x40)) (.error 3 (some 0x40))) = some (.unwinding thenPoison) ∧
    stOf (.rerunOutcome 0) (rerunS (.error 3 none) (.error 3 none)) = some (.unwinding thenRetire) ∧
    stOf (.rerunOutcome 0) (rerunS (endedB 3 9) (.error 3 none)) = some (.unwinding thenRetire) ∧
    stOf (.uncorrectableError 0 none 3) (rgnS .opened []) = some (.unwinding thenRerunA) := by decide +kernel
/-! ## Slices -/

def ord1 : OrdReq := ⟨0, 0, 0, 3, none⟩
def ord2 : OrdReq := ⟨1, 0, 0, 4, none⟩
def ordP : PendOp := ⟨0, 1, .ordAtomic .add .d 5 1 0 .die 0x1038 none, 0x1038, 3, 0, false, none⟩
/-- At step 8, with a slice that has worked on the ends of the steps below `e`. -/
def ordS (e : Nat) (buf refused tried : List OrdReq) : State :=
  { pendS [ordP] with ords := [⟨5, buf, refused, tried, e, [], 0, 0⟩], ordSent := [⟨5, ord1⟩], tick := 8192 }
theorem witness_OrderedAtomicResults : stepOf (ordS 8 [] [] []) (sliceDie 5) ≤ (sliceGet (ordS 8 [] [] []) 5).ended ∧
    ((ordS 8 [] [] []).ordSent.filter fun y => y.slice == 5)[0]? = some ⟨5, ord1⟩ ∧ admits (sliceGet (ordS 8 [] [] []) 5) ord1 = true ∧
    (sliceGet (ordS 8 [] [ord1] []) 5).refused[0]? = some ord1 ∧ ord1 ∉ (sliceGet (ordS 8 [] [ord1] []) 5).tried ∧
    ord1 ∈ (sliceGet (ordS 8 [] [ord1] [ord1]) 5).tried ∧
    (∀ y ∈ (sliceGet (ordS 8 [] [ord1] []) 5).refused.take 0, y.core = ord1.core → y ∈ (sliceGet (ordS 8 [] [ord1] []) 5).tried) ∧
    (sliceGet (ordS 7 [] [] []) 5).ended < stepOf (ordS 7 [] [] []) (sliceDie 5) ∧
    pickOrd (ordS 7 [] [] []) (sliceGet (ordS 7 [] [] []) 5) (stepOf (ordS 7 [] [] []) (sliceDie 5) - 1) = none := by decide +kernel
theorem witness_OrderedAtomicResults_apply : let s := ordS 7 [ord1] [] []
    isNext (sliceGet s 5) ord1 = true ∧ ordWaits s ord1 = false ∧ ord1.step.toNat + 1 ≤ stepOf s (sliceDie 5) - 1 ∧
    isNext (sliceGet s 5) ord2 = true ∧ ordWaits s ord2 = false ∧ ord2.step.toNat + 1 ≤ 8 ∧
    ordBefore ord1 ord2 = true ∧ ordBefore ord2 ord1 = false ∧ ord1.far = none ∧
    (coreOf s 0).pend.find? (fun p => p.seq == 0) = some ordP ∧ (coreOf s 0).young = [] ∧ hasRoom (coreOf s 0) 0 ∧
    (∀ q ∈ (coreOf s 0).pend, q.seq ≠ ordP.seq → atomKey q ≠ some (lineKey 0x1038) ∧ waitsFor (lineKey 0x1038) q = false) ∧
    lineFind (coreOf s 0) (lineKey 0x1038) = none ∧ homeErr s (lineKey 0x1038) = none ∧ Mem.wf s.home = true := by
  unfold hasRoom; decide +kernel
/-- R196: with 32 flows of one atomic each a new flow is refused. -/
theorem witness_OrderedAtomicResults_refused :
    admits ⟨5, (List.range 32).map fun k => ⟨k + 1, 0, 0, 3, none⟩, [], [], 8, [], 0, 0⟩ ord1 = false := by decide +kernel
theorem test_ordered_apply : after (exec (.orderedAtomicApply 5) (ordS 7 [ord1] [] []))
    (fun t => t.home == [(0x1038, 1)] && nextOf (sliceGet t 5) 0 == 1 && (sliceGet t 5).buf == []) = true := by decide +kernel
/-! ## States that meet the statements' hypotheses: commands, launches, tasks -/

def kinds : List EKind := [.cpy, .gnode, .sscan, .coll]
def cmd0 (k : EKind) : EngCmd where
  id := 3
  kind := k
  core := some 0
  cluster := 0
  task := some 0
  node := none
  ea := 0x400
  desc := descOf k
  sub := 0
  items := 1
  doneItems := []
  failCause := none
  started := false
  held := false
  sig := 0
  flags := 0
  bytes := 0
  ssu := if k = .sscan then some 0 else none
  kexp := none
  ssthr := 4
  ktt := [bareEntry]
  seq := 0
  wsig := 0
  fullinv := false
  behind := []
def node0 (kind : Nat) (st : NState) (work : Nat) (succ : List Nat) (k1 : Word) : Node where
  rcb := 0
  addr := 0x200
  kind := kind
  succ := succ
  work := work
  ncw := 0
  k := (Vector.replicate 5 0).set 0 (if kind = 5 then 0x4000 else 0) |>.set 1 k1
  st := st
  status := 0
  acq := 1
  sig := 2
  bound := 0
  ended := 0
  faulted := none
  gnode := none
  heldReady := false
  readyTick := 0
  bytes := 0
def rcb0 : Rcb := ⟨0x100, none, none, none, none, 5, 7, 0x3000, 0, 0, false⟩
def launch0 (nodes : List Node) : Launch where
  id := 0
  die := 0
  cw := 0x5000
  args := 0x77
  prio := 5
  fdom := 7
  cmask := 1
  gsize := 0
  gskew := 0
  det := false
  rcbs := [rcb0]
  nodes := nodes
  done := 0
  fails := 0
  total := nodes.length
  retired := false
/-- A launch with a table at 0x3000 that maps [0, 2^32) onto itself with every permission. -/
def world (nodes : List Node) (cells : List Host.Cell) : State :=
  { s0 with launches := [launch0 nodes], launchNext := 1, home := [(0x3030, 0xA0), (0x3031, 0x03)] ++ cells }
def engW (k : EKind) (f : EngCmd → EngCmd) : State := { tasked (world [node0 0 .running 0 [] 0] []) with cmds := [f (cmd0 k)] }
theorem witness_EngineCommandResults_starts : ∀ k ∈ kinds, cmdFind (engW k id) 3 = some (cmd0 k) ∧ (cmd0 k).started = false ∧
    (cmd0 k).held = false ∧ cmdStopped (engW k id) (cmd0 k) = false ∧ cmdFenced (engW k id) (cmd0 k) = false ∧
    cmdOrphan (engW k id) (cmd0 k) = false ∧ cmdParked (engW k id) (cmd0 k) = false ∧ placeFree (engW k id) (cmd0 k) = true ∧
    cmdFirst (engW k id) (cmd0 k) = true ∧ flagCheck (cmd0 k) = none ∧ (cmd0 k).task.bind (taskFind (engW k id)) = some task0 ∧
    launchFind (engW k id) task0.launch = some (launch0 [node0 0 .running 0 [] 0]) ∧
    taskNode (engW k id) task0 = some (node0 0 .running 0 [] 0) ∧ openGnodes (launch0 [node0 0 .running 0 [] 0]) < 256 := by decide +kernel
/-- Its task has ended before it started. -/
def orphanS : State := { engW .cpy id with tasks := [{ task0 with st := .ended }] }
theorem witness_EngineCommandResults_orphan : cmdFind orphanS 3 = some (cmd0 .cpy) ∧ cmdOrphan orphanS (cmd0 .cpy) = true := by decide +kernel
theorem witness_EngineCommandResults_held : cmdFind (engW .cpy fun c => { c with held := true }) 3 = some { cmd0 .cpy with held := true } := by
  decide +kernel
def begun (k : EKind) : EngCmd := { cmd0 k with started := true }
theorem witness_EngineCommandResults_copies : cmdFind (engW .cpy fun _ => begun .cpy) 3 = some (begun .cpy) ∧
    (coreOf (engW .cpy fun _ => begun .cpy) 0).maps = [] ∧ dSspc cpyD = 1 ∧ dDspc cpyD = 1 ∧ dSty cpyD = 0 ∧ dTt cpyD = 0 ∧ cExt cpyD 0 = 16 ∧
    cExt cpyD 1 = 1 ∧ cExt cpyD 2 = 1 ∧ cExt cpyD 3 = 1 ∧ dEcw cpyD = 0 ∧ cSrc cpyD + 16 ≤ 0x80000 ∧ cDst cpyD + 16 ≤ 0x80000 ∧
    cSrc cpyD + 16 ≤ cDst cpyD ∧ Mem.wf (engW .cpy fun _ => begun .cpy).spad = true ∧ isItem .cpy cpyD 1 = false ∧
    hasRoom (engW .cpy fun _ => begun .cpy).core 0 := by unfold hasRoom; decide +kernel
theorem test_copy_item : after (exec (.engineItemComplete 3 0) { (engW .cpy fun _ => begun .cpy) with spad := [(0x101, 7)] })
    (fun t => t.spad == [(0x101, 7), (0x201, 7)] && (cmdFind t 3).map (·.bytes) == some 16) = true := by decide +kernel
theorem witness_ScanAndCollectiveResults_scan : cmdFind (engW .sscan fun _ => begun .sscan) 3 = some (begun .sscan) ∧
    scanTurn (engW .sscan fun _ => begun .sscan) (begun .sscan) = true ∧ sScw (begun .sscan).desc = 0 ∧
    itemRefused (engW .sscan fun _ => begun .sscan) (begun .sscan) = false ∧
    (scanJob (begun .sscan) (Job.on (engW .sscan fun _ => begun .sscan))).waits = none ∧
    (scanJob (begun .sscan) (Job.on (engW .sscan fun _ => begun .sscan))).held = none ∧
    (cmdFind (scanJob (begun .sscan) (Job.on (engW .sscan fun _ => begun .sscan))).s 3).isSome = true := by decide +kernel
def collS : State := engW .coll fun _ => { begun .coll with desc := dsc [0x1000, 0x2000, 1, 0x6000, 0, 0x201, 0, 0] }
def collC : EngCmd := { begun .coll with desc := dsc [0x1000, 0x2000, 1, 0x6000, 0, 0x201, 0, 0] }
theorem witness_ScanAndCollectiveResults_coll : cmdFind collS 3 = some collC ∧ dEcw collC.desc = 0 ∧ collKind collC.desc = 1 ∧
    collType collC.desc = 2 ∧ collCount collC.desc = 1 ∧ collArray collS collC = .ok [collId collS collC] ∧
    (∀ x ∈ collS.cmds, x.kind = .coll → x.id = 3) ∧ checkGlob collC.ktt (dW collC.desc 0 : Nat) 4 4 .rd = .ok bareEntry ∧
    checkGlob collC.ktt (dW collC.desc 8 : Nat) 4 4 .wr = .ok bareEntry ∧ kttKey bareEntry (dW collC.desc 0) % 4 = 0 ∧
    kttKey bareEntry (dW collC.desc 8) % 4 = 0 ∧ reach collS 0 (lineKey (kttKey bareEntry (dW collC.desc 0))) = true ∧
    reach collS 0 (lineKey (kttKey bareEntry (dW collC.desc 8))) = true ∧
    homeErr collS (lineKey (kttKey bareEntry (dW collC.desc 0))) = none ∧ collS.l2 = [] ∧ collS.dir = [] ∧ Mem.wf collS.home = true ∧
    (∀ l ∈ [[(5 : Nat)]], l.length = collCount collC.desc) := by decide +kernel
/-- A scan's step with finite values. -/
theorem witness_ScanAndCollectiveResults_step : (f32v (matAt [[0x3F800000]] 0 0)).finite = true ∧
    (vecAt [decodeF bf16F 0x3F80] 0).finite = true ∧ (decodeF f32F 0x40000000).finite = true := by decide +kernel
theorem test_coll_item : after (exec (.collComplete ⟨3, []⟩) { collS with home := [(0x1000, 5), (0x1001, 6)] })
    (fun t => Mem.get t.home 0x2001 == 6 && (cmdFind t 3).map (·.doneItems) == some [0]) = true := by decide +kernel
/-- A fired line at queue 0 of die 0, with its number right, wrong, and its record refused; the record's RCB at 0x80. -/
def fired (seq : Byte) (cmask : Byte) : State :=
  dieUpd { s0 with home := [(0x99, 0x30), (0xA4, 0x20), (0x3030, 0xA0), (0x3031, 0x03)] } 0 fun d =>
    queueUpd { d with window := Mem.putBytes [] 0 (dsc [0x80, 0, 0x4000] ++ [0, 0, 0, 0, 0, 0, cmask] ++ List.replicate 32 0 ++ [seq]) } 0
      fun q => { q with fired := true }
theorem witness_LaunchAndGraphResults_dispatch : nextQueue (dieGet s0 0) = none ∧ (∀ b ∈ [0x80, 0x81], nextQueue (dieGet (fired b 1) 0) = some 0) ∧
    vseqOf (dieGet (fired 0x81 1) 0) 0 % 128 ≠ 0 ∧ vseqOf (dieGet (fired 0x80 1) 0) 0 % 128 = 0 ∧ Mem.wf (fired 0x80 0).home = true ∧
    (readLaunch (fired 0x80 1) 0 (Mem.getBytes (dieGet (fired 0x80 1) 0).window (lineAt 0 0) 64)).map (fun l => (l.total, l.cw)) = some (0, 0x4000) ∧
    readLaunch (fired 0x80 0) 0 (Mem.getBytes (dieGet (fired 0x80 0) 0).window (lineAt 0 0) 64) = none ∧
    cwBad (Mem.getBytes (dieGet (fired 0x80 0) 0).window (lineAt 0 0) 64) = false ∧ cwBad (List.replicate 16 0 ++ [1, 0, 0, 0, 0, 0, 0, 0]) = true := by decide +kernel
/-- R48, R23, R20. -/
theorem test_dispatch : after (exec (.launchDispatch 0) (fired 0x80 1)) (fun t => t.launches.map (·.retired) == [true] && homeWord t 0x4000 == 0x8000000000000000) = true ∧
    after (exec (.launchDispatch 0) (fired 0x80 0)) (fun t => homeWord t 0x4000 == 0x8011000100000000) = true ∧
    after (exec (.launchDispatch 0) (fired 0x81 1)) (fun t => (dieGet t 0).gecko.map (·.cause) == [0x80]) = true := by decide +kernel
def pairN (kind : Nat) (st : NState) (k1 : Word) : List Node := [node0 kind st 0 [1] k1, node0 4 .blocked 1 [] 0]
def waitN (k1 : Word) (cells : List Host.Cell) : State := world [node0 5 .ready 0 [] k1] cells
theorem witness_LaunchAndGraphResults_nodes : launchFind (world (pairN 4 .ready 0) []) 0 = some (launch0 (pairN 4 .ready 0)) ∧
    (pairN 4 .ready 0)[0]? = some (node0 4 .ready 0 [1] 0) ∧ nodeOver (node0 4 .ready 0 [1] 0) = false ∧
    nodeDone (world (pairN 4 .ready 0) []) 0 0 (node0 4 .ready 0 [1] 0) = true ∧ (1 : Nat) ≠ 0 ∧
    (pairN 4 .ready 0)[1]? = some (node0 4 .blocked 1 [] 0) ∧ nodeDone (world (pairN 4 .blocked 0) []) 0 0 (node0 4 .blocked 0 [1] 0) = false ∧
    nodeQuiet (world [{ node0 4 .ready 0 [] 0 with faulted := some 0x11 }] []) 0 0 { node0 4 .ready 0 [] 0 with faulted := some 0x11 } = true := by
  decide +kernel
theorem witness_LaunchAndGraphResults_waits :
    waitSees (waitN 1 [(0x4000, 1)]) (kttLoad (waitN 1 [(0x4000, 1)]) 0x3000) (node0 5 .ready 0 [] 1) = .yes ∧
    waitSees (waitN 2 [(0x4000, 1)]) (kttLoad (waitN 2 [(0x4000, 1)]) 0x3000) (node0 5 .ready 0 [] 2) = .no ∧
    waitSees (waitN 1 [(0x4004, 1), (0x4006, 9)]) (kttLoad (waitN 1 [(0x4004, 1), (0x4006, 9)]) 0x3000) (node0 5 .ready 0 [] 1) = .fails 9 ∧
    waitSees (waitN 1 []) [{ bareEntry with absent := true }] (node0 5 .ready 0 [] 1) = .absent ∧ (node0 5 .ready 0 [] 1).bytes = 0 := by
  decide +kernel
theorem test_nodes : after (exec (.nodeComplete 0 0) (world (pairN 4 .ready 0) [])) (fun t => match launchFind t 0 with
      | some l => l.done == 1 && l.nodes.map (·.st) == [.complete, .ready] && l.nodes.map (·.acq) == [1, 3]
      | none => false) = true ∧
    after (exec (.waitNodeSatisfied 0 0) (waitN 1 [(0x4000, 1)])) (fun t => (launchFind t 0).map (·.retired) == some true) = true := by decide +kernel
/-! ## States that meet the statements' hypotheses: tasks -/

/-- A launch of one range of one task that is ready, and one save slot of die 0. -/
def bindS : State := dieUpd (world [node0 0 .ready 0 [] 0] []) 0 fun d => { d with dsave := 0x800001 }
theorem witness_TaskEventResults_binds : coreFree bindS 0 = true ∧ coreFree bindS 48 = false ∧ candOfFree s0 0 = none ∧
    (candOfFree bindS 0).map (fun c => (c.1.members, c.1.size, c.1.launch, c.1.node, c.2)) = some ([], 1, 0, 0, [0]) ∧
    launchFind bindS 0 = some (launch0 [node0 0 .ready 0 [] 0]) ∧
    (coreOf s0 0).promise = none ∧
    imageRefused bindS (node0 0 .ready 0 [] 0) = false ∧
    imageRefused { bindS with images := [⟨0, 64, 4, 0x40⟩] } (node0 0 .ready 0 [] 0) = true ∧
    (nodeKtt (launch0 [node0 0 .ready 0 [] 0]) (node0 0 .ready 0 [] 0) < 2 ^ 56 ∧
      nodeKtt (launch0 [node0 0 .ready 0 [] 0]) (node0 0 .ready 0 [] 0) % 4096 = 0) := by decide +kernel
/-- R40. -/
theorem test_bind : after (exec (.taskBind 0) bindS) (fun t => t.core.task == some 0 && getS t.core.a 1 == 0x77 && t.core.claim == 65536 &&
    t.core.sp.wsig == 1 && (taskFind t 0).map (·.slot) == some (some 0)) = true := by decide +kernel
/-- A task that is to leave its core, each way. -/
def leaving (why : SaveWhy) : State :=
  { (world [node0 0 .running 0 [] 0] []).mapCore (fun c => { c with task := some 0 }) with tasks := [{ task0 with stopReq := some why }] }
theorem witness_TaskEventResults_saves : ∀ why ∈ [SaveWhy.yield, .wait, .preempt, .overrun, .debug, .step 0x0F, .fault 0x15, .domain, .page, .budget],
    curTask (focus 0 (leaving why)) = some { task0 with stopReq := some why } ∧ canSave (focus 0 (leaving why)) = true ∧
    gangLevel (focus 0 (leaving why)) { task0 with stopReq := some why } = true ∧ (leaving why).cmds = [] := by decide +kernel
def sv0 : Saved := savedOf .wait (withS [(7, 9)] s0)
def savedT (st : TState) (core : Option Nat) : Task := { task0 with st := st, core := core, saved := some sv0 }
def restS : State :=
  { (world [node0 0 .running 0 [] 0] []).mapCore (fun c => { c with task := some 0 }) with tasks := [savedT .running (some 0)] }
theorem witness_TaskEventResults_restores : taskFind (focus 0 restS) 0 = some (savedT .running (some 0)) ∧
    (focus 0 restS).core.task = some (savedT .running (some 0)).id ∧ (savedT .running (some 0)).core = some 0 ∧ sv0.joins = [] ∧ restS.cmds = [] := by decide +kernel
theorem test_save_restore : after (exec (.taskSave 0 .wait) (withS [(7, 9)] (leaving .wait)))
      (fun t => t.core.task == none && ((taskFind t 0).bind (·.saved)).map (fun v => getS v.a 7) == some 9 && (taskFind t 0).map (·.st) == some .waiting) = true ∧
    after (exec (.taskRestore 0 0) restS) (fun t => getS t.core.a 7 == 9 && (taskFind t 0).map (·.saved) == some none) = true := by decide +kernel
def outC : EngCmd := { begun .cpy with doneItems := [0] }
def outV : Saved := { sv0 with pend := [⟨0, 1, .engine 3, 0x400, 3, 0, false, none⟩] }
def outT : Task := { task0 with st := .ready, core := none, saved := some outV }
def outS : State := { (world [node0 0 .running 0 [] 0] []) with tasks := [outT], cmds := [outC] }
theorem witness_TaskEventResults_joins : cmdFind outS 3 = some outC ∧ outC.task.bind (taskFind outS) = some outT ∧ outT.saved = some outV ∧
    outT.core = none ∧ outT.st ≠ .ended ∧ cmdDone outC = true ∧ (outV.pend.any fun p => p.kind == .engine 3) = true ∧
    launchFind outS outT.launch = some (launch0 [node0 0 .running 0 [] 0]) ∧
    (∀ q ∈ (launch0 [node0 0 .running 0 [] 0]).rcbs, q.steps = none ∧ q.bytes = none) := by decide +kernel
def waitT (target : BitVec 32) : Task := { savedT .waiting none with wait := some (.cw 0x4000 target .system) }
def waitS (target : BitVec 32) : State := { (world [node0 0 .running 0 [] 0] [(0x4000, 5)]) with tasks := [waitT target] }
theorem witness_TaskEventResults_waits : taskFind (waitS 5) 0 = some (waitT 5) ∧ (waitT 5).st = .waiting ∧
    waitSeen (waitS 5) (waitT 5) (.cw 0x4000 5 .system) = true ∧ waitSeen (waitS 6) (waitT 6) (.cw 0x4000 6 .system) = false := by decide +kernel
theorem witness_TaskEventResults_ready : ∀ x ∈ (waitS 5).tasks, x.gang = (waitT 5).gang → x.st = .waiting →
    ∀ w, x.wait = some w → waitSeen (waitS 5) x w = true := by
  intro x hx _ _ w hw
  obtain rfl := List.mem_singleton.mp hx
  obtain rfl := Option.some.inj hw
  decide +kernel
/-- Every core of cluster 0 busy with a task of priority 5, and a range of priority 15 ready. -/
def busy : State :=
  let s := dieUpd (world [node0 0 .running 0 [] 0, { node0 0 .ready 0 [] 0 with rcb := 1 }] []) 0 fun d => { d with dsave := 0x800001 }
  { s with
    core := { s.core with task := some 0 }
    others := (List.range 47).map fun k => { Core.reset (k + 1) with disabled := true }
    launches := s.launches.map fun l => { l with rcbs := [rcb0, { rcb0 with prio := 15 }] }
    tasks := [task0], taskNext := 1 }
theorem witness_TaskEventResults_preempts : busy.taskNext ≤ 1 ∧ ((fresh15 busy)[1 - busy.taskNext]?).isSome = true ∧
    ((fresh15 busy)[0]?).all (fun c => c.members == [] && c.size == 1 && c.launch == 0 && c.node == 1) = true ∧
    ((launchFind busy 0).bind fun l => ((fresh15 busy)[0]?).bind fun c => preemptCores busy l c) = some [0] ∧
    ((launchFind busy 0).bind fun l => l.nodes[1]?.map fun n => roomFor busy l n.rcb 1 (occupants busy [0])) = some true ∧
    (dieGet busy 0).slots.length + 1 ≤ slotCount busy 0 ∧
    (coreOf busy 0).task.bind (taskFind busy) = some task0 ∧ task0.stopReq = none := by decide +kernel
def late (n : Nat) : State := (tasked s0).mapCore fun c => { c with claim := 16, sinceYield := n }
theorem witness_TaskEventResults_overruns : ∀ n ∈ [1039, 1040], curTask (focus 0 (late n)) = some task0 ∧ regionOpen (focus 0 (late n)).core = false ∧
    gangCores (focus 0 (late n)) = [0] ∧ overrun (focus 0 (late n)).core = decide (n = 1040) := by decide +kernel
/-! ## States that meet the statements' hypotheses: firmware, measurement, homes, links, resets -/

def stopT : Task := { task0 with st := .stopped, core := none, domStop := true, slot := some 2 }
def stopS (t : Task) : State := { (world [node0 0 .running 0 [] 0] []) with tasks := [t], stopped := [⟨0, 7, 0x15⟩] }
theorem witness_FirmwareControlResults_domains : domStopped (stopS stopT) 0 (7 : BitVec 12).toNat = true ∧
    domStopped (stopS stopT) 0 (8 : BitVec 12).toNat = false ∧ stopT ∈ (stopS stopT).tasks ∧
    (∀ y ∈ (stopS stopT).tasks, y.id = stopT.id → y = stopT) ∧ ((taskRcb (stopS stopT) stopT).map (·.stopped)).getD false = false ∧
    taskDom (stopS stopT) stopT = (0, (7 : BitVec 12).toNat) ∧ stopT.st = .stopped := by decide +kernel
theorem witness_FirmwareControlResults_debug : ∀ t ∈ [{ task0 with slot := some 2 }, { stopT with domStop := false }],
    let s : State := { stopS t with stopped := [] }
    slotTask s 0 2 = some t ∧ t ∈ s.tasks ∧ (∀ y ∈ s.tasks, y.id = t.id → y = t) ∧
    (t.st = .running ∧ t.stopReq = none ∨ t.st = .stopped ∧ domStopped s (taskDom s t).1 (taskDom s t).2 = false ∧
      ((taskRcb s t).map (·.stopped)).getD false = false) := by
  decide +kernel
/-- One good entry at 0x4000, a table whose count is too large at 0x4400. -/
def dmrtS (w : Word) : State := dieUpd { s0 with home := [(0x4000, 1), (0x4060, 2), (0x4062, 1), (0x4400, 65)] } 0 fun d =>
  { d with dmrtHeld := some w, dcfgHeld := some 0x0000000A00101400 }
theorem witness_FirmwareControlResults_tables : (dieGet (dmrtS 0x4000) 0).dmrtHeld = some 0x4000 ∧ (dieGet (dmrtS 0) 0).dcfgHeld = some 0x0000000A00101400 ∧
    dieIdle (dmrtS 0) 0 = true ∧ dieIdle { dmrtS 0 with launches := [launch0 []] } 0 = false ∧
    ((homeBytesGet (dmrtS 0x4000) 0x4000 64).headD 0).toNat = 1 ∧ dZero (homeBytesGet (dmrtS 0x4000) 0x4000 64) 1 63 = true ∧
    mrBad (mrEntBytes (homeBytesGet (dmrtS 0x4000) 0x4000 160) 0) = false ∧
    64 < ((homeBytesGet (dmrtS 0x4400) 0x4400 64).headD 0).toNat := by decide +kernel
theorem witness_FirmwareControlResults_dome : (dieGet s0 0).ddome.getLsbD 63 = false ∧ (0x4000000000000003 : Word).getLsbD 62 = true ∧
    (dieGet (dieUpd s0 0 fun d => { d with domeAt := some 0 }) 0).domeAt = some 0 ∧ 0 ≤ s0.tick := by decide +kernel
/-- R404: a field out of its limits keeps its value. -/
theorem test_dcfg : after (exec (.dcfgApply 0) (dieUpd s0 0 fun d => { d with dcfgHeld := some 0x0000000300181400 }))
    (fun t => (dieGet t 0).dcfg == 0x0000000A00181400 && (dieGet t 0).dcfgHeld == none) = true := by decide +kernel
def traced0 : State := (s0.mapM fun m => { m with tctl := 0x8000000000000001, tbase := 0x8000 }).mapM fun m =>
  { m with ctrs := m.ctrs.set 0 ⟨0x8004000000000000, 0, 0, 0⟩ }
theorem witness_RegisterAndMeasureResults : (s0.launches.all fun l => l.retired) = true ∧
    ((world [] []).launches.all fun l => l.retired) = false ∧ traceOn (focus 0 s0).core.m = false ∧ traceOn (focus 0 traced0).core.m = true ∧
    (focus 0 traced0).core.m.outcomes = [] ∧ (focus 0 traced0).core.m.tpos + 1 < traceCap (focus 0 traced0).core.m ∧
    (focus 0 traced0).core.m.tbase.toNat % 64 = 0 ∧ Mem.wf traced0.home = true ∧ ctrOn ((focus 0 traced0).core.m.ctrs.get 0) = true ∧
    ((focus 0 traced0).core.m.ctrs.get 0).cctl.extractLsb' 50 6 ≠ 0 := by decide +kernel
def migS : State := { (world [node0 0 .running 0 [] 0] []) with
  migrs := [⟨0x3000, 0, [⟨0, 0, 0, false⟩], none, none⟩], tasks := [{ task0 with st := .migrating, mig := some 0 }] }
theorem witness_RegisterAndMeasureResults_migrations :
    migS.migrs.find? (fun m => m.key == 0x3000 && m.vbase == 0) = some ⟨0x3000, 0, [⟨0, 0, 0, false⟩], none, none⟩ ∧
    ((kttLoad migS 0x3000).find? (fun e => e.vbase == 0)).isSome = true ∧
    taskFind migS 0 = some { task0 with st := .migrating, mig := some 0 } ∧ (taskRcb migS task0).map (·.ktt) = some 0x3000 := by decide +kernel
/-- MCLR, a counter's CCTL, MROT, a level's FILL, and the words behind the last register, of core 65. -/
theorem witness_RegisterAndMeasureResults_window : (∀ x ∈ [(0x720, 228), (0x400, 128), (0x700, 224), (0, 0), (0x3F8, 127), (0x600, 192), (0x6F8, 223),
      (0x718, 227), (0x728, 229), (0xFF8, 511)], (65 * 4096 + x.1) % 4096 / 8 = x.2 ∧ windowCore 0 (65 * 4096 + x.1) = 65 ∧ (65 * 4096 + x.1) % 8 = 0) ∧
    validCore 65 = true := by decide +kernel
theorem test_sem_lct : after (exec (.registerWrite (.lct 0) 0x4007) s0) (fun t => t.core.lct == 0x0607) = true ∧
    after (exec (.registerWrite (.sem 0) 0x3F) (s0.mapCore fun c => { c with semDis := 2 })) (fun t => t.core.semMap == 0x3E) = true ∧
    after (exec (.traceRecord 0 (.switch 9)) traced0) (fun t => t.home == [(0x8008, 5), (0x8009, 9)] && t.core.m.tpos == 1) = true := by
  decide +kernel
def l2S (marks : BitVec 64) : State := { s0 with l2 := [⟨0, 0x40, 5, BitVec.allOnes 64, marks, false, [], 0, none⟩], tick := 1048576, dieRegions := [⟨2, 1, [0], [], 0⟩, ⟨4, 1, [], [], 0⟩] }
theorem witness_CoherenceResults : leased 0x40 = false ∧ s0.poison.contains 0x40 = false ∧ l2Find s0 31 0x40 = none ∧ s0.dieRegions = [] ∧
    (s0.l2.filter fun l => l.cluster == 31).length < l2Lines ∧ l2Find (l2S 1) 31 0x40 = none ∧
    (({ s0 with launches := [{ launch0 [] with det := true }] } : State).launches.any fun l => l.det && !l.retired) = true := by decide +kernel
theorem witness_CoherenceResults_marks (m : BitVec 64) : l2Find (l2S m) 0 0x40 = some ⟨0, 0x40, 5, BitVec.allOnes 64, m, false, [], 0, none⟩ ∧
    dirOwner (l2S m) 0x40 = none ∧ Mem.wf (l2S m).home = true ∧ (∀ r ∈ (l2S m).dieRegions, ∀ d ∈ r.owners, d = 0 / 8) :=
  ⟨rfl, rfl, rfl, fun r hr => by simp [l2S] at hr; rcases hr with rfl | rfl <;> simp⟩
theorem witness_CoherenceResults_pins : (1 : BitVec 64) ≠ 0 ∧ (1 : BitVec 64) ≠ BitVec.allOnes 64 ∧ pinnedLine s0 0 0x40 = false ∧
    pinnedLine (s0.mapA fun a => { a with streams := a.streams.set 0 ⟨true, { qdesc false with ctl := 0x12 }, 0, [⟨0, 5, none, 0x40⟩], []⟩ }) 0 0x40 = true := by
  decide +kernel
/-- Two halves that begin where the larger region does. -/
theorem witness_CoherenceResults_merges : ∃ x y : DieRegion, ({ l2S 0 with dieRegions := [⟨4, 1, [0], [], 0⟩, ⟨6, 1, [], [], 0⟩] } : State).dieRegions = x :: y :: [] ∧
    y.base = x.base + 2 ^ x.lsz ∧ y.lsz = x.lsz ∧ x.lsz < 16 ∧ x.base % 2 ^ (x.lsz + 1) = 0 ∧ x.tick + 2 ^ 20 ≤ (l2S 0).tick ∧ y.tick + 2 ^ 20 ≤ (l2S 0).tick :=
  ⟨_, _, rfl, by decide +kernel⟩
theorem test_push : after (exec (.homeMaskedWrite 0 0x40) (l2S 1)) (fun t => t.home == [(0x1000, 5)] && t.l2.map (·.marks) == [0]) = true ∧
    after (exec (.homeRequest 3 0x40 true) s0) (fun t => dirOwner t 0x40 == some 3) = true := by decide +kernel
def trainS : State := { s0 with modules := s0.modules.set 0 { Module.reset with training := true, spareLanes := 0 } }
def pf : PortFlow := ⟨3, (1, 0, 0)⟩
def wr : FarReq := .write 0x1000 [5, 6]
theorem witness_LinkAndFabricResults : moduleUp (s0.modules.get 0) = true ∧ moduleUp (trainS.modules.get 0) = false ∧ Mem.wf s0.home = true ∧
    Mem.wf (dieGet s0 0).window = true ∧ (s0.modules.get 0).expected = 0 ∧ ((s0.modules.get 0).out.filter fun o => decide (0 ≤ o.1)).length < 128 ∧
    (trainS.modules.get 0).spareLanes = 0 ∧ (trainS.modules.get 0).training = true ∧ (s0.modules.get 0).spareLanes ≠ 0 ∧
    (2048 * 10 ^ 9 - 64) + 64 ≤ deviceBytes ∧ 0x1000 % 64 + ([5] : List Byte).length ≤ 64 := by decide +kernel
theorem witness_LinkAndFabricResults_ahead : 0 < (s0.modules.set 0 { Module.reset with expected := 1 } |>.get 0).expected ∧ (s0.modules.get 0).expected < 1 := by
  decide +kernel
theorem witness_LinkAndFabricResults_packets : s0.ports.getLsbD 3 = true ∧ ({ s0 with ports := 0 } : State).ports.getLsbD 3 = false ∧
    incarnOf s0 (agentPkg 1) = 0 ∧ incarnOf { s0 with incarn := [(agentPkg 1, 1)] } (agentPkg 1) ≠ 0 ∧ (∀ q ∈ s0.reorder, q.flow ≠ pf.flow) ∧
    ((0 : BitVec 16) - flowNext s0 pf.flow).toNat = 0 ∧ 0x8000 ≤ ((0x8000 : BitVec 16) - flowNext s0 pf.flow).toNat ∧
    ((256 : BitVec 16) - flowNext s0 pf.flow).toNat ≤ 256 ∧ 256 < ((257 : BitVec 16) - flowNext s0 pf.flow).toNat ∧
    ((0x7FFF : BitVec 16) - flowNext s0 pf.flow).toNat < 0x8000 ∧ (s0.reorder.filter fun q => q.port == pf.port).length < 512 ∧
    (s0.refusedPkts.any fun q => q.flow == pf.flow) = false := by decide +kernel
theorem witness_LinkAndFabricResults_retry (w : Bool) : ∃ p : Pkt, ({ s0 with refusedPkts := [⟨3, (1, 0, 0), 0, wr, w⟩] } : State).refusedPkts = [p] ∧
    p.num = flowNext s0 p.flow ∧ p.req = .write 0x1000 [5, 6] ∧ p.waits = w ∧ 0x1000 + 2 ≤ deviceBytes :=
  ⟨_, rfl, rfl, rfl, rfl, by decide +kernel⟩
/-- Package 1, which no path has reached for 2^20 ticks; and one that a path reaches. -/
theorem witness_LinkAndFabricResults_dead : mayDie { s0 with lost := [(1, 0)], tick := 2 ^ 20 } (agentPkg 1) = true ∧
    mayDie { s0 with lost := [(1, 0)], tick := 2 ^ 20 - 1 } (agentPkg 1) = false ∧ mayDie s0 (agentPkg 1) = false ∧ mayDie s0 5 = false ∧
    s0.cmds = [] := by decide +kernel
theorem test_packet : after (exec (.packetReceive pf 0 0 wr) s0) (fun t => t.home == [(0x1000, 5), (0x1001, 6)] && flowNext t (1, 0, 0) == 1) = true ∧
    after (exec (.packetReceive pf 2 0 wr) s0) (fun t => t.home == [] && t.reorder.length == 1) = true ∧
    after (exec (.flitReceive 0 0 true ⟨some (.write 0x1000 [5]), 0⟩) s0) (fun t => t.home == [(0x1000, 5)] && (t.modules.get 0).expected == 1) = true := by
  decide +kernel
theorem witness_PowerResetAndTimeResults_units : (∀ u ∈ [(1 : Fin 8), 6], u ≠ 0 ∧ u ≠ 7 ∧
      (focus 0 s0).core.semDis.getLsbD (if (u.val - 1) % 2 = 0 then u.val - 1 + 1 else u.val - 1 - 1) = false) ∧ regionOpen (focus 0 s0).core = false ∧
    (dieGet (focus 0 s0) (dieOf (focus 0 s0).core.id)).spares.get (Fin.ofNat 8 (clusterOf (focus 0 s0).core.id % 8)) ≠ 0 ∧
    (s0.mapCore fun c => { c with semDis := 2 }).core.semDis.getLsbD 1 = true := by decide +kernel
theorem witness_PowerResetAndTimeResults_beacons : timeSource s0 = true ∧ timeSource { s0 with package := 1 } = false ∧ s0.lastBeacon = none ∧
    ({ s0 with lastBeacon := some 0, tick := 4096 } : State).lastBeacon = some 0 ∧ 0 + 4096 ≤ ({ s0 with lastBeacon := some 0, tick := 4096 } : State).tick ∧
    ({ s0 with lastBeacon := some 0, tick := 4095 } : State).tick < 0 + 4096 ∧ s0.skew = 0 ∧
    (0 < ({ s0 with package := 1 } : State).package ∧ pkgReached { s0 with package := 1 } 0 = true ∧ ∀ p, p < 0 → pkgReached { s0 with package := 1 } p = false) ∧
    s0.ports.getLsbD 3 = true ∧ s0.tick + 1 < 2 ^ 64 := by
  decide +kernel
theorem test_instance : after (exec (.instanceDisabled 0 1) s0) (fun t => t.core.semDis == 1 && t.core.semMap == 0b101011) = true ∧
    after (exec (.belfryStepAdvance) s0) (fun t => t.tick == 1024) = true := by decide +kernel
theorem witness_StepKeepsMemory : MemOk State.reset := ⟨rfl, rfl, by decide +kernel⟩

theorem witness_StepKeepsMemory_step : after (step placed) (fun t => Mem.wf t.home && Mem.wf t.spad) = true := by decide +kernel
/-! ## Witnesses for further clauses -/

/-- MOVI in one slot of the pair and MOVHI in the other, in either order; a guard that is off; two registers. -/
def movPair (up : Bool) : List SlotOps :=
  let a : SlotWord × Instr := (1, .movi .always (.reg 7) 5)
  let b : SlotWord × Instr := (2, .movhi .always 7 9)
  if up then [⟨1, [a], false⟩, ⟨2, [b], false⟩] else [⟨1, [b], false⟩, ⟨2, [a], false⟩]
theorem witness_BitFieldAndConstantResults_pair : (∃ w o, (movPair true).find? (fun y => y.slot == 1) = some o ∧ o.ops = [(w, .movi .always (.reg 7) 5)]) ∧
    (∃ w o, (movPair true).find? (fun y => y.slot == 2) = some o ∧ o.ops = [(w, .movhi .always 7 9)]) ∧
    (∃ w o, (movPair false).find? (fun y => y.slot == 1) = some o ∧ o.ops = [(w, .movhi .always 7 9)]) ∧
    (∃ w o, (movPair false).find? (fun y => y.slot == 2) = some o ∧ o.ops = [(w, .movi .always (.reg 7) 5)]) ∧
    guardOn s0 .always = true ∧ guardOn s0 ⟨false, 1⟩ = false ∧ (7 : Fin 64) ≠ 8 :=
  ⟨⟨_, _, rfl, rfl⟩, ⟨_, _, rfl, rfl⟩, ⟨_, _, rfl, rfl⟩, ⟨_, _, rfl, rfl⟩, by decide +kernel⟩
theorem test_pair_value : (startBundle (movPair true) s0).core.pair = some 0x900000005 ∧ (startBundle (movPair false) s0).core.pair = some 0x900000005 ∧
    (startBundle [] s0).core.pair = none := by decide +kernel
theorem witness_BlockFormatResults_clears : guardBits s0 .always ≠ 0 ∧ guardBits s0 ⟨false, 1⟩ = 0 := by decide +kernel
theorem test_vfred_tree : value (.vfred .add .always .f32 .rne (.reg 3) (.reg 1)) (vs2 (mk 32 [0x4B800000, 0x3F800000, 0x3F800000]) 0) = 0x4B800000 ∧
    value (.vfred .min .always .f32 .rne (.reg 3) (.reg 1)) (vs2 (mk 32 (List.replicate 31 0x40000000 ++ [0xC0000000])) 0) = 0xC0000000 := by
  decide +kernel
/-- Results that name none of these. -/
theorem witness_ResultsLandAtTheirStep_frame : ∀ f ∈ dueL, (∀ p, f.dest ≠ .sreg 0x30 p ∧ f.dest ≠ .sreg 0x33 p ∧ f.dest ≠ .sreg 0x10 p ∧
      f.dest ≠ .sreg 0x11 p ∧ f.dest ≠ .sreg 0x12 p ∧ f.dest ≠ .sreg 0x20 p ∧ f.dest ≠ .sreg 0x21 p) ∧
    (∀ k : Fin 4, f.dest ≠ .lec k ∧ f.dest ≠ .lrange k) ∧
    (∀ k : Fin 8, (∀ i, f.dest ≠ .stream k i) ∧ (∀ d, f.dest ≠ .qact (.bind k d)) ∧ f.dest ≠ .qact (.unbind k)) ∧ ∀ o, f.dest ≠ .stash o := by
  intro f hf
  simp only [dueL, List.mem_cons, List.not_mem_nil, or_false] at hf
  rcases hf with rfl | rfl | rfl | rfl <;> simp [fl]
/-- HALT's end: pending, with a deferred error, held by a home out of reach, and free to end. -/
def haltS (pend : List PendOp) (errs : List Deferred) (lines : List Line) (ports : BitVec 32) : State :=
  { (tasked (world [node0 0 .running 0 [] 0] [])).mapCore (fun c => { c with halting := true, pend := pend, errs := errs, lines := lines })
    with ports := ports }
def err1 : Deferred := ⟨0, none, 0x12, 0x1000, none, 3, 0, false⟩
def farLine : Line := ⟨2 ^ 50 * 2 ^ 16 + 7 * 2 ^ 50, 0, 1, 1, 0, none⟩
theorem witness_StopAndWaitResults_halts : (∀ s ∈ [haltS [loadP] [] [] 0, haltS [] [err1] [] 0, haltS [] [] [farLine] 0, haltS [] [] [] 0], let v := focus 0 s
      v.core.landDue = false ∧ v.core.halting = true ∧ v.core.sp.done = 0 ∧ v.core.flights = [] ∧ (curTask v).isSome = true) ∧
    (focus 0 (haltS [loadP] [] [] 0)).core.pend ≠ [] ∧ (focus 0 (haltS [] [err1] [] 0)).core.errs = [err1] ∧
    pushesReach (haltTidy (focus 0 (haltS [] [] [] 0))) = true ∧ (0xFE : BitVec 8) ≠ 0 := by decide +kernel
theorem witness_StopAndWaitResults_halt_waits : pushesReach (haltTidy (focus 0 (haltS [] [] [farLine] 0))) = false ∧
    (focus 0 (haltS [] [] [farLine] 0)).core.pend = [] ∧ (focus 0 (haltS [] [] [farLine] 0)).core.errs = [] := by decide +kernel
theorem test_halt_end : after (exec (.resultLand 0) (haltS [] [] [] 0)) (fun t => t.core.task == none && (taskFind t 0).map (·.st) == some .ended) = true := by
  decide +kernel
/-- A gang of two on cores 0 and 1 of a cluster; core `k` has these steps to issue. -/
def mate (g : Nat) (core : Option Nat) : Task := { task0 with id := g, gang := 0, gsize := 2, gpos := g, core := core }
def gangS (k : Nat) (feed : List GStep) (ts : List Task) : State :=
  let w := world [node0 0 .running 0 [] 0] []
  focus k { w with core := { w.core with task := some 0 }, others := [{ Core.reset 1 with task := some 1, feed := feed, ktt := [bareEntry] }], tasks := ts }
def gstep (y : Word) : GStep := ⟨0x40, 0, 0x80, false, Vector.replicate 8 (BitVec.ofNat 1024 y.toNat)⟩
def bothMates : List Task := [mate 0 (some 0), mate 1 (some 1)]
theorem witness_TrapEntry_gang : (let s := gangS 1 [] [mate 0 (some 0), { mate 1 (some 1) with stepping := true }]
      curTask s = some { mate 1 (some 1) with stepping := true } ∧ regionOpen s.core = false ∧ (0x0F : Byte) ≠ 0x06) ∧
    (∀ y ∈ (takeTrap 0 0x15 0 0 (gangS 1 [] bothMates)).tasks, y.st = .running ∧
      taskDom (takeTrap 0 0x15 0 0 (gangS 1 [] bothMates)) y = taskDom (gangS 1 [] bothMates) (mate 1 (some 1))) := by decide +kernel
theorem test_gang_trap : ((takeTrap 0 0x15 0 0 (gangS 1 [] bothMates)).tasks.map (·.stopReq)) = [some .domain, some (.fault 0x15)] ∧
    ((takeTrap 8 0x0F 0 0 (gangS 1 [] [mate 0 (some 0), { mate 1 (some 1) with stepping := true }])).tasks.map (·.stopReq)) =
      [some .debug, some (.step 0x0F)] := by decide +kernel
theorem witness_AddressChecks_elements : (0 : Nat) < 128 / eszBytes .w ∧ elemOn (guardBits s0 .always) 4 0 = true ∧
    spadTrap s0 (((readS (withS [(2, 1)] s0) (.reg 2)).toNat : Int) + (0 : Nat) * 0) 4 4 false = some ⟨8, 1, false⟩ ∧
    spadTrap s0 (((readS (withS [(2, 1)] s0) (.reg 2)).toNat : Int) + (0 : Nat) * 0) 4 4 true = some ⟨8, 1, false⟩ ∧
    (31 : Nat) < 128 / eszBytes .w ∧ elemOn (guardBits s0 .always) 4 31 = true ∧
    (∀ k : Nat, k < 31 → spadTrap s0 ((0x7FF84 : Int) + (k : Int) * 4) 4 4 false = none) ∧ spadTrap s0 ((0x7FF84 : Int) + 31 * 4) 4 4 false = some ⟨5, 0x80000, false⟩ := by
  decide +kernel
/-- Before the window, misaligned, beyond the cluster's last core, in a core's stash. -/
theorem witness_AddressChecks_cluster : eaM s0 ⟨2, -1⟩ 4 < 0 ∧ eaM (withS [(2, 2)] s0) ⟨2, 0⟩ 4 % 4 ≠ 0 ∧
    48 ≤ (eaM (withS [(2, 0x1800000)] s0) ⟨2, 0⟩ 4).toNat / 0x80000 ∧ dstOn s0 .always (.s .w (.reg 1)) = true ∧ LdDst.bytes (.s .w (.reg 1)) = 4 ∧
    srcOn s0 .always (.s .w (.reg 1)) = true ∧ StSrc.bytes (.s .w (.reg 1)) = 4 ∧ clusterOf s0.core.id * 64 = 0 ∧
    (mapOfOff (coreOf mapS 0).maps ((eaM (withS [(2, 0x7F000)] mapS) ⟨2, 0⟩ 4).toNat % 0x80000 + 3)).isSome = true := by decide +kernel
theorem witness_AddressChecks_atomics : regionOpen s0.core = false ∧ guardOn s0 .always = true ∧
    globTrap s0 (eaM s0 ⟨2, 0⟩ 8) 8 .rw = some ⟨5, 0, false⟩ ∧ globTrap s0 (eaM s0 ⟨2, 0⟩ 128) 128 .rw = some ⟨5, 0, false⟩ ∧
    globTrap s0 (eaM s0 ⟨2, 0⟩ 8) 8 .rd = some ⟨5, 0, false⟩ ∧ aszBytes .d = 8 := by decide +kernel
theorem witness_AddressChecks_streams : (getQ s0 0).bound = false ∧
    (let q := getQ (qS ⟨true, qdesc false, 3, [⟨3, 0, some (0x0C, 0x2000), 0⟩], []⟩) 0;
      q.bound = true ∧ qOut q.desc = false ∧ q.pos < qCount q.desc ∧ q.inq = [⟨3, 0, some (0x0C, 0x2000), 0⟩]) ∧
    qCount (qdesc false) ≤ (getQ (qS ⟨true, qdesc false, 4, [], []⟩) 0).pos ∧
    (let q := getQ (qS ⟨true, qdesc true, 3, [], []⟩) 0;
      q.bound = true ∧ qOut q.desc = true ∧ q.pos < qCount q.desc) ∧ qCount (qdesc true) ≤ (getQ (qS ⟨true, qdesc true, 4, [], []⟩) 0).pos := by
  decide +kernel
def popI : Instr := .vadd ⟨.always, .i8, .reg 3, .stream 0, .reg 2⟩
def pushI : Instr := .vadd ⟨.always, .i8, .stream 0, .reg 1, .reg 2⟩
theorem witness_AddressChecks_stops : ∀ i ∈ [popI, pushI], let s := s0.mapCore fun c => { c with slot := 3 }
    let l : List SlotOps := [⟨3, [(0, i)], false⟩]
    regionOpen s.core = false ∧ s.core.sp.done.getLsbD 3 = false ∧ errMet s 0 l = none ∧ hazard s 0 l = none ∧ s.core.slot = 3 ∧
    s.core.chain = none ∧ disabled s i = false ∧ isCkpt i = false ∧ ownTrap s i = none ∧
    (if i = popI then vsStreams (opnds i) = [0] ∧ popTrap s 0 = some ⟨0x0A, 0, false⟩
      else vsStreams (opnds i) = [] ∧ pushStreams s i = [0] ∧ pushTrap s 0 = some ⟨0x0A, 0, false⟩) := by decide +kernel
/-- Pending operations, each alone or behind another. -/
def pk (seq : Nat) (k : PKind) : PendOp := ⟨seq, 1, k, 0x1038, 3, 0, false, none⟩
def stcP : PendOp := pk 4 (.stc [(.spad 4, 1), (.spad (spadAddr 1 0x7FFFF), 2)])
theorem witness_LoadCompletionWrites_stores : (∀ k ∈ [PKind.stg, stcP.kind, .fence .die, .fencex], (focus 0 (pendS [pk 4 k])).core.pend[0]? = some (pk 4 k)) ∧
    (∀ x ∈ [((.spad 4 : Loc), (1 : Byte)), (.spad (spadAddr 1 0x7FFFF), 2)], (match x.1 with
      | .spad _ => true
      | .glob _ => false) = true ∧ (pendS [stcP]).dead.contains (locCore x.1) = false) ∧
    hasRoom (pendS [stcP]).core 0 ∧ Mem.wf (pendS [stcP]).spad = true ∧ (∀ q ∈ (pendS [stcP]).core.pend, ¬ q.seq < stcP.seq) ∧
    isEngine (pk 1 (.engine 3)) = true ∧ isEngine (pk 1 .stg) = false ∧ (pk 1 .stg).seq < (pk 4 (.fence .die)).seq ∧
    (pendS [pk 4 .fencex]).core.young = [] ∧ ((pendS [pk 4 .fencex]).mapCore fun c => { c with young := [(9, 0x1000, 1)] }).core.young ≠ [] := by
  unfold hasRoom; decide +kernel
theorem test_stc_completes : after (exec (.tokenComplete 0 0) (pendS [stcP])) (fun t => t.spad == [(4, 1), (0xFFFFF, 2)] && t.core.pend == []) = true ∧
    after (exec (.tokenComplete 0 1) (pendS [pk 1 .stg, pk 4 (.fence .die)])) (fun t => t.core.pend.length == 2) = true := by decide +kernel
/-- SMAP's checks, each failing alone, at the edges of the window and of the scratchpad. -/
def smapS (a b : Word) : State := withS [(1, a), (2, b)] g0
def roS : State := (smapS 0 0x4000).mapCore fun c => { c with ktt := [{ bareEntry with rd := false }] }
theorem witness_StashOperationResults_smap :
    (let e (s : State) := s.core.ktt.find? fun e => decide (e.vbase ≤ (readS s (.reg 2)).toNat ∧ (readS s (.reg 2)).toNat + 4096 ≤ e.vbase + 2 ^ e.lsz);
      (readS (smapS 1 0) (.reg 1)).toNat % 4096 ≠ 0 ∧ (readS (smapS 0x1000 1) (.reg 1)).toNat % 4096 = 0 ∧ (readS (smapS 0x1000 1) (.reg 2)).toNat % 4096 ≠ 0 ∧
      2 ^ 56 < (readS (smapS 0 0x100000000000000) (.reg 2)).toNat + 4096 ∧ (readS (smapS 0 0xFFFFFFFFFFF000) (.reg 2)).toNat + 4096 ≤ 2 ^ 56 ∧
      e (withS [(2, 0x4000)] s0) = none ∧ e (smapS 0 0x4000) = some bareEntry ∧ bareEntry.rd = true ∧ e roS = some { bareEntry with rd := false } ∧
      0x80000 < (readS (smapS 0x80000 0) (.reg 1)).toNat + 4096 ∧ (readS (smapS 0x7F000 0) (.reg 1)).toNat + 4096 ≤ 0x80000 ∧
      mapsAfter (smapS 0x7F000 0x4000) = [] ∧ mapsAfter mapS = [⟨0x7F000, 0x5000, 0x5000, 12, true, none⟩] ∧
      kttKey bareEntry 0x5000 = 0x5000) ∧
    (∀ f ∈ mapS.core.flights, False) ∧ (∀ h ∈ mapS.core.rgn.held, False) ∧ spadTrap s0 (eaM (withS [(3, 1)] s0) ⟨3, 0⟩ 64) 64 64 false = some ⟨8, 1, false⟩ := by
  decide +kernel
theorem test_smap_checks : causeOf (.smap .always (.reg 1) (.reg 2) 0) (smapS 0x1000 1) = (8, 1) ∧
    causeOf (.smap .always (.reg 1) (.reg 2) 0) roS = (7, 0x4000) ∧ causeOf (.smap .always (.reg 1) (.reg 2) 0) (smapS 0x80000 0x4000) = (5, 0x80000) ∧
    causeOf (.smap .always (.reg 1) (.reg 2) 0) (withS [(1, 0x7F000), (2, 0x6000)] mapS) = (0x11, 0x7F000) := by decide +kernel
def sflushS : State := mapS.mapCore fun c => { c with lines := [⟨0x5FC0 / 64, 7, 3, 1, 0, none⟩], pend := [pk 4 (.sflush (some (0x5FC0 / 64)) 2)] }
theorem witness_StashOperationResults_sflush : (focus 0 sflushS).core.pend[0]? = some (pk 4 (.sflush (some (0x5FC0 / 64)) 2)) ∧
    (∀ q ∈ (focus 0 sflushS).core.pend, ordOpen q = false) ∧ lineFind (focus 0 sflushS).core (0x5FC0 / 64) = some ⟨0x5FC0 / 64, 7, 3, 1, 0, none⟩ ∧
    ((focus 0 sflushS).l2.filter fun x => x.cluster == 0).length < l2Lines := by decide +kernel
theorem test_sflush_completes : after (exec (.tokenComplete 0 0) sflushS)
    (fun t => t.l2.map (fun l => (l.key, l.marks)) == [(0x5FC0 / 64, 1)] && t.core.lines.map (·.dirty) == [0]) = true := by decide +kernel
/-- The line of the descriptor, mapped and poisoned. -/
def poisonS : State := { withS [(2, 0x7F000)] mapS with poison := [0x5000 / 64] }
theorem witness_StreamOperationResults_errors : spadErr poisonS (eaM poisonS ⟨2, 0⟩ 64).toNat 64 = some 0x0B ∧ spadErr s0 (eaM s0 ⟨2, 0⟩ 64).toNat 64 = none ∧
    guardOn poisonS .always = true ∧ (∀ x ∈ poisonS.core.maps, x.off % 4096 = 0 ∧ 12 ≤ x.lsz) := by decide +kernel
theorem witness_StreamOperationResults_errors_spadOk : plain poisonS ∧ spadOk (eaM poisonS ⟨2, 0⟩ 64) 64 := ⟨rfl, by unfold spadOk; decide +kernel⟩
theorem witness_StreamOperationResults_flush : let s := qS ⟨true, qdesc true, 1, [], [⟨0, 0x2000, some 5⟩]⟩
    (getQ s 0).bound = true ∧ qOut (getQ s 0).desc = true ∧ (∀ e ∈ (getQ s 0).outq, e.data.isSome = true) ∧ s.core.flights = [] ∧ Mem.wf s.spad = true ∧
    (∀ e ∈ (getQ s 0).outq, ∀ i, i < qElemBytes (getQ s 0).desc → mapOfOff s.core.maps (e.addr + i) = none) := by decide +kernel
theorem witness_EngineIssue_errors : (let s := { withS [(3, 0x7F000)] mapS with poison := [0x5000 / 64] };
    engTrap .mcast ⟨.always, ⟨3, 0⟩, 1⟩ s = none ∧ spadErr s (eaM s ⟨3, 0⟩ 64).toNat (descSize .mcast) = some 0x0B) ∧
    ∀ k ∈ [EKind.sscan, .cpy, .cpyr, .mcast, .gath, .scat, .coll, .gnode], spadErr (engS k) (eaM (engS k) ⟨3, 0⟩ 64).toNat (descSize k) = none := by
  decide +kernel
/-- CWADD, wider than the cluster and performed before; the atomics with nothing older on their flow and line. -/
def cwP (o : Option Word) : PendOp := pk 0 (.cwadd 5 0x4000000000000002 .die 0x1038 o)
theorem witness_AtomicCompletion_cwadd (o : Option Word) : let v := focus 0 (pendS [cwP o])
    v.core.pend[0]? = some (cwP o) ∧ (∀ q ∈ v.core.pend, q.seq = (cwP o).seq → q = cwP o) ∧
    (cwP o).kind = .cwadd 5 0x4000000000000002 .die 0x1038 o ∧ waitsFlight v (cwP o) = false ∧ v.core.rgn.st = .closed ∧
    0x1038 % 8 = 0 ∧ homeErr v (lineKey 0x1038) = none ∧ reach v (dieOf v.core.id) (lineKey 0x1038) = true ∧
    lineFind v.core (lineKey 0x1038) = none ∧ Mem.wf v.home = true ∧ v.core.young = [] ∧ (0x4000000000000002 : Word).toNat / 2 ^ 62 = 1 ∧
    (∀ q ∈ v.core.pend, ordOpen q = true → atomKey q ≠ some (lineKey 0x1038)) := by
  refine ⟨rfl, ?_, rfl, rfl, rfl, rfl, rfl, rfl, rfl, rfl, rfl, by decide, ?_⟩
  · intro q hq _; simpa [pendS, State.mapCore, focus, s0, State.reset, Core.reset] using hq
  · intro q hq h; have : q = cwP o := by simpa [pendS, State.mapCore, focus, s0, State.reset, Core.reset] using hq
    subst this; exact absurd h (by simp [cwP, pk, ordOpen, isOrd])
theorem witness_AtomicCompletion_alone : ∀ p ∈ [atomP none, cwP none], flowBehind (focus 0 (pendS [p])) p = false ∧
    lineBehind (focus 0 (pendS [p])) (lineKey 0x1038) p = false := by decide +kernel
theorem test_cwadd_completes : after (exec (.tokenComplete 0 0) (pendS [cwP none]))
    (fun t => homeWord t 0x1038 == 1 && t.barriers == [0x1038] && getS t.core.a 5 == 0 && t.core.pend == []) = true := by decide +kernel
theorem witness_SynchronisationIssue_reads : (∀ sc ∈ [Scope.core, .cluster, .die], waitReads sc 0x1008 g0 = true) ∧
    waitReads .core 0x1038 (pendS [atomP none]) = false ∧ placeReach .core 0x1008 8 g0 = true := by decide +kernel
def acqP (d : Option (Fin 64)) : PendOp := pk 4 (.acq d .die 0x2000)
def relP (q : Nat) (full : Bool) : PendOp := pk q (.rel full 9 .die 0x2000 3)
def joinP : PendOp := pk 4 (.engine 3)
def joinS (c : EngCmd) : State := { engW .cpy fun _ => c with core := { (engW .cpy fun _ => c).core with pend := [joinP] } }
theorem witness_SignaturesAndReleases_completes : (∀ p ∈ [acqP none, acqP (some 5), relP 4 true, relP 4 false], let v := focus 0 (pendS [p])
      v.core.pend[0]? = some p ∧ waitsFlight v p = false ∧ v.core.rgn.st = .closed ∧ reach v (dieOf v.core.id) (lineKey 0x2000) = true ∧
      objErr v 0x2000 = none ∧ lineFind v.core (lineKey 0x2000) = none ∧ lineFind v.core (lineKey (0x2000 + 64)) = none ∧ v.core.young = [] ∧
      (∀ q ∈ v.core.pend, ¬ q.seq < p.seq) ∧ pushesReach v = true ∧ pushErr v = none ∧ 0x2000 % 128 = 0 ∧ Mem.wf v.home = true) ∧
    (relP 1 true).seq < (relP 4 false).seq ∧ (objAt { s0 with home := [(0x2010, 1)] } 0x2000).flags.getLsbD 0 = true ∧ (objAt s0 0x2000).flags.getLsbD 0 = false := by
  decide +kernel
theorem witness_SignaturesAndReleases_noRelease : noRelease (focus 0 (pendS [acqP none])).core ∧ noRelease (focus 0 (joinS (begun .cpy))).core := by
  constructor <;> (intro q hq; simp [focus, pendS, joinS, engW, tasked, world, State.mapCore, s0, State.reset, Core.reset] at hq; subst hq; simp [acqP, joinP, pk])
theorem witness_SignaturesAndReleases_calm : ∀ k ∈ [lineKey 0x2000, lineKey (0x2000 + 64)], calmKey (focus 0 (pendS [relP 4 true])) k := by
  unfold calmKey; decide +kernel
theorem witness_SignaturesAndReleases_joins : ∀ c ∈ [begun .cpy, { begun .cpy with doneItems := [0] }, { begun .cpy with doneItems := [0], failCause := some 0x0B }],
    let v := focus 0 (joinS c)
    v.core.pend[0]? = some joinP ∧ waitsFlight v joinP = false ∧ joinP.kind = .engine 3 ∧ cmdFind v 3 = some c ∧ stopping v = false ∧
    cmdDone c = !c.doneItems.isEmpty ∧ c.task.bind (taskFind v) = some task0 ∧ launchFind v task0.launch = some (launch0 [node0 0 .running 0 [] 0]) ∧
    (∀ q ∈ (launch0 [node0 0 .running 0 [] 0]).rcbs, q.steps = none ∧ q.bytes = none) ∧ cmdCw c.kind c.desc = 0 ∧ c.kind ≠ .gnode := by decide +kernel
theorem test_release_acquire : after (exec (.tokenComplete 0 0) ((pendS [relP 4 false]).mapSp fun p => { p with wsig := 5 }))
      (fun t => let o := objAt t 0x2000; o.value == 9 && o.gen == 1 && o.sg == 5 && t.core.sp.wsig == 3) = true ∧
    after (exec (.tokenComplete 0 0) { pendS [acqP (some 5)] with home := Mem.putBytes [] 0x2000 (toBytes 8 (7#64) ++ toBytes 8 (2#64)) })
      (fun t => t.core.pend == []) = true := by decide +kernel
/-! ## Gangs, regions, engine items -/

/-- The lead of a gang with one step not yet issued by its mate, and the mate. -/
def feed1 : List GStep := [gstep 7]
theorem witness_BundleIssueResults_gang : (let v := focus 1 (gangS 1 feed1 bothMates);
      midBundle (gangS 1 feed1 bothMates) = false ∧ curTask v = some (mate 1 (some 1)) ∧ (mate 1 (some 1)).gpos ≠ 0 ∧ v.core.feed = feed1 ∧
      issueBlocked v = false ∧ regionOpen v.core = false ∧ skewOf v (mate 1 (some 1)) < v.core.feed.length) ∧
    (let v := focus 1 (gangS 1 [] bothMates); v.core.feed = [] ∧ curTask v = some (mate 1 (some 1))) ∧
    (let v := focus 0 (gangS 0 feed1 bothMates);
      curTask v = some (mate 0 (some 0)) ∧ 1 < (mate 0 (some 0)).gsize ∧ gangNext v (mate 0 (some 0)) = some (mate 1 (some 1)) ∧
      (mate 1 (some 1)).core = some 1 ∧ skewOf v (mate 0 (some 0)) < (coreOf v 1).feed.length) ∧
    (let v := focus 0 (gangS 0 [] [mate 0 (some 0), { mate 1 none with st := .stopped, saved := some sv0 }]);
      curTask v = some (mate 0 (some 0)) ∧ v.tasks[1]? = some { mate 1 none with st := .stopped, saved := some sv0 }) ∧
    dieOf 1 < 4 ∧ (gstep 7).next ≠ 0x40 := by decide +kernel
/-- A skew of one step: the mate's only step is not due yet. -/
def skewed (s : State) : State := { s with launches := s.launches.map fun l => { l with gskew := 1 } }
theorem witness_BundleIssueResults_skew : (let v := focus 1 (skewed (gangS 1 feed1 bothMates));
      v.core.feed.length ≤ skewOf v (mate 1 (some 1)) ∧ gangDrains v (mate 1 (some 1)) = false) ∧
    ¬ (focus 1 (skewed (gangS 1 (feed1 ++ feed1) bothMates))).core.feed.length ≤ skewOf (skewed (gangS 1 feed1 bothMates)) (mate 1 (some 1)) := by
  decide +kernel
/-- R44, R45, R230. -/
theorem test_gang_issue : after (exec (.bundleIssue 1) (gangS 1 feed1 bothMates)) (fun t => t.core.ny.get 3 == 7 && t.core.pc == 0x40 && t.core.landDue) = true ∧
    (followLead 0x40 (gangS 1 feed1 bothMates)).1 = 0x80 ∧ ((dieGet (followLead 0x40 (gangS 1 feed1 bothMates)).2 0).gecko.map (·.cause)) = [0x81] ∧
    (coreOf (feedNext (gstep 7) (gangS 0 [] bothMates)) 1).feed = feed1 := by decide +kernel
/-- Both members in a region; core 0 as `x` and `y` say, core 1 with equal commits. -/
def gangRgn (st : RState) (x y : Outcome1) : State :=
  let s := gangS 0 feed1 bothMates
  let r (c : Core) (x y : Outcome1) : Core := { c with rgn := { c.rgn with st := st, shadow := some c.a, outA := some x, outB := some y } }
  { s with core := r s.core x y, others := s.others.map fun c => r c (endedB 3 9) (endedB 3 9) }
theorem witness_RegionEventResults_gang : ∀ s ∈ [gangRgn .opened (endedB 3 9) (endedB 3 9), gangRgn .rerunB (endedB 3 9) (endedB 3 9),
      gangRgn .rerunB (.error 3 (some 0x40)) (.error 3 (some 0x40)), gangRgn .rerunB (endedB 3 9) (endedB 4 9), gangRgn .rerunB (.ended false 1 3 7 9) (.ended false 1 3 7 9)],
    let v := focus 0 s
    gangCores v = [0, 1] ∧ (gangCores v).Nodup ∧ gangCores v ≠ [] ∧ v.core.rgn.st ≠ .closed ∧
    (∀ k ∈ gangCores v, (coreOf v k).rgn.st = v.core.rgn.st ∧ (coreOf v k).rgn.outA ≠ none ∧ (coreOf v k).rgn.outB ≠ none) ∧ 2 ∉ gangCores v := by
  decide +kernel
def gangSt (i : Instr) (s : State) : List RState := match exec i s with
  | .next t => [(coreOf t 0).rgn.st, (coreOf t 1).rgn.st]
  | _ => []
/-- R230, R397. -/
theorem test_gang_regions : gangSt (.rollback 0 3) (gangRgn .opened (endedB 3 9) (endedB 3 9)) = [.unwinding 3, .unwinding 3] ∧
    gangSt (.rerunOutcome 0) (gangRgn .rerunB (endedB 3 9) (endedB 3 9)) = [.draining, .draining] ∧
    gangSt (.rerunOutcome 0) (gangRgn .rerunB (.error 3 (some 0x40)) (.error 3 (some 0x40))) = [.unwinding thenPoison, .unwinding 8] ∧
    gangSt (.rerunOutcome 0) (gangRgn .rerunB (endedB 3 9) (endedB 4 9)) = [.unwinding thenRetire, .unwinding thenAgain] ∧
    gangSt (.rerunOutcome 0) (gangRgn .rerunB (.ended false 1 3 7 9) (.ended false 1 3 7 9)) = [.unwinding 1, .unwinding 1] := by decide +kernel
theorem witness_CoreEventResults_fills : (focus 0 dirty1).core.fills.find? (fun f => f.key == 0x40 && f.err.isNone) = some ⟨0x40, none, false, false, none⟩ := by
  decide +kernel
/-- Commands that have begun, in a world with a table: a strided copy, gathers and scatters, a multicast. -/
def cmdS (c : EngCmd) (spad home : List Host.Cell) : State := { engW .cpy fun _ => c with spad := spad, home := (engW .cpy id).home ++ home }
def trD (ectl flag : Nat) : List Byte := dsc [0x100, 0x200, 0x0001000100010010, 0, 0x2000000000, 0, 0, ectl, flag, 9, 0, 1, 0, 0, 0, 0]
def trC (ectl flag : Nat) : EngCmd := { begun .cpyr with desc := trD ectl flag }
theorem witness_EngineCommandResults_orphan_items : ∀ k ∈ [EKind.cpy, .cpyr, .mcast, .gath, .scat, .sscan, .coll, .gnode],
    cwAbsent (cmd0 k) = none ∧ flagCheck (cmd0 k) ≠ some 0x06 ∧ (cmd0 k).node = none := by decide +kernel
theorem witness_EngineCommandResults_own : ∀ c ∈ [begun .cpy, trC 0x500000000 0, trC 0x500000000 0x4000, { begun .gath with desc := dsc [0x100, 0x200, 0x300, 2, 3, 0, 0, 0x500000000] },
      { begun .scat with desc := dsc [0x100, 0x200, 0x300, 2, 3, 0, 0, 0x500000000] }], let s := cmdS c [] []
    ownMove s 3 0 c ∧ c.doneItems = [] := by unfold ownMove hasRoom; decide +kernel
theorem witness_EngineCommandResults_transposes : ∀ flag ∈ [0, 0x4000], let d := trD 0x500000000 flag
    dSty d = 0 ∧ dTt d = 0 ∧ xTr d = true ∧ xPlist d = 0 ∧ cExt d 0 = 16 ∧ cExt d 1 = 1 ∧ cExt d 2 = 1 ∧ cExt d 3 = 1 ∧ cDS d 1 = 32 ∧
    cSrc d + 16 ≤ 0x80000 ∧ cDst d + 16 * 32 ≤ 0x80000 ∧ cSrc d + 16 ≤ cDst d ∧ (xAflag d = 0 ∨ xAflag d = 0x4000) := by decide +kernel
theorem witness_EngineCommandResults_flag : checkGlob (trC 0 0x4000).ktt (xAflag (trC 0 0x4000).desc : Int) 128 128 .wr = .ok bareEntry ∧
    kttKey bareEntry 0x4000 % 128 = 0 ∧ Mem.wf (cmdS (trC 0 0x4000) [] []).home = true ∧ bulkSpace (dDspc (trC 0 0x4000).desc) = false ∧
    dEcw (trC 0 0x4000).desc = 0 ∧ xAflag (trC 0 0x4000).desc ≠ 0 ∧
    cmdFind (cmdS { trC 0 0x4000 with failing := [(0, 0x05)] } [] []) 3 = some { trC 0 0x4000 with failing := [(0, 0x05)] } := by decide +kernel
theorem witness_EngineCommandResults_flag_calm : ∀ k ∈ [lineKey 0x4000, lineKey (0x4000 + 64)], calmKey (cmdS (trC 0 0x4000) [] []) k := by
  unfold calmKey; decide +kernel
def gaD (k : EKind) : EngCmd := { begun k with desc := dsc [0x100, 0x200, 0x300, 2, 3, 0, 0, 0x500000000] }
theorem witness_EngineCommandResults_gathers : ∀ k ∈ [EKind.gath, .scat], let c := gaD k; let s := cmdS c [(0x304, 1)] []
    (∀ g ∈ [0, 1], g < dW c.desc 24 % 2 ^ 32 ∧ g ∉ c.doneItems ∧ scatWaits s c g = false ∧ (dW c.desc 16 + 4 * g) % 4 = 0 ∧ dW c.desc 16 + 4 * g + 4 ≤ 0x80000 ∧
      (dW c.desc 8 + g * 8) % 8 = 0 ∧ dW c.desc 8 + g * 8 + 8 ≤ 0x80000) ∧ 2 ^ dW c.desc 32 = 8 ∧
    dW c.desc 0 + natOfBytes ((List.range 4).map fun i => Mem.get s.spad (spadAddr 0 (dW c.desc 16 + 4 * 1 + i))) * 8 = 0x108 := by decide +kernel
/-- Two items of one index: the higher waits. -/
theorem witness_EngineCommandResults_scatter_waits : scatWaits (cmdS (gaD .scat) [] []) (gaD .scat) 1 = true := by decide +kernel
/-- A multicast before and after its bytes are read; receivers 0 and 47. -/
def mcC (b : List Byte) : EngCmd := { begun .mcast with desc := dsc [0x4000, 0x80, 0x40, 0x800000000001, 0, 0, 0, 0x0020000000000000] ++ b }
theorem witness_EngineCommandResults_multicast : (∀ b ∈ [[], List.replicate 64 7], let c := mcC b; let s := cmdS c [] [(0x4000, 7)]
      cmdFind s 3 = some c ∧ c.kind = .mcast ∧ c.started = true ∧ c.failing = [] ∧ c.node = none ∧ dEcw c.desc = 0 ∧
      (∀ i ∈ [0, 47], (dW c.desc 24).testBit i = true ∧ i ∉ c.doneItems ∧ coreExists s (c.cluster * 64 + i) = true ∧ (coreOf s (c.cluster * 64 + i)).maps = [] ∧
        spadAddr (c.cluster * 64 + i) (dW c.desc 8) + 64 ≤ spadAddr (c.cluster * 64 + i) (8 * dRbar c.desc)) ∧
      dW c.desc 8 + 64 ≤ 0x80000 ∧ 8 * dRbar c.desc + 8 ≤ 0x80000 ∧ Mem.wf s.spad = true) ∧
    64 < (mcC (List.replicate 64 7)).desc.length ∧ (mcC (List.replicate 64 7)).desc.drop 64 = List.replicate 64 7 := by decide +kernel
theorem witness_EngineCommandResults_multicast_reads : let c := mcC []; let s := cmdS c [] [(0x4000, 7)]
    c.desc.length = 64 ∧ dW c.desc 16 = 64 ∧ c.cluster < 32 ∧ s.l2 = [] ∧ s.dir = [] ∧ s.dieRegions = [] ∧
    checkGlob c.ktt (dW c.desc 0 : Int) 64 64 .rd = .ok bareEntry ∧ kttKey bareEntry (dW c.desc 0) % 64 = 0 ∧
    leased (lineKey (kttKey bareEntry (dW c.desc 0))) = false ∧ s.poison.contains (lineKey (kttKey bareEntry (dW c.desc 0))) = false ∧ hasRoom s.core 0 := by
  unfold hasRoom; decide +kernel
/-- R360 and R357, R365, R367, R342. -/
theorem test_engine_items : after (exec (.engineItemComplete 3 0) (cmdS (trC 0x500000000 0) [(0x101, 7)] [])) (fun t => t.spad == [(0x101, 7), (0x220, 7)]) = true ∧
    after (exec (.engineItemComplete 3 1) (cmdS (gaD .gath) [(0x10A, 7), (0x304, 1)] [])) (fun t => t.spad == [(0x10A, 7), (0x20A, 7), (0x304, 1)]) = true ∧
    after (exec (.engineItemComplete 3 1) (cmdS (gaD .scat) [(0x209, 7), (0x304, 1)] [])) (fun t => t.spad == [(0x109, 7), (0x209, 7), (0x304, 1)]) = true ∧
    after (exec (.engineItemComplete 3 0) (cmdS (mcC []) [] [(0x4000, 7)])) (fun t => Mem.get t.spad 0x80 == 7 && Mem.get t.spad 0x100 == 1) = true := by
  decide +kernel
theorem test_failed_flag : after (exec (.engineItemComplete 3 0) (cmdS { trC 0 0x4000 with failing := [(0, 0x05)] } [] []))
    (fun t => (objAt t 0x4000).value == BitVec.allOnes 64 && (cmdFind t 3).map (·.failCause) == some (some 0x05)) = true := by decide +kernel
/-- Two sequences, the empty one, a chunk that is full and one that is not; two ranks of two elements. -/
theorem witness_ScanAndCollectiveResults_chunks : 0 < 1 ∧ (([] : List SStep)) = [] ∧ (2 ^ 0 ≤ 1 ∧ ¬ 2 ^ 4 ≤ 1) ∧
    (let d := dsc [0x1000, 0x2000, 2, 0x6000, 0, 0x200, 0, 0]; (0 : Nat) < collCount d ∧ (1 : Nat) < collCount d ∧ collKind d ≠ 1 ∧ collType d = 2) ∧
    ([[3, 4], [5, 6]] : List (List Nat)) ≠ [] ∧ ([[3, 4], [5, 6]] : List (List Nat)).length ≤ 1024 ∧ collS.oldColls = [] ∧ collC.failing = [] := by decide +kernel
theorem test_collective_tree : collRecv (dsc [0x1000, 0x2000, 2, 0x6000, 0, 0x200, 0, 0]) [[3, 4], [5, 6], [7, 0xFFFFFFFF]] 0 = [15, 9] := by decide +kernel
/-! ## Tasks, firmware, registers, links, power -/

theorem witness_TaskEventResults_cancels : (let t := { task0 with stopReq := some .domain, cancel := some 0x15 }
    let s : State := { (leaving .domain) with tasks := [t] };
    curTask (focus 0 s) = some t ∧ canSave (focus 0 s) = true ∧ t.cancel ≠ none ∧ t.saved = none) ∧ task0.cancel = none := by decide +kernel
theorem test_cancelled_ends : after (exec (.taskSave 0 .domain) { (leaving .domain) with tasks := [{ task0 with stopReq := some .domain, cancel := some 0x15 }] })
    (fun t => t.core.task == none && (taskFind t 0).map (fun x => (x.st, x.saved)) == some (.ended, none)) = true := by decide +kernel
/-- A task whose budget's subtree has stopped, and one that a cancel finds on its core. -/
def overS : State := { stopS stopT with launches := (stopS stopT).launches.map fun l => { l with rcbs := l.rcbs.map fun r => { r with stopped := true } } }
theorem witness_FirmwareControlResults_ends : ((taskRcb overS stopT).map (·.stopped)).getD false = true ∧ overS.tasks = [stopT] ∧
    taskDom overS stopT = (0, (7 : BitVec 12).toNat) ∧ stopT.st = .stopped ∧ stopT.core = none ∧
    (∀ y ∈ (stopS stopT).tasks, ((taskRcb (stopS stopT) y).map (·.stopped)).getD false = false) ∧
    ({ stopT with core := some 0 } : Task).core = some 0 ∧ taskDom (stopS { stopT with core := some 0 }) { stopT with core := some 0 } = (0, 7) := by decide +kernel
theorem test_domain_commands : after (exec (.dfcmdResume 0 7) overS) (fun t => (taskFind t 0).map (·.st) == some .ended) = true ∧
    after (exec (.dfcmdCancel 0 7) (stopS stopT)) (fun t => (taskFind t 0).map (·.st) == some .ended) = true ∧
    after (exec (.dfcmdCancel 0 7) (stopS { stopT with core := some 0 })) (fun t => (taskFind t 0).map (·.cancel) == some (some 0x15)) = true := by decide +kernel
theorem witness_RegisterAndMeasureResults_trace : traced0.core.m.twait = [] ∧ traceOn traced0.core.m = true ∧ traceOn s0.core.m = false ∧
    (0x8000000000000001 : Word).getLsbD 63 = true ∧ (0x1 : Word).getLsbD 63 = false ∧ (0x8000000000000000 : Word).extractLsb' 0 20 = 0 ∧
    (1 : Word).getLsbD 0 = true ∧ (2 : Word).getLsbD 0 = false ∧ (0x0400000000000000 : Word).extractLsb' 58 2 = 1 ∧
    (0x0800000000000000 : Word).extractLsb' 58 2 = 2 ∧ (0x4000000000000000 : Word).extractLsb' 62 2 = 1 ∧ (0xC000000000000000 : Word).extractLsb' 62 2 = 3 := by
  decide +kernel
theorem test_trace_control : after (exec (.registerWrite (.tctl 0) 0x8000000000000000) s0) (fun t => t.core.m.tctl == 0xA000000000000000) = true ∧
    after (exec (.registerWrite (.tctl 0) 0x8000000000000001) s0) (fun t => t.core.m.tctl == 0x8000000000000001) = true ∧
    after (exec (.registerWrite (.launchWindow 1) 1) s0) (fun t => (dieGet t 1).opened && !(dieGet t 0).opened) = true := by decide +kernel
theorem witness_LinkAndFabricResults_windows : (dieGet s0 0).opened = false ∧ (dieGet (dieUpd s0 0 fun d => { d with opened := true }) 0).opened = true ∧
    Mem.wf (dieGet s0 0).window = true ∧ 0x3FFC0 + ([1, 2] : List Byte).length ≤ 0x40000 := by decide +kernel
theorem witness_LinkAndFabricResults_flits : flitFits (some (.write 0 (List.replicate 257 0))) = false ∧ flitFits (some (.write 0 (List.replicate 256 0))) = true ∧
    flitFits (some (.read 0 256)) = true ∧ answers (some (.read 0 8)) = true ∧ answers none = false ∧
    (let m : Module := { Module.reset with out := (List.range 129).map fun i => (i, []) };
      128 ≤ (m.out.filter fun o => 1 ≤ o.1).length ∧ (m.out.filter fun o => 2 ≤ o.1).length < 128) ∧
    (∀ c ∈ coresOf trainS, c.young = []) ∧ (∀ c ∈ trainS.cmds, c.started = false) := by decide +kernel
theorem test_flit : after (exec (.flitReceive 0 0 true ⟨some wr, 0⟩) s0) (fun t => t.home == [(0x1000, 5), (0x1001, 6)] &&
      (t.modules.get 0).expected == 1 && (t.modules.get 0).out == [(0, [])]) = true ∧
    after (exec (.flitReceive 0 0 true ⟨some (.write 0 (List.replicate 257 0)), 0⟩) s0) (fun t => (t.modules.get 0).expected == 0) = true := by decide +kernel
/-- A region that is to be left. -/
def leaveRgn : State := inRgn (leaving .preempt)
theorem witness_PowerResetAndTimeResults_throttles : (focus 0 leaveRgn).core.rgn.st = .opened ∧ Sys2Proof.Machine.leaving (focus 0 leaveRgn) = true ∧
    gangCores (focus 0 leaveRgn) = [0] ∧ 0 < 4 ∧ Sys2Proof.Machine.leaving (inRgn s0) = false := by decide +kernel
theorem test_throttle : after (exec (.throttleStall 0 8) leaveRgn) (fun t => t.core.rgn.st == .unwinding 6 && t.tick == 2) = true := by decide +kernel
end Sys2Proof.Machine.Tests
end

/-! Device registers, the measurement block and page migration (R6, R121, R192, R403, R426, R427, R441, R473 to R479, R483). -/

namespace Sys2Proof.Machine

/-! ## The core brought into focus -/

/-- The list of the other cores holds the core that is put into it, and no other of its number. -/
theorem find?_insertCore (c : Core) (l : List Core) (h : ∀ d ∈ l, d.id ≠ c.id) :
    (insertCore c l).find? (fun d => d.id == c.id) = some c := by
  induction l with
  | nil => simp [insertCore]
  | cons d r ih =>
    have hd : (d.id == c.id) = false := beq_eq_false_iff_ne.2 (h d List.mem_cons_self)
    unfold insertCore
    split
    · simp
    · rw [List.find?_cons_of_neg (by simp [hd]), ih fun e he => h e (List.mem_cons_of_mem _ he)]

@[simp] theorem coreOf_id (s : State) (n : Nat) : (coreOf s n).id = n := by
  unfold coreOf
  split
  · assumption
  · cases h : s.others.find? fun c => c.id == n with
    | none => rfl
    | some c => simpa using List.find?_some h

@[simp] theorem focus_core (n : Nat) (s : State) : (focus n s).core = coreOf s n := by
  unfold focus coreOf
  split <;> rfl

@[simp] theorem focus_tick (n : Nat) (s : State) : (focus n s).tick = s.tick := by
  unfold focus
  split <;> rfl

/-- A change of focus leaves each core as it is. -/
@[simp] theorem coreOf_focus (k : Nat) (u : State) : coreOf (focus k u) u.core.id = u.core := by
  by_cases hk : u.core.id = k
  · rw [← hk, focus_self, coreOf_self]
  · have hne : ¬ (coreOf u k).id = u.core.id := by rw [coreOf_id]; exact fun h => hk h.symm
    have hf : focus k u = { u with
      core := coreOf u k
      others := insertCore u.core (u.others.filter fun c => c.id != k && c.id != u.core.id) } := if_neg hk
    have hfind := find?_insertCore u.core (u.others.filter fun c => c.id != k && c.id != u.core.id) fun d hd => by
      simpa using (Bool.and_eq_true_iff.1 (List.mem_filter.1 hd).2).2
    rw [hf, coreOf, if_neg hne, hfind, Option.getD_some]

theorem coreOf_onCore {n : Nat} {f : State → State} {s : State} (h : (f (focus n s)).core.id = n) :
    coreOf (onCore n f s) n = (f (focus n s)).core := by
  have := coreOf_focus s.core.id (f (focus n s))
  rwa [h] at this

@[simp] theorem onCore_tick {n : Nat} {f : State → State} {s : State} (h : ∀ u, (f u).tick = u.tick) :
    (onCore n f s).tick = s.tick := by
  rw [onCore, focus_tick, h, focus_tick]

/-! ## Time that passes -/

theorem vecOf_get_self {α : Type} {n : Nat} (v : Vector α n) : vecOf n v.get = v := by
  apply Vector.ext
  intro i hi
  exact get_vecOf n v.get ⟨i, hi⟩

/-- A core that is not listed is as reset left it, and time does nothing to it: its counters are off. -/
theorem ticksMeas_reset (t n : Nat) : ticksMeas t n Meas.reset = Meas.reset := by
  have h : ticksMeas t n Meas.reset = { Meas.reset with ctrs := vecOf 16 Meas.reset.ctrs.get } := by
    unfold ticksMeas mapCtrs
    congr 2
    funext i
    have : ctrOn (Meas.reset.ctrs.get i) = false := by fin_cases i <;> rfl
    simp [this]
  rw [h, vecOf_get_self]

theorem coreOf_tickOn (s : State) (k n : Nat) :
    coreOf (tickOn k s) n = { coreOf s n with m := ticksMeas s.tick k (coreOf s n).m } := by
  by_cases hn : s.core.id = n
  · simp [coreOf, tickOn, hn]
  · have hfind : (tickOn k s).others.find? (fun c => c.id == n) =
        (s.others.find? fun c => c.id == n).map fun c => { c with m := ticksMeas s.tick k c.m } := by
      simp only [tickOn, List.find?_map]
      rfl
    have h1 : coreOf (tickOn k s) n = ((tickOn k s).others.find? fun c => c.id == n).getD (Core.reset n) := if_neg hn
    have h2 : coreOf s n = (s.others.find? fun c => c.id == n).getD (Core.reset n) := if_neg hn
    rw [h1, h2, hfind]
    cases s.others.find? fun c => c.id == n with
    | some c => rfl
    | none =>
      have : (Core.reset n).m = Meas.reset := rfl
      simp only [Option.map_none, Option.getD_none, this, ticksMeas_reset]
      rfl

/-- A reading of the Dome tree that falls due changes a die's registers alone. -/
theorem passTicks_eq (k : Nat) (s : State) : ∃ d, passTicks k s = { tickOn k s with dies := d } := by
  unfold passTicks
  dsimp only
  split
  · exact ⟨_, rfl⟩
  · exact ⟨(tickOn k s).dies, rfl⟩

@[simp] theorem passTicks_tick (k : Nat) (s : State) : (passTicks k s).tick = (s.tick + k) % 2 ^ 64 := by
  obtain ⟨d, h⟩ := passTicks_eq k s
  rw [h]
  rfl

@[simp] theorem coreOf_passTicks (k n : Nat) (s : State) :
    coreOf (passTicks k s) n = { coreOf s n with m := ticksMeas s.tick k (coreOf s n).m } := by
  obtain ⟨d, h⟩ := passTicks_eq k s
  rw [h]
  exact coreOf_tickOn s k n

@[simp] theorem ticksMeas_mrot (t n : Nat) (m : Meas) : (ticksMeas t n m).mrot = m.mrot := rfl

/-- Time changes what a counter counts and not its setting. -/
@[simp] theorem ticksMeas_cctl (t n : Nat) (m : Meas) (i : Fin 16) :
    ((ticksMeas t n m).ctrs.get i).cctl = (m.ctrs.get i).cctl := by
  simp only [ticksMeas, mapCtrs, get_vecOf]
  split <;> rfl

/-! ## Fields of a register -/

/-- The mask of the `w` lowest bits. -/
theorem getLsbD_lowMask {w : Nat} (hw : w ≤ 64) (i : Nat) : (((1#64 <<< w) - 1) : Word).getLsbD i = decide (i < w) := by
  have hnat : ((1#64 <<< w) - 1 : Word).toNat = 2 ^ w - 1 := by
    rcases Nat.lt_or_eq_of_le hw with hlt | rfl
    · have hpow : (1#64 <<< w : Word).toNat = 2 ^ w := by
        rw [BitVec.toNat_shiftLeft, Nat.shiftLeft_eq, BitVec.toNat_ofNat,
          Nat.mod_eq_of_lt (show 1 < 2 ^ 64 by decide), Nat.one_mul, Nat.mod_eq_of_lt (Nat.pow_lt_pow_right (by decide) hlt)]
      rw [BitVec.toNat_sub_of_le (by rw [BitVec.le_def, hpow]; exact Nat.two_pow_pos w), hpow]
      rfl
    · rfl
  rw [BitVec.getLsbD, hnat, Nat.testBit_two_pow_sub_one]

/-- A bit of a register after a field of `w` bits at `lo` has been replaced. -/
theorem getLsbD_putField (old v : Word) {lo w : Nat} (h : lo + w ≤ 64) (i : Nat) :
    (putField old v lo w).getLsbD i = if lo ≤ i ∧ i < lo + w then v.getLsbD i else old.getLsbD i := by
  have hmask : ((((1#64 <<< w) - 1) <<< lo : Word).getLsbD i = true) ↔ (lo ≤ i ∧ i < lo + w) := by
    rw [BitVec.getLsbD_shiftLeft, getLsbD_lowMask (by omega)]
    simp only [Bool.and_eq_true, Bool.not_eq_true', decide_eq_true_eq, decide_eq_false_iff_not]
    omega
  rw [putField, getLsbD_blend]
  exact if_congr hmask rfl rfl

/-- A field that has been replaced holds the new value. -/
theorem extractLsb'_putField (old v : Word) {lo w : Nat} (h : lo + w ≤ 64) :
    (putField old v lo w).extractLsb' lo w = v.extractLsb' lo w := by
  apply BitVec.eq_of_getLsbD_eq
  intro i hi
  have : lo ≤ lo + i ∧ lo + i < lo + w := by omega
  simp only [BitVec.getLsbD_extractLsb', getLsbD_putField old v h, if_pos this]

/-- A field beside the one replaced stays. -/
theorem extractLsb'_putField_beside (old v : Word) {lo w k n : Nat} (h : lo + w ≤ 64) (hd : k + n ≤ lo ∨ lo + w ≤ k) :
    (putField old v lo w).extractLsb' k n = old.extractLsb' k n := by
  apply BitVec.eq_of_getLsbD_eq
  intro i hi
  have : ¬ (lo ≤ k + i ∧ k + i < lo + w) := by omega
  simp only [BitVec.getLsbD_extractLsb', getLsbD_putField old v h, if_neg this]

/-- A bit of a value put together bit by bit. -/
theorem getLsbD_foldl_bits {w : Nat} (b : Nat → Bool) {i : Nat} (hi : i < w) (n : Nat) :
    ((List.range n).foldl (fun (acc : BitVec w) j => if b j then acc ||| (1#w <<< j) else acc) 0).getLsbD i =
      (decide (i < n) && b i) := by
  have step : ∀ (acc : BitVec w) (j : Nat), (if b j then acc ||| (1#w <<< j) else acc).getLsbD i =
      (acc.getLsbD i || (decide (i = j) && b i)) := by
    intro acc j
    by_cases hij : i = j
    · subst hij
      cases b i <;> simp [hi]
    · have : ¬ (j ≤ i ∧ i - j = 0) := by omega
      cases b j <;> simp [hij]
      omega
  induction n with
  | zero => simp
  | succ n ih =>
    have : decide (i < n + 1) = (decide (i < n) || decide (i = n)) := by
      rw [← Bool.decide_or, decide_eq_decide]
      omega
    rw [List.range_succ, List.foldl_append, List.foldl_cons, List.foldl_nil, step, ih, this, Bool.and_or_distrib_right]

/-- R121: bit `i` of %sem after a write: a unit that is off is not taken. -/
theorem getLsbD_semMerge (c : Core) (v : Word) {i : Nat} (hi : i < 6) :
    (semMerge c v).getLsbD i =
      if c.semDis.getLsbD (2 * (i / 2) + (if v.getLsbD i then 1 else 0)) then c.semMap.getLsbD i else v.getLsbD i := by
  have := getLsbD_foldl_bits (fun j => if c.semDis.getLsbD (2 * (j / 2) + (if v.getLsbD j then 1 else 0))
    then c.semMap.getLsbD j else v.getLsbD j) hi 6
  rwa [decide_eq_true hi, Bool.true_and] at this

/-- One field of %lct is written, or left when the value is reserved. -/
theorem extractLsb'_lctField (acc v : Word) {j k : Nat} (hj : j < 8) :
    (if (v.extractLsb' (8 * j) 8).toNat < 64 then putField acc v (8 * j) 8 else acc).extractLsb' (8 * k) 8 =
      if k = j ∧ (v.extractLsb' (8 * k) 8).toNat < 64 then v.extractLsb' (8 * k) 8 else acc.extractLsb' (8 * k) 8 := by
  by_cases hkj : k = j
  · subst hkj
    split
    · next hv => rw [extractLsb'_putField _ _ (by omega), if_pos ⟨rfl, hv⟩]
    · next hv => rw [if_neg fun h => hv h.2]
  · have hn : ¬ (k = j ∧ (v.extractLsb' (8 * k) 8).toNat < 64) := fun h => hkj h.1
    rw [if_neg hn]
    split
    · exact extractLsb'_putField_beside _ _ (by omega) (by omega)
    · rfl

/-- R192: a field of %lct after a write: a reserved value leaves it. -/
theorem extractLsb'_lctMerge (old v : Word) {k : Nat} (hk : k < 8) :
    (lctMerge old v).extractLsb' (8 * k) 8 =
      if (v.extractLsb' (8 * k) 8).toNat < 64 then v.extractLsb' (8 * k) 8 else old.extractLsb' (8 * k) 8 := by
  have fields : ∀ n, n ≤ 8 → ((List.range n).foldl (fun acc j =>
      if (v.extractLsb' (8 * j) 8).toNat < 64 then putField acc v (8 * j) 8 else acc) old).extractLsb' (8 * k) 8 =
      if k < n ∧ (v.extractLsb' (8 * k) 8).toNat < 64 then v.extractLsb' (8 * k) 8 else old.extractLsb' (8 * k) 8 := by
    intro n hn
    induction n with
    | zero => rw [if_neg fun h => Nat.not_lt_zero k h.1]; rfl
    | succ n ih =>
      rw [List.range_succ, List.foldl_append, List.foldl_cons, List.foldl_nil, extractLsb'_lctField _ _ (by omega),
        ih (by omega), ← ite_or]
      exact if_congr (or_and_right.symm.trans (and_congr_left' (by omega))) rfl rfl
  rw [lctMerge, fields 8 (Nat.le_refl 8)]
  exact if_congr (and_iff_right hk) rfl rfl

/-- R477: the groups of `MROT` are those written. -/
theorem mrotMerge_groups (old v : Word) : (mrotMerge old v).extractLsb' 8 2 = v.extractLsb' 8 2 := by
  unfold mrotMerge
  dsimp only
  split
  · rw [extractLsb'_putField_beside _ _ (by decide) (by decide), extractLsb'_putField _ _ (by decide)]
  · rw [extractLsb'_putField _ _ (by decide)]

/-- R477: `RPER` takes 8 to 32. -/
theorem mrotMerge_period (old v : Word) : (mrotMerge old v).extractLsb' 0 8 =
    if 8 ≤ (v.extractLsb' 0 8).toNat ∧ (v.extractLsb' 0 8).toNat ≤ 32 then v.extractLsb' 0 8 else old.extractLsb' 0 8 := by
  unfold mrotMerge
  dsimp only
  split
  · rw [extractLsb'_putField _ _ (by decide)]
  · rw [extractLsb'_putField_beside _ _ (by decide) (by decide)]

/-! ## `TCTL` -/

theorem getLsbD_bitAt {k : Nat} (hk : k < 64) (i : Nat) : (1#64 <<< k).getLsbD i = decide (i = k) := by
  rw [BitVec.getLsbD_shiftLeft, BitVec.getLsbD_one, Bool.eq_iff_iff]
  simp only [Bool.and_eq_true, Bool.not_eq_true', decide_eq_true_eq, decide_eq_false_iff_not]
  omega

/-- What `fullNow` does to `TCTL`: bit 61 says whether the ring is full, the others stay. -/
theorem getLsbD_fullNow (m : Meas) (i : Nat) : (fullNow m).tctl.getLsbD i =
    if i = 61 then decide (traceCap m ≤ m.tpos) && (traceOn m || traceFull m) else m.tctl.getLsbD i := by
  unfold fullNow
  split
  · next h =>
    rw [h, BitVec.getLsbD_or, getLsbD_bitAt (by decide)]
    by_cases hi : i = 61 <;> simp [hi]
  · next h =>
    rw [Bool.not_eq_true] at h
    rw [h, BitVec.getLsbD_and, BitVec.getLsbD_not, getLsbD_bitAt (by decide)]
    by_cases hi : i = 61
    · simp [hi]
    · have hz : ¬ i < 64 → m.tctl.getLsbD i = false := fun h => BitVec.getLsbD_of_ge _ _ (Nat.le_of_not_lt h)
      by_cases h64 : i < 64
      · simp [hi, h64]
      · simp [hi, hz h64]

theorem fullNow_tctl_only (m : Meas) : fullNow m = { m with tctl := (fullNow m).tctl } := by
  unfold fullNow
  split <;> rfl

/-- The value a write of `TCTL` brings, before `TFUL` is brought up to date. -/
def tctlNew (v : Word) (m : Meas) : Word := putField (putField (m.tctl &&& (7#64 <<< 61)) v 62 2) v 0 20

theorem getLsbD_tctlNew_high (v : Word) (m : Meas) {i : Nat} (hi : i = 62 ∨ i = 63) :
    (tctlNew v m).getLsbD i = v.getLsbD i := by
  rw [tctlNew, getLsbD_putField _ _ (by decide), if_neg (by omega), getLsbD_putField _ _ (by decide), if_pos (by omega)]

theorem getLsbD_tctlNew_full (v : Word) (m : Meas) : (tctlNew v m).getLsbD 61 = m.tctl.getLsbD 61 := by
  rw [tctlNew, getLsbD_putField _ _ (by decide), if_neg (by decide), getLsbD_putField _ _ (by decide), if_neg (by decide),
    BitVec.getLsbD_and]
  exact Bool.and_true _

theorem extractLsb'_tctlNew (v : Word) (m : Meas) : (tctlNew v m).extractLsb' 0 20 = v.extractLsb' 0 20 :=
  extractLsb'_putField _ _ (by decide)

/-- Whether a write of `TCTL` starts an empty ring (R479). -/
def ringStarts (v : Word) (m : Meas) : Bool := v.getLsbD 63 && !traceOn m

theorem tctlWrite_starts {v : Word} {m : Meas} (h : ringStarts v m = true) : tctlWrite v m =
    fullNow { m with tctl := tctlNew v m, tpos := 0, tstep := 0, outcomes := [], twait := [] } := by
  unfold ringStarts at h
  simp only [tctlWrite, h, if_true]
  rfl

theorem tctlWrite_keeps {v : Word} {m : Meas} (h : ringStarts v m = false) : tctlWrite v m =
    fullNow { m with tctl := tctlNew v m } := by
  unfold ringStarts at h
  simp only [tctlWrite, h, Bool.false_eq_true, if_false]
  rfl

/-- R478: the writable bits of `TCTL` are those written. -/
theorem tctlWrite_fields (v : Word) (m : Meas) :
    (tctlWrite v m).tctl.getLsbD 63 = v.getLsbD 63 ∧ (tctlWrite v m).tctl.getLsbD 62 = v.getLsbD 62 ∧
      (tctlWrite v m).tctl.extractLsb' 0 20 = v.extractLsb' 0 20 := by
  obtain ⟨m', ht, hw⟩ : ∃ m', m'.tctl = tctlNew v m ∧ tctlWrite v m = fullNow m' := by
    cases h : ringStarts v m with
    | true => exact ⟨_, rfl, tctlWrite_starts h⟩
    | false => exact ⟨_, rfl, tctlWrite_keeps h⟩
  refine ⟨?_, ?_, ?_⟩
  · rw [hw, getLsbD_fullNow, if_neg (by decide), ht, getLsbD_tctlNew_high v m (.inr rfl)]
  · rw [hw, getLsbD_fullNow, if_neg (by decide), ht, getLsbD_tctlNew_high v m (.inl rfl)]
  · rw [← extractLsb'_tctlNew v m]
    apply BitVec.eq_of_getLsbD_eq
    intro i hi
    rw [BitVec.getLsbD_extractLsb', BitVec.getLsbD_extractLsb', hw, getLsbD_fullNow, if_neg (by omega), ht]

/-- R479: tracing that is turned on starts at step 0 of an empty ring, full only when it has no place. -/
theorem tctlWrite_started {v : Word} {m : Meas} (h : ringStarts v m = true) :
    (tctlWrite v m).tpos = 0 ∧ (tctlWrite v m).tstep = 0 ∧ (tctlWrite v m).twait = [] ∧
      ((tctlWrite v m).tctl.getLsbD 61 = true ↔ v.extractLsb' 0 20 = 0) := by
  rw [tctlWrite_starts h]
  refine ⟨?_, ?_, ?_, ?_⟩
  · rw [fullNow_tctl_only]
  · rw [fullNow_tctl_only]
  · rw [fullNow_tctl_only]
  · have hon : (tctlNew v m).getLsbD 63 = true := by
      rw [getLsbD_tctlNew_high v m (.inr rfl)]
      exact (Bool.and_eq_true_iff.1 h).1
    rw [getLsbD_fullNow, if_pos rfl]
    simp only [traceCap, traceOn, extractLsb'_tctlNew, hon, Bool.true_or, Bool.and_true, decide_eq_true_eq, Nat.le_zero,
      Nat.mul_eq_zero, or_false, BitVec.toNat_eq, OfNat.ofNat_ne_zero]
    exact Iff.rfl

/-- R478: any other write keeps the ring's place, and `TFUL` tells whether it is full for the size written. -/
theorem tctlWrite_kept {v : Word} {m : Meas} (h : ringStarts v m = false) :
    (tctlWrite v m).tpos = m.tpos ∧ (tctlWrite v m).twait = m.twait ∧
      ((tctlWrite v m).tctl.getLsbD 61 = true ↔ 256 * (v.extractLsb' 0 20).toNat ≤ m.tpos ∧
        (v.getLsbD 63 = true ∨ m.tctl.getLsbD 61 = true)) := by
  rw [tctlWrite_keeps h]
  refine ⟨?_, ?_, ?_⟩
  · rw [fullNow_tctl_only]
  · rw [fullNow_tctl_only]
  · rw [getLsbD_fullNow, if_pos rfl]
    simp only [traceCap, traceOn, traceFull, extractLsb'_tctlNew, getLsbD_tctlNew_high v m (.inr rfl), getLsbD_tctlNew_full,
      Bool.and_eq_true, decide_eq_true_eq, Bool.or_eq_true, Nat.mul_comm]

/-! ## Writes at the homes by an agent outside the clusters -/

/-- Nothing changed but the home memory, the L2s' copies and what the homes know of them. -/
def homeOnly (s t : State) : Prop :=
  ∃ home poison l2 dir hostHeld, t = { s with home := home, poison := poison, l2 := l2, dir := dir, hostHeld := hostHeld }

theorem homeOnly.refl (s : State) : homeOnly s s := ⟨_, _, _, _, _, rfl⟩
theorem homeOnly.trans {s t u : State} (h : homeOnly s t) (k : homeOnly t u) : homeOnly s u := by
  obtain ⟨_, _, _, _, _, rfl⟩ := h
  obtain ⟨_, _, _, _, _, rfl⟩ := k
  exact ⟨_, _, _, _, _, rfl⟩
theorem homeOnly.foldl {α : Type} {f : State → α → State} (hf : ∀ s x, homeOnly s (f s x)) (l : List α) (s : State) :
    homeOnly s (l.foldl f s) := by
  induction l generalizing s with
  | nil => exact .refl s
  | cons a l ih => exact (hf s a).trans (ih _)
theorem homeOnly.core {s t : State} (h : homeOnly s t) : t.core = s.core := by
  obtain ⟨_, _, _, _, _, rfl⟩ := h
  rfl

theorem flushOwner_homeOnly (s : State) (key : Nat) : homeOnly s (flushOwner s key) := by
  unfold flushOwner
  split
  · exact .refl s
  · split <;> exact ⟨_, _, _, _, _, rfl⟩
theorem l2Inval_homeOnly (s : State) (keep : Option Nat) (key : Nat) : homeOnly s (l2Inval s keep key) := by
  unfold l2Inval
  split
  · exact .refl s
  · exact ⟨_, _, _, _, _, rfl⟩
theorem homeWrite_homeOnly (s : State) (c : Option Nat) (key : Nat) (d : BitVec 512) (m : BitVec 64) :
    homeOnly s (homeWrite s c key d m) :=
  ((flushOwner_homeOnly s key).trans (l2Inval_homeOnly _ c key)).trans ⟨_, _, _, _, _, rfl⟩
theorem homeStore_homeOnly (l : List (Nat × Byte)) (s : State) : homeOnly s (homeStore none l s) :=
  .foldl (fun _ _ => homeWrite_homeOnly _ _ _ _ _) _ s
theorem homeBytesPut_homeOnly (a : Nat) (l : List Byte) (s : State) : homeOnly s (homeBytesPut a l s) :=
  .foldl (fun _ _ => homeStore_homeOnly _ _) _ s
theorem homeWordPut_homeOnly (a : Nat) (w : Word) (s : State) : homeOnly s (homeWordPut a w s) := homeBytesPut_homeOnly _ _ _

/-! ## Bytes written within one line are read back -/

theorem bytesAt_cons (a : Nat) (b : Byte) (l : List Byte) : bytesAt a (b :: l) = (a, b) :: bytesAt (a + 1) l := by
  simp only [bytesAt, List.length_cons, List.range_succ_eq_map, List.zipWith_cons_cons, Nat.add_zero, List.zipWith_map_left]
  congr 2
  funext i b
  rw [Nat.add_assoc, Nat.add_comm 1 i]

theorem length_bytesAt (a : Nat) (l : List Byte) : (bytesAt a l).length = l.length := by simp [bytesAt]

theorem mem_bytesAt {a : Nat} {l : List Byte} {x : Nat × Byte} (h : x ∈ bytesAt a l) : a ≤ x.1 ∧ x.1 < a + l.length := by
  induction l generalizing a with
  | nil => exact absurd h List.not_mem_nil
  | cons b r ih =>
    rw [bytesAt_cons, List.mem_cons] at h
    rw [List.length_cons]
    rcases h with rfl | h
    · exact ⟨Nat.le_refl _, by show a < _; omega⟩
    · have := ih h
      omega

/-- Bytes of one line lie under one key. -/
theorem keysOf_bytesAt {key a : Nat} {l : List Byte} (hl : l ≠ []) (ha : 64 * key ≤ a) (hb : a + l.length ≤ 64 * key + 64) :
    keysOf ((bytesAt a l).map (·.1)) = [key] := by
  have hall : (bytesAt a l).map (lineKey ∘ (·.1)) = List.replicate l.length key := by
    rw [← length_bytesAt a l]
    refine List.map_eq_replicate_iff.2 fun x hx => ?_
    have := mem_bytesAt hx
    show x.1 / 64 = key
    omega
  obtain ⟨n, hn⟩ : ∃ n, l.length = n + 1 := Nat.exists_eq_succ_of_ne_zero fun h => hl (List.length_eq_zero_iff.1 h)
  have dups : ∀ n, (List.replicate n key).filter (fun b => !b == key) = [] := fun n => by simp
  rw [keysOf, List.map_map, hall, hn, List.replicate_succ, List.eraseDups_cons, dups]
  rfl

theorem lineByte_putByte (d : BitVec 512) (b : Byte) {i j : Nat} (hi : i < 64) (hj : j < 64) :
    lineByte (putByte d j b) i = if i = j then b else lineByte d i := by
  apply BitVec.eq_of_getLsbD_eq
  intro k hk
  have hff : ∀ n, (0xFF : BitVec 512).getLsbD n = decide (n < 8) := by
    intro n
    have h8 : n < 8 → n < 512 := by omega
    have : Nat.testBit 255 n = decide (n < 8) := Nat.testBit_two_pow_sub_one 8 n
    show (BitVec.ofNat 512 255).getLsbD n = _
    rw [BitVec.getLsbD_ofNat, this, Bool.and_eq_right_iff_imp]
    simpa using h8
  have h512 : 8 * i + k < 512 := by omega
  simp only [lineByte, putByte, BitVec.getLsbD_extractLsb', hk, decide_true, Bool.true_and, BitVec.getLsbD_or, BitVec.getLsbD_and,
    BitVec.getLsbD_not, BitVec.getLsbD_shiftLeft, BitVec.getLsbD_setWidth, hff, h512]
  rcases Nat.lt_trichotomy i j with h | h | h
  · have h1 : 8 * i + k < 8 * j := by omega
    have h2 : ¬ i = j := by omega
    simp [h1, h2, hk]
  · subst h
    have h1 : ¬ 8 * i + k < 8 * i := by omega
    have h3 : k < 512 := by omega
    simp [hk, h3]
  · have h1 : ¬ 8 * i + k < 8 * j := by omega
    have h2 : ¬ i = j := by omega
    have h3 : ¬ 8 * i + k - 8 * j < 8 := by omega
    have h4 : b.getLsbD (8 * i + k - 8 * j) = false := BitVec.getLsbD_of_ge _ _ (by omega)
    simp [h1, h2, h3, h4, hk]

theorem getLsbD_bit64 {j : Nat} (hj : j < 64) (i : Nat) : (bit64 j).getLsbD i = decide (i = j) := getLsbD_bitAt hj i

/-- One byte and its address taken into a line, as `lineOf` does. -/
def lineStep (key : Nat) (acc : BitVec 512 × BitVec 64) (x : Nat × Byte) : BitVec 512 × BitVec 64 :=
  if lineKey x.1 == key then (putByte acc.1 (x.1 % 64) x.2, acc.2 ||| bit64 (x.1 % 64)) else acc

theorem lineOf_eq (key : Nat) (l : List (Nat × Byte)) : lineOf key l = l.foldl (lineStep key) (0, 0) := rfl

theorem lineStep_inside {key a : Nat} (acc : BitVec 512 × BitVec 64) (b : Byte) (h1 : 64 * key ≤ a) (h2 : a < 64 * key + 64) :
    lineStep key acc (a, b) = (putByte acc.1 (a % 64) b, acc.2 ||| bit64 (a % 64)) := by
  have hk : lineKey a = key := by rw [lineKey]; omega
  rw [lineStep, if_pos (beq_iff_eq.2 hk)]

/-- Each byte of a line that consecutive bytes are taken into. -/
theorem lineByte_foldl_lineStep {key i : Nat} (hi : i < 64) (l : List Byte) {a : Nat} (acc : BitVec 512 × BitVec 64)
    (ha : 64 * key ≤ a) (hb : a + l.length ≤ 64 * key + 64) : lineByte ((bytesAt a l).foldl (lineStep key) acc).1 i =
      if a ≤ 64 * key + i ∧ 64 * key + i < a + l.length then l.getD (64 * key + i - a) 0 else lineByte acc.1 i := by
  induction l generalizing a acc with
  | nil =>
    rw [if_neg (by rw [List.length_nil]; omega)]
    rfl
  | cons b r ih =>
    rw [List.length_cons] at hb ⊢
    rw [bytesAt_cons, List.foldl_cons, lineStep_inside acc b ha (by omega), ih _ (by omega) (by omega),
      lineByte_putByte _ _ hi (Nat.mod_lt _ (by decide))]
    by_cases hfirst : 64 * key + i = a
    · have hzero : 64 * key + i - a = 0 := by omega
      rw [if_neg (by omega), if_pos (by omega), if_pos (by omega), hzero, List.getD_cons_zero]
    · by_cases hin : a + 1 ≤ 64 * key + i ∧ 64 * key + i < a + 1 + r.length
      · have hsucc : 64 * key + i - a = 64 * key + i - (a + 1) + 1 := by omega
        rw [if_pos hin, if_pos (by omega), hsucc, List.getD_cons_succ]
      · rw [if_neg hin, if_neg (by omega), if_neg (by omega)]

/-- The marks of a line that consecutive bytes are taken into. -/
theorem getLsbD_foldl_lineStep {key i : Nat} (hi : i < 64) (l : List Byte) {a : Nat} (acc : BitVec 512 × BitVec 64)
    (ha : 64 * key ≤ a) (hb : a + l.length ≤ 64 * key + 64) : ((bytesAt a l).foldl (lineStep key) acc).2.getLsbD i = true ↔
      (a ≤ 64 * key + i ∧ 64 * key + i < a + l.length) ∨ acc.2.getLsbD i = true := by
  induction l generalizing a acc with
  | nil =>
    have : ¬ (a ≤ 64 * key + i ∧ 64 * key + i < a + ([] : List Byte).length) := by rw [List.length_nil]; omega
    exact (or_iff_right this).symm
  | cons b r ih =>
    rw [List.length_cons] at hb ⊢
    have hplace : i = a % 64 ↔ 64 * key + i = a := by omega
    rw [bytesAt_cons, List.foldl_cons, lineStep_inside acc b ha (by omega), ih _ (by omega) (by omega), BitVec.getLsbD_or,
      getLsbD_bit64 (Nat.mod_lt _ (by decide)), Bool.or_eq_true, decide_eq_true_eq, hplace, or_comm (b := 64 * key + i = a),
      ← or_assoc]
    exact or_congr_left (by omega)

/-- A line put together from bytes of it: each byte in its place, and marked. -/
theorem lineOf_bytesAt {key a : Nat} {l : List Byte} (ha : 64 * key ≤ a) (hb : a + l.length ≤ 64 * key + 64) {i : Nat}
    (hi : i < 64) (hin : a ≤ 64 * key + i ∧ 64 * key + i < a + l.length) :
    lineByte (lineOf key (bytesAt a l)).1 i = l.getD (64 * key + i - a) 0 ∧
      (lineOf key (bytesAt a l)).2.getLsbD i = true := by
  rw [lineOf_eq]
  exact ⟨(lineByte_foldl_lineStep hi l _ ha hb).trans (if_pos hin), (getLsbD_foldl_lineStep hi l _ ha hb).2 (.inl hin)⟩

/-- No L2 owns a line that an agent outside the clusters has just written, so that it is read at its home. -/
theorem homeRead_homeWrite {s : State} {key : Nat} (d : BitVec 512) (m : BitVec 64) (h : leased key = false) :
    homeRead (homeWrite s none key d m) key = homeLine (homeWrite s none key d m) key := by
  have hown : dirOwner (homeWrite s none key d m) key = none := by
    rw [dirOwner_none]
    intro x hx hk
    have hx' : x ∈ (l2Inval (flushOwner s key) none key).dir := hx
    simp only [l2Inval, h, Bool.false_eq_true, if_false, List.mem_filter] at hx'
    simp [hk] at hx'
  rw [homeRead, hown]
  rfl

theorem homeLine_byte {s : State} (key : Nat) (hw : Mem.wf s.home = true) {i : Nat} (hi : i < 64) :
    lineByte (homeLine s key) i = Mem.get s.home (64 * key + i) := by
  apply BitVec.eq_of_getLsbD_eq
  intro j hj
  have h1 : (8 * i + j) / 8 = i := by omega
  have h2 : (8 * i + j) % 8 = j := by omega
  have h3 : 8 * i + j < 512 := by omega
  rw [lineByte, BitVec.getLsbD_extractLsb', homeLine, ofLine, getLsbD_ofBytes, h1, h2, Mem.getBytes_eq _ _ hw]
  simp [hj, h3, hi, List.getD]

/-- A byte that a masked write carries stands at its home. -/
theorem get_homeWrite {s : State} {key : Nat} (d : BitVec 512) (m : BitVec 64) (hw : Mem.wf s.home = true) {i : Nat}
    (hi : i < 64) (hm : m.getLsbD i = true) : Mem.get (homeWrite s none key d m).home (64 * key + i) = lineByte d i := by
  have hw' : Mem.wf (l2Inval (flushOwner s key) none key).home = true :=
    (((flushOwner_calm s key key).trans (l2Inval_calm _ none key key)) hw).1
  have hin : 64 * key ≤ 64 * key + i ∧ 64 * key + i < 64 * key + 64 := by omega
  show Mem.get (Mem.putSome _ _ 64 _) _ = _
  rw [Mem.get_putSome _ _ _ _ hw', if_pos hin, Nat.add_sub_cancel_left, if_pos hm, Option.getD_some]

/-- Bytes within one line that an agent outside the clusters writes are read back (R190). -/
theorem homeBytesGet_homeBytesPut {s : State} {a : Nat} {l : List Byte} (hl : l ≠ []) (hb : a % 64 + l.length ≤ 64)
    (hk : leased (lineKey a) = false) (hw : Mem.wf s.home = true) : homeBytesGet (homeBytesPut a l s) a l.length = l := by
  have hlen : 0 < l.length := List.length_pos_iff.2 hl
  have hone : (a % 64 + l.length + 63) / 64 = 1 := by omega
  have hkey : 64 * lineKey a + a % 64 = a := Nat.div_add_mod a 64
  have hput : homeBytesPut a l s =
      homeWrite s none (lineKey a) (lineOf (lineKey a) (bytesAt a l)).1 (lineOf (lineKey a) (bytesAt a l)).2 := by
    have htake : l.take (64 - a % 64) = l := List.take_of_length_le (by omega)
    have hmax : max a (64 * lineKey a) = a := by omega
    have hkeys : keysOf ((bytesAt a l).map (·.1)) = [lineKey a] := keysOf_bytesAt hl (by omega) (by omega)
    simp only [homeBytesPut, hone, List.range_one, List.foldl_cons, List.foldl_nil, Nat.mul_zero, Nat.zero_sub, List.drop_zero,
      Nat.add_zero, if_true, htake, hmax, homeStore, hkeys]
  have hw' : Mem.wf (homeBytesPut a l s).home = true := by
    rw [hput]
    exact Mem.wf_putSome _ _ _ (((flushOwner_calm s _ 0).trans (l2Inval_calm _ none _ 0)) hw).1
  have hread : homeRead (homeBytesPut a l s) (lineKey a) = homeLine (homeBytesPut a l s) (lineKey a) := by
    rw [hput]
    exact homeRead_homeWrite _ _ hk
  apply List.ext_getElem
  · simp [homeBytesGet, hone]
    omega
  · intro j h1 h2
    have hin : a ≤ 64 * lineKey a + (a % 64 + j) ∧ 64 * lineKey a + (a % 64 + j) < a + l.length := by omega
    obtain ⟨hd, hm⟩ := lineOf_bytesAt (key := lineKey a) (a := a) (l := l) (by omega) (by omega) (by omega) hin
    have hbyte : lineByte (homeLine (homeBytesPut a l s) (lineKey a)) (a % 64 + j) = l.getD j 0 := by
      rw [homeLine_byte _ hw' (by omega), hput, get_homeWrite _ _ hw (by omega) hm, hd]
      congr 1
      omega
    have hj : l.getD j 0 = l[j] := by simp [List.getD, h2]
    rw [← hj, ← hbyte, ← hread]
    simp [homeBytesGet, hone, toBytes, lineByte]

/-! ## The trace ring -/

/-- Writing at the homes leaves the core's registers alone, and so does the trace. -/
theorem traceSlot_a (kind : Nat) (v : BitVec 56) (step : Nat) (s : State) : (traceSlot kind v step s).core.a = s.core.a := by
  show (homeBytesPut _ _ s).core.a = _
  rw [(homeBytesPut_homeOnly _ _ s).core]

theorem tracePutAt_a (kind : Nat) (v : BitVec 56) (step : Nat) (s : State) : (tracePutAt kind v step s).core.a = s.core.a := by
  unfold tracePutAt
  dsimp only
  split
  · rfl
  · split
    · show (if _ then s else traceSlot 4 0 step s).core.a = s.core.a
      split
      · rfl
      · exact traceSlot_a _ _ _ s
    · split
      · rfl
      · exact traceSlot_a _ _ _ s

theorem traceDrain_a (s : State) : (traceDrain s).core.a = s.core.a := by
  have fold : ∀ (l : List (Nat × BitVec 56 × Nat)) (u : State),
      (l.foldl (fun s x => tracePutAt x.1 x.2.1 x.2.2 s) u).core.a = u.core.a := by
    intro l
    induction l with
    | nil => exact fun u => rfl
    | cons x r ih => exact fun u => (ih _).trans (tracePutAt_a _ _ _ u)
  exact fold _ _

/-- No record waits: nothing enters the ring. -/
theorem traceDrain_none {s : State} (h : s.core.m.twait = []) : traceDrain s = s.mapM fun m => { m with twait := [] } := by
  rw [traceDrain, h, List.foldl_nil]

/-- R478, R479: a record goes to the next place of a ring that has room. -/
theorem traceRec_eq {s : State} (kind : Nat) (v : BitVec 56) (hon : traceOn s.core.m = true) (hout : s.core.m.outcomes = [])
    (hroom : s.core.m.tpos + 1 < traceCap s.core.m) : traceRec kind v s =
      (homeBytesPut (s.core.m.tbase.toNat + 16 * s.core.m.tpos) (traceBytes kind v s.core.m.tstep) s).mapM
        fun m => { m with tpos := m.tpos + 1 } := by
  have hflush : traceFlush s = s := by rw [traceFlush, hout]; rfl
  have h1 : ¬ traceCap s.core.m ≤ s.core.m.tpos + 1 := by omega
  have h2 : ¬ traceCap s.core.m ≤ s.core.m.tpos := by omega
  simp only [traceRec, hflush, tracePut, tracePutAt, hon, traceSlot, h1, h2, decide_false, Bool.and_false, Bool.not_true,
    Bool.false_eq_true, if_false]

theorem traceRec_writes {s : State} (kind : Nat) (v : BitVec 56) (hon : traceOn s.core.m = true) (hout : s.core.m.outcomes = [])
    (hroom : s.core.m.tpos + 1 < traceCap s.core.m) (hbase : s.core.m.tbase.toNat % 64 = 0) (hw : Mem.wf s.home = true) :
    (traceRec kind v s).core.a = s.core.a ∧ (traceRec kind v s).core.m.tpos = s.core.m.tpos + 1 ∧
      homeBytesGet (traceRec kind v s) (s.core.m.tbase.toNat + 16 * s.core.m.tpos) 16 =
        traceBytes kind v s.core.m.tstep := by
  have hlen : (traceBytes kind v s.core.m.tstep).length = 16 := by simp [traceBytes]
  have hlow : s.core.m.tpos < 2 ^ 28 := by
    have := (s.core.m.tctl.extractLsb' 0 20).isLt
    unfold traceCap at hroom
    omega
  have hkey : leased (lineKey (s.core.m.tbase.toNat + 16 * s.core.m.tpos)) = false := by
    have := s.core.m.tbase.isLt
    rw [leased, decide_eq_false_iff_not, lineKey]
    omega
  have hcore := (homeBytesPut_homeOnly (s.core.m.tbase.toNat + 16 * s.core.m.tpos) (traceBytes kind v s.core.m.tstep) s).core
  rw [traceRec_eq kind v hon hout hroom]
  refine ⟨?_, ?_, ?_⟩
  · rw [State.mapM_core, hcore]
  · rw [State.mapM_core, hcore]
  · have := homeBytesGet_homeBytesPut (s := s) (a := s.core.m.tbase.toNat + 16 * s.core.m.tpos)
      (l := traceBytes kind v s.core.m.tstep) (List.ne_nil_of_length_pos (by omega)) (by omega) hkey hw
    rwa [hlen] at this

/-! ## Registers of the measurement block -/

theorem ctrUpd_same (i : Fin 16) (f : Ctr → Ctr) (m : Meas) : (ctrUpd i f m).ctrs.get i = f (m.ctrs.get i) := by
  rw [ctrUpd, get_set, if_pos rfl]
theorem ctrUpd_other {i j : Fin 16} (f : Ctr → Ctr) (m : Meas) (h : j ≠ i) : (ctrUpd i f m).ctrs.get j = m.ctrs.get j := by
  rw [ctrUpd, get_set, if_neg fun e => h (Fin.ext e.symm)]

/-! ## Page migration -/

/-- R426, R427: a request is kept under its table and entry. -/
theorem addMigr_kept (ktt vbase tick pkg src : Nat) (s : State) : ∃ m ∈ (addMigr ktt vbase tick pkg src s).migrs,
    m.key = ktt ∧ m.vbase = vbase ∧ ∃ r ∈ m.reqs, r.pkg = pkg ∧ r.src = src := by
  unfold addMigr
  dsimp only
  split
  · next h =>
    obtain ⟨m, hm, hmine⟩ := List.any_eq_true.1 h
    obtain ⟨hk, hv⟩ : m.key = ktt ∧ m.vbase = vbase := by simpa using hmine
    refine ⟨_, List.mem_map_of_mem hm, ?_⟩
    cases hr : m.reqs.any fun r => r.pkg == pkg && r.src == src with
    | true =>
      obtain ⟨r, hmem, hreq⟩ := List.any_eq_true.1 hr
      simp only [hmine, Bool.not_true, Bool.and_false, Bool.false_eq_true, if_false]
      exact ⟨hk, hv, r, hmem, by simpa using hreq⟩
    | false =>
      simp only [hmine, Bool.not_false, Bool.and_true, if_true]
      exact ⟨hk, hv, _, List.mem_append_right _ (List.mem_singleton.2 rfl), rfl, rfl⟩
  · exact ⟨_, List.mem_append_right _ (List.mem_singleton.2 rfl), rfl, rfl, _, List.mem_singleton.2 rfl, rfl, rfl⟩

/-- The tasks, the launches and the migrations stay. -/
def keepsTasks (s t : State) : Prop := t.tasks = s.tasks ∧ t.launches = s.launches ∧ t.migrs = s.migrs

theorem keepsTasks.refl (s : State) : keepsTasks s s := ⟨rfl, rfl, rfl⟩
theorem keepsTasks.trans {s t u : State} (h : keepsTasks s t) (k : keepsTasks t u) : keepsTasks s u :=
  ⟨k.1.trans h.1, k.2.1.trans h.2.1, k.2.2.trans h.2.2⟩
theorem keepsTasks.foldl {α : Type} {f : State → α → State} (hf : ∀ s x, keepsTasks s (f s x)) (l : List α) (s : State) :
    keepsTasks s (l.foldl f s) := by
  induction l generalizing s with
  | nil => exact .refl s
  | cons a l ih => exact (hf s a).trans (ih _)
theorem homeOnly.keepsTasks {s t : State} (h : homeOnly s t) : keepsTasks s t := by
  obtain ⟨_, _, _, _, _, rfl⟩ := h
  exact ⟨rfl, rfl, rfl⟩
theorem cacheOnly.keepsTasks {s t : State} (h : cacheOnly s t) : keepsTasks s t := by
  obtain ⟨_, _, _, _, _, _, _, _, _, _, _, _, _, _, rfl⟩ := h
  exact ⟨rfl, rfl, rfl⟩

theorem keepsTasks_ite {c : Prop} [Decidable c] {s t u : State} (ht : keepsTasks s t) (hu : keepsTasks s u) :
    keepsTasks s (if c then t else u) := by
  split
  · exact ht
  · exact hu

theorem focus_keepsTasks (n : Nat) (s : State) : keepsTasks s (focus n s) := by
  unfold focus
  split
  · exact .refl s
  · exact ⟨rfl, rfl, rfl⟩
theorem onCore_keepsTasks {f : State → State} (hf : ∀ s, keepsTasks s (f s)) (n : Nat) (s : State) :
    keepsTasks s (onCore n f s) := ((focus_keepsTasks n s).trans (hf _)).trans (focus_keepsTasks _ _)

theorem recallRange_keepsTasks (key n : Nat) (s : State) : keepsTasks s (recallRange key n s) := by
  refine .trans (.foldl (fun s k => onCore_keepsTasks (fun s => ?_) k s) _ s) (.foldl (fun s x => ?_) _ _)
  · exact .trans (.foldl (fun s k => (writeBack_cache s k).keepsTasks) _ s) ⟨rfl, rfl, rfl⟩
  · exact ((l2Push_cache s x.1 x.2).trans (l2Forget_cache x.1 x.2 _)).keepsTasks
theorem moveBytes_keepsTasks (src dst n : Nat) (s : State) : keepsTasks s (moveBytes src dst n s) :=
  (recallRange_keepsTasks src n s).trans ⟨rfl, rfl, rfl⟩
theorem record_keepsTasks (die src : Nat) (cause slot : Byte) (pc val : Word) (s : State) :
    keepsTasks s (record die src cause slot pc val s) := ⟨rfl, rfl, rfl⟩
theorem cwVirt_keepsTasks (es : List KEntry) (va : Nat) (fail : Option Byte) (s : State) :
    keepsTasks s (cwVirt es va fail s).2 := by
  unfold cwVirt
  split
  · exact .refl s
  · exact (homeWordPut_homeOnly _ _ s).keepsTasks
theorem flushNcw_keepsTasks (ktt vbase lsz : Nat) (s : State) : keepsTasks s (flushNcw ktt vbase lsz s) :=
  .trans (t := { s with ncwWait := _ }) ⟨rfl, rfl, rfl⟩ (.foldl (fun s _ => cwVirt_keepsTasks _ _ _ s) _ _)
theorem syncSlots_keepsTasks (s : State) : keepsTasks s (syncSlots s) := by
  refine .foldl (fun s t => ?_) _ s
  split
  · exact (homeWordPut_homeOnly _ _ s).keepsTasks
  · exact .refl s
theorem taskRcb_congr {s t : State} (h : t.launches = s.launches) (x : Task) : taskRcb t x = taskRcb s x := by
  simp only [taskRcb, launchFind, h]

/-- R426, R427: a reply gives the entry its new mapping, clears its requests and readies the tasks that wait for it. -/
theorem migrationReply_gives {s : State} {ktt vbase : Nat} {m : Migr} {e : KEntry}
    (hm : s.migrs.find? (fun m => m.key == ktt && m.vbase == vbase) = some m)
    (he : (kttLoad s ktt).find? (fun e => e.vbase == vbase) = some e) (hr : m.reqs ≠ []) :
    ∃ (t : State) (f : Migr → Migr) (g : Task → Task), exec (.migrationReply ktt vbase) s = .next t ∧
      t.migrs = s.migrs.map f ∧ t.tasks = s.tasks.map g ∧
      (∀ x, (f x).key = x.key ∧ (f x).vbase = x.vbase) ∧
      (∀ x, x.key = ktt → x.vbase = vbase → (f x).res.isSome = true ∧ (f x).reqs = []) ∧
      (∀ x, (g x).id = x.id) ∧
      ∀ x, x.st = .migrating → x.mig = some vbase → (taskRcb s x).map (·.ktt) = some ktt → (g x).st = .ready := by
  have hne : m.reqs.isEmpty = false := by simpa using hr
  rw [exec_migrationReply]
  unfold execMigrationReply
  simp -zeta only [hm, he, hne, Bool.false_eq_true, if_false]
  extract_lets w recent n hk hmm pb hk2 hm2 s1 upd s2 s3 wake
  have h1 : keepsTasks s s1 := keepsTasks_ite (.refl s) (.trans (t := s.bump) ⟨rfl, rfl, rfl⟩ (moveBytes_keepsTasks _ _ _ _))
  have h3 : keepsTasks s2 s3 := keepsTasks_ite (.refl s2) (record_keepsTasks _ _ _ _ _ _ s2)
  have hlaunch : s3.launches = s.launches := h3.2.1.trans h1.2.1
  have htasks : s3.tasks = s.tasks := h3.1.trans h1.1
  have hend := (flushNcw_keepsTasks ktt vbase e.lsz { s3 with tasks := s3.tasks.map wake }).trans (syncSlots_keepsTasks _)
  refine ⟨_, upd, wake, rfl, ?_, ?_, fun x => ?_, fun x hk hv => ?_, fun x => ?_, fun x hst hmig hrcb => ?_⟩
  · rw [hend.2.2, h3.2.2, ← h1.2.2]
    rfl
  · rw [hend.1, ← htasks]
  · simp only [upd]
    split <;> exact ⟨rfl, rfl⟩
  · have hmine : (x.key == ktt && x.vbase == vbase) = true := by simp [hk, hv]
    simp only [upd, hmine, if_true]
    exact ⟨rfl, trivial⟩
  · simp only [wake]
    split <;> rfl
  · have hwait : (x.st == .migrating && x.mig == some vbase && ((taskRcb s3 x).map (·.ktt)).getD 0 == ktt) = true := by
      rw [taskRcb_congr hlaunch, hrcb, hst, hmig]
      simp
    simp only [wake, hwait, if_true]

/-! ## What a register write and a measurement event do -/

theorem dieUpd_gives (s : State) (die : Fin 4) (f : Die → Die) :
    dieUpd s die.val f = { s with dies := (dieUpd s die.val f).dies } ∧
      dieGet (dieUpd s die.val f) die.val = f (dieGet s die.val) :=
  ⟨rfl, by rw [dieGet_dieUpd s die.val die.val f die.isLt, if_pos rfl]⟩

/-- R403: `DSAVE` takes its writable bits. -/
theorem dsave_written (s : State) (v : Word) (die : Fin 4) : ∃ t, exec (.registerWrite (.dsave die) v) s = .next t ∧
    t = { s with dies := t.dies } ∧ (dieGet t die.val).dsave = v &&& 0x00FFFFFFFFF00FFF := by
  obtain ⟨hframe, hdie⟩ := dieUpd_gives s die fun d => { d with dsave := v &&& 0x00FFFFFFFFF00FFF }
  exact ⟨_, rfl, hframe, congrArg Die.dsave hdie⟩

/-- R441: `FEAT` is written only while nothing runs. -/
theorem feat_written (s : State) (v : Word) : exec (.registerWrite .feat v) s =
    .next (if (s.launches.all fun l => l.retired) = true then { s with feat := v.setWidth 6 } else s) := rfl

/-- Bit 0 opens a die's launch windows, their queues as reset leaves them (log entry 4). -/
theorem launchWindow_written (s : State) (v : Word) (die : Fin 4) :
    ∃ t, exec (.registerWrite (.launchWindow die) v) s = .next t ∧ t = { s with dies := t.dies } ∧
      (v.getLsbD 0 = true → (dieGet t die.val).opened = true ∧ ∀ q, (dieGet t die.val).queues.get q = LQueue.reset) ∧
      (v.getLsbD 0 = false → dieGet t die.val = dieGet s die.val) := by
  have hexec : exec (.registerWrite (.launchWindow die) v) s = .next (if v.getLsbD 0 = true then
      dieUpd s die.val fun d => { d with opened := true, queues := Vector.replicate 64 LQueue.reset } else s) := rfl
  rw [hexec]
  cases v.getLsbD 0 with
  | true =>
    obtain ⟨hframe, hdie⟩ := dieUpd_gives s die fun d => { d with opened := true, queues := Vector.replicate 64 LQueue.reset }
    refine ⟨_, congrArg _ (if_pos rfl), hframe, fun _ => ?_, nofun⟩
    rw [hdie]
    exact ⟨rfl, fun q => Vector.get_replicate _ _ q⟩
  | false => exact ⟨s, rfl, rfl, nofun, fun _ => rfl⟩

/-- The operation of `DFCMD` that a write at its offset starts. -/
theorem dfcmd_written (s : State) (v : Word) (die : Fin 4) :
    (v.extractLsb' 58 2 = 0 → exec (.registerWrite (.disp die 0x010) v) s = exec (.dfcmdQuery die (v.setWidth 12)) s) ∧
    (v.extractLsb' 58 2 = 1 → exec (.registerWrite (.disp die 0x010) v) s = exec (.dfcmdResume die (v.setWidth 12)) s) ∧
    (v.extractLsb' 58 2 = 2 → exec (.registerWrite (.disp die 0x010) v) s = exec (.dfcmdCancel die (v.setWidth 12)) s) := by
  simp only [exec_registerWrite, execRegisterWrite, dispWrite]
  exact ⟨fun h => by rw [h]; rfl, fun h => by rw [h]; rfl, fun h => by rw [h]; rfl⟩

/-- The operation of `DDBG` that a write at its offset starts. -/
theorem ddbg_written (s : State) (v : Word) (die : Fin 4) :
    (v.extractLsb' 62 2 = 1 → exec (.registerWrite (.disp die 0x018) v) s = exec (.ddbgStop die (v.setWidth 12)) s) ∧
    (v.extractLsb' 62 2 = 2 → exec (.registerWrite (.disp die 0x018) v) s = exec (.ddbgStep die (v.setWidth 12)) s) ∧
    (v.extractLsb' 62 2 = 3 → exec (.registerWrite (.disp die 0x018) v) s = exec (.ddbgResume die (v.setWidth 12)) s) := by
  simp only [exec_registerWrite, execRegisterWrite, dispWrite]
  exact ⟨fun h => by rw [h]; rfl, fun h => by rw [h]; rfl, fun h => by rw [h]; rfl⟩

/-- A core whose setting is written, when the tick that follows has passed (R477). -/
theorem coreOf_writtenThenTick (s : State) (n : Nat) (f : Meas → Meas) :
    coreOf (passTicks 1 (onCore n (fun u => u.mapM f) s)) n =
      { (focus n s).core with m := ticksMeas s.tick 1 (f (focus n s).core.m) } := by
  have hid : ((focus n s).mapM f).core.id = n := by rw [State.mapM_core, focus_core, coreOf_id]
  have htick : (onCore n (fun u => u.mapM f) s).tick = s.tick := onCore_tick fun _ => rfl
  rw [coreOf_passTicks, coreOf_onCore hid, htick, State.mapM_core]

theorem tick_writtenThenTick (s : State) (n : Nat) (f : Meas → Meas) :
    (passTicks 1 (onCore n (fun u => u.mapM f) s)).tick = (s.tick + 1) % 2 ^ 64 := by
  have htick : (onCore n (fun u => u.mapM f) s).tick = s.tick := onCore_tick fun _ => rfl
  rw [passTicks_tick, htick]

/-- R475: `CCTL` takes its writable bits at the next tick. -/
theorem cctl_written (s : State) (n : Nat) (v : Word) (i : Fin 16) :
    ∃ t, exec (.registerWrite (.cctl n i) v) s = .next t ∧ t.tick = (s.tick + 1) % 2 ^ 64 ∧
      ((coreOf t n).m.ctrs.get i).cctl = v &&& 0x80FC00000003FFFF ∧ (coreOf t n).a = (focus n s).core.a := by
  refine ⟨_, rfl, tick_writtenThenTick s n _, ?_, ?_⟩
  · show ((coreOf (passTicks 1 (onCore n _ s)) n).m.ctrs.get i).cctl = _
    rw [coreOf_writtenThenTick, ticksMeas_cctl, ctrUpd_same]
  · show (coreOf (passTicks 1 (onCore n _ s)) n).a = _
    rw [coreOf_writtenThenTick]

/-- R477: `MROT` takes the groups, and the period when it is in range, at the next tick. -/
theorem mrot_written (s : State) (n : Nat) (v : Word) :
    ∃ t, exec (.registerWrite (.mrot n) v) s = .next t ∧ t.tick = (s.tick + 1) % 2 ^ 64 ∧
      (coreOf t n).m.mrot.extractLsb' 8 2 = v.extractLsb' 8 2 ∧
      (coreOf t n).m.mrot.extractLsb' 0 8 =
        if 8 ≤ (v.extractLsb' 0 8).toNat ∧ (v.extractLsb' 0 8).toNat ≤ 32 then v.extractLsb' 0 8
        else (focus n s).core.m.mrot.extractLsb' 0 8 := by
  refine ⟨_, rfl, tick_writtenThenTick s n _, ?_, ?_⟩
  · show (coreOf (passTicks 1 (onCore n _ s)) n).m.mrot.extractLsb' 8 2 = _
    rw [coreOf_writtenThenTick, ticksMeas_mrot, mrotMerge_groups]
  · show (coreOf (passTicks 1 (onCore n _ s)) n).m.mrot.extractLsb' 0 8 = _
    rw [coreOf_writtenThenTick, ticksMeas_mrot, mrotMerge_period]

/-- R478, R479: what a write of `TCTL` gives where no record waits, or where it starts the ring. -/
theorem tctl_written (s : State) (n : Nat) (v : Word) : let c := focus n s
    ∃ u, exec (.registerWrite (.tctl n) v) s = .next (focus s.core.id u) ∧ u.core.a = c.core.a ∧
      (c.core.m.twait = [] ∨ traceOn c.core.m = false ∧ v.getLsbD 63 = true → u.core.m.tctl.getLsbD 63 = v.getLsbD 63 ∧
        u.core.m.tctl.getLsbD 62 = v.getLsbD 62 ∧ u.core.m.tctl.extractLsb' 0 20 = v.extractLsb' 0 20 ∧
        u.core.m.twait = [] ∧
        (traceOn c.core.m = false → v.getLsbD 63 = true → u.core.m.tpos = 0 ∧ u.core.m.tstep = 0 ∧
          (u.core.m.tctl.getLsbD 61 = true ↔ v.extractLsb' 0 20 = 0)) ∧
        (traceOn c.core.m = true ∨ v.getLsbD 63 = false → u.core.m.tpos = c.core.m.tpos ∧
          (u.core.m.tctl.getLsbD 61 = true ↔ 256 * (v.extractLsb' 0 20).toNat ≤ c.core.m.tpos ∧
            (v.getLsbD 63 = true ∨ c.core.m.tctl.getLsbD 61 = true)))) := by
  intro c
  refine ⟨traceDrain (c.mapM (tctlWrite v)), rfl, traceDrain_a _, fun hwait => ?_⟩
  have hnone : (tctlWrite v c.core.m).twait = [] := by
    cases hst : ringStarts v c.core.m with
    | true => exact (tctlWrite_started hst).2.2.1
    | false =>
      refine (tctlWrite_kept hst).2.1.trans (hwait.resolve_right fun h => ?_)
      rw [ringStarts, h.1, h.2] at hst
      exact nomatch hst
  obtain ⟨hen, hdrop, hsize⟩ := tctlWrite_fields v c.core.m
  rw [traceDrain_none (s := c.mapM (tctlWrite v)) hnone]
  refine ⟨hen, hdrop, hsize, rfl, fun hoff hv => ?_, fun hkeep => ?_⟩
  · obtain ⟨hpos, hstep, -, hfull⟩ := tctlWrite_started (v := v) (m := c.core.m) (by rw [ringStarts, hoff, hv]; rfl)
    exact ⟨hpos, hstep, hfull⟩
  · have hst : ringStarts v c.core.m = false := by
      rcases hkeep with h | h
      · rw [ringStarts, h]
        exact Bool.and_false _
      · rw [ringStarts, h]
        exact Bool.false_and _
    obtain ⟨hpos, -, hfull⟩ := tctlWrite_kept hst
    exact ⟨hpos, hfull⟩

/-- R473: the clear takes effect at the next tick. -/
theorem measurementClear_gives (s : State) (n : Nat) :
    ∃ t, exec (.measurementClear n) s = .next t ∧ t.tick = (s.tick + 1) % 2 ^ 64 ∧ (coreOf t n).a = (focus n s).core.a ∧
      (∀ i, ((coreOf t n).m.ctrs.get i).count = 0) ∧ (∀ i, (coreOf t n).m.hotB.get i = 0 ∧ (coreOf t n).m.hotS.get i = 0) ∧
      ∀ k, (coreOf t n).m.lacc.get k = LAcc.reset := by
  have hcore : coreOf (onCore n clearMeas (passTicks 1 s)) n = (clearMeas (focus n (passTicks 1 s))).core :=
    coreOf_onCore (by simp only [clearMeas, State.mapM_core, focus_core, coreOf_id])
  refine ⟨_, rfl, ?_, ?_, fun i => ?_, fun i => ⟨?_, ?_⟩, fun k => ?_⟩
  · rw [onCore_tick (f := clearMeas) fun _ => rfl, passTicks_tick]
  · rw [hcore, clearMeas, State.mapM_core, focus_core, coreOf_passTicks, focus_core]
  · rw [hcore, clearMeas, State.mapM_core]
    exact congrArg Ctr.count (get_vecOf 16 _ i)
  · rw [hcore, clearMeas, State.mapM_core]
    exact Vector.get_replicate _ _ i
  · rw [hcore, clearMeas, State.mapM_core]
    exact Vector.get_replicate _ _ i
  · rw [hcore, clearMeas, State.mapM_core]
    exact Vector.get_replicate _ _ k

/-- R484: time reaches a multiple of the period, also where it passes the end of the 64-bit count. -/
theorem mod_rotPeriod_boundary (m : Meas) (t : Nat) :
    (t + (rotPeriod m - t % rotPeriod m)) % 2 ^ 64 % rotPeriod m = 0 := by
  have hpos : 0 < rotPeriod m := Nat.two_pow_pos _
  have hdvd : rotPeriod m ∣ t + (rotPeriod m - t % rotPeriod m) := by
    have hlt := Nat.mod_lt t hpos
    have hdiv := Nat.div_add_mod t (rotPeriod m)
    refine ⟨t / rotPeriod m + 1, ?_⟩
    rw [Nat.mul_add, Nat.mul_one]
    omega
  rcases Nat.le_total (m.mrot.extractLsb' 0 8).toNat 64 with h | h
  · exact Nat.mod_eq_zero_of_dvd ((Nat.dvd_mod_iff (pow_dvd_pow 2 h)).2 hdvd)
  · have hwrap : (t + (rotPeriod m - t % rotPeriod m)) % 2 ^ 64 = 0 :=
      Nat.mod_eq_zero_of_dvd ((pow_dvd_pow 2 h).trans hdvd)
    rw [hwrap, Nat.zero_mod]

theorem rotationPeriodBoundary_gives (s : State) (n : Nat) : let p := rotPeriod (focus n s).core.m
    ∃ t, exec (.rotationPeriodBoundary n) s = .next t ∧ t.tick % p = 0 ∧
      t.tick = (s.tick + (p - s.tick % p)) % 2 ^ 64 ∧ (coreOf t n).a = (focus n s).core.a := by
  intro p
  have hp : rotPeriod (coreOf s n).m = p := by rw [← focus_core]
  have hexec : exec (.rotationPeriodBoundary n) s = .next (passTicks (p - s.tick % p) s) := by rw [← hp]; rfl
  refine ⟨_, hexec, ?_, passTicks_tick _ s, ?_⟩
  · rw [passTicks_tick]
    exact mod_rotPeriod_boundary _ _
  · rw [coreOf_passTicks, focus_core]

/-- R473: the words of a core's block as the die's window reaches them. -/
theorem windowWrite_clear {s : State} {die : Fin 4} {off : Nat} {v : Word} (hn : validCore (windowCore die off) = true)
    (ho : off < 512 * 4096) (hi : off % 4096 / 8 = 228) (hv : v.getLsbD 0 = true) :
    windowWrite die off v s = onCore (windowCore die off) clearMeas (passTicks 1 s) := by
  have hr : ¬ 512 * 4096 ≤ off := Nat.not_le.2 ho
  simp only [windowWrite, hn, hr, hi, hv, Bool.not_true, decide_false, Bool.or_self, Bool.false_eq_true, if_false, if_true]

theorem windowWrite_reg {s : State} {die : Fin 4} {off : Nat} {v : Word} {r : DevReg}
    (hn : validCore (windowCore die off) = true) (ho : off < 512 * 4096) (hi : off % 4096 / 8 ≠ 228)
    (hb : blockReg (windowCore die off) (off % 4096 / 8) = some r) : windowWrite die off v s = coreReg r v s := by
  have hr : ¬ 512 * 4096 ≤ off := Nat.not_le.2 ho
  simp only [windowWrite, hn, hr, hi, hb, Bool.not_true, decide_false, Bool.or_self, Bool.false_eq_true, if_false]

theorem windowWrite_none {s : State} {die : Fin 4} {off : Nat} {v : Word} (hn : validCore (windowCore die off) = true)
    (ho : off < 512 * 4096) (hi : off % 4096 / 8 ≠ 228) (hb : blockReg (windowCore die off) (off % 4096 / 8) = none) :
    windowWrite die off v s = s := by
  have hr : ¬ 512 * 4096 ≤ off := Nat.not_le.2 ho
  simp only [windowWrite, hn, hr, hi, hb, Bool.not_true, decide_false, Bool.or_self, Bool.false_eq_true, if_false]

theorem blockReg_cctl (n : Nat) (k : Fin 16) : blockReg n (128 + 4 * k.val) = some (.cctl n k) := by
  fin_cases k <;> rfl

theorem blockReg_readOnly (n : Nat) {i : Nat} (h : i < 128 ∨ (192 ≤ i ∧ i < 224) ∨ i = 227 ∨ 228 < i) :
    blockReg n i = none := by
  have h1 : (decide (128 ≤ i) && decide (i < 192)) = false := by
    rw [Bool.and_eq_false_iff, decide_eq_false_iff_not, decide_eq_false_iff_not]
    omega
  have h2 : i ≠ 224 := by omega
  have h3 : i ≠ 225 := by omega
  have h4 : i ≠ 226 := by omega
  simp only [blockReg, h1, h2, h3, h4, Bool.false_eq_true, if_false]

theorem window_written {s : State} {n : Nat} {v : Word} {die : Fin 4} {off : Nat} (hd : windowCore die off = n)
    (hn : validCore n = true) (ho : off < 512 * 4096) : let i := off % 4096 / 8
    (i = 228 → v.getLsbD 0 = true → exec (.registerWrite (.window die off) v) s = exec (.measurementClear n) s) ∧
    (∀ k : Fin 16, i = 128 + 4 * k.val →
      exec (.registerWrite (.window die off) v) s = exec (.registerWrite (.cctl n k) v) s) ∧
    (i = 224 → exec (.registerWrite (.window die off) v) s = exec (.registerWrite (.mrot n) v) s) ∧
    (i < 128 ∨ (192 ≤ i ∧ i < 224) ∨ i = 227 ∨ 228 < i → exec (.registerWrite (.window die off) v) s = .next s) := by
  intro i
  subst hd
  refine ⟨fun hi hv => ?_, fun k hi => ?_, fun hi => ?_, fun hi => ?_⟩
  · exact congrArg _ (windowWrite_clear hn ho hi hv)
  · exact congrArg _ (windowWrite_reg hn ho (by omega) ((congrArg _ hi).trans (blockReg_cctl _ k)))
  · exact congrArg _ (windowWrite_reg hn ho (by omega) (congrArg _ hi))
  · exact congrArg _ (windowWrite_none hn ho (by omega) (blockReg_readOnly _ hi))

/-- What an event that writes one record on core `n` leaves: the record at the ring's next place, no register changed. -/
theorem recordEvent_writes {s : State} {n : Nat} {i : Instr} {kind : Nat} {x : BitVec 56}
    (hi : exec i s = .next (onCore n (traceRec kind x) s)) : let m := (focus n s).core.m
    traceOn m = true → m.outcomes = [] → m.tpos + 1 < traceCap m → m.tbase.toNat % 64 = 0 → Mem.wf s.home = true →
    ∃ u, exec i s = .next (focus s.core.id u) ∧ u.core.a = (focus n s).core.a ∧ u.core.m.tpos = m.tpos + 1 ∧
      homeBytesGet u (m.tbase.toNat + 16 * m.tpos) 16 =
        toBytes 8 (BitVec.ofNat 64 m.tstep) ++ [BitVec.ofNat 8 kind] ++ toBytes 7 x := by
  intro m hon hout hroom hbase hw
  exact ⟨_, hi, traceRec_writes kind x hon hout hroom hbase ((focus_mem n s).2.1 ▸ hw)⟩

/-- On a core that traces, a record of a stall, a flag wait or a switch is written as it is (R478, R479). -/
theorem traceRecord_on {s : State} {n : Nat} (h : traceOn (focus n s).core.m = true) :
    (∀ (k : BitVec 48) (w : Fin 8), exec (.traceRecord n (.stall k w)) s =
      .next (onCore n (traceRec 1 (BitVec.ofNat 8 w.val ++ k)) s)) ∧
    (∀ x, exec (.traceRecord n (.flagWait x)) s = .next (onCore n (traceRec 3 x) s)) ∧
    ∀ x, exec (.traceRecord n (.switch x)) s = .next (onCore n (traceRec 5 x) s) := by
  have hcause : ∀ w : Fin 8, 0#5 ++ BitVec.ofNat 3 w.val = BitVec.ofNat 8 w.val := by decide
  simp only [exec_traceRecord, execTraceRecord, onCore, h, hcause, Bool.not_true, Bool.false_eq_true, if_false, implies_true,
    and_self]

/-- R479: a counter that samples writes where the core's bundle stands. -/
theorem counterSample_on {s : State} {n : Nat} {i : Fin 16} (slot : BitVec 4) (h : traceOn (focus n s).core.m = true)
    (hon : ctrOn ((focus n s).core.m.ctrs.get i) = true)
    (hp : ((focus n s).core.m.ctrs.get i).cctl.extractLsb' 50 6 ≠ 0) : exec (.counterSample n i slot) s =
      .next (onCore n (traceRec 6 (slot.setWidth 6 ++ (focus n s).core.pc.extractLsb' 6 50)) s) := by
  have hslot : ∀ k : BitVec 4, 0#2 ++ k = k.setWidth 6 := by decide
  simp only [exec_counterSample, execCounterSample, onCore, hon, h, bne_iff_ne.2 hp, hslot, Bool.and_self, if_true]

/-- With no trace an event writes no record. -/
theorem trace_off {s : State} {n : Nat} (h : traceOn (focus n s).core.m = false) :
    (∀ k, exec (.traceRecord n k) s = .next (focus s.core.id (focus n s))) ∧
      ∀ i slot, exec (.counterSample n i slot) s = .next (focus s.core.id (focus n s)) := by
  simp only [exec_traceRecord, execTraceRecord, exec_counterSample, execCounterSample, onCore, h, Bool.not_false, Bool.and_false,
    Bool.false_eq_true, if_true, if_false, implies_true, and_self]

/-- R426: an entry that has been served, and each task that waited for it. -/
theorem migrationReply_serves {s : State} {ktt vbase : Nat} {m : Migr} {e : KEntry}
    (hm : s.migrs.find? (fun m => m.key == ktt && m.vbase == vbase) = some m)
    (he : (kttLoad s ktt).find? (fun e => e.vbase == vbase) = some e) (hr : m.reqs ≠ []) :
    ∃ t m', exec (.migrationReply ktt vbase) s = .next t ∧
      t.migrs.find? (fun m => m.key == ktt && m.vbase == vbase) = some m' ∧ m'.res.isSome = true ∧
      m'.reqs = [] ∧ ∀ x, taskFind s x.id = some x → x.st = .migrating → x.mig = some vbase →
        (taskRcb s x).map (·.ktt) = some ktt → ∃ x', taskFind t x.id = some x' ∧ x'.st = .ready := by
  obtain ⟨t, f, g, hexec, hmigrs, htasks, hkey, hserved, hid, hready⟩ := migrationReply_gives hm he hr
  obtain ⟨hk, hv⟩ : m.key = ktt ∧ m.vbase = vbase := by simpa using List.find?_some hm
  obtain ⟨hres, hreqs⟩ := hserved m hk hv
  refine ⟨t, f m, hexec, ?_, hres, hreqs, fun x hx hst hmig hrcb => ⟨g x, ?_, hready x hst hmig hrcb⟩⟩
  · have hsame : ((fun m : Migr => m.key == ktt && m.vbase == vbase) ∘ f) = fun m => m.key == ktt && m.vbase == vbase := by
      funext y
      simp only [Function.comp_apply, (hkey y).1, (hkey y).2]
    rw [hmigrs, List.find?_map, hsame, hm, Option.map_some]
  · have hsame : ((fun y : Task => y.id == x.id) ∘ g) = fun y => y.id == x.id := by
      funext y
      simp only [Function.comp_apply, hid]
    have hx' : s.tasks.find? (fun y => y.id == x.id) = some x := hx
    rw [taskFind, htasks, List.find?_map, hsame, hx', Option.map_some]

/-- What the trace's events write on a core that traces and has room for more than one record. -/
theorem traceEvents_write {s : State} {n : Nat} : let m := (focus n s).core.m
    let writes (i : Instr) (kind : Byte) (x : BitVec 56) : Prop := ∃ u, exec i s = .next (focus s.core.id u) ∧
      u.core.a = (focus n s).core.a ∧ u.core.m.tpos = m.tpos + 1 ∧ homeBytesGet u (m.tbase.toNat + 16 * m.tpos) 16 =
        toBytes 8 (BitVec.ofNat 64 m.tstep) ++ [kind] ++ toBytes 7 x
    traceOn m = true → m.outcomes = [] → m.tpos + 1 < traceCap m → m.tbase.toNat % 64 = 0 → Mem.wf s.home = true →
      (∀ (k : BitVec 48) (w : Fin 8), writes (.traceRecord n (.stall k w)) 1 ((BitVec.ofNat 8 w.val) ++ k)) ∧
      (∀ x, writes (.traceRecord n (.flagWait x)) 3 x) ∧ (∀ x, writes (.traceRecord n (.switch x)) 5 x) ∧
      ∀ (i : Fin 16) (slot : BitVec 4), ctrOn (m.ctrs.get i) = true → (m.ctrs.get i).cctl.extractLsb' 50 6 ≠ 0 →
        writes (.counterSample n i slot) 6 ((slot.setWidth 6) ++ (focus n s).core.pc.extractLsb' 6 50) := by
  intro m writes hon hout hroom hbase hw
  have event : ∀ {i : Instr} {kind : Nat} {x : BitVec 56}, exec i s = .next (onCore n (traceRec kind x) s) →
      writes i (BitVec.ofNat 8 kind) x := fun hi => recordEvent_writes hi hon hout hroom hbase hw
  obtain ⟨hstall, hwait, hswitch⟩ := traceRecord_on hon
  exact ⟨fun k w => event (hstall k w), fun x => event (hwait x), fun x => event (hswitch x),
    fun i slot hctr hp => event (counterSample_on slot hon hctr hp)⟩

/-- Settles O54, clause by clause: what a register takes of a write, what the measurement block's events do, and what a
migration's request and reply leave. -/
theorem registerAndMeasureResults : Obligations.RegisterAndMeasureResults := by
  unfold Obligations.RegisterAndMeasureResults
  refine ⟨fun s v => ⟨dsave_written s v, fun h => ?idle, fun h => ?busy, launchWindow_written s v, fun die => ?offsets⟩,
    fun s n v => ⟨?sem, ?lct, ?ktt, cctl_written s n v, fun i => ⟨?count, ?tena, ?trun⟩, mrot_written s n v, ?tbase,
      tctl_written s n v, measurementClear_gives s n, rotationPeriodBoundary_gives s n,
      fun die off hd hn ho _ => window_written hd hn ho, traceEvents_write, trace_off⟩,
    fun s ktt vbase tick pkg src => ⟨_, rfl, rfl, addMigr_kept ktt vbase tick pkg src s⟩,
    fun s ktt vbase m e hm he hr => migrationReply_serves hm he hr⟩
  case idle => rw [feat_written, if_pos h]
  case busy => rw [feat_written, if_neg (Bool.not_eq_true _ ▸ h)]
  case offsets =>
    obtain ⟨hquery, hresume, hcancel⟩ := dfcmd_written s v die
    obtain ⟨hstop, hstep, hgo⟩ := ddbg_written s v die
    exact ⟨rfl, rfl, hquery, hresume, hcancel, hstop, hstep, hgo, rfl, rfl⟩
  case sem => exact ⟨_, rfl, rfl, fun i hi => getLsbD_semMerge _ v hi⟩
  case lct => exact ⟨_, rfl, rfl, fun k hk => extractLsb'_lctMerge _ v hk⟩
  case ktt => exact ⟨_, rfl, rfl, rfl, fun h => if_neg (Bool.not_eq_true _ ▸ h)⟩
  case count => exact ⟨_, rfl, rfl, ctrUpd_same i _ _, fun j hj => ctrUpd_other _ _ hj⟩
  case tena => exact ⟨_, rfl, ctrUpd_same i _ _⟩
  case trun => exact ⟨_, rfl, ctrUpd_same i _ _⟩
  case tbase => exact ⟨_, rfl, rfl, rfl⟩

end Sys2Proof.Machine

/-! Block formats: VQUANT, VDEQ and VAMAX (R140 to R147, R279 to R281). -/

namespace Sys2Proof.Machine

/-! ## Exact magnitudes -/

@[simp] theorem FVal.finite_fin (n : Bool) (m : Nat) (e : Int) : (FVal.fin n m e).finite = true := rfl
@[simp] theorem FVal.isNan_fin (n : Bool) (m : Nat) (e : Int) : (FVal.fin n m e).isNan = false := rfl
theorem FVal.rat_fin (n : Bool) (m : Nat) (e : Int) :
    (FVal.fin n m e).rat = (if n then -1 else 1) * (m : ℚ) * (2 : ℚ) ^ e := rfl
@[simp] theorem FVal.rat_fin_false (m : Nat) (e : Int) : (FVal.fin false m e).rat = (m : ℚ) * (2 : ℚ) ^ e := by
  rw [FVal.rat_fin, if_neg Bool.false_ne_true, one_mul]
theorem FVal.rat_fin_true (m : Nat) (e : Int) : (FVal.fin true m e).rat = -((m : ℚ) * (2 : ℚ) ^ e) := by
  rw [FVal.rat_fin, if_pos rfl, neg_one_mul, neg_mul]
@[simp] theorem FVal.abs_rat_fin (n : Bool) (m : Nat) (e : Int) :
    |(FVal.fin n m e).rat| = (m : ℚ) * (2 : ℚ) ^ e := by
  have h : 0 ≤ (m : ℚ) * (2 : ℚ) ^ e := by positivity
  cases n
  · rw [FVal.rat_fin_false, abs_of_nonneg h]
  · rw [FVal.rat_fin_true, abs_neg, abs_of_nonneg h]
@[simp] theorem FVal.rat_fin_eq_zero (n : Bool) (m : Nat) (e : Int) : (FVal.fin n m e).rat = 0 ↔ m = 0 := by
  have h : (2 : ℚ) ^ e ≠ 0 := by positivity
  rw [← abs_eq_zero, FVal.abs_rat_fin, mul_eq_zero, or_iff_left h, Nat.cast_eq_zero]
@[simp] theorem FVal.isZero_fin (n : Bool) (m : Nat) (e : Int) : (FVal.fin n m e).isZero = true ↔ m = 0 := by
  cases m <;> simp [FVal.isZero]
/-- Moving a finite value's exponent scales the number by a power of two. -/
theorem FVal.rat_fin_add (n : Bool) (m : Nat) (e k : Int) :
    (FVal.fin n m (e + k)).rat = (FVal.fin n m e).rat * (2 : ℚ) ^ k := by
  rw [FVal.rat_fin, FVal.rat_fin, zpow_add₀ two_ne_zero, ← mul_assoc]

theorem FVal.finite_iff {v : FVal} : v.finite = true ↔ ∃ n m e, v = .fin n m e := by
  cases v <;> simp [FVal.finite]

/-- A power of two with a non-negative exponent, as a natural number. -/
theorem cast_two_pow_toNat {k : Int} (h : 0 ≤ k) : ((2 ^ k.toNat : Nat) : ℚ) = (2 : ℚ) ^ k := by
  rw [Nat.cast_pow, Nat.cast_ofNat, ← zpow_natCast, Int.toNat_of_nonneg h]

theorem mul_two_pow_toNat {m : Nat} {e q : Int} (h : q ≤ e) :
    ((m * 2 ^ (e - q).toNat : Nat) : ℚ) * (2 : ℚ) ^ q = (m : ℚ) * (2 : ℚ) ^ e := by
  rw [Nat.cast_mul, cast_two_pow_toNat (Int.sub_nonneg_of_le h), mul_assoc, ← zpow_add₀ two_ne_zero, Int.sub_add_cancel]

/-- Magnitudes compare as their multiples of a common unit do. -/
theorem scaled_lt_scaled {m n : Nat} {e f : Int} :
    scaled false m e (min e f) < scaled false n f (min e f) ↔ (m : ℚ) * (2 : ℚ) ^ e < (n : ℚ) * (2 : ℚ) ^ f := by
  have hpos : (0 : ℚ) < (2 : ℚ) ^ (min e f) := by positivity
  rw [← mul_two_pow_toNat (m := m) (min_le_left e f), ← mul_two_pow_toNat (m := n) (min_le_right e f),
    mul_lt_mul_iff_left₀ hpos, Nat.cast_lt]
  simp only [scaled, Bool.false_eq_true, if_false, Int.ofNat_lt]

theorem cmpX_magnitudes {m n : Nat} {e f : Int} : (cmpX (.fin false m e) (.fin false n f) == .lt) = true ↔
    (m : ℚ) * (2 : ℚ) ^ e < (n : ℚ) * (2 : ℚ) ^ f := by
  rw [← scaled_lt_scaled, beq_iff_eq]
  exact compare_lt_iff_lt

theorem two_pow_log2_le {m : Nat} (h : m ≠ 0) : (2 : ℚ) ^ (m.log2 : Int) ≤ m := by
  rw [zpow_natCast]
  exact_mod_cast Nat.log2_self_le h
theorem lt_two_pow_log2 (m : Nat) : (m : ℚ) < (2 : ℚ) ^ ((m.log2 : Int) + 1) := by
  rw [← Nat.cast_succ, zpow_natCast]
  exact_mod_cast Nat.lt_log2_self

/-- `flog2` is the floor of the base-2 logarithm (R145). -/
theorem flog2_le {m : Nat} (h : m ≠ 0) (e : Int) : (2 : ℚ) ^ flog2 m e ≤ m * (2 : ℚ) ^ e := by
  rw [flog2, zpow_add₀ two_ne_zero]
  exact mul_le_mul_of_nonneg_right (two_pow_log2_le h) (by positivity)
theorem lt_flog2 (m : Nat) (e : Int) : m * (2 : ℚ) ^ e < (2 : ℚ) ^ (flog2 m e + 1) := by
  rw [flog2, add_right_comm, zpow_add₀ two_ne_zero]
  exact mul_lt_mul_of_pos_right (lt_two_pow_log2 m) (by positivity)

/-! ## Values of the formats -/

/-- The integer and the exponent of a finite value are within the format's bounds (R129). -/
theorem decodeF_fin_bounds {F : Fmt} {x m : Nat} {n : Bool} {e : Int} (hF : 2 ≤ F.eb) (h : decodeF F x = .fin n m e) :
    m < 2 ^ (F.mb + 1) ∧ 1 - (F.bias : Int) - F.mb ≤ e ∧ e ≤ maxE F := by
  have hf : x % 2 ^ F.mb < 2 ^ F.mb := Nat.mod_lt _ (Nat.two_pow_pos _)
  have hx : x / 2 ^ F.mb % 2 ^ F.eb < 2 ^ F.eb := Nat.mod_lt _ (Nat.two_pow_pos _)
  have hm : 2 ^ (F.mb + 1) = 2 * 2 ^ F.mb := by rw [pow_succ, mul_comm]
  have hb : 4 ≤ 2 ^ F.eb := Nat.pow_le_pow_right (n := 2) two_pos hF
  have hc : ((2 : Int) ^ F.eb) = ((2 ^ F.eb : Nat) : Int) := by push_cast; rfl
  rw [maxE, hc]
  unfold decodeF at h
  extract_lets f b s allOnes at h
  split at h
  · split at h <;> cases h
  · next hi =>
    split at h
    · cases h
    · split at h
      · obtain ⟨rfl, rfl, rfl⟩ := FVal.fin.inj h
        split <;> omega
      · obtain ⟨rfl, rfl, rfl⟩ := FVal.fin.inj h
        split
        · next hieee =>
          have hne : b ≠ 2 ^ F.eb - 1 := fun hb => hi (by simp [hieee, allOnes, hb])
          omega
        · omega

/-- A finite value of a format of at most FP32's range and precision, by its integer and exponent. -/
def inF32 (m : Nat) (e : Int) : Prop := m < 2 ^ 24 ∧ -149 ≤ e ∧ (m.log2 : Int) + e ≤ 127

/-- Every finite value of the three element types is one of FP32's (R279). -/
theorem inF32_of_decodeF {ty : FTy} {x m : Nat} {n : Bool} {e : Int} (h : decodeF (FTy.fmt ty) x = .fin n m e) :
    inF32 m e := by
  have hlog : ∀ k, m < 2 ^ (k + 1) → m.log2 ≤ k := fun k hk => by
    by_cases h0 : m = 0
    · simp [h0]
    · exact Nat.le_of_lt_succ ((Nat.log2_lt h0).2 hk)
  cases ty with
  | f32 =>
    have hb := decodeF_fin_bounds (F := f32F) (by decide) h
    norm_num [f32F, maxE] at hb
    have := hlog 23 hb.1
    exact ⟨hb.1, by omega, by omega⟩
  | f16 =>
    have hb := decodeF_fin_bounds (F := f16F) (by decide) h
    norm_num [f16F, maxE] at hb
    have := hlog 10 hb.1
    exact ⟨by omega, by omega, by omega⟩
  | bf16 =>
    have hb := decodeF_fin_bounds (F := bf16F) (by decide) h
    norm_num [bf16F, maxE] at hb
    have := hlog 7 hb.1
    exact ⟨by omega, by omega, by omega⟩

/-! ## Rounding a value that needs none -/

theorem roundAt_multiple (mode : Rnd) (neg : Bool) (m : Nat) {e q : Int} (h : q ≤ e) :
    roundAt mode neg m e false q = (m * 2 ^ (e - q).toNat, false) := by
  cases mode <;> simp [roundAt, h]

theorem log2_mul_two_pow {m : Nat} (h : m ≠ 0) (k : Nat) : (m * 2 ^ k).log2 = m.log2 + k := by
  have hpos := Nat.two_pow_pos k
  rw [Nat.log2_eq_iff (Nat.mul_ne_zero h hpos.ne'), pow_add, Nat.add_right_comm, pow_add]
  exact ⟨Nat.mul_le_mul_right _ (Nat.log2_self_le h), Nat.mul_lt_mul_of_pos_right Nat.lt_log2_self hpos⟩

/-- The value that a fraction and an exponent below the special one give, put together without a sign (R129). -/
theorem decodeF_fields {F : Fmt} {b f : Nat} (hb : b < 2 ^ F.eb - 1) (hf : f < 2 ^ F.mb) :
    decodeF F (b * 2 ^ F.mb + f) =
      if b = 0 then .fin false f (1 - (F.bias : Int) - F.mb) else .fin false (2 ^ F.mb + f) ((b : Int) - F.bias - F.mb) := by
  have hpos := Nat.two_pow_pos F.mb
  have hfrac : (b * 2 ^ F.mb + f) % 2 ^ F.mb = f := by rw [Nat.mul_comm, Nat.mul_add_mod, Nat.mod_eq_of_lt hf]
  have hexp : (b * 2 ^ F.mb + f) / 2 ^ F.mb = b := by
    rw [Nat.mul_comm, Nat.mul_add_div hpos, Nat.div_eq_of_lt hf, Nat.add_zero]
  have hmod : b % 2 ^ F.eb = b := Nat.mod_eq_of_lt (by omega)
  have hsign : (b * 2 ^ F.mb + f) / 2 ^ (F.mb + F.eb) = 0 := by
    rw [pow_add, ← Nat.div_div_eq_div_mul, hexp, Nat.div_eq_of_lt (by omega)]
  have hall : (b == 2 ^ F.eb - 1) = false := beq_eq_false_iff_ne.2 hb.ne
  simp only [decodeF, hfrac, hexp, hmod, hsign, hall, Bool.and_false, Bool.false_and, Bool.false_eq_true, if_false,
    Nat.zero_mod, Nat.reduceBEq]

/-- The bit pattern of a FP32 value n × 2^q of its range, where n is a normal value's integer or q is the least exponent. -/
theorem decodeF_f32_bits {n : Nat} {q : Int} (hn : n < 2 ^ 24) (hq : -149 ≤ q) (hq' : q ≤ 104) (hs : n < 2 ^ 23 → q = -149) :
    decodeF f32F (if n < 2 ^ 23 then n else (q + 150).toNat * 2 ^ 23 + (n - 2 ^ 23)) = .fin false n q := by
  have fields : ∀ b f, b < 255 → f < 8388608 → decodeF f32F (b * 8388608 + f) =
      if b = 0 then .fin false f (-149) else .fin false (8388608 + f) ((b : Int) - 127 - 23) :=
    fun b f => decodeF_fields (F := f32F)
  norm_num at hn hs ⊢
  split
  · next h =>
    rw [hs h]
    simpa using fields 0 n (by decide) h
  · next h =>
    have hb : (q + 150).toNat < 255 := by omega
    have hf : n - 8388608 < 8388608 := by omega
    have hb0 : (q + 150).toNat ≠ 0 := by omega
    have hm : 8388608 + (n - 8388608) = n := by omega
    have he : ((q + 150).toNat : Int) - 127 - 23 = q := by omega
    refine (fields _ _ hb hf).trans ((if_neg hb0).trans ?_)
    rw [hm, he]

/-- A multiple of a unit of the format that is no greater than the largest does not exceed it. -/
theorem exceeds_le {F : Fmt} {n : Nat} {q : Int} (hn : n ≤ maxM F) (hq : q ≤ maxE F) : exceeds F n q = false := by
  unfold exceeds
  split
  · rfl
  · next hn0 =>
    have hlog : n.log2 ≤ (maxM F).log2 := (Nat.le_log2 (by omega)).2 ((Nat.log2_self_le hn0).trans hn)
    dsimp only
    rw [if_neg (by omega)]
    split
    · rfl
    · split
      · have : q = maxE F := by omega
        simp [this, hn]
      · exact decide_eq_false_iff_not.2 (Nat.not_lt.2 (hn.trans (Nat.le_mul_of_pos_right _ (Nat.two_pow_pos _))))

/-- Rounding a FP32 value to its own unit 2^q gives its own bit pattern. -/
theorem roundMag_f32_multiple (rm : Rnd) {m n : Nat} {e q : Int} (hq : q = max ((m.log2 : Int) + e - 23) (-149))
    (hqe : q ≤ e) (hn : n = m * 2 ^ (e - q).toNat) (hn24 : n < 2 ^ 24) (hmax : q ≤ 104) :
    (roundMag f32F rm false m e false).1 = if n < 2 ^ 23 then n else (q + 150).toNat * 2 ^ 23 + (n - 2 ^ 23) := by
  have hunit : max ((m.log2 : Int) + e - (f32F.mb : Int)) (1 - (f32F.bias : Int) - (f32F.mb : Int)) = q := hq.symm
  have hne : n ≠ 2 ^ (f32F.mb + 1) := Nat.ne_of_lt hn24
  have hM : maxM f32F = 2 ^ 24 - 1 := by norm_num [maxM, f32F]
  have hE : maxE f32F = 104 := by norm_num [maxE, f32F]
  have hexc : exceeds f32F n q = false := exceeds_le (by omega) (by omega)
  unfold roundMag
  simp only [hunit, roundAt_multiple _ _ _ hqe, ← hn, hexc, Bool.false_eq_true, if_false, if_neg hne]
  simp [zeroBits, f32F, add_assoc]

/-- FP32 holds a value in its range exactly (R133). -/
theorem decodeF_roundF_inF32 (rm : Rnd) {m : Nat} {e : Int} (h : inF32 m e) :
    (decodeF f32F (roundF f32F rm (.fin false m e)).1).rat = (m : ℚ) * (2 : ℚ) ^ e := by
  obtain ⟨hm, he, hE⟩ := h
  by_cases hm0 : m = 0
  · subst hm0
    cases rm <;> simp [roundF, zeroBits, decodeF, f32F]
  · have hr : roundF f32F rm (.fin false m e) = roundMag f32F rm false m e false := by
      obtain ⟨k, rfl⟩ := Nat.exists_eq_succ_of_ne_zero hm0
      rfl
    have hlog : m.log2 < 24 := (Nat.log2_lt hm0).2 hm
    obtain ⟨q, hq⟩ : ∃ q : Int, q = max ((m.log2 : Int) + e - 23) (-149) := ⟨_, rfl⟩
    have hqe : q ≤ e := by omega
    obtain ⟨n, hn⟩ : ∃ n, n = m * 2 ^ (e - q).toNat := ⟨_, rfl⟩
    have hn0 : n ≠ 0 := hn ▸ Nat.mul_ne_zero hm0 (Nat.two_pow_pos _).ne'
    have hnlog : (n.log2 : Int) + q = m.log2 + e := by
      rw [hn, log2_mul_two_pow hm0]
      omega
    have hn24 : n < 2 ^ 24 := (Nat.log2_lt hn0).1 (by omega)
    have hn23 : n < 2 ^ 23 → q = -149 := fun hlt => by
      have := (Nat.log2_lt hn0).2 hlt
      omega
    rw [hr, roundMag_f32_multiple rm hq hqe hn hn24 (by omega), decodeF_f32_bits hn24 (by omega) (by omega) hn23,
      FVal.rat_fin_false, hn, mul_two_pow_toNat hqe]

/-! ## The greatest magnitude of a ring (R142) -/

/-- One entry joined to the greatest magnitude so far, as `ringMax` does. -/
def ringJoin (acc : Option (Option (Nat × Int))) (x : Option (Nat × Int)) : Option (Option (Nat × Int)) :=
  match acc, x with
  | none, x => some x
  | some none, _ => some none
  | _, none => some none
  | some (some (m, e)), some (n, f) =>
    if scaled false m e (min e f) < scaled false n f (min e f) then some (some (n, f)) else some (some (m, e))

/-- The magnitude of an entry that is no NaN; `none` is an infinity. -/
def magOf : FVal → Option (Option (Nat × Int))
  | .nan _ => none
  | .inf _ => some none
  | .fin _ m e => some (some (m, e))

/-- The magnitudes of a ring's filled entries that are no NaN. -/
def ringMags (r : Ring) : List (Option (Nat × Int)) :=
  ((List.range 16).filter fun i => i < r.fill).filterMap fun i => magOf (decodeF f32F (r.entries.toList.getD i 0).toNat)

theorem ringMax_eq (r : Ring) : ringMax r = (ringMags r).foldl ringJoin none := rfl

/-- What a fold with `ringJoin` finds: nothing in an empty list, an infinity of the list, or a
number of it that no other exceeds. -/
def isGreatest (l : List (Option (Nat × Int))) : Option (Option (Nat × Int)) → Prop
  | none => l = []
  | some none => none ∈ l
  | some (some (m, e)) => some (m, e) ∈ l ∧
      ∀ x ∈ l, ∃ n f, x = some (n, f) ∧ (n : ℚ) * (2 : ℚ) ^ f ≤ (m : ℚ) * (2 : ℚ) ^ e

theorem isGreatest_join {l : List (Option (Nat × Int))} {r : Option (Option (Nat × Int))} (h : isGreatest l r)
    (x : Option (Nat × Int)) : isGreatest (l ++ [x]) (ringJoin r x) := by
  match r, x with
  | none, none => exact List.mem_append_right _ List.mem_cons_self
  | none, some (n, f) =>
    obtain rfl : l = [] := h
    exact ⟨List.mem_cons_self, fun y hy => ⟨n, f, List.mem_singleton.1 hy, le_rfl⟩⟩
  | some none, x =>
    have hr : ringJoin (some none) x = some none := by cases x <;> rfl
    rw [hr]
    exact List.mem_append_left _ h
  | some (some (m, e)), none => exact List.mem_append_right _ List.mem_cons_self
  | some (some (m, e)), some (n, f) =>
    obtain ⟨hmem, hle⟩ := h
    by_cases hlt : scaled false m e (min e f) < scaled false n f (min e f)
    · have hr : ringJoin (some (some (m, e))) (some (n, f)) = some (some (n, f)) := if_pos hlt
      rw [hr]
      refine ⟨List.mem_append_right _ List.mem_cons_self, fun y hy => ?_⟩
      rcases List.mem_append.1 hy with hy | hy
      · obtain ⟨k, g, rfl, hk⟩ := hle y hy
        exact ⟨k, g, rfl, hk.trans (scaled_lt_scaled.1 hlt).le⟩
      · exact ⟨n, f, List.mem_singleton.1 hy, le_rfl⟩
    · have hr : ringJoin (some (some (m, e))) (some (n, f)) = some (some (m, e)) := if_neg hlt
      rw [hr]
      refine ⟨List.mem_append_left _ hmem, fun y hy => ?_⟩
      rcases List.mem_append.1 hy with hy | hy
      · exact hle y hy
      · exact ⟨n, f, List.mem_singleton.1 hy, not_lt.1 fun h => hlt (scaled_lt_scaled.2 h)⟩

theorem isGreatest_ringMax (r : Ring) : isGreatest (ringMags r) (ringMax r) := by
  rw [ringMax_eq]
  induction ringMags r using List.reverseRecOn with
  | nil => exact rfl
  | append_singleton l x ih =>
    rw [List.foldl_append]
    exact isGreatest_join ih x

/-- An entry's value, and whether it takes part in the maximum (R142). -/
def ringVal (r : Ring) (i : Fin 16) : FVal := decodeF f32F (r.entries.get i).toNat
def ringFilled (r : Ring) (i : Fin 16) : Prop := i.val < r.fill ∧ (ringVal r i).isNan = false

theorem mem_ringMags {r : Ring} {x : Option (Nat × Int)} : x ∈ ringMags r ↔
    ∃ i : Fin 16, i.val < r.fill ∧ magOf (ringVal r i) = some x := by
  have hget : ∀ i : Fin 16, r.entries.toList.getD i.val 0 = r.entries.get i := fun i => by
    simp [List.getD, Vector.get]
  simp only [ringMags, List.mem_filterMap, List.mem_filter, List.mem_range, decide_eq_true_eq]
  constructor
  · rintro ⟨i, ⟨hi, hf⟩, h⟩
    exact ⟨⟨i, hi⟩, hf, by rw [ringVal, ← hget]; exact h⟩
  · rintro ⟨i, hf, h⟩
    exact ⟨i.val, ⟨i.isLt, hf⟩, by rw [hget]; exact h⟩

theorem magOf_eq_inf {v : FVal} : magOf v = some none ↔ v.isNan = false ∧ v.finite = false := by
  cases v <;> simp [magOf, FVal.isNan, FVal.finite]
theorem magOf_eq_number {v : FVal} {m : Nat} {e : Int} : magOf v = some (some (m, e)) ↔ ∃ n, v = .fin n m e := by
  cases v <;> simp [magOf]
theorem magOf_of_finite {v : FVal} (hf : v.finite = true) : ∃ m e, magOf v = some (some (m, e)) ∧
    |v.rat| = (m : ℚ) * (2 : ℚ) ^ e := by
  obtain ⟨n, m, e, rfl⟩ := FVal.finite_iff.1 hf
  exact ⟨m, e, rfl, FVal.abs_rat_fin n m e⟩

/-- What each answer of `ringMax` says of the ring's filled entries (R142). -/
theorem ringMax_none {r : Ring} (h : ringMax r = none) (i : Fin 16) : ¬ ringFilled r i := by
  have hmax : ringMags r = [] := by have := isGreatest_ringMax r; rwa [h] at this
  rintro ⟨hi, hn⟩
  have hout : ∀ x, magOf (ringVal r i) ≠ some x := fun x hx => by simpa [hmax] using mem_ringMags.2 ⟨i, hi, hx⟩
  cases hf : (ringVal r i).finite with
  | false => exact hout _ (magOf_eq_inf.2 ⟨hn, hf⟩)
  | true =>
    obtain ⟨m, e, hx, -⟩ := magOf_of_finite hf
    exact hout _ hx
theorem ringMax_inf {r : Ring} (h : ringMax r = some none) : ∃ i, ringFilled r i ∧ (ringVal r i).finite = false := by
  have hmem : none ∈ ringMags r := by have := isGreatest_ringMax r; rwa [h] at this
  obtain ⟨i, hi, hx⟩ := mem_ringMags.1 hmem
  obtain ⟨hn, hf⟩ := magOf_eq_inf.1 hx
  exact ⟨i, ⟨hi, hn⟩, hf⟩
theorem ringMax_number {r : Ring} {m : Nat} {e : Int} (h : ringMax r = some (some (m, e))) :
    (∃ i n, ringFilled r i ∧ ringVal r i = .fin n m e) ∧
      ∀ i, ringFilled r i → (ringVal r i).finite = true ∧ |(ringVal r i).rat| ≤ (m : ℚ) * (2 : ℚ) ^ e := by
  have hmax := isGreatest_ringMax r
  rw [h] at hmax
  obtain ⟨hmem, hle⟩ := hmax
  constructor
  · obtain ⟨i, hi, hx⟩ := mem_ringMags.1 hmem
    obtain ⟨n, hv⟩ := magOf_eq_number.1 hx
    exact ⟨i, n, ⟨hi, by rw [hv]; rfl⟩, hv⟩
  · rintro i ⟨hi, hn⟩
    cases hf : (ringVal r i).finite with
    | false =>
      obtain ⟨n, f, hx, -⟩ := hle _ (mem_ringMags.2 ⟨i, hi, magOf_eq_inf.2 ⟨hn, hf⟩⟩)
      cases hx
    | true =>
      obtain ⟨k, g, hx, hrat⟩ := magOf_of_finite hf
      obtain ⟨n, f, hy, hle⟩ := hle _ (mem_ringMags.2 ⟨i, hi, hx⟩)
      cases hy
      exact ⟨rfl, hrat ▸ hle⟩

/-! ## The prescale exponent (R144) -/

/-- The floor of the base-2 logarithm of a / m, as `prescale` makes it. -/
def ratioLog (a m : Nat) : Int :=
  let q : Int := (a.log2 : Int) - m.log2
  if (if 0 ≤ q then decide (m * 2 ^ q.toNat ≤ a) else decide (m ≤ a * 2 ^ (-q).toNat)) then q else q - 1

theorem ratioLog_test {a m : Nat} (q : Int) :
    (if 0 ≤ q then decide (m * 2 ^ q.toNat ≤ a) else decide (m ≤ a * 2 ^ (-q).toNat)) = true ↔
      (m : ℚ) * (2 : ℚ) ^ q ≤ a := by
  split
  · next h =>
    rw [decide_eq_true_iff, ← cast_two_pow_toNat h]
    exact_mod_cast Iff.rfl
  · next h =>
    have hpos : (0 : ℚ) < (2 : ℚ) ^ (-q) := by positivity
    have hinv : (2 : ℚ) ^ q * (2 : ℚ) ^ (-q) = 1 := by rw [← zpow_add₀ two_ne_zero, add_neg_cancel, zpow_zero]
    rw [decide_eq_true_iff, ← mul_le_mul_iff_left₀ hpos, mul_assoc, hinv, mul_one, ← cast_two_pow_toNat (by omega)]
    exact_mod_cast Iff.rfl

/-- `ratioLog` is that floor. -/
theorem ratioLog_spec {a m : Nat} (ha : a ≠ 0) (hm : m ≠ 0) :
    (2 : ℚ) ^ ratioLog a m ≤ (a : ℚ) / m ∧ (a : ℚ) / m < (2 : ℚ) ^ (ratioLog a m + 1) := by
  have hm' : (0 : ℚ) < m := by positivity
  have hq : (2 : ℚ) ^ ((a.log2 : Int) - m.log2) = (2 : ℚ) ^ (a.log2 : Int) / (2 : ℚ) ^ (m.log2 : Int) :=
    zpow_sub₀ two_ne_zero _ _
  have ha1 := two_pow_log2_le ha
  have ha2 := lt_two_pow_log2 a
  have hm1 := two_pow_log2_le hm
  have hm2 := lt_two_pow_log2 m
  have hp : (0 : ℚ) < (2 : ℚ) ^ (m.log2 : Int) := by positivity
  have hpa : (0 : ℚ) < (2 : ℚ) ^ (a.log2 : Int) := by positivity
  rw [zpow_add_one₀ two_ne_zero] at ha2 hm2
  unfold ratioLog
  extract_lets q
  rw [le_div_iff₀ hm', div_lt_iff₀ hm']
  by_cases hge : (m : ℚ) * (2 : ℚ) ^ q ≤ a
  · rw [if_pos ((ratioLog_test q).2 hge)]
    refine ⟨by rwa [mul_comm], ?_⟩
    rw [zpow_add_one₀ two_ne_zero, hq]
    calc (a : ℚ) < (2 : ℚ) ^ (a.log2 : Int) * 2 := ha2
      _ = (2 : ℚ) ^ (a.log2 : Int) / (2 : ℚ) ^ (m.log2 : Int) * 2 * (2 : ℚ) ^ (m.log2 : Int) := by field_simp
      _ ≤ _ := by gcongr
  · rw [if_neg fun h => hge ((ratioLog_test q).1 h), sub_add_cancel]
    refine ⟨?_, by rw [mul_comm]; exact not_le.1 hge⟩
    rw [zpow_sub_one₀ two_ne_zero, hq]
    calc (2 : ℚ) ^ (a.log2 : Int) / (2 : ℚ) ^ (m.log2 : Int) * 2⁻¹ * m
        ≤ (2 : ℚ) ^ (a.log2 : Int) / (2 : ℚ) ^ (m.log2 : Int) * 2⁻¹ * ((2 : ℚ) ^ (m.log2 : Int) * 2) := by gcongr
      _ = (2 : ℚ) ^ (a.log2 : Int) := by field_simp
      _ ≤ a := ha1

theorem prescale_of_empty {F : MXF} {r : Ring} (h : ringMax r = none) : prescale F r = 0 := by rw [prescale, h]
theorem prescale_of_inf {F : MXF} {r : Ring} (h : ringMax r = some none) : prescale F r = -127 := by rw [prescale, h]
theorem prescale_of_zero {F : MXF} {r : Ring} {e : Int} (h : ringMax r = some (some (0, e))) : prescale F r = 0 := by
  rw [prescale, h]
  rfl
theorem prescale_of_number {F : MXF} {r : Ring} {m : Nat} {e : Int} (hm : m ≠ 0) (h : ringMax r = some (some (m, e))) :
    prescale F r = max (-127) (min 127 (ratioLog (MXF.maxCode F) m - MXF.f F - e)) := by
  obtain ⟨k, rfl⟩ := Nat.exists_eq_succ_of_ne_zero hm
  rw [prescale, h]
  rfl

/-- R144: a prescale exponent is from −127 to 127. -/
theorem prescale_bounds (F : MXF) (r : Ring) : -127 ≤ prescale F r ∧ prescale F r ≤ 127 := by
  match h : ringMax r with
  | none => rw [prescale_of_empty h]; decide
  | some none => rw [prescale_of_inf h]; decide
  | some (some (0, e)) => rw [prescale_of_zero h]; decide
  | some (some (m + 1, e)) => rw [prescale_of_number m.succ_ne_zero h]; omega

theorem prescale_of_all_zero {F : MXF} {r : Ring} (hz : ∀ i, ringFilled r i → (ringVal r i).isZero = true) :
    prescale F r = 0 := by
  match h : ringMax r with
  | none => exact prescale_of_empty h
  | some none =>
    obtain ⟨i, hi, hinf⟩ := ringMax_inf h
    have hzi := hz i hi
    cases hv : ringVal r i <;> rw [hv] at hzi hinf <;> contradiction
  | some (some (m, e)) =>
    obtain ⟨⟨i, n, hi, hv⟩, -⟩ := ringMax_number h
    have hzi := hz i hi
    rw [hv, FVal.isZero_fin] at hzi
    exact prescale_of_zero (hzi ▸ h)

theorem prescale_of_some_inf {F : MXF} {r : Ring} {i : Fin 16} (hi : ringFilled r i) (hf : (ringVal r i).finite = false) :
    prescale F r = -127 := by
  match h : ringMax r with
  | none => exact absurd hi (ringMax_none h i)
  | some none => exact prescale_of_inf h
  | some (some (m, e)) => exact absurd ((ringMax_number h).2 i hi).1 (Bool.eq_false_iff.1 hf)

/-- R144 for a ring whose greatest magnitude is a number other than 0. -/
theorem prescale_of_greatest {F : MXF} {r : Ring} {i : Fin 16} (hi : ringFilled r i) (hne : (ringVal r i).isZero = false)
    (hall : ∀ j, ringFilled r j → (ringVal r j).finite = true ∧ |(ringVal r j).rat| ≤ |(ringVal r i).rat|) :
    ∃ e : Int, (2 : ℚ) ^ e ≤ (MXF.maxCode F : ℚ) / 2 ^ MXF.f F / |(ringVal r i).rat| ∧
      (MXF.maxCode F : ℚ) / 2 ^ MXF.f F / |(ringVal r i).rat| < (2 : ℚ) ^ (e + 1) ∧
      prescale F r = max (-127) (min 127 e) := by
  match h : ringMax r with
  | none => exact absurd hi (ringMax_none h i)
  | some none =>
    obtain ⟨j, hj, hf⟩ := ringMax_inf h
    exact absurd (hall j hj).1 (Bool.eq_false_iff.1 hf)
  | some (some (m, e)) =>
    obtain ⟨⟨j, n, hj, hv⟩, hle⟩ := ringMax_number h
    have hrat : |(ringVal r i).rat| = (m : ℚ) * (2 : ℚ) ^ e :=
      le_antisymm (hle i hi).2 (by rw [← FVal.abs_rat_fin n m e, ← hv]; exact (hall j hj).2)
    have hm : m ≠ 0 := by
      rintro rfl
      obtain ⟨n', m', e', hvi⟩ := FVal.finite_iff.1 (hall i hi).1
      rw [Nat.cast_zero, zero_mul, abs_eq_zero, hvi, FVal.rat_fin_eq_zero] at hrat
      rw [hvi, hrat] at hne
      cases hne
    obtain ⟨hlo, hhi⟩ := ratioLog_spec (a := MXF.maxCode F) (m := m) (by cases F <;> decide) hm
    have hshift : (MXF.maxCode F : ℚ) / 2 ^ MXF.f F / |(ringVal r i).rat| =
        (MXF.maxCode F : ℚ) / m * (2 : ℚ) ^ (-(MXF.f F : Int) - e) := by
      rw [hrat, zpow_sub₀ two_ne_zero, zpow_neg, zpow_natCast]
      field_simp
    have hpos : (0 : ℚ) < (2 : ℚ) ^ (-(MXF.f F : Int) - e) := by positivity
    have hexp : ∀ k : Int, (2 : ℚ) ^ (k - MXF.f F - e) = (2 : ℚ) ^ k * (2 : ℚ) ^ (-(MXF.f F : Int) - e) := fun k => by
      rw [← zpow_add₀ two_ne_zero]
      congr 1
      ring
    refine ⟨ratioLog (MXF.maxCode F) m - MXF.f F - e, ?_, ?_, prescale_of_number hm h⟩
    · rw [hshift, hexp]
      exact mul_le_mul_of_nonneg_right hlo hpos.le
    · have hsucc : ratioLog (MXF.maxCode F) m - MXF.f F - e + 1 = ratioLog (MXF.maxCode F) m + 1 - MXF.f F - e := by ring
      rw [hshift, hsucc, hexp]
      exact mul_lt_mul_of_pos_right hhi hpos

/-- R142, R144. -/
theorem prescaleIs_prescale (F : MXF) (r : Ring) : prescaleIs F r (prescale F r) :=
  ⟨fun hz => prescale_of_all_zero hz, fun ⟨_, hi, hf⟩ => prescale_of_some_inf hi hf,
    fun _ hi hne hall => prescale_of_greatest hi hne hall⟩

/-! ## Rounding to an integer (R132) -/

theorem intRounds_self (rm : Rnd) (z : Int) : intRounds rm z z := by
  cases rm <;> simp [intRounds]

/-- The mode that rounds a negated value as `rm` rounds the value. -/
def mirrored : Rnd → Rnd
  | .rdn => .rup
  | .rup => .rdn
  | rm => rm

theorem intRounds_neg {rm : Rnd} {y : ℚ} {q : Int} (h : intRounds (mirrored rm) y q) : intRounds rm (-y) (-q) := by
  have hd : -y - ((-q : Int) : ℚ) = -(y - q) := by push_cast; ring
  cases rm with
  | rne =>
    obtain ⟨h1, h2⟩ := h
    refine ⟨by rwa [hd, abs_neg], fun ht => ?_⟩
    rw [hd, abs_neg] at ht
    have := h2 ht
    omega
  | rna =>
    obtain ⟨h1, h2⟩ := h
    refine ⟨by rwa [hd, abs_neg], fun ht => ?_⟩
    rw [hd, abs_neg] at ht
    simpa using h2 ht
  | rtz =>
    obtain ⟨h1, h2⟩ := h
    exact ⟨by simpa using h1, by rwa [hd, abs_neg]⟩
  | rdn =>
    obtain ⟨h1, h2⟩ := h
    exact ⟨by push_cast; linarith, by push_cast; linarith⟩
  | rup =>
    obtain ⟨h1, h2⟩ := h
    exact ⟨by push_cast; linarith, by push_cast; linarith⟩

/-- Whether `roundAt` goes up from n, for a non-negative value n + r / d. -/
def goesUp (rm : Rnd) (n r d : Nat) : Bool := match rm with
  | .rne => decide (2 * r > d) || (2 * r == d && n % 2 == 1)
  | .rna => decide (2 * r > d) || 2 * r == d
  | .rup => r != 0
  | _ => false

/-- The same of the fraction t above n. -/
def upAt : Rnd → Nat → ℚ → Prop
  | .rne, n, t => 1 / 2 < t ∨ (t = 1 / 2 ∧ n % 2 = 1)
  | .rna, _, t => 1 / 2 < t ∨ t = 1 / 2
  | .rup, _, t => t ≠ 0
  | _, _, _ => False

theorem goesUp_iff (rm : Rnd) (n : Nat) {r d : Nat} (hd : 0 < d) : goesUp rm n r d = true ↔ upAt rm n (r / d) := by
  have hd' : (0 : ℚ) < d := by exact_mod_cast hd
  have hhalf : d < 2 * r ↔ (1 : ℚ) / 2 < r / d := by
    rw [lt_div_iff₀ hd', one_div, inv_mul_lt_iff₀ two_pos]
    exact_mod_cast Iff.rfl
  have htie : 2 * r = d ↔ (r : ℚ) / d = 1 / 2 := by
    rw [div_eq_div_iff hd'.ne' two_ne_zero, one_mul, mul_comm]
    exact_mod_cast Iff.rfl
  have hzero : r = 0 ↔ (r : ℚ) / d = 0 := by
    rw [div_eq_zero_iff, or_iff_left hd'.ne', Nat.cast_eq_zero]
  cases rm with
  | rne => simp only [goesUp, upAt, gt_iff_lt, Bool.or_eq_true, Bool.and_eq_true, decide_eq_true_eq, beq_iff_eq, hhalf, htie]
  | rna => simp only [goesUp, upAt, gt_iff_lt, Bool.or_eq_true, decide_eq_true_eq, beq_iff_eq, hhalf, htie]
  | rup => simp only [goesUp, upAt, bne_iff_ne, ne_eq, hzero]
  | rtz => exact iff_of_false Bool.false_ne_true id
  | rdn => exact iff_of_false Bool.false_ne_true id

/-- Where a mode does not go up from n, the integer below a value rounds it. -/
theorem intRounds_down {rm : Rnd} {n : Nat} {t : ℚ} (h0 : 0 ≤ t) (h1 : t < 1) (hup : ¬ upAt rm n t) :
    intRounds rm ((n : ℚ) + t) (n : Int) := by
  have hn : (0 : ℚ) ≤ n := n.cast_nonneg
  have hd : |(n : ℚ) + t - ((n : Int) : ℚ)| = t := by rw [Int.cast_natCast, add_sub_cancel_left, abs_of_nonneg h0]
  cases rm with
  | rne =>
    obtain ⟨hle, htie⟩ := not_or.1 hup
    refine ⟨hd.trans_le (not_lt.1 hle), fun h => ?_⟩
    have hodd : n % 2 ≠ 1 := fun hodd => htie ⟨hd.symm.trans h, hodd⟩
    omega
  | rna =>
    obtain ⟨hle, htie⟩ := not_or.1 hup
    exact ⟨hd.trans_le (not_lt.1 hle), fun h => absurd (hd.symm.trans h) htie⟩
  | rtz =>
    refine ⟨?_, hd.trans_lt h1⟩
    rw [Int.cast_natCast, abs_of_nonneg hn, abs_of_nonneg (add_nonneg hn h0)]
    exact le_add_of_nonneg_right h0
  | rdn => exact ⟨by rw [Int.cast_natCast]; linarith, by rw [Int.cast_natCast]; linarith⟩
  | rup =>
    obtain rfl : t = 0 := not_not.1 hup
    rw [add_zero]
    exact intRounds_self .rup n

/-- Where a mode goes up from n, the integer above a value rounds it. -/
theorem intRounds_up {rm : Rnd} {n : Nat} {t : ℚ} (h0 : 0 ≤ t) (h1 : t < 1) (hup : upAt rm n t) :
    intRounds rm ((n : ℚ) + t) ((n + 1 : Nat) : Int) := by
  have hn : (0 : ℚ) ≤ n := n.cast_nonneg
  have hd : |(n : ℚ) + t - (((n + 1 : Nat) : Int) : ℚ)| = 1 - t := by
    rw [abs_sub_comm, abs_of_nonneg] <;> push_cast <;> linarith
  cases rm with
  | rne =>
    have hle : 1 / 2 ≤ t := hup.elim le_of_lt fun h => h.1.ge
    refine ⟨hd.trans_le (by linarith), fun h => ?_⟩
    have hodd : n % 2 = 1 := (hup.resolve_left (by linarith)).2
    omega
  | rna =>
    have hle : 1 / 2 ≤ t := hup.elim le_of_lt Eq.ge
    refine ⟨hd.trans_le (by linarith), fun h => ?_⟩
    rw [abs_of_nonneg (by linarith), abs_of_nonneg (by positivity)]
    push_cast
    linarith
  | rtz => exact hup.elim
  | rdn => exact hup.elim
  | rup =>
    have hpos : 0 < t := lt_of_le_of_ne h0 (Ne.symm hup)
    exact ⟨by push_cast; linarith, by push_cast; linarith⟩

theorem intRounds_goesUp (rm : Rnd) (n : Nat) {r d : Nat} (hr : r < d) :
    intRounds rm ((n : ℚ) + r / d) ((if goesUp rm n r d then n + 1 else n : Nat) : Int) := by
  have hd : 0 < d := (Nat.zero_le r).trans_lt hr
  have h0 : (0 : ℚ) ≤ r / d := by positivity
  have h1 : (r : ℚ) / d < 1 := by rw [div_lt_one (by positivity)]; exact_mod_cast hr
  split
  · next hup => exact intRounds_up h0 h1 ((goesUp_iff rm n hd).1 hup)
  · next hup => exact intRounds_down h0 h1 fun h => hup ((goesUp_iff rm n hd).2 h)

/-- `roundAt` without a sticky rest: a magnitude as n + r / d of the unit, and whether it goes up. -/
theorem roundAt_eq (rm : Rnd) (neg : Bool) (m : Nat) (e q : Int) : ∃ n r d : Nat, r < d ∧
    (m : ℚ) * (2 : ℚ) ^ (e - q) = n + r / d ∧
    roundAt rm neg m e false q = (if goesUp (if neg then mirrored rm else rm) n r d then n + 1 else n, r != 0) := by
  by_cases h : q ≤ e
  · refine ⟨m * 2 ^ (e - q).toNat, 0, 1, one_pos, ?_, ?_⟩
    · rw [Nat.cast_mul, cast_two_pow_toNat (by omega)]
      simp
    · rw [roundAt_multiple _ _ _ h]
      cases neg <;> cases rm <;> simp [goesUp, mirrored]
  · obtain ⟨d, hd⟩ : ∃ d, d = 2 ^ (q - e).toNat := ⟨_, rfl⟩
    have hpos : 0 < d := hd ▸ Nat.two_pow_pos _
    have hd0 : (d : ℚ) ≠ 0 := by positivity
    refine ⟨m / d, m % d, d, Nat.mod_lt _ hpos, ?_, ?_⟩
    · have hunit : (2 : ℚ) ^ (e - q) = (d : ℚ)⁻¹ := by rw [hd, cast_two_pow_toNat (by omega), ← zpow_neg, neg_sub]
      have hm : (m : ℚ) = d * (m / d : Nat) + (m % d : Nat) := by exact_mod_cast (Nat.div_add_mod m d).symm
      rw [hunit, ← div_eq_mul_inv, div_eq_iff hd0, add_mul, div_mul_cancel₀ _ hd0, mul_comm, ← hm]
    · cases neg <;> cases rm <;> simp [roundAt, goesUp, mirrored, h, hd]

/-- A value n + r / d is an integer only where r is 0, and such a value does not go up. -/
theorem goesUp_exact (rm : Rnd) (k : Nat) {r d : Nat} (hr : r < d) :
    (r != 0) = true ↔ (k : ℚ) + r / d ≠ ((if goesUp rm k r d then k + 1 else k : Nat) : Int) := by
  have hd : (0 : ℚ) < d := by exact_mod_cast (Nat.zero_le r).trans_lt hr
  rw [bne_iff_ne, not_iff_not]
  constructor
  · rintro rfl
    have hup : goesUp rm k 0 d = false := by cases rm <;> simp [goesUp] <;> omega
    simp [hup]
  · intro h
    by_contra h0
    have ht0 : (0 : ℚ) < r / d := by positivity
    have ht1 : (r : ℚ) / d < 1 := by rw [div_lt_one hd]; exact_mod_cast hr
    rw [Int.cast_natCast] at h
    generalize (if goesUp rm k r d then k + 1 else k) = z at h
    have hlo : k < z := by exact_mod_cast (by linarith : (k : ℚ) < z)
    have hhi : z < k + 1 := by exact_mod_cast (by linarith : (z : ℚ) < k + 1)
    omega

/-- `roundAt` rounds a finite value to an integer, and says whether it had to (R132). -/
theorem roundAt_intRounds (rm : Rnd) (n : Bool) (m : Nat) (e : Int) :
    let z : Int := if n then -((roundAt rm n m e false 0).1 : Int) else (roundAt rm n m e false 0).1
    intRounds rm (FVal.fin n m e).rat z ∧ ((roundAt rm n m e false 0).2 = true ↔ (FVal.fin n m e).rat ≠ z) := by
  obtain ⟨k, r, d, hr, hval, hround⟩ := roundAt_eq rm n m e 0
  rw [sub_zero] at hval
  rw [hround]
  cases n with
  | false =>
    rw [FVal.rat_fin_false, hval]
    exact ⟨intRounds_goesUp rm k hr, goesUp_exact rm k hr⟩
  | true =>
    rw [FVal.rat_fin_true, hval]
    refine ⟨intRounds_neg (intRounds_goesUp (mirrored rm) k hr), ?_⟩
    simp only [if_true, Int.cast_neg, ne_eq, neg_inj]
    exact goesUp_exact (mirrored rm) k hr

/-! ## Quant_MX (R145) -/

/-- A value joined to the greatest exponent so far, as `quantMX` does. -/
def expJoin (k acc : Int) : FVal → Int
  | .fin _ m e => if m = 0 then acc else max acc (flog2 m (e + k))
  | _ => acc
/-- X of R145: the exponent of the greatest prescaled magnitude, −127 where all are 0. -/
def blockExp (k : Int) (x : List FVal) : Int :=
  let X := x.foldl (expJoin k) (-100000)
  if X = -100000 then -127 else X
def blockScale (k : Int) (x : List FVal) : Int := min (max (blockExp k x + 127) 0) 254

/-- An element as `quantMX` makes it at a scale: its code and its flags. -/
def quantElem (F : MXF) (k s : Int) (rm : Rnd) : FVal → BitVec 8 × BitVec 6
  | .fin n m e =>
    let (q, inexact) := roundAt rm n m (e + k + MXF.f F - (s - 127)) false 0
    let q' := if MXF.maxCode F < q then MXF.maxCode F else q
    let code : Int := if n then -(q' : Int) else q'
    (BitVec.ofInt 8 code, (if inexact then fNX else 0) ||| (if MXF.maxCode F < q then fSAT else 0))
  | _ => (0, 0)

theorem quantMX_of_special {x : List FVal} {v : FVal} (hv : v ∈ x) (hf : v.finite = false) (F : MXF) (k : Int) (rm : Rnd) :
    quantMX x F k rm = (0xFF, x.map fun _ => 0, fNV) := by
  refine if_pos (List.any_eq_true.2 ⟨v, hv, ?_⟩)
  cases v with
  | fin => cases hf
  | _ => rfl

theorem quantMX_of_finite {x : List FVal} (hx : ∀ v ∈ x, v.finite = true) (F : MXF) (k : Int) (rm : Rnd) :
    quantMX x F k rm = (BitVec.ofInt 8 (blockScale k x), (x.map (quantElem F k (blockScale k x) rm)).map (·.1),
      (x.map (quantElem F k (blockScale k x) rm)).foldl (fun acc y => acc ||| y.2) 0) := by
  refine (if_neg fun hany => ?_).trans rfl
  obtain ⟨v, hv, h⟩ := List.any_eq_true.1 hany
  obtain ⟨n, m, e, rfl⟩ := FVal.finite_iff.1 (hx v hv)
  exact Bool.false_ne_true h

/-- The integer an element is rounded to at a scale, before the clamp, and its code (R145). -/
def quantInt (F : MXF) (k s : Int) (rm : Rnd) : FVal → Int
  | .fin n m e =>
    let q : Nat := (roundAt rm n m (e + k + MXF.f F - (s - 127)) false 0).1
    if n then -(q : Int) else q
  | _ => 0
def clampCode (F : MXF) (z : Int) : Int := max (-(MXF.maxCode F : Int)) (min (MXF.maxCode F) z)

theorem quantElem_code (F : MXF) (k s : Int) (rm : Rnd) (n : Bool) (m : Nat) (e : Int) :
    (quantElem F k s rm (.fin n m e)).1 = BitVec.ofInt 8 (clampCode F (quantInt F k s rm (.fin n m e))) := by
  simp only [quantElem, quantInt, clampCode]
  congr 1
  cases n <;> simp only [Bool.false_eq_true, if_false, if_true] <;> split <;> omega

/-- An element's exact value at the scale is rounded to `quantInt`, and the rounding says whether it had to. -/
theorem quantInt_rounds (F : MXF) (k s : Int) (rm : Rnd) (n : Bool) (m : Nat) (e : Int) :
    let y : ℚ := (FVal.fin n m e).rat * (2 : ℚ) ^ k * (2 : ℚ) ^ ((MXF.f F : Int) - (s - 127))
    let z := quantInt F k s rm (.fin n m e)
    intRounds rm y z ∧ ((roundAt rm n m (e + k + MXF.f F - (s - 127)) false 0).2 = true ↔ y ≠ z) := by
  have hy : (FVal.fin n m e).rat * (2 : ℚ) ^ k * (2 : ℚ) ^ ((MXF.f F : Int) - (s - 127)) =
      (FVal.fin n m (e + k + MXF.f F - (s - 127))).rat := by
    rw [add_sub_assoc, FVal.rat_fin_add, FVal.rat_fin_add]
  rw [hy]
  exact roundAt_intRounds rm n m _

theorem getLsbD_fNX (b : Nat) : fNX.getLsbD b = true ↔ b = 0 := by
  have h : fNX = BitVec.twoPow 6 0 := by decide
  simp [h, BitVec.getLsbD_twoPow, eq_comm]
theorem getLsbD_fSAT (b : Nat) : fSAT.getLsbD b = true ↔ b = 5 := by
  have h : fSAT = BitVec.twoPow 6 5 := by decide
  simp [h, BitVec.getLsbD_twoPow, eq_comm]
theorem getLsbD_flagIf (c : Prop) [Decidable c] (f : BitVec 6) (b : Nat) :
    (if c then f else 0).getLsbD b = true ↔ f.getLsbD b = true ∧ c := by
  split <;> simp [*]

theorem quantElem_flags (F : MXF) (k s : Int) (rm : Rnd) (n : Bool) (m : Nat) (e : Int) (b : Nat) :
    let y : ℚ := (FVal.fin n m e).rat * (2 : ℚ) ^ k * (2 : ℚ) ^ ((MXF.f F : Int) - (s - 127))
    let z := quantInt F k s rm (.fin n m e)
    (quantElem F k s rm (.fin n m e)).2.getLsbD b = true ↔
      (b = 0 ∧ y ≠ z) ∨ (b = 5 ∧ (z < -(MXF.maxCode F : Int) ∨ (MXF.maxCode F : Int) < z)) := by
  intro y z
  have hNX := (quantInt_rounds F k s rm n m e).2
  have hSAT : MXF.maxCode F < (roundAt rm n m (e + k + MXF.f F - (s - 127)) false 0).1 ↔
      z < -(MXF.maxCode F : Int) ∨ (MXF.maxCode F : Int) < z := by
    simp only [z, quantInt]
    cases n <;> simp only [Bool.false_eq_true, if_false, if_true] <;> omega
  rw [← hNX, ← hSAT]
  simp only [quantElem, BitVec.getLsbD_or, Bool.or_eq_true, getLsbD_flagIf, getLsbD_fNX, getLsbD_fSAT]

/-- A flag of a list's elements together is a flag of one of them. -/
theorem getLsbD_foldl_or {α : Type} {w : Nat} (f : α → BitVec w) (b : Nat) (l : List α) (a : BitVec w) :
    (l.foldl (fun acc y => acc ||| f y) a).getLsbD b = true ↔ a.getLsbD b = true ∨ ∃ y ∈ l, (f y).getLsbD b = true := by
  induction l generalizing a with
  | nil => simp
  | cons y r ih => rw [List.foldl_cons, ih, BitVec.getLsbD_or, Bool.or_eq_true, List.exists_mem_cons_iff, or_assoc]

/-- What a fold with `expJoin` finds: the greatest exponent of the list's non-zero values, or where it started. -/
theorem foldl_expJoin (k a : Int) (l : List FVal) :
    a ≤ l.foldl (expJoin k) a ∧ (∀ n m e, FVal.fin n m e ∈ l → m ≠ 0 → flog2 m (e + k) ≤ l.foldl (expJoin k) a) ∧
      (l.foldl (expJoin k) a = a ∨ ∃ n m e, FVal.fin n m e ∈ l ∧ m ≠ 0 ∧ l.foldl (expJoin k) a = flog2 m (e + k)) := by
  induction l using List.reverseRecOn with
  | nil => exact ⟨le_rfl, fun n m e h => absurd h List.not_mem_nil, .inl rfl⟩
  | append_singleton l v ih =>
    obtain ⟨hstart, hge, hatt⟩ := ih
    rw [List.foldl_append, List.foldl_cons, List.foldl_nil]
    by_cases hv : ∀ n m e, v = .fin n m e → m = 0
    · have hskip : expJoin k (l.foldl (expJoin k) a) v = l.foldl (expJoin k) a := by
        cases v with
        | fin n m e => exact if_pos (hv n m e rfl)
        | _ => rfl
      rw [hskip]
      refine ⟨hstart, fun n m e h hm => ?_, hatt.imp id fun ⟨n, m, e, h, hm⟩ => ⟨n, m, e, List.mem_append_left _ h, hm⟩⟩
      rcases List.mem_append.1 h with h | h
      · exact hge n m e h hm
      · exact absurd (hv n m e (List.mem_singleton.1 h).symm) hm
    · push Not at hv
      obtain ⟨n, m, e, rfl, hm⟩ := hv
      have hj : expJoin k (l.foldl (expJoin k) a) (.fin n m e) = max (l.foldl (expJoin k) a) (flog2 m (e + k)) := if_neg hm
      rw [hj]
      refine ⟨hstart.trans (le_max_left _ _), fun n' m' e' h hm' => ?_, ?_⟩
      · rcases List.mem_append.1 h with h | h
        · exact (hge n' m' e' h hm').trans (le_max_left _ _)
        · cases List.mem_singleton.1 h
          exact le_max_right _ _
      · rcases max_choice (l.foldl (expJoin k) a) (flog2 m (e + k)) with h | h
        · rw [h]
          exact hatt.imp id fun ⟨n, m, e, h, hm⟩ => ⟨n, m, e, List.mem_append_left _ h, hm⟩
        · exact .inr ⟨n, m, e, List.mem_append_right _ List.mem_cons_self, hm, h⟩

/-- R145: X of a block of 32 values whose exponents are FP32's. -/
theorem blockExp_spec {k : Int} (hk : -127 ≤ k) {l : List FVal} (hl : ∀ n m e, FVal.fin n m e ∈ l → -149 ≤ e)
    (hfin : ∀ v ∈ l, v.finite = true) :
    ((∀ v ∈ l, v.rat = 0) → blockExp k l = -127) ∧
    ((∃ v ∈ l, v.rat ≠ 0) → (∀ v ∈ l, |v.rat| * (2 : ℚ) ^ k < (2 : ℚ) ^ (blockExp k l + 1)) ∧
      ∃ v ∈ l, (2 : ℚ) ^ blockExp k l ≤ |v.rat| * (2 : ℚ) ^ k) := by
  obtain ⟨-, hge, hatt⟩ := foldl_expJoin k (-100000) l
  constructor
  · intro hzero
    refine if_pos (hatt.resolve_right ?_)
    rintro ⟨n, m, e, hmem, hm, -⟩
    exact hm ((FVal.rat_fin_eq_zero n m e).1 (hzero _ hmem))
  · rintro ⟨v, hv, hne⟩
    obtain ⟨n, m, e, rfl⟩ := FVal.finite_iff.1 (hfin v hv)
    have hm : m ≠ 0 := fun h => hne ((FVal.rat_fin_eq_zero n m e).2 h)
    have hlow : (-100000 : Int) < flog2 m (e + k) := by
      have := hl n m e hv
      unfold flog2
      omega
    have hX : l.foldl (expJoin k) (-100000) ≠ -100000 := (hlow.trans_le (hge n m e hv hm)).ne'
    have hval : blockExp k l = l.foldl (expJoin k) (-100000) := if_neg hX
    rw [hval]
    constructor
    · intro w hw
      obtain ⟨n', m', e', rfl⟩ := FVal.finite_iff.1 (hfin w hw)
      by_cases hm' : m' = 0
      · rw [(FVal.rat_fin_eq_zero n' m' e').2 hm', abs_zero, zero_mul]
        positivity
      · rw [FVal.abs_rat_fin, mul_assoc, ← zpow_add₀ two_ne_zero]
        refine (lt_flog2 m' (e' + k)).trans_le (zpow_le_zpow_right₀ one_le_two ?_)
        have := hge n' m' e' hw hm'
        omega
    · obtain ⟨n', m', e', hw, hm', heq⟩ := hatt.resolve_left hX
      refine ⟨_, hw, ?_⟩
      rw [FVal.abs_rat_fin, mul_assoc, ← zpow_add₀ two_ne_zero, heq]
      exact flog2_le hm' (e' + k)

theorem toNat_scaleByte (k : Int) (l : List FVal) : ((BitVec.ofInt 8 (blockScale k l)).toNat : Int) = blockScale k l := by
  have hlo : 0 ≤ blockScale k l := by unfold blockScale; omega
  have hhi : blockScale k l < 2 ^ 8 := by unfold blockScale; omega
  rw [BitVec.toNat_ofInt]
  omega

/-- The 32 elements of a block. -/
def blockOf (x : Nat → FVal) : List FVal := (List.range 32).map x

theorem mem_blockOf {x : Nat → FVal} {v : FVal} : v ∈ blockOf x ↔ ∃ i, i < 32 ∧ x i = v := by
  simp [blockOf]

theorem map_blockOf {α : Type} (f : FVal → α) (x : Nat → FVal) : (blockOf x).map f = (List.range 32).map (f ∘ x) :=
  List.map_map

/-- R145 for a block of numbers. -/
theorem quantIs_of_finite (F : MXF) {k : Int} (hk : -127 ≤ k) (rm : Rnd) {x : Nat → FVal}
    (hx : ∀ i n m e, x i = .fin n m e → -149 ≤ e) (hfin : ∀ i, i < 32 → (x i).finite = true) :
    let s := blockScale k (blockOf x)
    quantIs F k rm x (BitVec.ofInt 8 s) (fun i => clampCode F (quantInt F k s rm (x i)))
      (((blockOf x).map (quantElem F k s rm)).foldl (fun acc y => acc ||| y.2) 0) := by
  intro s
  have hblock : ∀ v ∈ blockOf x, v.finite = true := fun v hv => by
    obtain ⟨i, hi, rfl⟩ := mem_blockOf.1 hv
    exact hfin i hi
  have hexp : ∀ n m e, FVal.fin n m e ∈ blockOf x → -149 ≤ e := fun n m e h => by
    obtain ⟨i, -, hi⟩ := mem_blockOf.1 h
    exact hx i n m e hi
  obtain ⟨hzero, hnonzero⟩ := blockExp_spec hk hexp hblock
  refine ⟨fun ⟨i, hi, h⟩ => absurd (hfin i hi) (Bool.eq_false_iff.1 h), fun _ =>
    ⟨blockExp k (blockOf x), fun i => quantInt F k s rm (x i), fun h => hzero fun v hv => ?_, fun ⟨i, hi, hne⟩ => ?_,
      toNat_scaleByte k _, fun i hi => ⟨?_, rfl⟩, fun b => ?_⟩⟩
  · obtain ⟨i, hi, rfl⟩ := mem_blockOf.1 hv
    exact h i hi
  · obtain ⟨hlt, v, hv, hle⟩ := hnonzero ⟨x i, mem_blockOf.2 ⟨i, hi, rfl⟩, hne⟩
    obtain ⟨j, hj, rfl⟩ := mem_blockOf.1 hv
    exact ⟨fun i hi => hlt _ (mem_blockOf.2 ⟨i, hi, rfl⟩), j, hj, hle⟩
  · obtain ⟨n, m, e, hv⟩ := FVal.finite_iff.1 (hfin i hi)
    simp only [hv, toNat_scaleByte, s]
    exact (quantInt_rounds F k s rm n m e).1
  · have helem : ∀ i, i < 32 → ((quantElem F k s rm (x i)).2.getLsbD b = true ↔
        (b = 0 ∧ (x i).rat * (2 : ℚ) ^ k * (2 : ℚ) ^ ((MXF.f F : Int) - (s - 127)) ≠ quantInt F k s rm (x i)) ∨
        (b = 5 ∧ (quantInt F k s rm (x i) < -(MXF.maxCode F : Int) ∨
          (MXF.maxCode F : Int) < quantInt F k s rm (x i)))) := fun i hi => by
      obtain ⟨n, m, e, hv⟩ := FVal.finite_iff.1 (hfin i hi)
      rw [hv]
      exact quantElem_flags F k s rm n m e b
    rw [List.foldl_map, getLsbD_foldl_or, BitVec.ofNat_eq_ofNat, BitVec.getLsbD_zero, toNat_scaleByte]
    constructor
    · rintro (h | ⟨v, hv, h⟩)
      · exact absurd h Bool.false_ne_true
      · obtain ⟨i, hi, rfl⟩ := mem_blockOf.1 hv
        exact ((helem i hi).1 h).imp (fun ⟨hb, hne⟩ => ⟨hb, i, hi, hne⟩) fun ⟨hb, hne⟩ => ⟨hb, i, hi, hne⟩
    · rintro (⟨hb, i, hi, hne⟩ | ⟨hb, i, hi, hne⟩)
      · exact .inr ⟨x i, mem_blockOf.2 ⟨i, hi, rfl⟩, (helem i hi).2 (.inl ⟨hb, hne⟩)⟩
      · exact .inr ⟨x i, mem_blockOf.2 ⟨i, hi, rfl⟩, (helem i hi).2 (.inr ⟨hb, hne⟩)⟩

/-- Quant_MX of 32 values with FP32's exponents is what R145 says, its codes packed as bytes. -/
theorem quantIs_quantMX (F : MXF) {k : Int} (hk : -127 ≤ k) (rm : Rnd) {x : Nat → FVal}
    (hx : ∀ i n m e, x i = .fin n m e → -149 ≤ e) : ∃ code : Nat → Int,
      quantIs F k rm x (quantMX (blockOf x) F k rm).1 code (quantMX (blockOf x) F k rm).2.2 ∧
      (quantMX (blockOf x) F k rm).2.1 = (List.range 32).map fun i => BitVec.ofInt 8 (code i) := by
  by_cases hfin : ∀ i, i < 32 → (x i).finite = true
  · refine ⟨fun i => clampCode F (quantInt F k (blockScale k (blockOf x)) rm (x i)), ?_, ?_⟩ <;>
      rw [quantMX_of_finite fun v hv => by obtain ⟨i, hi, rfl⟩ := mem_blockOf.1 hv; exact hfin i hi]
    · exact quantIs_of_finite F hk rm hx hfin
    · rw [map_blockOf, List.map_map]
      refine List.map_congr_left fun i hi => ?_
      obtain ⟨n, m, e, hv⟩ := FVal.finite_iff.1 (hfin i (List.mem_range.1 hi))
      simp only [Function.comp_apply, hv, quantElem_code]
  · push Not at hfin
    obtain ⟨i, hi, hf⟩ := hfin
    rw [quantMX_of_special (mem_blockOf.2 ⟨i, hi, rfl⟩) (Bool.eq_false_iff.2 hf)]
    exact ⟨fun _ => 0, ⟨fun _ => ⟨rfl, rfl, fun _ _ => rfl⟩, fun h => absurd (h i hi) hf⟩, map_blockOf (fun _ => 0) x⟩

/-! ## The layout of a block (R141, R280) -/

theorem MXF.b_bounds (F : MXF) : 0 < MXF.b F ∧ MXF.b F ≤ 8 := by cases F <;> decide

theorem getLsbD_lowOnes {w b : Nat} (hb : b ≤ w) (i : Nat) :
    (BitVec.ofNat w (2 ^ b - 1)).getLsbD i = decide (i < b) := by
  rw [BitVec.getLsbD_ofNat, Nat.testBit_two_pow_sub_one]
  by_cases h : i < b
  · have : i < w := by omega
    simp [h, this]
  · simp [h]

/-- Packed codes are elements of the format's width. -/
theorem mxPack_eq (F : MXF) (l : List (BitVec 8)) : mxPack F l = ofElems (l.map fun c => c.setWidth (MXF.b F)) := by
  have hb := (MXF.b_bounds F).2
  induction l with
  | nil => rfl
  | cons c r ih =>
    have hc : c.setWidth 1024 &&& BitVec.ofNat 1024 (2 ^ MXF.b F - 1) = (c.setWidth (MXF.b F)).setWidth 1024 := by
      apply BitVec.eq_of_getLsbD_eq
      intro i hi
      rw [BitVec.getLsbD_and, getLsbD_lowOnes (by omega), BitVec.getLsbD_setWidth, BitVec.getLsbD_setWidth,
        BitVec.getLsbD_setWidth]
      simp only [hi, decide_true, Bool.true_and, Bool.and_comm]
    have hcons : mxPack F (c :: r) =
        (mxPack F r <<< MXF.b F) ||| (c.setWidth 1024 &&& BitVec.ofNat 1024 (2 ^ MXF.b F - 1)) := rfl
    rw [hcons, ih, hc]
    rfl

theorem getLsbD_quantVec (F : MXF) (q : Byte × List (BitVec 8) × BitVec 6) (k : Int) {i : Nat} (hi : i < 1024) :
    (quantVec F q k).getLsbD i =
      ((mxPack F q.2.1).getLsbD i || (decide (960 ≤ i) && q.1.getLsbD (i - 960)) ||
        (decide (968 ≤ i) && (BitVec.ofInt 8 k).getLsbD (i - 968))) := by
  have hfield : ∀ (x : Byte) (o : Nat),
      (x.setWidth 1024 <<< o).getLsbD i = (decide (o ≤ i) && x.getLsbD (i - o)) := fun x o => by
    have h : i - o < 1024 := Nat.lt_of_le_of_lt (Nat.sub_le i o) hi
    rw [BitVec.getLsbD_shiftLeft, BitVec.getLsbD_setWidth, decide_eq_true hi, decide_eq_true h, Bool.true_and, Bool.true_and]
    by_cases ho : i < o
    · rw [decide_eq_true ho, decide_eq_false (Nat.not_le.2 ho)]; rfl
    · rw [decide_eq_false ho, decide_eq_true (Nat.not_lt.1 ho)]; rfl
  rw [quantVec, BitVec.getLsbD_or, BitVec.getLsbD_or, hfield, hfield]

/-- The codes of a block end before its scale. -/
theorem getLsbD_mxPack_beyond (F : MXF) {l : List (BitVec 8)} {i : Nat} (h : MXF.b F * l.length ≤ i) :
    (mxPack F l).getLsbD i = false := by
  have hb := (MXF.b_bounds F).1
  have hlen : (l.map fun c => c.setWidth (MXF.b F)).length ≤ i / MXF.b F := by
    rw [List.length_map]
    exact (Nat.le_div_iff_mul_le hb).2 (by rwa [Nat.mul_comm])
  rw [mxPack_eq, getLsbD_ofElems hb, List.getD_eq_default _ _ hlen]
  simp

theorem quantVec_code (F : MXF) (q : Byte × List (BitVec 8) × BitVec 6) (k : Int) {i : Nat} (hi : i < 32) :
    (quantVec F q k).extractLsb' (MXF.b F * i) (MXF.b F) = (q.2.1.getD i 0).setWidth (MXF.b F) := by
  obtain ⟨hb, hb8⟩ := MXF.b_bounds F
  have hend : MXF.b F * (i + 1) ≤ 256 := Nat.mul_le_mul hb8 (by omega : i + 1 ≤ 32)
  have hpack : elem (MXF.b F) (mxPack F q.2.1) i = (q.2.1.getD i 0).setWidth (MXF.b F) := by
    rw [mxPack_eq, elem_ofElems hb _ i (by omega), List.getD_eq_getElem?_getD, List.getElem?_map, List.getD_eq_getElem?_getD]
    cases q.2.1[i]? <;> simp
  rw [← hpack, elem]
  apply BitVec.eq_of_getLsbD_eq
  intro j hj
  have hlow : MXF.b F * i + j < 256 := by rw [Nat.mul_succ] at hend; omega
  have h960 : ¬ 960 ≤ MXF.b F * i + j := by omega
  have h968 : ¬ 968 ≤ MXF.b F * i + j := by omega
  rw [BitVec.getLsbD_extractLsb', BitVec.getLsbD_extractLsb', getLsbD_quantVec F q k (by omega)]
  simp only [h960, h968, decide_false, Bool.false_and, Bool.or_false]

/-- Bytes 120 and 121 hold the scale and the prescale exponent, the other bytes beyond the codes 0. -/
theorem quantVec_byte (F : MXF) {q : Byte × List (BitVec 8) × BitVec 6} (hl : q.2.1.length = 32) (k : Int) {j : Nat}
    (hj : j < 128) (hlo : 4 * MXF.b F ≤ j) :
    elem 8 (quantVec F q k) j = if j = 120 then q.1 else if j = 121 then BitVec.ofInt 8 k else 0 := by
  have hmax : MXF.b F * q.2.1.length ≤ 8 * j := by rw [hl]; omega
  apply BitVec.eq_of_getLsbD_eq
  intro i hi
  have hbyte : ∀ (x : Byte) (m : Nat), (decide (8 * m ≤ 8 * j + i) && x.getLsbD (8 * j + i - 8 * m)) =
      (decide (j = m) && x.getLsbD i) := fun x m => by
    rcases Nat.lt_trichotomy j m with h | rfl | h
    · rw [decide_eq_false (by omega), decide_eq_false h.ne, Bool.false_and, Bool.false_and]
    · rw [decide_eq_true (by omega), decide_eq_true rfl, Nat.add_sub_cancel_left]
    · rw [BitVec.getLsbD_of_ge x _ (by omega), decide_eq_false h.ne', Bool.and_false, Bool.false_and]
  rw [getLsbD_elem, getLsbD_quantVec F q k (by omega), getLsbD_mxPack_beyond F (by omega), hbyte q.1 120, hbyte _ 121,
    decide_eq_true hi, Bool.true_and, Bool.false_or]
  by_cases h120 : j = 120
  · simp [h120]
  · by_cases h121 : j = 121 <;> simp [h120, h121]

theorem setWidth_codeByte (F : MXF) (z : Int) : (BitVec.ofInt 8 z).setWidth (MXF.b F) = BitVec.ofInt (MXF.b F) z := by
  apply BitVec.eq_of_toNat_eq
  rw [BitVec.toNat_setWidth, BitVec.toNat_ofInt, BitVec.toNat_ofInt]
  cases F <;> simp only [MXF.b] <;> omega

/-! ## VQUANT (R280) -/

/-- A block as R280 lays it out: codes, scale, prescale exponent and zeros, with the prescale exponent R144 gives. -/
def laysOutBlock (F : MXF) (nr : Bool) (g : Ring) (crm : Rnd) (v r : Vec) (fl : BitVec 6) : Prop :=
  ∃ (k : Int) (code : Nat → Int), (if nr = true then k = 0 else prescaleIs F g k) ∧
    quantIs F k crm (fval .f32 v) (elem 8 r 120) code fl ∧
    (∀ i, i < 32 → r.extractLsb' (MXF.b F * i) (MXF.b F) = BitVec.ofInt (MXF.b F) (code i)) ∧
    elem 8 r 121 = BitVec.ofInt 8 k ∧
    (∀ j, 4 * MXF.b F ≤ j → j < 128 → j ≠ 120 → j ≠ 121 → elem 8 r j = 0)

/-- The prescale exponent VQUANT uses. -/
def quantScale (F : MXF) (nr : Bool) (g : Ring) : Int := if nr then 0 else prescale F g

theorem laysOutBlock_quantVec (F : MXF) (nr : Bool) (g : Ring) (crm : Rnd) (v : Vec) :
    let k := quantScale F nr g
    let q := quantMX (blockOf (fval .f32 v)) F k crm
    laysOutBlock F nr g crm v (quantVec F q k) q.2.2 := by
  intro k q
  have hk : -127 ≤ k := by
    unfold k quantScale
    split
    · decide
    · exact (prescale_bounds F g).1
  have hexp : ∀ i n m e, fval .f32 v i = .fin n m e → -149 ≤ e := fun i n m e h => (inF32_of_decodeF h).2.1
  obtain ⟨code, hquant, hcodes⟩ := quantIs_quantMX F hk crm hexp
  have hlen : q.2.1.length = 32 := by rw [hcodes, List.length_map, List.length_range]
  have hb : 4 * MXF.b F ≤ 120 := by have := (MXF.b_bounds F).2; omega
  refine ⟨k, code, ?_, ?_, fun i hi => ?_, ?_, fun j hlo hj h120 h121 => ?_⟩
  · cases nr
    · exact prescaleIs_prescale F g
    · exact rfl
  · rw [quantVec_byte F hlen k (by decide) hb]
    exact hquant
  · rw [quantVec_code F q k hi, hcodes, List.getD_eq_getElem?_getD, List.getElem?_map, List.getElem?_range hi]
    exact setWidth_codeByte F (code i)
  · rw [quantVec_byte F hlen k (by decide) (by omega)]
    rfl
  · rw [quantVec_byte F hlen k hj hlo, if_neg h120, if_neg h121]

theorem quantTo_gives {s : State} (h : plain s) (F : MXF) (nr : Bool) (g : Ring) (crm : Rnd) (d : Dst 128) (a : Src 128) :
    ∃ r fl, quantTo F (quantScale F nr g) crm d a s =
        queued (resultV (after1 s a) 5 d (BitVec.allOnes 32) r fl) (afterPush d (BitVec.allOnes 32) (after1 s a)) ∧
      laysOutBlock F nr g crm (src1 s a) r fl :=
  ⟨_, _, emitV_plain (plain_after1 a h) 5 d _ _ _, laysOutBlock_quantVec F nr g crm (src1 s a)⟩

theorem vquant_gives {s : State} (h : plain s) (d : Dst 128) (a : Src 128) (F : MXF) (nr : Bool) (ring : Fin 16)
    (crm : Rnd) : ∃ r fl, givesV (.vquant d a F nr ring crm) s (after1 s a) 5 d (BitVec.allOnes 32) r fl ∧
      laysOutBlock F nr (s.core.a.rings.get ring) crm (src1 s a) r fl := by
  obtain ⟨r, fl, hto, hlay⟩ := quantTo_gives h F nr (s.core.a.rings.get ring) crm d a
  exact ⟨r, fl, (exec_vquant d a F nr ring crm s).trans (congrArg Host.Outcome.next hto), hlay⟩

theorem vquantF_gives {s : State} (h : plain s) (d : Dst 128) (a : Src 128) (side : Bool) (k : Fin 4) (crm : Rnd)
    {e : FmtEntry} (he : fmttEntry s.feat s.core.sp.fmtt (s.core.a.lc.get k) = some e) :
    let F := if side = true then e.bf else e.af
    let nr := if side = true then e.bnr else e.anr
    let ring := if side = true then e.bring else e.aring
    ∃ r fl, givesV (.vquantF d a side k crm) s (after1 s a) 5 d (BitVec.allOnes 32) r fl ∧
      laysOutBlock F nr (s.core.a.rings.get ring) crm (src1 s a) r fl := by
  intro F nr ring
  obtain ⟨r, fl, hto, hlay⟩ := quantTo_gives h F nr (s.core.a.rings.get ring) crm d a
  refine ⟨r, fl, ?_, hlay⟩
  rw [givesV, exec_vquantF, execVquantF, he]
  exact congrArg Host.Outcome.next hto

/-- R147: no valid entry of %fmtt. -/
theorem vquantF_traps {s : State} (d : Dst 128) (a : Src 128) (side : Bool) (k : Fin 4) (crm : Rnd)
    (he : fmttEntry s.feat s.core.sp.fmtt (s.core.a.lc.get k) = none) : ∃ w : SlotWord,
      encode (.vquantF d a side k crm) = some w ∧
      exec (.vquantF d a side k crm) s = .next (trapHere 0x01 (w.setWidth 64) s) := by
  refine ⟨_, rfl, ?_⟩
  rw [exec_vquantF, execVquantF, he]
  rfl

/-! ## VDEQ (R281) -/

theorem laneOf_32 (e : Nat) : laneOf 32 e = e := by rw [laneOf, Nat.mul_div_cancel_left e (by decide)]

theorem vdeq_gives {s : State} (h : plain s) (g : Guard) (d : Dst 128) (a : Src 128) (F : MXF) (crm : Rnd) :
    ∃ r fl, givesV (.vdeq g d a F crm) s (after1 s a) 3 d (guardBits s g) r fl ∧
      let sc := (elem 8 (src1 s a) 120).toNat
      let k := (elem 8 (src1 s a) 121).toInt
      let q (e : Nat) : Int := codeVal F ((src1 s a).extractLsb' (MXF.b F * e) (MXF.b F)).toNat
      let x (e : Nat) : Nat × BitVec 6 :=
        roundF f32F crm (.fin (decide (q e < 0)) (q e).natAbs ((sc : Int) - 127 - MXF.f F - k))
      (sc = 0xFF → (∀ e, e < 32 → elem 32 r e = 0x7FC00000#32) ∧ fl = if guardBits s g = 0 then 0 else fNV) ∧
      (sc ≠ 0xFF → (∀ e, e < 32 → elem 32 r e = BitVec.ofNat 32 (x e).1) ∧
        ∀ b, fl.getLsbD b = true ↔ ∃ e, e < 32 ∧ (guardBits s g).getLsbD e = true ∧ (x e).2.getLsbD b = true) := by
  refine ⟨_, _, (exec_vdeq g d a F crm s).trans (vec1_gives h 3 g d a _), ?_⟩
  intro sc k q x
  dsimp only
  constructor
  · intro hsc
    rw [if_pos hsc]
    exact ⟨fun e he => elem_mapElems (by decide) _ e he, by simp only [beq_iff_eq]⟩
  · intro hsc
    rw [if_neg hsc]
    refine ⟨fun e he => elem_mapElemsF (by decide) _ _ e he, fun b => ?_⟩
    rw [flag_mapElemsF]
    simp only [laneOf_32]
    exact Iff.rfl

/-! ## VAMAX (R143, R279) -/

/-! ## VAMAX (R143, R279) -/

/-- A value joined to the greatest magnitude so far, as `amaxOf` does. -/
def amaxJoin (acc : FVal) : FVal → FVal
  | .nan _ => acc
  | .inf _ => .inf false
  | .fin _ m e => if cmpX acc (.fin false m e) == .lt then .fin false m e else acc
/-- The values of the elements in enabled lanes. -/
def activeVals (ty : FTy) (mask : BitVec 32) (x : Vec) : List FVal :=
  ((List.range (nElems (fwidth ty))).filter fun e => mask.getLsbD (laneOf (fwidth ty) e)).map (fval ty x)

theorem mem_activeVals {ty : FTy} {mask : BitVec 32} {x : Vec} {v : FVal} : v ∈ activeVals ty mask x ↔
    ∃ e, e < nElems (fwidth ty) ∧ mask.getLsbD (laneOf (fwidth ty) e) = true ∧ fval ty x e = v := by
  simp only [activeVals, List.mem_map, List.mem_filter, List.mem_range, and_assoc]

theorem amaxOf_eq (ty : FTy) (mask : BitVec 32) (x : Vec) :
    amaxOf ty mask x = (activeVals ty mask x).foldl amaxJoin (.fin false 0 0) := by
  rw [amaxOf, actives, activeVals, List.foldl_map, List.foldl_map, List.foldl_filter]
  refine congrArg (fun f => List.foldl f _ _) (funext fun acc => funext fun e => ?_)
  cases hm : mask.getLsbD (laneOf (fwidth ty) e) with
  | false => rfl
  | true =>
    simp only [if_true, fval, felem]
    cases decodeF (FTy.fmt ty) (elem (fwidth ty) x e).toNat <;> rfl

/-- What a fold with `amaxJoin` finds: an infinity of the list, or a number that none of its values exceeds and that is
one's magnitude, or 0 where it started. -/
def isAmax (l : List FVal) : FVal → Prop
  | .nan _ => False
  | .inf n => n = false ∧ ∃ v ∈ l, v.isNan = false ∧ v.finite = false
  | .fin n m e => n = false ∧ (∀ v ∈ l, v.isNan = false → v.finite = true ∧ |v.rat| ≤ (m : ℚ) * (2 : ℚ) ^ e) ∧
      ((m = 0 ∧ e = 0) ∨ ∃ k, FVal.fin k m e ∈ l)

theorem isAmax_join {l : List FVal} {acc : FVal} (h : isAmax l acc) (v : FVal) : isAmax (l ++ [v]) (amaxJoin acc v) := by
  have hlast : v ∈ l ++ [v] := List.mem_append_right _ List.mem_cons_self
  match acc, v with
  | .inf n, v =>
    obtain ⟨rfl, w, hw, hinf⟩ := h
    have hj : amaxJoin (.inf false) v = .inf false := by cases v <;> rfl
    rw [hj]
    exact ⟨rfl, w, List.mem_append_left _ hw, hinf⟩
  | .fin n m e, .inf k => exact ⟨rfl, .inf k, hlast, rfl, rfl⟩
  | .fin n m e, .nan k =>
    obtain ⟨rfl, hle, hatt⟩ := h
    refine ⟨rfl, fun w hw hn => ?_, hatt.imp id fun ⟨k, hk⟩ => ⟨k, List.mem_append_left _ hk⟩⟩
    rcases List.mem_append.1 hw with hw | hw
    · exact hle w hw hn
    · cases List.mem_singleton.1 hw
      cases hn
  | .fin n m e, .fin k q f =>
    obtain ⟨rfl, hle, hatt⟩ := h
    by_cases hlt : (m : ℚ) * (2 : ℚ) ^ e < (q : ℚ) * (2 : ℚ) ^ f
    · have hj : amaxJoin (.fin false m e) (.fin k q f) = .fin false q f := if_pos (cmpX_magnitudes.2 hlt)
      rw [hj]
      refine ⟨rfl, fun w hw hn => ?_, .inr ⟨k, hlast⟩⟩
      rcases List.mem_append.1 hw with hw | hw
      · exact ⟨(hle w hw hn).1, (hle w hw hn).2.trans hlt.le⟩
      · cases List.mem_singleton.1 hw
        exact ⟨rfl, (FVal.abs_rat_fin k q f).le⟩
    · have hj : amaxJoin (.fin false m e) (.fin k q f) = .fin false m e := if_neg fun h => hlt (cmpX_magnitudes.1 h)
      rw [hj]
      refine ⟨rfl, fun w hw hn => ?_, hatt.imp id fun ⟨k, hk⟩ => ⟨k, List.mem_append_left _ hk⟩⟩
      rcases List.mem_append.1 hw with hw | hw
      · exact hle w hw hn
      · cases List.mem_singleton.1 hw
        exact ⟨rfl, (FVal.abs_rat_fin k q f).trans_le (not_lt.1 hlt)⟩

theorem isAmax_amaxOf (ty : FTy) (mask : BitVec 32) (x : Vec) : isAmax (activeVals ty mask x) (amaxOf ty mask x) := by
  rw [amaxOf_eq]
  induction activeVals ty mask x using List.reverseRecOn with
  | nil => exact ⟨rfl, fun v hv => absurd hv List.not_mem_nil, .inl ⟨rfl, rfl⟩⟩
  | append_singleton l v ih =>
    rw [List.foldl_append]
    exact isAmax_join ih v

/-- What VAMAX pushes, by the values of the elements that are active and no NaN (R143, R279). -/
theorem amaxOf_pushed (ty : FTy) (mask : BitVec 32) (x : Vec) :
    let on (e : Nat) : Prop := e < nElems (fwidth ty) ∧ mask.getLsbD (laneOf (fwidth ty) e) = true ∧
      (fval ty x e).isNan = false
    let m := (roundF f32F .rne (amaxOf ty mask x)).1
    ((∀ e, ¬ on e) → m = 0) ∧
    ((∃ e, on e ∧ (fval ty x e).finite = false) → m = infBits f32F false) ∧
    ((∀ e, on e → (fval ty x e).finite = true) → (∃ e, on e) →
      (∀ e, on e → |(fval ty x e).rat| ≤ (decodeF f32F m).rat) ∧
      ∃ e, on e ∧ |(fval ty x e).rat| = (decodeF f32F m).rat) := by
  intro on m
  have hmem : ∀ {v}, v ∈ activeVals ty mask x → v.isNan = false → ∃ e, on e ∧ fval ty x e = v := fun hv hn => by
    obtain ⟨e, he, hm, rfl⟩ := mem_activeVals.1 hv
    exact ⟨e, ⟨he, hm, hn⟩, rfl⟩
  have hin : ∀ {e}, on e → fval ty x e ∈ activeVals ty mask x := fun ⟨he, hm, _⟩ => mem_activeVals.2 ⟨_, he, hm, rfl⟩
  have hmax := isAmax_amaxOf ty mask x
  have hm : m = (roundF f32F .rne (amaxOf ty mask x)).1 := rfl
  clear_value m
  match h : amaxOf ty mask x with
  | .nan k => rw [h] at hmax; exact hmax.elim
  | .inf k =>
    rw [h] at hmax hm
    obtain ⟨rfl, v, hv, hn, hf⟩ := hmax
    obtain ⟨e, he, rfl⟩ := hmem hv hn
    exact ⟨fun hno => absurd he (hno e), fun _ => hm, fun hall => absurd (hall e he) (Bool.eq_false_iff.1 hf)⟩
  | .fin k q f =>
    rw [h] at hmax hm
    obtain ⟨rfl, hle, hatt⟩ := hmax
    have hrat : (decodeF f32F m).rat = (q : ℚ) * (2 : ℚ) ^ f := by
      rw [hm]
      refine decodeF_roundF_inF32 .rne ?_
      rcases hatt with ⟨rfl, rfl⟩ | ⟨k, hk⟩
      · exact ⟨by decide, by decide, by decide⟩
      · obtain ⟨e, -, -, he⟩ := mem_activeVals.1 hk
        exact inF32_of_decodeF he
    refine ⟨fun hno => ?_, fun ⟨e, he, hf⟩ => ?_, fun hall ⟨e, he⟩ => ⟨fun e he => ?_, ?_⟩⟩
    · rcases hatt with ⟨rfl, rfl⟩ | ⟨k, hk⟩
      · exact hm
      · obtain ⟨e, he, -⟩ := hmem hk rfl
        exact absurd he (hno e)
    · exact absurd (hle _ (hin he) he.2.2).1 (Bool.eq_false_iff.1 hf)
    · rw [hrat]
      exact (hle _ (hin he) he.2.2).2
    · rcases hatt with ⟨rfl, rfl⟩ | ⟨k, hk⟩
      · refine ⟨e, he, le_antisymm ?_ ?_⟩ <;> rw [hrat]
        · exact (hle _ (hin he) he.2.2).2
        · simp
      · obtain ⟨j, hj, hv⟩ := hmem hk rfl
        exact ⟨j, hj, by rw [hv, hrat, FVal.abs_rat_fin]⟩

/-- Reading a source leaves the slot in execution and the core's region as they are. -/
theorem after1_slot (s : State) (a : Src 128) :
    (after1 s a).core.slot = s.core.slot ∧ regionOpen (after1 s a).core = regionOpen s.core := by
  obtain ⟨⟨_, _, _, _, _, _, _, _, _, _, _, _, _, _, h⟩, -⟩ := after1_reads s a
  rw [h]
  exact ⟨rfl, rfl⟩

theorem vamax_gives {s : State} (h : plain s) (g : Guard) (ty : FTy) (a : Src 128) (ring : Fin 16) :
    exec (.vamax g ty a ring) s = .next (queued (resultOf (after1 s a) 5 (.ringPush ring) false 0
      (BitVec.ofNat 1024 (roundF f32F .rne (amaxOf ty (guardBits s g) (src1 s a))).1) 0) (after1 s a)) := by
  obtain ⟨hslot, hregion⟩ := after1_slot s a
  rw [exec_vamax, execVamax, resultOf, hslot, hregion]
  exact congrArg Host.Outcome.next (schedule_plain _ (plain_after1 a h))

theorem vamaxC_gives {s : State} (h : plain s) (g : Guard) (ring : Fin 16) :
    (guardBits s g ≠ 0 → exec (.vamaxC g ring) s = .next (queued (resultOf s 5 (.ringClear ring) false 0 0 0) s)) ∧
    (guardBits s g = 0 → exec (.vamaxC g ring) s = .next s) := by
  rw [exec_vamaxC, execVamaxC]
  refine ⟨fun hg => ?_, fun hg => ?_⟩
  · rw [if_neg (mt beq_iff_eq.1 hg)]
    exact congrArg Host.Outcome.next (schedule_plain _ h)
  · rw [if_pos (beq_iff_eq.2 hg)]

/-- Settles O13, clause by clause: both forms of VQUANT, the invalid %fmtt entry, VDEQ, VAMAX and VAMAX.c. -/
theorem blockFormatResults : Obligations.BlockFormatResults :=
  ⟨fun _ d a F nr ring crm h => vquant_gives h d a F nr ring crm,
    fun _ d a side k crm _ h he => vquantF_gives h d a side k crm he,
    fun _ d a side k crm he => vquantF_traps d a side k crm he,
    fun _ g d a F crm h => vdeq_gives h g d a F crm,
    fun s g ty a ring h => ⟨_, vamax_gives h g ty a ring, amaxOf_pushed ty (guardBits s g) (src1 s a)⟩,
    fun _ g ring h => vamaxC_gives h g ring⟩

end Sys2Proof.Machine

namespace Sys2Proof

/-! ## The fields of a word -/

theorem append_eq_iff {n m : Nat} {x : BitVec (n + m)} {a : BitVec n} {b : BitVec m} :
    a ++ b = x ↔ a = x.extractLsb' m n ∧ b = x.extractLsb' 0 m := by
  constructor
  · rintro rfl
    exact ⟨BitVec.extractLsb'_append_eq_left.symm, BitVec.extractLsb'_append_eq_right.symm⟩
  · rintro ⟨rfl, rfl⟩
    exact BitVec.extractLsb'_append_extractLsb'

theorem extractLsb'_extractLsb' {v k l i n : Nat} {x : BitVec v} (h : i + n ≤ l) :
    (x.extractLsb' k l).extractLsb' i n = x.extractLsb' (k + i) n := by
  ext j hj
  simp only [BitVec.getElem_extractLsb', BitVec.getLsbD_extractLsb', Nat.add_assoc]
  rw [decide_eq_true (by omega), Bool.true_and]

theorem eq_append_iff {n m : Nat} {x : BitVec (n + m)} {a : BitVec n} {b : BitVec m} :
    x = a ++ b ↔ x.extractLsb' m n = a ∧ x.extractLsb' 0 m = b := by
  rw [eq_comm, append_eq_iff, eq_comm (a := a), eq_comm (a := b)]

theorem formA_eq_iff {o : BitVec 10} {g : BitVec 5} {d a b c : BitVec 9} {m : BitVec 5} {w : SlotWord} :
    formA o g d a b c m = w ↔
      fOpc w = o ∧ fGrd w = g ∧ fDst w = d ∧ fA w = a ∧ fB w = b ∧ fC w = c ∧ fMod w = m := by
  unfold formA
  rw [append_eq_iff, append_eq_iff, append_eq_iff, append_eq_iff, append_eq_iff, append_eq_iff]
  simp (disch := decide) only [extractLsb'_extractLsb', and_assoc,
    eq_comm (b := BitVec.extractLsb' _ _ w)]
  rfl

theorem formI_eq_iff {o : BitVec 10} {g : BitVec 5} {d a : BitVec 9} {m : BitVec 23} {w : SlotWord} :
    formI o g d a m = w ↔ fOpc w = o ∧ fGrd w = g ∧ fDst w = d ∧ fA w = a ∧ fImm23 w = m := by
  unfold formI
  rw [append_eq_iff, append_eq_iff, append_eq_iff, append_eq_iff]
  simp (disch := decide) only [extractLsb'_extractLsb', and_assoc,
    eq_comm (b := BitVec.extractLsb' _ _ w)]
  rfl

theorem formL_eq_iff {o : BitVec 10} {g : BitVec 5} {d : BitVec 9} {m : BitVec 32} {w : SlotWord} :
    formL o g d m = w ↔ fOpc w = o ∧ fGrd w = g ∧ fDst w = d ∧ fImm32 w = m := by
  unfold formL
  rw [append_eq_iff, append_eq_iff, append_eq_iff]
  simp (disch := decide) only [extractLsb'_extractLsb', and_assoc,
    eq_comm (b := BitVec.extractLsb' _ _ w)]
  rfl

theorem formM_eq_iff {o : BitVec 10} {g : BitVec 5} {d : BitVec 9} {b : BitVec 6} {f : BitVec 16} {t l : BitVec 3}
    {u : BitVec 4} {w : SlotWord} : formM o g d b f t l u = w ↔
      fOpc w = o ∧ fGrd w = g ∧ fDst w = d ∧ fBase w = b ∧ fOff w = f ∧ fTok w = t ∧ fLease w = l ∧ fBuf w = u := by
  unfold formM
  rw [append_eq_iff, append_eq_iff, append_eq_iff, append_eq_iff, append_eq_iff, append_eq_iff, append_eq_iff]
  simp (disch := decide) only [extractLsb'_extractLsb', and_assoc,
    eq_comm (b := BitVec.extractLsb' _ _ w)]
  rfl

theorem formX_eq_iff {o : BitVec 10} {g : BitVec 5} {k : BitVec 2} {a b d : BitVec 9} {m : BitVec 12} {w : SlotWord} :
    formX o g k a b d m = w ↔
      fOpc w = o ∧ fGrd w = g ∧ fBank w = k ∧ fXA w = a ∧ fXB w = b ∧ fXD w = d ∧ fXMod w = m := by
  unfold formX
  rw [append_eq_iff, append_eq_iff, append_eq_iff, append_eq_iff, append_eq_iff, append_eq_iff]
  simp (disch := decide) only [extractLsb'_extractLsb', and_assoc,
    eq_comm (b := BitVec.extractLsb' _ _ w)]
  rfl

/-! ## What a field that passes its checks gives -/

/-- The field passes checks 8 and 9 of R117, and its value is `a`. -/
def Fld.gives {α : Type} (f : Fld α) (a : α) : Prop := f.ill = false ∧ f.res = false ∧ f.val = a

theorem Fld.gives.val_eq {α : Type} {f : Fld α} {a : α} (h : f.gives a) : f.val = a := h.2.2

@[simp] theorem gives_pure {α : Type} {a b : α} : (Fld.pure a).gives b ↔ a = b := by simp [Fld.gives, Fld.pure]

@[simp] theorem gives_mk {α : Type} {i r : Bool} {a b : α} : (Fld.mk i r a).gives b ↔ i = false ∧ r = false ∧ a = b
    := Iff.rfl

/-! A constructor or a structure applied to fields gives what each of its fields gives. -/

section Apply
variable {T A B C D E F G H I : Type} {xa : Fld A} {xb : Fld B} {xc : Fld C} {xd : Fld D} {xe : Fld E} {xf : Fld F}
  {xg : Fld G} {xh : Fld H} {xi : Fld I} {a : A} {b : B} {c : C} {d : D} {e : E} {f : F} {g : G} {h : H} {i : I}

@[simp] theorem map_gives {k : A → T} (hk : ∀ a a', k a = k a' ↔ a = a') : (xa.map k).gives (k a) ↔ xa.gives a := by
  simp only [Fld.gives, Fld.map, hk]

theorem map_gives_iff {k : A → T} {t : T} : (xa.map k).gives t ↔ ∃ a, xa.gives a ∧ k a = t := by
  constructor
  · rintro ⟨hi, hr, rfl⟩
    exact ⟨_, ⟨hi, hr, rfl⟩, rfl⟩
  · rintro ⟨a, ⟨hi, hr, rfl⟩, rfl⟩
    exact ⟨hi, hr, rfl⟩

@[simp] theorem ap2_gives {k : A → B → T} (hk : ∀ a b a' b', k a b = k a' b' ↔ a = a' ∧ b = b') :
    (((Fld.pure k).ap xa).ap xb).gives (k a b) ↔ xa.gives a ∧ xb.gives b := by
  simp only [Fld.gives, Fld.ap, Fld.pure, hk, Bool.or_eq_false_iff]
  tauto

@[simp] theorem ap3_gives {k : A → B → C → T} (hk : ∀ a b c a' b' c', k a b c = k a' b' c' ↔ a = a' ∧ b = b' ∧ c = c') :
    ((((Fld.pure k).ap xa).ap xb).ap xc).gives (k a b c) ↔ xa.gives a ∧ xb.gives b ∧ xc.gives c := by
  simp only [Fld.gives, Fld.ap, Fld.pure, hk, Bool.or_eq_false_iff]
  tauto

@[simp] theorem ap4_gives {k : A → B → C → D → T}
    (hk : ∀ a b c d a' b' c' d', k a b c d = k a' b' c' d' ↔ a = a' ∧ b = b' ∧ c = c' ∧ d = d') :
    (((((Fld.pure k).ap xa).ap xb).ap xc).ap xd).gives (k a b c d) ↔
      xa.gives a ∧ xb.gives b ∧ xc.gives c ∧ xd.gives d := by
  simp only [Fld.gives, Fld.ap, Fld.pure, hk, Bool.or_eq_false_iff]
  tauto

@[simp] theorem ap5_gives {k : A → B → C → D → E → T} (hk : ∀ a b c d e a' b' c' d' e',
      k a b c d e = k a' b' c' d' e' ↔ a = a' ∧ b = b' ∧ c = c' ∧ d = d' ∧ e = e') :
    ((((((Fld.pure k).ap xa).ap xb).ap xc).ap xd).ap xe).gives (k a b c d e) ↔
      xa.gives a ∧ xb.gives b ∧ xc.gives c ∧ xd.gives d ∧ xe.gives e := by
  simp only [Fld.gives, Fld.ap, Fld.pure, hk, Bool.or_eq_false_iff]
  tauto

@[simp] theorem ap6_gives {k : A → B → C → D → E → F → T} (hk : ∀ a b c d e f a' b' c' d' e' f',
      k a b c d e f = k a' b' c' d' e' f' ↔ a = a' ∧ b = b' ∧ c = c' ∧ d = d' ∧ e = e' ∧ f = f') :
    (((((((Fld.pure k).ap xa).ap xb).ap xc).ap xd).ap xe).ap xf).gives (k a b c d e f) ↔
      xa.gives a ∧ xb.gives b ∧ xc.gives c ∧ xd.gives d ∧ xe.gives e ∧ xf.gives f := by
  simp only [Fld.gives, Fld.ap, Fld.pure, hk, Bool.or_eq_false_iff]
  tauto

@[simp] theorem ap7_gives {k : A → B → C → D → E → F → G → T} (hk : ∀ a b c d e f g a' b' c' d' e' f' g',
      k a b c d e f g = k a' b' c' d' e' f' g' ↔ a = a' ∧ b = b' ∧ c = c' ∧ d = d' ∧ e = e' ∧ f = f' ∧ g = g') :
    ((((((((Fld.pure k).ap xa).ap xb).ap xc).ap xd).ap xe).ap xf).ap xg).gives (k a b c d e f g) ↔
      xa.gives a ∧ xb.gives b ∧ xc.gives c ∧ xd.gives d ∧ xe.gives e ∧ xf.gives f ∧ xg.gives g := by
  simp only [Fld.gives, Fld.ap, Fld.pure, hk, Bool.or_eq_false_iff]
  tauto

@[simp] theorem ap9_gives {k : A → B → C → D → E → F → G → H → I → T} (hk : ∀ a b c d e f g h i a' b' c' d' e' f' g'
    h' i',
      k a b c d e f g h i = k a' b' c' d' e' f' g' h' i' ↔
        a = a' ∧ b = b' ∧ c = c' ∧ d = d' ∧ e = e' ∧ f = f' ∧ g = g' ∧ h = h' ∧ i = i') :
    ((((((((((Fld.pure k).ap xa).ap xb).ap xc).ap xd).ap xe).ap xf).ap xg).ap xh).ap xi).gives (k a b c d e f g h i) ↔
      xa.gives a ∧ xb.gives b ∧ xc.gives c ∧ xd.gives d ∧ xe.gives e ∧ xf.gives f ∧ xg.gives g ∧ xh.gives h ∧
        xi.gives i := by
  simp only [Fld.gives, Fld.ap, Fld.pure, hk, Bool.or_eq_false_iff]
  tauto

end Apply

@[simp] theorem gives_illIf {α : Type} {x : Fld α} {b : Bool} {a : α} : (x.illIf b).gives a ↔ x.gives a ∧ b = false := by
  simp only [Fld.gives, Fld.illIf, Bool.or_eq_false_iff]
  tauto

@[simp] theorem gives_resIf {α : Type} {x : Fld α} {b : Bool} {a : α} : (x.resIf b).gives a ↔ x.gives a ∧ b = false := by
  simp only [Fld.gives, Fld.resIf, Bool.or_eq_false_iff]
  tauto

/-- A check on the value the field itself gives. -/
theorem gives_illIf_val {α : Type} {x : Fld α} (p : α → Bool) {a : α} :
    (x.illIf (p x.val)).gives a ↔ x.gives a ∧ p a = false := by
  rw [gives_illIf]
  exact and_congr_right fun h => by rw [h.val_eq]

/-- A decoder accepts its word, as one of `a`. -/
def accepts {α : Type} (o : Option (Fld α)) (a : α) : Prop := ∃ f, o = some f ∧ f.gives a

@[simp] theorem accepts_some {α : Type} {f : Fld α} {a : α} : accepts (some f) a ↔ f.gives a := by simp [accepts]
@[simp] theorem accepts_none {α : Type} {a : α} : ¬ accepts (none : Option (Fld α)) a := by simp [accepts]

theorem result_eq_ok {α : Type} {x : Fld α} {a : α} : x.result = .ok a ↔ x.gives a := by
  obtain ⟨i, r, v⟩ := x
  cases i <;> cases r <;> simp [Fld.result, Fld.gives]

/-! ## Operands (R102, R103, R250) -/

theorem eq_opnd_iff {c : BitVec 9} {k i : Nat} (hk : k < 4) (hi : i < 128) : c = opnd k i ↔ kindOf c = k ∧ idxOf c =
    i := by
  rw [eq_comm, opnd, append_eq_iff, ← BitVec.toNat_inj, ← BitVec.toNat_inj, BitVec.toNat_ofNat, BitVec.toNat_ofNat,
    Nat.mod_eq_of_lt hk, Nat.mod_eq_of_lt hi, eq_comm, eq_comm (a := i)]
  rfl

theorem kindOf_lt (c : BitVec 9) : kindOf c < 4 := (c.extractLsb' 7 2).isLt
theorem idxOf_lt (c : BitVec 9) : idxOf c < 128 := (c.extractLsb' 0 7).isLt

/-- An index that is in range, as the register it names. -/
theorem ofNat_gives {n k : Nat} [NeZero n] {i : Fin n} : k < n ∧ Fin.ofNat n k = i ↔ k = i.val := by
  constructor
  · rintro ⟨h, rfl⟩
    exact (Nat.mod_eq_of_lt h).symm
  · rintro rfl
    exact ⟨i.isLt, Fin.ofNat_val_eq_self i⟩

theorem kindOf_cases (c : BitVec 9) : kindOf c = 0 ∨ kindOf c = 1 ∨ kindOf c = 2 ∨ kindOf c = 3 := by
  have := kindOf_lt c
  omega

@[simp] theorem decSrc_gives {n : Nat} [NeZero n] (hn : n ≤ 128) {c : BitVec 9} {a : Src n} :
    (decSrc n c).gives a ↔ c = a.enc := by
  cases a with
  | reg i | latch i | nbr i | stream i =>
    rw [Src.enc, eq_opnd_iff (by decide) (by omega), decSrc]
    rcases kindOf_cases c with h | h | h | h <;> simp [h, -Fin.ofNat_eq_cast, ofNat_gives]

@[simp] theorem decDst_gives {n : Nat} [NeZero n] (hn : n ≤ 128) {c : BitVec 9} {a : Dst n} :
    (decDst n c).gives a ↔ c = a.enc := by
  cases a with
  | reg i | stream i | latch | null =>
    rw [Dst.enc, eq_opnd_iff (by decide) (by omega), decDst]
    rcases kindOf_cases c with h | h | h | h <;> simp [h, -Fin.ofNat_eq_cast, ofNat_gives]

@[simp] theorem decReg_gives {n : Nat} [NeZero n] (hn : n ≤ 128) {c : BitVec 9} {i : Fin n} :
    (decReg n c).gives i ↔ c = opnd 0 i.val := by
  rw [eq_opnd_iff (by decide) (by omega), decReg]
  simp [-Fin.ofNat_eq_cast, ofNat_gives]

@[simp] theorem decS_gives {n : Nat} [NeZero n] (hn : n ≤ 128) {c : BitVec 9} {a : Src n} :
    (decS n c).gives a ↔ c = a.enc ∧ a.noStream = true := by
  rw [decS, gives_illIf_val fun a : Src n => !a.noStream, decSrc_gives hn, Bool.not_eq_false']

@[simp] theorem decD_gives {n : Nat} [NeZero n] (hn : n ≤ 128) {c : BitVec 9} {a : Dst n} :
    (decD n c).gives a ↔ c = a.enc ∧ a.noStream = true := by
  rw [decD, gives_illIf_val fun a : Dst n => !a.noStream, decDst_gives hn, Bool.not_eq_false']

@[simp] theorem decSC_gives {c : BitVec 9} {a : Src 64} : (decSC c).gives a ↔ c = a.enc ∧ a.control = true := by
  rw [decSC, gives_illIf_val fun a : Src 64 => !a.control, decSrc_gives (by decide), Bool.not_eq_false']

@[simp] theorem decDL_gives {c : BitVec 9} {a : Dst 64} : (decDL c).gives a ↔ c = a.enc ∧ a.link = true := by
  rw [decDL, gives_illIf_val fun a : Dst 64 => !a.link, decDst_gives (by decide), Bool.not_eq_false']

/-- A field as wide as the number of the things it names. -/
theorem toFin_eq_iff {n : Nat} {c : BitVec n} {k : Fin (2 ^ n)} : c.toFin = k ↔ c = BitVec.ofNat n k.val := by
  constructor
  · rintro rfl
    simp
  · rintro rfl
    ext
    simp

theorem fin8_eq_iff {c : BitVec 3} {k : Fin 8} : fin8 c = k ↔ c = e3 k := toFin_eq_iff
theorem fin16_eq_iff {c : BitVec 4} {k : Fin 16} : fin16 c = k ↔ c = e4 k := toFin_eq_iff

theorem eq_ofBool_iff {n k : Nat} {x : BitVec n} {b : Bool} : x.extractLsb' k 1 = BitVec.ofBool b ↔ x.getLsbD k = b := by
  have hbit : x.extractLsb' k 1 = BitVec.ofBool (x.getLsbD k) := by
    ext i hi
    obtain rfl : i = 0 := by omega
    simp
  rw [hbit]
  cases b <;> cases x.getLsbD k <;> decide

@[simp] theorem gW_gives {w : SlotWord} {g : Guard} : (gW w).gives g ↔ fGrd w = g.enc := by
  obtain ⟨neg, p⟩ := g
  rw [gW, gives_pure, decGuard, Guard.enc, eq_append_iff (n := 1) (m := 4), Guard.mk.injEq, eq_ofBool_iff]
  refine and_congr_right fun _ => ?_
  rw [← toFin_eq_iff (n := 4), Fin.ext_iff, Fin.ext_iff, Fin.val_ofNat, Nat.mod_eq_of_lt (BitVec.isLt _)]
  rfl

/-! ## Types and modes (R107, R113, R114, R132, R276) -/

@[simp] theorem decITy_gives {c : BitVec 3} {t : ITy} : (decITy c).gives t ↔ c = t.enc := by
  revert c
  cases t <;> unfold Fld.gives <;> decide
@[simp] theorem decFTy_gives {c : BitVec 3} {t : FTy} : (decFTy c).gives t ↔ c = t.enc := by
  revert c
  cases t <;> unfold Fld.gives <;> decide
@[simp] theorem decXTy_gives {c : BitVec 4} {t : XTy} : (decXTy c).gives t ↔ c = t.enc := by
  revert c
  cases t <;> unfold Fld.gives <;> decide
@[simp] theorem decXFTy_gives {c : BitVec 4} {t : FTy} : (decXFTy c).gives t ↔ c = t.toXTy.enc := by
  revert c
  cases t <;> unfold Fld.gives <;> decide
@[simp] theorem decXITy_gives {c : BitVec 4} {t : ITy} : (decXITy c).gives t ↔ c = t.toXTy.enc := by
  revert c
  cases t <;> unfold Fld.gives <;> decide
@[simp] theorem decMXF_gives {c : BitVec 2} {t : MXF} : (decMXF c).gives t ↔ c = t.enc := by
  revert c
  cases t <;> unfold Fld.gives <;> decide
@[simp] theorem decRnd3_gives {c : BitVec 3} {t : Rnd} : (decRnd3 c).gives t ↔ c = t.enc3 := by
  revert c
  cases t <;> unfold Fld.gives <;> decide
@[simp] theorem decXSz_gives {c : BitVec 5} {t : XSz} : (decXSz c).gives t ↔ c = t.enc := by
  revert c
  cases t <;> unfold Fld.gives <;> decide
theorem decRnd2_eq_iff {c : BitVec 2} {t : Rnd} : decRnd2 c = t ↔ c = t.enc2 ∧ t.two = true := by
  revert c
  cases t <;> decide
theorem decCC_eq_some {m : Nat} {t : CC} : decCC m = some t ↔ m = t.enc.toNat := by
  unfold decCC
  cases t <;> split <;> simp_all [CC.enc]

theorem decFCC_eq_some {m : Nat} {t : FCC} : decFCC m = some t ↔ m = t.enc.toNat := by
  unfold decFCC
  cases t <;> split <;> simp_all [FCC.enc]
theorem decRed_eq_some {m : Nat} {t : RedOp} : decRed m = some t ↔ m = t.enc.toNat := by
  unfold decRed
  cases t <;> split <;> simp_all [RedOp.enc]
theorem decESz_eq_some {m : Nat} {t : ESz} : decESz m = some t ↔ m = t.enc.toNat := by
  unfold decESz
  cases t <;> split <;> simp_all [ESz.enc]
theorem decAOp_eq_some {m : Nat} {t : AOp} : decAOp m = some t ↔ m = t.enc.toNat := by
  unfold decAOp
  cases t <;> split <;> simp_all [AOp.enc]

/-! ## Fields that must be zero (checks 8 and 9 of R117) -/

section Zero
variable {α : Type} {w : SlotWord} {f : Fld α} {a : α}

@[simp] theorem noGuard_gives : (noGuard w f).gives a ↔ f.gives a ∧ fGrd w = 0 := by
  rw [noGuard, gives_resIf, bne_eq_false_iff_eq]
@[simp] theorem mod0_gives : (mod0 w f).gives a ↔ f.gives a ∧ fMod w = 0 := by rw [mod0, gives_illIf, bne_eq_false_iff_eq]
@[simp] theorem dst0_gives : (dst0 w f).gives a ↔ f.gives a ∧ fDst w = 0 := by rw [dst0, gives_resIf, bne_eq_false_iff_eq]
@[simp] theorem a0_gives : (a0 w f).gives a ↔ f.gives a ∧ fA w = 0 := by rw [a0, gives_resIf, bne_eq_false_iff_eq]
@[simp] theorem b0_gives : (b0 w f).gives a ↔ f.gives a ∧ fB w = 0 := by rw [b0, gives_resIf, bne_eq_false_iff_eq]
@[simp] theorem c0_gives : (c0 w f).gives a ↔ f.gives a ∧ fC w = 0 := by rw [c0, gives_resIf, bne_eq_false_iff_eq]
@[simp] theorem tok0_gives : (tok0 w f).gives a ↔ f.gives a ∧ fTok w = 0 := by rw [tok0, gives_resIf, bne_eq_false_iff_eq]
@[simp] theorem lease0_gives : (lease0 w f).gives a ↔ f.gives a ∧ fLease w = 0 := by
  rw [lease0, gives_resIf, bne_eq_false_iff_eq]
@[simp] theorem buf0_gives : (buf0 w f).gives a ↔ f.gives a ∧ fBuf w = 0 := by rw [buf0, gives_resIf, bne_eq_false_iff_eq]
@[simp] theorem bank0_gives : (bank0 w f).gives a ↔ f.gives a ∧ fBank w = 0 := by rw [bank0, gives_resIf,
    bne_eq_false_iff_eq]
@[simp] theorem xa0_gives : (xa0 w f).gives a ↔ f.gives a ∧ fXA w = 0 := by rw [xa0, gives_resIf, bne_eq_false_iff_eq]
@[simp] theorem xb0_gives : (xb0 w f).gives a ↔ f.gives a ∧ fXB w = 0 := by rw [xb0, gives_resIf, bne_eq_false_iff_eq]
@[simp] theorem xd0_gives : (xd0 w f).gives a ↔ f.gives a ∧ fXD w = 0 := by rw [xd0, gives_resIf, bne_eq_false_iff_eq]

end Zero

/-! ## Shapes -/

theorem toFin2_eq_iff {c : BitVec 2} {k : Fin 4} : @Eq (Fin 4) c.toFin k ↔ c = e2 k := toFin_eq_iff
theorem toFin6_eq_iff {c : BitVec 6} {k : Fin 64} : @Eq (Fin 64) c.toFin k ↔ c = BitVec.ofNat 6 k.val := toFin_eq_iff

theorem bit_eq_zero_iff {n k : Nat} {x : BitVec n} : x.extractLsb' k 1 = 0#1 ↔ x.getLsbD k = false := eq_ofBool_iff
    (b := false)
theorem bit_eq_one_iff {n k : Nat} {x : BitVec n} : x.extractLsb' k 1 = 1#1 ↔ x.getLsbD k = true := eq_ofBool_iff (b
    := true)

section Shapes
variable {w : SlotWord}

@[simp] theorem dS1x_gives {x : S1} : (dS1x w).gives x ↔ x.ok = true ∧ fGrd w = x.g.enc ∧ fDst w = x.d.enc ∧
    fA w = x.a.enc := by
  obtain ⟨g, d, a⟩ := x
  simp [dS1x, S1.ok, and_assoc, and_comm, and_left_comm]
@[simp] theorem dS2x_gives {x : S2} : (dS2x w).gives x ↔ x.ok = true ∧ fGrd w = x.g.enc ∧ fDst w = x.d.enc ∧
    fA w = x.a.enc ∧ fB w = x.b.enc := by
  obtain ⟨g, d, a, b⟩ := x
  simp [dS2x, S2.ok, and_assoc, and_comm, and_left_comm]
@[simp] theorem dS1_gives {x : S1} : (dS1 w).gives x ↔ x.ok = true ∧ fGrd w = x.g.enc ∧ fDst w = x.d.enc ∧ fA w =
    x.a.enc ∧
    fB w = 0 ∧ fC w = 0 ∧ fMod w = 0 := by
  simp [dS1, and_assoc, and_comm, and_left_comm]
@[simp] theorem dS2_gives {x : S2} : (dS2 w).gives x ↔ x.ok = true ∧ fGrd w = x.g.enc ∧ fDst w = x.d.enc ∧ fA w =
    x.a.enc ∧
    fB w = x.b.enc ∧ fC w = 0 ∧ fMod w = 0 := by
  simp [dS2, and_assoc]
@[simp] theorem dS3_gives {x : S3} : (dS3 w).gives x ↔ x.ok = true ∧ fGrd w = x.g.enc ∧ fDst w = x.d.enc ∧ fA w =
    x.a.enc ∧
    fB w = x.b.enc ∧ fC w = x.c.enc ∧ fMod w = 0 := by
  obtain ⟨g, d, a, b, c⟩ := x
  simp [dS3, S3.ok, and_assoc, and_comm, and_left_comm]
@[simp] theorem dP1_gives {x : P1} : (dP1 w).gives x ↔ x.ok = true ∧ fGrd w = x.g.enc ∧ fDst w = x.d.enc ∧ fA w =
    x.a.enc ∧
    fB w = 0 ∧ fC w = 0 ∧ fMod w = 0 := by
  obtain ⟨g, d, a⟩ := x
  simp [dP1, P1.ok, and_assoc, and_comm, and_left_comm]
@[simp] theorem dP2_gives {x : P2} : (dP2 w).gives x ↔ x.ok = true ∧ fGrd w = x.g.enc ∧ fDst w = x.d.enc ∧ fA w =
    x.a.enc ∧
    fB w = x.b.enc ∧ fC w = 0 ∧ fMod w = 0 := by
  obtain ⟨g, d, a, b⟩ := x
  simp [dP2, P2.ok, and_assoc, and_comm, and_left_comm]

/-- `TY` and `RM` of a vector operation's `MOD` (R114). -/
theorem fMod_eq_iff {t : BitVec 3} {r : BitVec 2} : fMod w = t ++ r ↔ tyF w = t ∧ rmF w = r := eq_append_iff (n := 3)
    (m := 2)

@[simp] theorem dITy_gives {t : ITy} : (dITy w).gives t ↔ fMod w = t.enc ++ 0#2 := by
  rw [dITy, gives_illIf, bne_eq_false_iff_eq, decITy_gives, fMod_eq_iff]
  rfl
@[simp] theorem dRm_gives {r : Rnd} : (dRm w).gives r ↔ rmF w = r.enc2 ∧ r.two = true := by
  rw [dRm, gives_pure, decRnd2_eq_iff]
@[simp] theorem dRm0_gives {r : Rnd} : (dRm0 w).gives r ↔ rmF w = r.enc2 ∧ (r == .rne) = true := by
  rw [dRm0, gives_illIf, gives_pure, bne_eq_false_iff_eq, beq_iff_eq, and_comm, eq_comm (a := Rnd.rne)]
  exact and_congr_left fun h => by rw [h]; rfl

@[simp] theorem dV1_gives {x : V1} : (dV1 w).gives x ↔ fGrd w = x.g.enc ∧ fDst w = x.d.enc ∧ fA w = x.a.enc ∧
    fB w = 0 ∧ fC w = 0 ∧ fMod w = x.ty.enc ++ 0#2 := by
  obtain ⟨g, t, d, a⟩ := x
  simp [dV1, and_assoc, and_comm, and_left_comm]
@[simp] theorem dV1s_gives {x : V1} : (dV1s w).gives x ↔ x.ty.signed = true ∧ fGrd w = x.g.enc ∧ fDst w = x.d.enc ∧
    fA w = x.a.enc ∧ fB w = 0 ∧ fC w = 0 ∧ fMod w = x.ty.enc ++ 0#2 := by
  rw [dV1s, gives_illIf_val fun x : V1 => !x.ty.signed, dV1_gives, and_comm, Bool.not_eq_false']
@[simp] theorem dV2x_gives {x : V2} : (dV2x w).gives x ↔ fGrd w = x.g.enc ∧ fDst w = x.d.enc ∧ fA w = x.a.enc ∧
    fB w = x.b.enc ∧ fMod w = x.ty.enc ++ 0#2 := by
  obtain ⟨g, t, d, a, b⟩ := x
  simp [dV2x, and_comm, and_left_comm]
@[simp] theorem dV2_gives {x : V2} : (dV2 w).gives x ↔ fGrd w = x.g.enc ∧ fDst w = x.d.enc ∧ fA w = x.a.enc ∧
    fB w = x.b.enc ∧ fC w = 0 ∧ fMod w = x.ty.enc ++ 0#2 := by
  simp [dV2, and_assoc, and_comm, and_left_comm]
@[simp] theorem dV2s_gives {x : V2} : (dV2s w).gives x ↔ x.ty.signed = true ∧ fGrd w = x.g.enc ∧ fDst w = x.d.enc ∧
    fA w = x.a.enc ∧ fB w = x.b.enc ∧ fC w = 0 ∧ fMod w = x.ty.enc ++ 0#2 := by
  rw [dV2s, gives_illIf_val fun x : V2 => !x.ty.signed, dV2_gives, and_comm, Bool.not_eq_false']
@[simp] theorem dV3_gives {x : V3} : (dV3 w).gives x ↔ fGrd w = x.g.enc ∧ fDst w = x.d.enc ∧ fA w = x.a.enc ∧
    fB w = x.b.enc ∧ fC w = x.c.enc ∧ fMod w = x.ty.enc ++ 0#2 := by
  obtain ⟨g, t, d, a, b, c⟩ := x
  simp [dV3, and_comm, and_left_comm]
@[simp] theorem dVS_gives {x : VS} : (dVS w).gives x ↔ x.a.noStream = true ∧ fGrd w = x.g.enc ∧ fDst w = x.d.enc ∧
    fA w = x.a.enc ∧ fB w = 0 ∧ fC w = 0 ∧ fMod w = x.ty.enc ++ 0#2 := by
  obtain ⟨g, t, d, a⟩ := x
  simp [dVS, and_assoc, and_comm, and_left_comm]

@[simp] theorem dF1_gives {rm : Fld Rnd} {x : F1} : (dF1 w rm).gives x ↔ rm.gives x.rm ∧ fGrd w = x.g.enc ∧ fDst w =
    x.d.enc ∧
    fA w = x.a.enc ∧ fB w = 0 ∧ fC w = 0 ∧ tyF w = x.ty.enc := by
  obtain ⟨g, t, r, d, a⟩ := x
  simp [dF1, and_assoc, and_comm, and_left_comm]
@[simp] theorem dF2_gives {rm : Fld Rnd} {x : F2} : (dF2 w rm).gives x ↔ rm.gives x.rm ∧ fGrd w = x.g.enc ∧ fDst w =
    x.d.enc ∧
    fA w = x.a.enc ∧ fB w = x.b.enc ∧ fC w = 0 ∧ tyF w = x.ty.enc := by
  obtain ⟨g, t, r, d, a, b⟩ := x
  simp [dF2, and_assoc, and_comm, and_left_comm]
@[simp] theorem dF3_gives {x : F3} : (dF3 w).gives x ↔ x.rm.two = true ∧ fGrd w = x.g.enc ∧ fDst w = x.d.enc ∧ fA w =
    x.a.enc ∧
    fB w = x.b.enc ∧ fC w = x.c.enc ∧ fMod w = x.ty.enc ++ x.rm.enc2 := by
  obtain ⟨g, t, r, d, a, b, c⟩ := x
  simp [dF3, fMod_eq_iff, and_assoc, and_comm, and_left_comm]

@[simp] theorem dM_gives {m : MAddr} : (dM w).gives m ↔ fBase w = m.enc ∧ fOff w = m.off := by
  obtain ⟨b, f⟩ := m
  rw [dM, gives_pure, MAddr.mk.injEq, toFin6_eq_iff]
  rfl
@[simp] theorem tokW_gives {k : Fin 8} : (tokW w).gives k ↔ fTok w = e3 k := by rw [tokW, gives_pure, fin8_eq_iff]
@[simp] theorem bufW_gives {k : Fin 16} : (bufW w).gives k ↔ fBuf w = e4 k := by rw [bufW, gives_pure, fin16_eq_iff]
@[simp] theorem bankW_gives {k : Fin 4} : (bankW w).gives k ↔ fBank w = e2 k := by rw [bankW, gives_pure, toFin2_eq_iff]
@[simp] theorem dEC_gives {x : EC} : (dEC w).gives x ↔ fGrd w = x.g.enc ∧ fDst w = 0 ∧ fBase w = x.m.enc ∧
    fOff w = x.m.off ∧ fTok w = e3 x.tok ∧ fLease w = 0 ∧ fBuf w = 0 := by
  obtain ⟨g, m, t⟩ := x
  simp [dEC, and_assoc, and_comm, and_left_comm]
@[simp] theorem dRL_gives {x : RL} : (dRL w).gives x ↔ x.a.noStream = true ∧ fGrd w = x.g.enc ∧ fDst w = x.a.enc ∧
    fBase w = x.m.enc ∧ fOff w = x.m.off ∧ fTok w = e3 x.tok ∧ fLease w = 0 ∧ fBuf w = 0 := by
  obtain ⟨g, a, m, t⟩ := x
  simp [dRL, and_assoc, and_comm, and_left_comm]
@[simp] theorem dCW_gives {x : CW} : (dCW w).gives x ↔ fGrd w = x.g.enc ∧ fDst w = opnd 0 x.r.val ∧
    fBase w = x.m.enc ∧ fOff w = x.m.off ∧ fTok w = e3 x.tok ∧ fLease w = 0 ∧ fBuf w = 0 := by
  obtain ⟨g, r, m, t⟩ := x
  simp [dCW, and_assoc, and_comm, and_left_comm]
@[simp] theorem dAT_gives {op : AOp} {z : ASz} {g : Guard} {r : Fin 64} {m : MAddr} {t : Fin 8} :
    (dAT op z w).gives ⟨g, z, r, m, t⟩ ↔ (op != .cas || r.val % 2 == 0) = true ∧ fGrd w = g.enc ∧
      fDst w = opnd 0 r.val ∧ fBase w = m.enc ∧ fOff w = m.off ∧ fTok w = e3 t ∧ fLease w = 0 ∧ fBuf w = 0 := by
  have hodd : ∀ a b : Bool, (a && !b) = false ↔ (!a || b) = true := by decide
  rw [dAT, gives_illIf_val fun x : AT => op == .cas && x.r.val % 2 != 0, lease0_gives, buf0_gives,
    ap4_gives (k := (AT.mk · z)) (by simp), gW_gives, decReg_gives (by decide), dM_gives, tokW_gives]
  exact ⟨fun ⟨⟨⟨⟨hg, hr, ⟨hb, ho⟩, ht⟩, hu⟩, hl⟩, hc⟩ => ⟨(hodd _ _).1 hc, hg, hr, hb, ho, ht, hl, hu⟩,
    fun ⟨hc, hg, hr, hb, ho, ht, hl, hu⟩ => ⟨⟨⟨⟨hg, hr, ⟨hb, ho⟩, ht⟩, hu⟩, hl⟩, (hodd _ _).2 hc⟩⟩

end Shapes

/-! ## Rows of the opcode map -/

/-- The minor of a word's opcode (R105). -/
def opcMinor (w : SlotWord) : Nat := ((fOpc w).extractLsb' 0 4).toNat

/-- The opcode map by major and minor (R105 to R115): what `decodeOp` makes of a word with this opcode. -/
def decMajor (major m : Nat) (w : SlotWord) : Option (Fld Instr) :=
  match major with
  | 0x00 => dec00 m w
  | 0x01 => dec01 m w
  | 0x02 => dec02 m w
  | 0x03 => dec03 m w
  | 0x04 => dec04 m w
  | 0x05 => dec05 m w
  | 0x08 => dec08 m w
  | 0x09 => dec09 m w
  | 0x0A => dec0A m w
  | 0x0B => dec0B m w
  | 0x0C => dec0C m w
  | 0x0D => dec0D m w
  | 0x0E => dec0E m w
  | 0x0F => dec0F m w
  | 0x18 => dec18 m w
  | 0x19 => dec19 m w
  | 0x1A => dec1A m w
  | 0x1B => dec1B m w
  | 0x1C => dec1C m w
  | 0x1D => dec1D m w
  | 0x1E => dec1E m w
  | 0x1F => dec1F m w
  | 0x20 => dec20 m w
  | 0x21 => dec21 m w
  | 0x22 => decAtom .w false m w
  | 0x23 => decAtom .d false m w
  | 0x24 => decAtom .w true m w
  | 0x25 => decAtom .d true m w
  | 0x26 => dec26 m w
  | 0x27 => dec27 m w
  | 0x28 => dec28 m w
  | 0x29 => dec29 m w
  | 0x2A => dec2A m w
  | 0x2B => dec2B m w
  | 0x2C => dec2C m w
  | 0x2D => dec2D m w
  | 0x2E => dec2E m w
  | 0x2F => dec2F m w
  | 0x30 => dec30 m w
  | 0x31 => dec31 m w
  | 0x32 => dec32 m w
  | 0x3C => dec3C m w
  | _ => none

theorem fOpc_eq_iff {w : SlotWord} {M m : Nat} (hM : M < 64) (hm : m < 16) :
    fOpc w = opcode M m ↔ opcMajor w = M ∧ opcMinor w = m := by
  rw [opcode, eq_append_iff (n := 6) (m := 4), ← BitVec.toNat_inj, ← BitVec.toNat_inj, BitVec.toNat_ofNat,
    BitVec.toNat_ofNat, Nat.mod_eq_of_lt hM, Nat.mod_eq_of_lt hm]
  rfl

theorem decodeOp_eq (w : SlotWord) : decodeOp w = decMajor (opcMajor w) (opcMinor w) w := rfl

open Machine

/-- The class of a major (R60, R105 to R115). -/
def classOf (major : Nat) : Family :=
  if major ≤ 0x07 then .control else if major ≤ 0x17 then .scalar else if major ≤ 0x27 then .memory
  else if major ≤ 0x3B then .vector else .matrix

/-- The word is the encoding of `i`, a well-formed instruction of the class of the word's major. -/
def isEncoding (w : SlotWord) (i : Instr) : Prop :=
  i.wellFormed = true ∧ encode i = some w ∧ family i = classOf (opcMajor w)

/-- The decoder knows the word, and its fields pass their checks as those of `i`. -/
def reads (w : SlotWord) (i : Instr) : Prop := accepts (decodeOp w) i

/-- The word has major `M` and minor `m`. -/
def atOpcode (M m : Nat) (w : SlotWord) : Prop := opcMajor w = M ∧ opcMinor w = m

/-- The words of an opcode that `sel` selects. -/
def words (M m : Nat) (sel : SlotWord → Prop := fun _ => True) (w : SlotWord) : Prop := atOpcode M m w ∧ sel w

theorem reads_iff {M m : Nat} {w : SlotWord} (h : atOpcode M m w) {i : Instr} : reads w i ↔ accepts (decMajor M m w)
    i := by
  rw [reads, decodeOp_eq, h.1, h.2]

/-- Rows of the opcode map: the words that `sel` selects read as nothing but the instructions `f x` whose encodings they
are, and the encoding of each `f x` reads as it. -/
structure Row {α : Type} (sel : SlotWord → Prop) (f : α → Instr) : Prop where
  sound : ∀ w i, sel w → reads w i → isEncoding w i
  complete : ∀ w x, (f x).wellFormed = true → encode (f x) = some w → reads w (f x) ∧ isEncoding w (f x)

/-- A row, from what its words read as and what they encode. -/
theorem Row.of_reads {α : Type} {M : Nat} {sel : SlotWord → Prop} {f : α → Instr}
    (hsel : ∀ w, sel w → opcMajor w = M)
    (hfam : ∀ x, family (f x) = classOf M)
    (hval : ∀ w i, sel w → reads w i → ∃ x, f x = i)
    (hreads : ∀ w x, sel w ∧ reads w (f x) ↔ (f x).wellFormed = true ∧ encode (f x) = some w) : Row sel f := by
  constructor
  · intro w i hs hr
    obtain ⟨x, rfl⟩ := hval w i hs hr
    obtain ⟨hwf, he⟩ := (hreads w x).1 ⟨hs, hr⟩
    exact ⟨hwf, he, hsel w hs ▸ hfam x⟩
  · intro w x hwf he
    obtain ⟨hs, hr⟩ := (hreads w x).2 ⟨hwf, he⟩
    exact ⟨hr, hwf, he, hsel w hs ▸ hfam x⟩

/-- A row of one opcode `o`, whose decoder is `D` where `sel` selects, and whose layout has the fields `P`. -/
theorem Row.of_fields {α : Type} {M m : Nat} {sel : SlotWord → Prop} {f : α → Instr} {D : SlotWord → Fld Instr}
    {E : α → SlotWord} {P : α → SlotWord → Prop} {o : BitVec 10} {ok : α → Bool}
    (ho : M < 64 ∧ m < 16 ∧ o = opcode M m)
    (hE : ∀ x w, E x = w ↔ fOpc w = o ∧ P x w)
    (hfam : ∀ x, family (f x) = classOf M)
    (hwf : ∀ x, (f x).wellFormed = ok x)
    (hdec : ∀ w, sel w → decMajor M m w = some (D w))
    (henc : ∀ x, encode (f x) = some (E x))
    (hval : ∀ w, ∃ x, f x = (D w).val)
    (hgives : ∀ w x, sel w ∧ (D w).gives (f x) ↔ ok x = true ∧ P x w) :
    Row (words M m sel) f := by
  obtain ⟨hM, hm, rfl⟩ := ho
  have hread {w : SlotWord} (h : words M m sel w) (i : Instr) : reads w i ↔ (D w).gives i := by
    rw [reads_iff h.1, hdec w h.2, accepts_some]
  refine .of_reads (fun w h => h.1.1) hfam (fun w i hs hr => ?_) fun w x => ?_
  · obtain ⟨x, hx⟩ := hval w
    exact ⟨x, hx.trans ((hread hs i).1 hr).val_eq⟩
  · rw [henc, Option.some_inj, hE, fOpc_eq_iff hM hm, and_left_comm, hwf, ← hgives]
    constructor
    · rintro ⟨hs, hr⟩
      exact ⟨hs.1, hs.2, (hread hs _).1 hr⟩
    · rintro ⟨ho, hs, hg⟩
      exact ⟨⟨ho, hs⟩, (hread ⟨ho, hs⟩ _).2 hg⟩

section Forms
variable {α : Type} {M m : Nat} {sel : SlotWord → Prop} {f : α → Instr} {D : SlotWord → Fld Instr} {o : BitVec 10}
  {g : α → BitVec 5}

theorem Row.formA {d a b c : α → BitVec 9} {md : α → BitVec 5} (ok : α → Bool)
    (ho : M < 64 ∧ m < 16 ∧ o = opcode M m) (hfam : ∀ x, family (f x) = classOf M) (hwf : ∀ x, (f x).wellFormed = ok x)
    (hdec : ∀ w, sel w → decMajor M m w = some (D w))
    (henc : ∀ x, encode (f x) = some (Sys2Proof.formA o (g x) (d x) (a x) (b x) (c x) (md x)))
    (hval : ∀ w, ∃ x, f x = (D w).val)
    (hgives : ∀ w x, sel w ∧ (D w).gives (f x) ↔ ok x = true ∧ fGrd w = g x ∧ fDst w = d x ∧ fA w = a x ∧
      fB w = b x ∧ fC w = c x ∧ fMod w = md x) :
    Row (words M m sel) f :=
  .of_fields ho (E := fun x => Sys2Proof.formA o (g x) (d x) (a x) (b x) (c x) (md x)) (fun _ _ => formA_eq_iff) hfam
      hwf hdec henc
    hval hgives

theorem Row.formI {d a : α → BitVec 9} {imm : α → BitVec 23} (ok : α → Bool)
    (ho : M < 64 ∧ m < 16 ∧ o = opcode M m) (hfam : ∀ x, family (f x) = classOf M) (hwf : ∀ x, (f x).wellFormed = ok x)
    (hdec : ∀ w, sel w → decMajor M m w = some (D w))
    (henc : ∀ x, encode (f x) = some (Sys2Proof.formI o (g x) (d x) (a x) (imm x)))
    (hval : ∀ w, ∃ x, f x = (D w).val)
    (hgives : ∀ w x, sel w ∧ (D w).gives (f x) ↔ ok x = true ∧ fGrd w = g x ∧ fDst w = d x ∧ fA w = a x ∧
      fImm23 w = imm x) :
    Row (words M m sel) f :=
  .of_fields ho (E := fun x => Sys2Proof.formI o (g x) (d x) (a x) (imm x)) (fun _ _ => formI_eq_iff) hfam hwf hdec henc
    hval hgives

theorem Row.formL {d : α → BitVec 9} {imm : α → BitVec 32} (ok : α → Bool)
    (ho : M < 64 ∧ m < 16 ∧ o = opcode M m) (hfam : ∀ x, family (f x) = classOf M) (hwf : ∀ x, (f x).wellFormed = ok x)
    (hdec : ∀ w, sel w → decMajor M m w = some (D w))
    (henc : ∀ x, encode (f x) = some (Sys2Proof.formL o (g x) (d x) (imm x)))
    (hval : ∀ w, ∃ x, f x = (D w).val)
    (hgives : ∀ w x, sel w ∧ (D w).gives (f x) ↔ ok x = true ∧ fGrd w = g x ∧ fDst w = d x ∧ fImm32 w = imm x) :
    Row (words M m sel) f :=
  .of_fields ho (E := fun x => Sys2Proof.formL o (g x) (d x) (imm x)) (fun _ _ => formL_eq_iff) hfam hwf hdec henc
    hval hgives

theorem Row.formM {d : α → BitVec 9} {base : α → BitVec 6} {off : α → BitVec 16} {tok lease : α → BitVec 3}
    {buf : α → BitVec 4} (ok : α → Bool)
    (ho : M < 64 ∧ m < 16 ∧ o = opcode M m) (hfam : ∀ x, family (f x) = classOf M) (hwf : ∀ x, (f x).wellFormed = ok x)
    (hdec : ∀ w, sel w → decMajor M m w = some (D w))
    (henc : ∀ x, encode (f x) = some (Sys2Proof.formM o (g x) (d x) (base x) (off x) (tok x) (lease x) (buf x)))
    (hval : ∀ w, ∃ x, f x = (D w).val)
    (hgives : ∀ w x, sel w ∧ (D w).gives (f x) ↔ ok x = true ∧ fGrd w = g x ∧ fDst w = d x ∧
      fBase w = base x ∧ fOff w = off x ∧ fTok w = tok x ∧ fLease w = lease x ∧ fBuf w = buf x) :
    Row (words M m sel) f :=
  .of_fields ho (E := fun x => Sys2Proof.formM o (g x) (d x) (base x) (off x) (tok x) (lease x) (buf x)) (fun _ _ =>
      formM_eq_iff) hfam hwf hdec henc
    hval hgives

theorem Row.formX {bank : α → BitVec 2} {a b d : α → BitVec 9} {md : α → BitVec 12} (ok : α → Bool)
    (ho : M < 64 ∧ m < 16 ∧ o = opcode M m) (hfam : ∀ x, family (f x) = classOf M) (hwf : ∀ x, (f x).wellFormed = ok x)
    (hdec : ∀ w, sel w → decMajor M m w = some (D w))
    (henc : ∀ x, encode (f x) = some (Sys2Proof.formX o (g x) (bank x) (a x) (b x) (d x) (md x)))
    (hval : ∀ w, ∃ x, f x = (D w).val)
    (hgives : ∀ w x, sel w ∧ (D w).gives (f x) ↔ ok x = true ∧ fGrd w = g x ∧ fBank w = bank x ∧
      fXA w = a x ∧ fXB w = b x ∧ fXD w = d x ∧ fXMod w = md x) :
    Row (words M m sel) f :=
  .of_fields ho (E := fun x => Sys2Proof.formX o (g x) (bank x) (a x) (b x) (d x) (md x)) (fun _ _ => formX_eq_iff)
      hfam hwf hdec henc
    hval hgives

end Forms

/-! ## Shapes with one layout -/

/-- The decoder `d` of a shape reads its fields from exactly the words that the layout `enc` writes for an opcode. -/
def Shape {α : Type} (d : SlotWord → Fld α) (enc : BitVec 10 → α → SlotWord) (ok : α → Bool) : Prop :=
  ∀ o w x, fOpc w = o ∧ (d w).gives x ↔ ok x = true ∧ enc o x = w

theorem shapeS1 : Shape dS1 (encS1 · · 0) S1.ok := fun o w x => by
  simp only [dS1_gives, encS1, formA_eq_iff, and_left_comm (a := fOpc w = o)]
theorem shapeS2 : Shape dS2 (encS2 · · 0 0) S2.ok := fun o w x => by
  simp only [dS2_gives, encS2, formA_eq_iff, and_left_comm (a := fOpc w = o)]
theorem shapeS3 : Shape dS3 (fun o x => formA o x.g.enc x.d.enc x.a.enc x.b.enc x.c.enc 0) S3.ok := fun o w x => by
  rw [dS3_gives, formA_eq_iff, and_left_comm]
theorem shapeP1 : Shape dP1 (fun o x => formA o x.g.enc x.d.enc x.a.enc 0 0 0) P1.ok := fun o w x => by
  rw [dP1_gives, formA_eq_iff, and_left_comm]
theorem shapeP2 : Shape dP2 encP2 P2.ok := fun o w x => by
  rw [dP2_gives, encP2, formA_eq_iff, and_left_comm]
theorem shapeV1s : Shape dV1s encV1 (·.ty.signed) := fun o w x => by
  rw [dV1s_gives, encV1, formA_eq_iff, and_left_comm]
theorem shapeV2 : Shape dV2 (encV2 · · 0) fun _ => true := fun o w x => by
  simp only [dV2_gives, encV2, formA_eq_iff, true_and]
theorem shapeV2s : Shape dV2s (encV2 · · 0) (·.ty.signed) := fun o w x => by
  simp only [dV2s_gives, encV2, formA_eq_iff, and_left_comm (a := fOpc w = o)]
theorem shapeV3 : Shape dV3 (fun o x => formA o x.g.enc x.d.enc x.a.enc x.b.enc x.c.enc (x.ty.enc ++ 0#2)) fun _ =>
    true :=
  fun o w x => by rw [dV3_gives, formA_eq_iff, eq_self, true_and]
theorem shapeVS : Shape dVS (fun o x => formA o x.g.enc x.d.enc x.a.enc 0 0 (x.ty.enc ++ 0#2)) (·.a.noStream) :=
  fun o w x => by rw [dVS_gives, formA_eq_iff, and_left_comm]
/-- The rounding field is the mode (`dRm`) or must be zero (`dRm0`). -/
theorem shapeF1 {rm : SlotWord → Fld Rnd} {ok : Rnd → Bool}
    (hrm : ∀ w r, (rm w).gives r ↔ rmF w = r.enc2 ∧ ok r = true) : Shape (fun w => dF1 w (rm w)) encF1 (ok ·.rm) :=
  fun o w x => by
    rw [dF1_gives, hrm, encF1, formA_eq_iff, fMod_eq_iff]
    tauto
theorem shapeF2 {rm : SlotWord → Fld Rnd} {ok : Rnd → Bool}
    (hrm : ∀ w r, (rm w).gives r ↔ rmF w = r.enc2 ∧ ok r = true) : Shape (fun w => dF2 w (rm w)) encF2 (ok ·.rm) :=
  fun o w x => by
    rw [dF2_gives, hrm, encF2, formA_eq_iff, fMod_eq_iff]
    tauto
theorem shapeF3 : Shape dF3 encF3 (·.rm.two) := fun o w x => by
  rw [dF3_gives, encF3, formA_eq_iff, and_left_comm]
theorem shapeEC : Shape dEC (fun o x => formM o x.g.enc 0 x.m.enc x.m.off (e3 x.tok) 0 0) fun _ => true :=
  fun o w x => by rw [dEC_gives, formM_eq_iff, eq_self, true_and]
theorem shapeRL : Shape dRL (fun o x => formM o x.g.enc x.a.enc x.m.enc x.m.off (e3 x.tok) 0 0) (·.a.noStream) :=
  fun o w x => by rw [dRL_gives, formM_eq_iff, and_left_comm]
theorem shapeCW : Shape dCW (fun o x => formM o x.g.enc (opnd 0 x.r.val) x.m.enc x.m.off (e3 x.tok) 0 0) fun _ => true :=
  fun o w x => by rw [dCW_gives, formM_eq_iff, eq_self, true_and]

/-- The row of an instruction `k` of one shape. -/
theorem Row.of_shape {α : Type} {M m : Nat} {k : α → Instr} {d : SlotWord → Fld α} {enc : BitVec 10 → α → SlotWord}
    {ok : α → Bool} (hs : Shape d enc ok) (hop : M < 64 ∧ m < 16)
    (hfam : ∀ x, family (k x) = classOf M)
    (hwf : ∀ x, (k x).wellFormed = ok x)
    (hdec : ∀ w, decMajor M m w = some ((d w).map k))
    (henc : ∀ x, encode (k x) = some (enc (opcode M m) x)) : Row (words M m) k := by
  have hread {w : SlotWord} (h : words M m (fun _ => True) w) (i : Instr) : reads w i ↔ ∃ x, (d w).gives x ∧ k x = i := by
    rw [reads_iff h.1, hdec, accepts_some, map_gives_iff]
  have hword (w : SlotWord) (x : α) : (k x).wellFormed = true ∧ encode (k x) = some w ↔
      words M m (fun _ => True) w ∧ (d w).gives x := by
    rw [henc, Option.some_inj, hwf, ← hs, fOpc_eq_iff hop.1 hop.2, words, and_true]
    rfl
  refine .of_reads (fun w h => h.1.1) hfam (fun w i h hr => ?_) fun w x => ⟨fun ⟨h, hr⟩ => ?_, fun h => ?_⟩
  · obtain ⟨x, -, hx⟩ := (hread h i).1 hr
    exact ⟨x, hx⟩
  · obtain ⟨y, hy, hxy⟩ := (hread h _).1 hr
    exact hxy ▸ (hword w y).2 ⟨h, hy⟩
  · obtain ⟨hw, hx⟩ := (hword w x).1 h
    exact ⟨hw, (hread hw _).2 ⟨x, hx, rfl⟩⟩

end Sys2Proof

namespace Sys2Proof
open Machine
theorem opcodeV_eq {M : Nat} {m : BitVec 4} : opcodeV M m = opcode M m.toNat := by simp [opcode, opcodeV]

/-! ## Control (R106) -/

theorem br_row : Row (words 0x00 0) fun x : Guard × BitVec 32 => .br x.1 x.2 :=
  .formL (fun _ => true) ⟨by decide, by decide, rfl⟩ (fun _ => rfl) (fun _ => rfl) (fun _ _ => rfl) (fun _ => rfl)
      (fun _ => ⟨(_, _), rfl⟩) fun _ _ => by
    simp [and_assoc, and_comm]
theorem call_row : Row (words 0x00 1) fun x : Guard × Dst 64 × BitVec 32 => .call x.1 x.2.1 x.2.2 :=
  .formL (fun x => x.2.1.link) ⟨by decide, by decide, rfl⟩ (fun _ => rfl) (fun _ => rfl) (fun _ _ => rfl) (fun _ =>
      rfl) (fun _ => ⟨(_, _, _), rfl⟩) fun _ _ => by
    simp [and_assoc, and_comm, and_left_comm]
theorem bri_row : Row (words 0x00 2) fun x : Guard × Src 64 => .bri x.1 x.2 :=
  .formA (fun x => x.2.control) ⟨by decide, by decide, rfl⟩ (fun _ => rfl) (fun _ => rfl) (fun _ _ => rfl) (fun _ =>
      rfl) (fun _ => ⟨(_, _), rfl⟩) fun _ _ => by
    simp [and_assoc, and_comm, and_left_comm]
theorem calli_row : Row (words 0x00 3) fun x : Guard × Dst 64 × Src 64 => .calli x.1 x.2.1 x.2.2 :=
  .formA (fun x => x.2.1.link && x.2.2.control) ⟨by decide, by decide, rfl⟩ (fun _ => rfl) (fun _ => rfl) (fun _ _ =>
      rfl) (fun _ => rfl) (fun _ => ⟨(_, _, _), rfl⟩) fun _ _ => by
    simp [and_assoc, and_comm, and_left_comm]
theorem ret_row : Row (words 0x00 4) fun x : Guard × Src 64 => .ret x.1 x.2 :=
  .formA (fun x => x.2.control) ⟨by decide, by decide, rfl⟩ (fun _ => rfl) (fun _ => rfl) (fun _ _ => rfl) (fun _ =>
      rfl) (fun _ => ⟨(_, _), rfl⟩) fun _ _ => by
    simp [and_assoc, and_comm, and_left_comm]

theorem lsetup_row : Row (words 0x01 0) fun x : Fin 4 × Fin 64 × BitVec 32 => .lsetup x.1 x.2.1 x.2.2 :=
  .formL (fun x => 1 ≤ x.2.2.toNat && x.2.2.toNat ≤ 255) ⟨by decide, by decide, rfl⟩ (fun _ => rfl) (fun _ => rfl)
      (fun _ _ => rfl) (fun _ => rfl) (fun _ => ⟨(_, _, _), rfl⟩)
      fun _ _ => by
    simp [eq_append_iff (n := 8) (m := 1), eq_append_iff (n := 2) (m := 6), and_assoc, and_comm, and_left_comm,
        toFin2_eq_iff, toFin6_eq_iff, extractLsb'_extractLsb', bit_eq_zero_iff, -BitVec.toFin_extractLsb']
    grind
theorem loop_row : Row (words 0x01 1) fun x : Fin 4 × BitVec 32 => .loop x.1 x.2 :=
  .formL (fun _ => true) ⟨by decide, by decide, rfl⟩ (fun _ => rfl) (fun _ => rfl) (fun _ _ => rfl) (fun _ => rfl)
      (fun _ => ⟨(_, _), rfl⟩) fun _ _ => by
    simp [eq_append_iff (n := 2) (m := 7), and_assoc, and_comm, and_left_comm, toFin2_eq_iff, -BitVec.toFin_extractLsb']
theorem loopx_row : Row (words 0x01 2) fun x : Fin 4 × BitVec 32 => .loopx x.1 x.2 :=
  .formL (fun _ => true) ⟨by decide, by decide, rfl⟩ (fun _ => rfl) (fun _ => rfl) (fun _ _ => rfl) (fun _ => rfl)
      (fun _ => ⟨(_, _), rfl⟩) fun _ _ => by
    simp [eq_append_iff (n := 2) (m := 7), and_assoc, and_comm, and_left_comm, toFin2_eq_iff, -BitVec.toFin_extractLsb']

theorem ckpt_row : Row (words 0x02 0) Instr.ckpt :=
  .formL (fun _ => true) ⟨by decide, by decide, rfl⟩ (fun _ => rfl) (fun _ => rfl) (fun _ _ => rfl) (fun _ => rfl)
      (fun _ => ⟨_, rfl⟩) fun _ _ => by
    simp [and_comm, and_left_comm]
theorem commit_row : Row (words 0x02 1) fun _ : Unit => .commit :=
  .formA (fun _ => true) ⟨by decide, by decide, rfl⟩ (fun _ => rfl) (fun _ => rfl) (fun _ _ => rfl) (fun _ => rfl)
      (fun _ => ⟨(), rfl⟩) fun _ _ => by
    simp [and_assoc, and_comm, and_left_comm]
theorem check_row : Row (words 0x02 2) Instr.check :=
  .formA (fun _ => true) ⟨by decide, by decide, rfl⟩ (fun _ => rfl) (fun _ => rfl) (fun _ _ => rfl) (fun _ => rfl)
      (fun _ => ⟨_, rfl⟩) fun _ _ => by
    simp [and_assoc, and_comm, and_left_comm]
theorem abort_row : Row (words 0x02 3) Instr.abort :=
  .formA (fun _ => true) ⟨by decide, by decide, rfl⟩ (fun _ => rfl) (fun _ => rfl) (fun _ _ => rfl) (fun _ => rfl)
      (fun _ => ⟨_, rfl⟩) fun _ _ => by
    simp [and_assoc, and_comm, and_left_comm]
theorem gclr_row : Row (words 0x02 4) Instr.gclr :=
  .formA Src.control ⟨by decide, by decide, rfl⟩ (fun _ => rfl) (fun _ => rfl) (fun _ _ => rfl) (fun _ => rfl) (fun _
      => ⟨_, rfl⟩) fun _ _ => by
    simp [and_assoc, and_comm, and_left_comm]

theorem trap_row : Row (words 0x03 0) fun x : Guard × BitVec 23 => .trap x.1 x.2 :=
  .formI (fun _ => true) ⟨by decide, by decide, rfl⟩ (fun _ => rfl) (fun _ => rfl) (fun _ _ => rfl) (fun _ => rfl)
      (fun _ => ⟨(_, _), rfl⟩) fun _ _ => by
    simp [and_assoc, and_comm, and_left_comm]
theorem bkpt_row : Row (words 0x03 1) fun x : Guard × BitVec 23 => .bkpt x.1 x.2 :=
  .formI (fun _ => true) ⟨by decide, by decide, rfl⟩ (fun _ => rfl) (fun _ => rfl) (fun _ _ => rfl) (fun _ => rfl)
      (fun _ => ⟨(_, _), rfl⟩) fun _ _ => by
    simp [and_assoc, and_comm, and_left_comm]
theorem halt_row : Row (words 0x03 2) Instr.halt :=
  .formA (fun _ => true) ⟨by decide, by decide, rfl⟩ (fun _ => rfl) (fun _ => rfl) (fun _ _ => rfl) (fun _ => rfl)
      (fun _ => ⟨_, rfl⟩) fun _ _ => by
    simp [and_assoc, and_comm, and_left_comm]

theorem srd_row : Row (words 0x04 0) fun x : Guard × Dst 64 × BitVec 8 × BitVec 4 => .srd x.1 x.2.1 x.2.2.1 x.2.2.2 :=
  .formI (fun x => x.2.1.link && x.2.2.2.toNat < sregPieces x.2.2.1.toNat) ⟨by decide, by decide, rfl⟩ (fun _ => rfl)
      (fun _ => rfl) (fun _ _ => rfl) (fun _ => rfl) (fun _ =>
      ⟨(_, _, _, _), rfl⟩) fun _ _ => by
    simp +contextual [eq_append_iff (n := 19) (m := 4), eq_append_iff (n := 11) (m := 8), and_assoc, and_comm,
        and_left_comm, extractLsb'_extractLsb', -BitVec.extractLsb'_toNat]
theorem swr_row : Row (words 0x04 1) fun x : Guard × Src 64 × BitVec 8 × BitVec 4 => .swr x.1 x.2.1 x.2.2.1 x.2.2.2 :=
  .formI (fun x => x.2.1.noStream && x.2.2.2.toNat < sregPieces x.2.2.1.toNat) ⟨by decide, by decide, rfl⟩ (fun _ =>
      rfl) (fun _ => rfl) (fun _ _ => rfl) (fun _ => rfl) (fun _
      => ⟨(_, _, _, _), rfl⟩) fun _ _ => by
    simp +contextual [eq_append_iff (n := 19) (m := 4), eq_append_iff (n := 11) (m := 8), and_assoc, and_comm,
        and_left_comm, extractLsb'_extractLsb', -BitVec.extractLsb'_toNat]

theorem tswait_row : Row (words 0x05 0) Instr.tswait :=
  .formA Src.control ⟨by decide, by decide, rfl⟩ (fun _ => rfl) (fun _ => rfl) (fun _ _ => rfl) (fun _ => rfl) (fun _
      => ⟨_, rfl⟩) fun _ _ => by
    simp [and_assoc, and_comm, and_left_comm]
theorem iflushAll_row : Row (words 0x05 1 fun w => (fMod w).toNat = 1) fun _ : Unit => .iflushAll :=
  .formA (fun _ => true) ⟨by decide, by decide, rfl⟩ (fun _ => rfl) (fun _ => rfl) (fun _ h => if_pos h) (fun _ =>
      rfl) (fun _ => ⟨(), rfl⟩) fun _ _ => by
    simp [← BitVec.toNat_inj, and_assoc, and_comm, and_left_comm]
theorem iflush_row : Row (words 0x05 1 fun w => (fMod w).toNat ≠ 1) Instr.iflush :=
  .formA Src.control ⟨by decide, by decide, rfl⟩ (fun _ => rfl) (fun _ => rfl) (fun _ h => if_neg h) (fun _ => rfl)
      (fun _ => ⟨_, rfl⟩) fun w _ => by
    simp +contextual [and_assoc, and_comm, and_left_comm]

/-! ## Scalar (R107) -/

theorem op08_row {m : Nat} {f : S2 → Instr} (h : op08 m = some f) : Row (words 0x08 m) f := by
  unfold op08 at h
  split at h <;> cases h
  all_goals exact .of_shape shapeS2 (by decide) (fun _ => rfl) (fun _ => rfl) (fun _ => rfl) fun _ => rfl


theorem clz_row : Row (words 0x09 0) Instr.clz := .of_shape shapeS1 (by decide) (fun _ => rfl) (fun _ => rfl) (fun _
    => rfl) fun _ => rfl
theorem ctz_row : Row (words 0x09 1) Instr.ctz := .of_shape shapeS1 (by decide) (fun _ => rfl) (fun _ => rfl) (fun _
    => rfl) fun _ => rfl
theorem popc_row : Row (words 0x09 2) Instr.popc := .of_shape shapeS1 (by decide) (fun _ => rfl) (fun _ => rfl) (fun
    _ => rfl) fun _ => rfl
theorem brev_row : Row (words 0x09 3) Instr.brev := .of_shape shapeS1 (by decide) (fun _ => rfl) (fun _ => rfl) (fun
    _ => rfl) fun _ => rfl
theorem sxt_row : Row (words 0x09 4) fun x : XSz × S1 => .sxt x.1 x.2 :=
  .formA (fun x => x.2.ok) ⟨by decide, by decide, rfl⟩ (fun _ => rfl) (fun _ => rfl) (fun _ _ => rfl) (fun _ => rfl)
      (fun _ => ⟨(_, _), rfl⟩) fun _ _ => by
    simp [and_assoc, and_comm, and_left_comm]
theorem zxt_row : Row (words 0x09 5) fun x : XSz × S1 => .zxt x.1 x.2 :=
  .formA (fun x => x.2.ok) ⟨by decide, by decide, rfl⟩ (fun _ => rfl) (fun _ => rfl) (fun _ _ => rfl) (fun _ => rfl)
      (fun _ => ⟨(_, _), rfl⟩) fun _ _ => by
    simp [and_assoc, and_comm, and_left_comm]
theorem mov_row : Row (words 0x09 6) Instr.mov := .of_shape shapeS1 (by decide) (fun _ => rfl) (fun _ => rfl) (fun _
    => rfl) fun _ => rfl
theorem sel_row : Row (words 0x09 7) fun x : S2 × Src 16 => .sel x.1 x.2 :=
  .formA (fun x => x.1.ok && x.2.noStream) ⟨by decide, by decide, rfl⟩ (fun _ => rfl) (fun _ => rfl) (fun _ _ => rfl)
      (fun _ => rfl) (fun _ => ⟨(_, _), rfl⟩) fun _ _ => by
    simp [and_assoc, and_comm, and_left_comm]
theorem lea_row : Row (words 0x09 8) fun x : S2 × Fin 8 => .lea x.1 x.2 :=
  .formA (fun x => x.1.ok) ⟨by decide, by decide, rfl⟩ (fun _ => rfl) (fun _ => rfl) (fun _ _ => rfl) (fun _ => rfl)
      (fun _ => ⟨(_, _), rfl⟩) fun _ _ => by
    simp [eq_append_iff (n := 2) (m := 3), fin8_eq_iff, and_assoc, and_comm, and_left_comm]
theorem bfx_row : Row (words 0x09 9) Instr.bfx := .of_shape shapeS2 (by decide) (fun _ => rfl) (fun _ => rfl) (fun _
    => rfl) fun _ => rfl
theorem bfi_row : Row (words 0x09 10) Instr.bfi := .of_shape shapeS3 (by decide) (fun _ => rfl) (fun _ => rfl) (fun _
    => rfl) fun _ => rfl

theorem op0A_row {m : Nat} {f : S2 → Instr} (h : op0A m = some f) : Row (words 0x0A m) f := by
  unfold op0A at h
  split at h <;> cases h
  all_goals exact .of_shape shapeS2 (by decide) (fun _ => rfl) (fun _ => rfl) (fun _ => rfl) fun _ => rfl

theorem addi_row : Row (words 0x0B 0) fun x : S1 × BitVec 23 => .addi x.1 x.2 :=
  .formI (fun x => x.1.ok) ⟨by decide, by decide, rfl⟩ (fun _ => rfl) (fun _ => rfl) (fun _ _ => rfl) (fun _ => rfl)
      (fun _ => ⟨(_, _), rfl⟩) fun _ _ => by
    simp [and_assoc]

theorem movi_row : Row (words 0x0C 0) fun x : Guard × Dst 64 × BitVec 32 => .movi x.1 x.2.1 x.2.2 :=
  .formL (fun x => x.2.1.noStream) ⟨by decide, by decide, rfl⟩ (fun _ => rfl) (fun _ => rfl) (fun _ _ => rfl) (fun _
      => rfl) (fun _ => ⟨(_, _, _), rfl⟩) fun _ _ => by
    simp [and_assoc, and_comm, and_left_comm]
theorem movhi_row : Row (words 0x0C 1) fun x : Guard × Fin 64 × BitVec 32 => .movhi x.1 x.2.1 x.2.2 :=
  .formL (fun _ => true) ⟨by decide, by decide, rfl⟩ (fun _ => rfl) (fun _ => rfl) (fun _ _ => rfl) (fun _ => rfl)
      (fun _ => ⟨(_, _, _), rfl⟩) fun _ _ => by
    simp

theorem cmp_row (cc : CC) : Row (words 0x0D cc.enc.toNat)
    fun x : Guard × Dst 16 × Src 64 × Src 64 => .cmp cc x.1 x.2.1 x.2.2.1 x.2.2.2 :=
  .formA (fun x => x.2.1.noStream && x.2.2.1.noStream && x.2.2.2.noStream) ⟨by decide, cc.enc.isLt, opcodeV_eq⟩ (fun
      _ => rfl) (fun _ => rfl) (fun _ _ => congrArg (Option.map _)
      (decCC_eq_some.2 rfl)) (fun _ => rfl) (fun _ => ⟨(_, _, _, _), rfl⟩)
    (fun _ _ => by simp [and_assoc, and_comm, and_left_comm])
theorem cmpImm_row (cc : CC) : Row (words 0x0E cc.enc.toNat)
    fun x : Guard × Dst 16 × Src 64 × BitVec 23 => .cmpImm cc x.1 x.2.1 x.2.2.1 x.2.2.2 :=
  .formI (fun x => x.2.1.noStream && x.2.2.1.noStream) ⟨by decide, cc.enc.isLt, opcodeV_eq⟩ (fun _ => rfl) (fun _ =>
      rfl) (fun _ _ => congrArg (Option.map _) (decCC_eq_some.2 rfl))
      (fun _ => rfl) (fun _ => ⟨(_, _, _, _), rfl⟩)
    (fun _ _ => by simp [and_assoc, and_comm, and_left_comm])

theorem pand_row : Row (words 0x0F 0) Instr.pand := .of_shape shapeP2 (by decide) (fun _ => rfl) (fun _ => rfl) (fun
    _ => rfl) fun _ => rfl
theorem por_row : Row (words 0x0F 1) Instr.por := .of_shape shapeP2 (by decide) (fun _ => rfl) (fun _ => rfl) (fun _
    => rfl) fun _ => rfl
theorem pxor_row : Row (words 0x0F 2) Instr.pxor := .of_shape shapeP2 (by decide) (fun _ => rfl) (fun _ => rfl) (fun
    _ => rfl) fun _ => rfl
theorem pandn_row : Row (words 0x0F 3) Instr.pandn := .of_shape shapeP2 (by decide) (fun _ => rfl) (fun _ => rfl)
    (fun _ => rfl) fun _ => rfl
theorem pnot_row : Row (words 0x0F 4) Instr.pnot := .of_shape shapeP1 (by decide) (fun _ => rfl) (fun _ => rfl) (fun
    _ => rfl) fun _ => rfl
theorem pfroms_row : Row (words 0x0F 5) fun x : Guard × Dst 16 × Src 64 => .pfroms x.1 x.2.1 x.2.2 :=
  .formA (fun x => x.2.1.noStream && x.2.2.noStream) ⟨by decide, by decide, rfl⟩ (fun _ => rfl) (fun _ => rfl) (fun _
      _ => rfl) (fun _ => rfl) (fun _ => ⟨(_, _, _), rfl⟩) fun
      _ _ => by
    simp [and_assoc, and_comm, and_left_comm]
theorem ptos_row : Row (words 0x0F 6) fun x : Guard × Dst 64 × Src 16 => .ptos x.1 x.2.1 x.2.2 :=
  .formA (fun x => x.2.1.noStream && x.2.2.noStream) ⟨by decide, by decide, rfl⟩ (fun _ => rfl) (fun _ => rfl) (fun _
      _ => rfl) (fun _ => rfl) (fun _ => ⟨(_, _, _), rfl⟩) fun
      _ _ => by
    simp [and_assoc, and_comm, and_left_comm]

end Sys2Proof

namespace Sys2Proof
open Machine

/-! ## Vector (R113) -/

theorem op28_row {m : Nat} {f : V2 → Instr} (h : op28 m = some f) : Row (words 0x28 m) f := by
  unfold op28 at h
  split at h <;> cases h
  all_goals exact .of_shape shapeV2 (by decide) (fun _ => rfl) (fun _ => rfl) (fun _ => rfl) fun _ => rfl
theorem vmad_row : Row (words 0x28 4) Instr.vmad := .of_shape shapeV3 (by decide) (fun _ => rfl) (fun _ => rfl) (fun
    _ => rfl) fun _ => rfl
theorem vabs_row : Row (words 0x28 9) Instr.vabs := .of_shape shapeV1s (by decide) (fun _ => rfl) (fun _ => rfl) (fun
    _ => rfl) fun _ => rfl
theorem vneg_row : Row (words 0x28 10) Instr.vneg := .of_shape shapeV1s (by decide) (fun _ => rfl) (fun _ => rfl)
    (fun _ => rfl) fun _ => rfl

theorem op29_row {m : Nat} {f : V2 → Instr} (h : op29 m = some f) : Row (words 0x29 m) f := by
  unfold op29 at h
  split at h <;> cases h
  all_goals exact .of_shape shapeV2 (by decide) (fun _ => rfl) (fun _ => rfl) (fun _ => rfl) fun _ => rfl
theorem vsra_row : Row (words 0x29 6) Instr.vsra := .of_shape shapeV2s (by decide) (fun _ => rfl) (fun _ => rfl) (fun
    _ => rfl) fun _ => rfl
theorem vsel_row : Row (words 0x29 7) fun x : V2 × Src 16 => .vsel x.1 x.2 :=
  .formA (fun x => x.2.noStream) ⟨by decide, by decide, rfl⟩ (fun _ => rfl) (fun _ => rfl) (fun _ _ => rfl) (fun _ =>
      rfl) (fun _ => ⟨(_, _), rfl⟩) fun _ _ => by
    simp [and_assoc, and_comm, and_left_comm]

theorem vcmp_row (cc : CC) : Row (words 0x2A cc.enc.toNat)
    fun x : Guard × ITy × Dst 16 × Src 128 × Src 128 => .vcmp cc x.1 x.2.1 x.2.2.1 x.2.2.2.1 x.2.2.2.2 :=
  .formA (fun x => x.2.2.1.noStream) ⟨by decide, cc.enc.isLt, opcodeV_eq⟩ (fun _ => rfl) (fun _ => rfl) (fun _ _ =>
      congrArg (Option.map _) (decCC_eq_some.2 rfl)) (fun _ => rfl)
    (fun _ => ⟨(_, _, _, _, _), rfl⟩) (fun _ _ => by simp [and_assoc, and_comm, and_left_comm])

theorem vbcast_row : Row (words 0x2B 0) Instr.vbcast := .of_shape shapeVS (by decide) (fun _ => rfl) (fun _ => rfl)
    (fun _ => rfl) fun _ => rfl
theorem viota_row : Row (words 0x2B 1) Instr.viota := .of_shape shapeVS (by decide) (fun _ => rfl) (fun _ => rfl)
    (fun _ => rfl) fun _ => rfl
theorem vextr_row : Row (words 0x2B 2)
    fun x : Guard × ITy × Dst 64 × Src 128 × Src 64 => .vextr x.1 x.2.1 x.2.2.1 x.2.2.2.1 x.2.2.2.2 :=
  .formA (fun x => x.2.2.1.noStream && x.2.2.2.2.noStream) ⟨by decide, by decide, rfl⟩ (fun _ => rfl) (fun _ => rfl)
      (fun _ _ => rfl) (fun _ => rfl)
    (fun _ => ⟨(_, _, _, _, _), rfl⟩) fun _ _ => by
    simp [and_assoc, and_comm, and_left_comm]
theorem vins_row : Row (words 0x2B 3) fun x : Guard × ITy × Dst 128 × Src 128 × Src 64 × Src 64 =>
    .vins x.1 x.2.1 x.2.2.1 x.2.2.2.1 x.2.2.2.2.1 x.2.2.2.2.2 :=
  .formA (fun x => x.2.2.2.2.1.noStream && x.2.2.2.2.2.noStream) ⟨by decide, by decide, rfl⟩ (fun _ => rfl) (fun _ =>
      rfl) (fun _ _ => rfl) (fun _ => rfl)
    (fun _ => ⟨(_, _, _, _, _, _), rfl⟩) fun _ _ => by
    simp [and_assoc, and_comm, and_left_comm]
theorem vperm_row : Row (words 0x2B 4) Instr.vperm := .of_shape shapeV2 (by decide) (fun _ => rfl) (fun _ => rfl)
    (fun _ => rfl) fun _ => rfl
theorem vslide_row : Row (words 0x2B 5) fun x : V2 × Src 64 => .vslide x.1 x.2 :=
  .formA (fun x => x.2.noStream) ⟨by decide, by decide, rfl⟩ (fun _ => rfl) (fun _ => rfl) (fun _ _ => rfl) (fun _ =>
      rfl) (fun _ => ⟨(_, _), rfl⟩) fun _ _ => by
    simp [and_assoc, and_comm, and_left_comm]
theorem vzip_row : Row (words 0x2B 6) Instr.vzip := .of_shape shapeV2 (by decide) (fun _ => rfl) (fun _ => rfl) (fun
    _ => rfl) fun _ => rfl
theorem vunzip_row : Row (words 0x2B 7) Instr.vunzip := .of_shape shapeV2 (by decide) (fun _ => rfl) (fun _ => rfl)
    (fun _ => rfl) fun _ => rfl

theorem vred_row (op : RedOp) : Row (words 0x2C op.enc.toNat)
    fun x : Guard × ITy × Dst 64 × Src 128 => .vred op x.1 x.2.1 x.2.2.1 x.2.2.2 :=
  .formA (fun x => x.2.2.1.noStream) ⟨by decide, op.enc.isLt, opcodeV_eq⟩ (fun _ => rfl) (fun _ => rfl) (fun _ _ =>
      congrArg (Option.map _) (decRed_eq_some.2 rfl)) (fun _ => rfl)
    (fun _ => ⟨(_, _, _, _), rfl⟩) (fun _ _ => by simp [and_assoc, and_comm, and_left_comm])

theorem three_iff {op : RedOp} : op.three = true ↔ op.enc.toNat < 3 := by cases op <;> decide

theorem vscan_row {op : RedOp} (h : op.three = true) : Row (words 0x2D op.enc.toNat) (Instr.vscan op) :=
  .formA (fun _ => op.three) ⟨by decide, op.enc.isLt, opcodeV_eq⟩ (fun _ => rfl) (fun _ => rfl)
    (fun _ _ => (if_pos (three_iff.1 h)).trans (congrArg (Option.map _) (decRed_eq_some.2 rfl))) (fun _ => rfl)
    (fun _ => ⟨_, rfl⟩) (fun _ _ => by simp [h])

theorem vfadd_row : Row (words 0x2E 0) Instr.vfadd := .of_shape (shapeF2 fun _ _ => dRm_gives) (by decide) (fun _ =>
    rfl) (fun _ => rfl) (fun _ => rfl) fun _ => rfl
theorem vfsub_row : Row (words 0x2E 1) Instr.vfsub := .of_shape (shapeF2 fun _ _ => dRm_gives) (by decide) (fun _ =>
    rfl) (fun _ => rfl) (fun _ => rfl) fun _ => rfl
theorem vfmul_row : Row (words 0x2E 2) Instr.vfmul := .of_shape (shapeF2 fun _ _ => dRm_gives) (by decide) (fun _ =>
    rfl) (fun _ => rfl) (fun _ => rfl) fun _ => rfl
theorem vfma_row : Row (words 0x2E 3) Instr.vfma := .of_shape shapeF3 (by decide) (fun _ => rfl) (fun _ => rfl) (fun
    _ => rfl) fun _ => rfl
theorem vfms_row : Row (words 0x2E 4) Instr.vfms := .of_shape shapeF3 (by decide) (fun _ => rfl) (fun _ => rfl) (fun
    _ => rfl) fun _ => rfl
theorem vfnma_row : Row (words 0x2E 5) Instr.vfnma := .of_shape shapeF3 (by decide) (fun _ => rfl) (fun _ => rfl)
    (fun _ => rfl) fun _ => rfl
theorem vfmin_row : Row (words 0x2E 6) Instr.vfmin := .of_shape (shapeF2 fun _ _ => dRm0_gives) (by decide) (fun _ =>
    rfl) (fun _ => rfl) (fun _ => rfl) fun _ => rfl
theorem vfmax_row : Row (words 0x2E 7) Instr.vfmax := .of_shape (shapeF2 fun _ _ => dRm0_gives) (by decide) (fun _ =>
    rfl) (fun _ => rfl) (fun _ => rfl) fun _ => rfl
theorem vfabs_row : Row (words 0x2E 8) Instr.vfabs := .of_shape (shapeF1 fun _ _ => dRm0_gives) (by decide) (fun _ =>
    rfl) (fun _ => rfl) (fun _ => rfl) fun _ => rfl
theorem vfneg_row : Row (words 0x2E 9) Instr.vfneg := .of_shape (shapeF1 fun _ _ => dRm0_gives) (by decide) (fun _ =>
    rfl) (fun _ => rfl) (fun _ => rfl) fun _ => rfl
theorem vfclass_row : Row (words 0x2E 10) Instr.vfclass := .of_shape (shapeF1 fun _ _ => dRm0_gives) (by decide) (fun
    _ => rfl) (fun _ => rfl) (fun _ => rfl) fun _ => rfl

theorem vfcmp_row (cc : FCC) : Row (words 0x2F cc.enc.toNat)
    fun x : Guard × FTy × Dst 16 × Src 128 × Src 128 => .vfcmp cc x.1 x.2.1 x.2.2.1 x.2.2.2.1 x.2.2.2.2 :=
  .formA (fun x => x.2.2.1.noStream) ⟨by decide, cc.enc.isLt, opcodeV_eq⟩ (fun _ => rfl) (fun _ => rfl) (fun _ _ =>
      congrArg (Option.map _) (decFCC_eq_some.2 rfl)) (fun _ => rfl)
    (fun _ => ⟨(_, _, _, _, _), rfl⟩) (fun _ _ => by simp [fMod_eq_iff, and_assoc, and_comm, and_left_comm])

theorem vfrcp_row : Row (words 0x30 0) Instr.vfrcp := .of_shape (shapeF1 fun _ _ => dRm_gives) (by decide) (fun _ =>
    rfl) (fun _ => rfl) (fun _ => rfl) fun _ => rfl
theorem vfrsq_row : Row (words 0x30 1) Instr.vfrsq := .of_shape (shapeF1 fun _ _ => dRm_gives) (by decide) (fun _ =>
    rfl) (fun _ => rfl) (fun _ => rfl) fun _ => rfl
theorem vfsqrt_row : Row (words 0x30 2) Instr.vfsqrt := .of_shape (shapeF1 fun _ _ => dRm_gives) (by decide) (fun _
    => rfl) (fun _ => rfl) (fun _ => rfl) fun _ => rfl
theorem vexp2_row : Row (words 0x30 3) Instr.vexp2 := .of_shape (shapeF1 fun _ _ => dRm_gives) (by decide) (fun _ =>
    rfl) (fun _ => rfl) (fun _ => rfl) fun _ => rfl
theorem vlog2_row : Row (words 0x30 4) Instr.vlog2 := .of_shape (shapeF1 fun _ _ => dRm_gives) (by decide) (fun _ =>
    rfl) (fun _ => rfl) (fun _ => rfl) fun _ => rfl

/-- The rounding of VFRED: the sum alone has a mode (R113). -/
theorem vfredRm_gives {op : RedOp} {w : SlotWord} {r : Rnd} : (if op = .add then dRm w else dRm0 w).gives r ↔
    rmF w = r.enc2 ∧ if op = .add then r.two = true else r = .rne := by
  split <;> simp

theorem vfred_row {op : RedOp} (h : op.three = true) : Row (words 0x31 op.enc.toNat)
    fun x : Guard × FTy × Rnd × Dst 64 × Src 128 => .vfred op x.1 x.2.1 x.2.2.1 x.2.2.2.1 x.2.2.2.2 :=
  .formA (fun x => op.three && (if op == .add then x.2.2.1.two else x.2.2.1 == .rne) && x.2.2.2.1.noStream) ⟨by
      decide, op.enc.isLt, opcodeV_eq⟩ (fun _ => rfl) (fun _ => rfl)
    (fun _ _ => (if_pos (three_iff.1 h)).trans (congrArg (Option.map _) (decRed_eq_some.2 rfl))) (fun _ => rfl)
    (fun _ => ⟨(_, _, _, _, _), rfl⟩)
    (fun _ _ => by simp [h, vfredRm_gives, fMod_eq_iff, and_assoc, and_comm, and_left_comm])

end Sys2Proof

namespace Sys2Proof
open Machine

/-! ## Conversions (R275 to R281) -/

theorem vcvt_row : Row (words 0x32 0) Instr.vcvt :=
  .formA CV.ok ⟨by decide, by decide, rfl⟩ (fun _ => rfl) (fun _ => rfl) (fun _ _ => rfl) (fun _ => rfl) (fun _ =>
      ⟨_, rfl⟩) fun w x => by
    have hok := gives_illIf_val (x := (Fld.pure CV.mk).ap (gW w) |>.ap (decDst 128 (fDst w)) |>.ap (decSrc 128 (fA w))
      |>.ap (decXTy ((fB w).extractLsb' 4 4)) |>.ap (decXTy ((fB w).extractLsb' 0 4))
      |>.ap (.pure ((fC w).extractLsb' 0 2).toFin) |>.ap (decRnd3 ((fMod w).extractLsb' 2 3))
      |>.ap (.pure ((fMod w).getLsbD 1)) |>.ap (.pure ((fMod w).getLsbD 0))) (fun x : CV => !x.ok) (a := x)
    rw [dVCVT, map_gives (by simp), gives_resIf, gives_resIf, hok]
    obtain ⟨g, d, a, tt, sty, part, crm, wrp, iee⟩ := x
    simp [eq_append_iff (n := 5) (m := 4), eq_append_iff (n := 1) (m := 4), eq_append_iff (n := 7) (m := 2),
      eq_append_iff (n := 4) (m := 1), eq_append_iff (n := 3) (m := 1), extractLsb'_extractLsb', eq_ofBool_iff,
          bit_eq_zero_iff,
      toFin2_eq_iff, -BitVec.toFin_extractLsb', and_assoc, and_comm, and_left_comm]

theorem dCrm_gives {w : SlotWord} {r : Rnd} : (dCrm w).gives r ↔ fMod w = r.enc3 ++ 0#2 := by
  rw [dCrm, gives_illIf, decRnd3_gives, bne_eq_false_iff_eq]
  exact (eq_append_iff (n := 3) (m := 2)).symm

theorem vquantF_row : Row (words 0x32 1 fun w => (fB w).getLsbD 8 = true)
    fun x : Dst 128 × Src 128 × Bool × Fin 4 × Rnd => .vquantF x.1 x.2.1 x.2.2.1 x.2.2.2.1 x.2.2.2.2 :=
  .formA (fun _ => true) ⟨by decide, by decide, rfl⟩ (fun _ => rfl) (fun _ => rfl) (fun _ h => congrArg some (if_pos
      h)) (fun _ => rfl) (fun _ => ⟨(_, _, _, _, _), rfl⟩) fun _
      _ => by
    simp [dCrm_gives, eq_append_iff (n := 7) (m := 2), eq_append_iff (n := 2) (m := 5), eq_append_iff (n := 1) (m := 1),
      extractLsb'_extractLsb', eq_ofBool_iff, bit_eq_one_iff, toFin2_eq_iff, -BitVec.toFin_extractLsb', and_assoc,
          and_comm,
      and_left_comm]

theorem e4_inj {a b : Fin 16} : e4 a = e4 b ↔ a = b :=
  ⟨fun h => by simpa [e4] using congrArg BitVec.toFin h, congrArg e4⟩

/-- A field that is zero is zero in its upper and in its lower part. -/
theorem field_eq_zero_iff {v k n m p : Nat} {x : BitVec v} (h : n + m = p) :
    x.extractLsb' k p = 0#p ↔ x.extractLsb' (k + m) n = 0#n ∧ x.extractLsb' k m = 0#m := by
  subst h
  rw [← BitVec.zero_append_zero, eq_append_iff,
    extractLsb'_extractLsb' (by omega), extractLsb'_extractLsb' (by omega), Nat.add_zero]

theorem vquant_row : Row (words 0x32 1 fun w => ¬ (fB w).getLsbD 8 = true)
    fun x : Dst 128 × Src 128 × MXF × Bool × Fin 16 × Rnd => .vquant x.1 x.2.1 x.2.2.1 x.2.2.2.1 x.2.2.2.2.1
        x.2.2.2.2.2 :=
  .formA (fun x => !x.2.2.2.1 || x.2.2.2.2.1 == 0) ⟨by decide, by decide, rfl⟩ (fun _ => rfl) (fun _ => rfl) (fun _ h
      => congrArg some (if_neg h)) (fun _ => rfl)
    (fun _ => ⟨(_, _, _, _, _, _), rfl⟩) fun _ _ => by
    simp [dCrm_gives, eq_append_iff (n := 5) (m := 4), eq_append_iff (n := 4) (m := 1), eq_append_iff (n := 2) (m := 2),
      extractLsb'_extractLsb', eq_ofBool_iff, fin16_eq_iff, field_eq_zero_iff (k := 7) (n := 1) (m := 1) (p := 2)
          rfl, bit_eq_zero_iff]
    grind [e4_inj]

theorem vdeq_row : Row (words 0x32 2)
    fun x : Guard × Dst 128 × Src 128 × MXF × Rnd => .vdeq x.1 x.2.1 x.2.2.1 x.2.2.2.1 x.2.2.2.2 :=
  .formA (fun _ => true) ⟨by decide, by decide, rfl⟩ (fun _ => rfl) (fun _ => rfl) (fun _ _ => rfl) (fun _ => rfl)
      (fun _ => ⟨(_, _, _, _, _), rfl⟩) fun _ _ => by
    simp [dVDEQ, dCrm_gives, eq_append_iff (n := 4) (m := 5), eq_append_iff (n := 2) (m := 2),
      extractLsb'_extractLsb', and_assoc, and_comm, and_left_comm]

theorem vamaxC_row : Row (words 0x32 3 fun w => (fB w).getLsbD 4 = true) fun x : Guard × Fin 16 => .vamaxC x.1 x.2 :=
  .formA (fun _ => true) ⟨by decide, by decide, rfl⟩ (fun _ => rfl) (fun _ => rfl) (fun _ h => congrArg some (if_pos
      h)) (fun _ => rfl) (fun _ => ⟨(_, _), rfl⟩) fun w _ => by
    have hclear : ∀ c : BitVec 9, c = 16#9 ↔ c.extractLsb' 5 4 = 0 ∧ c.getLsbD 4 = true ∧ c.extractLsb' 0 4 = 0 := by
        decide
    simp [hclear, eq_append_iff (n := 5) (m := 4), eq_opnd_iff, fin16_eq_iff, and_assoc, and_comm, and_left_comm]
theorem vamax_row : Row (words 0x32 3 fun w => ¬ (fB w).getLsbD 4 = true)
    fun x : Guard × FTy × Src 128 × Fin 16 => .vamax x.1 x.2.1 x.2.2.1 x.2.2.2 :=
  .formA (fun _ => true) ⟨by decide, by decide, rfl⟩ (fun _ => rfl) (fun _ => rfl) (fun _ h => congrArg some (if_neg
      h)) (fun _ => rfl) (fun _ => ⟨(_, _, _, _), rfl⟩) fun _ _ => by
    simp [eq_append_iff (n := 5) (m := 4), eq_opnd_iff, fin16_eq_iff, field_eq_zero_iff (x := fB _) (k := 4) (n := 4)
        (m := 1) (p := 5) rfl,
      bit_eq_zero_iff, and_assoc, and_comm, and_left_comm]

/-- A field with a bit beside it. -/
theorem map_pair_gives {A T : Type} {k : A → Bool → T} (hk : ∀ a b a' b', k a b = k a' b' ↔ a = a' ∧ b = b') {x : Fld A}
    {c b : Bool} {a : A} : (x.map (k · c)).gives (k a b) ↔ x.gives a ∧ c = b := by
  simp only [Fld.gives, Fld.map, hk, and_assoc]

theorem vpack_row : Row (words 0x32 4) fun x : V2 × Bool => .vpack x.1 x.2 :=
  .formA (fun x => x.1.ty.width != 8) ⟨by decide, by decide, rfl⟩ (fun _ => rfl) (fun _ => rfl) (fun _ _ => rfl) (fun
      _ => rfl) (fun _ => ⟨(_, _), rfl⟩) fun w ⟨x, wrp⟩ => by
    rw [dVPACK, map_pair_gives (by simp), gives_resIf, gives_illIf, gives_illIf, gives_illIf_val fun x : V2 =>
        x.ty.width == 8]
    obtain ⟨g, t, d, a, b⟩ := x
    simp [eq_append_iff (n := 5) (m := 4), eq_append_iff (n := 4) (m := 1), eq_append_iff (n := 3) (m := 1),
      extractLsb'_extractLsb', eq_ofBool_iff, bit_eq_zero_iff, and_assoc, and_comm, and_left_comm]
theorem vunpack_row : Row (words 0x32 5) fun x : V1 × Bool => .vunpack x.1 x.2 :=
  .formA (fun x => x.1.ty.width != 32) ⟨by decide, by decide, rfl⟩ (fun _ => rfl) (fun _ => rfl) (fun _ _ => rfl)
      (fun _ => rfl) (fun _ => ⟨(_, _), rfl⟩) fun w ⟨x, part⟩ => by
    rw [dVUNPACK, mod0_gives, map_pair_gives (by simp), gives_resIf, gives_resIf, gives_illIf,
      gives_illIf_val fun x : V1 => x.ty.width == 32]
    obtain ⟨g, t, d, a⟩ := x
    simp [eq_append_iff (n := 5) (m := 4), eq_append_iff (n := 8) (m := 1), eq_ofBool_iff, field_eq_zero_iff (x := fC
        _) (k := 1) (n := 7) (m := 1) (p := 8) rfl, bit_eq_zero_iff,
      and_assoc, and_comm, and_left_comm]

theorem ushiftRight_eq_zero_iff {n lo k : Nat} {x : BitVec n} (h : lo + k = n) : x >>> lo = 0 ↔ x.extractLsb' lo k =
    0 := by
  subst h
  simp only [← BitVec.toNat_inj, BitVec.toNat_ushiftRight, BitVec.extractLsb'_toNat]
  rw [Nat.mod_eq_of_lt]
  · simp
  · have := x.isLt
    rw [Nat.shiftRight_eq_div_pow]
    rw [Nat.pow_add] at this
    exact Nat.div_lt_of_lt_mul this

section XMod
variable {α : Type} {w : SlotWord} {f : Fld α} {a : α}
@[simp] theorem xmodFrom1_gives : (xmodFrom 1 w f).gives a ↔ f.gives a ∧ (fXMod w).extractLsb' 1 11 = 0 := by
  rw [xmodFrom, gives_illIf, bne_eq_false_iff_eq, ushiftRight_eq_zero_iff (k := 11) rfl]
@[simp] theorem xmodFrom3_gives : (xmodFrom 3 w f).gives a ↔ f.gives a ∧ (fXMod w).extractLsb' 3 9 = 0 := by
  rw [xmodFrom, gives_illIf, bne_eq_false_iff_eq, ushiftRight_eq_zero_iff (k := 9) rfl]
@[simp] theorem xmodFrom9_gives : (xmodFrom 9 w f).gives a ↔ f.gives a ∧ (fXMod w).extractLsb' 9 3 = 0 := by
  rw [xmodFrom, gives_illIf, bne_eq_false_iff_eq, ushiftRight_eq_zero_iff (k := 3) rfl]
end XMod

/-! ## Matrix (R115, R326 to R332) -/

theorem mpush_row : Row (words 0x3C 0) fun x : Guard × Fin 8 × Src 128 => .mpush x.1 x.2.1 x.2.2 :=
  .formX (fun _ => true) ⟨by decide, by decide, rfl⟩ (fun _ => rfl) (fun _ => rfl) (fun _ _ => rfl) (fun _ => rfl)
      (fun _ => ⟨(_, _, _), rfl⟩) fun _ _ => by
    simp [eq_append_iff (n := 9) (m := 3), fin8_eq_iff, and_assoc, and_comm, and_left_comm]
theorem fXMod_eq_zero_iff {w : SlotWord} : fXMod w = 0#12 ↔ (fXMod w).extractLsb' 1 11 = 0 ∧ (fXMod w).getLsbD 0 =
    false := by
  rw [← bit_eq_zero_iff]
  exact eq_append_iff (n := 11) (m := 1) (a := 0) (b := 0#1)
theorem fXMod_eq_one_iff {w : SlotWord} : fXMod w = 1#12 ↔ (fXMod w).extractLsb' 1 11 = 0 ∧ (fXMod w).getLsbD 0 =
    true := by
  rw [← bit_eq_one_iff]
  exact eq_append_iff (n := 11) (m := 1) (a := 0) (b := 1#1)

theorem mshiftBank_row : Row (words 0x3C 2 fun w => (fXMod w).getLsbD 0 = true)
    fun x : Guard × Fin 4 => .mshiftBank x.1 x.2 :=
  .formX (fun _ => true) ⟨by decide, by decide, rfl⟩ (fun _ => rfl) (fun _ => rfl) (fun _ h => if_pos h) (fun _ =>
      rfl) (fun _ => ⟨(_, _), rfl⟩) fun _ _ => by
    simp [fXMod_eq_one_iff, and_assoc, and_comm, and_left_comm]
theorem mshiftEdge_row : Row (words 0x3C 2 fun w => ¬(fXMod w).getLsbD 0 = true)
    fun x : Guard × Src 128 => .mshiftEdge x.1 x.2 :=
  .formX (fun _ => true) ⟨by decide, by decide, rfl⟩ (fun _ => rfl) (fun _ => rfl) (fun _ h => if_neg h) (fun _ =>
      rfl) (fun _ => ⟨(_, _), rfl⟩) fun _ _ => by
    simp [fXMod_eq_zero_iff, and_assoc, and_comm, and_left_comm]
theorem mclr_row : Row (words 0x3C 4) fun x : Guard × Fin 4 × Bool => .mclr x.1 x.2.1 x.2.2 :=
  .formX (fun _ => true) ⟨by decide, by decide, rfl⟩ (fun _ => rfl) (fun _ => rfl) (fun _ _ => rfl) (fun _ => rfl)
      (fun _ => ⟨(_, _, _), rfl⟩) fun _ _ => by
    simp [eq_append_iff (n := 11) (m := 1), eq_ofBool_iff, and_comm, and_left_comm]
theorem msel_row : Row (words 0x3C 5) fun x : Guard × Fin 4 × Fin 4 × Bool => .msel x.1 x.2.1 x.2.2.1 x.2.2.2 :=
  .formX (fun _ => true) ⟨by decide, by decide, rfl⟩ (fun _ => rfl) (fun _ => rfl) (fun _ _ => rfl) (fun _ => rfl)
      (fun _ => ⟨(_, _, _, _), rfl⟩) fun _ _ => by
    simp [eq_append_iff (n := 11) (m := 1), eq_ofBool_iff, and_comm, and_left_comm]

theorem maccFmt_gives {x : BitVec 12} {f : MFmt} :
    (if x.getLsbD 10 then Fld.pure (.ft (x.extractLsb' 6 2).toFin) else (decMXF (x.extractLsb' 6 2)).map .xf).gives f ↔
      x.getLsbD 10 = f.isFt ∧ x.extractLsb' 6 2 = f.bits := by
  cases f <;> split <;> simp_all [map_gives_iff, MFmt.isFt, MFmt.bits, toFin2_eq_iff, -BitVec.toFin_extractLsb']
theorem maccA_gives {b : Bool} {c : BitVec 9} {a : Option (Src 128)} :
    (if b then (decSrc 128 c).map some else (Fld.pure none).resIf (c != 0)).gives a ↔ b = a.isSome ∧ c = optSrc a := by
  cases a <;> cases b <;> simp [map_gives_iff, optSrc, and_comm]
theorem maccB_gives {b : Bool} {c : BitVec 9} {a : Option (Src 128)} :
    (if b then (Fld.pure none).resIf (c != 0) else (decSrc 128 c).map some).gives a ↔ b = a.isNone ∧ c = optSrc a := by
  cases a <;> cases b <;> simp [map_gives_iff, optSrc, and_comm]

theorem macc_row : Row (words 0x3C 1) fun x : Guard × Fin 4 × Bool × MFmt × Option (Src 128) × Option (Src 128) =>
    .macc x.1 x.2.1 x.2.2.1 x.2.2.2.1 x.2.2.2.2.1 x.2.2.2.2.2 :=
  .formX (fun _ => true) ⟨by decide, by decide, rfl⟩ (fun _ => rfl) (fun _ => rfl) (fun _ _ => rfl) (fun _ => rfl)
      (fun _ => ⟨(_, _, _, _, _, _), rfl⟩) fun _ _ => by
    rw [dMACC, xd0_gives, gives_illIf, ap6_gives (by simp), maccFmt_gives, maccA_gives, maccB_gives]
    simp [eq_append_iff (n := 6) (m := 6), eq_append_iff (n := 4) (m := 2), eq_append_iff (n := 3) (m := 1),
      eq_append_iff (n := 2) (m := 1), eq_append_iff (n := 1) (m := 1), eq_ofBool_iff, extractLsb'_extractLsb',
          and_assoc, and_comm, and_left_comm]

theorem decFTy_enc_val (t : FTy) : (decFTy t.enc).val = t := by cases t <;> rfl
theorem decRnd2_enc2 {r : Rnd} (h : r.two = true) : decRnd2 r.enc2 = r := decRnd2_eq_iff.2 ⟨rfl, h⟩

theorem mdrain_row : Row (words 0x3C 3) fun x : Guard × Dst 128 × Fin 4 × FTy × Rnd × Fin 16 =>
    .mdrain x.1 x.2.1 x.2.2.1 x.2.2.2.1 x.2.2.2.2.1 x.2.2.2.2.2 :=
  .formX (fun x => x.2.2.2.2.1.two && (x.2.2.2.1 != .f32 || x.2.2.2.2.1 == .rne)) ⟨by decide, by decide, rfl⟩ (fun _
      => rfl) (fun _ => rfl) (fun _ _ => rfl) (fun _ => rfl)
    (fun _ => ⟨(_, _, _, _, _, _), rfl⟩) fun w ⟨g, d, bank, ty, rm, row⟩ => by
    have hsum : (decFTy ((fXMod w).extractLsb' 4 3)).gives ty ∧ decRnd2 ((fXMod w).extractLsb' 7 2) = rm →
        (((decFTy ((fXMod w).extractLsb' 4 3)).val == .f32 && decRnd2 ((fXMod w).extractLsb' 7 2) != .rne) = false ↔
          (ty != .f32 || rm == .rne) = true) := by
      rintro ⟨hty, hrm⟩
      rw [hty.val_eq, hrm]
      cases ty <;> cases rm <;> decide
    simp [eq_append_iff (n := 8) (m := 4), eq_append_iff (n := 5) (m := 3), eq_append_iff (n := 3) (m := 2),
      decRnd2_eq_iff, fin16_eq_iff, extractLsb'_extractLsb'] at hsum ⊢
    grind

end Sys2Proof

namespace Sys2Proof
open Machine

/-! ## Memory (R109 to R112) -/

theorem accepts_map {α β : Type} {o : Option β} {F : β → Fld α} {a : α} :
    accepts (o.map F) a ↔ ∃ x, o = some x ∧ (F x).gives a := by
  cases o <;> simp [accepts]

theorem accepts_map_map {α β : Type} {o : Option (Fld α)} {k : α → β} {b : β} :
    accepts (o.map (·.map k)) b ↔ ∃ a, accepts o a ∧ k a = b := by
  cases o <;> simp [map_gives_iff]

theorem ESz.enc_ne (z : ESz) : 4 ≠ z.enc.toNat := by cases z <;> decide

theorem accepts_decLd {m : Nat} {c : BitVec 9} {d : LdDst} :
    accepts (decLd m c) d ↔ m = d.encSize.toNat ∧ c = d.encData ∧ d.ok = true := by
  unfold decLd
  split
  case isTrue h =>
    subst h
    cases d <;> simp [map_gives_iff, LdDst.encSize, LdDst.encData, LdDst.ok, ESz.enc_ne]
  case isFalse h =>
    cases d <;> simp [h, accepts_map, map_gives_iff, decESz_eq_some, LdDst.encSize, LdDst.encData, LdDst.ok]
theorem accepts_decSt {m : Nat} {c : BitVec 9} {a : StSrc} :
    accepts (decSt m c) a ↔ m = a.encSize.toNat ∧ c = a.encData ∧ a.ok = true := by
  unfold decSt
  split
  case isTrue h =>
    subst h
    cases a <;> simp [map_gives_iff, StSrc.encSize, StSrc.encData, StSrc.ok, ESz.enc_ne]
  case isFalse h =>
    cases a <;> simp [h, accepts_map, map_gives_iff, decESz_eq_some, StSrc.encSize, StSrc.encData, StSrc.ok]

section MShapes
variable {m : Nat} {w : SlotWord}

theorem accepts_dLD {x : LD} : accepts (dLD m w) x ↔ m = x.d.encSize.toNat ∧ x.d.ok = true ∧ fGrd w = x.g.enc ∧ fDst
    w = x.d.encData ∧
    fBase w = x.m.enc ∧ fOff w = x.m.off ∧ fTok w = 0 ∧ fLease w = 0 ∧ fBuf w = e4 x.buf := by
  obtain ⟨g, d, a, u⟩ := x
  have hd := accepts_decLd (m := m) (c := fDst w) (d := d)
  rw [dLD, accepts_map]
  simp only [tok0_gives, lease0_gives, ap4_gives (k := LD.mk) (by simp), gW_gives, dM_gives, bufW_gives]
  rw [accepts] at hd
  grind
theorem accepts_dLG {l : Fld (Option (Fin 8))} {x : LG} : accepts (dLG m w l) x ↔ m = x.d.encSize.toNat ∧ x.d.isReg =
    true ∧ l.gives x.lease ∧
    fGrd w = x.g.enc ∧ fDst w = x.d.encData ∧ fBase w = x.m.enc ∧ fOff w = x.m.off ∧ fTok w = e3 x.tok ∧ fBuf w = e4
        x.buf := by
  obtain ⟨g, d, a, t, k, u⟩ := x
  have hd := accepts_decLd (m := m) (c := fDst w) (d := d)
  have hreg : d.isReg = true → d.ok = true := by rcases d with ⟨z, d | _⟩ | d <;> simp [LdDst.isReg, LdDst.ok,
      Dst.isReg, Dst.noStream]
  rw [dLG, accepts_map]
  simp only [ap6_gives (k := LG.mk) (by simp), gW_gives, dM_gives, bufW_gives, tokW_gives, gives_illIf_val fun d :
      LdDst => !d.isReg]
  rw [accepts] at hd
  grind
theorem accepts_dSG {l : Fld (Option (Fin 8))} {x : SG} : accepts (dSG m w l) x ↔ m = x.a.encSize.toNat ∧ x.a.ok =
    true ∧ l.gives x.lease ∧
    fGrd w = x.g.enc ∧ fDst w = x.a.encData ∧ fBase w = x.m.enc ∧ fOff w = x.m.off ∧ fTok w = e3 x.tok ∧ fBuf w = e4
        x.buf := by
  obtain ⟨g, d, a, t, k, u⟩ := x
  have hd := accepts_decSt (m := m) (c := fDst w) (a := d)
  rw [dSG, accepts_map]
  simp only [ap6_gives (k := SG.mk) (by simp), gW_gives, dM_gives, bufW_gives, tokW_gives]
  rw [accepts] at hd
  grind

theorem dLease_gives {lx : Bool} {l : Option (Fin 8)} : (dLease lx w).gives l ↔ lx = l.isSome ∧ fLease w = leaseBits
    l := by
  cases lx <;> cases l <;> simp [dLease, leaseBits, fin8_eq_iff]

end MShapes

/-! ### Minors with a size (R109, R111) -/

theorem opcMinor_lt (w : SlotWord) : opcMinor w < 16 := ((fOpc w).extractLsb' 0 4).isLt

theorem fOpc_eq_iff_toNat {w : SlotWord} {M : Nat} {m : BitVec 4} (hM : M < 64) :
    fOpc w = opcodeV M m ↔ opcMajor w = M ∧ opcMinor w = m.toNat := by
  rw [opcodeV_eq, fOpc_eq_iff hM m.isLt]

theorem toNat_zero_append (s : BitVec 3) : ((0#1 ++ s : BitVec 4)).toNat = s.toNat := by
  rw [BitVec.toNat_append]; simp
theorem toNat_one_append (s : BitVec 3) : ((1#1 ++ s : BitVec 4)).toNat = s.toNat + 8 := by
  revert s; decide
theorem toNat_lxBit_append (l : Option (Fin 8)) (s : BitVec 3) (m : Nat) : m = (lxBit l ++ s : BitVec 4).toNat ↔
    m % 8 = s.toNat ∧ (decide (8 ≤ m)) = l.isSome ∧ m < 16 := by
  have hs := s.isLt
  cases l
  · rw [lxBit, show (0 : BitVec 1) = 0#1 from rfl, toNat_zero_append]
    simp; omega
  · rw [lxBit, show (1 : BitVec 1) = 1#1 from rfl, toNat_one_append]
    simp; omega

theorem opcodeV_zero_append {M : Nat} {s : BitVec 3} : opcodeV M (0#1 ++ s) = opcode M s.toNat := by
  rw [opcodeV_eq, toNat_zero_append]
theorem opcodeV_one_append {M : Nat} {s : BitVec 3} : opcodeV M (1#1 ++ s) = opcode M (s.toNat + 8) := by
  rw [opcodeV_eq, toNat_one_append]

/-- The words of a major whose minor `sel` selects. -/
def majorWords (M : Nat) (sel : Nat → Prop := fun _ => True) (w : SlotWord) : Prop := opcMajor w = M ∧ sel (opcMinor w)

/-- A row of a range of minors, whose decoder `D` a constructor is mapped over. -/
theorem Row.of_option {α : Type} {M : Nat} {sel : Nat → Prop} {f : α → Instr} {D : Nat → SlotWord → Option (Fld α)}
    (hfam : ∀ x, family (f x) = classOf M)
    (hdec : ∀ m w, sel m → decMajor M m w = (D m w).map (·.map f))
    (hreads : ∀ w x, majorWords M sel w ∧ accepts (D (opcMinor w) w) x ↔
      (f x).wellFormed = true ∧ encode (f x) = some w) :
    Row (majorWords M sel) f := by
  have hread {w : SlotWord} (h : majorWords M sel w) (i : Instr) :
      reads w i ↔ ∃ x, accepts (D (opcMinor w) w) x ∧ f x = i := by
    rw [reads_iff ⟨h.1, rfl⟩, hdec _ w h.2, accepts_map_map]
  refine .of_reads (fun w h => h.1) hfam (fun w i h hr => ?_) fun w x => ⟨fun ⟨h, hr⟩ => ?_, fun h => ?_⟩
  · obtain ⟨x, -, hx⟩ := (hread h i).1 hr
    exact ⟨x, hx⟩
  · obtain ⟨y, hy, hxy⟩ := (hread h _).1 hr
    exact hxy ▸ (hreads w y).1 ⟨h, hy⟩
  · obtain ⟨hw, hx⟩ := (hreads w x).2 h
    exact ⟨hw, (hread hw _).2 ⟨x, hx, rfl⟩⟩

theorem ld_row : Row (majorWords 0x18 (· < 8)) Instr.ld :=
  .of_option (fun _ => rfl) (fun _ _ h => if_pos h) fun w x => by
    change _ ↔ x.d.ok = true ∧ some (encLD (opcodeV 0x18 (0#1 ++ x.d.encSize)) x) = some w
    have hlt := x.d.encSize.isLt
    rw [Option.some_inj, encLD, formM_eq_iff, fOpc_eq_iff_toNat (by decide), toNat_zero_append, accepts_dLD, majorWords]
    grind
theorem ldG_row : Row (majorWords 0x18 (¬ · < 8)) Instr.ldG :=
  .of_option (fun _ => rfl) (fun _ _ h => if_neg h) fun w x => by
    change _ ↔ x.d.ok = true ∧ some (encLD (opcodeV 0x18 (1#1 ++ x.d.encSize)) x) = some w
    have hlt := x.d.encSize.isLt
    rw [Option.some_inj, encLD, formM_eq_iff, fOpc_eq_iff_toNat (by decide), toNat_one_append, accepts_dLD, majorWords]
    grind

theorem st_row : Row (majorWords 0x19) fun x : Guard × StSrc × MAddr × Fin 16 => .st x.1 x.2.1 x.2.2.1 x.2.2.2 := by
  have hread (w : SlotWord) (i : Instr) (h : opcMajor w = 0x19) : reads w i ↔ ∃ a, decSt (opcMinor w) (fDst w) = some a ∧
      (tok0 w (lease0 w ((Fld.pure Instr.st).ap (gW w) |>.ap a |>.ap (dM w) |>.ap (bufW w)))).gives i := by
    rw [reads_iff ⟨h, rfl⟩, ← accepts_map]
    rfl
  refine .of_reads (M := 0x19) (fun _ h => h.1) (fun _ => rfl) (fun w i h hr => ?_) fun w ⟨g, a, m, u⟩ => ?_
  · obtain ⟨a, -, hi⟩ := (hread w i h.1).1 hr
    exact ⟨(_, _, _, _), hi.val_eq⟩
  · change _ ↔ a.ok = true ∧ some (formM (opcodeV 0x19 (0#1 ++ a.encSize)) g.enc a.encData m.enc m.off 0 0 (e4 u)) =
      some w
    have ha := accepts_decSt (m := opcMinor w) (c := fDst w) (a := a)
    rw [Option.some_inj, formM_eq_iff, fOpc_eq_iff_toNat (by decide), toNat_zero_append, majorWords]
    rw [accepts] at ha
    constructor
    · rintro ⟨⟨hM, -⟩, hr⟩
      obtain ⟨f, hf, hg⟩ := (hread w _ hM).1 hr
      simp at hg
      grind
    · rintro ⟨hok, ⟨hM, hm⟩, h⟩
      refine ⟨⟨hM, trivial⟩, (hread w _ hM).2 ?_⟩
      simp
      grind


theorem lds_row (z : ESz) : Row (words 0x1A z.enc.toNat)
    fun x : Guard × Dst 128 × Src 64 × Src 64 => .lds x.1 z x.2.1 x.2.2.1 x.2.2.2 :=
  .formA (fun x => x.2.2.1.noStream && x.2.2.2.noStream) ⟨by decide, by omega, opcodeV_zero_append⟩ (fun _ => rfl)
      (fun _ => rfl)
    (fun _ _ => (if_pos z.enc.isLt).trans (congrArg (Option.map _) (decESz_eq_some.2 rfl))) (fun _ => rfl)
    (fun _ => ⟨(_, _, _, _), rfl⟩) (fun _ _ => by simp [and_assoc, and_comm, and_left_comm])
theorem sts_row (z : ESz) : Row (words 0x1A (z.enc.toNat + 8))
    fun x : Guard × Src 64 × Src 64 × Src 128 => .sts x.1 z x.2.1 x.2.2.1 x.2.2.2 :=
  .formA (D := fun w => mod0 w (dst0 w ((Fld.pure Instr.sts).ap (gW w) |>.ap (.pure z) |>.ap (decS 64 (fA w))
      |>.ap (decS 64 (fB w)) |>.ap (decSrc 128 (fC w)))))
    (fun x => x.2.1.noStream && x.2.2.1.noStream) ⟨by decide, by omega, opcodeV_one_append⟩ (fun _ => rfl) (fun _ => rfl)
    (fun w _ => by rw [decMajor, dec1A, if_neg (Nat.not_lt.2 (Nat.le_add_left ..)), decESz_eq_some.2
        (Nat.add_sub_cancel ..)]; rfl)
    (fun _ => rfl) (fun _ => ⟨(_, _, _, _), rfl⟩) (fun _ _ => by simp [and_assoc, and_comm, and_left_comm])
theorem ldx_row (z : ESz) : Row (words 0x1B z.enc.toNat)
    fun x : Guard × Dst 128 × Src 64 × Src 128 => .ldx x.1 z x.2.1 x.2.2.1 x.2.2.2 :=
  .formA (fun x => x.2.2.1.noStream) ⟨by decide, by omega, opcodeV_zero_append⟩ (fun _ => rfl) (fun _ => rfl)
    (fun _ _ => (if_pos z.enc.isLt).trans (congrArg (Option.map _) (decESz_eq_some.2 rfl))) (fun _ => rfl)
    (fun _ => ⟨(_, _, _, _), rfl⟩) (fun _ _ => by simp [and_assoc, and_comm, and_left_comm])
theorem stx_row (z : ESz) : Row (words 0x1B (z.enc.toNat + 8))
    fun x : Guard × Src 64 × Src 128 × Src 128 => .stx x.1 z x.2.1 x.2.2.1 x.2.2.2 :=
  .formA (D := fun w => mod0 w (dst0 w (((Fld.pure Instr.stx).ap (gW w) |>.ap (.pure z) |>.ap (decS 64 (fA w))
      |>.ap (decSrc 128 (fB w)) |>.ap (decSrc 128 (fC w))).illIf
        ((decSrc 128 (fB w)).val.isReg && (decSrc 128 (fC w)).val.isReg))))
    (fun x => x.2.1.noStream && !(x.2.2.1.isReg && x.2.2.2.isReg)) ⟨by decide, by omega, opcodeV_one_append⟩ (fun _
        => rfl) (fun _ => rfl)
    (fun w _ => by rw [decMajor, dec1B, if_neg (Nat.not_lt.2 (Nat.le_add_left ..)), decESz_eq_some.2
        (Nat.add_sub_cancel ..)]; rfl)
    (fun _ => rfl) (fun _ => ⟨(_, _, _, _), rfl⟩) (fun w ⟨g, a, b, c⟩ => by
      have hval : (decSrc 128 (fB w)).gives b ∧ (decSrc 128 (fC w)).gives c →
          (decSrc 128 (fB w)).val = b ∧ (decSrc 128 (fC w)).val = c := And.imp Fld.gives.val_eq Fld.gives.val_eq
      simp at hval ⊢
      grind)

theorem ldg_row : Row (majorWords 0x1C) Instr.ldg :=
  .of_option (fun _ => rfl) (fun _ _ _ => rfl) fun w x => by
    change _ ↔ x.d.isReg = true ∧ some (encLG (opcodeV 0x1C (lxBit x.lease ++ x.d.encSize)) x) = some w
    have hlt := opcMinor_lt w
    rw [Option.some_inj, encLG, formM_eq_iff, fOpc_eq_iff_toNat (by decide), toNat_lxBit_append, accepts_dLG,
        dLease_gives,
      majorWords]
    grind
theorem ldgG_row : Row (majorWords 0x1D) Instr.ldgG :=
  .of_option (fun _ => rfl) (fun _ _ _ => rfl) fun w x => by
    change _ ↔ x.d.isReg = true ∧ some (encLG (opcodeV 0x1D (lxBit x.lease ++ x.d.encSize)) x) = some w
    have hlt := opcMinor_lt w
    rw [Option.some_inj, encLG, formM_eq_iff, fOpc_eq_iff_toNat (by decide), toNat_lxBit_append, accepts_dLG,
        dLease_gives,
      majorWords]
    grind
theorem stg_row : Row (majorWords 0x1E) Instr.stg :=
  .of_option (fun _ => rfl) (fun _ _ _ => rfl) fun w x => by
    change _ ↔ x.a.ok = true ∧ some (encSG (opcodeV 0x1E (lxBit x.lease ++ x.a.encSize)) x) = some w
    have hlt := opcMinor_lt w
    rw [Option.some_inj, encSG, formM_eq_iff, fOpc_eq_iff_toNat (by decide), toNat_lxBit_append, accepts_dSG,
        dLease_gives,
      majorWords]
    grind
theorem ite_eq_some {α : Type} {b : Bool} {a c : α} : (if b = true then some a else none) = some c ↔ b = true ∧ a = c
    := by
  cases b <;> simp

theorem ldc_row : Row (majorWords 0x1F (· < 8)) Instr.ldc :=
  .of_option (fun _ => rfl) (fun _ _ h => if_pos h) fun w x => by
    change _ ↔ x.d.isReg = true ∧
      (if x.lease.isNone = true then some (encLG (opcodeV 0x1F (0#1 ++ x.d.encSize)) x) else none) = some w
    have hlt := x.d.encSize.isLt
    rw [ite_eq_some, encLG, formM_eq_iff, fOpc_eq_iff_toNat (by decide), toNat_zero_append, accepts_dLG, noLease,
      dLease_gives, majorWords]
    cases hl : x.lease <;> simp [leaseBits]
    grind
theorem stc_row : Row (majorWords 0x1F (¬ · < 8)) Instr.stc :=
  .of_option (fun _ => rfl) (fun _ _ h => if_neg h) fun w x => by
    change _ ↔ x.a.ok = true ∧
      (if x.lease.isNone = true then some (encSG (opcodeV 0x1F (1#1 ++ x.a.encSize)) x) else none) = some w
    have hlt := x.a.encSize.isLt
    rw [ite_eq_some, encSG, formM_eq_iff, fOpc_eq_iff_toNat (by decide), toNat_one_append, accepts_dSG, noLease,
      dLease_gives, majorWords]
    cases hl : x.lease <;> simp [leaseBits]
    grind

theorem smap_row : Row (words 0x20 0) fun x : Guard × Src 64 × Src 64 × Fin 7 => .smap x.1 x.2.1 x.2.2.1 x.2.2.2 :=
  .formA (fun x => x.2.1.noStream && x.2.2.1.noStream) ⟨by decide, by decide, rfl⟩ (fun _ => rfl) (fun _ => rfl) (fun
      _ _ => rfl) (fun _ => rfl) (fun _ => ⟨(_, _, _, _), rfl⟩)
    fun w ⟨g, a, b, z⟩ => by
      have hsize : ∀ (c : BitVec 5) (z : Fin 7), (Fin.ofNat 7 (c.extractLsb' 0 3).toNat = z ∧
          (c.extractLsb' 0 3 == 7) = false) ∧ (c.extractLsb' 3 2 != 0) = false ↔ c = BitVec.ofNat 5 z.val := by decide
      rw [dst0_gives, c0_gives, gives_illIf, gives_illIf, ap4_gives (by simp), gives_pure, ← hsize, decS_gives (by
          decide), decS_gives (by decide), gW_gives, Bool.and_eq_true]
      tauto
theorem sunmap_row : Row (words 0x20 1) fun x : Guard × Src 64 => .sunmap x.1 x.2 :=
  .formA (fun x => x.2.noStream) ⟨by decide, by decide, rfl⟩ (fun _ => rfl) (fun _ => rfl) (fun _ _ => rfl) (fun _ =>
      rfl) (fun _ => ⟨(_, _), rfl⟩) fun _ _ => by
    simp [and_assoc, and_comm, and_left_comm]
theorem sflush_row : Row (words 0x20 2) fun x : Guard × MAddr × Fin 8 × Fin 16 => .sflush x.1 x.2.1 x.2.2.1 x.2.2.2 :=
  .formM (fun _ => true) ⟨by decide, by decide, rfl⟩ (fun _ => rfl) (fun _ => rfl) (fun _ _ => rfl) (fun _ => rfl)
      (fun _ => ⟨(_, _, _, _), rfl⟩) fun _ _ => by
    simp [and_assoc, and_comm, and_left_comm]
theorem sdrop_row : Row (words 0x20 3) fun x : Guard × Src 64 => .sdrop x.1 x.2 :=
  .formA (fun x => x.2.noStream) ⟨by decide, by decide, rfl⟩ (fun _ => rfl) (fun _ => rfl) (fun _ _ => rfl) (fun _ =>
      rfl) (fun _ => ⟨(_, _), rfl⟩) fun _ _ => by
    simp [and_assoc, and_comm, and_left_comm]

theorem qbind_row : Row (words 0x21 0) fun x : Guard × Fin 8 × MAddr => .qbind x.1 x.2.1 x.2.2 :=
  .formM (fun _ => true) ⟨by decide, by decide, rfl⟩ (fun _ => rfl) (fun _ => rfl) (fun _ _ => rfl) (fun _ => rfl)
      (fun _ => ⟨(_, _, _), rfl⟩) fun _ _ => by
    simp [and_assoc, and_comm, and_left_comm]
theorem qunbind_row : Row (words 0x21 1) fun x : Guard × Fin 8 => .qunbind x.1 x.2 :=
  .formA (fun _ => true) ⟨by decide, by decide, rfl⟩ (fun _ => rfl) (fun _ => rfl) (fun _ _ => rfl) (fun _ => rfl)
      (fun _ => ⟨(_, _), rfl⟩) fun _ _ => by
    simp [and_assoc, and_comm, and_left_comm]
theorem qstat_row : Row (words 0x21 2) fun x : Guard × Dst 64 × Fin 8 => .qstat x.1 x.2.1 x.2.2 :=
  .formA (fun x => x.2.1.noStream) ⟨by decide, by decide, rfl⟩ (fun _ => rfl) (fun _ => rfl) (fun _ _ => rfl) (fun _
      => rfl) (fun _ => ⟨(_, _, _), rfl⟩) fun _ _ => by
    simp [and_assoc, and_comm, and_left_comm]
theorem qflush_row : Row (words 0x21 3) fun x : Guard × Fin 8 => .qflush x.1 x.2 :=
  .formA (fun _ => true) ⟨by decide, by decide, rfl⟩ (fun _ => rfl) (fun _ => rfl) (fun _ _ => rfl) (fun _ => rfl)
      (fun _ => ⟨(_, _), rfl⟩) fun _ _ => by
    simp [and_assoc, and_comm, and_left_comm]

/-! ### Atomics (R312 to R315) -/

/-- The major of an atomic (R109). -/
def atomMajor (ord : Bool) (z : ASz) : Nat := (if ord then 0x24 else 0x22) + if z == .d then 1 else 0

/-- The atomics, without and with an order. -/
def atomicInstr (ord : Bool) (op : AOp) : AT → Instr := if ord then Instr.atomicOrd op else atomicOf op

theorem atomicInstr_inj {ord : Bool} {op : AOp} {x y : AT} : atomicInstr ord op x = atomicInstr ord op y ↔ x = y := by
  cases ord <;> cases op <;> simp [atomicInstr, atomicOf]
theorem encode_atomicInstr {ord : Bool} {op : AOp} {x : AT} : encode (atomicInstr ord op x) = some (encAT ord op x) := by
  cases ord <;> cases op <;> rfl
theorem wellFormed_atomicInstr {ord : Bool} {op : AOp} {x : AT} : (atomicInstr ord op x).wellFormed = x.ok op := by
  cases ord <;> cases op <;> rfl
theorem family_atomicInstr {ord : Bool} {op : AOp} {x : AT} : family (atomicInstr ord op x) = .memory := by
  cases ord <;> cases op <;> rfl
theorem encAT_mk {ord : Bool} {op : AOp} {z : ASz} {g : Guard} {r : Fin 64} {m : MAddr} {t : Fin 8} :
    encAT ord op ⟨g, z, r, m, t⟩ =
      formM (opcodeV (atomMajor ord z) op.enc) g.enc (opnd 0 r.val) m.enc m.off (e3 t) 0 0 := rfl
theorem decMajor_atomMajor {ord : Bool} {z : ASz} {op : AOp} {w : SlotWord} :
    decMajor (atomMajor ord z) op.enc.toNat w =
      if op == .fadd && z == .d then none else some ((dAT op z w).map (atomicInstr ord op)) := by
  have hd : decMajor (atomMajor ord z) op.enc.toNat w = decAtom z ord op.enc.toNat w := by cases ord <;> cases z <;> rfl
  rw [hd, decAtom, decAOp_eq_some.2 rfl]
  rfl

theorem atom_row (ord : Bool) (op : AOp) (z : ASz) : Row (words (atomMajor ord z) op.enc.toNat)
    fun x : Guard × Fin 64 × MAddr × Fin 8 => atomicInstr ord op ⟨x.1, z, x.2.1, x.2.2.1, x.2.2.2⟩ := by
  have hM : atomMajor ord z < 64 := by cases ord <;> cases z <;> decide
  have hread {w : SlotWord} (h : atOpcode (atomMajor ord z) op.enc.toNat w) (i : Instr) : reads w i ↔
      (op == .fadd && z == .d) = false ∧ ∃ x, (dAT op z w).gives x ∧ atomicInstr ord op x = i := by
    rw [reads_iff h, decMajor_atomMajor, ← map_gives_iff]
    cases op == .fadd && z == .d <;> simp
  refine .of_reads (fun w h => h.1.1) (fun x => ?_) (fun w i h hr => ?_) fun w ⟨g, r, m, t⟩ => ?_
  · rw [family_atomicInstr]
    cases ord <;> cases z <;> rfl
  · obtain ⟨-, x, hx, rfl⟩ := (hread h.1 i).1 hr
    exact ⟨(x.g, x.r, x.m, x.tok), by rw [← hx.val_eq]; rfl⟩
  · rw [encode_atomicInstr, wellFormed_atomicInstr, Option.some_inj, encAT_mk, formM_eq_iff, opcodeV_eq,
      fOpc_eq_iff hM op.enc.isLt, AT.ok, words, and_assoc, true_and]
    change atOpcode _ _ w ∧ _ ↔ _ ∧ atOpcode _ _ w ∧ _
    have hz : (op == .fadd && z == .d) = false ↔ (op != .fadd || z == .w) = true := by cases z <;> simp
    have hg := dAT_gives (op := op) (z := z) (w := w) (g := g) (r := r) (m := m) (t := t)
    constructor
    · rintro ⟨h, hr⟩
      simp only [hread h, atomicInstr_inj, exists_eq_right, hg] at hr
      grind
    · rintro ⟨hok, h, hl⟩
      simp only [hread h, atomicInstr_inj, exists_eq_right, hg]
      grind

/-! ### Synchronisation and prefetch (R316 to R323) -/

/-- ACQ's destination field (R316): `r(dst)` or a null. -/
theorem acqDst_gives {c : BitVec 9} {d : Option (Fin 64)} :
    (if kindOf c = 3 then (Fld.pure none).resIf (idxOf c != 0) else (decReg 64 c).map some).gives d ↔
      c = d.elim (opnd 3 0) fun r => opnd 0 r.val := by
  cases d with
  | none =>
    rw [Option.elim_none, eq_opnd_iff (by decide) (by decide)]
    split <;> simp [*, map_gives_iff]
  | some r =>
    rw [Option.elim_some, eq_opnd_iff (by decide) (by omega)]
    split <;> simp [*, eq_opnd_iff (k := 0) (i := r.val) (by decide) (by omega)]
theorem acq_row : Row (words 0x26 0) fun x : Guard × Option (Fin 64) × MAddr × Fin 8 => .acq x.1 x.2.1 x.2.2.1 x.2.2.2 :=
  .formM (g := fun x => x.1.enc) (d := fun x => x.2.1.elim (opnd 3 0) fun r => opnd 0 r.val) (base := fun x =>
      x.2.2.1.enc)
    (off := fun x => x.2.2.1.off) (tok := fun x => e3 x.2.2.2) (lease := fun _ => 0) (buf := fun _ => 0) (fun _ =>
        true) ⟨by decide, by decide, rfl⟩ (fun _ => rfl) (fun _ => rfl) (fun _ _ => rfl)
    (fun ⟨_, d, _, _⟩ => by cases d <;> rfl) (fun _ => ⟨(_, _, _, _), rfl⟩) fun w ⟨g, d, m, t⟩ => by
      simp [acqDst_gives, and_assoc, and_comm, and_left_comm]
theorem rel_row : Row (words 0x26 1) Instr.rel := .of_shape shapeRL (by decide) (fun _ => rfl) (fun _ => rfl) (fun _
    => rfl) fun _ => rfl
theorem relf_row : Row (words 0x26 2) Instr.relf := .of_shape shapeRL (by decide) (fun _ => rfl) (fun _ => rfl) (fun
    _ => rfl) fun _ => rfl
theorem fence_row : Row (words 0x26 3) fun x : Guard × Fin 8 => .fence x.1 x.2 :=
  .formM (fun _ => true) ⟨by decide, by decide, rfl⟩ (fun _ => rfl) (fun _ => rfl) (fun _ _ => rfl) (fun _ => rfl)
      (fun _ => ⟨(_, _), rfl⟩) fun _ _ => by
    simp [and_assoc, and_comm, and_left_comm]
theorem fencex_row : Row (words 0x26 4) fun x : Guard × Fin 8 => .fencex x.1 x.2 :=
  .formM (fun _ => true) ⟨by decide, by decide, rfl⟩ (fun _ => rfl) (fun _ => rfl) (fun _ _ => rfl) (fun _ => rfl)
      (fun _ => ⟨(_, _), rfl⟩) fun _ _ => by
    simp [and_assoc, and_comm, and_left_comm]
theorem cwaddAdd_row : Row (words 0x26 5) Instr.cwaddAdd := .of_shape shapeCW (by decide) (fun _ => rfl) (fun _ =>
    rfl) (fun _ => rfl) fun _ => rfl
theorem waitcw_row : Row (words 0x26 6) fun x : Guard × Fin 64 × MAddr => .waitcw x.1 x.2.1 x.2.2 :=
  .formM (fun _ => true) ⟨by decide, by decide, rfl⟩ (fun _ => rfl) (fun _ => rfl) (fun _ _ => rfl) (fun _ => rfl)
      (fun _ => ⟨(_, _, _), rfl⟩) fun _ _ => by
    simp [and_assoc, and_comm, and_left_comm]
theorem pf_row : Row (majorWords 0x26 fun m => m = 7 ∨ m = 15)
    fun x : Guard × MAddr × Option (Fin 8) × Fin 16 => .pf x.1 x.2.1 x.2.2.1 x.2.2.2 := by
  have hread {w : SlotWord} (h : majorWords 0x26 (fun m => m = 7 ∨ m = 15) w) (i : Instr) : reads w i ↔
      (dst0 w (tok0 w ((Fld.pure Instr.pf).ap (gW w) |>.ap (dM w) |>.ap (dLease (decide (8 ≤ opcMinor w)) w)
        |>.ap (bufW w)))).gives i := by
    obtain ⟨hM, hm | hm⟩ := h <;> rw [reads_iff ⟨hM, hm⟩, hm, ← accepts_some] <;> rfl
  refine .of_reads (fun _ h => h.1) (fun _ => rfl) (fun w i h hr => ⟨(_, _, _, _), ((hread h i).1 hr).val_eq⟩)
    fun w ⟨g, m, l, u⟩ => ?_
  change _ ↔ true = true ∧ some (formM (opcodeV 0x26 (lxBit l ++ 7#3)) g.enc 0 m.enc m.off 0 (leaseBits l) (e4 u)) =
      some w
  have hlt := opcMinor_lt w
  have hm : opcMinor w = 7 ∨ opcMinor w = 15 ↔ opcMinor w % 8 = (7#3).toNat := by simp; omega
  rw [Option.some_inj, formM_eq_iff, fOpc_eq_iff_toNat (by decide), toNat_lxBit_append, majorWords, ← hm]
  constructor
  · rintro ⟨h, hr⟩
    simp [hread h, dLease_gives] at hr
    grind
  · rintro ⟨-, ⟨hM, hm, hl⟩, hf⟩
    simp [hread ⟨hM, hm⟩, dLease_gives]
    grind

theorem op27_row {m : Nat} {f : EC → Instr} (h : op27 m = some f) : Row (words 0x27 m) f := by
  unfold op27 at h
  split at h <;> cases h
  all_goals exact .of_shape shapeEC (by decide) (fun _ => rfl) (fun _ => rfl) (fun _ => rfl) fun _ => rfl

end Sys2Proof

namespace Sys2Proof
open Machine

/-! ## The whole opcode map -/

/-- The words of an opcode read as nothing but well-formed instructions whose encodings they are. -/
def Sound (M m : Nat) : Prop := ∀ w i, atOpcode M m w → reads w i → isEncoding w i

section
variable {α β : Type} {M m : Nat} {f : α → Instr} {g : β → Instr}

theorem Row.soundAt (h : Row (words M m) f) : Sound M m := fun w i ho => h.sound w i ⟨ho, trivial⟩
theorem Row.soundAt_or {p : SlotWord → Prop} (h : Row (words M m p) f) (h' : Row (words M m fun w => ¬ p w) g) :
    Sound M m := fun w i ho => by
  by_cases hp : p w
  · exact h.sound w i ⟨ho, hp⟩
  · exact h'.sound w i ⟨ho, hp⟩
theorem Row.soundAt_minor {sel : Nat → Prop} (h : Row (majorWords M sel) f) (hm : sel m) : Sound M m :=
  fun w i ho => h.sound w i ⟨ho.1, ho.2 ▸ hm⟩

theorem sound_of_none (h : ∀ w, decMajor M m w = none) : Sound M m := fun w _ ho hr =>
  absurd (h w ▸ (reads_iff ho).1 hr) accepts_none

/-- A minor that a table `t` turns into a row, or leaves unassigned. -/
theorem sound_of_table {t : Option α} (hnone : t = none → ∀ w, decMajor M m w = none)
    (hsome : ∀ x, t = some x → Sound M m) : Sound M m := by
  cases h : t with
  | none => exact sound_of_none (hnone h)
  | some x => exact hsome x h

end

/-! The opcodes of each major. -/

theorem sound00 : ∀ m, Sound 0x00 m
  | 0 => br_row.soundAt
  | 1 => call_row.soundAt
  | 2 => bri_row.soundAt
  | 3 => calli_row.soundAt
  | 4 => ret_row.soundAt
  | _ + 5 => sound_of_none fun _ => rfl
theorem sound01 : ∀ m, Sound 0x01 m
  | 0 => lsetup_row.soundAt
  | 1 => loop_row.soundAt
  | 2 => loopx_row.soundAt
  | _ + 3 => sound_of_none fun _ => rfl
theorem sound02 : ∀ m, Sound 0x02 m
  | 0 => ckpt_row.soundAt
  | 1 => commit_row.soundAt
  | 2 => check_row.soundAt
  | 3 => abort_row.soundAt
  | 4 => gclr_row.soundAt
  | _ + 5 => sound_of_none fun _ => rfl
theorem sound03 : ∀ m, Sound 0x03 m
  | 0 => trap_row.soundAt
  | 1 => bkpt_row.soundAt
  | 2 => halt_row.soundAt
  | _ + 3 => sound_of_none fun _ => rfl
theorem sound04 : ∀ m, Sound 0x04 m
  | 0 => srd_row.soundAt
  | 1 => swr_row.soundAt
  | _ + 2 => sound_of_none fun _ => rfl
theorem sound05 : ∀ m, Sound 0x05 m
  | 0 => tswait_row.soundAt
  | 1 => iflushAll_row.soundAt_or iflush_row
  | _ + 2 => sound_of_none fun _ => rfl

theorem sound08 (m : Nat) : Sound 0x08 m :=
  sound_of_table (fun h _ => congrArg (Option.map _) h) fun _ h => (op08_row h).soundAt
theorem sound09 : ∀ m, Sound 0x09 m
  | 0 => clz_row.soundAt
  | 1 => ctz_row.soundAt
  | 2 => popc_row.soundAt
  | 3 => brev_row.soundAt
  | 4 => sxt_row.soundAt
  | 5 => zxt_row.soundAt
  | 6 => mov_row.soundAt
  | 7 => sel_row.soundAt
  | 8 => lea_row.soundAt
  | 9 => bfx_row.soundAt
  | 10 => bfi_row.soundAt
  | _ + 11 => sound_of_none fun _ => rfl
theorem sound0A (m : Nat) : Sound 0x0A m :=
  sound_of_table (fun h _ => congrArg (Option.map _) h) fun _ h => (op0A_row h).soundAt
theorem sound0B : ∀ m, Sound 0x0B m
  | 0 => addi_row.soundAt
  | _ + 1 => sound_of_none fun _ => rfl
theorem sound0C : ∀ m, Sound 0x0C m
  | 0 => movi_row.soundAt
  | 1 => movhi_row.soundAt
  | _ + 2 => sound_of_none fun _ => rfl
theorem sound0D (m : Nat) : Sound 0x0D m :=
  sound_of_table (fun h _ => congrArg (Option.map _) h) fun cc h => decCC_eq_some.1 h ▸ (cmp_row cc).soundAt
theorem sound0E (m : Nat) : Sound 0x0E m :=
  sound_of_table (fun h _ => congrArg (Option.map _) h) fun cc h => decCC_eq_some.1 h ▸ (cmpImm_row cc).soundAt
theorem sound0F : ∀ m, Sound 0x0F m
  | 0 => pand_row.soundAt
  | 1 => por_row.soundAt
  | 2 => pxor_row.soundAt
  | 3 => pandn_row.soundAt
  | 4 => pnot_row.soundAt
  | 5 => pfroms_row.soundAt
  | 6 => ptos_row.soundAt
  | _ + 7 => sound_of_none fun _ => rfl

theorem sound18 (m : Nat) : Sound 0x18 m := by
  by_cases h : m < 8
  · exact ld_row.soundAt_minor h
  · exact ldG_row.soundAt_minor h
theorem sound19 (m : Nat) : Sound 0x19 m := st_row.soundAt_minor trivial
/-- A minor below 8, or from 8 up, names a size. -/
theorem sound_of_size {M m : Nat} (hnone : m < 8 ∧ decESz m = none ∨ ¬ m < 8 ∧ decESz (m - 8) = none → ∀ w, decMajor
    M m w = none)
    (hlo : ∀ z : ESz, Sound M z.enc.toNat) (hhi : ∀ z : ESz, Sound M (z.enc.toNat + 8)) : Sound M m := by
  by_cases h : m < 8
  · exact sound_of_table (fun hz => hnone (.inl ⟨h, hz⟩)) fun z hz => decESz_eq_some.1 hz ▸ hlo z
  · refine sound_of_table (fun hz => hnone (.inr ⟨h, hz⟩)) fun z hz => ?_
    have hm : m = z.enc.toNat + 8 := by
      have := decESz_eq_some.1 hz
      omega
    exact hm ▸ hhi z
theorem sound1A (m : Nat) : Sound 0x1A m :=
  sound_of_size (fun h w => by rw [decMajor, dec1A]; obtain ⟨h, hz⟩ | ⟨h, hz⟩ := h <;> simp [h, hz])
    (fun z => (lds_row z).soundAt) fun z => (sts_row z).soundAt
theorem sound1B (m : Nat) : Sound 0x1B m :=
  sound_of_size (fun h w => by rw [decMajor, dec1B]; obtain ⟨h, hz⟩ | ⟨h, hz⟩ := h <;> simp [h, hz])
    (fun z => (ldx_row z).soundAt) fun z => (stx_row z).soundAt
theorem sound1C (m : Nat) : Sound 0x1C m := ldg_row.soundAt_minor trivial
theorem sound1D (m : Nat) : Sound 0x1D m := ldgG_row.soundAt_minor trivial
theorem sound1E (m : Nat) : Sound 0x1E m := stg_row.soundAt_minor trivial
theorem sound1F (m : Nat) : Sound 0x1F m := by
  by_cases h : m < 8
  · exact ldc_row.soundAt_minor h
  · exact stc_row.soundAt_minor h
theorem sound20 : ∀ m, Sound 0x20 m
  | 0 => smap_row.soundAt
  | 1 => sunmap_row.soundAt
  | 2 => sflush_row.soundAt
  | 3 => sdrop_row.soundAt
  | _ + 4 => sound_of_none fun _ => rfl
theorem sound21 : ∀ m, Sound 0x21 m
  | 0 => qbind_row.soundAt
  | 1 => qunbind_row.soundAt
  | 2 => qstat_row.soundAt
  | 3 => qflush_row.soundAt
  | _ + 4 => sound_of_none fun _ => rfl
theorem sound_atomMajor (ord : Bool) (z : ASz) (m : Nat) : Sound (atomMajor ord z) m := by
  refine sound_of_table (t := decAOp m) (fun h w => ?_) fun op h => decAOp_eq_some.1 h ▸ (atom_row ord op z).soundAt
  have hd : decMajor (atomMajor ord z) m w = decAtom z ord m w := by cases ord <;> cases z <;> rfl
  rw [hd, decAtom, h]
theorem sound26 : ∀ m, Sound 0x26 m
  | 0 => acq_row.soundAt
  | 1 => rel_row.soundAt
  | 2 => relf_row.soundAt
  | 3 => fence_row.soundAt
  | 4 => fencex_row.soundAt
  | 5 => cwaddAdd_row.soundAt
  | 6 => waitcw_row.soundAt
  | 7 => pf_row.soundAt_minor (.inl rfl)
  | 15 => pf_row.soundAt_minor (.inr rfl)
  | 8 | 9 | 10 | 11 | 12 | 13 | 14 | _ + 16 => sound_of_none fun _ => rfl
theorem sound27 (m : Nat) : Sound 0x27 m :=
  sound_of_table (fun h _ => congrArg (Option.map _) h) fun _ h => (op27_row h).soundAt

theorem sound28 : ∀ m, Sound 0x28 m
  | 0 => (op28_row rfl).soundAt
  | 1 => (op28_row rfl).soundAt
  | 2 => (op28_row rfl).soundAt
  | 3 => (op28_row rfl).soundAt
  | 4 => vmad_row.soundAt
  | 5 => (op28_row rfl).soundAt
  | 6 => (op28_row rfl).soundAt
  | 7 => (op28_row rfl).soundAt
  | 8 => (op28_row rfl).soundAt
  | 9 => vabs_row.soundAt
  | 10 => vneg_row.soundAt
  | _ + 11 => sound_of_none fun _ => rfl
theorem sound29 : ∀ m, Sound 0x29 m
  | 0 => (op29_row rfl).soundAt
  | 1 => (op29_row rfl).soundAt
  | 2 => (op29_row rfl).soundAt
  | 3 => (op29_row rfl).soundAt
  | 4 => (op29_row rfl).soundAt
  | 5 => (op29_row rfl).soundAt
  | 6 => vsra_row.soundAt
  | 7 => vsel_row.soundAt
  | _ + 8 => sound_of_none fun _ => rfl
theorem sound2A (m : Nat) : Sound 0x2A m :=
  sound_of_table (fun h _ => congrArg (Option.map _) h) fun cc h => decCC_eq_some.1 h ▸ (vcmp_row cc).soundAt
theorem sound2B : ∀ m, Sound 0x2B m
  | 0 => vbcast_row.soundAt
  | 1 => viota_row.soundAt
  | 2 => vextr_row.soundAt
  | 3 => vins_row.soundAt
  | 4 => vperm_row.soundAt
  | 5 => vslide_row.soundAt
  | 6 => vzip_row.soundAt
  | 7 => vunzip_row.soundAt
  | _ + 8 => sound_of_none fun _ => rfl
theorem sound2C (m : Nat) : Sound 0x2C m :=
  sound_of_table (fun h _ => congrArg (Option.map _) h) fun op h => decRed_eq_some.1 h ▸ (vred_row op).soundAt
/-- The first three reductions have the minors below 3 (R268, R275). -/
theorem sound_of_three {M m : Nat} (hnone : ¬ m < 3 → ∀ w, decMajor M m w = none)
    (hrow : ∀ op : RedOp, op.three = true → Sound M op.enc.toNat) : Sound M m := by
  match m with
  | 0 => exact hrow .add rfl
  | 1 => exact hrow .min rfl
  | 2 => exact hrow .max rfl
  | m + 3 => exact sound_of_none (hnone (by omega))
theorem sound2D (m : Nat) : Sound 0x2D m := sound_of_three (fun h _ => if_neg h) fun _ h => (vscan_row h).soundAt
theorem sound2E : ∀ m, Sound 0x2E m
  | 0 => vfadd_row.soundAt
  | 1 => vfsub_row.soundAt
  | 2 => vfmul_row.soundAt
  | 3 => vfma_row.soundAt
  | 4 => vfms_row.soundAt
  | 5 => vfnma_row.soundAt
  | 6 => vfmin_row.soundAt
  | 7 => vfmax_row.soundAt
  | 8 => vfabs_row.soundAt
  | 9 => vfneg_row.soundAt
  | 10 => vfclass_row.soundAt
  | _ + 11 => sound_of_none fun _ => rfl
theorem sound2F (m : Nat) : Sound 0x2F m :=
  sound_of_table (fun h _ => congrArg (Option.map _) h) fun cc h => decFCC_eq_some.1 h ▸ (vfcmp_row cc).soundAt
theorem sound30 : ∀ m, Sound 0x30 m
  | 0 => vfrcp_row.soundAt
  | 1 => vfrsq_row.soundAt
  | 2 => vfsqrt_row.soundAt
  | 3 => vexp2_row.soundAt
  | 4 => vlog2_row.soundAt
  | _ + 5 => sound_of_none fun _ => rfl
theorem sound31 (m : Nat) : Sound 0x31 m := sound_of_three (fun h _ => if_neg h) fun _ h => (vfred_row h).soundAt
theorem sound32 : ∀ m, Sound 0x32 m
  | 0 => vcvt_row.soundAt
  | 1 => vquantF_row.soundAt_or vquant_row
  | 2 => vdeq_row.soundAt
  | 3 => vamaxC_row.soundAt_or vamax_row
  | 4 => vpack_row.soundAt
  | 5 => vunpack_row.soundAt
  | _ + 6 => sound_of_none fun _ => rfl

theorem sound3C : ∀ m, Sound 0x3C m
  | 0 => mpush_row.soundAt
  | 1 => macc_row.soundAt
  | 2 => mshiftBank_row.soundAt_or mshiftEdge_row
  | 3 => mdrain_row.soundAt
  | 4 => mclr_row.soundAt
  | 5 => msel_row.soundAt
  | _ + 6 => sound_of_none fun _ => rfl

/-- Whatever a word reads as, the word is its encoding. -/
theorem isEncoding_of_reads {w : SlotWord} {i : Instr} (h : reads w i) : isEncoding w i := by
  have hr := (reads_iff ⟨rfl, rfl⟩).1 h
  unfold decMajor at hr
  split at hr
  next hM => exact sound00 _ w i ⟨hM, rfl⟩ h
  next hM => exact sound01 _ w i ⟨hM, rfl⟩ h
  next hM => exact sound02 _ w i ⟨hM, rfl⟩ h
  next hM => exact sound03 _ w i ⟨hM, rfl⟩ h
  next hM => exact sound04 _ w i ⟨hM, rfl⟩ h
  next hM => exact sound05 _ w i ⟨hM, rfl⟩ h
  next hM => exact sound08 _ w i ⟨hM, rfl⟩ h
  next hM => exact sound09 _ w i ⟨hM, rfl⟩ h
  next hM => exact sound0A _ w i ⟨hM, rfl⟩ h
  next hM => exact sound0B _ w i ⟨hM, rfl⟩ h
  next hM => exact sound0C _ w i ⟨hM, rfl⟩ h
  next hM => exact sound0D _ w i ⟨hM, rfl⟩ h
  next hM => exact sound0E _ w i ⟨hM, rfl⟩ h
  next hM => exact sound0F _ w i ⟨hM, rfl⟩ h
  next hM => exact sound18 _ w i ⟨hM, rfl⟩ h
  next hM => exact sound19 _ w i ⟨hM, rfl⟩ h
  next hM => exact sound1A _ w i ⟨hM, rfl⟩ h
  next hM => exact sound1B _ w i ⟨hM, rfl⟩ h
  next hM => exact sound1C _ w i ⟨hM, rfl⟩ h
  next hM => exact sound1D _ w i ⟨hM, rfl⟩ h
  next hM => exact sound1E _ w i ⟨hM, rfl⟩ h
  next hM => exact sound1F _ w i ⟨hM, rfl⟩ h
  next hM => exact sound20 _ w i ⟨hM, rfl⟩ h
  next hM => exact sound21 _ w i ⟨hM, rfl⟩ h
  next hM => exact sound_atomMajor false .w _ w i ⟨hM, rfl⟩ h
  next hM => exact sound_atomMajor false .d _ w i ⟨hM, rfl⟩ h
  next hM => exact sound_atomMajor true .w _ w i ⟨hM, rfl⟩ h
  next hM => exact sound_atomMajor true .d _ w i ⟨hM, rfl⟩ h
  next hM => exact sound26 _ w i ⟨hM, rfl⟩ h
  next hM => exact sound27 _ w i ⟨hM, rfl⟩ h
  next hM => exact sound28 _ w i ⟨hM, rfl⟩ h
  next hM => exact sound29 _ w i ⟨hM, rfl⟩ h
  next hM => exact sound2A _ w i ⟨hM, rfl⟩ h
  next hM => exact sound2B _ w i ⟨hM, rfl⟩ h
  next hM => exact sound2C _ w i ⟨hM, rfl⟩ h
  next hM => exact sound2D _ w i ⟨hM, rfl⟩ h
  next hM => exact sound2E _ w i ⟨hM, rfl⟩ h
  next hM => exact sound2F _ w i ⟨hM, rfl⟩ h
  next hM => exact sound30 _ w i ⟨hM, rfl⟩ h
  next hM => exact sound31 _ w i ⟨hM, rfl⟩ h
  next hM => exact sound32 _ w i ⟨hM, rfl⟩ h
  next hM => exact sound3C _ w i ⟨hM, rfl⟩ h
  next => exact absurd hr accepts_none

theorem vfred_three {op : RedOp} {g : Guard} {t : FTy} {r : Rnd} {d : Dst 64} {a : Src 128}
    (h : (Instr.vfred op g t r d a).wellFormed = true) : op.three = true := by
  change (op.three && _ && _) = true at h
  simp_all

/-! The encoding of each instruction of a class reads as it. -/

theorem reads_of_encode_control {w : SlotWord} {i : Instr} (hc : family i = .control) (hi : canon i = i) (hwf : i.wellFormed
    = true)
    (he : encode i = some w) : reads w i ∧ isEncoding w i := by
  cases i with
  | br g o => exact br_row.complete w (g, o) hwf he
  | call g l o => exact call_row.complete w (g, l, o) hwf he
  | bri g a => exact bri_row.complete w (g, a) hwf he
  | calli g d a => exact calli_row.complete w (g, d, a) hwf he
  | ret g a => exact ret_row.complete w (g, a) hwf he
  | lsetup k n o => exact lsetup_row.complete w (k, n, o) hwf he
  | loop k o => exact loop_row.complete w (k, o) hwf he
  | loopx k o => exact loopx_row.complete w (k, o) hwf he
  | ckpt x => exact ckpt_row.complete w x hwf he
  | commit => exact commit_row.complete w () hwf he
  | check x => exact check_row.complete w x hwf he
  | abort x => exact abort_row.complete w x hwf he
  | gclr x => exact gclr_row.complete w x hwf he
  | trap g c => exact trap_row.complete w (g, c) hwf he
  | bkpt g c => exact bkpt_row.complete w (g, c) hwf he
  | halt x => exact halt_row.complete w x hwf he
  | srd g d n p => exact srd_row.complete w (g, d, n, p) hwf he
  | swr g a n p => exact swr_row.complete w (g, a, n, p) hwf he
  | tswait x => exact tswait_row.complete w x hwf he
  | iflush x => exact iflush_row.complete w x hwf he
  | iflushAll => exact iflushAll_row.complete w () hwf he
  | _ => nomatch hc
theorem reads_of_encode_scalar {w : SlotWord} {i : Instr} (hc : family i = .scalar) (hi : canon i = i) (hwf : i.wellFormed =
    true)
    (he : encode i = some w) : reads w i ∧ isEncoding w i := by
  cases i with
  | add x => exact (op08_row (m := 0) rfl).complete w x hwf he
  | sub x => exact (op08_row (m := 1) rfl).complete w x hwf he
  | and x => exact (op08_row (m := 2) rfl).complete w x hwf he
  | or x => exact (op08_row (m := 3) rfl).complete w x hwf he
  | xor x => exact (op08_row (m := 4) rfl).complete w x hwf he
  | andn x => exact (op08_row (m := 5) rfl).complete w x hwf he
  | orn x => exact (op08_row (m := 6) rfl).complete w x hwf he
  | shl x => exact (op08_row (m := 7) rfl).complete w x hwf he
  | shr x => exact (op08_row (m := 8) rfl).complete w x hwf he
  | sra x => exact (op08_row (m := 9) rfl).complete w x hwf he
  | rotl x => exact (op08_row (m := 10) rfl).complete w x hwf he
  | rotr x => exact (op08_row (m := 11) rfl).complete w x hwf he
  | min x => exact (op08_row (m := 12) rfl).complete w x hwf he
  | max x => exact (op08_row (m := 13) rfl).complete w x hwf he
  | minn x => exact (op08_row (m := 14) rfl).complete w x hwf he
  | maxn x => exact (op08_row (m := 15) rfl).complete w x hwf he
  | clz x => exact clz_row.complete w x hwf he
  | ctz x => exact ctz_row.complete w x hwf he
  | popc x => exact popc_row.complete w x hwf he
  | brev x => exact brev_row.complete w x hwf he
  | sxt z x => exact sxt_row.complete w (z, x) hwf he
  | zxt z x => exact zxt_row.complete w (z, x) hwf he
  | mov x => exact mov_row.complete w x hwf he
  | sel x c => exact sel_row.complete w (x, c) hwf he
  | lea x k => exact lea_row.complete w (x, k) hwf he
  | bfx x => exact bfx_row.complete w x hwf he
  | bfi x => exact bfi_row.complete w x hwf he
  | mul x => exact (op0A_row (m := 0) rfl).complete w x hwf he
  | mulh x => exact (op0A_row (m := 1) rfl).complete w x hwf he
  | mulhn x => exact (op0A_row (m := 2) rfl).complete w x hwf he
  | div x => exact (op0A_row (m := 3) rfl).complete w x hwf he
  | divn x => exact (op0A_row (m := 4) rfl).complete w x hwf he
  | rem x => exact (op0A_row (m := 5) rfl).complete w x hwf he
  | remn x => exact (op0A_row (m := 6) rfl).complete w x hwf he
  | addi x n => exact addi_row.complete w (x, n) hwf he
  | movi g d n => exact movi_row.complete w (g, d, n) hwf he
  | movhi g d n => exact movhi_row.complete w (g, d, n) hwf he
  | cmp cc g d a b => exact (cmp_row cc).complete w (g, d, a, b) hwf he
  | cmpImm cc g d a n => exact (cmpImm_row cc).complete w (g, d, a, n) hwf he
  | pand x => exact pand_row.complete w x hwf he
  | por x => exact por_row.complete w x hwf he
  | pxor x => exact pxor_row.complete w x hwf he
  | pandn x => exact pandn_row.complete w x hwf he
  | pnot x => exact pnot_row.complete w x hwf he
  | pfroms g d a => exact pfroms_row.complete w (g, d, a) hwf he
  | ptos g d a => exact ptos_row.complete w (g, d, a) hwf he
  | _ => nomatch hc
theorem reads_of_encode_vector {w : SlotWord} {i : Instr} (hc : family i = .vector) (hi : canon i = i) (hwf : i.wellFormed =
    true)
    (he : encode i = some w) : reads w i ∧ isEncoding w i := by
  cases i with
  | vadd x => exact (op28_row (m := 0) rfl).complete w x hwf he
  | vsub x => exact (op28_row (m := 1) rfl).complete w x hwf he
  | vmul x => exact (op28_row (m := 2) rfl).complete w x hwf he
  | vmulh x => exact (op28_row (m := 3) rfl).complete w x hwf he
  | vadds x => exact (op28_row (m := 5) rfl).complete w x hwf he
  | vsubs x => exact (op28_row (m := 6) rfl).complete w x hwf he
  | vmin x => exact (op28_row (m := 7) rfl).complete w x hwf he
  | vmax x => exact (op28_row (m := 8) rfl).complete w x hwf he
  | vmad x => exact vmad_row.complete w x hwf he
  | vabs x => exact vabs_row.complete w x hwf he
  | vneg x => exact vneg_row.complete w x hwf he
  | vand x => exact (op29_row (m := 0) rfl).complete w x hwf he
  | vor x => exact (op29_row (m := 1) rfl).complete w x hwf he
  | vxor x => exact (op29_row (m := 2) rfl).complete w x hwf he
  | vandn x => exact (op29_row (m := 3) rfl).complete w x hwf he
  | vshl x => exact (op29_row (m := 4) rfl).complete w x hwf he
  | vshr x => exact (op29_row (m := 5) rfl).complete w x hwf he
  | vsra x => exact vsra_row.complete w x hwf he
  | vsel x c => exact vsel_row.complete w (x, c) hwf he
  | vcmp cc g t d a b => exact (vcmp_row cc).complete w (g, t, d, a, b) hwf he
  | vbcast x => exact vbcast_row.complete w x hwf he
  | viota x => exact viota_row.complete w x hwf he
  | vextr g t d a b => exact vextr_row.complete w (g, t, d, a, b) hwf he
  | vins g t d a b c => exact vins_row.complete w (g, t, d, a, b, c) hwf he
  | vperm x => exact vperm_row.complete w x hwf he
  | vslide x c => exact vslide_row.complete w (x, c) hwf he
  | vzip x => exact vzip_row.complete w x hwf he
  | vunzip x => exact vunzip_row.complete w x hwf he
  | vred op g t d a => exact (vred_row op).complete w (g, t, d, a) hwf he
  | vscan op x => exact (vscan_row hwf).complete w x hwf he
  | vfadd x => exact vfadd_row.complete w x hwf he
  | vfsub x => exact vfsub_row.complete w x hwf he
  | vfmul x => exact vfmul_row.complete w x hwf he
  | vfma x => exact vfma_row.complete w x hwf he
  | vfms x => exact vfms_row.complete w x hwf he
  | vfnma x => exact vfnma_row.complete w x hwf he
  | vfmin x => exact vfmin_row.complete w x hwf he
  | vfmax x => exact vfmax_row.complete w x hwf he
  | vfabs x => exact vfabs_row.complete w x hwf he
  | vfneg x => exact vfneg_row.complete w x hwf he
  | vfclass x => exact vfclass_row.complete w x hwf he
  | vfcmp cc g t d a b => exact (vfcmp_row cc).complete w (g, t, d, a, b) hwf he
  | vfrcp x => exact vfrcp_row.complete w x hwf he
  | vfrsq x => exact vfrsq_row.complete w x hwf he
  | vfsqrt x => exact vfsqrt_row.complete w x hwf he
  | vexp2 x => exact vexp2_row.complete w x hwf he
  | vlog2 x => exact vlog2_row.complete w x hwf he
  | vfred op g t r d a => exact (vfred_row (vfred_three hwf)).complete w (g, t, r, d, a) hwf he
  | vcvt x => exact vcvt_row.complete w x hwf he
  | vquant d a f nr k r => exact vquant_row.complete w (d, a, f, nr, k, r) hwf he
  | vquantF d a x k r => exact vquantF_row.complete w (d, a, x, k, r) hwf he
  | vdeq g d a f r => exact vdeq_row.complete w (g, d, a, f, r) hwf he
  | vamax g t a k => exact vamax_row.complete w (g, t, a, k) hwf he
  | vamaxC g k => exact vamaxC_row.complete w (g, k) hwf he
  | vpack x b => exact vpack_row.complete w (x, b) hwf he
  | vunpack x b => exact vunpack_row.complete w (x, b) hwf he
  | _ => nomatch hc
theorem reads_of_encode_memory {w : SlotWord} {i : Instr} (hc : family i = .memory) (hi : canon i = i) (hwf : i.wellFormed =
    true)
    (he : encode i = some w) : reads w i ∧ isEncoding w i := by
  cases i with
  | ld x => exact ld_row.complete w x hwf he
  | ldG x => exact ldG_row.complete w x hwf he
  | st g a m u => exact st_row.complete w (g, a, m, u) hwf he
  | lds g z d a b => exact (lds_row z).complete w (g, d, a, b) hwf he
  | sts g z a b c => exact (sts_row z).complete w (g, a, b, c) hwf he
  | ldx g z d a b => exact (ldx_row z).complete w (g, d, a, b) hwf he
  | stx g z a b c => exact (stx_row z).complete w (g, a, b, c) hwf he
  | ldg x => exact ldg_row.complete w x hwf he
  | ldgG x => exact ldgG_row.complete w x hwf he
  | stg x => exact stg_row.complete w x hwf he
  | ldc x => exact ldc_row.complete w x hwf he
  | stc x => exact stc_row.complete w x hwf he
  | pf g m l u => exact pf_row.complete w (g, m, l, u) hwf he
  | smap g a b z => exact smap_row.complete w (g, a, b, z) hwf he
  | sunmap g a => exact sunmap_row.complete w (g, a) hwf he
  | sdrop g a => exact sdrop_row.complete w (g, a) hwf he
  | sflush g m t u => exact sflush_row.complete w (g, m, t, u) hwf he
  | qbind g q m => exact qbind_row.complete w (g, q, m) hwf he
  | qunbind g q => exact qunbind_row.complete w (g, q) hwf he
  | qstat g d q => exact qstat_row.complete w (g, d, q) hwf he
  | qflush g q => exact qflush_row.complete w (g, q) hwf he
  | aadd x => exact (atom_row false .add x.z).complete w (x.g, x.r, x.m, x.tok) hwf he
  | amin x => exact (atom_row false .min x.z).complete w (x.g, x.r, x.m, x.tok) hwf he
  | amax x => exact (atom_row false .max x.z).complete w (x.g, x.r, x.m, x.tok) hwf he
  | aminn x => exact (atom_row false .minn x.z).complete w (x.g, x.r, x.m, x.tok) hwf he
  | amaxn x => exact (atom_row false .maxn x.z).complete w (x.g, x.r, x.m, x.tok) hwf he
  | aand x => exact (atom_row false .and x.z).complete w (x.g, x.r, x.m, x.tok) hwf he
  | aor x => exact (atom_row false .or x.z).complete w (x.g, x.r, x.m, x.tok) hwf he
  | axor x => exact (atom_row false .xor x.z).complete w (x.g, x.r, x.m, x.tok) hwf he
  | axchg x => exact (atom_row false .xchg x.z).complete w (x.g, x.r, x.m, x.tok) hwf he
  | acas x => exact (atom_row false .cas x.z).complete w (x.g, x.r, x.m, x.tok) hwf he
  | afadd x => exact (atom_row false .fadd x.z).complete w (x.g, x.r, x.m, x.tok) hwf he
  | atomicOrd op x => exact (atom_row true op x.z).complete w (x.g, x.r, x.m, x.tok) hwf he
  | acq g d m t => exact acq_row.complete w (g, d, m, t) hwf he
  | rel x => exact rel_row.complete w x hwf he
  | relf x => exact relf_row.complete w x hwf he
  | fence g t => exact fence_row.complete w (g, t) hwf he
  | fencex g t => exact fencex_row.complete w (g, t) hwf he
  | cwaddAdd x => exact cwaddAdd_row.complete w x hwf he
  | waitcw g r m => exact waitcw_row.complete w (g, r, m) hwf he
  | sscan x => exact (op27_row (m := 0) rfl).complete w x hwf he
  | cpy x => exact (op27_row (m := 1) rfl).complete w x hwf he
  | cpyr x => exact (op27_row (m := 2) rfl).complete w x hwf he
  | mcast x => exact (op27_row (m := 3) rfl).complete w x hwf he
  | gath x => exact (op27_row (m := 4) rfl).complete w x hwf he
  | scat x => exact (op27_row (m := 5) rfl).complete w x hwf he
  | coll x => exact (op27_row (m := 6) rfl).complete w x hwf he
  | gnode x => exact (op27_row (m := 7) rfl).complete w x hwf he
  | cwaddArrive | cwaddRead => nomatch hi
  | _ => nomatch hc
theorem reads_of_encode_matrix {w : SlotWord} {i : Instr} (hc : family i = .matrix) (hi : canon i = i) (hwf : i.wellFormed =
    true)
    (he : encode i = some w) : reads w i ∧ isEncoding w i := by
  cases i with
  | mpush g k a => exact mpush_row.complete w (g, k, a) hwf he
  | macc g k c f a b => exact macc_row.complete w (g, k, c, f, a, b) hwf he
  | mshiftEdge g a => exact mshiftEdge_row.complete w (g, a) hwf he
  | mshiftBank g k => exact mshiftBank_row.complete w (g, k) hwf he
  | mdrain g d k t r n => exact mdrain_row.complete w (g, d, k, t, r, n) hwf he
  | mclr g k c => exact mclr_row.complete w (g, k, c) hwf he
  | msel g d a x => exact msel_row.complete w (g, d, a, x) hwf he
  | _ => nomatch hc

end Sys2Proof

namespace Sys2Proof
open Machine

/-! ## What a slot accepts (R117, R442) -/

theorem decodeSlot_eq_ok {feat : BitVec 6} {k : Nat} {w : SlotWord} {i : Instr} :
    decodeSlot feat k w = .ok i ↔ majorInSlot k (opcMajor w) = true ∧ reads w i ∧ featAllows feat i = true := by
  change (if majorInSlot k (opcMajor w) = true then _ else _) = _ ↔ _
  split
  case isTrue h =>
    rw [reads]
    cases decodeOp w with
    | none => simp
    | some f => simp [h, result_eq_ok, gives_illIf_val fun i => !featAllows feat i]
  case isFalse h => simp [h]

theorem opcMajor_lt (w : SlotWord) : opcMajor w < 64 := ((fOpc w).extractLsb' 4 6).isLt

theorem majorInSlot_iff {k M : Nat} (hk : k < 8) (hM : M < 64) : majorInSlot k M = true ↔ k ∈ slotsOf (classOf M) := by
  have h : ∀ k < 8, ∀ M < 64, majorInSlot k M = true ↔ k ∈ slotsOf (classOf M) := by decide
  exact h k hk M hM

theorem slotsOf_lt {c : Family} {k : Nat} (h : k ∈ slotsOf c) : k < 8 := by
  revert h
  cases c <;> simp [slotsOf] <;> omega

/-! ## One encoding for the three rows of CWADD (R321) -/

theorem canon_canon (i : Instr) : canon (canon i) = canon i := by
  cases i <;> rfl
theorem encode_canon (i : Instr) : encode (canon i) = encode i := by
  cases i <;> rfl
theorem wellFormed_canon (i : Instr) : (canon i).wellFormed = i.wellFormed := by
  cases i <;> rfl
theorem family_canon (i : Instr) : family (canon i) = family i := by
  cases i <;> rfl
theorem featAllows_canon (feat : BitVec 6) (i : Instr) : featAllows feat (canon i) = featAllows feat i := by
  cases i <;> rfl

/-! ## Every instruction of a class has a word -/

theorem isSome_encode (i : Instr) : (encode i).isSome = (family i != .event && noLeaseField i) := by
  cases i with
  | ldc x =>
    obtain ⟨g, d, m, t, l, u⟩ := x
    cases l <;> rfl
  | stc x =>
    obtain ⟨g, a, m, t, l, u⟩ := x
    cases l <;> rfl
  | _ => rfl

theorem reads_of_encode {w : SlotWord} {i : Instr} (hf : family i ≠ .event) (hi : canon i = i) (hwf : i.wellFormed = true)
    (he : encode i = some w) : reads w i ∧ isEncoding w i := by
  cases hc : family i with
  | control => exact reads_of_encode_control hc hi hwf he
  | scalar => exact reads_of_encode_scalar hc hi hwf he
  | vector => exact reads_of_encode_vector hc hi hwf he
  | memory => exact reads_of_encode_memory hc hi hwf he
  | matrix => exact reads_of_encode_matrix hc hi hwf he
  | event => exact absurd hc hf

theorem roundTrips_of_ne {c : Family} (hc : c ≠ .event) : roundTrips c := by
  rintro i feat rfl hwf hfeat hl
  obtain ⟨w, he⟩ : ∃ w, encode i = some w :=
    Option.isSome_iff_exists.1 (by rw [isSome_encode, hl, Bool.and_true]; exact bne_iff_ne.2 hc)
  obtain ⟨hr, -, -, hclass⟩ := reads_of_encode (i := canon i) (family_canon i ▸ hc) (canon_canon i) (wellFormed_canon i ▸ hwf)
    (encode_canon i ▸ he)
  refine ⟨w, he, fun k hk => decodeSlot_eq_ok.2 ⟨?_, hr, featAllows_canon feat i ▸ hfeat⟩⟩
  rw [majorInSlot_iff (slotsOf_lt hk) (opcMajor_lt w), ← hclass, family_canon]
  exact hk

/-- Settles O17: an instruction's word is a row of the opcode map, which reads as the instruction. -/
theorem controlScalarMatrixRoundTrip : Obligations.ControlScalarMatrixRoundTrip :=
  ⟨⟨roundTrips_of_ne (by decide), roundTrips_of_ne (by decide)⟩, roundTrips_of_ne (by decide)⟩

/-- Settles O18: an instruction's word is a row of the opcode map, which reads as the instruction. -/
theorem vectorMemoryRoundTrip : Obligations.VectorMemoryRoundTrip :=
  ⟨roundTrips_of_ne (by decide), roundTrips_of_ne (by decide)⟩

/-- Settles O19: what a word reads as has that word as its encoding, in the class of the word's major. -/
theorem acceptedWordsAreCanonical : Obligations.AcceptedWordsAreCanonical := by
  intro feat k w i hk h
  obtain ⟨hmaj, hr, hfeat⟩ := decodeSlot_eq_ok.1 h
  obtain ⟨hwf, he, hclass⟩ := isEncoding_of_reads hr
  exact ⟨hwf, hfeat, hclass ▸ (majorInSlot_iff hk (opcMajor_lt w)).1 hmaj, he⟩

end Sys2Proof

namespace Sys2Proof.Machine

/-! ## Scalar compares and predicate operations (R107, R261, R262) -/

/-- A guarded operation that puts one predicate result in flight. -/
theorem givesP_of_exec {i : Instr} {s : State} {g : Guard} {lat : Nat} {d : Dst 16} {mask : BitVec 32} {fl : BitVec 6}
    (f : State → Pred) (h : plain s) (hg : guardOn s g = true)
    (hi : exec i s = whenOn g (fun s => emitP lat d mask (f s) fl s) s) : givesP i s s lat d mask (f s) fl := by
  rw [givesP, hi, whenOn_on _ hg, emitP_plain h]

/-- The relation a condition code names (R107). -/
def condition (cc : CC) (a b : Word) : Prop :=
  match cc with
  | .eq => a = b
  | .ne => a ≠ b
  | .lt => a.toInt < b.toInt
  | .le => a.toInt ≤ b.toInt
  | .gt => a.toInt > b.toInt
  | .ge => a.toInt ≥ b.toInt
  | .ltn => a.toNat < b.toNat
  | .len => a.toNat ≤ b.toNat
  | .gtn => a.toNat > b.toNat
  | .gen => a.toNat ≥ b.toNat

theorem ccHolds_iff (cc : CC) (a b : Word) : ccHolds cc true a b = true ↔ condition cc a b := by
  cases cc <;> simp [ccHolds, ccInt, ccUnsigned, readI, condition, BitVec.toInt_inj]

/-- What a compare gives, by whether its condition holds. -/
theorem predAll_ccHolds (cc : CC) (a b : Word) :
    (condition cc a b → predAll (ccHolds cc true a b) = BitVec.allOnes 32) ∧
    (¬ condition cc a b → predAll (ccHolds cc true a b) = 0) := by
  rw [← ccHolds_iff, predAll]
  exact ⟨fun h => if_pos h, fun h => if_neg h⟩

theorem cmp_gives {s : State} {g : Guard} (h : plain s) (hg : guardOn s g = true) (cc : CC) (d : Dst 16) (a b : Src 64) :
    givesP (.cmp cc g d a b) s s 1 d (BitVec.allOnes 32) (predAll (ccHolds cc true (readS s a) (readS s b))) 0 :=
  givesP_of_exec (fun s => predAll (ccHolds cc true (readS s a) (readS s b))) h hg rfl
theorem cmpImm_gives {s : State} {g : Guard} (h : plain s) (hg : guardOn s g = true) (cc : CC) (d : Dst 16) (a : Src 64)
    (imm : BitVec 23) :
    givesP (.cmpImm cc g d a imm) s s 1 d (BitVec.allOnes 32) (predAll (ccHolds cc true (readS s a) (imm.signExtend
        64))) 0 :=
  givesP_of_exec (fun s => predAll (ccHolds cc true (readS s a) (imm.signExtend 64))) h hg rfl

theorem pred2_gives {i : Instr} {s : State} {x : P2} (f : Pred → Pred → Pred) (h : plain s) (hg : guardOn s x.g = true)
    (hi : exec i s = pred2 x f s) : givesP i s s 1 x.d (BitVec.allOnes 32) (f (readP s x.a) (readP s x.b)) 0 :=
  givesP_of_exec (fun s => f (readP s x.a) (readP s x.b)) h hg hi
theorem pnot_gives {s : State} {x : P1} (h : plain s) (hg : guardOn s x.g = true) :
    givesP (.pnot x) s s 1 x.d (BitVec.allOnes 32) (~~~(readP s x.a)) 0 :=
  givesP_of_exec (fun s => ~~~(readP s x.a)) h hg rfl
theorem pfroms_gives {s : State} {g : Guard} (h : plain s) (hg : guardOn s g = true) (d : Dst 16) (a : Src 64) :
    givesP (.pfroms g d a) s s 1 d (BitVec.allOnes 32) ((readS s a).setWidth 32) 0 :=
  givesP_of_exec (fun s => (readS s a).setWidth 32) h hg rfl
theorem ptos_gives {s : State} {g : Guard} (h : plain s) (hg : guardOn s g = true) (d : Dst 64) (a : Src 16) :
    givesS (.ptos g d a) s s 1 d ((readP s a).setWidth 64) := by
  have hi : exec (.ptos g d a) s = whenOn g (fun s => emitS 1 d ((readP s a).setWidth 64) 0 s) s := rfl
  rw [givesS, hi, whenOn_on _ hg, emitS_plain h]

theorem physP_zero (prb : BitVec 3) : physP prb 0 = 0 := rfl
theorem readP_zero (s : State) : readP s (.reg 0) = BitVec.allOnes 32 := by rw [readP, physP_zero, getP_zero]

/-- Settles O3: each operation puts its one result in flight, and a condition code's integer test is its relation. -/
theorem compareAndPredicateResults : Obligations.CompareAndPredicateResults := by
  refine ⟨fun s cc g d a h hg => ⟨fun b => ⟨_, cmp_gives h hg cc d a b, ?_⟩, fun imm => ⟨_, cmpImm_gives h hg cc d a
      imm, ?_⟩⟩,
    fun s x h hg => ⟨pred2_gives (· &&& ·) h hg rfl, pred2_gives (· ||| ·) h hg rfl, pred2_gives (· ^^^ ·) h hg rfl,
      pred2_gives (fun a b => a &&& ~~~b) h hg rfl⟩,
    fun s x h hg => pnot_gives h hg, fun s g d a h hg => pfroms_gives h hg d a, fun s g d a h hg => ptos_gives h hg d a,
    readP_zero⟩
  · have hr := predAll_ccHolds cc (readS s a) (readS s b)
    cases cc <;> exact hr
  · have hr := predAll_ccHolds cc (readS s a) (imm.signExtend 64)
    cases cc <;> exact hr

end Sys2Proof.Machine

namespace Sys2Proof.Machine

/-! ## Rotating names (R100, R206) -/

theorem physV_val (r : BitVec 6) (i : Fin 128) :
    (physV r i).val = if i.val < 64 then i.val else 64 + (i.val - 64 + r.toNat) % 64 := by
  unfold physV
  split
  · rfl
  · exact Nat.mod_eq_of_lt (by omega)

theorem physP_val (r : BitVec 3) (i : Fin 16) :
    (physP r i).val = if i.val < 8 then i.val else 8 + (i.val - 8 + r.toNat) % 8 := by
  unfold physP
  split
  · rfl
  · exact Nat.mod_eq_of_lt (by omega)

/-- A name's register is in the name's half of the file, so that p0 alone names p0. -/
theorem physP_eq_zero_iff (r : BitVec 3) (i : Fin 16) : physP r i = 0 ↔ i = 0 := by
  simp only [Fin.ext_iff, physP_val]
  split
  · rfl
  · simp
    omega

theorem readP_reg (s : State) (i : Fin 16) :
    readP s (.reg i) = if i = 0 then BitVec.allOnes 32 else s.core.a.p.get (physP s.core.a.prb i) := by
  simp only [readP, getP, physP_eq_zero_iff]

theorem physV_injective (r : BitVec 6) {i j : Fin 128} (h : physV r i = physV r j) : i = j := by
  have hv := congrArg Fin.val h
  rw [physV_val, physV_val] at hv
  ext
  split at hv <;> split at hv <;> omega

theorem physP_injective (r : BitVec 3) {i j : Fin 16} (h : physP r i = physP r j) : i = j := by
  have hv := congrArg Fin.val h
  rw [physP_val, physP_val] at hv
  ext
  split at hv <;> split at hv <;> omega

/-- A rotation takes one from the base, modulo the rotating half's size. -/
theorem physV_rotated (r : BitVec 6) {i j : Fin 128} (hi : 64 ≤ i.val) (hj : j.val = i.val + 1) :
    physV (r - 1) j = physV r i := by
  ext
  rw [physV_val, physV_val, if_neg (by omega), if_neg (by omega), BitVec.toNat_sub]
  have := r.isLt
  simp
  omega

theorem physP_rotated (r : BitVec 3) {i j : Fin 16} (hi : 8 ≤ i.val) (hj : j.val = i.val + 1) :
    physP (r - 1) j = physP r i := by
  ext
  rw [physP_val, physP_val, if_neg (by omega), if_neg (by omega), BitVec.toNat_sub]
  have := r.isLt
  simp
  omega

/-- Settles O23: a rotating name's register is its distance from the half's base, plus the rotation base, modulo the
    half. -/
theorem rotatingNames : Obligations.RotatingNames :=
  ⟨fun _ _ => rfl, readP_reg, physV_val, physP_val, fun r _ _ => physV_injective r, fun r _ _ => physP_injective r,
    fun r _ _ => physV_rotated r, fun r _ _ => physP_rotated r⟩

end Sys2Proof.Machine

namespace Sys2Proof.Machine

/-! ## The header's checks (R117) -/

/-- What fails checks 1 to 5. -/
def headerBad (h : Word) : Nat → Prop
  | 1 => hClass h ≠ 0 ∧ hClass h ≠ 1
  | 2 => 4 < (hScope h).toNat
  | 3 => hRun h ≠ 0 ∧ hClass h = 0
  | 4 => ∃ p, p < 6 ∧ (hPort h p).getLsbD 4 = true ∧ 10 ≤ ((hPort h p).extractLsb' 0 4).toNat
  | 5 => ∃ p, p < 6 ∧ (hPort h p).getLsbD 4 = false ∧ hPort h p ≠ 0
  | _ => False

section Header
variable {h : Word}

theorem classTest_iff : (hClass h != 0 && hClass h != 1) = true ↔ headerBad h 1 := by simp [headerBad]
theorem runTest_iff : (hRun h != 0 && hClass h == 0) = true ↔ headerBad h 3 := by simp [headerBad]
theorem portCodeTest_iff : (((List.range 6).map (hPort h)).any fun p =>
    p.getLsbD 4 && 10 ≤ (p.extractLsb' 0 4).toNat) = true ↔ headerBad h 4 := by
  simp [headerBad, -BitVec.extractLsb'_toNat]
theorem portOffTest_iff : (((List.range 6).map (hPort h)).any fun p => !p.getLsbD 4 && p != 0) = true ↔ headerBad h 5
    := by
  simp [headerBad]

theorem scopeTest_iff : 4 < (hScope h).toNat ↔ headerBad h 2 := Iff.rfl

theorem headerStop_none (hg : ∀ n, ¬ headerBad h n) : headerStop h = none := by
  simp only [headerStop, classTest_iff, scopeTest_iff, runTest_iff, portCodeTest_iff, portOffTest_iff, hg, if_false]

/-- The header's fault is that of the first check that fails. -/
theorem headerStop_first {n : Nat} (h1 : 1 ≤ n) (h5 : n ≤ 5) (hn : headerBad h n) (hm : ∀ m, m < n → ¬ headerBad h m) :
    headerStop h = some (if n = 3 ∨ n = 5 then 0x02 else 0x01) := by
  simp only [headerStop]
  interval_cases n
  · exact if_pos (classTest_iff.2 hn)
  · rw [if_neg (mt classTest_iff.1 (hm 1 (by decide)))]
    exact if_pos (scopeTest_iff.2 hn)
  · rw [if_neg (mt classTest_iff.1 (hm 1 (by decide))), if_neg (mt scopeTest_iff.1 (hm 2 (by decide)))]
    exact if_pos (runTest_iff.2 hn)
  · rw [if_neg (mt classTest_iff.1 (hm 1 (by decide))), if_neg (mt scopeTest_iff.1 (hm 2 (by decide))),
      if_neg (mt runTest_iff.1 (hm 3 (by decide)))]
    exact if_pos (portCodeTest_iff.2 hn)
  · rw [if_neg (mt classTest_iff.1 (hm 1 (by decide))), if_neg (mt scopeTest_iff.1 (hm 2 (by decide))),
      if_neg (mt runTest_iff.1 (hm 3 (by decide))), if_neg (mt portCodeTest_iff.1 (hm 4 (by decide)))]
    exact if_pos (portOffTest_iff.2 hn)

end Header

/-! ## A slot that is not occupied (check 6) -/

section Slots
variable {s : State} {b : BundleBits} {k : Fin 8}

theorem slotChecks_empty (ho : (hOcc (headerOf b)).getLsbD k.val = false) (hw : slotOf b k.val = 0) :
    slotChecks s b k = .ok { slot := k, ops := [] } := by
  simp only [slotChecks, ho, hw]
  rfl

theorem slotChecks_stray (ho : (hOcc (headerOf b)).getLsbD k.val = false) (hw : slotOf b k.val ≠ 0) :
    slotChecks s b k = .error ⟨k.val, 0x02, (slotOf b k.val).setWidth 64⟩ := by
  simp only [slotChecks, ho]
  exact if_pos (bne_iff_ne.2 hw)

/-- The first slot at fault gives the fault. -/
theorem allSlots_error {e : Stop} (he : slotChecks s b k = .error e) (l : List (Fin 8)) (hk : k ∈ l)
    (hl : l.Pairwise (· < ·)) (hb : ∀ j, j < k → slotChecks s b j = .ok { slot := j, ops := [] }) :
    allSlots s b l = .error e := by
  induction l with
  | nil => cases hk
  | cons j l ih =>
    obtain ⟨hj, hl⟩ := List.pairwise_cons.1 hl
    rcases List.mem_cons.1 hk with rfl | hk
    · rw [allSlots, he]
    · rw [allSlots, hb j (hj k hk), ih hk hl]

theorem allSlots_empty (hb : ∀ j, slotChecks s b j = .ok { slot := j, ops := [] }) (l : List (Fin 8)) :
    allSlots s b l = .ok [] := by
  induction l with
  | nil => rfl
  | cons j l ih => rw [allSlots, hb j, ih]; rfl

theorem checks_of_headerStop {c : Byte} (h : headerStop (headerOf b) = some c) : checks s b = .error ⟨8, c, headerOf
    b⟩ := by
  rw [checks, h]
theorem checks_of_slot {e : Stop} (h : headerStop (headerOf b) = none) (he : allSlots s b (List.finRange 8) = .error e) :
    checks s b = .error e := by rw [checks, h, he]
theorem checks_of_none (h : headerStop (headerOf b) = none) (he : allSlots s b (List.finRange 8) = .ok [])
    (hp : portCodes (headerOf b) = []) : checks s b = .ok [] := by
  simp [checks, h, he, hp]

end Slots

/-- Settles O20: the header's test is the first check that fails, and a good header leaves the fault to the first slot at
fault. -/
theorem headerFaultsComeFirst : Obligations.HeaderFaultsComeFirst := by
  intro s b
  refine ⟨fun n h1 h5 hn hm => checks_of_headerStop (headerStop_first h1 h5 hn hm), fun hg k hb ho hw => ?_, fun hg
      hb hp => ?_⟩
  · refine checks_of_slot (headerStop_none hg) (allSlots_error (slotChecks_stray ho hw) _ (List.mem_finRange k) ?_
      fun j hj => ?_)
    · exact List.pairwise_lt_finRange 8
    · exact slotChecks_empty (hb j hj).1 (hb j hj).2
  · exact checks_of_none (headerStop_none hg) (allSlots_empty (fun j => slotChecks_empty (hb j).1 (hb j).2) _) hp

end Sys2Proof.Machine

namespace Sys2Proof.Machine

/-- Settles O16: the decoder, run on each of the words, gives the instruction. -/
theorem decodesWrittenWords : Obligations.DecodesWrittenWords := by
  unfold Obligations.DecodesWrittenWords
  exact ⟨rfl, rfl, rfl, rfl, rfl, rfl, rfl, rfl, rfl, rfl, rfl, rfl, rfl, rfl, rfl, rfl, rfl, rfl⟩

end Sys2Proof.Machine

namespace Sys2Proof.Machine

/-! ## Every instruction and every event answers a next state -/

theorem next_ite {c : Prop} [Decidable c] {a b : Host.Outcome State Fault Refusal} (ha : ∃ t, a = .next t)
    (hb : ∃ t, b = .next t) : ∃ t, (if c then a else b) = .next t := by
  split
  · exact ha
  · exact hb

/-- What may not stand in a region rolls it back (R238). -/
theorem closes_next {f : State → Host.Outcome State Fault Refusal} {s : State} (hf : ∃ t, f s = .next t) :
    ∃ t, closes f s = .next t := next_ite ⟨_, rfl⟩ hf

theorem execCollComplete_next (run : CollRun) (s : State) : ∃ t, execCollComplete run s = .next t := by
  unfold execCollComplete
  dsimp only
  repeat' split
  all_goals exact ⟨_, rfl⟩
theorem execDdbgResume_next (die : Fin 4) (slot : BitVec 12) (s : State) : ∃ t, execDdbgResume die slot s = .next t := by
  unfold execDdbgResume
  dsimp only
  repeat' split
  all_goals exact ⟨_, rfl⟩
theorem execDdbgStep_next (die : Fin 4) (slot : BitVec 12) (s : State) : ∃ t, execDdbgStep die slot s = .next t := by
  unfold execDdbgStep
  dsimp only
  repeat' split
  all_goals exact ⟨_, rfl⟩
theorem execDdbgStop_next (die : Fin 4) (slot : BitVec 12) (s : State) : ∃ t, execDdbgStop die slot s = .next t := by
  unfold execDdbgStop
  dsimp only
  repeat' split
  all_goals exact ⟨_, rfl⟩
theorem execDfcmdCancel_next (die : Fin 4) (dom : BitVec 12) (s : State) : ∃ t, execDfcmdCancel die dom s = .next t := by
  unfold execDfcmdCancel
  dsimp only
  repeat' split
  all_goals exact ⟨_, rfl⟩
theorem execDfcmdResume_next (die : Fin 4) (dom : BitVec 12) (s : State) : ∃ t, execDfcmdResume die dom s = .next t := by
  unfold execDfcmdResume
  dsimp only
  repeat' split
  all_goals exact ⟨_, rfl⟩
theorem execDmrtApply_next (die : Fin 4) (s : State) : ∃ t, execDmrtApply die s = .next t := by
  unfold execDmrtApply
  dsimp only
  repeat' split
  all_goals exact ⟨_, rfl⟩
theorem execEngineCommandStart_next (id : Nat) (s : State) : ∃ t, execEngineCommandStart id s = .next t := by
  unfold execEngineCommandStart
  repeat' split
  all_goals exact ⟨_, rfl⟩
theorem execEngineItemComplete_next (id item : Nat) (s : State) : ∃ t, execEngineItemComplete id item s = .next t := by
  unfold execEngineItemComplete
  repeat' split
  all_goals exact ⟨_, rfl⟩
theorem execLaunchDispatch_next (die : Fin 4) (s : State) : ∃ t, execLaunchDispatch die s = .next t := by
  unfold execLaunchDispatch
  dsimp only
  repeat' split
  all_goals exact ⟨_, rfl⟩
theorem execMigrationReply_next (ktt vbase : Nat) (s : State) : ∃ t, execMigrationReply ktt vbase s = .next t := by
  unfold execMigrationReply
  split
  · exact ⟨_, rfl⟩
  · split
    · exact ⟨_, rfl⟩
    · exact next_ite ⟨_, rfl⟩ ⟨_, rfl⟩
theorem execNodeComplete_next (launch node : Nat) (s : State) : ∃ t, execNodeComplete launch node s = .next t := by
  unfold execNodeComplete
  repeat' split
  all_goals exact ⟨_, rfl⟩
theorem execNodeFail_next (launch node : Nat) (cause : BitVec 8) (s : State) : ∃ t, execNodeFail launch node cause s
    = .next t := by
  unfold execNodeFail
  repeat' split
  all_goals exact ⟨_, rfl⟩
theorem execOrderedAtomicArrival_next (slice n : Nat) (s : State) : ∃ t, execOrderedAtomicArrival slice n s = .next t
    := by
  unfold execOrderedAtomicArrival
  dsimp only
  repeat' split
  all_goals exact ⟨_, rfl⟩
theorem execSscanComplete_next (id : Nat) (s : State) : ∃ t, execSscanComplete id s = .next t := by
  unfold execSscanComplete
  dsimp only
  repeat' split
  all_goals exact ⟨_, rfl⟩
theorem execWaitNodeSatisfied_next (launch node : Nat) (s : State) : ∃ t, execWaitNodeSatisfied launch node s = .next
    t := by
  unfold execWaitNodeSatisfied
  dsimp only
  repeat' split
  all_goals exact ⟨_, rfl⟩
theorem execWaitingTaskReady_next (task : Nat) (s : State) : ∃ t, execWaitingTaskReady task s = .next t := by
  unfold execWaitingTaskReady
  dsimp only
  repeat' split
  all_goals exact ⟨_, rfl⟩
theorem execLdc_next (x : LG) (s : State) : ∃ t, execLdc x s = .next t := by
  unfold execLdc
  dsimp only
  repeat' split
  all_goals exact ⟨_, rfl⟩
theorem execStg_next (x : SG) (s : State) : ∃ t, execStg x s = .next t := by
  unfold execStg
  dsimp only
  repeat' split
  all_goals exact ⟨_, rfl⟩
theorem execStc_next (x : SG) (s : State) : ∃ t, execStc x s = .next t := by
  unfold execStc
  dsimp only
  repeat' split
  all_goals exact ⟨_, rfl⟩
theorem execSt_next (g : Guard) (a : StSrc) (m : MAddr) (buf : Fin 16) (s : State) : ∃ t, execSt g a m buf s = .next
    t := by
  unfold execSt
  dsimp only
  repeat' split
  all_goals exact ⟨_, rfl⟩
theorem execLdx_next (g : Guard) (z : ESz) (d : Dst 128) (a : Src 64) (b : Src 128) (s : State) : ∃ t, execLdx g z d
    a b s = .next t := by
  unfold execLdx
  dsimp only
  repeat' split
  all_goals exact ⟨_, rfl⟩
theorem execLoop_next (k : Fin 4) (off : BitVec 32) (s : State) : ∃ t, execLoop k off s = .next t := by
  unfold execLoop
  dsimp only
  repeat' split
  all_goals exact ⟨_, rfl⟩
theorem execLoopx_next (k : Fin 4) (off : BitVec 32) (s : State) : ∃ t, execLoopx k off s = .next t := by
  unfold execLoopx
  dsimp only
  repeat' split
  all_goals exact ⟨_, rfl⟩
theorem execCkpt_next (off : BitVec 32) (s : State) : ∃ t, execCkpt off s = .next t := by
  unfold execCkpt
  dsimp only
  repeat' split
  all_goals exact ⟨_, rfl⟩
theorem execCheck_next (p : Fin 16) (s : State) : ∃ t, execCheck p s = .next t := by
  unfold execCheck
  repeat' split
  all_goals exact ⟨_, rfl⟩
theorem execVquantF_next (d : Dst 128) (a : Src 128) (side : Bool) (k : Fin 4) (crm : Rnd) (s : State) : ∃ t,
    execVquantF d a side k crm s = .next t := by
  unfold execVquantF
  dsimp only
  repeat' split
  all_goals exact ⟨_, rfl⟩
theorem execHalt_next (g : Guard) (s : State) : ∃ t, execHalt g s = .next t := by
  unfold execHalt
  exact closes_next ⟨_, rfl⟩
theorem execTswait_next (a : Src 64) (s : State) : ∃ t, execTswait a s = .next t :=
  closes_next (next_ite ⟨_, rfl⟩ ⟨_, rfl⟩)

theorem dispWrite_next (die : Fin 4) (off : Nat) (v : Word) (s : State) : ∃ t, dispWrite die off v s = .next t := by
  unfold dispWrite
  split
  · exact ⟨_, rfl⟩
  · exact ⟨_, rfl⟩
  · split
    · exact ⟨_, rfl⟩
    · exact execDfcmdResume_next _ _ _
    · exact execDfcmdCancel_next _ _ _
    · exact ⟨_, rfl⟩
  · split
    · exact execDdbgStop_next _ _ _
    · exact execDdbgStep_next _ _ _
    · exact execDdbgResume_next _ _ _
    · exact ⟨_, rfl⟩
  · exact ⟨_, rfl⟩
  · exact ⟨_, rfl⟩
  · exact ⟨_, rfl⟩
theorem execRegisterWrite_next (r : DevReg) (v : Word) (s : State) : ∃ t, execRegisterWrite r v s = .next t := by
  cases r with
  | disp die off => exact dispWrite_next die off v s
  | _ => exact ⟨_, rfl⟩

theorem exec_next (i : Instr) (s : State) : ∃ t, exec i s = .next t := by
  cases i with
  | loop k off => exact execLoop_next k off s
  | loopx k off => exact execLoopx_next k off s
  | ckpt off => exact execCkpt_next off s
  | check p => exact execCheck_next p s
  | trap | bkpt | swr => exact closes_next ⟨_, rfl⟩
  | halt g => exact execHalt_next g s
  | tswait a => exact execTswait_next a s
  | vquantF d a side k crm => exact execVquantF_next d a side k crm s
  | st g a m buf => exact execSt_next g a m buf s
  | ldx g z d a b => exact execLdx_next g z d a b s
  | stg x => exact execStg_next x s
  | ldc x => exact execLdc_next x s
  | stc x => exact execStc_next x s
  | aadd | amin | amax | aminn | amaxn | aand | aor | axor | axchg | acas | afadd | atomicOrd =>
    exact closes_next ⟨_, rfl⟩
  | orderedAtomicArrival slice n => exact execOrderedAtomicArrival_next slice n s
  | acq | rel | relf | fence | fencex | cwaddAdd | cwaddArrive | cwaddRead | waitcw => exact closes_next ⟨_, rfl⟩
  | engineCommandStart id => exact execEngineCommandStart_next id s
  | engineItemComplete id item => exact execEngineItemComplete_next id item s
  | sscanComplete id => exact execSscanComplete_next id s
  | collComplete run => exact execCollComplete_next run s
  | launchDispatch die => exact execLaunchDispatch_next die s
  | nodeComplete l n => exact execNodeComplete_next l n s
  | nodeFail l n cause => exact execNodeFail_next l n cause s
  | waitNodeSatisfied l n => exact execWaitNodeSatisfied_next l n s
  | waitingTaskReady task => exact execWaitingTaskReady_next task s
  | migrationReply ktt vbase => exact execMigrationReply_next ktt vbase s
  | dfcmdResume die dom => exact execDfcmdResume_next die dom s
  | dfcmdCancel die dom => exact execDfcmdCancel_next die dom s
  | ddbgStop die slot => exact execDdbgStop_next die slot s
  | ddbgStep die slot => exact execDdbgStep_next die slot s
  | ddbgResume die slot => exact execDdbgResume_next die slot s
  | dmrtApply die => exact execDmrtApply_next die s
  | registerWrite r v => exact execRegisterWrite_next r v s
  | _ => exact ⟨_, rfl⟩

theorem runWork_next (w : Work) (s : State) : ∃ t, runWork w s = .next t := by
  cases w with
  | run k j last i =>
    obtain ⟨t, ht⟩ := exec_next i (s.mapCore fun c =>
      { c with slot := k, chain := if j = 0 then none else c.chain, chainLast := last })
    exact ⟨_, by rw [runWork, ht]⟩
  | trap | finish => exact ⟨_, rfl⟩
  | event i =>
    obtain ⟨t, ht⟩ := exec_next i s
    exact ⟨_, by rw [runWork, ht]⟩

theorem drain_next (n : Nat) (s : State) : ∃ t, drain n s = .next t := by
  induction n generalizing s with
  | zero => exact ⟨_, rfl⟩
  | succ n ih =>
    cases ha : s.agenda with
    | nil => exact ⟨s, by rw [drain, ha]⟩
    | cons w r =>
      obtain ⟨t, ht⟩ := runWork_next w { s with agenda := r }
      obtain ⟨u, hu⟩ := ih t
      exact ⟨u, by rw [drain, ha]; simp only [ht, hu]⟩

/-- Settles O60: every arm of the dispatch answers a next state, so each item of a step's work does, and the step. -/
theorem stepAlwaysNext : Obligations.StepAlwaysNext := ⟨exec_next, fun s => drain_next stepFuel (loadAgenda s)⟩

end Sys2Proof.Machine

namespace Sys2Proof.Machine

/-! ## A step at a bundle's issue -/

/-- No work is left, and no core traces. -/
def Quiet (s : State) : Prop := s.agenda = [] ∧ ∀ c ∈ coresOf s, traceOn c.m = false

theorem Quiet.core {s : State} (h : Quiet s) : traceOn s.core.m = false := h.2 s.core (List.mem_cons_self ..)

theorem Quiet.of_core {s t : State} (h : Quiet s) (ha : t.agenda = []) (ho : t.others = s.others)
    (hm : t.core.m.tctl = s.core.m.tctl) : Quiet t := by
  refine ⟨ha, fun c hc => ?_⟩
  obtain rfl | hc := List.mem_cons.1 hc
  · rw [traceOn, hm]
    exact h.core
  · exact h.2 c (List.mem_cons_of_mem _ (ho ▸ hc))

/-- Without a tracing core nothing is recorded. -/
theorem traced_of_quiet {k : BitVec 4} {a b : State} (h : ∀ c ∈ coresOf b, traceOn c.m = false) : traced k a b = b :=
  if_neg (by simpa using h)

theorem mem_insertCore {c d : Core} {l : List Core} (h : d ∈ insertCore c l) : d = c ∨ d ∈ l := by
  induction l with
  | nil => exact .inl (List.mem_singleton.1 h)
  | cons e r ih =>
    unfold insertCore at h
    split at h
    · exact List.mem_cons.1 h
    · obtain rfl | h := List.mem_cons.1 h
      · exact .inr (List.mem_cons_self ..)
      · exact (ih h).imp_right (List.mem_cons_of_mem _)

theorem traceOn_coreOf {s : State} (h : Quiet s) (n : Nat) : traceOn (coreOf s n).m = false := by
  unfold coreOf
  split
  · exact h.core
  · cases hf : s.others.find? fun c => c.id == n with
    | none => simp [traceOn, Core.reset, Meas.reset]
    | some c => exact h.2 c (List.mem_cons_of_mem _ (List.mem_of_find?_eq_some hf))

theorem Quiet.focus {s : State} (h : Quiet s) (n : Nat) : Quiet (focus n s) := by
  unfold Machine.focus
  split
  · exact h
  · refine ⟨h.1, fun c hc => ?_⟩
    obtain rfl | hc := List.mem_cons.1 hc
    · exact traceOn_coreOf h n
    · obtain rfl | hc := mem_insertCore hc
      · exact h.core
      · exact h.2 c (List.mem_cons_of_mem _ (List.mem_filter.1 hc).1)

theorem Quiet.chargeStall {s : State} (h : Quiet s) (c : Stall) (n : Nat) : Quiet (chargeStall c n s) := by
  have hw : stallWork s.core c n = [] := if_neg (by simp [h.core])
  have hadd : (addStall c n s).others = s.others ∧ (addStall c n s).core.m.tctl = s.core.m.tctl := by
    unfold addStall
    dsimp only
    split <;> exact ⟨rfl, rfl⟩
  exact h.of_core (by simp [Machine.chargeStall, h.1, hw]) hadd.1 hadd.2

theorem Quiet.mateStall {s : State} (h : Quiet s) (each : Bool) (n : Nat) : Quiet (mateStall each n s) := by
  unfold Machine.mateStall
  split
  · exact h
  · split
    · exact h
    · exact List.foldlRecOn _ _ h fun u hu k _ => ((hu.focus k).chargeStall .freeze n).focus _

theorem Quiet.moreCycles {s : State} (h : Quiet s) (c : Stall) (n : Nat) : Quiet (moreCycles c n s) :=
  (h.chargeStall c n).mateStall true n

theorem Quiet.endStall {s : State} (h : Quiet s) : Quiet (endStall s) := by
  have hdrop : stallDue s.core = [] := by
    unfold stallDue stallWork
    split <;> simp [h.core]
  refine h.of_core ?_ rfl rfl
  simp only [Machine.endStall, dropStall, h.1, hdrop, h.core]
  cases s.core.wait <;> rfl

/-- A stream error noted at the end of the step leaves the registers and the work as they are. -/
theorem noteStreamErr_cases (l : List SlotOps) (s : State) :
    noteStreamErr l s = s ∨ ∃ e, noteStreamErr l s = s.mapCore fun c => { c with errs := c.errs ++ [e] } := by
  unfold noteStreamErr
  dsimp only
  split
  · split
    · exact .inr ⟨_, rfl⟩
    · exact .inl rfl
  · exact .inl rfl

theorem Quiet.noteStreamErr {s : State} (h : Quiet s) (l : List SlotOps) : Quiet (noteStreamErr l s) := by
  obtain heq | ⟨e, heq⟩ := noteStreamErr_cases l s <;> rw [heq]
  · exact h
  · exact h.of_core h.1 rfl rfl

theorem asIssued_noteStreamErr (l : List SlotOps) (s : State) (i : Instr) :
    asIssued (noteStreamErr l s) i = asIssued s i := by
  obtain heq | ⟨e, heq⟩ := noteStreamErr_cases l s <;> rw [heq]
  cases i <;> rfl

theorem done_noteStreamErr (l : List SlotOps) (s : State) : (noteStreamErr l s).core.sp.done = s.core.sp.done := by
  obtain heq | ⟨e, heq⟩ := noteStreamErr_cases l s <;> rw [heq]
  rfl

/-- A slot that holds one word runs it, once, as its operand says. -/
theorem slotWork_single {s : State} {k : Fin 8} (w : SlotWord) (i : Instr) (h : s.core.sp.done.getLsbD k.val = false) :
    slotWork s ⟨k, [(w, i)], false⟩ = [.run k 0 true (asIssued s i)] := by
  rw [slotWork, if_neg (by rw [h]; exact Bool.false_ne_true)]
  rfl

/-- What a bundle of one word starts on a core with nothing left to do: its word first. -/
theorem startBundle_single {s : State} {k : Fin 8} (w : SlotWord) (i : Instr) (h : Quiet s)
    (hdone : s.core.sp.done.getLsbD k.val = false) :
    (∃ rest, (startBundle [⟨k, [(w, i)], false⟩] s).agenda = .run k 0 true (asIssued s i) :: rest) ∧
      ∀ c ∈ coresOf (startBundle [⟨k, [(w, i)], false⟩] s), traceOn c.m = false := by
  set l : List SlotOps := [⟨k, [(w, i)], false⟩] with hl
  have hn := h.noteStreamErr l
  have hwork : l.flatMap (slotWork (noteStreamErr l s)) = [.run k 0 true (asIssued s i)] := by
    rw [hl, List.flatMap_singleton, slotWork_single w i (by rw [done_noteStreamErr]; exact hdone), asIssued_noteStreamErr]
  have hlanding := hn.endStall.of_core (t := (endStall (noteStreamErr l s)).mapCore fun c =>
    { c with landDue := true, pair := pairOf (noteStreamErr l s) l, y0 := c.a.y }) hn.endStall.1 rfl rfl
  have hq := (hlanding.moreCycles .split (splitCycles (noteStreamErr l s) (headerOf (noteStreamErr l s).core.bundle))).moreCycles
    .substitution (substCycles (todo (noteStreamErr l s) l))
  refine ⟨?_, hq.2⟩
  unfold startBundle
  dsimp only
  rw [hq.1, hwork]
  exact ⟨_, rfl⟩

theorem spread_closed {a : State} (b : State) (h : regionOpen a.core = false) : spread a b = b := by
  simp [spread, h]

/-- Outside a region, with no overrun of its yield claim, the core in focus goes on to its bundle. -/
theorem issue_eq_issueHere {s : State} (hrun : runnable s s.core = true) (hover : overrun s.core = false)
    (hreg : regionOpen s.core = false) : issue s = issueHere s := by
  have hblock : issueBlocked s = false := by
    simp only [runnable, canIssue, focus_self, Bool.and_eq_true, Bool.not_eq_true'] at hrun
    exact hrun.1.1
  simp [issue, hblock, stalledLeaving, hreg, hover, spread_closed]

/-- A core without a bundle of its gang to follow issues the bundle it fetches. -/
theorem issueHere_fetched {s s1 : State} {b : BundleBits} (hreg : regionOpen s.core = false) (hfeed : s.core.feed = [])
    (hwaits : fetchWaits s = false) (hfetch : fetch s = (.ok b, s1)) : issueHere s = issueBundle b s1 := by
  simp [issueHere, regionErr, hreg, hfeed, hwaits, hfetch]

/-- A bundle that no token holds and that passes the checks of R117 goes on with them. -/
theorem issueBundle_checked {s : State} {b : BundleBits} {l : List SlotOps}
    (ha : awaited (s.mapCore fun c => { c with bundle := b, chain := none }) b = [])
    (hr : renamed (s.mapCore fun c => { c with bundle := b, chain := none }) b = [])
    (hc : checks (s.mapCore fun c => { c with bundle := b, chain := none }) b = .ok l) :
    issueBundle b s = afterChecks b l (s.mapCore fun c => { c with bundle := b, chain := none }) := by
  simp [issueBundle, ha, hr, hc]

/-- A core that can run tries its bundle, and nothing else, in the next step. -/
theorem loadAgenda_runnable {s : State} (ha : s.agenda = []) (hs : s.script = []) (hrun : runnable s s.core = true)
    (hslice : s.core.slice % 64 ≠ 0) : loadAgenda s = { s with agenda := [tries s.core.id] } := by
  simp [loadAgenda, ha, hs, nextWork, hrun, hslice]

theorem drain_cons {n : Nat} {s : State} {w : Work} {r : List Work} (h : s.agenda = w :: r) :
    drain (n + 1) s = match runWork w { s with agenda := r } with
      | .next t => drain n t
      | o => o := by
  cases s
  cases h
  rfl

/-- The step of a core that issues: the issue, then what it leaves to do. -/
theorem step_issues {s : State} (ha : s.agenda = []) (hs : s.script = []) (hrun : runnable s s.core = true)
    (hslice : s.core.slice % 64 ≠ 0) : step s = drain 4095 (traced 8 s (issue s)) := by
  have hself : { { s with agenda := [tries s.core.id] } with agenda := [] } = s := by rw [← ha]
  have hmid : midBundle s = false := by simp [midBundle, ha]
  have hexec : exec (.bundleIssue s.core.id) s = .next (issue s) := by
    change execBundleIssue s.core.id s = _
    simp [execBundleIssue, hmid]
  rw [step, loadAgenda_runnable ha hs hrun hslice, stepFuel, drain_cons rfl, hself, tries]
  simp only [runWork, hexec]

/-- Settles O21: the issue leaves the word's run as the first work, and the rest of the step's work follows it. -/
theorem stepRunsDecodedInstruction : Obligations.StepRunsDecodedInstruction := by
  intro s s1 s4 b k w i hagenda hscript hrun hslice hover hreg hfeed hwaits hfetch s2 l hawaited hrenamed hchecks hafter
    hagenda4 hdone htrace
  have hquiet : Quiet s4 := ⟨hagenda4, by simpa using htrace⟩
  obtain ⟨⟨rest, hrest⟩, huntraced⟩ := startBundle_single w i hquiet hdone
  have hissue : issue s = startBundle l s4 := calc
    issue s = issueHere s := issue_eq_issueHere hrun hover hreg
    _ = issueBundle b s1 := issueHere_fetched hreg hfeed hwaits hfetch
    _ = startBundle l s4 := (issueBundle_checked hawaited hrenamed hchecks).trans hafter
  refine ⟨rest, hrest, ?_⟩
  rw [step_issues hagenda hscript hrun hslice, hissue, traced_of_quiet huntraced, drain_cons hrest]
  simp only [runWork, if_true]
  cases exec (asIssued s4 i) (({ startBundle l s4 with agenda := rest } : State).mapCore fun c =>
    { c with slot := k, chain := none, chainLast := true }) <;> rfl

end Sys2Proof.Machine
